-- ==== Sys2Proof/Word.lean ====
section
/-! DEFINITION. The word types of the Jorcel architecture and their plainest arithmetic (spec 00 R11, 01 R17, R18). -/

namespace Sys2Proof

/-- One byte of memory or of an instruction. -/
abbrev Byte := BitVec 8
/-- A general or k register (R17). -/
abbrev Word := BitVec 32
/-- A crumb latch, a register pair or a 64-bit register (R17, R18). -/
abbrev Dword := BitVec 64
/-- A 7-bit register code of a 32-bit instruction (R17). -/
abbrev Code := BitVec 7
/-- A 5-bit register code: 0-27 are g0-g27, 28-31 are c0-c3 (R36, R38). -/
abbrev Code5 := BitVec 5

/-- A pair: the low word first (R18). -/
def pairOf (lo hi : Word) : Dword := (hi ++ lo : BitVec 64)
/-- Bits [31:0] of a pair (R18). -/
def loWord (v : Dword) : Word := v.setWidth 32
/-- Bits [63:32] of a pair (R18). -/
def hiWord (v : Dword) : Word := (v >>> 32).setWidth 32

/-- The little-endian value of a list of bytes (R11). -/
def leValue : List Byte → Nat
  | [] => 0
  | b :: bs => b.toNat + 256 * leValue bs

/-- The `n` little-endian bytes of a value (R11). -/
def leBytes : Nat → Nat → List Byte
  | 0, _ => []
  | n + 1, v => BitVec.ofNat 8 v :: leBytes n (v / 256)

end Sys2Proof
end

