-- ==== Sys2Proof/Names.lean ====
section
/-! DEFINITION. The names by which an event refers to a thread, a block or a command, and the members of a fused
group (spec 04 R113): the plain data that the event constructors of Instr carry. -/

namespace Sys2Proof

/-- A thread position: core number 64*y + x in logical package coordinates (R1, R239), warp slot 0-47 and lane
0-31 (R22). -/
structure TRef where
  core : Nat
  slot : Nat
  lane : Nat
  deriving DecidableEq, Repr

/-- A block: the launch it belongs to and its index %blk in the rectangle (R22, R147). -/
structure BRef where
  launch : Nat
  idx : Nat
  deriving DecidableEq, Repr

/-- An instruction that can stand in a fused group, with the fields of its word (R113). A 16-bit member carries the
same name with the suffix 16. -/
inductive Fusable where
  | mullo (b a : Code) (n : Bool) (d : Code) (e : Bool)
  | mullo16 (b d : Code5) (e : Bool)
  | add (b a : Code) (n : Bool) (d : Code) (e : Bool)
  | add16 (b d : Code5) (e : Bool)
  | shli (s : BitVec 5) (a : Code) (n : Bool) (d : Code) (e : Bool)
  | movh (i : BitVec 16) (n : Bool) (d : Code) (e : Bool)
  | orl (i : BitVec 16) (n : Bool) (d : Code) (e : Bool)
  | icmp (w : BitVec 2) (b a : Code) (c : BitVec 4) (p : BitVec 2) (e : Bool)
  | fcmp (t : BitVec 2) (b a : Code) (c : BitVec 4) (p : BitVec 2) (e : Bool)
  | br (o : BitVec 20) (s : Bool) (p : BitVec 2)
  | fmul (b a : Code) (n : Bool) (d : Code) (e : Bool)
  | fmul16 (b d : Code5) (e : Bool)
  | fadd (b a : Code) (n : Bool) (d : Code) (e : Bool)
  | fadd16 (b d : Code5) (e : Bool)
  | ldS (o : BitVec 6) (s : BitVec 3) (a : Code) (n : Bool) (d : Code) (e : Bool)
  | pand (b a d : BitVec 2) (e : Bool)
  deriving DecidableEq, Repr

/-- What the management endpoint asks for over MCTP (R388, R391). -/
inductive MctpRequest where
  | log (offset : Nat)
  | almpol
  | almstat
  deriving DecidableEq, Repr

/-- The argument of an event: which thread, core, block or partition it concerns and what an outside agent supplies.
An event reads only the fields that its meaning names. -/
structure Arg where
  t : TRef := ⟨0, 0, 0⟩
  core : Nat := 0
  slot : Nat := 0
  k : Nat := 0
  blk : BRef := ⟨0, 0⟩
  part : Nat := 0
  tenant : Nat := 0
  writer : Option Nat := none
  v : Dword := 0
  off : Nat := 0
  n : Nat := 0
  bytes : List Byte := []
  flag : Bool := false
  temp : Int := 0
  maj : BitVec 6 := 0
  fused : List Fusable := []
  req : MctpRequest := .almpol
  deriving DecidableEq, Repr

/-- One partition of the map: its dies, its windows of expander and host memory as base and GiB, its NVMe namespace (R349). -/
structure Share where
  dies : List Nat
  expBase : Nat := 0
  expGiB : Nat := 0
  hostBase : Nat := 0
  hostGiB : Nat := 0
  nspace : Nat := 0
  deriving DecidableEq, Repr

/-- The partition map in the body of a firmware image (R349, R351, R372): the partitions in order of their numbers, and the
L2 ways that it names as the guest ways of the package. -/
structure PartMap where
  shares : List Share := []
  guestWays : List Nat := []
  deriving DecidableEq, Repr, Inhabited

/-- What fuses and slots fix of one part: the active core rows and the LPDDR-6 channels of a die (R7, R8), and the GiB of
expander memory installed behind the root ports (R205). -/
structure Hw where
  rows : Nat := 16
  channels : Nat := 16
  expGiB : Nat := 0
  deriving DecidableEq, Repr

/-- LPDDR-6 bytes present in each die's window: 4 GiB for a channel, so 64 GiB, or 56 GiB in FJ820-8L (R4, R8, R205). -/
def Hw.dieBytes (h : Hw) : Nat := h.channels * 2 ^ 32

end Sys2Proof
end

