-- ==== Sys2Proof/Syntax.lean ====
section
/-! DEFINITION. The instructions and events of the part (spec/opcode_table.json): one constructor per row, encoded
rows first, with the fields of the word (high bits first) as arguments; then the events, which have no encoding: what
an event concerns (a thread, a core, an outside input) stands in the state as its argument. Field names: a, b, d register codes; n the N bit
(R39); e the E bit (R35); c the third source of the RC form (R38); i, o immediates and offsets. -/

namespace Sys2Proof

/-- The operations and events of the part, one constructor per row of the table. -/
inductive Instr where
  /-- ADD (R83): Writes (A + B) mod 2^32 to gD. -/
  | add (b : BitVec 7) (a : BitVec 7) (n : Bool) (d : BitVec 7) (e : Bool)
  /-- SUB (R83): Writes (A − B) mod 2^32 to gD. -/
  | sub (b : BitVec 7) (a : BitVec 7) (n : Bool) (d : BitVec 7) (e : Bool)
  /-- AND (R83): Writes A AND B to gD. -/
  | and (b : BitVec 7) (a : BitVec 7) (n : Bool) (d : BitVec 7) (e : Bool)
  /-- OR (R83): Writes A OR B to gD. -/
  | or (b : BitVec 7) (a : BitVec 7) (n : Bool) (d : BitVec 7) (e : Bool)
  /-- XOR (R83): Writes A XOR B to gD. -/
  | xor (b : BitVec 7) (a : BitVec 7) (n : Bool) (d : BitVec 7) (e : Bool)
  /-- ANDN (R83): Writes A AND NOT B to gD. -/
  | andn (b : BitVec 7) (a : BitVec 7) (n : Bool) (d : BitVec 7) (e : Bool)
  /-- MIN_S (R83): Writes the signed minimum of A and B to gD. -/
  | minS (b : BitVec 7) (a : BitVec 7) (n : Bool) (d : BitVec 7) (e : Bool)
  /-- MAX_S (R83): Writes the signed maximum of A and B to gD. -/
  | maxS (b : BitVec 7) (a : BitVec 7) (n : Bool) (d : BitVec 7) (e : Bool)
  /-- MIN_U (R83): Writes the unsigned minimum of A and B to gD. -/
  | minU (b : BitVec 7) (a : BitVec 7) (n : Bool) (d : BitVec 7) (e : Bool)
  /-- MAX_U (R83): Writes the unsigned maximum of A and B to gD. -/
  | maxU (b : BitVec 7) (a : BitVec 7) (n : Bool) (d : BitVec 7) (e : Bool)
  /-- ABSD_S (R83): Writes the exact absolute signed difference as an unsigned value. -/
  | absdS (b : BitVec 7) (a : BitVec 7) (n : Bool) (d : BitVec 7) (e : Bool)
  /-- ADDSAT_S (R83): Writes the signed sum clamped to the INT32 range. -/
  | addsatS (b : BitVec 7) (a : BitVec 7) (n : Bool) (d : BitVec 7) (e : Bool)
  /-- SHL (R83): Shifts A left by uB[7:0]. -/
  | shl (b : BitVec 7) (a : BitVec 7) (n : Bool) (d : BitVec 7) (e : Bool)
  /-- SHR_U (R83): Shifts A right logically by uB[7:0]. -/
  | shrU (b : BitVec 7) (a : BitVec 7) (n : Bool) (d : BitVec 7) (e : Bool)
  /-- SHR_S (R83): Shifts A right arithmetically by uB[7:0]. -/
  | shrS (b : BitVec 7) (a : BitVec 7) (n : Bool) (d : BitVec 7) (e : Bool)
  /-- ROTL (R83): Rotates A left by B[4:0]. -/
  | rotl (b : BitVec 7) (a : BitVec 7) (n : Bool) (d : BitVec 7) (e : Bool)
  /-- MULLO (R84): Writes the low 32 bits of A × B. -/
  | mullo (b : BitVec 7) (a : BitVec 7) (n : Bool) (d : BitVec 7) (e : Bool)
  /-- MULHI_S (R84): Writes the high 32 bits of the signed product. -/
  | mulhiS (b : BitVec 7) (a : BitVec 7) (n : Bool) (d : BitVec 7) (e : Bool)
  /-- MULHI_U (R84): Writes the high 32 bits of the unsigned product. -/
  | mulhiU (b : BitVec 7) (a : BitVec 7) (n : Bool) (d : BitVec 7) (e : Bool)
  /-- MULW_S (R84): Writes the 64-bit signed product to a pair. -/
  | mulwS (b : BitVec 7) (a : BitVec 7) (n : Bool) (d : BitVec 7) (e : Bool)
  /-- MAD (R85): Writes (A × B + C) mod 2^32. -/
  | mad (c : BitVec 2) (b : BitVec 5) (a : BitVec 7) (n : Bool) (d : BitVec 7) (e : Bool)
  /-- MADW_S (R85): Writes the 64-bit signed multiply-add to a pair. -/
  | madwS (c : BitVec 2) (b : BitVec 5) (a : BitVec 7) (n : Bool) (d : BitVec 7) (e : Bool)
  /-- DOT4_I8 (R85): Adds the signed byte dot product of A and B to C. -/
  | dot4I8 (c : BitVec 2) (b : BitVec 5) (a : BitVec 7) (n : Bool) (d : BitVec 7) (e : Bool)
  /-- DOT4_N8 (R85): Adds the unsigned byte dot product of A and B to C. -/
  | dot4N8 (c : BitVec 2) (b : BitVec 5) (a : BitVec 7) (n : Bool) (d : BitVec 7) (e : Bool)
  /-- ADDI (R86): Adds the sign-extended imm9 to A. -/
  | addi (i : BitVec 9) (a : BitVec 7) (n : Bool) (d : BitVec 7) (e : Bool)
  /-- ANDI (R86): ANDs the sign-extended imm9 with A. -/
  | andi (i : BitVec 9) (a : BitVec 7) (n : Bool) (d : BitVec 7) (e : Bool)
  /-- ORI (R86): ORs the sign-extended imm9 with A. -/
  | ori (i : BitVec 9) (a : BitVec 7) (n : Bool) (d : BitVec 7) (e : Bool)
  /-- XORI (R86): XORs the sign-extended imm9 with A. -/
  | xori (i : BitVec 9) (a : BitVec 7) (n : Bool) (d : BitVec 7) (e : Bool)
  /-- SHLI (R87): Shifts A left by an immediate count. -/
  | shli (s : BitVec 5) (a : BitVec 7) (n : Bool) (d : BitVec 7) (e : Bool)
  /-- SHRI_U (R87): Shifts A right logically by an immediate count. -/
  | shriU (s : BitVec 5) (a : BitVec 7) (n : Bool) (d : BitVec 7) (e : Bool)
  /-- SHRI_S (R87): Shifts A right arithmetically by an immediate count. -/
  | shriS (s : BitVec 5) (a : BitVec 7) (n : Bool) (d : BitVec 7) (e : Bool)
  /-- ROTLI (R87): Rotates A left by an immediate count. -/
  | rotli (s : BitVec 5) (a : BitVec 7) (n : Bool) (d : BitVec 7) (e : Bool)
  /-- MOVH (R88): Sets gD to imm16 × 2^16. -/
  | movh (i : BitVec 16) (n : Bool) (d : BitVec 7) (e : Bool)
  /-- ORL (R88): ORs the zero-extended imm16 into gD. -/
  | orl (i : BitVec 16) (n : Bool) (d : BitVec 7) (e : Bool)
  /-- BFE_U (R89): Extracts a bit field zero-extended. -/
  | bfeU (b : BitVec 7) (a : BitVec 7) (n : Bool) (d : BitVec 7) (e : Bool)
  /-- BFE_S (R89): Extracts a bit field sign-extended. -/
  | bfeS (b : BitVec 7) (a : BitVec 7) (n : Bool) (d : BitVec 7) (e : Bool)
  /-- BFI (R89): Inserts the low bits of A into a field of gD. -/
  | bfi (b : BitVec 7) (a : BitVec 7) (n : Bool) (d : BitVec 7) (e : Bool)
  /-- PERMB (R89): Permutes, zeroes or sign-fills the bytes of A under nibble controls. -/
  | permb (b : BitVec 7) (a : BitVec 7) (n : Bool) (d : BitVec 7) (e : Bool)
  /-- POPC (R90): Counts the one bits of A. -/
  | popc (a : BitVec 7) (n : Bool) (d : BitVec 7) (e : Bool)
  /-- CLZ (R90): Counts the leading zeros of A. -/
  | clz (a : BitVec 7) (n : Bool) (d : BitVec 7) (e : Bool)
  /-- BREV (R90): Reverses the bit order of A. -/
  | brev (a : BitVec 7) (n : Bool) (d : BitVec 7) (e : Bool)
  /-- NEG (R90): Writes (0 − A) mod 2^32. -/
  | neg (a : BitVec 7) (n : Bool) (d : BitVec 7) (e : Bool)
  /-- ICMP (R91): Sets a predicate from an integer comparison of 32- or 64-bit operands. -/
  | icmp (w : BitVec 2) (b : BitVec 7) (a : BitVec 7) (c : BitVec 4) (p : BitVec 2) (e : Bool)
  /-- SEL (R92): Selects A or B by a predicate. -/
  | sel (p : BitVec 2) (b : BitVec 7) (a : BitVec 7) (n : Bool) (d : BitVec 7) (e : Bool)
  /-- PAND (R93): ANDs two predicates. -/
  | pand (b : BitVec 2) (a : BitVec 2) (d : BitVec 2) (e : Bool)
  /-- POR (R93): ORs two predicates. -/
  | por (b : BitVec 2) (a : BitVec 2) (d : BitVec 2) (e : Bool)
  /-- PXOR (R93): XORs two predicates. -/
  | pxor (b : BitVec 2) (a : BitVec 2) (d : BitVec 2) (e : Bool)
  /-- PNOT (R93): Inverts a predicate. -/
  | pnot (a : BitVec 2) (d : BitVec 2) (e : Bool)
  /-- FADD (R95): FP32 addition, rounded once in RNE. -/
  | fadd (b : BitVec 7) (a : BitVec 7) (n : Bool) (d : BitVec 7) (e : Bool)
  /-- FSUB (R95): FP32 subtraction, rounded once in RNE. -/
  | fsub (b : BitVec 7) (a : BitVec 7) (n : Bool) (d : BitVec 7) (e : Bool)
  /-- FMUL (R95): FP32 multiplication, rounded once in RNE. -/
  | fmul (b : BitVec 7) (a : BitVec 7) (n : Bool) (d : BitVec 7) (e : Bool)
  /-- FMAX (R95): FP32 maximumNumber. -/
  | fmax (b : BitVec 7) (a : BitVec 7) (n : Bool) (d : BitVec 7) (e : Bool)
  /-- FFMA (R97): Fused A × B + C with one rounding. -/
  | ffma (c : BitVec 2) (b : BitVec 5) (a : BitVec 7) (n : Bool) (d : BitVec 7) (e : Bool)
  /-- FFMS (R97): Fused A × B − C with one rounding. -/
  | ffms (c : BitVec 2) (b : BitVec 5) (a : BitVec 7) (n : Bool) (d : BitVec 7) (e : Bool)
  /-- FNFMA (R97): Fused −(A × B) + C with one rounding. -/
  | fnfma (c : BitVec 2) (b : BitVec 5) (a : BitVec 7) (n : Bool) (d : BitVec 7) (e : Bool)
  /-- FMAD2 (R97): Multiply then add with two roundings. -/
  | fmad2 (c : BitVec 2) (b : BitVec 5) (a : BitVec 7) (n : Bool) (d : BitVec 7) (e : Bool)
  /-- FMIN (R95): FP32 minimumNumber. -/
  | fmin (b : BitVec 7) (a : BitVec 7) (n : Bool) (d : BitVec 7) (e : Bool)
  /-- FCOPYSIGN (R96): Copies the sign of B onto A, bitwise. -/
  | fcopysign (b : BitVec 7) (a : BitVec 7) (n : Bool) (d : BitVec 7) (e : Bool)
  /-- FABS (R96): Clears the sign bit of A. -/
  | fabs (a : BitVec 7) (n : Bool) (d : BitVec 7) (e : Bool)
  /-- FNEG (R96): Inverts the sign bit of A. -/
  | fneg (a : BitVec 7) (n : Bool) (d : BitVec 7) (e : Bool)
  /-- FCMP (R98): Sets a predicate from a float comparison of FP32, BF16 or FP16 operands. -/
  | fcmp (t : BitVec 2) (b : BitVec 7) (a : BitVec 7) (c : BitVec 4) (p : BitVec 2) (e : Bool)
  /-- CVT (R102): Converts A under a conversion code and rounding mode. -/
  | cvt (m : BitVec 2) (k : BitVec 7) (a : BitVec 7) (n : Bool) (d : BitVec 7) (e : Bool)
  /-- PKBF (R105): Packs two FP32 values into a BF16 pair. -/
  | pkbf (b : BitVec 7) (a : BitVec 7) (n : Bool) (d : BitVec 7) (e : Bool)
  /-- PKH8 (R105): Packs four BF16 values into H8 elements. -/
  | pkh8 (b : BitVec 7) (a : BitVec 7) (n : Bool) (d : BitVec 7) (e : Bool)
  /-- UPKBF (R105): Unpacks a BF16 pair into two FP32 registers. -/
  | upkbf (a : BitVec 7) (n : Bool) (d : BitVec 7) (e : Bool)
  /-- UPKH8 (R105): Unpacks four H8 elements into two BF16 pairs. -/
  | upkh8 (a : BitVec 7) (n : Bool) (d : BitVec 7) (e : Bool)
  /-- RCP (R99): Correctly rounded reciprocal. -/
  | rcp (a : BitVec 7) (n : Bool) (d : BitVec 7) (e : Bool)
  /-- RSQ (R99): Correctly rounded reciprocal square root. -/
  | rsq (a : BitVec 7) (n : Bool) (d : BitVec 7) (e : Bool)
  /-- EX2 (R99): Correctly rounded 2^x. -/
  | ex2 (a : BitVec 7) (n : Bool) (d : BitVec 7) (e : Bool)
  /-- LG2 (R99): Correctly rounded log2 x. -/
  | lg2 (a : BitVec 7) (n : Bool) (d : BitVec 7) (e : Bool)
  /-- SQRT (R99): Correctly rounded square root. -/
  | sqrt (a : BitVec 7) (n : Bool) (d : BitVec 7) (e : Bool)
  /-- SIN (R99): Correctly rounded sin(πx). -/
  | sin (a : BitVec 7) (n : Bool) (d : BitVec 7) (e : Bool)
  /-- COS (R99): Correctly rounded cos(πx). -/
  | cos (a : BitVec 7) (n : Bool) (d : BitVec 7) (e : Bool)
  /-- TANH (R99): Correctly rounded tanh x. -/
  | tanh (a : BitVec 7) (n : Bool) (d : BitVec 7) (e : Bool)
  /-- HADD2 (R101): Adds two BF16 pairs elementwise. -/
  | hadd2 (b : BitVec 7) (a : BitVec 7) (n : Bool) (d : BitVec 7) (e : Bool)
  /-- HSUB2 (R101): Subtracts two BF16 pairs elementwise. -/
  | hsub2 (b : BitVec 7) (a : BitVec 7) (n : Bool) (d : BitVec 7) (e : Bool)
  /-- HMUL2 (R101): Multiplies two BF16 pairs elementwise. -/
  | hmul2 (b : BitVec 7) (a : BitVec 7) (n : Bool) (d : BitVec 7) (e : Bool)
  /-- HMAX2 (R101): maximumNumber of two BF16 pairs elementwise. -/
  | hmax2 (b : BitVec 7) (a : BitVec 7) (n : Bool) (d : BitVec 7) (e : Bool)
  /-- CBX (R106): Expands a pair of CB4 codes through the warp table. -/
  | cbx (b : BitVec 7) (a : BitVec 7) (n : Bool) (d : BitVec 7) (e : Bool)
  /-- CBQ (R106): Quantises two FP32 values to CB4 codes. -/
  | cbq (b : BitVec 7) (a : BitVec 7) (n : Bool) (d : BitVec 7) (e : Bool)
  /-- NQX (R106): Expands a pair of NQ4 codes. -/
  | nqx (b : BitVec 7) (a : BitVec 7) (n : Bool) (d : BitVec 7) (e : Bool)
  /-- NQQ (R106): Quantises two FP32 values to NQ4 codes. -/
  | nqq (b : BitVec 7) (a : BitVec 7) (n : Bool) (d : BitVec 7) (e : Bool)
  /-- HFMA2 (R101): Fused BF16-pair multiply-add. -/
  | hfma2 (c : BitVec 2) (b : BitVec 5) (a : BitVec 7) (n : Bool) (d : BitVec 7) (e : Bool)
  /-- HFMS2 (R101): Fused BF16-pair multiply-subtract. -/
  | hfms2 (c : BitVec 2) (b : BitVec 5) (a : BitVec 7) (n : Bool) (d : BitVec 7) (e : Bool)
  /-- BR (R107): Per-thread conditional branch on a predicate. -/
  | br (o : BitVec 20) (s : Bool) (p : BitVec 2)
  /-- JMP (R108): PC-relative jump. -/
  | jmp (o : BitVec 20)
  /-- CALL (R108): PC-relative call writing the link to g2:g3. -/
  | call (o : BitVec 20)
  /-- JR (R109): Jumps to the address in a pair. -/
  | jr (a : BitVec 7)
  /-- CALLR (R109): Calls the address in a pair, writing the link to g2:g3. -/
  | callr (a : BitVec 7)
  /-- RET (R109): Returns to the address in g2:g3. -/
  | ret
  /-- EXIT (R33): Ends the thread once its earlier accesses are accepted. -/
  | exit
  /-- JOIN (R110): Makes the thread wait at a reconvergence point. -/
  | join
  /-- NOP (R111): Does nothing but count in its loaf. -/
  | nop (e : Bool)
  /-- JTAB (R112): Transfers control through a table of offsets indexed by A. -/
  | jtab (o : BitVec 9) (a : BitVec 7) (n : BitVec 7)
  /-- HEEL (R50): Ends a loaf and names long-latency destinations to leave pending. -/
  | heel (b : BitVec 7) (a : BitVec 7) (d : BitVec 7)
  /-- RAYLD (R125): Loads a 64-byte ray record into a ray block. -/
  | rayld (a : BitVec 7) (n : Bool) (d : BitVec 7) (e : Bool)
  /-- BOXT (R126): Tests a ray block against every child box of a node. -/
  | boxt (b : BitVec 7) (a : BitVec 7) (n : Bool) (d : BitVec 7) (e : Bool)
  /-- DESC (R127): Moves a ray block into a child's frame. -/
  | desc (b : BitVec 7) (a : BitVec 7) (n : Bool) (d : BitVec 7) (e : Bool)
  /-- ASC (R127): Moves a ray block back to the node's frame. -/
  | asc (b : BitVec 7) (a : BitVec 7) (n : Bool) (d : BitVec 7) (e : Bool)
  /-- TRIT (R128): Tests every triangle of a leaf and records the best hit. -/
  | trit (a : BitVec 7) (n : Bool) (d : BitVec 7) (e : Bool)
  /-- TCMP (R131): Compares the hit keys of two ray blocks. -/
  | tcmp (b : BitVec 7) (a : BitVec 7) (n : Bool) (d : BitVec 7) (e : Bool)
  /-- TCVT (R131): Converts a ray block's t-value to FP32. -/
  | tcvt (a : BitVec 7) (n : Bool) (d : BitVec 7) (e : Bool)
  /-- HITW (R131): Stores a 32-byte hit record. -/
  | hitw (a : BitVec 7) (d : BitVec 7) (e : Bool)
  /-- RASTS (R132): Builds a raster record for one triangle in scratchpad. -/
  | rasts (b : BitVec 7) (a : BitVec 7) (n : Bool) (d : BitVec 7) (e : Bool)
  /-- RASTT (R133): Evaluates a 32-pixel tile against a raster record. -/
  | rastt (b : BitVec 7) (a : BitVec 7) (n : Bool) (d : BitVec 7) (e : Bool)
  /-- REFIT (R135): Computes a conservative child entry from bounds. -/
  | refit (b : BitVec 7) (a : BitVec 7) (n : Bool) (d : BitVec 7) (e : Bool)
  /-- VTXQ (R136): Quantises a vertex to leaf bytes. -/
  | vtxq (b : BitVec 7) (a : BitVec 7) (n : Bool) (d : BitVec 7) (e : Bool)
  /-- SHFL_IDX (R164): Shuffle from an indexed lane. -/
  | shflIdx (b : BitVec 7) (a : BitVec 7) (n : Bool) (d : BitVec 7) (e : Bool)
  /-- SHFL_UP (R164): Shuffle from a lower lane. -/
  | shflUp (b : BitVec 7) (a : BitVec 7) (n : Bool) (d : BitVec 7) (e : Bool)
  /-- SHFL_DOWN (R164): Shuffle from a higher lane. -/
  | shflDown (b : BitVec 7) (a : BitVec 7) (n : Bool) (d : BitVec 7) (e : Bool)
  /-- SHFL_XOR (R164): Shuffle from lane l XOR b. -/
  | shflXor (b : BitVec 7) (a : BitVec 7) (n : Bool) (d : BitVec 7) (e : Bool)
  /-- VOTE_ANY (R165): 1 if the predicate is true in some member lane. -/
  | voteAny (p : BitVec 2) (n : Bool) (d : BitVec 7) (e : Bool)
  /-- VOTE_ALL (R165): 1 if the predicate is true in every member lane. -/
  | voteAll (p : BitVec 2) (n : Bool) (d : BitVec 7) (e : Bool)
  /-- VOTE_BALLOT (R165): Delivers the lanes where the predicate is true and the absent set. -/
  | voteBallot (p : BitVec 2) (n : Bool) (d : BitVec 7) (e : Bool)
  /-- VOTE_UNI (R165): 1 if A is equal in every lane. -/
  | voteUni (a : BitVec 7) (n : Bool) (d : BitVec 7) (e : Bool)
  /-- REDADD_I (R165): Integer sum over the warp. -/
  | redaddI (a : BitVec 7) (n : Bool) (d : BitVec 7) (e : Bool)
  /-- REDADD_F (R78): FP32 sum over the warp by a fixed tree. -/
  | redaddF (a : BitVec 7) (n : Bool) (d : BitVec 7) (e : Bool)
  /-- REDMIN_S (R165): Signed minimum over the warp. -/
  | redminS (a : BitVec 7) (n : Bool) (d : BitVec 7) (e : Bool)
  /-- REDMAX_S (R165): Signed maximum over the warp. -/
  | redmaxS (a : BitVec 7) (n : Bool) (d : BitVec 7) (e : Bool)
  /-- MATCH (R165): Delivers the lanes whose A equals the receiver's. -/
  | matchLanes (a : BitVec 7) (n : Bool) (d : BitVec 7) (e : Bool)
  /-- COMPACT (R165): Delivers a stable partition index by a predicate. -/
  | compact (p : BitVec 2) (n : Bool) (d : BitVec 7) (e : Bool)
  /-- SCANADD (R165): Delivers the exclusive prefix sum and the total. -/
  | scanadd (a : BitVec 7) (n : Bool) (d : BitVec 7) (e : Bool)
  /-- ELECT (R165): Elects the lowest member lane. -/
  | elect (n : Bool) (d : BitVec 7) (e : Bool)
  /-- KNEAD (R173): Moves the thread into a kneading bin by key. -/
  | knead (b : BitVec 7) (a : BitVec 7) (c : BitVec 4)
  /-- KFLUSH (R175): Releases every bin of the block and waits until none holds its threads. -/
  | kflush
  /-- WRK (R163): Writes a k register of each touched warp. -/
  | wrk (k : BitVec 6) (a : BitVec 7) (e : Bool)
  /-- RDK (R162): Reads a k register. -/
  | rdk (k : BitVec 6) (n : Bool) (d : BitVec 7) (e : Bool)
  /-- BAR_SYNC (R168): Arrives at a workgroup barrier and waits for the flip. -/
  | barSync (b : BitVec 4)
  /-- BAR_ARRIVE (R168): Arrives at a workgroup barrier. -/
  | barArrive (b : BitVec 4) (e : Bool)
  /-- BAR_WAIT (R168): Waits for the barrier phase to differ from the token. -/
  | barWait (b : BitVec 4)
  /-- BAR_INIT (R169): Sets a barrier's expected count. -/
  | barInit (b : BitVec 4) (a : BitVec 7) (e : Bool)
  /-- GENBEG (R178): Warp rendezvous entering generator mode. -/
  | genbeg (b : BitVec 7) (a : BitVec 7)
  /-- YIELD (R179): Appends an entry to the proofing buffer. -/
  | yield (a : BitVec 7) (e : Bool)
  /-- TAKE (R185): Reads the lane's entry of the consumed frame. -/
  | take (p : BitVec 2) (n : Bool) (d : BitVec 7) (e : Bool)
  /-- GENNEXT (R186): Warp rendezvous ending a consumer pass. -/
  | gennext
  /-- LD_G (R250): Loads 1 to 32 bytes from global memory. -/
  | ldG (o : BitVec 6) (s : BitVec 3) (a : BitVec 7) (n : Bool) (d : BitVec 7) (e : Bool)
  /-- ST_G (R250): Stores 1 to 32 bytes to global memory. -/
  | stG (o : BitVec 6) (s : BitVec 3) (a : BitVec 7) (d : BitVec 7) (e : Bool)
  /-- LD_S (R250): Loads 1 to 32 bytes from scratchpad. -/
  | ldS (o : BitVec 6) (s : BitVec 3) (a : BitVec 7) (n : Bool) (d : BitVec 7) (e : Bool)
  /-- ST_S (R250): Stores 1 to 32 bytes to scratchpad. -/
  | stS (o : BitVec 6) (s : BitVec 3) (a : BitVec 7) (d : BitVec 7) (e : Bool)
  /-- LD_SC (R258): Sequentially consistent load of a word. -/
  | ldSc (a : BitVec 7) (n : Bool) (d : BitVec 7) (e : Bool)
  /-- ST_SC (R258): Sequentially consistent store of a word. -/
  | stSc (b : BitVec 7) (a : BitVec 7) (e : Bool)
  /-- AADD_SC (R258): Sequentially consistent fetch-and-add. -/
  | aaddSc (b : BitVec 7) (a : BitVec 7) (n : Bool) (d : BitVec 7) (e : Bool)
  /-- AEXCH_SC (R258): Sequentially consistent exchange. -/
  | aexchSc (b : BitVec 7) (a : BitVec 7) (n : Bool) (d : BitVec 7) (e : Bool)
  /-- ACAS_SC (R258): Sequentially consistent compare-and-swap. -/
  | acasSc (c : BitVec 2) (b : BitVec 5) (a : BitVec 7) (n : Bool) (d : BitVec 7) (e : Bool)
  /-- LDFE (R254): Full-empty peek or take of a granule. -/
  | ldfe (t : Bool) (o : BitVec 5) (s : BitVec 3) (a : BitVec 7) (n : Bool) (d : BitVec 7)
  /-- STFE (R254): Full-empty store that fills a granule. -/
  | stfe (o : BitVec 6) (s : BitVec 3) (a : BitVec 7) (d : BitVec 7)
  /-- AADD (R256): Atomic add at the home. -/
  | aadd (b : BitVec 7) (a : BitVec 7) (n : Bool) (d : BitVec 7) (e : Bool)
  /-- AMIN (R256): Atomic signed minimum. -/
  | amin (b : BitVec 7) (a : BitVec 7) (n : Bool) (d : BitVec 7) (e : Bool)
  /-- AMAX (R256): Atomic signed maximum. -/
  | amax (b : BitVec 7) (a : BitVec 7) (n : Bool) (d : BitVec 7) (e : Bool)
  /-- AEXCH (R256): Atomic exchange. -/
  | aexch (b : BitVec 7) (a : BitVec 7) (n : Bool) (d : BitVec 7) (e : Bool)
  /-- ACAS (R256): Atomic compare-and-swap. -/
  | acas (c : BitVec 2) (b : BitVec 5) (a : BitVec 7) (n : Bool) (d : BitVec 7) (e : Bool)
  /-- AAND (R256): Atomic AND. -/
  | aand (b : BitVec 5) (a : BitVec 7) (n : Bool) (d : BitVec 7) (e : Bool)
  /-- AOR (R256): Atomic OR. -/
  | aor (b : BitVec 5) (a : BitVec 7) (n : Bool) (d : BitVec 7) (e : Bool)
  /-- AXOR (R256): Atomic XOR. -/
  | axor (b : BitVec 5) (a : BitVec 7) (n : Bool) (d : BitVec 7) (e : Bool)
  /-- GATH (R255): Gathers four words from global memory. -/
  | gath (b : BitVec 7) (a : BitVec 7) (n : Bool) (d : BitVec 7) (e : Bool)
  /-- SCAT (R255): Scatters four words to global memory. -/
  | scat (b : BitVec 7) (a : BitVec 7) (d : BitVec 7) (e : Bool)
  /-- GATH_S (R255): Gathers four words from scratchpad. -/
  | gathS (b : BitVec 7) (a : BitVec 7) (n : Bool) (d : BitVec 7) (e : Bool)
  /-- SCAT_S (R255): Scatters four words to scratchpad. -/
  | scatS (b : BitVec 7) (a : BitVec 7) (d : BitVec 7) (e : Bool)
  /-- ACQ (R232): Acquire on a synchronisation object at a scope. -/
  | acq (k : Bool) (a : BitVec 7) (s : BitVec 3)
  /-- REL (R231): Release on a synchronisation object at a scope. -/
  | rel (k : Bool) (a : BitVec 7) (s : BitVec 3)
  /-- BIND (R261): Writes an object's binding at its home. -/
  | bind (b : BitVec 7) (a : BitVec 7) (k : Bool) (e : Bool)
  /-- FENCE (R233): Release and acquire of all memory at a scope. -/
  | fence (s : BitVec 3)
  /-- WATCH (R262): Arms the thread's watch on a line at its home. -/
  | watch (a : BitVec 7) (e : Bool)
  /-- DOZE (R263): Waits until the watch fires, a time-out or a spurious wake. -/
  | doze (a : BitVec 7) (n : Bool) (d : BitVec 7)
  /-- PREF (R265): Prefetches a line without faulting. -/
  | pref (h : Bool) (a : BitVec 7) (e : Bool)
  /-- LDRAW (R266): Reads stored bytes at the home L2. -/
  | ldraw (s : BitVec 3) (a : BitVec 7) (n : Bool) (d : BitVec 7) (e : Bool)
  /-- QPUSH (R272): Pushes a pair into a software FIFO. -/
  | qpush (q : BitVec 4) (a : BitVec 7)
  /-- QPOP (R272): Pops the head entry of a queue, waiting while empty. -/
  | qpop (q : BitVec 4) (n : Bool) (d : BitVec 7)
  /-- QPOLL (R272): Pops the head entry if there is one. -/
  | qpoll (q : BitVec 4) (p : BitVec 2) (n : Bool) (d : BitVec 7) (e : Bool)
  /-- QSTAT (R273): Reads a queue's status word. -/
  | qstat (q : BitVec 4) (n : Bool) (d : BitVec 7) (e : Bool)
  /-- MXISS (R297): Pushes a matrix command entry into q0. -/
  | mxiss (a : BitVec 7)
  /-- MXMETA (R307): Warp rendezvous pushing a metadata column into q1. -/
  | mxmeta (c : BitVec 2) (a : BitVec 7)
  /-- CHBEG (R304): Opens a new chain on an accumulator buffer. -/
  | chbeg (b : Bool) (e : Bool)
  /-- CHEND (R304): Closes the chain on an accumulator buffer. -/
  | chend (b : Bool) (e : Bool)
  /-- SPCMP (R309): Prunes a group of 16 to its N largest elements. -/
  | spcmp (t : BitVec 2) (k : BitVec 2) (a : BitVec 7) (n : Bool) (d : BitVec 7) (e : Bool)
  /-- SPEXP (R309): Expands a pruned group to 16 elements. -/
  | spexp (t : BitVec 2) (k : BitVec 2) (a : BitVec 7) (n : Bool) (d : BitVec 7) (e : Bool)
  /-- SCAC (R316): Applies a block scale to a partial and adds it. -/
  | scac (c : BitVec 2) (b : BitVec 5) (a : BitVec 7) (n : Bool) (d : BitVec 7) (e : Bool)
  /-- BSQ (R313): Computes a block scale code. -/
  | bsq (b : BitVec 5) (a : BitVec 7) (n : Bool) (d : BitVec 7) (e : Bool)
  /-- BOINIT (R276): Initialises a barrier object. -/
  | boinit (b : BitVec 7) (a : BitVec 7) (e : Bool)
  /-- BOEXP (R276): Adds expected bytes to a barrier object. -/
  | boexp (b : BitVec 7) (a : BitVec 7) (e : Bool)
  /-- BOARR (R276): Arrives at a barrier object. -/
  | boarr (a : BitVec 7) (e : Bool)
  /-- WAITPH (R277): Waits for a phase of a barrier object, faulting on ERR. -/
  | waitph (b : BitVec 7) (a : BitVec 7)
  /-- CPISS (R279): Pushes a copy descriptor into q4. -/
  | cpiss (a : BitVec 7)
  /-- RSEND (R361): Warp rendezvous pushing a reduction packet into q6. -/
  | rsend (a : BitVec 7)
  /-- RRECV (R361): Warp rendezvous taking a reduction result from q7. -/
  | rrecv (n : Bool) (d : BitVec 7)
  /-- RSTAT (R362): Reads the record of the block's latest reduction. -/
  | rstat (s : BitVec 2) (n : Bool) (d : BitVec 7) (e : Bool)
  /-- TRAP (R328): Traps with cause TRAP. -/
  | trap (a : BitVec 7)
  /-- TFENCE (R329): Traps if selected sticky flags are set. -/
  | tfence (a : BitVec 7)
  /-- XRET (R330): Returns from trap mode, resuming or starting a fresh loaf. -/
  | xret (f : Bool)
  /-- ERRCLR (R331): Clears bits of the context error word. -/
  | errclr (a : BitVec 7) (e : Bool)
  /-- RDSP (R24): Reads a special register. -/
  | rdsp (s : BitVec 7) (n : Bool) (d : BitVec 7) (e : Bool)
  /-- WRSP (R24): Writes a special register. -/
  | wrsp (s : BitVec 7) (a : BitVec 7) (e : Bool)
  /-- CBSET (R163): Writes the warp's CB4 table from eight registers. -/
  | cbset (a : BitVec 7) (e : Bool)
  /-- CARVE (R196): Sets the block's carved scratchpad way count. -/
  | carve (a : BitVec 7) (n : Bool) (d : BitVec 7)
  /-- PTOG (R94): Packs the predicates into a register. -/
  | ptog (n : Bool) (d : BitVec 7) (e : Bool)
  /-- GTOP (R94): Sets p1–p3 from a register. -/
  | gtop (a : BitVec 7) (e : Bool)
  /-- SCTIME (R259): Raises the SC clock and reads %sctime. -/
  | sctime (a : BitVec 7) (n : Bool) (d : BitVec 7) (e : Bool)
  /-- GENEND (R181): Ends the thread's production in generator mode. -/
  | genend
  /-- GENSTAT (R188): Reads the warp's generator state word. -/
  | genstat (n : Bool) (d : BitVec 7) (e : Bool)
  /-- TLBIB (R223): Fences and invalidates translations across the partition. -/
  | tlbib (a : BitVec 7) (k : BitVec 2)
  /-- TLBIL (R223): Invalidates translations in the own core and cluster. -/
  | tlbil (a : BitVec 7) (k : BitVec 2) (e : Bool)
  /-- LVEND (R156): Ends a leaven thread; no effect elsewhere. -/
  | lvend (e : Bool)
  /-- KSTAT (R175): Reads the kneading table status. -/
  | kstat (n : Bool) (d : BitVec 7) (e : Bool)
  /-- BKPT (R328): Traps with cause BKPT. -/
  | bkpt
  /-- WAITPH_ST (R277): Waits for a phase and reports success in a predicate. -/
  | waitphSt (a : BitVec 7) (r : Bool) (p : BitVec 2)
  /-- ERRRD (R331): Reads and clears the context error word. -/
  | errrd (n : Bool) (d : BitVec 7) (e : Bool)
  /-- CLKRD (R332): Reads the context's active reference cycles on the core. -/
  | clkrd (n : Bool) (d : BitVec 7) (e : Bool)
  /-- MOV (R36): 16-bit move of B into D. -/
  | mov (b : BitVec 5) (d : BitVec 5) (e : Bool)
  /-- ADD_16 (R36): 16-bit D ← D + B. -/
  | add16 (b : BitVec 5) (d : BitVec 5) (e : Bool)
  /-- SUB_16 (R36): 16-bit D ← D − B. -/
  | sub16 (b : BitVec 5) (d : BitVec 5) (e : Bool)
  /-- MULLO_16 (R36): 16-bit D ← D × B, low word. -/
  | mullo16 (b : BitVec 5) (d : BitVec 5) (e : Bool)
  /-- AND_16 (R36): 16-bit D ← D AND B. -/
  | and16 (b : BitVec 5) (d : BitVec 5) (e : Bool)
  /-- OR_16 (R36): 16-bit D ← D OR B. -/
  | or16 (b : BitVec 5) (d : BitVec 5) (e : Bool)
  /-- XOR_16 (R36): 16-bit D ← D XOR B. -/
  | xor16 (b : BitVec 5) (d : BitVec 5) (e : Bool)
  /-- SHL_16 (R36): 16-bit shift left. -/
  | shl16 (b : BitVec 5) (d : BitVec 5) (e : Bool)
  /-- SHR_U_16 (R36): 16-bit logical shift right. -/
  | shrU16 (b : BitVec 5) (d : BitVec 5) (e : Bool)
  /-- SHR_S_16 (R36): 16-bit arithmetic shift right. -/
  | shrS16 (b : BitVec 5) (d : BitVec 5) (e : Bool)
  /-- MIN_S_16 (R36): 16-bit signed minimum. -/
  | minS16 (b : BitVec 5) (d : BitVec 5) (e : Bool)
  /-- MAX_S_16 (R36): 16-bit signed maximum. -/
  | maxS16 (b : BitVec 5) (d : BitVec 5) (e : Bool)
  /-- FADD_16 (R36): 16-bit FP32 add. -/
  | fadd16 (b : BitVec 5) (d : BitVec 5) (e : Bool)
  /-- FSUB_16 (R36): 16-bit FP32 subtract. -/
  | fsub16 (b : BitVec 5) (d : BitVec 5) (e : Bool)
  /-- FMUL_16 (R36): 16-bit FP32 multiply. -/
  | fmul16 (b : BitVec 5) (d : BitVec 5) (e : Bool)
  /-- FMAX_16 (R36): 16-bit FP32 maximumNumber. -/
  | fmax16 (b : BitVec 5) (d : BitVec 5) (e : Bool)
  /-- FUSED_GROUP (R113): The front end issues a qualifying adjacent sequence as one operation. -/
  | fusedGroup
  /-- ILLEGAL_WORD (R53): An issued word that is not an instruction halts the threads it is illegal for and sets ILL. -/
  | illegalWord
  /-- PENDING_WRITE_LANDS (R49): A long-latency result arrives in its destination group. -/
  | pendingWriteLands
  /-- GROUPER_FILL (R150): In a cycle the grouper fills free ports from ready PC-table entries. -/
  | grouperFill
  /-- ENTRY_AGED (R150): An entry unissued for 256 cycles becomes aged and goes first. -/
  | entryAged
  /-- RENDEZVOUS_COMPLETE (R158): Every needed lane has arrived, so a held cross-lane operation is performed. -/
  | rendezvousComplete
  /-- JOIN_RELEASE (R110): No thread below the JOIN remains, so the waiting threads become Ready together. -/
  | joinRelease
  /-- BIN_TIMEOUT (R174): A bin whose first thread entered 2048 cycles ago is released. -/
  | binTimeout
  /-- BIN_WARP_TAKES_SLOT (R174): A released bin waiting for a warp slot takes one that has freed. -/
  | binWarpTakesSlot
  /-- LEAVEN_SPAWN (R154): A thread waiting 256 cycles on a load spawns a leaven context. -/
  | leavenSpawn
  /-- LEAVEN_CONTEXT_END (R155): A leaven context ends 4096 cycles after its spawn. -/
  | leavenContextEnd
  /-- GENERATOR_SWITCH (R183): Once every producer is withheld, the warp enters the CONSUME phase. -/
  | generatorSwitch
  /-- DOZE_TIMEOUT (R263): A dozing thread's limit of reference cycles passes. -/
  | dozeTimeout
  /-- SC_RETRY (R240): An unapplied SC response raises the clock and retries the operation. -/
  | scRetry
  /-- LQN (R140): A write of a queue header address notifies the launch scheduler. -/
  | lqn
  /-- SLOT_FREE (R344): A slot frees and takes the highest-priority pending queue. -/
  | slotFree
  /-- TAKE_RECORD (R143): A record first at the head of its queue is taken and checked. -/
  | takeRecord
  /-- OFFER_CANDIDATE (R145): With the distributor free, the scheduler offers one eligible record. -/
  | offerCandidate
  /-- RECORD_STARVATION (R145): A record unplaced for 65 536 cycles holds back lower priorities. -/
  | recordStarvation
  /-- MIGRATION (R148): After 4096 unplaced cycles, a launch is moved to gather a rectangle. -/
  | migration
  /-- SIFTER (R294): At placement the sifter runs the transform slots before warps are Ready. -/
  | sifter
  /-- BLOCK_END (R34): A block whose threads and commands are done ends and is zeroed. -/
  | blockEnd
  /-- COPY_TAKE_ENTRY (R288): The peel takes a descriptor, checks it and walks the box. -/
  | copyTakeEntry
  /-- ENGINE_BYTE_COUNT (R275): An engine's byte count reaches the barrier object and it is checked. -/
  | engineByteCount
  /-- ENGINE_ERROR (R275): An engine's error sets ERR and ECODE in the object. -/
  | engineError
  /-- COPY_STATUS (R290): A copy command delivers its status entry once q5 has room. -/
  | copyStatus
  /-- MATRIX_TAKE_ENTRY (R318): The matrix engine takes a q0 entry and reads and checks its parameter block. -/
  | matrixTakeEntry
  /-- BUFFER_CLAIM (R296): A command waiting for an accumulator buffer claims and zeroes it. -/
  | bufferClaim
  /-- RECT_RESERVE (R303): The rectangle arbiter grants a rectangle command its member engines. -/
  | rectReserve
  /-- METADATA_TAKE (R306): The engine takes a metadata column from q1 and checks it. -/
  | metadataTake
  /-- K_STEP (R300): A k-step of a matrix command completes on its buffer or as partials. -/
  | kStep
  /-- PARTIAL_DELIVERY (R315): Partials are delivered to q2 once it has room, or to scratchpad. -/
  | partialDelivery
  /-- DRAIN (R311): A command drains its buffer after its last k-step. -/
  | drain
  /-- MATRIX_STATUS (R317): A matrix command counts its bytes and delivers its status to q3. -/
  | matrixStatus
  /-- REDUCTION_ITEM_ARRIVAL (R360): An item of a reduction reaches a router, or is discarded if late. -/
  | reductionItemArrival
  /-- ROUTER_COMBINE (R359): A router combines the items of its node and sends the sum on. -/
  | routerCombine
  /-- REDUCTION_DEADLINE (R360): An item's deadline passes and it is taken as -0 with its subtree missing. -/
  | reductionDeadline
  /-- FLIT_CRC_FAILURE (R348): A flit that fails its CRC is sent again. -/
  | flitCrcFailure
  /-- PACKAGE_RESET (R373): The hub ROM verifies and loads the firmware, or enters recovery. -/
  | packageReset
  /-- PARTITION_RESET (R394): A partition is reset and holds no current context. -/
  | partitionReset
  /-- CTXNEXT (R336): A write names the next context and begins its preload. -/
  | ctxnext
  /-- PRELOAD_COMPLETE (R338): The preload finishes and checks its images, refusing or enabling the switch. -/
  | preloadComplete
  /-- SLICE_END (R336): The current context's slice ends and the switch begins with STOP. -/
  | sliceEnd
  /-- CORE_STOPPED (R339): A core's groups have halted and its accesses are performed; the banks exchange. -/
  | coreStopped
  /-- SPILL (R340): With every core stopped, the spill engine saves and loads ways and images. -/
  | spill
  /-- POWER_LIMIT (R356): Nearing a power or sensor limit, the power manager takes the next shedding step. -/
  | powerLimit
  /-- SHED_RETURN (R356): After 1 ms held 10 % below the limit, a shedding step is undone. -/
  | shedReturn
  /-- S2ROOT (R368): A write sets the stage-2 root and invalidates the partition's translations. -/
  | s2root
  /-- HUBINV_VA (R368): Invalidates a tenant's translations of one virtual page. -/
  | hubinvVa
  /-- HUBINV_TENANT (R368): Invalidates every translation of a tenant. -/
  | hubinvTenant
  /-- HUBINV_IPA (R368): Invalidates translations that used one stage-2 page. -/
  | hubinvIpa
  /-- HUBINV_PARTITION (R368): Invalidates every translation of the partition. -/
  | hubinvPartition
  /-- INVALIDATION_COMPLETE (R368): Every receiver has acknowledged and HUBSTAT.BUSY clears. -/
  | invalidationComplete
  /-- NQBASE (R367): A write configures the notice ring and with EN resets the counts. -/
  | nqbase
  /-- SCEPOCH (R369): Writing GO starts an SC epoch change. -/
  | scepoch
  /-- EPOCH_CHANGE_COMPLETE (R242): No SC operation is in flight, so every clock and stamp is zeroed and issue resumes. -/
  | epochChangeComplete
  /-- REGISTER_WRITE (R366): A write to a register or address without behaviour of its own. -/
  | registerWrite
  /-- ATTEST (R380): Produces a signed attestation report with a fresh encapsulation key. -/
  | attest
  /-- TBIND (R381): Binds a tenant to a tenant ID and zeroes its TM. -/
  | tbind
  /-- TMEXT (R378): Extends a tenant's measurement TM. -/
  | tmext
  /-- SEAL (R383): Raises the counter and encrypts a tenant's saved images. -/
  | sealTenant
  /-- RELEASE (R385): Wraps a sealing key for an attested peer and clears OPEN. -/
  | releaseKey
  /-- UNSEAL (R386): Decrypts a sealed package into a tenant's save area. -/
  | unsealTenant
  /-- SVNCOMMIT (R374): Raises FSVN to the running image's SVN. -/
  | svncommit
  /-- MREXT (R376): Extends a measurement register MR2–MR7. -/
  | mrext
  /-- LOGREAD (R378): Returns 4096 bytes of the log area. -/
  | logread
  /-- GET_FW_INFO (R375): CXL mailbox command answering firmware information in recovery. -/
  | getFwInfo
  /-- TRANSFER_FW_INITIATE (R375): Begins a firmware transfer in recovery. -/
  | transferFwInitiate
  /-- TRANSFER_FW_CONTINUE (R375): Continues a firmware transfer. -/
  | transferFwContinue
  /-- TRANSFER_FW_END (R375): Ends a transfer; the image is verified and written or refused. -/
  | transferFwEnd
  /-- TRANSFER_FW_ABORT (R375): Aborts a firmware transfer. -/
  | transferFwAbort
  /-- ALARM (R389): A sensor raises an alarm, which is logged and acts under its class policy. -/
  | alarm
  /-- LOG_SNAPSHOT (R391): Every 10 minutes of powered time a snapshot of the counters is written. -/
  | logSnapshot
  /-- POWERED_MINUTE (R390): Each minute of powered time advances the time and temperature counters. -/
  | poweredMinute
  /-- HOST_BAR2_READ (R363): A host read through BAR 2 is performed at the home L2. -/
  | hostBar2Read
  /-- HOST_BAR2_WRITE (R363): A host write through BAR 2 is performed at the home L2 as a system-scope release. -/
  | hostBar2Write
  /-- ROCE_READ (R365): A RoCEv2 read is performed as a system-scope remote access. -/
  | roceRead
  /-- ROCE_WRITE (R365): A RoCEv2 write is performed, or refused outside registered memory. -/
  | roceWrite
  /-- NVME_COMMAND (R364): The hub passes an NVMe command to its namespace's controller or refuses it. -/
  | nvmeCommand
  /-- SMADDR (R379): A write to SMADDR queues a security command block, or is ignored and sets IGN while BUSY is set. -/
  | smaddr
  /-- ACCESS_PERFORMED (R231): The write-backs, invalidations, acknowledgements or home application that a waiting REL, ACQ, FENCE, TLBIB, CARVE, EXIT or ST.SC awaits are complete, so the thread retires or its next SC operation may issue. -/
  | accessPerformed
  /-- DROOP_EVENT (R390): A core rail below 607 mV for 8 cycles or more increments the droop counter of its die. -/
  | droopEvent
  /-- POWER_LOSS (R391): The package loses power, losing increments since the last snapshot and possibly tearing a counter entry, snapshot or image write. -/
  | powerLoss
  /-- MCTP_MESSAGE (R391): A vendor-defined MCTP message of type 0x7F arrives over I3C at the management endpoint and reads the lifetime records or the alarm registers. -/
  | mctpMessage
  deriving DecidableEq, Repr

end Sys2Proof
end

