-- ==== Sys2Proof/Machine/Shape.lean ====
section
/-! DEFINITION. Which registers each instruction names (its sources, its destination group) and the reserved values of
its other fields: R18, R20, R24, R36-R43, R50, R91, R98, R103, R123, R165, R172, R222, R250-R266, R272, R307, R309,
R316, R327, R361. Well-formedness, the budget check of R19, the wait in place of R48 and the pre-decode of R49 all
read this one table. -/

namespace Sys2Proof

/-- A source operand. Codes 124-127 are c0-c3 (R17). -/
inductive Src where
  /-- a 32-bit operand: a register or bits [31:0] of a latch (R81) -/
  | word (c : Nat)
  /-- a pair with an even code, or all 64 bits of a latch (R18, R20) -/
  | pair (c : Nat)
  /-- `n` registers from a base that is a multiple of `n` (R18) -/
  | group (base n : Nat)
  /-- `n` registers from any base (R172) -/
  | run (base n : Nat)
  /-- a register named by HEEL: it is not read, but it counts for R19 (R50) -/
  | name (c : Nat)
  /-- the first register of the entry of YIELD or TAKE: how many it names depends on the warp's entry width, and the checks of the entry
  against the budget are R179's own (log 45) -/
  | soft (base : Nat)
  deriving DecidableEq, Repr

/-- The registers an instruction names and whether its remaining fields have values that the spec assigns. -/
structure Shape where
  srcs : List Src := []
  dst : Option (Nat × Nat) := none
  /-- the destination group is written: N = 0 (R39) -/
  wr : Bool := true
  ok : Bool := true
  deriving DecidableEq, Repr

/-- A 5-bit code as a 7-bit code: 28-31 are the latches (R36, R38). -/
def code5 (b : Code5) : Nat := if b.toNat < 28 then b.toNat else b.toNat + 96

/-- The third source of the RC form: C = 00 is the register named by D, else c0, c1, c2 (R38). -/
def third (c : BitVec 2) (d : Code) : Nat := if c = 0 then d.toNat else 123 + c.toNat

/-- The registers of an access of a size code (R250). -/
def sizeRegs (s : Nat) : Nat := if s = 3 then 2 else if s = 4 then 4 else if s = 5 then 8 else 1

/-- The bytes of an access of a size code (R38, R247). -/
def sizeBytes (s : Nat) : Nat := 2 ^ s

/-- The data operand of a store: sizes 0 to 3 may name a latch (R250). -/
def storeData (s d : Nat) : Src := if s < 3 then .word d else if s = 3 then .pair d else .group d (sizeRegs s)

/-- Registers of a 16-element group of SPCMP and SPEXP: 4 for INT8 and H8, 8 for BF16 (R309). -/
def spGroup (t : Nat) : Nat := if t = 2 then 8 else 4

/-- The special registers of 64 bits (R22). -/
def spRegs (s : Nat) : Nat := if s = 8 ∨ s = 9 ∨ s = 11 ∨ s = 13 ∨ s = 15 then 2 else 1

/-- The special registers that WRSP may write (R22, R24). -/
def spWritable (s : BitVec 7) : Bool := s = 11 || s = 12 || s = 13 || s = 15 || s = 17

/-- The queues that QPOP and QPOLL may name (R272). -/
def poppable (q : BitVec 4) : Bool := q = 2 || q = 3 || q = 5 || q = 8 || q = 9 || q = 10 || q = 11

/-- A conversion from a 64-bit source (R103). -/
def cvtWideSrc (k : BitVec 7) : Bool := k = 0x06 || k = 0x07 || k = 0x1A || k = 0x1B
/-- A conversion to a 64-bit destination (R103). -/
def cvtWideDst (k : BitVec 7) : Bool := k = 0x02 || k = 0x03
/-- Codes marked "F = 0" take no rounding mode; 0x1D-0x7F are reserved (R103). -/
def cvtLegal (k : BitVec 7) (m : BitVec 2) : Bool :=
  decide (k.toNat < 0x1D) &&
    (decide (m = 0) || !((decide (0x0C ≤ k.toNat) && decide (k.toNat ≤ 0x0F)) || (decide (0x14 ≤ k.toNat) && decide (k.toNat ≤ 0x1B))))

/-- The registers and reserved values of each encoded instruction; an event names none. -/
def Instr.shape : Instr → Shape
  | .add b a n d _ => { srcs := [.word a.toNat, .word b.toNat], dst := some (d.toNat, 1), wr := !n }
  | .sub b a n d _ => { srcs := [.word a.toNat, .word b.toNat], dst := some (d.toNat, 1), wr := !n }
  | .and b a n d _ => { srcs := [.word a.toNat, .word b.toNat], dst := some (d.toNat, 1), wr := !n }
  | .or b a n d _ => { srcs := [.word a.toNat, .word b.toNat], dst := some (d.toNat, 1), wr := !n }
  | .xor b a n d _ => { srcs := [.word a.toNat, .word b.toNat], dst := some (d.toNat, 1), wr := !n }
  | .andn b a n d _ => { srcs := [.word a.toNat, .word b.toNat], dst := some (d.toNat, 1), wr := !n }
  | .minS b a n d _ => { srcs := [.word a.toNat, .word b.toNat], dst := some (d.toNat, 1), wr := !n }
  | .maxS b a n d _ => { srcs := [.word a.toNat, .word b.toNat], dst := some (d.toNat, 1), wr := !n }
  | .minU b a n d _ => { srcs := [.word a.toNat, .word b.toNat], dst := some (d.toNat, 1), wr := !n }
  | .maxU b a n d _ => { srcs := [.word a.toNat, .word b.toNat], dst := some (d.toNat, 1), wr := !n }
  | .absdS b a n d _ => { srcs := [.word a.toNat, .word b.toNat], dst := some (d.toNat, 1), wr := !n }
  | .addsatS b a n d _ => { srcs := [.word a.toNat, .word b.toNat], dst := some (d.toNat, 1), wr := !n }
  | .shl b a n d _ => { srcs := [.word a.toNat, .word b.toNat], dst := some (d.toNat, 1), wr := !n }
  | .shrU b a n d _ => { srcs := [.word a.toNat, .word b.toNat], dst := some (d.toNat, 1), wr := !n }
  | .shrS b a n d _ => { srcs := [.word a.toNat, .word b.toNat], dst := some (d.toNat, 1), wr := !n }
  | .rotl b a n d _ => { srcs := [.word a.toNat, .word b.toNat], dst := some (d.toNat, 1), wr := !n }
  | .mullo b a n d _ => { srcs := [.word a.toNat, .word b.toNat], dst := some (d.toNat, 1), wr := !n }
  | .mulhiS b a n d _ => { srcs := [.word a.toNat, .word b.toNat], dst := some (d.toNat, 1), wr := !n }
  | .mulhiU b a n d _ => { srcs := [.word a.toNat, .word b.toNat], dst := some (d.toNat, 1), wr := !n }
  | .mulwS b a n d _ => { srcs := [.word a.toNat, .word b.toNat], dst := some (d.toNat, 2), wr := !n }
  | .mad c b a n d _ => { srcs := [.word a.toNat, .word (code5 b), .word (third c d)], dst := some (d.toNat, 1), wr := !n }
  | .madwS c b a n d _ => { srcs := [.word a.toNat, .word (code5 b), .pair (third c d)], dst := some (d.toNat, 2), wr := !n }
  | .dot4I8 c b a n d _ => { srcs := [.word a.toNat, .word (code5 b), .word (third c d)], dst := some (d.toNat, 1), wr := !n }
  | .dot4N8 c b a n d _ => { srcs := [.word a.toNat, .word (code5 b), .word (third c d)], dst := some (d.toNat, 1), wr := !n }
  | .addi _ a n d _ => { srcs := [.word a.toNat], dst := some (d.toNat, 1), wr := !n }
  | .andi _ a n d _ => { srcs := [.word a.toNat], dst := some (d.toNat, 1), wr := !n }
  | .ori _ a n d _ => { srcs := [.word a.toNat], dst := some (d.toNat, 1), wr := !n }
  | .xori _ a n d _ => { srcs := [.word a.toNat], dst := some (d.toNat, 1), wr := !n }
  | .shli _ a n d _ => { srcs := [.word a.toNat], dst := some (d.toNat, 1), wr := !n }
  | .shriU _ a n d _ => { srcs := [.word a.toNat], dst := some (d.toNat, 1), wr := !n }
  | .shriS _ a n d _ => { srcs := [.word a.toNat], dst := some (d.toNat, 1), wr := !n }
  | .rotli _ a n d _ => { srcs := [.word a.toNat], dst := some (d.toNat, 1), wr := !n }
  | .movh _ n d _ => { dst := some (d.toNat, 1), wr := !n }
  | .orl _ n d _ => { srcs := [.word d.toNat], dst := some (d.toNat, 1), wr := !n }
  | .bfeU b a n d _ => { srcs := [.word a.toNat, .word b.toNat], dst := some (d.toNat, 1), wr := !n }
  | .bfeS b a n d _ => { srcs := [.word a.toNat, .word b.toNat], dst := some (d.toNat, 1), wr := !n }
  | .bfi b a n d _ => { srcs := [.word a.toNat, .word b.toNat, .word d.toNat], dst := some (d.toNat, 1), wr := !n }
  | .permb b a n d _ => { srcs := [.word a.toNat, .word b.toNat], dst := some (d.toNat, 1), wr := !n }
  | .popc a n d _ => { srcs := [.word a.toNat], dst := some (d.toNat, 1), wr := !n }
  | .clz a n d _ => { srcs := [.word a.toNat], dst := some (d.toNat, 1), wr := !n }
  | .brev a n d _ => { srcs := [.word a.toNat], dst := some (d.toNat, 1), wr := !n }
  | .neg a n d _ => { srcs := [.word a.toNat], dst := some (d.toNat, 1), wr := !n }
  | .icmp w b a c _ _ => { srcs := [(if w = 0 then .word a.toNat else .pair a.toNat), (if w = 0 then .word b.toNat else .pair b.toNat)], ok := decide (w.toNat < 2) && decide (c.toNat < 12) }
  | .sel _ b a n d _ => { srcs := [.word a.toNat, .word b.toNat], dst := some (d.toNat, 1), wr := !n }
  | .pand _ _ _ _ => {}
  | .por _ _ _ _ => {}
  | .pxor _ _ _ _ => {}
  | .pnot _ _ _ => {}
  | .fadd b a n d _ => { srcs := [.word a.toNat, .word b.toNat], dst := some (d.toNat, 1), wr := !n }
  | .fsub b a n d _ => { srcs := [.word a.toNat, .word b.toNat], dst := some (d.toNat, 1), wr := !n }
  | .fmul b a n d _ => { srcs := [.word a.toNat, .word b.toNat], dst := some (d.toNat, 1), wr := !n }
  | .fmax b a n d _ => { srcs := [.word a.toNat, .word b.toNat], dst := some (d.toNat, 1), wr := !n }
  | .ffma c b a n d _ => { srcs := [.word a.toNat, .word (code5 b), .word (third c d)], dst := some (d.toNat, 1), wr := !n }
  | .ffms c b a n d _ => { srcs := [.word a.toNat, .word (code5 b), .word (third c d)], dst := some (d.toNat, 1), wr := !n }
  | .fnfma c b a n d _ => { srcs := [.word a.toNat, .word (code5 b), .word (third c d)], dst := some (d.toNat, 1), wr := !n }
  | .fmad2 c b a n d _ => { srcs := [.word a.toNat, .word (code5 b), .word (third c d)], dst := some (d.toNat, 1), wr := !n }
  | .fmin b a n d _ => { srcs := [.word a.toNat, .word b.toNat], dst := some (d.toNat, 1), wr := !n }
  | .fcopysign b a n d _ => { srcs := [.word a.toNat, .word b.toNat], dst := some (d.toNat, 1), wr := !n }
  | .fabs a n d _ => { srcs := [.word a.toNat], dst := some (d.toNat, 1), wr := !n }
  | .fneg a n d _ => { srcs := [.word a.toNat], dst := some (d.toNat, 1), wr := !n }
  | .fcmp t b a c _ _ => { srcs := [.word a.toNat, .word b.toNat], ok := decide (t.toNat < 3) && decide (c.toNat < 8) }
  | .cvt m k a n d _ => { srcs := [(if cvtWideSrc k then .pair a.toNat else .word a.toNat)], dst := some (d.toNat, if cvtWideDst k then 2 else 1), wr := !n, ok := cvtLegal k m }
  | .pkbf b a n d _ => { srcs := [.word a.toNat, .word b.toNat], dst := some (d.toNat, 1), wr := !n }
  | .pkh8 b a n d _ => { srcs := [.word a.toNat, .word b.toNat], dst := some (d.toNat, 1), wr := !n }
  | .upkbf a n d _ => { srcs := [.word a.toNat], dst := some (d.toNat, 2), wr := !n }
  | .upkh8 a n d _ => { srcs := [.word a.toNat], dst := some (d.toNat, 2), wr := !n }
  | .rcp a n d _ => { srcs := [.word a.toNat], dst := some (d.toNat, 1), wr := !n }
  | .rsq a n d _ => { srcs := [.word a.toNat], dst := some (d.toNat, 1), wr := !n }
  | .ex2 a n d _ => { srcs := [.word a.toNat], dst := some (d.toNat, 1), wr := !n }
  | .lg2 a n d _ => { srcs := [.word a.toNat], dst := some (d.toNat, 1), wr := !n }
  | .sqrt a n d _ => { srcs := [.word a.toNat], dst := some (d.toNat, 1), wr := !n }
  | .sin a n d _ => { srcs := [.word a.toNat], dst := some (d.toNat, 1), wr := !n }
  | .cos a n d _ => { srcs := [.word a.toNat], dst := some (d.toNat, 1), wr := !n }
  | .tanh a n d _ => { srcs := [.word a.toNat], dst := some (d.toNat, 1), wr := !n }
  | .hadd2 b a n d _ => { srcs := [.word a.toNat, .word b.toNat], dst := some (d.toNat, 1), wr := !n }
  | .hsub2 b a n d _ => { srcs := [.word a.toNat, .word b.toNat], dst := some (d.toNat, 1), wr := !n }
  | .hmul2 b a n d _ => { srcs := [.word a.toNat, .word b.toNat], dst := some (d.toNat, 1), wr := !n }
  | .hmax2 b a n d _ => { srcs := [.word a.toNat, .word b.toNat], dst := some (d.toNat, 1), wr := !n }
  | .cbx b a n d _ => { srcs := [.word a.toNat, .word b.toNat], dst := some (d.toNat, 1), wr := !n }
  | .cbq b a n d _ => { srcs := [.word a.toNat, .word b.toNat], dst := some (d.toNat, 1), wr := !n }
  | .nqx b a n d _ => { srcs := [.word a.toNat, .word b.toNat], dst := some (d.toNat, 1), wr := !n }
  | .nqq b a n d _ => { srcs := [.word a.toNat, .word b.toNat], dst := some (d.toNat, 1), wr := !n }
  | .hfma2 c b a n d _ => { srcs := [.word a.toNat, .word (code5 b), .word (third c d)], dst := some (d.toNat, 1), wr := !n }
  | .hfms2 c b a n d _ => { srcs := [.word a.toNat, .word (code5 b), .word (third c d)], dst := some (d.toNat, 1), wr := !n }
  | .br _ _ _ => {}
  | .jmp _ => {}
  | .call _ => { dst := some (2, 2) }
  | .jr a => { srcs := [.pair a.toNat] }
  | .callr a => { srcs := [.pair a.toNat], dst := some (2, 2) }
  | .ret => { srcs := [.pair 2] }
  | .exit => {}
  | .join => {}
  | .nop _ => {}
  | .jtab _ a n => { srcs := [.word a.toNat], ok := decide (n ≠ 0) }
  | .heel b a d => { srcs := [.name d.toNat, .name a.toNat, .name b.toNat], ok := decide (d.toNat < 124) && decide (a.toNat < 124) && decide (b.toNat < 124) }
  | .rayld a n d _ => { srcs := [.pair a.toNat], dst := some (d.toNat, 16), wr := !n }
  | .boxt b a n d _ => { srcs := [.group a.toNat 16, .pair b.toNat], dst := some (d.toNat, 4), wr := !n }
  | .desc b a n d _ => { srcs := [.group d.toNat 16, .pair a.toNat, .word b.toNat], dst := some (d.toNat, 16), wr := !n }
  | .asc b a n d _ => { srcs := [.group d.toNat 16, .pair a.toNat, .word b.toNat], dst := some (d.toNat, 16), wr := !n }
  | .trit a n d _ => { srcs := [.group d.toNat 16, .pair a.toNat], dst := some (d.toNat, 16), wr := !n }
  | .tcmp b a n d _ => { srcs := [.group a.toNat 16, .group b.toNat 16], dst := some (d.toNat, 1), wr := !n }
  | .tcvt a n d _ => { srcs := [.group a.toNat 16], dst := some (d.toNat, 1), wr := !n }
  | .hitw a d _ => { srcs := [.group d.toNat 16, .pair a.toNat] }
  | .rasts b a n d _ => { srcs := [.group a.toNat 16, .word b.toNat], dst := some (d.toNat, 1), wr := !n }
  | .rastt b a n d _ => { srcs := [.word a.toNat, .word b.toNat], dst := some (d.toNat, 2), wr := !n }
  | .refit b a n d _ => { srcs := [.pair a.toNat, .word b.toNat], dst := some (d.toNat, 1), wr := !n }
  | .vtxq b a n d _ => { srcs := [.pair a.toNat, .word b.toNat], dst := some (d.toNat, 1), wr := !n }
  | .shflIdx b a n d _ => { srcs := [.word a.toNat, .word b.toNat], dst := some (d.toNat, 1), wr := !n }
  | .shflUp b a n d _ => { srcs := [.word a.toNat, .word b.toNat], dst := some (d.toNat, 1), wr := !n }
  | .shflDown b a n d _ => { srcs := [.word a.toNat, .word b.toNat], dst := some (d.toNat, 1), wr := !n }
  | .shflXor b a n d _ => { srcs := [.word a.toNat, .word b.toNat], dst := some (d.toNat, 1), wr := !n }
  | .voteAny _ n d _ => { dst := some (d.toNat, 1), wr := !n }
  | .voteAll _ n d _ => { dst := some (d.toNat, 1), wr := !n }
  | .voteBallot _ n d _ => { dst := some (d.toNat, 2), wr := !n }
  | .voteUni a n d _ => { srcs := [.word a.toNat], dst := some (d.toNat, 1), wr := !n }
  | .redaddI a n d _ => { srcs := [.word a.toNat], dst := some (d.toNat, 1), wr := !n }
  | .redaddF a n d _ => { srcs := [.word a.toNat], dst := some (d.toNat, 1), wr := !n }
  | .redminS a n d _ => { srcs := [.word a.toNat], dst := some (d.toNat, 1), wr := !n }
  | .redmaxS a n d _ => { srcs := [.word a.toNat], dst := some (d.toNat, 1), wr := !n }
  | .matchLanes a n d _ => { srcs := [.word a.toNat], dst := some (d.toNat, 2), wr := !n }
  | .compact _ n d _ => { dst := some (d.toNat, 1), wr := !n }
  | .scanadd a n d _ => { srcs := [.word a.toNat], dst := some (d.toNat, 2), wr := !n }
  | .elect n d _ => { dst := some (d.toNat, 1), wr := !n }
  | .knead b a c => { srcs := [.word a.toNat, .run b.toNat c.toNat], ok := decide (1 ≤ c.toNat) && decide (c.toNat ≤ 8) && decide (1 ≤ b.toNat) && decide (b.toNat + c.toNat ≤ 124) }
  | .kflush => {}
  | .wrk _ a _ => { srcs := [.word a.toNat] }
  | .rdk _ n d _ => { dst := some (d.toNat, 1), wr := !n }
  | .barSync _ => {}
  | .barArrive _ _ => {}
  | .barWait _ => {}
  | .barInit _ a _ => { srcs := [.word a.toNat] }
  | .genbeg b a => { srcs := [.word a.toNat, .word b.toNat] }
  | .yield a _ => { srcs := [.soft a.toNat] }
  | .take _ _ d _ => { srcs := [.soft d.toNat], ok := decide (d.toNat < 124) }
  | .gennext => {}
  | .ldG _ s a n d _ => { srcs := [.pair a.toNat], dst := some (d.toNat, sizeRegs s.toNat), wr := !n, ok := decide (s.toNat < 6) }
  | .stG _ s a d _ => { srcs := [.pair a.toNat, storeData s.toNat d.toNat], ok := decide (s.toNat < 6) }
  | .ldS _ s a n d _ => { srcs := [.word a.toNat], dst := some (d.toNat, sizeRegs s.toNat), wr := !n, ok := decide (s.toNat < 6) }
  | .stS _ s a d _ => { srcs := [.word a.toNat, storeData s.toNat d.toNat], ok := decide (s.toNat < 6) }
  | .ldSc a n d _ => { srcs := [.pair a.toNat], dst := some (d.toNat, 1), wr := !n }
  | .stSc b a _ => { srcs := [.pair a.toNat, .word b.toNat] }
  | .aaddSc b a n d _ => { srcs := [.pair a.toNat, .word b.toNat], dst := some (d.toNat, 1), wr := !n }
  | .aexchSc b a n d _ => { srcs := [.pair a.toNat, .word b.toNat], dst := some (d.toNat, 1), wr := !n }
  | .acasSc c b a n d _ => { srcs := [.pair a.toNat, .word (code5 b), .word (third c d)], dst := some (d.toNat, 1), wr := !n }
  | .ldfe _ _ s a n d => { srcs := [.word a.toNat], dst := some (d.toNat, sizeRegs s.toNat), wr := !n, ok := decide (s.toNat < 6) }
  | .stfe _ s a d => { srcs := [.word a.toNat, storeData s.toNat d.toNat], ok := decide (s.toNat < 6) }
  | .aadd b a n d _ => { srcs := [.pair a.toNat, .word b.toNat], dst := some (d.toNat, 1), wr := !n }
  | .amin b a n d _ => { srcs := [.pair a.toNat, .word b.toNat], dst := some (d.toNat, 1), wr := !n }
  | .amax b a n d _ => { srcs := [.pair a.toNat, .word b.toNat], dst := some (d.toNat, 1), wr := !n }
  | .aexch b a n d _ => { srcs := [.pair a.toNat, .word b.toNat], dst := some (d.toNat, 1), wr := !n }
  | .acas c b a n d _ => { srcs := [.pair a.toNat, .word (code5 b), .word (third c d)], dst := some (d.toNat, 1), wr := !n }
  | .aand b a n d _ => { srcs := [.pair a.toNat, .word (code5 b)], dst := some (d.toNat, 1), wr := !n }
  | .aor b a n d _ => { srcs := [.pair a.toNat, .word (code5 b)], dst := some (d.toNat, 1), wr := !n }
  | .axor b a n d _ => { srcs := [.pair a.toNat, .word (code5 b)], dst := some (d.toNat, 1), wr := !n }
  | .gath b a n d _ => { srcs := [.pair a.toNat, .group b.toNat 4], dst := some (d.toNat, 4), wr := !n }
  | .scat b a d _ => { srcs := [.pair a.toNat, .group b.toNat 4, .group d.toNat 4] }
  | .gathS b a n d _ => { srcs := [.word a.toNat, .group b.toNat 4], dst := some (d.toNat, 4), wr := !n }
  | .scatS b a d _ => { srcs := [.word a.toNat, .group b.toNat 4, .group d.toNat 4] }
  | .acq k a s => { srcs := [(if k then .word a.toNat else .pair a.toNat)], ok := decide (s.toNat < 7) }
  | .rel k a s => { srcs := [(if k then .word a.toNat else .pair a.toNat)], ok := decide (s.toNat < 7) }
  | .bind b a k _ => { srcs := [(if k then .word a.toNat else .pair a.toNat), .group b.toNat 4] }
  | .fence s => { ok := decide (s.toNat < 7) }
  | .watch a _ => { srcs := [.pair a.toNat] }
  | .doze a n d => { srcs := [.word a.toNat], dst := some (d.toNat, 1), wr := !n }
  | .pref _ a _ => { srcs := [.pair a.toNat] }
  | .ldraw s a n d _ => { srcs := [.pair a.toNat], dst := some (d.toNat, sizeRegs s.toNat), wr := !n, ok := decide (s.toNat < 5) }
  | .qpush q a => { srcs := [.pair a.toNat], ok := decide (8 ≤ q.toNat) && decide (q.toNat ≤ 11) }
  | .qpop q n d => { dst := some (d.toNat, 2), wr := !n, ok := poppable q }
  | .qpoll q _ n d _ => { dst := some (d.toNat, 2), wr := !n, ok := poppable q }
  | .qstat q n d _ => { dst := some (d.toNat, 1), wr := !n, ok := decide (q.toNat < 12) }
  | .mxiss a => { srcs := [.word a.toNat] }
  | .mxmeta c a => { srcs := [.word a.toNat], ok := decide (c.toNat < 3) }
  | .chbeg _ _ => {}
  | .chend _ _ => {}
  | .spcmp t k a n d _ => { srcs := [.group a.toNat (spGroup t.toNat)], dst := some (d.toNat, spGroup t.toNat), wr := !n, ok := decide (t.toNat < 3) && decide (k.toNat < 3) }
  | .spexp t k a n d _ => { srcs := [.group a.toNat (spGroup t.toNat)], dst := some (d.toNat, spGroup t.toNat), wr := !n, ok := decide (t.toNat < 3) && decide (k.toNat < 3) }
  | .scac c b a n d _ => { srcs := [.word a.toNat, .pair (code5 b), .word (third c d)], dst := some (d.toNat, 1), wr := !n }
  | .bsq b a n d _ => { srcs := [.word a.toNat, .word (code5 b), .word d.toNat], dst := some (d.toNat, 1), wr := !n }
  | .boinit b a _ => { srcs := [.word a.toNat, .word b.toNat] }
  | .boexp b a _ => { srcs := [.word a.toNat, .word b.toNat] }
  | .boarr a _ => { srcs := [.word a.toNat] }
  | .waitph b a => { srcs := [.word a.toNat, .word b.toNat] }
  | .cpiss a => { srcs := [.word a.toNat] }
  | .rsend a => { srcs := [.word a.toNat] }
  | .rrecv n d => { dst := some (d.toNat, 1), wr := !n }
  | .rstat s n d _ => { dst := some (d.toNat, 1), wr := !n, ok := decide (s.toNat < 3) }
  | .trap a => { srcs := [.word a.toNat] }
  | .tfence a => { srcs := [.word a.toNat] }
  | .xret _ => {}
  | .errclr a _ => { srcs := [.word a.toNat] }
  | .rdsp s n d _ => { dst := some (d.toNat, spRegs s.toNat), wr := !n, ok := decide (s.toNat < 18) }
  | .wrsp s a _ => { srcs := [(if spRegs s.toNat = 2 then .pair a.toNat else .word a.toNat)], ok := spWritable s }
  | .cbset a _ => { srcs := [.group a.toNat 8] }
  | .carve a n d => { srcs := [.word a.toNat], dst := some (d.toNat, 1), wr := !n }
  | .ptog n d _ => { dst := some (d.toNat, 1), wr := !n }
  | .gtop a _ => { srcs := [.word a.toNat] }
  | .sctime a n d _ => { srcs := [.pair a.toNat], dst := some (d.toNat, 2), wr := !n }
  | .genend => {}
  | .genstat n d _ => { dst := some (d.toNat, 1), wr := !n }
  | .tlbib a k => { srcs := if k = 0 then [.pair a.toNat] else [], ok := decide (k.toNat < 2) && (decide (k = 0) || decide (a = 0)) }
  | .tlbil a k _ => { srcs := if k = 0 then [.pair a.toNat] else [], ok := decide (k.toNat < 2) && (decide (k = 0) || decide (a = 0)) }
  | .lvend _ => {}
  | .kstat n d _ => { dst := some (d.toNat, 1), wr := !n }
  | .bkpt => {}
  | .waitphSt a _ _ => { srcs := [.word a.toNat] }
  | .errrd n d _ => { dst := some (d.toNat, 1), wr := !n }
  | .clkrd n d _ => { dst := some (d.toNat, 2), wr := !n }
  | .mov b d e => if d.toNat = 0 then { ok := !(decide (b.toNat = 0) && !e) } else { srcs := [.word (code5 b)], dst := some (d.toNat, 1), ok := decide (d.toNat < 28) }
  | .add16 b d _ => if d.toNat = 0 then {} else { srcs := [.word (code5 b), .word (code5 d)], dst := some (d.toNat, 1), ok := decide (d.toNat < 28) }
  | .sub16 b d _ => if d.toNat = 0 then {} else { srcs := [.word (code5 b), .word (code5 d)], dst := some (d.toNat, 1), ok := decide (d.toNat < 28) }
  | .mullo16 b d _ => if d.toNat = 0 then {} else { srcs := [.word (code5 b), .word (code5 d)], dst := some (d.toNat, 1), ok := decide (d.toNat < 28) }
  | .and16 b d _ => if d.toNat = 0 then {} else { srcs := [.word (code5 b), .word (code5 d)], dst := some (d.toNat, 1), ok := decide (d.toNat < 28) }
  | .or16 b d _ => if d.toNat = 0 then {} else { srcs := [.word (code5 b), .word (code5 d)], dst := some (d.toNat, 1), ok := decide (d.toNat < 28) }
  | .xor16 b d _ => if d.toNat = 0 then {} else { srcs := [.word (code5 b), .word (code5 d)], dst := some (d.toNat, 1), ok := decide (d.toNat < 28) }
  | .shl16 b d _ => if d.toNat = 0 then {} else { srcs := [.word (code5 b), .word (code5 d)], dst := some (d.toNat, 1), ok := decide (d.toNat < 28) }
  | .shrU16 b d _ => if d.toNat = 0 then {} else { srcs := [.word (code5 b), .word (code5 d)], dst := some (d.toNat, 1), ok := decide (d.toNat < 28) }
  | .shrS16 b d _ => if d.toNat = 0 then {} else { srcs := [.word (code5 b), .word (code5 d)], dst := some (d.toNat, 1), ok := decide (d.toNat < 28) }
  | .minS16 b d _ => if d.toNat = 0 then {} else { srcs := [.word (code5 b), .word (code5 d)], dst := some (d.toNat, 1), ok := decide (d.toNat < 28) }
  | .maxS16 b d _ => if d.toNat = 0 then {} else { srcs := [.word (code5 b), .word (code5 d)], dst := some (d.toNat, 1), ok := decide (d.toNat < 28) }
  | .fadd16 b d _ => if d.toNat = 0 then {} else { srcs := [.word (code5 b), .word (code5 d)], dst := some (d.toNat, 1), ok := decide (d.toNat < 28) }
  | .fsub16 b d _ => if d.toNat = 0 then {} else { srcs := [.word (code5 b), .word (code5 d)], dst := some (d.toNat, 1), ok := decide (d.toNat < 28) }
  | .fmul16 b d _ => if d.toNat = 0 then {} else { srcs := [.word (code5 b), .word (code5 d)], dst := some (d.toNat, 1), ok := decide (d.toNat < 28) }
  | .fmax16 b d _ => if d.toNat = 0 then {} else { srcs := [.word (code5 b), .word (code5 d)], dst := some (d.toNat, 1), ok := decide (d.toNat < 28) }
  | .fusedGroup => {}
  | .illegalWord => {}
  | .pendingWriteLands => {}
  | .grouperFill => {}
  | .entryAged => {}
  | .rendezvousComplete => {}
  | .joinRelease => {}
  | .binTimeout => {}
  | .binWarpTakesSlot => {}
  | .leavenSpawn => {}
  | .leavenContextEnd => {}
  | .generatorSwitch => {}
  | .dozeTimeout => {}
  | .scRetry => {}
  | .lqn => {}
  | .slotFree => {}
  | .takeRecord => {}
  | .offerCandidate => {}
  | .recordStarvation => {}
  | .migration => {}
  | .sifter => {}
  | .blockEnd => {}
  | .copyTakeEntry => {}
  | .engineByteCount => {}
  | .engineError => {}
  | .copyStatus => {}
  | .matrixTakeEntry => {}
  | .bufferClaim => {}
  | .rectReserve => {}
  | .metadataTake => {}
  | .kStep => {}
  | .partialDelivery => {}
  | .drain => {}
  | .matrixStatus => {}
  | .reductionItemArrival => {}
  | .routerCombine => {}
  | .reductionDeadline => {}
  | .flitCrcFailure => {}
  | .packageReset => {}
  | .partitionReset => {}
  | .ctxnext => {}
  | .preloadComplete => {}
  | .sliceEnd => {}
  | .coreStopped => {}
  | .spill => {}
  | .powerLimit => {}
  | .shedReturn => {}
  | .s2root => {}
  | .hubinvVa => {}
  | .hubinvTenant => {}
  | .hubinvIpa => {}
  | .hubinvPartition => {}
  | .invalidationComplete => {}
  | .nqbase => {}
  | .scepoch => {}
  | .epochChangeComplete => {}
  | .registerWrite => {}
  | .attest => {}
  | .tbind => {}
  | .tmext => {}
  | .sealTenant => {}
  | .releaseKey => {}
  | .unsealTenant => {}
  | .svncommit => {}
  | .mrext => {}
  | .logread => {}
  | .getFwInfo => {}
  | .transferFwInitiate => {}
  | .transferFwContinue => {}
  | .transferFwEnd => {}
  | .transferFwAbort => {}
  | .alarm => {}
  | .logSnapshot => {}
  | .poweredMinute => {}
  | .hostBar2Read => {}
  | .hostBar2Write => {}
  | .roceRead => {}
  | .roceWrite => {}
  | .nvmeCommand => {}
  | .smaddr => {}
  | .accessPerformed => {}
  | .droopEvent => {}
  | .powerLoss => {}
  | .mctpMessage => {}

/-- The code is a general register or a latch that a source may name. -/
def Src.wf : Src → Bool
  | .word c => decide (c < 128)
  | .pair c => (decide (c % 2 = 0) && decide (c < 124)) || (decide (124 ≤ c) && decide (c < 128))
  | .group b n => decide (b % n = 0) && decide (b + n ≤ 124)
  | .run b n => decide (b + n ≤ 124)
  | .name c => decide (c < 124)
  | .soft b => decide (b < 128)

/-- A destination group: general registers, aligned to the group (R18, R20). -/
def dstWf : Option (Nat × Nat) → Bool
  | none => true
  | some (b, n) => decide (b % n = 0) && decide (b + n ≤ 124)

/-- The general registers a source names, for the check of R19. -/
def Src.regs : Src → List Nat
  | .word c => if c < 124 then [c] else []
  | .pair c => if c < 124 then [c, c + 1] else []
  | .group b n => List.range' b n
  | .run b n => List.range' b n
  | .name c => if c = 0 then [] else [c]
  | .soft _ => []

/-- The latches a source reads. -/
def Src.latches : Src → List Nat
  | .word c => if c < 124 then [] else [c - 124]
  | .pair c => if c < 124 then [] else [c - 124]
  | .group _ _ => []
  | .run _ _ => []
  | .name _ => []
  | .soft _ => []

/-- The general registers a source is read from, for the waits of R48 and R49 (HEEL reads none). -/
def Src.touch : Src → List Nat
  | .word c => if c < 124 then [c] else []
  | .pair c => if c < 124 then [c, c + 1] else []
  | .group b n => List.range' b n
  | .run b n => List.range' b n
  | .name _ => []
  | .soft _ => []

/-- Every general register an instruction names, for the budget check of R19. -/
def Shape.regs (s : Shape) : List Nat :=
  s.srcs.flatMap Src.regs ++ (match s.dst with | none => [] | some (b, n) => List.range' b n)

/-- Every general register an instruction reads or writes, for R48 and R49: with N = 1 its destination group is not written
(R39). The registers of YIELD and TAKE depend on the warp besides. -/
def Shape.touch (s : Shape) : List Nat :=
  s.srcs.flatMap Src.touch ++ (match s.dst with | none => [] | some (b, n) => if s.wr then List.range' b n else [])

/-- Every latch an instruction reads. -/
def Shape.latches (s : Shape) : List Nat := s.srcs.flatMap Src.latches

end Sys2Proof
end

