-- ==== Sys2Proof/WellFormed.lean ====
section
/-! DEFINITION. Well-formed instructions: every register code, register group and reserved field is one the spec
permits (R52). The register budget of a thread (R19), a latch read (R47) and the length of a loaf (R44) are checked
when the word issues. -/

namespace Sys2Proof

/-- The operands of an instruction are permitted by R18, R20 and R52. -/
def Instr.wf (i : Instr) : Bool :=
  i.shape.ok && i.shape.srcs.all Src.wf && dstWf i.shape.dst

/-- The proposition that an instruction is well formed. -/
abbrev Instr.WellFormed (i : Instr) : Prop := i.wf = true

end Sys2Proof
end

