-- ==== Sys2Proof/Decode.lean ====
section
/-! DEFINITION. The decoder and the encoder (R35-R43 and the encodings of each class). Decoding is total on any bytes;
a word that no instruction has, or whose operands R52 forbids, is rejected. The encoder is written from the same
tables. -/

namespace Sys2Proof

/-- Bits [lo+n-1:lo] of an instruction word. -/
def fld (w : BitVec 32) (lo n : Nat) : BitVec n := w.extractLsb' lo n

/-- A one-bit field. -/
def fbit (w : BitVec 32) (lo : Nat) : Bool := w.getLsbD lo

/-- MAJ 0x00. -/
def decMaj00 (w : BitVec 32) : Option Instr :=
  if fld w 30 2 = 0 then some (.add (fld w 23 7) (fld w 16 7) (fbit w 15) (fld w 8 7) (fbit w 1))
  else if fld w 30 2 = 1 then some (.sub (fld w 23 7) (fld w 16 7) (fbit w 15) (fld w 8 7) (fbit w 1))
  else if fld w 30 2 = 2 then some (.and (fld w 23 7) (fld w 16 7) (fbit w 15) (fld w 8 7) (fbit w 1))
  else if fld w 30 2 = 3 then some (.or (fld w 23 7) (fld w 16 7) (fbit w 15) (fld w 8 7) (fbit w 1))
  else none

/-- MAJ 0x01. -/
def decMaj01 (w : BitVec 32) : Option Instr :=
  if fld w 30 2 = 0 then some (.xor (fld w 23 7) (fld w 16 7) (fbit w 15) (fld w 8 7) (fbit w 1))
  else if fld w 30 2 = 1 then some (.andn (fld w 23 7) (fld w 16 7) (fbit w 15) (fld w 8 7) (fbit w 1))
  else if fld w 30 2 = 2 then some (.minS (fld w 23 7) (fld w 16 7) (fbit w 15) (fld w 8 7) (fbit w 1))
  else if fld w 30 2 = 3 then some (.maxS (fld w 23 7) (fld w 16 7) (fbit w 15) (fld w 8 7) (fbit w 1))
  else none

/-- MAJ 0x02. -/
def decMaj02 (w : BitVec 32) : Option Instr :=
  if fld w 30 2 = 0 then some (.minU (fld w 23 7) (fld w 16 7) (fbit w 15) (fld w 8 7) (fbit w 1))
  else if fld w 30 2 = 1 then some (.maxU (fld w 23 7) (fld w 16 7) (fbit w 15) (fld w 8 7) (fbit w 1))
  else if fld w 30 2 = 2 then some (.absdS (fld w 23 7) (fld w 16 7) (fbit w 15) (fld w 8 7) (fbit w 1))
  else if fld w 30 2 = 3 then some (.addsatS (fld w 23 7) (fld w 16 7) (fbit w 15) (fld w 8 7) (fbit w 1))
  else none

/-- MAJ 0x03. -/
def decMaj03 (w : BitVec 32) : Option Instr :=
  if fld w 30 2 = 0 then some (.shl (fld w 23 7) (fld w 16 7) (fbit w 15) (fld w 8 7) (fbit w 1))
  else if fld w 30 2 = 1 then some (.shrU (fld w 23 7) (fld w 16 7) (fbit w 15) (fld w 8 7) (fbit w 1))
  else if fld w 30 2 = 2 then some (.shrS (fld w 23 7) (fld w 16 7) (fbit w 15) (fld w 8 7) (fbit w 1))
  else if fld w 30 2 = 3 then some (.rotl (fld w 23 7) (fld w 16 7) (fbit w 15) (fld w 8 7) (fbit w 1))
  else none

/-- MAJ 0x04. -/
def decMaj04 (w : BitVec 32) : Option Instr :=
  if fld w 30 2 = 0 then some (.mullo (fld w 23 7) (fld w 16 7) (fbit w 15) (fld w 8 7) (fbit w 1))
  else if fld w 30 2 = 1 then some (.mulhiS (fld w 23 7) (fld w 16 7) (fbit w 15) (fld w 8 7) (fbit w 1))
  else if fld w 30 2 = 2 then some (.mulhiU (fld w 23 7) (fld w 16 7) (fbit w 15) (fld w 8 7) (fbit w 1))
  else if fld w 30 2 = 3 then some (.mulwS (fld w 23 7) (fld w 16 7) (fbit w 15) (fld w 8 7) (fbit w 1))
  else none

/-- MAJ 0x05. -/
def decMaj05 (w : BitVec 32) : Option Instr :=
  if fld w 28 2 = 0 then some (.mad (fld w 30 2) (fld w 23 5) (fld w 16 7) (fbit w 15) (fld w 8 7) (fbit w 1))
  else if fld w 28 2 = 1 then some (.madwS (fld w 30 2) (fld w 23 5) (fld w 16 7) (fbit w 15) (fld w 8 7) (fbit w 1))
  else if fld w 28 2 = 2 then some (.dot4I8 (fld w 30 2) (fld w 23 5) (fld w 16 7) (fbit w 15) (fld w 8 7) (fbit w 1))
  else if fld w 28 2 = 3 then some (.dot4N8 (fld w 30 2) (fld w 23 5) (fld w 16 7) (fbit w 15) (fld w 8 7) (fbit w 1))
  else none

/-- MAJ 0x06. -/
def decMaj06 (w : BitVec 32) : Option Instr :=
  if True then some (.addi (fld w 23 9) (fld w 16 7) (fbit w 15) (fld w 8 7) (fbit w 1))
  else none

/-- MAJ 0x07. -/
def decMaj07 (w : BitVec 32) : Option Instr :=
  if True then some (.andi (fld w 23 9) (fld w 16 7) (fbit w 15) (fld w 8 7) (fbit w 1))
  else none

/-- MAJ 0x08. -/
def decMaj08 (w : BitVec 32) : Option Instr :=
  if True then some (.ori (fld w 23 9) (fld w 16 7) (fbit w 15) (fld w 8 7) (fbit w 1))
  else none

/-- MAJ 0x09. -/
def decMaj09 (w : BitVec 32) : Option Instr :=
  if True then some (.xori (fld w 23 9) (fld w 16 7) (fbit w 15) (fld w 8 7) (fbit w 1))
  else none

/-- MAJ 0x0A. -/
def decMaj0A (w : BitVec 32) : Option Instr :=
  if fld w 28 4 = 0 then some (.shli (fld w 23 5) (fld w 16 7) (fbit w 15) (fld w 8 7) (fbit w 1))
  else if fld w 28 4 = 4 then some (.shriU (fld w 23 5) (fld w 16 7) (fbit w 15) (fld w 8 7) (fbit w 1))
  else if fld w 28 4 = 8 then some (.shriS (fld w 23 5) (fld w 16 7) (fbit w 15) (fld w 8 7) (fbit w 1))
  else if fld w 28 4 = 12 then some (.rotli (fld w 23 5) (fld w 16 7) (fbit w 15) (fld w 8 7) (fbit w 1))
  else none

/-- MAJ 0x0B. -/
def decMaj0B (w : BitVec 32) : Option Instr :=
  if True then some (.movh (fld w 16 16) (fbit w 15) (fld w 8 7) (fbit w 1))
  else none

/-- MAJ 0x0C. -/
def decMaj0C (w : BitVec 32) : Option Instr :=
  if True then some (.orl (fld w 16 16) (fbit w 15) (fld w 8 7) (fbit w 1))
  else none

/-- MAJ 0x0D. -/
def decMaj0D (w : BitVec 32) : Option Instr :=
  if fld w 30 2 = 0 then some (.bfeU (fld w 23 7) (fld w 16 7) (fbit w 15) (fld w 8 7) (fbit w 1))
  else if fld w 30 2 = 1 then some (.bfeS (fld w 23 7) (fld w 16 7) (fbit w 15) (fld w 8 7) (fbit w 1))
  else if fld w 30 2 = 2 then some (.bfi (fld w 23 7) (fld w 16 7) (fbit w 15) (fld w 8 7) (fbit w 1))
  else if fld w 30 2 = 3 then some (.permb (fld w 23 7) (fld w 16 7) (fbit w 15) (fld w 8 7) (fbit w 1))
  else none

/-- MAJ 0x0E. -/
def decMaj0E (w : BitVec 32) : Option Instr :=
  if fld w 23 9 = 0 then some (.popc (fld w 16 7) (fbit w 15) (fld w 8 7) (fbit w 1))
  else if fld w 23 9 = 128 then some (.clz (fld w 16 7) (fbit w 15) (fld w 8 7) (fbit w 1))
  else if fld w 23 9 = 256 then some (.brev (fld w 16 7) (fbit w 15) (fld w 8 7) (fbit w 1))
  else if fld w 23 9 = 384 then some (.neg (fld w 16 7) (fbit w 15) (fld w 8 7) (fbit w 1))
  else none

/-- MAJ 0x0F. -/
def decMaj0F (w : BitVec 32) : Option Instr :=
  if fld w 15 1 = 0 ∧ fld w 10 1 = 0 then some (.icmp (fld w 30 2) (fld w 23 7) (fld w 16 7) (fld w 11 4) (fld w 8 2) (fbit w 1))
  else none

/-- MAJ 0x10. -/
def decMaj10 (w : BitVec 32) : Option Instr :=
  if True then some (.sel (fld w 30 2) (fld w 23 7) (fld w 16 7) (fbit w 15) (fld w 8 7) (fbit w 1))
  else none

/-- MAJ 0x11. -/
def decMaj11 (w : BitVec 32) : Option Instr :=
  if fld w 25 7 = 0 ∧ fld w 18 5 = 0 ∧ fld w 10 6 = 0 then some (.pand (fld w 23 2) (fld w 16 2) (fld w 8 2) (fbit w 1))
  else if fld w 25 7 = 32 ∧ fld w 18 5 = 0 ∧ fld w 10 6 = 0 then some (.por (fld w 23 2) (fld w 16 2) (fld w 8 2) (fbit w 1))
  else if fld w 25 7 = 64 ∧ fld w 18 5 = 0 ∧ fld w 10 6 = 0 then some (.pxor (fld w 23 2) (fld w 16 2) (fld w 8 2) (fbit w 1))
  else if fld w 18 14 = 12288 ∧ fld w 10 6 = 0 then some (.pnot (fld w 16 2) (fld w 8 2) (fbit w 1))
  else none

/-- MAJ 0x12. -/
def decMaj12 (w : BitVec 32) : Option Instr :=
  if fld w 30 2 = 0 then some (.fadd (fld w 23 7) (fld w 16 7) (fbit w 15) (fld w 8 7) (fbit w 1))
  else if fld w 30 2 = 1 then some (.fsub (fld w 23 7) (fld w 16 7) (fbit w 15) (fld w 8 7) (fbit w 1))
  else if fld w 30 2 = 2 then some (.fmul (fld w 23 7) (fld w 16 7) (fbit w 15) (fld w 8 7) (fbit w 1))
  else if fld w 30 2 = 3 then some (.fmax (fld w 23 7) (fld w 16 7) (fbit w 15) (fld w 8 7) (fbit w 1))
  else none

/-- MAJ 0x13. -/
def decMaj13 (w : BitVec 32) : Option Instr :=
  if fld w 28 2 = 0 then some (.ffma (fld w 30 2) (fld w 23 5) (fld w 16 7) (fbit w 15) (fld w 8 7) (fbit w 1))
  else if fld w 28 2 = 1 then some (.ffms (fld w 30 2) (fld w 23 5) (fld w 16 7) (fbit w 15) (fld w 8 7) (fbit w 1))
  else if fld w 28 2 = 2 then some (.fnfma (fld w 30 2) (fld w 23 5) (fld w 16 7) (fbit w 15) (fld w 8 7) (fbit w 1))
  else if fld w 28 2 = 3 then some (.fmad2 (fld w 30 2) (fld w 23 5) (fld w 16 7) (fbit w 15) (fld w 8 7) (fbit w 1))
  else none

/-- MAJ 0x14. -/
def decMaj14 (w : BitVec 32) : Option Instr :=
  if fld w 30 2 = 0 then some (.fmin (fld w 23 7) (fld w 16 7) (fbit w 15) (fld w 8 7) (fbit w 1))
  else if fld w 30 2 = 1 then some (.fcopysign (fld w 23 7) (fld w 16 7) (fbit w 15) (fld w 8 7) (fbit w 1))
  else if fld w 23 9 = 256 then some (.fabs (fld w 16 7) (fbit w 15) (fld w 8 7) (fbit w 1))
  else if fld w 23 9 = 384 then some (.fneg (fld w 16 7) (fbit w 15) (fld w 8 7) (fbit w 1))
  else none

/-- MAJ 0x15. -/
def decMaj15 (w : BitVec 32) : Option Instr :=
  if fld w 15 1 = 0 ∧ fld w 10 1 = 0 then some (.fcmp (fld w 30 2) (fld w 23 7) (fld w 16 7) (fld w 11 4) (fld w 8 2) (fbit w 1))
  else none

/-- MAJ 0x16. -/
def decMaj16 (w : BitVec 32) : Option Instr :=
  if True then some (.cvt (fld w 30 2) (fld w 23 7) (fld w 16 7) (fbit w 15) (fld w 8 7) (fbit w 1))
  else none

/-- MAJ 0x17. -/
def decMaj17 (w : BitVec 32) : Option Instr :=
  if fld w 30 2 = 0 then some (.pkbf (fld w 23 7) (fld w 16 7) (fbit w 15) (fld w 8 7) (fbit w 1))
  else if fld w 30 2 = 1 then some (.pkh8 (fld w 23 7) (fld w 16 7) (fbit w 15) (fld w 8 7) (fbit w 1))
  else if fld w 23 9 = 256 then some (.upkbf (fld w 16 7) (fbit w 15) (fld w 8 7) (fbit w 1))
  else if fld w 23 9 = 384 then some (.upkh8 (fld w 16 7) (fbit w 15) (fld w 8 7) (fbit w 1))
  else none

/-- MAJ 0x18. -/
def decMaj18 (w : BitVec 32) : Option Instr :=
  if fld w 23 9 = 0 then some (.rcp (fld w 16 7) (fbit w 15) (fld w 8 7) (fbit w 1))
  else if fld w 23 9 = 128 then some (.rsq (fld w 16 7) (fbit w 15) (fld w 8 7) (fbit w 1))
  else if fld w 23 9 = 256 then some (.ex2 (fld w 16 7) (fbit w 15) (fld w 8 7) (fbit w 1))
  else if fld w 23 9 = 384 then some (.lg2 (fld w 16 7) (fbit w 15) (fld w 8 7) (fbit w 1))
  else none

/-- MAJ 0x19. -/
def decMaj19 (w : BitVec 32) : Option Instr :=
  if fld w 23 9 = 0 then some (.sqrt (fld w 16 7) (fbit w 15) (fld w 8 7) (fbit w 1))
  else if fld w 23 9 = 128 then some (.sin (fld w 16 7) (fbit w 15) (fld w 8 7) (fbit w 1))
  else if fld w 23 9 = 256 then some (.cos (fld w 16 7) (fbit w 15) (fld w 8 7) (fbit w 1))
  else if fld w 23 9 = 384 then some (.tanh (fld w 16 7) (fbit w 15) (fld w 8 7) (fbit w 1))
  else none

/-- MAJ 0x1A. -/
def decMaj1A (w : BitVec 32) : Option Instr :=
  if fld w 30 2 = 0 then some (.hadd2 (fld w 23 7) (fld w 16 7) (fbit w 15) (fld w 8 7) (fbit w 1))
  else if fld w 30 2 = 1 then some (.hsub2 (fld w 23 7) (fld w 16 7) (fbit w 15) (fld w 8 7) (fbit w 1))
  else if fld w 30 2 = 2 then some (.hmul2 (fld w 23 7) (fld w 16 7) (fbit w 15) (fld w 8 7) (fbit w 1))
  else if fld w 30 2 = 3 then some (.hmax2 (fld w 23 7) (fld w 16 7) (fbit w 15) (fld w 8 7) (fbit w 1))
  else none

/-- MAJ 0x1B. -/
def decMaj1B (w : BitVec 32) : Option Instr :=
  if fld w 30 2 = 0 then some (.cbx (fld w 23 7) (fld w 16 7) (fbit w 15) (fld w 8 7) (fbit w 1))
  else if fld w 30 2 = 1 then some (.cbq (fld w 23 7) (fld w 16 7) (fbit w 15) (fld w 8 7) (fbit w 1))
  else if fld w 30 2 = 2 then some (.nqx (fld w 23 7) (fld w 16 7) (fbit w 15) (fld w 8 7) (fbit w 1))
  else if fld w 30 2 = 3 then some (.nqq (fld w 23 7) (fld w 16 7) (fbit w 15) (fld w 8 7) (fbit w 1))
  else none

/-- MAJ 0x1C. -/
def decMaj1C (w : BitVec 32) : Option Instr :=
  if fld w 28 2 = 0 then some (.hfma2 (fld w 30 2) (fld w 23 5) (fld w 16 7) (fbit w 15) (fld w 8 7) (fbit w 1))
  else if fld w 28 2 = 1 then some (.hfms2 (fld w 30 2) (fld w 23 5) (fld w 16 7) (fbit w 15) (fld w 8 7) (fbit w 1))
  else none

/-- MAJ 0x1D. -/
def decMaj1D (w : BitVec 32) : Option Instr :=
  if fld w 11 1 = 0 ∧ fld w 1 1 = 1 then some (.br (fld w 12 20) (fbit w 10) (fld w 8 2))
  else none

/-- MAJ 0x1E. -/
def decMaj1E (w : BitVec 32) : Option Instr :=
  if fld w 8 4 = 0 ∧ fld w 1 1 = 1 then some (.jmp (fld w 12 20))
  else if fld w 8 4 = 1 ∧ fld w 1 1 = 1 then some (.call (fld w 12 20))
  else if fld w 23 9 = 0 ∧ fld w 8 8 = 2 ∧ fld w 1 1 = 1 then some (.jr (fld w 16 7))
  else if fld w 23 9 = 0 ∧ fld w 8 8 = 3 ∧ fld w 1 1 = 1 then some (.callr (fld w 16 7))
  else if fld w 8 24 = 4 ∧ fld w 1 1 = 1 then some (.ret)
  else if fld w 8 24 = 5 ∧ fld w 1 1 = 1 then some (.exit)
  else if fld w 8 24 = 6 ∧ fld w 1 1 = 1 then some (.join)
  else if fld w 8 24 = 7 then some (.nop (fbit w 1))
  else none

/-- MAJ 0x1F. -/
def decMaj1F (w : BitVec 32) : Option Instr :=
  if fld w 15 1 = 0 ∧ fld w 1 1 = 1 then some (.jtab (fld w 23 9) (fld w 16 7) (fld w 8 7))
  else none

/-- MAJ 0x20. -/
def decMaj20 (w : BitVec 32) : Option Instr :=
  if fld w 30 2 = 0 ∧ fld w 15 1 = 0 ∧ fld w 1 1 = 1 then some (.heel (fld w 23 7) (fld w 16 7) (fld w 8 7))
  else none

/-- MAJ 0x21. -/
def decMaj21 (w : BitVec 32) : Option Instr :=
  if fld w 23 9 = 0 then some (.rayld (fld w 16 7) (fbit w 15) (fld w 8 7) (fbit w 1))
  else if fld w 30 2 = 1 then some (.boxt (fld w 23 7) (fld w 16 7) (fbit w 15) (fld w 8 7) (fbit w 1))
  else if fld w 30 2 = 2 then some (.desc (fld w 23 7) (fld w 16 7) (fbit w 15) (fld w 8 7) (fbit w 1))
  else if fld w 30 2 = 3 then some (.asc (fld w 23 7) (fld w 16 7) (fbit w 15) (fld w 8 7) (fbit w 1))
  else none

/-- MAJ 0x22. -/
def decMaj22 (w : BitVec 32) : Option Instr :=
  if fld w 23 9 = 0 then some (.trit (fld w 16 7) (fbit w 15) (fld w 8 7) (fbit w 1))
  else if fld w 30 2 = 1 then some (.tcmp (fld w 23 7) (fld w 16 7) (fbit w 15) (fld w 8 7) (fbit w 1))
  else if fld w 23 9 = 256 then some (.tcvt (fld w 16 7) (fbit w 15) (fld w 8 7) (fbit w 1))
  else if fld w 23 9 = 384 ∧ fld w 15 1 = 0 then some (.hitw (fld w 16 7) (fld w 8 7) (fbit w 1))
  else none

/-- MAJ 0x23. -/
def decMaj23 (w : BitVec 32) : Option Instr :=
  if fld w 30 2 = 0 then some (.rasts (fld w 23 7) (fld w 16 7) (fbit w 15) (fld w 8 7) (fbit w 1))
  else if fld w 30 2 = 1 then some (.rastt (fld w 23 7) (fld w 16 7) (fbit w 15) (fld w 8 7) (fbit w 1))
  else if fld w 30 2 = 2 then some (.refit (fld w 23 7) (fld w 16 7) (fbit w 15) (fld w 8 7) (fbit w 1))
  else if fld w 30 2 = 3 then some (.vtxq (fld w 23 7) (fld w 16 7) (fbit w 15) (fld w 8 7) (fbit w 1))
  else none

/-- MAJ 0x24. -/
def decMaj24 (w : BitVec 32) : Option Instr :=
  if fld w 30 2 = 0 then some (.shflIdx (fld w 23 7) (fld w 16 7) (fbit w 15) (fld w 8 7) (fbit w 1))
  else if fld w 30 2 = 1 then some (.shflUp (fld w 23 7) (fld w 16 7) (fbit w 15) (fld w 8 7) (fbit w 1))
  else if fld w 30 2 = 2 then some (.shflDown (fld w 23 7) (fld w 16 7) (fbit w 15) (fld w 8 7) (fbit w 1))
  else if fld w 30 2 = 3 then some (.shflXor (fld w 23 7) (fld w 16 7) (fbit w 15) (fld w 8 7) (fbit w 1))
  else none

/-- MAJ 0x25. -/
def decMaj25 (w : BitVec 32) : Option Instr :=
  if fld w 18 14 = 0 then some (.voteAny (fld w 16 2) (fbit w 15) (fld w 8 7) (fbit w 1))
  else if fld w 18 14 = 4096 then some (.voteAll (fld w 16 2) (fbit w 15) (fld w 8 7) (fbit w 1))
  else if fld w 18 14 = 8192 then some (.voteBallot (fld w 16 2) (fbit w 15) (fld w 8 7) (fbit w 1))
  else if fld w 23 9 = 384 then some (.voteUni (fld w 16 7) (fbit w 15) (fld w 8 7) (fbit w 1))
  else none

/-- MAJ 0x26. -/
def decMaj26 (w : BitVec 32) : Option Instr :=
  if fld w 23 9 = 0 then some (.redaddI (fld w 16 7) (fbit w 15) (fld w 8 7) (fbit w 1))
  else if fld w 23 9 = 128 then some (.redaddF (fld w 16 7) (fbit w 15) (fld w 8 7) (fbit w 1))
  else if fld w 23 9 = 256 then some (.redminS (fld w 16 7) (fbit w 15) (fld w 8 7) (fbit w 1))
  else if fld w 23 9 = 384 then some (.redmaxS (fld w 16 7) (fbit w 15) (fld w 8 7) (fbit w 1))
  else none

/-- MAJ 0x27. -/
def decMaj27 (w : BitVec 32) : Option Instr :=
  if fld w 23 9 = 0 then some (.matchLanes (fld w 16 7) (fbit w 15) (fld w 8 7) (fbit w 1))
  else if fld w 18 14 = 4096 then some (.compact (fld w 16 2) (fbit w 15) (fld w 8 7) (fbit w 1))
  else if fld w 23 9 = 256 then some (.scanadd (fld w 16 7) (fbit w 15) (fld w 8 7) (fbit w 1))
  else if fld w 16 16 = 49152 then some (.elect (fbit w 15) (fld w 8 7) (fbit w 1))
  else none

/-- MAJ 0x28. -/
def decMaj28 (w : BitVec 32) : Option Instr :=
  if fld w 30 2 = 0 ∧ fld w 12 4 = 0 ∧ fld w 1 1 = 1 then some (.knead (fld w 23 7) (fld w 16 7) (fld w 8 4))
  else if fld w 8 24 = 4194304 ∧ fld w 1 1 = 1 then some (.kflush)
  else if fld w 29 3 = 4 ∧ fld w 8 8 = 0 then some (.wrk (fld w 23 6) (fld w 16 7) (fbit w 1))
  else if fld w 29 3 = 6 ∧ fld w 16 7 = 0 then some (.rdk (fld w 23 6) (fbit w 15) (fld w 8 7) (fbit w 1))
  else none

/-- MAJ 0x29. -/
def decMaj29 (w : BitVec 32) : Option Instr :=
  if fld w 27 5 = 0 ∧ fld w 8 15 = 0 ∧ fld w 1 1 = 1 then some (.barSync (fld w 23 4))
  else if fld w 27 5 = 8 ∧ fld w 8 15 = 0 then some (.barArrive (fld w 23 4) (fbit w 1))
  else if fld w 27 5 = 16 ∧ fld w 8 15 = 0 ∧ fld w 1 1 = 1 then some (.barWait (fld w 23 4))
  else if fld w 27 5 = 24 ∧ fld w 8 8 = 0 then some (.barInit (fld w 23 4) (fld w 16 7) (fbit w 1))
  else none

/-- MAJ 0x2A. -/
def decMaj2A (w : BitVec 32) : Option Instr :=
  if fld w 30 2 = 0 ∧ fld w 8 8 = 0 ∧ fld w 1 1 = 1 then some (.genbeg (fld w 23 7) (fld w 16 7))
  else if fld w 23 9 = 128 ∧ fld w 8 8 = 0 then some (.yield (fld w 16 7) (fbit w 1))
  else if fld w 25 7 = 64 ∧ fld w 16 7 = 0 then some (.take (fld w 23 2) (fbit w 15) (fld w 8 7) (fbit w 1))
  else if fld w 8 24 = 12582912 ∧ fld w 1 1 = 1 then some (.gennext)
  else none

/-- MAJ 0x2B. -/
def decMaj2B (w : BitVec 32) : Option Instr :=
  if True then some (.ldG (fld w 26 6) (fld w 23 3) (fld w 16 7) (fbit w 15) (fld w 8 7) (fbit w 1))
  else none

/-- MAJ 0x2C. -/
def decMaj2C (w : BitVec 32) : Option Instr :=
  if fld w 15 1 = 0 then some (.stG (fld w 26 6) (fld w 23 3) (fld w 16 7) (fld w 8 7) (fbit w 1))
  else none

/-- MAJ 0x2D. -/
def decMaj2D (w : BitVec 32) : Option Instr :=
  if True then some (.ldS (fld w 26 6) (fld w 23 3) (fld w 16 7) (fbit w 15) (fld w 8 7) (fbit w 1))
  else none

/-- MAJ 0x2E. -/
def decMaj2E (w : BitVec 32) : Option Instr :=
  if fld w 15 1 = 0 then some (.stS (fld w 26 6) (fld w 23 3) (fld w 16 7) (fld w 8 7) (fbit w 1))
  else none

/-- MAJ 0x2F. -/
def decMaj2F (w : BitVec 32) : Option Instr :=
  if fld w 23 9 = 0 then some (.ldSc (fld w 16 7) (fbit w 15) (fld w 8 7) (fbit w 1))
  else if fld w 30 2 = 1 ∧ fld w 8 8 = 0 then some (.stSc (fld w 23 7) (fld w 16 7) (fbit w 1))
  else if fld w 30 2 = 2 then some (.aaddSc (fld w 23 7) (fld w 16 7) (fbit w 15) (fld w 8 7) (fbit w 1))
  else if fld w 30 2 = 3 then some (.aexchSc (fld w 23 7) (fld w 16 7) (fbit w 15) (fld w 8 7) (fbit w 1))
  else none

/-- MAJ 0x30. -/
def decMaj30 (w : BitVec 32) : Option Instr :=
  if fld w 28 2 = 0 then some (.acasSc (fld w 30 2) (fld w 23 5) (fld w 16 7) (fbit w 15) (fld w 8 7) (fbit w 1))
  else none

/-- MAJ 0x31. -/
def decMaj31 (w : BitVec 32) : Option Instr :=
  if fld w 1 1 = 1 then some (.ldfe (fbit w 31) (fld w 26 5) (fld w 23 3) (fld w 16 7) (fbit w 15) (fld w 8 7))
  else none

/-- MAJ 0x32. -/
def decMaj32 (w : BitVec 32) : Option Instr :=
  if fld w 15 1 = 0 ∧ fld w 1 1 = 1 then some (.stfe (fld w 26 6) (fld w 23 3) (fld w 16 7) (fld w 8 7))
  else none

/-- MAJ 0x33. -/
def decMaj33 (w : BitVec 32) : Option Instr :=
  if fld w 30 2 = 0 then some (.aadd (fld w 23 7) (fld w 16 7) (fbit w 15) (fld w 8 7) (fbit w 1))
  else if fld w 30 2 = 1 then some (.amin (fld w 23 7) (fld w 16 7) (fbit w 15) (fld w 8 7) (fbit w 1))
  else if fld w 30 2 = 2 then some (.amax (fld w 23 7) (fld w 16 7) (fbit w 15) (fld w 8 7) (fbit w 1))
  else if fld w 30 2 = 3 then some (.aexch (fld w 23 7) (fld w 16 7) (fbit w 15) (fld w 8 7) (fbit w 1))
  else none

/-- MAJ 0x34. -/
def decMaj34 (w : BitVec 32) : Option Instr :=
  if fld w 28 2 = 0 then some (.acas (fld w 30 2) (fld w 23 5) (fld w 16 7) (fbit w 15) (fld w 8 7) (fbit w 1))
  else if fld w 28 4 = 1 then some (.aand (fld w 23 5) (fld w 16 7) (fbit w 15) (fld w 8 7) (fbit w 1))
  else if fld w 28 4 = 2 then some (.aor (fld w 23 5) (fld w 16 7) (fbit w 15) (fld w 8 7) (fbit w 1))
  else if fld w 28 4 = 3 then some (.axor (fld w 23 5) (fld w 16 7) (fbit w 15) (fld w 8 7) (fbit w 1))
  else none

/-- MAJ 0x35. -/
def decMaj35 (w : BitVec 32) : Option Instr :=
  if fld w 30 2 = 0 then some (.gath (fld w 23 7) (fld w 16 7) (fbit w 15) (fld w 8 7) (fbit w 1))
  else if fld w 30 2 = 1 ∧ fld w 15 1 = 0 then some (.scat (fld w 23 7) (fld w 16 7) (fld w 8 7) (fbit w 1))
  else if fld w 30 2 = 2 then some (.gathS (fld w 23 7) (fld w 16 7) (fbit w 15) (fld w 8 7) (fbit w 1))
  else if fld w 30 2 = 3 ∧ fld w 15 1 = 0 then some (.scatS (fld w 23 7) (fld w 16 7) (fld w 8 7) (fbit w 1))
  else none

/-- MAJ 0x36. -/
def decMaj36 (w : BitVec 32) : Option Instr :=
  if fld w 24 8 = 0 ∧ fld w 11 5 = 0 ∧ fld w 1 1 = 1 then some (.acq (fbit w 23) (fld w 16 7) (fld w 8 3))
  else if fld w 24 8 = 64 ∧ fld w 11 5 = 0 ∧ fld w 1 1 = 1 then some (.rel (fbit w 23) (fld w 16 7) (fld w 8 3))
  else if fld w 30 2 = 2 ∧ fld w 9 7 = 0 then some (.bind (fld w 23 7) (fld w 16 7) (fbit w 8) (fbit w 1))
  else if fld w 11 21 = 1572864 ∧ fld w 1 1 = 1 then some (.fence (fld w 8 3))
  else none

/-- MAJ 0x37. -/
def decMaj37 (w : BitVec 32) : Option Instr :=
  if fld w 23 9 = 0 ∧ fld w 8 8 = 0 then some (.watch (fld w 16 7) (fbit w 1))
  else if fld w 23 9 = 128 ∧ fld w 1 1 = 1 then some (.doze (fld w 16 7) (fbit w 15) (fld w 8 7))
  else if fld w 24 8 = 128 ∧ fld w 8 8 = 0 then some (.pref (fbit w 23) (fld w 16 7) (fbit w 1))
  else if fld w 26 6 = 48 then some (.ldraw (fld w 23 3) (fld w 16 7) (fbit w 15) (fld w 8 7) (fbit w 1))
  else none

/-- MAJ 0x38. -/
def decMaj38 (w : BitVec 32) : Option Instr :=
  if fld w 27 5 = 0 ∧ fld w 8 8 = 0 ∧ fld w 1 1 = 1 then some (.qpush (fld w 23 4) (fld w 16 7))
  else if fld w 27 5 = 8 ∧ fld w 16 7 = 0 ∧ fld w 1 1 = 1 then some (.qpop (fld w 23 4) (fbit w 15) (fld w 8 7))
  else if fld w 27 5 = 16 ∧ fld w 18 5 = 0 then some (.qpoll (fld w 23 4) (fld w 16 2) (fbit w 15) (fld w 8 7) (fbit w 1))
  else if fld w 27 5 = 24 ∧ fld w 16 7 = 0 then some (.qstat (fld w 23 4) (fbit w 15) (fld w 8 7) (fbit w 1))
  else none

/-- MAJ 0x39. -/
def decMaj39 (w : BitVec 32) : Option Instr :=
  if fld w 23 9 = 0 ∧ fld w 8 8 = 0 ∧ fld w 1 1 = 1 then some (.mxiss (fld w 16 7))
  else if fld w 25 7 = 32 ∧ fld w 8 8 = 0 ∧ fld w 1 1 = 1 then some (.mxmeta (fld w 23 2) (fld w 16 7))
  else if fld w 24 8 = 128 ∧ fld w 8 15 = 0 then some (.chbeg (fbit w 23) (fbit w 1))
  else if fld w 24 8 = 192 ∧ fld w 8 15 = 0 then some (.chend (fbit w 23) (fbit w 1))
  else none

/-- MAJ 0x3A. -/
def decMaj3A (w : BitVec 32) : Option Instr :=
  if fld w 27 5 = 0 then some (.spcmp (fld w 25 2) (fld w 23 2) (fld w 16 7) (fbit w 15) (fld w 8 7) (fbit w 1))
  else if fld w 27 5 = 2 then some (.spexp (fld w 25 2) (fld w 23 2) (fld w 16 7) (fbit w 15) (fld w 8 7) (fbit w 1))
  else if fld w 28 2 = 2 then some (.scac (fld w 30 2) (fld w 23 5) (fld w 16 7) (fbit w 15) (fld w 8 7) (fbit w 1))
  else if fld w 28 4 = 3 then some (.bsq (fld w 23 5) (fld w 16 7) (fbit w 15) (fld w 8 7) (fbit w 1))
  else none

/-- MAJ 0x3B. -/
def decMaj3B (w : BitVec 32) : Option Instr :=
  if fld w 30 2 = 0 ∧ fld w 8 8 = 0 then some (.boinit (fld w 23 7) (fld w 16 7) (fbit w 1))
  else if fld w 30 2 = 1 ∧ fld w 8 8 = 0 then some (.boexp (fld w 23 7) (fld w 16 7) (fbit w 1))
  else if fld w 23 9 = 256 ∧ fld w 8 8 = 0 then some (.boarr (fld w 16 7) (fbit w 1))
  else if fld w 30 2 = 3 ∧ fld w 8 8 = 0 ∧ fld w 1 1 = 1 then some (.waitph (fld w 23 7) (fld w 16 7))
  else none

/-- MAJ 0x3C. -/
def decMaj3C (w : BitVec 32) : Option Instr :=
  if fld w 23 9 = 0 ∧ fld w 8 8 = 0 ∧ fld w 1 1 = 1 then some (.cpiss (fld w 16 7))
  else if fld w 23 9 = 128 ∧ fld w 8 8 = 0 ∧ fld w 1 1 = 1 then some (.rsend (fld w 16 7))
  else if fld w 16 16 = 32768 ∧ fld w 1 1 = 1 then some (.rrecv (fbit w 15) (fld w 8 7))
  else if fld w 25 7 = 96 ∧ fld w 16 7 = 0 then some (.rstat (fld w 23 2) (fbit w 15) (fld w 8 7) (fbit w 1))
  else none

/-- MAJ 0x3D. -/
def decMaj3D (w : BitVec 32) : Option Instr :=
  if fld w 23 9 = 0 ∧ fld w 8 8 = 0 ∧ fld w 1 1 = 1 then some (.trap (fld w 16 7))
  else if fld w 23 9 = 128 ∧ fld w 8 8 = 0 ∧ fld w 1 1 = 1 then some (.tfence (fld w 16 7))
  else if fld w 24 8 = 128 ∧ fld w 8 15 = 0 ∧ fld w 1 1 = 1 then some (.xret (fbit w 23))
  else if fld w 23 9 = 384 ∧ fld w 8 8 = 0 then some (.errclr (fld w 16 7) (fbit w 1))
  else none

/-- MAJ 0x3E. -/
def decMaj3E (w : BitVec 32) : Option Instr :=
  if fld w 30 2 = 0 ∧ fld w 16 7 = 0 then some (.rdsp (fld w 23 7) (fbit w 15) (fld w 8 7) (fbit w 1))
  else if fld w 30 2 = 1 ∧ fld w 8 8 = 0 then some (.wrsp (fld w 23 7) (fld w 16 7) (fbit w 1))
  else if fld w 23 9 = 256 ∧ fld w 8 8 = 0 then some (.cbset (fld w 16 7) (fbit w 1))
  else if fld w 23 9 = 384 ∧ fld w 1 1 = 1 then some (.carve (fld w 16 7) (fbit w 15) (fld w 8 7))
  else none

/-- MAJ 0x3F. -/
def decMaj3F (w : BitVec 32) : Option Instr :=
  if fld w 16 16 = 0 then some (.ptog (fbit w 15) (fld w 8 7) (fbit w 1))
  else if fld w 23 9 = 1 ∧ fld w 8 8 = 0 then some (.gtop (fld w 16 7) (fbit w 1))
  else if fld w 23 9 = 2 then some (.sctime (fld w 16 7) (fbit w 15) (fld w 8 7) (fbit w 1))
  else if fld w 8 24 = 98304 ∧ fld w 1 1 = 1 then some (.genend)
  else if fld w 16 16 = 512 then some (.genstat (fbit w 15) (fld w 8 7) (fbit w 1))
  else if fld w 23 9 = 5 ∧ fld w 10 6 = 0 ∧ fld w 1 1 = 1 then some (.tlbib (fld w 16 7) (fld w 8 2))
  else if fld w 23 9 = 6 ∧ fld w 10 6 = 0 then some (.tlbil (fld w 16 7) (fld w 8 2) (fbit w 1))
  else if fld w 8 24 = 229376 then some (.lvend (fbit w 1))
  else if fld w 16 16 = 1024 then some (.kstat (fbit w 15) (fld w 8 7) (fbit w 1))
  else if fld w 8 24 = 294912 ∧ fld w 1 1 = 1 then some (.bkpt)
  else if fld w 23 9 = 10 ∧ fld w 11 5 = 0 ∧ fld w 1 1 = 1 then some (.waitphSt (fld w 16 7) (fbit w 10) (fld w 8 2))
  else if fld w 16 16 = 1408 then some (.errrd (fbit w 15) (fld w 8 7) (fbit w 1))
  else if fld w 16 16 = 1536 then some (.clkrd (fbit w 15) (fld w 8 7) (fbit w 1))
  else none

/-- A 32-bit word, by its MAJ (R40, R41). -/
def decode32 (w : BitVec 32) : Option Instr :=
  match fld w 2 6 with
  | 0 => decMaj00 w
  | 1 => decMaj01 w
  | 2 => decMaj02 w
  | 3 => decMaj03 w
  | 4 => decMaj04 w
  | 5 => decMaj05 w
  | 6 => decMaj06 w
  | 7 => decMaj07 w
  | 8 => decMaj08 w
  | 9 => decMaj09 w
  | 10 => decMaj0A w
  | 11 => decMaj0B w
  | 12 => decMaj0C w
  | 13 => decMaj0D w
  | 14 => decMaj0E w
  | 15 => decMaj0F w
  | 16 => decMaj10 w
  | 17 => decMaj11 w
  | 18 => decMaj12 w
  | 19 => decMaj13 w
  | 20 => decMaj14 w
  | 21 => decMaj15 w
  | 22 => decMaj16 w
  | 23 => decMaj17 w
  | 24 => decMaj18 w
  | 25 => decMaj19 w
  | 26 => decMaj1A w
  | 27 => decMaj1B w
  | 28 => decMaj1C w
  | 29 => decMaj1D w
  | 30 => decMaj1E w
  | 31 => decMaj1F w
  | 32 => decMaj20 w
  | 33 => decMaj21 w
  | 34 => decMaj22 w
  | 35 => decMaj23 w
  | 36 => decMaj24 w
  | 37 => decMaj25 w
  | 38 => decMaj26 w
  | 39 => decMaj27 w
  | 40 => decMaj28 w
  | 41 => decMaj29 w
  | 42 => decMaj2A w
  | 43 => decMaj2B w
  | 44 => decMaj2C w
  | 45 => decMaj2D w
  | 46 => decMaj2E w
  | 47 => decMaj2F w
  | 48 => decMaj30 w
  | 49 => decMaj31 w
  | 50 => decMaj32 w
  | 51 => decMaj33 w
  | 52 => decMaj34 w
  | 53 => decMaj35 w
  | 54 => decMaj36 w
  | 55 => decMaj37 w
  | 56 => decMaj38 w
  | 57 => decMaj39 w
  | 58 => decMaj3A w
  | 59 => decMaj3B w
  | 60 => decMaj3C w
  | 61 => decMaj3D w
  | 62 => decMaj3E w
  | 63 => decMaj3F w
  | _ => none

/-- A 16-bit word, by its op4 (R36). -/
def decode16 (w : BitVec 16) : Option Instr :=
  let b : Code5 := w.extractLsb' 11 5
  let d : Code5 := w.extractLsb' 6 5
  let e : Bool := w.getLsbD 1
  match w.extractLsb' 2 4 with
  | 0 => some (.mov b d e)
  | 1 => some (.add16 b d e)
  | 2 => some (.sub16 b d e)
  | 3 => some (.mullo16 b d e)
  | 4 => some (.and16 b d e)
  | 5 => some (.or16 b d e)
  | 6 => some (.xor16 b d e)
  | 7 => some (.shl16 b d e)
  | 8 => some (.shrU16 b d e)
  | 9 => some (.shrS16 b d e)
  | 10 => some (.minS16 b d e)
  | 11 => some (.maxS16 b d e)
  | 12 => some (.fadd16 b d e)
  | 13 => some (.fsub16 b d e)
  | 14 => some (.fmul16 b d e)
  | _ => some (.fmax16 b d e)

/-- The instruction of a decoded word if its operands are well formed (R52). -/
def wellFormedOnly : Option Instr → Option Instr
  | some i => if i.wf then some i else none
  | none => none

/-- The instruction at the head of a byte string and the bytes that follow it: bit 0 of the first byte is L (R35). -/
def decode : List Byte → Option (Instr × List Byte)
  | b0 :: b1 :: rest =>
    if b0.getLsbD 0 then
      match rest with
      | b2 :: b3 :: rest' =>
        match wellFormedOnly (decode32 (b3 ++ b2 ++ b1 ++ b0 : BitVec 32)) with
        | some i => some (i, rest')
        | none => none
      | _ => none
    else
      match wellFormedOnly (decode16 (b1 ++ b0 : BitVec 16)) with
      | some i => some (i, rest)
      | none => none
  | _ => none

/-- The MAJ, or op4, of a word that is not an instruction, for FIRSTMAJ (R26). -/
def majOf (b0 b1 : Byte) : BitVec 6 :=
  if b0.getLsbD 0 then (b0.extractLsb' 2 6) else (((b1 ++ b0 : BitVec 16).extractLsb' 2 4).setWidth 6)

/-- The bytes of the instruction whose bits are `w`, `nbits` long in the table, padded with zeros to four bytes. -/
def tableBytes (nbits w : Nat) : List Byte := leBytes 4 (w % 2 ^ nbits)

/-- The instruction the decoder reads from the word `w` of the table. -/
def decodeTableWord (nbits w : Nat) : Option Instr :=
  match decode (tableBytes nbits w) with
  | some (i, _) => some i
  | none => none

/-- A flag as one bit. -/
def b1 (x : Bool) : BitVec 1 := BitVec.ofBool x

/-- The word of a 16-bit instruction (R36). -/
def enc16 (b d : Code5) (op : BitVec 4) (e : Bool) : BitVec 16 := b ++ d ++ op ++ b1 e ++ 0#1

/-- The two kinds of instruction word, and nothing for an event. -/
inductive EncWord where
  | none
  | short (w : BitVec 16)
  | long (w : BitVec 32)
  deriving DecidableEq, Repr

/-- The word of an encoded instruction, from the encoding tables (R36-R43). -/
def encodeWord : Instr → EncWord
  | .add b a n d e => .long (0#2 ++ b ++ a ++ b1 n ++ d ++ 0#6 ++ b1 e ++ 1#1)
  | .sub b a n d e => .long (1#2 ++ b ++ a ++ b1 n ++ d ++ 0#6 ++ b1 e ++ 1#1)
  | .and b a n d e => .long (2#2 ++ b ++ a ++ b1 n ++ d ++ 0#6 ++ b1 e ++ 1#1)
  | .or b a n d e => .long (3#2 ++ b ++ a ++ b1 n ++ d ++ 0#6 ++ b1 e ++ 1#1)
  | .xor b a n d e => .long (0#2 ++ b ++ a ++ b1 n ++ d ++ 1#6 ++ b1 e ++ 1#1)
  | .andn b a n d e => .long (1#2 ++ b ++ a ++ b1 n ++ d ++ 1#6 ++ b1 e ++ 1#1)
  | .minS b a n d e => .long (2#2 ++ b ++ a ++ b1 n ++ d ++ 1#6 ++ b1 e ++ 1#1)
  | .maxS b a n d e => .long (3#2 ++ b ++ a ++ b1 n ++ d ++ 1#6 ++ b1 e ++ 1#1)
  | .minU b a n d e => .long (0#2 ++ b ++ a ++ b1 n ++ d ++ 2#6 ++ b1 e ++ 1#1)
  | .maxU b a n d e => .long (1#2 ++ b ++ a ++ b1 n ++ d ++ 2#6 ++ b1 e ++ 1#1)
  | .absdS b a n d e => .long (2#2 ++ b ++ a ++ b1 n ++ d ++ 2#6 ++ b1 e ++ 1#1)
  | .addsatS b a n d e => .long (3#2 ++ b ++ a ++ b1 n ++ d ++ 2#6 ++ b1 e ++ 1#1)
  | .shl b a n d e => .long (0#2 ++ b ++ a ++ b1 n ++ d ++ 3#6 ++ b1 e ++ 1#1)
  | .shrU b a n d e => .long (1#2 ++ b ++ a ++ b1 n ++ d ++ 3#6 ++ b1 e ++ 1#1)
  | .shrS b a n d e => .long (2#2 ++ b ++ a ++ b1 n ++ d ++ 3#6 ++ b1 e ++ 1#1)
  | .rotl b a n d e => .long (3#2 ++ b ++ a ++ b1 n ++ d ++ 3#6 ++ b1 e ++ 1#1)
  | .mullo b a n d e => .long (0#2 ++ b ++ a ++ b1 n ++ d ++ 4#6 ++ b1 e ++ 1#1)
  | .mulhiS b a n d e => .long (1#2 ++ b ++ a ++ b1 n ++ d ++ 4#6 ++ b1 e ++ 1#1)
  | .mulhiU b a n d e => .long (2#2 ++ b ++ a ++ b1 n ++ d ++ 4#6 ++ b1 e ++ 1#1)
  | .mulwS b a n d e => .long (3#2 ++ b ++ a ++ b1 n ++ d ++ 4#6 ++ b1 e ++ 1#1)
  | .mad c b a n d e => .long (c ++ 0#2 ++ b ++ a ++ b1 n ++ d ++ 5#6 ++ b1 e ++ 1#1)
  | .madwS c b a n d e => .long (c ++ 1#2 ++ b ++ a ++ b1 n ++ d ++ 5#6 ++ b1 e ++ 1#1)
  | .dot4I8 c b a n d e => .long (c ++ 2#2 ++ b ++ a ++ b1 n ++ d ++ 5#6 ++ b1 e ++ 1#1)
  | .dot4N8 c b a n d e => .long (c ++ 3#2 ++ b ++ a ++ b1 n ++ d ++ 5#6 ++ b1 e ++ 1#1)
  | .addi i a n d e => .long (i ++ a ++ b1 n ++ d ++ 6#6 ++ b1 e ++ 1#1)
  | .andi i a n d e => .long (i ++ a ++ b1 n ++ d ++ 7#6 ++ b1 e ++ 1#1)
  | .ori i a n d e => .long (i ++ a ++ b1 n ++ d ++ 8#6 ++ b1 e ++ 1#1)
  | .xori i a n d e => .long (i ++ a ++ b1 n ++ d ++ 9#6 ++ b1 e ++ 1#1)
  | .shli s a n d e => .long (0#4 ++ s ++ a ++ b1 n ++ d ++ 10#6 ++ b1 e ++ 1#1)
  | .shriU s a n d e => .long (4#4 ++ s ++ a ++ b1 n ++ d ++ 10#6 ++ b1 e ++ 1#1)
  | .shriS s a n d e => .long (8#4 ++ s ++ a ++ b1 n ++ d ++ 10#6 ++ b1 e ++ 1#1)
  | .rotli s a n d e => .long (12#4 ++ s ++ a ++ b1 n ++ d ++ 10#6 ++ b1 e ++ 1#1)
  | .movh i n d e => .long (i ++ b1 n ++ d ++ 11#6 ++ b1 e ++ 1#1)
  | .orl i n d e => .long (i ++ b1 n ++ d ++ 12#6 ++ b1 e ++ 1#1)
  | .bfeU b a n d e => .long (0#2 ++ b ++ a ++ b1 n ++ d ++ 13#6 ++ b1 e ++ 1#1)
  | .bfeS b a n d e => .long (1#2 ++ b ++ a ++ b1 n ++ d ++ 13#6 ++ b1 e ++ 1#1)
  | .bfi b a n d e => .long (2#2 ++ b ++ a ++ b1 n ++ d ++ 13#6 ++ b1 e ++ 1#1)
  | .permb b a n d e => .long (3#2 ++ b ++ a ++ b1 n ++ d ++ 13#6 ++ b1 e ++ 1#1)
  | .popc a n d e => .long (0#9 ++ a ++ b1 n ++ d ++ 14#6 ++ b1 e ++ 1#1)
  | .clz a n d e => .long (128#9 ++ a ++ b1 n ++ d ++ 14#6 ++ b1 e ++ 1#1)
  | .brev a n d e => .long (256#9 ++ a ++ b1 n ++ d ++ 14#6 ++ b1 e ++ 1#1)
  | .neg a n d e => .long (384#9 ++ a ++ b1 n ++ d ++ 14#6 ++ b1 e ++ 1#1)
  | .icmp w b a c p e => .long (w ++ b ++ a ++ 0#1 ++ c ++ 0#1 ++ p ++ 15#6 ++ b1 e ++ 1#1)
  | .sel p b a n d e => .long (p ++ b ++ a ++ b1 n ++ d ++ 16#6 ++ b1 e ++ 1#1)
  | .pand b a d e => .long (0#7 ++ b ++ 0#5 ++ a ++ 0#6 ++ d ++ 17#6 ++ b1 e ++ 1#1)
  | .por b a d e => .long (32#7 ++ b ++ 0#5 ++ a ++ 0#6 ++ d ++ 17#6 ++ b1 e ++ 1#1)
  | .pxor b a d e => .long (64#7 ++ b ++ 0#5 ++ a ++ 0#6 ++ d ++ 17#6 ++ b1 e ++ 1#1)
  | .pnot a d e => .long (12288#14 ++ a ++ 0#6 ++ d ++ 17#6 ++ b1 e ++ 1#1)
  | .fadd b a n d e => .long (0#2 ++ b ++ a ++ b1 n ++ d ++ 18#6 ++ b1 e ++ 1#1)
  | .fsub b a n d e => .long (1#2 ++ b ++ a ++ b1 n ++ d ++ 18#6 ++ b1 e ++ 1#1)
  | .fmul b a n d e => .long (2#2 ++ b ++ a ++ b1 n ++ d ++ 18#6 ++ b1 e ++ 1#1)
  | .fmax b a n d e => .long (3#2 ++ b ++ a ++ b1 n ++ d ++ 18#6 ++ b1 e ++ 1#1)
  | .ffma c b a n d e => .long (c ++ 0#2 ++ b ++ a ++ b1 n ++ d ++ 19#6 ++ b1 e ++ 1#1)
  | .ffms c b a n d e => .long (c ++ 1#2 ++ b ++ a ++ b1 n ++ d ++ 19#6 ++ b1 e ++ 1#1)
  | .fnfma c b a n d e => .long (c ++ 2#2 ++ b ++ a ++ b1 n ++ d ++ 19#6 ++ b1 e ++ 1#1)
  | .fmad2 c b a n d e => .long (c ++ 3#2 ++ b ++ a ++ b1 n ++ d ++ 19#6 ++ b1 e ++ 1#1)
  | .fmin b a n d e => .long (0#2 ++ b ++ a ++ b1 n ++ d ++ 20#6 ++ b1 e ++ 1#1)
  | .fcopysign b a n d e => .long (1#2 ++ b ++ a ++ b1 n ++ d ++ 20#6 ++ b1 e ++ 1#1)
  | .fabs a n d e => .long (256#9 ++ a ++ b1 n ++ d ++ 20#6 ++ b1 e ++ 1#1)
  | .fneg a n d e => .long (384#9 ++ a ++ b1 n ++ d ++ 20#6 ++ b1 e ++ 1#1)
  | .fcmp t b a c p e => .long (t ++ b ++ a ++ 0#1 ++ c ++ 0#1 ++ p ++ 21#6 ++ b1 e ++ 1#1)
  | .cvt m k a n d e => .long (m ++ k ++ a ++ b1 n ++ d ++ 22#6 ++ b1 e ++ 1#1)
  | .pkbf b a n d e => .long (0#2 ++ b ++ a ++ b1 n ++ d ++ 23#6 ++ b1 e ++ 1#1)
  | .pkh8 b a n d e => .long (1#2 ++ b ++ a ++ b1 n ++ d ++ 23#6 ++ b1 e ++ 1#1)
  | .upkbf a n d e => .long (256#9 ++ a ++ b1 n ++ d ++ 23#6 ++ b1 e ++ 1#1)
  | .upkh8 a n d e => .long (384#9 ++ a ++ b1 n ++ d ++ 23#6 ++ b1 e ++ 1#1)
  | .rcp a n d e => .long (0#9 ++ a ++ b1 n ++ d ++ 24#6 ++ b1 e ++ 1#1)
  | .rsq a n d e => .long (128#9 ++ a ++ b1 n ++ d ++ 24#6 ++ b1 e ++ 1#1)
  | .ex2 a n d e => .long (256#9 ++ a ++ b1 n ++ d ++ 24#6 ++ b1 e ++ 1#1)
  | .lg2 a n d e => .long (384#9 ++ a ++ b1 n ++ d ++ 24#6 ++ b1 e ++ 1#1)
  | .sqrt a n d e => .long (0#9 ++ a ++ b1 n ++ d ++ 25#6 ++ b1 e ++ 1#1)
  | .sin a n d e => .long (128#9 ++ a ++ b1 n ++ d ++ 25#6 ++ b1 e ++ 1#1)
  | .cos a n d e => .long (256#9 ++ a ++ b1 n ++ d ++ 25#6 ++ b1 e ++ 1#1)
  | .tanh a n d e => .long (384#9 ++ a ++ b1 n ++ d ++ 25#6 ++ b1 e ++ 1#1)
  | .hadd2 b a n d e => .long (0#2 ++ b ++ a ++ b1 n ++ d ++ 26#6 ++ b1 e ++ 1#1)
  | .hsub2 b a n d e => .long (1#2 ++ b ++ a ++ b1 n ++ d ++ 26#6 ++ b1 e ++ 1#1)
  | .hmul2 b a n d e => .long (2#2 ++ b ++ a ++ b1 n ++ d ++ 26#6 ++ b1 e ++ 1#1)
  | .hmax2 b a n d e => .long (3#2 ++ b ++ a ++ b1 n ++ d ++ 26#6 ++ b1 e ++ 1#1)
  | .cbx b a n d e => .long (0#2 ++ b ++ a ++ b1 n ++ d ++ 27#6 ++ b1 e ++ 1#1)
  | .cbq b a n d e => .long (1#2 ++ b ++ a ++ b1 n ++ d ++ 27#6 ++ b1 e ++ 1#1)
  | .nqx b a n d e => .long (2#2 ++ b ++ a ++ b1 n ++ d ++ 27#6 ++ b1 e ++ 1#1)
  | .nqq b a n d e => .long (3#2 ++ b ++ a ++ b1 n ++ d ++ 27#6 ++ b1 e ++ 1#1)
  | .hfma2 c b a n d e => .long (c ++ 0#2 ++ b ++ a ++ b1 n ++ d ++ 28#6 ++ b1 e ++ 1#1)
  | .hfms2 c b a n d e => .long (c ++ 1#2 ++ b ++ a ++ b1 n ++ d ++ 28#6 ++ b1 e ++ 1#1)
  | .br o s p => .long (o ++ 0#1 ++ b1 s ++ p ++ 29#6 ++ 3#2)
  | .jmp o => .long (o ++ 0#4 ++ 30#6 ++ 3#2)
  | .call o => .long (o ++ 1#4 ++ 30#6 ++ 3#2)
  | .jr a => .long (0#9 ++ a ++ 2#8 ++ 30#6 ++ 3#2)
  | .callr a => .long (0#9 ++ a ++ 3#8 ++ 30#6 ++ 3#2)
  | .ret => .long (4#24 ++ 30#6 ++ 3#2)
  | .exit => .long (5#24 ++ 30#6 ++ 3#2)
  | .join => .long (6#24 ++ 30#6 ++ 3#2)
  | .nop e => .long (7#24 ++ 30#6 ++ b1 e ++ 1#1)
  | .jtab o a n => .long (o ++ a ++ 0#1 ++ n ++ 31#6 ++ 3#2)
  | .heel b a d => .long (0#2 ++ b ++ a ++ 0#1 ++ d ++ 32#6 ++ 3#2)
  | .rayld a n d e => .long (0#9 ++ a ++ b1 n ++ d ++ 33#6 ++ b1 e ++ 1#1)
  | .boxt b a n d e => .long (1#2 ++ b ++ a ++ b1 n ++ d ++ 33#6 ++ b1 e ++ 1#1)
  | .desc b a n d e => .long (2#2 ++ b ++ a ++ b1 n ++ d ++ 33#6 ++ b1 e ++ 1#1)
  | .asc b a n d e => .long (3#2 ++ b ++ a ++ b1 n ++ d ++ 33#6 ++ b1 e ++ 1#1)
  | .trit a n d e => .long (0#9 ++ a ++ b1 n ++ d ++ 34#6 ++ b1 e ++ 1#1)
  | .tcmp b a n d e => .long (1#2 ++ b ++ a ++ b1 n ++ d ++ 34#6 ++ b1 e ++ 1#1)
  | .tcvt a n d e => .long (256#9 ++ a ++ b1 n ++ d ++ 34#6 ++ b1 e ++ 1#1)
  | .hitw a d e => .long (384#9 ++ a ++ 0#1 ++ d ++ 34#6 ++ b1 e ++ 1#1)
  | .rasts b a n d e => .long (0#2 ++ b ++ a ++ b1 n ++ d ++ 35#6 ++ b1 e ++ 1#1)
  | .rastt b a n d e => .long (1#2 ++ b ++ a ++ b1 n ++ d ++ 35#6 ++ b1 e ++ 1#1)
  | .refit b a n d e => .long (2#2 ++ b ++ a ++ b1 n ++ d ++ 35#6 ++ b1 e ++ 1#1)
  | .vtxq b a n d e => .long (3#2 ++ b ++ a ++ b1 n ++ d ++ 35#6 ++ b1 e ++ 1#1)
  | .shflIdx b a n d e => .long (0#2 ++ b ++ a ++ b1 n ++ d ++ 36#6 ++ b1 e ++ 1#1)
  | .shflUp b a n d e => .long (1#2 ++ b ++ a ++ b1 n ++ d ++ 36#6 ++ b1 e ++ 1#1)
  | .shflDown b a n d e => .long (2#2 ++ b ++ a ++ b1 n ++ d ++ 36#6 ++ b1 e ++ 1#1)
  | .shflXor b a n d e => .long (3#2 ++ b ++ a ++ b1 n ++ d ++ 36#6 ++ b1 e ++ 1#1)
  | .voteAny p n d e => .long (0#14 ++ p ++ b1 n ++ d ++ 37#6 ++ b1 e ++ 1#1)
  | .voteAll p n d e => .long (4096#14 ++ p ++ b1 n ++ d ++ 37#6 ++ b1 e ++ 1#1)
  | .voteBallot p n d e => .long (8192#14 ++ p ++ b1 n ++ d ++ 37#6 ++ b1 e ++ 1#1)
  | .voteUni a n d e => .long (384#9 ++ a ++ b1 n ++ d ++ 37#6 ++ b1 e ++ 1#1)
  | .redaddI a n d e => .long (0#9 ++ a ++ b1 n ++ d ++ 38#6 ++ b1 e ++ 1#1)
  | .redaddF a n d e => .long (128#9 ++ a ++ b1 n ++ d ++ 38#6 ++ b1 e ++ 1#1)
  | .redminS a n d e => .long (256#9 ++ a ++ b1 n ++ d ++ 38#6 ++ b1 e ++ 1#1)
  | .redmaxS a n d e => .long (384#9 ++ a ++ b1 n ++ d ++ 38#6 ++ b1 e ++ 1#1)
  | .matchLanes a n d e => .long (0#9 ++ a ++ b1 n ++ d ++ 39#6 ++ b1 e ++ 1#1)
  | .compact p n d e => .long (4096#14 ++ p ++ b1 n ++ d ++ 39#6 ++ b1 e ++ 1#1)
  | .scanadd a n d e => .long (256#9 ++ a ++ b1 n ++ d ++ 39#6 ++ b1 e ++ 1#1)
  | .elect n d e => .long (49152#16 ++ b1 n ++ d ++ 39#6 ++ b1 e ++ 1#1)
  | .knead b a c => .long (0#2 ++ b ++ a ++ 0#4 ++ c ++ 40#6 ++ 3#2)
  | .kflush => .long (4194304#24 ++ 40#6 ++ 3#2)
  | .wrk k a e => .long (4#3 ++ k ++ a ++ 0#8 ++ 40#6 ++ b1 e ++ 1#1)
  | .rdk k n d e => .long (6#3 ++ k ++ 0#7 ++ b1 n ++ d ++ 40#6 ++ b1 e ++ 1#1)
  | .barSync b => .long (0#5 ++ b ++ 0#15 ++ 41#6 ++ 3#2)
  | .barArrive b e => .long (8#5 ++ b ++ 0#15 ++ 41#6 ++ b1 e ++ 1#1)
  | .barWait b => .long (16#5 ++ b ++ 0#15 ++ 41#6 ++ 3#2)
  | .barInit b a e => .long (24#5 ++ b ++ a ++ 0#8 ++ 41#6 ++ b1 e ++ 1#1)
  | .genbeg b a => .long (0#2 ++ b ++ a ++ 0#8 ++ 42#6 ++ 3#2)
  | .yield a e => .long (128#9 ++ a ++ 0#8 ++ 42#6 ++ b1 e ++ 1#1)
  | .take p n d e => .long (64#7 ++ p ++ 0#7 ++ b1 n ++ d ++ 42#6 ++ b1 e ++ 1#1)
  | .gennext => .long (12582912#24 ++ 42#6 ++ 3#2)
  | .ldG o s a n d e => .long (o ++ s ++ a ++ b1 n ++ d ++ 43#6 ++ b1 e ++ 1#1)
  | .stG o s a d e => .long (o ++ s ++ a ++ 0#1 ++ d ++ 44#6 ++ b1 e ++ 1#1)
  | .ldS o s a n d e => .long (o ++ s ++ a ++ b1 n ++ d ++ 45#6 ++ b1 e ++ 1#1)
  | .stS o s a d e => .long (o ++ s ++ a ++ 0#1 ++ d ++ 46#6 ++ b1 e ++ 1#1)
  | .ldSc a n d e => .long (0#9 ++ a ++ b1 n ++ d ++ 47#6 ++ b1 e ++ 1#1)
  | .stSc b a e => .long (1#2 ++ b ++ a ++ 0#8 ++ 47#6 ++ b1 e ++ 1#1)
  | .aaddSc b a n d e => .long (2#2 ++ b ++ a ++ b1 n ++ d ++ 47#6 ++ b1 e ++ 1#1)
  | .aexchSc b a n d e => .long (3#2 ++ b ++ a ++ b1 n ++ d ++ 47#6 ++ b1 e ++ 1#1)
  | .acasSc c b a n d e => .long (c ++ 0#2 ++ b ++ a ++ b1 n ++ d ++ 48#6 ++ b1 e ++ 1#1)
  | .ldfe t o s a n d => .long (b1 t ++ o ++ s ++ a ++ b1 n ++ d ++ 49#6 ++ 3#2)
  | .stfe o s a d => .long (o ++ s ++ a ++ 0#1 ++ d ++ 50#6 ++ 3#2)
  | .aadd b a n d e => .long (0#2 ++ b ++ a ++ b1 n ++ d ++ 51#6 ++ b1 e ++ 1#1)
  | .amin b a n d e => .long (1#2 ++ b ++ a ++ b1 n ++ d ++ 51#6 ++ b1 e ++ 1#1)
  | .amax b a n d e => .long (2#2 ++ b ++ a ++ b1 n ++ d ++ 51#6 ++ b1 e ++ 1#1)
  | .aexch b a n d e => .long (3#2 ++ b ++ a ++ b1 n ++ d ++ 51#6 ++ b1 e ++ 1#1)
  | .acas c b a n d e => .long (c ++ 0#2 ++ b ++ a ++ b1 n ++ d ++ 52#6 ++ b1 e ++ 1#1)
  | .aand b a n d e => .long (1#4 ++ b ++ a ++ b1 n ++ d ++ 52#6 ++ b1 e ++ 1#1)
  | .aor b a n d e => .long (2#4 ++ b ++ a ++ b1 n ++ d ++ 52#6 ++ b1 e ++ 1#1)
  | .axor b a n d e => .long (3#4 ++ b ++ a ++ b1 n ++ d ++ 52#6 ++ b1 e ++ 1#1)
  | .gath b a n d e => .long (0#2 ++ b ++ a ++ b1 n ++ d ++ 53#6 ++ b1 e ++ 1#1)
  | .scat b a d e => .long (1#2 ++ b ++ a ++ 0#1 ++ d ++ 53#6 ++ b1 e ++ 1#1)
  | .gathS b a n d e => .long (2#2 ++ b ++ a ++ b1 n ++ d ++ 53#6 ++ b1 e ++ 1#1)
  | .scatS b a d e => .long (3#2 ++ b ++ a ++ 0#1 ++ d ++ 53#6 ++ b1 e ++ 1#1)
  | .acq k a s => .long (0#8 ++ b1 k ++ a ++ 0#5 ++ s ++ 54#6 ++ 3#2)
  | .rel k a s => .long (64#8 ++ b1 k ++ a ++ 0#5 ++ s ++ 54#6 ++ 3#2)
  | .bind b a k e => .long (2#2 ++ b ++ a ++ 0#7 ++ b1 k ++ 54#6 ++ b1 e ++ 1#1)
  | .fence s => .long (1572864#21 ++ s ++ 54#6 ++ 3#2)
  | .watch a e => .long (0#9 ++ a ++ 0#8 ++ 55#6 ++ b1 e ++ 1#1)
  | .doze a n d => .long (128#9 ++ a ++ b1 n ++ d ++ 55#6 ++ 3#2)
  | .pref h a e => .long (128#8 ++ b1 h ++ a ++ 0#8 ++ 55#6 ++ b1 e ++ 1#1)
  | .ldraw s a n d e => .long (48#6 ++ s ++ a ++ b1 n ++ d ++ 55#6 ++ b1 e ++ 1#1)
  | .qpush q a => .long (0#5 ++ q ++ a ++ 0#8 ++ 56#6 ++ 3#2)
  | .qpop q n d => .long (8#5 ++ q ++ 0#7 ++ b1 n ++ d ++ 56#6 ++ 3#2)
  | .qpoll q p n d e => .long (16#5 ++ q ++ 0#5 ++ p ++ b1 n ++ d ++ 56#6 ++ b1 e ++ 1#1)
  | .qstat q n d e => .long (24#5 ++ q ++ 0#7 ++ b1 n ++ d ++ 56#6 ++ b1 e ++ 1#1)
  | .mxiss a => .long (0#9 ++ a ++ 0#8 ++ 57#6 ++ 3#2)
  | .mxmeta c a => .long (32#7 ++ c ++ a ++ 0#8 ++ 57#6 ++ 3#2)
  | .chbeg b e => .long (128#8 ++ b1 b ++ 0#15 ++ 57#6 ++ b1 e ++ 1#1)
  | .chend b e => .long (192#8 ++ b1 b ++ 0#15 ++ 57#6 ++ b1 e ++ 1#1)
  | .spcmp t k a n d e => .long (0#5 ++ t ++ k ++ a ++ b1 n ++ d ++ 58#6 ++ b1 e ++ 1#1)
  | .spexp t k a n d e => .long (2#5 ++ t ++ k ++ a ++ b1 n ++ d ++ 58#6 ++ b1 e ++ 1#1)
  | .scac c b a n d e => .long (c ++ 2#2 ++ b ++ a ++ b1 n ++ d ++ 58#6 ++ b1 e ++ 1#1)
  | .bsq b a n d e => .long (3#4 ++ b ++ a ++ b1 n ++ d ++ 58#6 ++ b1 e ++ 1#1)
  | .boinit b a e => .long (0#2 ++ b ++ a ++ 0#8 ++ 59#6 ++ b1 e ++ 1#1)
  | .boexp b a e => .long (1#2 ++ b ++ a ++ 0#8 ++ 59#6 ++ b1 e ++ 1#1)
  | .boarr a e => .long (256#9 ++ a ++ 0#8 ++ 59#6 ++ b1 e ++ 1#1)
  | .waitph b a => .long (3#2 ++ b ++ a ++ 0#8 ++ 59#6 ++ 3#2)
  | .cpiss a => .long (0#9 ++ a ++ 0#8 ++ 60#6 ++ 3#2)
  | .rsend a => .long (128#9 ++ a ++ 0#8 ++ 60#6 ++ 3#2)
  | .rrecv n d => .long (32768#16 ++ b1 n ++ d ++ 60#6 ++ 3#2)
  | .rstat s n d e => .long (96#7 ++ s ++ 0#7 ++ b1 n ++ d ++ 60#6 ++ b1 e ++ 1#1)
  | .trap a => .long (0#9 ++ a ++ 0#8 ++ 61#6 ++ 3#2)
  | .tfence a => .long (128#9 ++ a ++ 0#8 ++ 61#6 ++ 3#2)
  | .xret f => .long (128#8 ++ b1 f ++ 0#15 ++ 61#6 ++ 3#2)
  | .errclr a e => .long (384#9 ++ a ++ 0#8 ++ 61#6 ++ b1 e ++ 1#1)
  | .rdsp s n d e => .long (0#2 ++ s ++ 0#7 ++ b1 n ++ d ++ 62#6 ++ b1 e ++ 1#1)
  | .wrsp s a e => .long (1#2 ++ s ++ a ++ 0#8 ++ 62#6 ++ b1 e ++ 1#1)
  | .cbset a e => .long (256#9 ++ a ++ 0#8 ++ 62#6 ++ b1 e ++ 1#1)
  | .carve a n d => .long (384#9 ++ a ++ b1 n ++ d ++ 62#6 ++ 3#2)
  | .ptog n d e => .long (0#16 ++ b1 n ++ d ++ 63#6 ++ b1 e ++ 1#1)
  | .gtop a e => .long (1#9 ++ a ++ 0#8 ++ 63#6 ++ b1 e ++ 1#1)
  | .sctime a n d e => .long (2#9 ++ a ++ b1 n ++ d ++ 63#6 ++ b1 e ++ 1#1)
  | .genend => .long (98304#24 ++ 63#6 ++ 3#2)
  | .genstat n d e => .long (512#16 ++ b1 n ++ d ++ 63#6 ++ b1 e ++ 1#1)
  | .tlbib a k => .long (5#9 ++ a ++ 0#6 ++ k ++ 63#6 ++ 3#2)
  | .tlbil a k e => .long (6#9 ++ a ++ 0#6 ++ k ++ 63#6 ++ b1 e ++ 1#1)
  | .lvend e => .long (229376#24 ++ 63#6 ++ b1 e ++ 1#1)
  | .kstat n d e => .long (1024#16 ++ b1 n ++ d ++ 63#6 ++ b1 e ++ 1#1)
  | .bkpt => .long (294912#24 ++ 63#6 ++ 3#2)
  | .waitphSt a r p => .long (10#9 ++ a ++ 0#5 ++ b1 r ++ p ++ 63#6 ++ 3#2)
  | .errrd n d e => .long (1408#16 ++ b1 n ++ d ++ 63#6 ++ b1 e ++ 1#1)
  | .clkrd n d e => .long (1536#16 ++ b1 n ++ d ++ 63#6 ++ b1 e ++ 1#1)
  | .mov b d e => .short (enc16 b d 0#4 e)
  | .add16 b d e => .short (enc16 b d 1#4 e)
  | .sub16 b d e => .short (enc16 b d 2#4 e)
  | .mullo16 b d e => .short (enc16 b d 3#4 e)
  | .and16 b d e => .short (enc16 b d 4#4 e)
  | .or16 b d e => .short (enc16 b d 5#4 e)
  | .xor16 b d e => .short (enc16 b d 6#4 e)
  | .shl16 b d e => .short (enc16 b d 7#4 e)
  | .shrU16 b d e => .short (enc16 b d 8#4 e)
  | .shrS16 b d e => .short (enc16 b d 9#4 e)
  | .minS16 b d e => .short (enc16 b d 10#4 e)
  | .maxS16 b d e => .short (enc16 b d 11#4 e)
  | .fadd16 b d e => .short (enc16 b d 12#4 e)
  | .fsub16 b d e => .short (enc16 b d 13#4 e)
  | .fmul16 b d e => .short (enc16 b d 14#4 e)
  | .fmax16 b d e => .short (enc16 b d 15#4 e)
  | .fusedGroup => .none
  | .illegalWord => .none
  | .pendingWriteLands => .none
  | .grouperFill => .none
  | .entryAged => .none
  | .rendezvousComplete => .none
  | .joinRelease => .none
  | .binTimeout => .none
  | .binWarpTakesSlot => .none
  | .leavenSpawn => .none
  | .leavenContextEnd => .none
  | .generatorSwitch => .none
  | .dozeTimeout => .none
  | .scRetry => .none
  | .lqn => .none
  | .slotFree => .none
  | .takeRecord => .none
  | .offerCandidate => .none
  | .recordStarvation => .none
  | .migration => .none
  | .sifter => .none
  | .blockEnd => .none
  | .copyTakeEntry => .none
  | .engineByteCount => .none
  | .engineError => .none
  | .copyStatus => .none
  | .matrixTakeEntry => .none
  | .bufferClaim => .none
  | .rectReserve => .none
  | .metadataTake => .none
  | .kStep => .none
  | .partialDelivery => .none
  | .drain => .none
  | .matrixStatus => .none
  | .reductionItemArrival => .none
  | .routerCombine => .none
  | .reductionDeadline => .none
  | .flitCrcFailure => .none
  | .packageReset => .none
  | .partitionReset => .none
  | .ctxnext => .none
  | .preloadComplete => .none
  | .sliceEnd => .none
  | .coreStopped => .none
  | .spill => .none
  | .powerLimit => .none
  | .shedReturn => .none
  | .s2root => .none
  | .hubinvVa => .none
  | .hubinvTenant => .none
  | .hubinvIpa => .none
  | .hubinvPartition => .none
  | .invalidationComplete => .none
  | .nqbase => .none
  | .scepoch => .none
  | .epochChangeComplete => .none
  | .registerWrite => .none
  | .attest => .none
  | .tbind => .none
  | .tmext => .none
  | .sealTenant => .none
  | .releaseKey => .none
  | .unsealTenant => .none
  | .svncommit => .none
  | .mrext => .none
  | .logread => .none
  | .getFwInfo => .none
  | .transferFwInitiate => .none
  | .transferFwContinue => .none
  | .transferFwEnd => .none
  | .transferFwAbort => .none
  | .alarm => .none
  | .logSnapshot => .none
  | .poweredMinute => .none
  | .hostBar2Read => .none
  | .hostBar2Write => .none
  | .roceRead => .none
  | .roceWrite => .none
  | .nvmeCommand => .none
  | .smaddr => .none
  | .accessPerformed => .none
  | .droopEvent => .none
  | .powerLoss => .none
  | .mctpMessage => .none

/-- The bytes of a word, lowest address first (R35). -/
def EncWord.bytes : EncWord → List Byte
  | .none => []
  | .short w => leBytes 2 w.toNat
  | .long w => leBytes 4 w.toNat

/-- The bytes of an instruction; an event has none. -/
def encode (i : Instr) : List Byte := (encodeWord i).bytes

/-- The length of an encoded instruction in bytes (R35). -/
def Instr.len (i : Instr) : Nat :=
  match encodeWord i with
  | .none => 0
  | .short _ => 2
  | .long _ => 4

/-- The E bit of an instruction: true for every instruction of R45. -/
def Instr.isHeel (i : Instr) : Bool :=
  match encodeWord i with
  | .none => false
  | .short w => w.getLsbD 1
  | .long w => w.getLsbD 1

/-- The instruction has an encoding (it is no event). -/
def Instr.isEncoded (i : Instr) : Bool :=
  match encodeWord i with
  | .none => false
  | _ => true

end Sys2Proof
end

