-- ==== Sys2Proof/Machine/Flags.lean ====
section
/-! DEFINITION. The number formats, rounding, narrowing and the arithmetic flags (spec 03 R60-R80), and the correctly
rounded functions of 04 R95-R106. A finite value is an exact rational with a sign of its own, so that both zeros are
kept; every operation computes exactly and rounds once. -/

namespace Sys2Proof.Machine

/-- The flags of an operation, in the bit positions of %aflags (R25). -/
abbrev Flags := BitVec 5
def INV : Flags := 16
def DZ : Flags := 8
def OVF : Flags := 4
def UNF : Flags := 2
def INX : Flags := 1

/-- An exact value: NaN (signalling or quiet), an infinity, or sign and magnitude num/den. -/
inductive FVal where
  | nan (sig : Bool)
  | inf (neg : Bool)
  | fin (neg : Bool) (num den : Nat)
  deriving DecidableEq, Repr

/-- A binary format: exponent and mantissa bits, bias, and whether the top exponent holds infinities and NaNs. -/
structure Fmt where
  eb : Nat
  mb : Nat
  bias : Nat
  /-- the greatest exponent field of a finite value -/
  emax : Nat
  /-- the canonical NaN -/
  cnan : Nat
  hasInf : Bool
  /-- no negative zero (H8) -/
  noNegZero : Bool := false
  deriving DecidableEq, Repr

def FP32 : Fmt := ⟨8, 23, 127, 254, 0x7FC0_0000, true, false⟩
def FP16 : Fmt := ⟨5, 10, 15, 30, 0x7E00, true, false⟩
def BF16 : Fmt := ⟨8, 7, 127, 254, 0x7FC0, true, false⟩
def FH8 : Fmt := ⟨4, 3, 7, 15, 0x80, false, true⟩
def FH6 : Fmt := ⟨3, 2, 3, 6, 0x1F, true, false⟩

/-- The bits of a format. -/
def Fmt.width (f : Fmt) : Nat := f.eb + f.mb + 1

/-- num/den times a power of two. -/
def scale2 (num den : Nat) (e : Int) : Nat × Nat :=
  match e with
  | .ofNat k => (num * 2 ^ k, den)
  | .negSucc k => (num, den * 2 ^ (k + 1))

/-- The value of a code (R61, R63, R64). Only the IEEE formats have signalling NaNs. -/
def decodeF (f : Fmt) (v : Nat) : FVal :=
  let neg := v / 2 ^ (f.eb + f.mb) % 2 = 1
  let e := v / 2 ^ f.mb % 2 ^ f.eb
  let m := v % 2 ^ f.mb
  if f.noNegZero ∧ v = f.cnan then .nan false
  else if f.hasInf ∧ e > f.emax then
    if m = 0 then .inf neg
    else .nan (decide (f.eb + f.mb ≥ 15) && decide (m / 2 ^ (f.mb - 1) % 2 = 0))
  else
    let r := if e = 0 then scale2 m 1 (1 - f.bias - f.mb : Int) else scale2 (m + 2 ^ f.mb) 1 (e - f.bias - f.mb : Int)
    .fin neg r.1 r.2

/-- The rounding modes, by their codes (R102). -/
inductive RMode where
  | rne | rz | rd | ru
  deriving DecidableEq, Repr

def rmode (m : BitVec 2) : RMode := if m = 0 then .rne else if m = 1 then .rz else if m = 2 then .rd else .ru

/-- ⌊log2 (num/den)⌋ for a positive rational. -/
def flog2 (num den : Nat) : Int :=
  let k : Int := (Nat.log2 num : Int) - (Nat.log2 den : Int)
  let r := scale2 den 1 k
  -- den * 2^k ≤ num ?
  if r.1 ≤ num * r.2 then k else k - 1

/-- num/den divided by 2^q, rounded to an integer: the integer and whether anything was lost (R67). -/
def roundAt (mode : RMode) (neg : Bool) (num den : Nat) (q : Int) : Nat × Bool :=
  let r := scale2 num den (-q)
  let m := r.1 / r.2
  let rem := r.1 % r.2
  let up : Bool := match mode with
    | .rne => decide (2 * rem > r.2) || (decide (2 * rem = r.2) && decide (m % 2 = 1))
    | .rz => false
    | .rd => neg && decide (rem ≠ 0)
    | .ru => !neg && decide (rem ≠ 0)
  (if up then m + 1 else m, decide (rem ≠ 0))

/-- A magnitude rounded into a format with no upper end to its exponents (R67), and whether it is inexact and tiny
(R62: after rounding to the precision with an unbounded exponent range). -/
structure Rounded where
  m : Nat
  q : Int
  inexact : Bool
  tiny : Bool
  deriving DecidableEq, Repr

def roundMag (f : Fmt) (mode : RMode) (neg : Bool) (num den : Nat) : Rounded :=
  if num = 0 then ⟨0, 1 - f.bias - f.mb, false, false⟩
  else
    let l := flog2 num den
    let emin : Int := 1 - f.bias
    let q := max (l - f.mb) (emin - f.mb)
    let r := roundAt mode neg num den q
    let u := roundAt mode neg num den (l - f.mb)
    let t := scale2 u.1 1 (l - f.mb - emin)
    ⟨r.1, q, r.2, decide (t.1 < t.2)⟩

/-- The exponent field and mantissa of a rounded magnitude; the field may pass the format's greatest. -/
def fieldsOf (f : Fmt) (m : Nat) (q : Int) : Nat × Nat :=
  let m' := if m = 2 ^ (f.mb + 1) then 2 ^ f.mb else m
  let q' := if m = 2 ^ (f.mb + 1) then q + 1 else q
  if m' < 2 ^ f.mb then (0, m') else ((q' + f.mb + f.bias).toNat, m' - 2 ^ f.mb)

def packF (f : Fmt) (neg : Bool) (e m : Nat) : Nat :=
  (if neg then 2 ^ (f.eb + f.mb) else 0) + e * 2 ^ f.mb + m

/-- A zero of a sign; H8 has only +0 (R63). -/
def zeroF (f : Fmt) (neg : Bool) : Nat := if f.noNegZero then 0 else packF f neg 0 0

/-- The largest finite magnitude. -/
def maxF (f : Fmt) (neg : Bool) : Nat := packF f neg f.emax (2 ^ f.mb - 1)

def infF (f : Fmt) (neg : Bool) : Nat := packF f neg (f.emax + 1) 0

/-- A magnitude overflows the format once rounded. -/
def overflows (f : Fmt) (em : Nat × Nat) : Bool := decide (em.1 > f.emax)

def smallFlags (r : Rounded) : Flags := (if r.inexact then INX else 0) ||| (if r.inexact && r.tiny then UNF else 0)

/-- The delivery of an arithmetic result in an IEEE format (R62, R70). -/
def arithF (f : Fmt) (mode : RMode) (neg : Bool) (num den : Nat) : Nat × Flags :=
  if num = 0 then (zeroF f neg, 0)
  else
    let r := roundMag f mode neg num den
    let em := fieldsOf f r.m r.q
    if overflows f em then
      let toInf : Bool := match mode with | .rne => true | .rz => false | .rd => neg | .ru => !neg
      (if toInf then infF f neg else maxF f neg, OVF ||| INX)
    else (packF f neg em.1 em.2, smallFlags r)

/-- The delivery of a narrowing (R68). -/
def narrowF (f : Fmt) (mode : RMode) : FVal → Nat × Flags
  | .nan sig => (f.cnan, if sig then INV else 0)
  | .inf neg => (maxF f neg, OVF ||| INX)
  | .fin neg num den =>
    if num = 0 then (zeroF f neg, 0)
    else
      let r := roundMag f mode neg num den
      let em := fieldsOf f r.m r.q
      if overflows f em then (maxF f neg, OVF ||| INX)
      else if r.m = 0 then (zeroF f neg, smallFlags r)
      else (packF f neg em.1 em.2, smallFlags r)

/-- The delivery of an exact value in a format that holds it, or an arithmetic result in general. -/
def deliver (f : Fmt) (mode : RMode) : FVal → Nat × Flags
  | .nan sig => (f.cnan, if sig then INV else 0)
  | .inf neg => (infF f neg, 0)
  | .fin neg num den => arithF f mode neg num den

/-- A widening, exact and without a flag except for a signalling source (R69). -/
def widenF (src dst : Fmt) (v : Nat) : Nat × Flags := deliver dst .rne (decodeF src v)

/-- A value rounded to an integer (R67). -/
def roundInt (mode : RMode) (neg : Bool) (num den : Nat) : Int × Bool :=
  let r := roundAt mode neg num den 0
  (if neg then -(r.1 : Int) else r.1, r.2)

/-- A narrowing to an integer type with least and greatest values (R68). -/
def narrowInt (lo hi : Int) (mode : RMode) : FVal → Int × Flags
  | .nan _ => (0, INV)
  | .inf neg => (if neg then lo else hi, OVF ||| INX)
  | .fin neg num den =>
    let r := roundInt mode neg num den
    if r.1 < lo then (lo, OVF ||| INX) else if r.1 > hi then (hi, OVF ||| INX)
    else (r.1, if r.2 then INX else 0)

/-- An integer clamped into a range (R104). -/
def clampInt (lo hi x : Int) : Int × Flags :=
  if x < lo then (lo, OVF ||| INX) else if x > hi then (hi, OVF ||| INX) else (x, 0)

/-- An integer as an exact value. -/
def ofInt (x : Int) : FVal := .fin (decide (x < 0)) x.natAbs 1

/-! ## Exact operations with the invalid cases of IEEE 754-2019 -/

def FVal.isNan : FVal → Bool
  | .nan _ => true
  | _ => false

def FVal.isSig : FVal → Bool
  | .nan s => s
  | _ => false

def FVal.isInf : FVal → Bool
  | .inf _ => true
  | _ => false

def FVal.isZero : FVal → Bool
  | .fin _ n _ => decide (n = 0)
  | _ => false

def FVal.sign : FVal → Bool
  | .nan _ => false
  | .inf n => n
  | .fin n _ _ => n

def FVal.neg : FVal → FVal
  | .nan s => .nan s
  | .inf n => .inf !n
  | .fin n a b => .fin (!n) a b

/-- A result that is a quiet NaN, with INV when an operand signals. -/
def nanOf (ops : List FVal) : FVal × Flags := (.nan false, if ops.any FVal.isSig then INV else 0)

/-- The exact sum of two finite values; a zero sum of opposite signs is +0 except in RD (R62). -/
def addFin (mode : RMode) (n1 : Bool) (a1 b1 : Nat) (n2 : Bool) (a2 b2 : Nat) : FVal :=
  if a1 = 0 ∧ a2 = 0 then .fin (if n1 = n2 then n1 else mode = .rd) 0 1
  else
    let x : Int := (a1 * b2 : Nat)
    let y : Int := (a2 * b1 : Nat)
    let t := (if n1 then -x else x) + (if n2 then -y else y)
    if t = 0 then .fin (mode = .rd) 0 1 else .fin (decide (t < 0)) t.natAbs (b1 * b2)

def addV (mode : RMode) (x y : FVal) : FVal × Flags :=
  match x, y with
  | .nan s, y => nanOf [.nan s, y]
  | x, .nan s => nanOf [x, .nan s]
  | .inf a, .inf b => if a = b then (.inf a, 0) else (.nan false, INV)
  | .inf a, _ => (.inf a, 0)
  | _, .inf b => (.inf b, 0)
  | .fin n1 a1 b1, .fin n2 a2 b2 => (addFin mode n1 a1 b1 n2 a2 b2, 0)

def mulV (x y : FVal) : FVal × Flags :=
  match x, y with
  | .nan s, y => nanOf [.nan s, y]
  | x, .nan s => nanOf [x, .nan s]
  | .inf a, .inf b => (.inf (a != b), 0)
  | .inf a, .fin b n _ => if n = 0 then (.nan false, INV) else (.inf (a != b), 0)
  | .fin a n _, .inf b => if n = 0 then (.nan false, INV) else (.inf (a != b), 0)
  | .fin n1 a1 b1, .fin n2 a2 b2 => (.fin (n1 != n2) (a1 * a2) (b1 * b2), 0)

/-- x*y + z exactly; 0 × ∞ is invalid even when z is a quiet NaN (R97). -/
def fmaV (mode : RMode) (x y z : FVal) : FVal × Flags :=
  let p := mulV x y
  let s := addV mode p.1 z
  (s.1, p.2 ||| s.2)

/-- Rounds an exact result into a format and joins the flags. -/
def finishF (f : Fmt) (mode : RMode) (r : FVal × Flags) : Nat × Flags :=
  let d := deliver f mode r.1
  (d.1, d.2 ||| r.2)

/-- Finite or infinite values compared: less than. Both zeros are equal. -/
def ltV (x y : FVal) : Bool :=
  match x, y with
  | .nan _, _ => false
  | _, .nan _ => false
  | .inf a, .inf b => a && !b
  | .inf a, .fin _ _ _ => a
  | .fin _ _ _, .inf b => !b
  | .fin n1 a1 b1, .fin n2 a2 b2 =>
    let u : Int := (a1 * b2 : Nat)
    let v : Int := (a2 * b1 : Nat)
    decide ((if n1 then -u else u) < (if n2 then -v else v))

def eqV (x y : FVal) : Bool := !x.isNan && !y.isNan && !ltV x y && !ltV y x

/-- maximumNumber and minimumNumber with -0 below +0 (R95); the operands are codes of one format. -/
def maxNum (f : Fmt) (a b : Nat) : Nat × Flags :=
  let x := decodeF f a
  let y := decodeF f b
  let fl : Flags := if x.isSig || y.isSig then INV else 0
  if x.isNan && y.isNan then (f.cnan, fl) else if x.isNan then (b, fl) else if y.isNan then (a, fl)
  else if ltV x y then (b, fl) else if ltV y x then (a, fl)
  else (if x.sign then b else a, fl)

def minNum (f : Fmt) (a b : Nat) : Nat × Flags :=
  let x := decodeF f a
  let y := decodeF f b
  let fl : Flags := if x.isSig || y.isSig then INV else 0
  if x.isNan && y.isNan then (f.cnan, fl) else if x.isNan then (b, fl) else if y.isNan then (a, fl)
  else if ltV x y then (a, fl) else if ltV y x then (b, fl)
  else (if x.sign then a else b, fl)

/-- Addition of two codes in a format (R95, R285, R359). -/
def addF (f : Fmt) (a b : Nat) : Nat × Flags := finishF f .rne (addV .rne (decodeF f a) (decodeF f b))
def subF (f : Fmt) (a b : Nat) : Nat × Flags := finishF f .rne (addV .rne (decodeF f a) (decodeF f b).neg)
def mulF (f : Fmt) (a b : Nat) : Nat × Flags := finishF f .rne (mulV (decodeF f a) (decodeF f b))
def fmaF (f : Fmt) (a b c : Nat) : Nat × Flags := finishF f .rne (fmaV .rne (decodeF f a) (decodeF f b) (decodeF f c))
def fmsF (f : Fmt) (a b c : Nat) : Nat × Flags := finishF f .rne (fmaV .rne (decodeF f a) (decodeF f b) (decodeF f c).neg)
def fnmaF (f : Fmt) (a b c : Nat) : Nat × Flags := finishF f .rne (fmaV .rne (decodeF f a).neg (decodeF f b) (decodeF f c))

/-- The conditions of FCMP: the truth value and INV (R98). -/
def fcmpF (f : Fmt) (c a b : Nat) : Bool × Flags :=
  let x := decodeF f a
  let y := decodeF f b
  let un := x.isNan || y.isNan
  let inv : Bool := x.isSig || y.isSig || (un && decide (2 ≤ c) && decide (c ≤ 5))
  let r : Bool := match c with
    | 0 => !un && eqV x y
    | 1 => un || !eqV x y
    | 2 => !un && ltV x y
    | 3 => !un && !ltV y x
    | 4 => !un && ltV y x
    | 5 => !un && !ltV x y
    | 6 => un
    | _ => !un
  (r, if inv then INV else 0)

/-! ## Correctly rounded functions (R99, R100)

An irrational result is computed in fixed point to 320 fraction bits and given a last bit of one, so that it is
neither a candidate nor a tie; the log says what this presumes (log 5). -/

def FXB : Nat := 320
def FX1 : Nat := 2 ^ FXB

/-- The integer square root, bit by bit. -/
def isqrtBits : Nat → Nat → Nat → Nat
  | 0, _, r => r
  | b + 1, n, r => let t := r + 2 ^ b; isqrtBits b n (if t * t ≤ n then t else r)

def isqrt (n : Nat) : Nat := isqrtBits (Nat.log2 n / 2 + 1) n 0

/-- √(num/den) as a rational whose last bit records a remainder. -/
def sqrtQ (num den : Nat) : Nat × Nat :=
  let k := 200 + Nat.log2 den
  let n := num * 2 ^ (2 * k) / den
  let s := isqrt n
  if s * s = n ∧ n * den = num * 2 ^ (2 * k) then (s, 2 ^ k) else (2 * s + 1, 2 ^ (k + 1))

/-- Σ y^i / i! in fixed point, from a term on. -/
def expTerms : Nat → Nat → Nat → Nat → Nat
  | 0, _, _, _ => 0
  | n + 1, i, y, t => t + expTerms n (i + 1) y (t * y / FX1 / (i + 1))

def fxExp (y : Nat) : Nat := expTerms 100 0 y FX1

/-- Σ z^(2i+1)/(2i+1) in fixed point. -/
def atanhTerms : Nat → Nat → Nat → Nat → Nat
  | 0, _, _, _ => 0
  | n + 1, i, z2, t => t / (2 * i + 1) + atanhTerms n (i + 1) z2 (t * z2 / FX1)

/-- ln of a fixed-point number from 1 to 2. -/
def fxLn (m : Nat) : Nat :=
  let z := (m - FX1) * FX1 / (m + FX1)
  2 * atanhTerms 130 0 (z * z / FX1) z

def fxLn2 : Nat := fxLn (2 * FX1)

/-- Alternating Σ (-1)^i / ((2i+1) k^(2i+1)) in fixed point. -/
def atanInv : Nat → Nat → Nat → Nat → Int
  | 0, _, _, _ => 0
  | n + 1, i, k, t => (if i % 2 = 0 then (t / (2 * i + 1) : Int) else -(t / (2 * i + 1) : Int)) + atanInv n (i + 1) k (t / (k * k))

def fxPi : Nat := (16 * atanInv 80 0 5 (FX1 / 5) - 4 * atanInv 30 0 239 (FX1 / 239)).toNat

/-- Alternating Taylor series of the sine in fixed point. -/
def sinTerms : Nat → Nat → Nat → Nat → Int
  | 0, _, _, _ => 0
  | n + 1, i, y2, t =>
    (if i % 2 = 0 then (t : Int) else -(t : Int)) + sinTerms n (i + 1) y2 (t * y2 / FX1 / ((2 * i + 2) * (2 * i + 3)))

/-- An irrational magnitude in fixed point as a rational that is no candidate and no tie. -/
def sticky (v : Nat) : Nat × Nat := (2 * v + 1, 2 * FX1)

/-- ⌊num/den⌋ and the fraction in fixed point of a nonnegative dyadic rational. -/
def splitFx (num den : Nat) : Nat × Nat := (num / den, num % den * FX1 / den)

/-- 2^x of a finite x (R99, R100). -/
def ex2Fin (neg : Bool) (num den : Nat) : Nat × Flags :=
  let ge128 := !neg && decide (num ≥ 128 * den)
  let below := neg && decide (num > 150 * den)
  if ge128 then (infF FP32 false, OVF ||| INX)
  else if below then (0, UNF ||| INX)
  else
    let s := splitFx num den
    if s.2 = 0 then
      let r := scale2 1 1 (if neg then -(s.1 : Int) else s.1)
      arithF FP32 .rne false r.1 r.2
    else
      -- 2^x = 2^i · e^(f ln 2) with 0 ≤ f < 1
      let i : Int := if neg then -(s.1 : Int) - 1 else s.1
      let f := if neg then FX1 - s.2 else s.2
      let v := fxExp (f * fxLn2 / FX1)
      let r := scale2 (sticky v).1 (sticky v).2 i
      arithF FP32 .rne false r.1 r.2

/-- log2 of a positive rational (R99). -/
def lg2Fin (num den : Nat) : Nat × Flags :=
  let e := flog2 num den
  let r := scale2 num den (-e)
  if r.1 = r.2 then deliver FP32 .rne (ofInt e)
  else
    let frac := fxLn (r.1 * FX1 / r.2) * FX1 / fxLn2
    let v : Int := e * FX1 + frac
    if v < 0 then arithF FP32 .rne true (2 * v.natAbs - 1) (2 * FX1)
    else arithF FP32 .rne false (2 * v.natAbs + 1) (2 * FX1)

/-- sin(π·num/den) of a nonnegative rational: sign, and magnitude as a rational; none when it is exactly zero. -/
def sinPi (num den : Nat) : Option (Bool × Nat × Nat) :=
  let r := num % (2 * den)
  let neg := decide (r > den)
  let r := if r > den then r - den else r
  let r := if 2 * r > den then den - r else r
  if r = 0 then none
  else if 2 * r = den then some (neg, 1, 1)
  else
    let y := fxPi * r / den
    let v := (sinTerms 60 0 (y * y / FX1) y).toNat
    some (neg, (sticky v).1, (sticky v).2)

/-- tanh of a positive rational: a rational that is no candidate and no tie. -/
def tanhPos (num den : Nat) : Nat × Nat :=
  if num ≥ 64 * den then (2 ^ 100 - 1, 2 ^ 100)
  else
    let w := 2 * num * FX1 / den * FX1 / fxLn2
    let i := w / FX1
    let f := w % FX1
    -- u = e^(-2x) = 2^-(i+1) · e^((1-f) ln 2)
    let u := fxExp ((FX1 - f) * fxLn2 / FX1) / 2 ^ (i + 1)
    sticky ((FX1 - u) * FX1 / (FX1 + u))

/-- The special functions, by their MAJ and minor (R99, R100). -/
inductive SFun where
  | rcp | rsq | ex2 | lg2 | sqrt | sin | cos | tanh
  deriving DecidableEq, Repr

def sfun (g : SFun) (a : Nat) : Nat × Flags :=
  match decodeF FP32 a with
  | .nan sig => (FP32.cnan, if sig then INV else 0)
  | .inf neg =>
    match g with
    | .rcp => (zeroF FP32 neg, 0)
    | .rsq => if neg then (FP32.cnan, INV) else (0, 0)
    | .ex2 => if neg then (0, 0) else (infF FP32 false, 0)
    | .lg2 => if neg then (FP32.cnan, INV) else (infF FP32 false, 0)
    | .sqrt => if neg then (FP32.cnan, INV) else (infF FP32 false, 0)
    | .sin => (FP32.cnan, INV)
    | .cos => (FP32.cnan, INV)
    | .tanh => (packF FP32 neg 127 0, 0)
  | .fin neg num den =>
    match g with
    | .rcp => if num = 0 then (infF FP32 neg, DZ) else arithF FP32 .rne neg den num
    | .rsq =>
      if num = 0 then (infF FP32 neg, DZ) else if neg then (FP32.cnan, INV)
      else let r := sqrtQ den num; arithF FP32 .rne false r.1 r.2
    | .ex2 => ex2Fin neg num den
    | .lg2 => if num = 0 then (infF FP32 true, DZ) else if neg then (FP32.cnan, INV) else lg2Fin num den
    | .sqrt =>
      if num = 0 then (a, 0) else if neg then (FP32.cnan, INV)
      else let r := sqrtQ num den; arithF FP32 .rne false r.1 r.2
    | .sin =>
      match sinPi num den with
      | none => (zeroF FP32 neg, 0)
      | some (s, n, d) => arithF FP32 .rne (s != neg) n d
    | .cos =>
      match sinPi (2 * num + den) (2 * den) with
      | none => (0, 0)
      | some (s, n, d) => arithF FP32 .rne s n d
    | .tanh => if num = 0 then (a, 0) else let r := tanhPos num den; arithF FP32 .rne neg r.1 r.2

/-! ## Codebooks (R71-R75) -/

/-- The BF16 words of the NQ4 codes (R71). -/
def nq4Table : List Nat :=
  [0xBF80, 0xBF32, 0xBF06, 0xBECA, 0xBE94, 0xBE3C, 0xBDB8, 0x0000, 0x3DA0, 0x3E24, 0x3E7C, 0x3EAC, 0x3EE2, 0x3F10, 0x3F39, 0x3F80]

/-- The exact distance of two finite values. -/
def distV (x y : FVal) : Nat × Nat :=
  match addV .rne x y.neg with
  | (.fin _ n d, _) => (n, d)
  | _ => (1, 0)

def qle (a b : Nat × Nat) : Bool := decide (a.1 * b.2 ≤ b.1 * a.2)
def qlt (a b : Nat × Nat) : Bool := decide (a.1 * b.2 < b.1 * a.2)

/-- The lowest index whose finite entry is nearest to x, from a best so far. -/
def nearest (x : FVal) : List FVal → Nat → Option (Nat × (Nat × Nat)) → Option Nat
  | [], _, best => best.map Prod.fst
  | t :: ts, i, best =>
    match t with
    | .fin _ _ _ =>
      let d := distV x t
      match best with
      | none => nearest x ts (i + 1) (some (i, d))
      | some (k, b) => if qlt d b then nearest x ts (i + 1) (some (i, d)) else nearest x ts (i + 1) (some (k, b))
    | _ => nearest x ts (i + 1) best

def nq4Values : List FVal := nq4Table.map (decodeF BF16)

/-- Quantising an exact value to NQ4 (R72). -/
def nq4Quant (x : FVal) : Nat × Flags :=
  match x with
  | .nan _ => (7, INV)
  | .inf neg => (if neg then 0 else 15, OVF ||| INX)
  | .fin neg n d =>
    if n > d then (if neg then 0 else 15, OVF ||| INX)
    else
      let c := (nearest x nq4Values 0 none).getD 7
      (c, if (distV x (nq4Values.getD c (.fin false 0 1))).1 = 0 then 0 else INX)

/-- The index of the first element that satisfies p. -/
def firstIdx {α : Type} (p : α → Bool) : List α → Nat → Option Nat
  | [], _ => none
  | x :: xs, i => if p x then some i else firstIdx p xs (i + 1)

def FVal.isFin : FVal → Bool
  | .fin _ _ _ => true
  | _ => false

/-- The least and greatest finite entries of a table. -/
def extreme (less : FVal → FVal → Bool) : List FVal → Option FVal → Option FVal
  | [], b => b
  | t :: ts, b =>
    if t.isFin then
      match b with
      | none => extreme less ts (some t)
      | some y => extreme less ts (some (if less t y then t else y))
    else extreme less ts b

/-- Quantising an exact value with a CB4 table (R75). -/
def cb4Quant (tbl : List FVal) (x : FVal) : Nat × Flags :=
  let exactHit : Option Nat := match x with
    | .nan _ => firstIdx FVal.isNan tbl 0
    | .inf n => firstIdx (fun t => decide (t = .inf n)) tbl 0
    | .fin _ _ _ => none
  match exactHit with
  | some i => (i, 0)
  | none =>
    if x.isNan then (0, INV)
    else match extreme ltV tbl none, extreme (fun a b => ltV b a) tbl none with
      | some lo, some hi =>
        let above := ltV hi x
        let below := ltV x lo
        let c :=
          if above then (firstIdx (fun t => eqV t hi) tbl 0).getD 0
          else if below then (firstIdx (fun t => eqV t lo) tbl 0).getD 0
          else (nearest x tbl 0 none).getD 0
        (c, (if above || below then OVF else 0) ||| (if eqV (tbl.getD c (.nan false)) x then 0 else INX))
      | _, _ => (0, INV)

/-- The 16 BF16 entries of a table held in eight words (R73). -/
def cb4Entries (ks : List Word) : List Nat := ks.flatMap fun w => [w.toNat % 65536, w.toNat / 65536]

/-- Expanding a code: a NaN entry gives the canonical NaN (R74). -/
def cb4Expand (ks : List Word) (c : Nat) : Nat :=
  let e := (cb4Entries ks).getD c 0
  if (decodeF BF16 e).isNan then 0x7FC0 else e

/-! ## Block scales (R77, R312) -/

/-- ScaleAdd of R77; d, p and sup are FP32 codes, s is 0 to 255. -/
def scaleAdd (d p s sup : Nat) : Nat × Flags :=
  let dv := decodeF FP32 d
  let pv := decodeF FP32 p
  let sv := decodeF FP32 sup
  if dv.isNan || pv.isNan || sv.isNan then (FP32.cnan, if dv.isSig || pv.isSig || sv.isSig then INV else 0)
  else if s = 0 ∨ sv.isZero then
    if pv.isInf then (FP32.cnan, INV)
    else finishF FP32 .rne (addV .rne dv (.fin (pv.sign != sv.sign) 0 1))
  else
    let t := mulV pv (.fin false s 255)
    let u := mulV t.1 sv
    let r := addV .rne dv u.1
    finishF FP32 .rne (r.1, t.2 ||| u.2 ||| r.2)

/-- Scale of R312: the code and its events. `x` is a magnitude (finite or +∞), `sup` positive and finite, `fmax` a
magnitude as a rational. -/
def scaleCode (x : FVal) (sup : FVal) (fmax : Nat × Nat) : Nat × Flags :=
  if fmax.1 = 0 then (0, INV)
  else match x, sup with
    | .inf _, _ => (255, OVF)
    | .fin _ 0 _, _ => (0, 0)
    | .fin _ n d, .fin _ sn sd =>
      -- q = 255·x / (S·fmax)
      let qn := 255 * n * sd * fmax.2
      let qd := d * sn * fmax.1
      if qn > 255 * qd then (255, OVF) else ((qn + qd - 1) / qd, 0)
    | _, _ => (0, 0)

/-- The greatest magnitude of a format's finite codes for Scale: NQ4 1, H6 14, CB4 that of the table (R312). -/
def cb4Max (tbl : List FVal) : Nat × Nat :=
  tbl.foldl (fun m t => match t with | .fin _ n d => if qlt m (n, d) then (n, d) else m | _ => m) (0, 1)

/-! ## Sums (R78, R79) -/

/-- One level of the pairwise tree: adjacent values added. -/
def treeLevel : List Nat → List Nat × Flags
  | a :: b :: r =>
    let s := addF FP32 a b
    let t := treeLevel r
    (s.1 :: t.1, s.2 ||| t.2)
  | l => (l, 0)

/-- REDADD.F over 32 values (R78). -/
def treeSum : Nat → List Nat → Flags → Nat × Flags
  | 0, l, f => (l.headD 0, f)
  | n + 1, l, f => let t := treeLevel l; treeSum n t.1 (f ||| t.2)

/-- A list of values in which infinities of both signs stand. -/
def bothInf (vs : List FVal) : Bool :=
  (vs.any fun v => match v with | .inf neg => neg | _ => false) && (vs.any fun v => match v with | .inf neg => !neg | _ => false)

/-- The exact signed sum of products, with the zero sign of R79 and its invalid cases, which depend on no order: the sum and INV. A quiet NaN
operand makes the sum NaN and is no invalid case, as in R62 and R70 (DEDUCED, log entry 60). -/
def dotV (ps : List (FVal × FVal)) : FVal × Flags :=
  match ps with
  | [] => (.fin false 0 1, 0)
  | p :: rest =>
    let d := rest.foldl (fun acc q =>
      let m := mulV q.1 q.2
      let a := addV .rne acc.1 m.1
      (a.1, acc.2 ||| m.2 ||| a.2)) (mulV p.1 p.2)
    (d.1, d.2 ||| if bothInf (ps.map fun q => (mulV q.1 q.2).1) then INV else 0)

end Sys2Proof.Machine
end

