-- ==== Sys2Proof/Config.lean ====
section
/-! DEFINITION. The constants of one part: what fuses, the boot flash and the order code fix, and the free values that
the spec leaves open. A constant without a body is a free value: no proof can see which value it has. The log entries
are named at each. -/

namespace Sys2Proof.Config

/-- A 64-bit value that the spec leaves open (log 2). -/
opaque free64 : Nat → BitVec 64
/-- A byte that the spec leaves open (log 2). -/
opaque freeByte : Nat → Nat → BitVec 8

/-- How many cycles ahead a core's %clock counter runs: the counters agree to within 16 (R23; log 13). -/
opaque clockSkew : Nat → Fin 17

/-- ALMPOL: the fused policy of each alarm class (R388; log 16). -/
opaque almpol : BitVec 8

/-- The fused SHA-384 digests of the two firmware keys (R373; log 15). -/
opaque kh1 : BitVec 384
opaque kh2 : BitVec 384
/-- The 256-bit device secret (R377; log 20). -/
opaque uds : BitVec 256

/-! The cryptographic functions of chapter 23 are named by their standards, which the spec does not restate: they are
free functions here (log 20). -/

/-- SHA-384 (R373, R376). -/
opaque sha384 : List Byte → BitVec 384
/-- HKDF-SHA-384 with its input key, salt and info, 32 bytes (R377, R383). -/
opaque hkdf : (ikm salt info : List Byte) → BitVec 256
/-- HMAC-SHA-384 truncated to 32 bytes (R382). -/
opaque hmac : (key msg : List Byte) → BitVec 256
/-- RSASSA-PSS verification under a 3072-bit modulus (R372, R385). -/
opaque rsaVerify : (modulus : List Byte) → (msg sig : List Byte) → Bool
/-- SLH-DSA-SHA2-192s verification (R372, R385). -/
opaque slhVerify : (key : List Byte) → (msg sig : List Byte) → Bool
/-- RSASSA-PSS signature, 384 bytes, by the key pair that a seed drives (R377, R380). -/
opaque rsaSign : (seed : BitVec 256) → (msg : List Byte) → BitVec 3072
/-- SLH-DSA-SHA2-192s signature, 16 224 bytes (R377, R380). -/
opaque slhSign : (seed : BitVec 256) → (msg : List Byte) → BitVec 129792
/-- The public keys of the pairs that a seed drives: the RSA-3072 modulus and the SLH-DSA-SHA2-192s key (R377). -/
opaque rsaPublic : (seed : BitVec 256) → BitVec 3072
opaque slhPublic : (seed : BitVec 256) → BitVec 384
/-- The part of an X.509 certificate that is signed, by algorithm, subject and issuer key, and the certificate in DER (R377). -/
opaque certBody : (rsa : Bool) → (subject issuer : List Byte) → List Byte
opaque certDer : (body sig : List Byte) → List Byte
/-- The ML-KEM-1024 encapsulation key of the n-th key pair, 1568 bytes (R380). -/
opaque kemPublic : Nat → BitVec 12544
/-- ML-KEM-1024 encapsulation to a key: ciphertext of 1568 bytes and shared secret (R385). -/
opaque kemEncaps : (ek : List Byte) → Nat → BitVec 12544 × BitVec 256
/-- ML-KEM-1024 decapsulation with the n-th key pair (R386). -/
opaque kemDecaps : Nat → (ct : List Byte) → BitVec 256
/-- One ciphertext byte of AES-256-GCM: key, nonce, associated data, plaintext, position (R383, R385). -/
opaque gcmByte : (key : BitVec 256) → (nonce aad plain : List Byte) → Nat → Byte
/-- The AES-256-GCM tag of a plaintext (R383, R385). -/
opaque gcmTag : (key : BitVec 256) → (nonce aad plain : List Byte) → BitVec 128
/-- AES-256-GCM decryption: the plaintext when the tag verifies (R386). -/
opaque gcmOpen : (key : BitVec 256) → (nonce aad cipher : List Byte) → (tag : BitVec 128) → Option (List Byte)
/-- The certificates verify to the root key digests in ROM and give the peer's two public keys (R385). -/
opaque chainKeys : (certs : List Byte) → Option (List Byte × List Byte)

/-- A byte of a saved core image behind its header: bytes that only the device interprets (R337; log 21). -/
opaque imageByte : (serial offset : Nat) → Byte

/-- The firmware image in the boot flash and the partition map in it pass R373 at power-on (log 15). -/
def goodImage : Bool := true
/-- MR0 and MR1 as the ROM has extended them with the running image and its partition map (R373; log 15). -/
opaque bootMr0 : BitVec 384
opaque bootMr1 : BitVec 384
/-- The security version number of the running image at power-on (log 15). -/
def bootSvn : Nat := 0
/-- The SHA-384 digest of the partition map in the body of an image that recovery has written (R373; log 15). -/
opaque mapDigest : (image : List Byte) → BitVec 384
/-- A byte of a snapshot in the log area, by what the snapshot holds: the spec gives the content and not the layout (R391; log 2). -/
opaque snapByte : (content : List Byte) → (offset : Nat) → Byte
/-- The partition map in the body of an image that recovery has written: the spec gives no layout of it (R349, R372; log 14). -/
opaque mapOf : (image : List Byte) → PartMap

end Sys2Proof.Config
end

