-- ==== Sys2Proof/Machine/Keys.lean ====
section
/-! DEFINITION. The secrets that the security engine derives and the certificates of its alias keys (spec 23 R377). The functions of the
standards are free functions of Config (log 20). -/

namespace Sys2Proof.Machine

/-- The ASCII bytes of a label. -/
def ascii (x : String) : List Byte := x.toList.map fun c => BitVec.ofNat 8 c.toNat

/-- The 48 bytes of a digest or a measurement, and the 32 of a key. -/
def digestBytes (d : BitVec 384) : List Byte := leBytes 48 d.toNat
def keyBytes (k : BitVec 256) : List Byte := leBytes 32 k.toNat

/-- The derived secrets (R377). -/
def derive (salt : List Byte) (label : String) : BitVec 256 := Config.hkdf (keyBytes Config.uds) salt (ascii label)

/-- DevSeed, CDI0 for a measured MR0, DS and CK. -/
def devSeed : BitVec 256 := derive [] "FJ-DEVID"
def cdi0 (mr0 : BitVec 384) : BitVec 256 := derive (digestBytes mr0) "FJ-CDI0"
def sealSecret : BitVec 256 := derive [] "FJ-SEAL0"
def counterKey : BitVec 256 := derive [] "FJ-CTR"

/-- The public keys of the pairs that a seed drives: RSA-3072 and SLH-DSA. -/
def rsaPublic (seed : BitVec 256) : List Byte := leBytes 384 (Config.rsaPublic seed).toNat
def slhPublic (seed : BitVec 256) : List Byte := leBytes 48 (Config.slhPublic seed).toNat

/-- The X.509 certificates of the alias keys, each signed by the DeviceID key of its algorithm. -/
def aliasCerts (mr0 : BitVec 384) : List (List Byte) :=
  let rsa := Config.certBody true (rsaPublic (cdi0 mr0)) (rsaPublic devSeed)
  let slh := Config.certBody false (slhPublic (cdi0 mr0)) (slhPublic devSeed)
  [Config.certDer rsa (leBytes 384 (Config.rsaSign devSeed rsa).toNat), Config.certDer slh (leBytes 16224 (Config.slhSign devSeed slh).toNat)]

end Sys2Proof.Machine
end

