-- ==== Sys2Proof/Machine/State.lean ====
section
/-! DEFINITION. The state of the machine: everything the spec gives it, as plain data. Registers the spec numbers are
bit vectors; positions, counts and physical addresses are natural numbers; collections are lists keyed by what they
belong to. An absent record of a core, die or partition means that all of it is at its reset value. -/

namespace Sys2Proof.Machine

/-- Why the machine stops without a next state. -/
inductive Fault where
  /-- raised by `exec` for an encoded instruction when the current port runs no issue group: no thread is there to
  execute it (R149, R150). `step` never raises it, since it issues only for a running group. Safe. -/
  | noIssueGroup
  deriving DecidableEq, Repr

/-- Why the model gives an instruction no meaning. -/
inductive Refusal where
  /-- raised by an arm of `exec` that has no meaning yet. Safe. -/
  | notModelled (mnemonic : String)
  deriving DecidableEq, Repr

/-! ## Caches and translations (chapter 12) -/

/-- A Lamport timestamp: clock, then core number (R239, R240). -/
structure Stamp where
  clk : Nat := 0
  core : Nat := 0
  deriving DecidableEq, Repr

/-- A valid byte of a cached line (R207). -/
structure LByte where
  off : Nat
  val : Byte
  dirty : Bool
  deriving DecidableEq, Repr

/-- A cached line: the same record serves L1, RDC and L2 (R207, R208, R220, R240, R351, R354). -/
structure CLine where
  line : Nat
  part : Nat
  tenant : Nat
  way : Nat
  age : Nat
  cmp : Bool
  stamp : Stamp
  bytes : List LByte
  /-- the 8-byte words of the line that are poisoned (R334) -/
  poison : List Nat
  deriving DecidableEq, Repr

/-- A final translation held by a TLB or a cluster translation cache (R217, R221). -/
structure TlbEnt where
  part : Nat
  tenant : Nat
  vbase : Nat
  size : Nat
  pbase : Nat
  r1 : Bool
  w1 : Bool
  x1 : Bool
  r2 : Bool
  w2 : Bool
  x2 : Bool
  mt : Nat
  cmp : Bool
  layout : Nat
  /-- the stage-2 pages the translation used: IPA base and size (R368) -/
  s2used : List (Nat × Nat)
  deriving DecidableEq, Repr

/-- A table entry held by a cluster translation cache (R221): stage, owner, level and the address bits above it. -/
structure WalkEnt where
  stage : Nat
  part : Nat
  tenant : Nat
  level : Nat
  high : Nat
  value : Nat
  deriving DecidableEq, Repr

/-- A line of an instruction cache: always whole (R54, R211). -/
structure ICLine where
  line : Nat
  bytes : List Byte
  /-- the 8-byte words of the line that were poisoned where it was read (R334) -/
  poison : List Nat := []
  deriving DecidableEq, Repr

/-! ## Threads (chapters 01, 02, 07, 13, 14, 20) -/

/-- The state of a loaf (R51): latches, results pushed, instructions executed, and a YIELD seen (R52). -/
structure Loaf where
  c0 : Dword := 0
  c1 : Dword := 0
  c2 : Dword := 0
  c3 : Dword := 0
  j : Nat := 0
  cnt : Nat := 0
  yielded : Bool := false
  deriving DecidableEq, Repr

/-- Where an access is performed: a physical address with its memory type and CMP bit, or a block's scratchpad. -/
inductive Loc where
  | glob (pa : Nat) (mt : Nat) (cmp : Bool)
  | scr (b : BRef) (off : Nat)
  deriving DecidableEq, Repr

/-- A part of an access: bytes from one location (at most 16, R225). -/
structure Part where
  loc : Loc
  n : Nat
  deriving DecidableEq, Repr

/-- What RASTS knew and its record does not hold: the directions, and for each edge whether its first vertex precedes
its second (R128, R132, R133). -/
structure Rast where
  d0 : List Int
  dX : List Int
  dY : List Int
  lex : List Bool
  deriving DecidableEq, Repr

/-- What turns the bytes of a load into the values of its destination group. -/
inductive Finish where
  | raw
  /-- of an LDRAW: like `raw`, but no stall on it spawns a leaven context (R154) -/
  | home
  | rayld
  | boxt (y : List Word) (node : Dword)
  | desc (y : List Word) (i : Word)
  | asc (y : List Word) (i : Word)
  | trit (y : List Word)
  | rastt (px py lane : Nat) (aux : Rast)
  deriving DecidableEq, Repr

/-- Where the value of an outstanding write comes from: memory parts still to be read, the thread's SC operation or atomic
that is not yet performed, or a value already taken. -/
inductive OutSrc where
  | load (parts : List Part) (fin : Finish)
  | sc
  /-- an atomic of the thread that is accepted and not yet performed (R238) -/
  | atom
  | val (ws : List Word)
  deriving DecidableEq, Repr

/-- An outstanding destination group of a long-latency instruction (R48, R49). -/
structure Out where
  base : Nat
  n : Nat
  named : Bool
  /-- a heel since has found it among the groups that must land before the thread is Ready (R49) -/
  must : Bool := false
  /-- issued by LD.G, GATH, LD.S or GATH.S (R154) -/
  ld : Bool := false
  /-- the loaf that issued it has ended, or its thread has trapped since -/
  past : Bool
  /-- a trap made it pending: the limit of six does not count it (R49) -/
  exempt : Bool
  src : OutSrc
  /-- of a load, the parts that have taken their bytes before the others, each with its bytes and whether they were poisoned (R225, R226) -/
  got : List (Nat × (List Byte × Bool)) := []
  deriving DecidableEq, Repr

/-- The atomics (R256). -/
inductive AtomKind where
  | add | min | max | exch | cas | and | or | xor
  deriving DecidableEq, Repr

/-- An atomic that has been accepted: its operands, and the register that takes the old word unless N = 1. -/
structure Rmw where
  kind : AtomKind
  b : Word
  expect : Word
  dst : Option Nat
  deriving DecidableEq, Repr

/-- A store or an atomic that has been accepted and is not yet performed (R226, R231): its bytes (of an atomic only their
number counts), the number of the issue that accepted it (R252), and the count of the machine's loaves by which it is
performed (R152; log 53). -/
structure Store where
  loc : Loc
  bytes : List Byte
  rmw : Option Rmw := none
  grp : Nat := 0
  due : Nat := 0
  deriving DecidableEq, Repr

/-- The kinds of SC operation (R258). -/
inductive ScKind where
  | ld | st | add | exch | cas
  deriving DecidableEq, Repr

/-- An SC operation that has a timestamp and is not yet applied (R240, R258). -/
structure ScOp where
  kind : ScKind
  d : Nat
  n : Bool
  pa : Nat
  cmp : Bool
  b : Word
  expect : Word
  ts : Stamp
  deriving DecidableEq, Repr

/-- The watch of a thread (R262, R263). -/
structure Watch where
  line : Nat := 0
  armed : Bool := false
  fired : Bool := false
  lost : Bool := false
  spur : Bool := false
  /-- it holds one of the trackers of its slice (R262) -/
  tracked : Bool := false
  deriving DecidableEq, Repr

/-- A synchronisation object, translated when its address was checked (R228, R261): its address as the instruction gave it, the
access code, and the number of the issue that checked it (R196, R197). -/
structure SyncObj where
  loc : Loc
  addr : Dword := 0
  acc : Nat := 0
  no : Nat := 0
  deriving DecidableEq, Repr

/-- An instruction that retires when accesses have been performed (R33, R196, R223, R231-R233). -/
inductive SyncOp where
  | acq (scope : Nat) (o : SyncObj)
  | rel (scope : Nat) (o : SyncObj)
  | fence (scope : Nat)
  | tlbib (all : Bool) (va : Dword)
  /-- with its place among the CARVEs of its core, and the number of its issue (R196, R197) -/
  | carve (d : Nat) (n : Bool) (want order no : Nat)
  | exit
  deriving DecidableEq, Repr

/-- What a Waiting thread waits for (R32). The pc of the thread is that of the instruction it waits at, except for
`outs`, `join`, `withheld` and `ended`, which follow a retired heel. -/
inductive Wait where
  | outs
  | join (addr : Dword)
  | withheld
  | ended
  | rendezvous
  | queue (q : Nat)
  | granule
  | barrier (b : Nat)
  | doze (since limit d : Nat) (n : Bool)
  /-- held at an SC operation until the thread's previous one is applied (R240); the group keeps its port (R44) -/
  | scHeld
  | kneadOuts (key : Word) (base n : Nat)
  | sifter
  | object (b : BRef) (off : Nat) (addr : Word) (parity : Bool) (pd : Option (BitVec 2))
  | access (op : SyncOp)
  deriving DecidableEq, Repr

/-- The states of a thread (R32). `ready` is Ready and not yet in the PC table, `listed` Ready and in it. -/
inductive TState where
  | ready | listed | running
  | waiting (w : Wait)
  | halted | exited
  deriving DecidableEq, Repr

/-- A thread (R17, R22, R31, R51). -/
structure Thread where
  tid : Nat := 0
  budget : Nat := 8
  leaven : Bool := false
  g : Vector Word 124 := Vector.replicate 124 0
  loaf : Loaf := {}
  p1 : Bool := false
  p2 : Bool := false
  p3 : Bool := false
  pc : Dword := 0
  aflags : BitVec 5 := 0
  scClock : BitVec 48 := 0
  scCore : BitVec 11 := 0
  xpc : Dword := 0
  xcause : Word := 0
  xaddr : Dword := 0
  xvec : Dword := 0
  trap : Option Loaf := none
  st : TState := .ready
  outs : List Out := []
  stores : List Store := []
  watch : Watch := {}
  tokens : List (Nat × Bool) := []
  sc : Option ScOp := none
  /-- registers, low halves of latches (124-127), predicates (129-131) and high halves of latches (132-135) with a parity
  error (R334) -/
  bad : List Nat := []
  /-- the cycle since which the thread has been Waiting for registers (R154) -/
  stall : Option Nat := none
  /-- a heel of the thread has retired in this step (R182) -/
  heeled : Bool := false
  deriving DecidableEq, Repr

/-! ## Warps (chapters 08, 09) -/

/-- The instructions that are a rendezvous of the warp (R157, R178, R186, R307, R361). -/
inductive XOp where
  | shflIdx | shflUp | shflDown | shflXor
  | voteAny | voteAll | voteBallot | voteUni
  | redaddI | redaddF | redminS | redmaxS
  | matchLanes | compact | scanadd | elect
  | genbeg | gennext
  | mxmeta (c : Nat) | rsend | rrecv
  deriving DecidableEq, Repr

/-- An arrival at a rendezvous (R158): its lane, address and mask, and the operands it supplied. -/
structure Arrival where
  lane : Nat
  addr : Dword
  mask : Word
  op : XOp
  a : Word
  b : Word
  p : Bool
  d : Nat
  n : Bool
  e : Bool
  deriving DecidableEq, Repr

/-- The YIELDs that a warp has appended in one cycle: the cycle, FILL, CNT0 and CNT1 as they stood before it, and each entry
with its lane (R180). -/
structure Yields where
  cyc : Nat
  fill : Nat
  cnt0 : Nat
  cnt1 : Nat
  list : List (Nat × List Word)
  deriving DecidableEq, Repr

/-- The generator state of a warp (R177). `fill` and `cf` are frame numbers. -/
structure Gen where
  consume : Bool
  pend : Bool
  w : Nat
  h : Nat
  p : Nat
  consumer : Dword
  area : Nat
  cnt0 : Nat
  cnt1 : Nat
  fill : Nat
  cf : Nat
  ended : List Nat
  saved : List (Nat × Dword)
  now : Option Yields := none
  deriving DecidableEq, Repr

/-- A warp in a slot of a core (R17, R147, R154). -/
structure Warp where
  blk : BRef
  role : Nat
  k : Vector Word 64 := Vector.replicate 64 0
  gen : Option Gen := none
  arrs : List Arrival := []
  /-- for a leaven context: the cycle of its spawn and the thread that stalled -/
  leaven : Option (Nat × TRef) := none
  badK : List Nat := []
  deriving DecidableEq, Repr

/-! ## Blocks (chapters 08, 11, 16, 18, 22) -/

/-- A workgroup barrier (R167). -/
structure Bar where
  x : Nat
  arrived : Nat := 0
  phase : Bool := false
  bits : List Nat := []
  deriving DecidableEq, Repr

/-- An entry of q0 (R297): the address, the CB4 table, and the chain tags of buffers 0 and 1. -/
structure MxEntry where
  addr : Word
  tbl : List Word
  tag0 : Option Nat
  tag1 : Option Nat
  deriving DecidableEq, Repr

/-- A push of MXMETA: 32 words tagged with an N code (R307). -/
structure MetaPush where
  code : Nat
  words : List Word
  deriving DecidableEq, Repr

/-- What a waiting queue operation will do when the queue permits it (R271). -/
inductive QOp where
  | push8 (v : Dword)
  | entry (x : MxEntry)
  /-- a descriptor still to be read, with the number of the CPISS's issue (R279, R196) -/
  | desc (b : BRef) (off : Nat) (addr : Word) (no : Nat)
  | mxmeta (m : MetaPush)
  | packet (p : List Word)
  | pop (d : Nat) (n : Bool)
  | rpop (dests : List (Nat × Nat × Bool))
  deriving DecidableEq, Repr

/-- A waiting push or pop, in arrival order (R271). A rendezvous push or pop carries all its threads. -/
structure QWait where
  q : Nat
  who : List TRef
  op : QOp
  deriving DecidableEq, Repr

/-- A waiting LDFE or STFE (R201): `store` is the data of an STFE; a load takes or peeks. -/
structure GWait where
  who : TRef
  off : Nat
  n : Nat
  take : Bool
  d : Nat
  regs : Nat
  disc : Bool
  store : Option (List Byte)
  /-- the address and access code for a BOUND fault, and the number of the issue (R193, R197) -/
  addr : Word := 0
  acc : Nat := 0
  no : Nat := 0
  deriving DecidableEq, Repr

/-- The record that RSTAT reads (R362) and the missing mask. -/
structure RStat where
  seq : Nat := 0
  missn : Nat := 0
  nanf : Bool := false
  ovff : Bool := false
  drop : Bool := false
  tmo : Bool := false
  sent : Bool := false
  res : Bool := false
  pend : Bool := false
  mask : BitVec 64 := 0
  deriving DecidableEq, Repr

/-- A block resident on a core. -/
structure Block where
  part : Nat
  tenant : Nat
  core : Nat
  cx : Nat
  cy : Nat
  rw : Nat
  rh : Nat
  slots : List Nat
  nwarps : Nat
  /-- budgets of the four roles and the leaven budget L (R142, R154) -/
  budgets : List Nat
  leavenBudget : Nat := 0
  leavenEntry : Dword := 0
  handler : Dword := 0
  scratch : Nat
  reserve : Nat
  pways : List Nat
  cways : List Nat := []
  cells : List Host.Cell := []
  full : List Nat := []
  poison : List Nat := []
  /-- global lines that engines wrote, by the offset of the object that counts them: in the current phase, and in the
  last one completed (R244) -/
  acq : List (Nat × (List Nat × List Nat)) := []
  /-- raster records, by offset -/
  rast : List (Nat × Rast) := []
  bars : List Bar
  q0 : List MxEntry := []
  q1 : List MetaPush := []
  q2 : List Dword := []
  q3 : List Dword := []
  q4 : List (List Byte) := []
  q5 : List Dword := []
  q6 : List (List Word) := []
  q7 : List (List Word) := []
  q8 : List Dword := []
  q9 : List Dword := []
  q10 : List Dword := []
  q11 : List Dword := []
  /-- poisoned entries: the queue, and the place of the entry in it (R334) -/
  qbad : List (Nat × Nat) := []
  qwait : List QWait := []
  gwait : List GWait := []
  chain0 : Nat := 0
  chain1 : Nat := 0
  open0 : Bool := false
  open1 : Bool := false
  /-- the chain that a next command on each buffer may belong to: its tag and number (R304) -/
  last0 : Option (Nat × Nat) := none
  last1 : Option (Nat × Nat) := none
  rsends : Nat := 0
  rstat : RStat := {}
  /-- sifter slots still to run; the warps are Ready when none is left (R294) -/
  sift : List Nat := []
  /-- its context does not stand in the bank of its core: it is on its way out, or not yet in (R340) -/
  benched : Bool := false
  /-- the ways whose contents the spill engine has still to load (R340) -/
  unloaded : List Nat := []
  deriving DecidableEq, Repr

/-! ## Cores (chapters 07, 08, 12, 17, 18) -/

/-- An entry of the PC table (R149). -/
structure Entry where
  pc : Dword
  j : Nat
  cnt : Nat
  trapMode : Bool
  leaven : Bool
  members : List TRef
  created : Nat
  /-- the core's count of loaves when its first thread became Ready (R152) -/
  born : Nat := 0
  aged : Bool := false
  deriving DecidableEq, Repr

/-- A thread held in a kneading bin (R171). -/
structure BinThread where
  from_ : TRef
  /-- the cycle in which it entered (R173) -/
  since : Nat := 0
  regs : List (Nat × Word)
  th : Thread
  k : Vector Word 64
  deriving DecidableEq, Repr

/-- A bin of the kneading table (R171). -/
structure Bin where
  blk : BRef
  role : Nat
  key : Word
  threads : List BinThread
  entered : Nat
  deriving DecidableEq, Repr

/-- An accumulator buffer: the block that holds it and its nonzero words (R296). -/
structure AccBuf where
  held : Option BRef := none
  words : List (Nat × Word) := []
  /-- its poisoned words (R334) -/
  poison : List Nat := []
  deriving DecidableEq, Repr

/-- The bytes that a command moves, by offset from BASE: the words touched and the values. -/
structure Moved where
  words : List Nat := []
  cells : List Host.Cell := []
  deriving DecidableEq, Repr

/-- A copy command in flight (R283, R288-R290). -/
structure CopyRun where
  blk : BRef
  desc : List Byte
  /-- its destinations -/
  dests : List BRef
  bobj : Nat
  nobar : Bool
  tag : Nat
  reduce : Bool
  sifter : Bool
  /-- the elements of its walk, how many have been walked, those walked before their turn, and whether an error has stopped it -/
  total : Nat := 0
  next : Nat := 0
  early : List Nat := []
  stopped : Bool := false
  /-- the first error, and whether its objects know of it -/
  code : Nat := 0
  errDone : Bool := true
  /-- bytes moved, of them bytes that may be counted now, and bytes counted -/
  bytes : Nat := 0
  left : Nat := 0
  counted : Nat := 0
  inv : Nat := 0
  moved : Moved := {}
  /-- granules written whose full-empty bits are still to be set (R200) -/
  grans : List Nat := []
  /-- chunks read, each with the code of its error or its bytes (R286) -/
  chunks : List (Nat × Nat × List Byte) := []
  /-- global lines written (R244) -/
  lines : List Nat := []
  deriving DecidableEq, Repr

/-- The decoded parameter block of a matrix command (R298, R299). -/
structure MxPar where
  asrc : Word
  bsrc : Word
  mdata : Word
  waita : Word
  klen : Nat
  apitch : Nat
  bpitch : Nat
  opitch : Nat
  out : Dword
  scout : Dword
  obj : Word
  super : Word
  part : Word
  tile : Nat
  ctl : Word
  fmt : BitVec 16
  rect : BitVec 16
  deriving DecidableEq, Repr

/-- The wait field of a command (R302): met, still waiting for the phase of a parity on an object, or the object has ERR. -/
inductive MxWait where
  | met
  | on (b : BRef) (off : Nat) (parity : Bool)
  | failed
  /-- the block that holds the object has ended (R193) -/
  | gone
  deriving DecidableEq, Repr

/-- The operands of a k-step that have been fetched: for each row the positions within the step and the codes. -/
structure MxFetch where
  step : Nat
  a : List (List (Nat × Nat))
  b : List (List (Nat × Nat))
  deriving DecidableEq, Repr

/-- A matrix command in progress on one engine (R300-R319). -/
structure MxRun where
  blk : BRef
  entry : MxEntry
  par : MxPar
  /-- the run's serial, in the order in which engines take commands (R304-R306) -/
  serial : Nat
  /-- the chain it belongs to, by the serial of its first run, and its tag (R304) -/
  chain : Nat
  tag : Option Nat
  /-- the member's position in the rectangle, and the core and serial of the origin run (R303) -/
  mx : Nat := 0
  my : Nat := 0
  origin : Nat
  oserial : Nat
  /-- the blocks whose scratchpads hold A, B and the metadata -/
  ablk : BRef
  bblk : BRef
  mblk : BRef
  /-- malformed or unreadable: it does nothing but report (R297, R318) -/
  inert : Bool := false
  wait : MxWait := .met
  needBuf : Bool := false
  needRect : Bool := false
  done : List Nat := []
  fetched : List MxFetch := []
  cols : List (List Word) := []
  colsTaken : Nat := 0
  /-- partials, or the words of a drain to q2, that are not yet delivered whole, and the pieces delivered -/
  partials : List (List Word) := []
  delivered : Nat := 0
  /-- granules written whose full-empty bits are still to be set (R200) -/
  grans : List (BRef × Nat) := []
  /-- its drain, or its stop, has been done -/
  ended : Bool := false
  bytes : Nat := 0
  counted : Bool := false
  code : Nat := 0
  errDone : Bool := false
  frec : Option Dword := none
  chab : Bool := false
  nanf : Bool := false
  ovfc : Nat := 0
  invc : Nat := 0
  lines : List Nat := []
  deriving DecidableEq, Repr

/-- What is saved of a context from one core (R337, R342): the rectangle commands that began there keep their members. -/
structure SavedCore where
  part : Nat
  tenant : Nat
  idx : Nat
  savecnt : Nat
  serial : Nat
  core : Nat
  warps : List (Nat × Warp)
  threads : List ((Nat × Nat) × Thread)
  blocks : List (BRef × Block)
  bins : List Bin
  released : List Bin
  acc0 : AccBuf
  acc1 : AccBuf
  runs : List MxRun
  stops : List (Nat × Nat)
  held : List (Nat × List Nat)
  reqs : List Nat
  clkrd : Nat
  deriving DecidableEq, Repr

/-- A core (R3). -/
structure Core where
  p0 : List TRef := []
  p1 : List TRef := []
  table : List Entry := []
  /-- threads in the overflow, oldest first, each with the count of loaves when it became Ready (R149, R152) -/
  overflow : List (TRef × Nat) := []
  /-- the first cycle whose filling of the free ports is still to come (R150) -/
  fillAt : Nat := 0
  /-- the cycle in which each port last issued for its present group -/
  last0 : Option Nat := none
  last1 : Option Nat := none
  /-- loaves begun on the core (R152) -/
  loaves : Nat := 0
  scK : Nat := 0
  l1 : List CLine := []
  icache : List ICLine := []
  tlb : List TlbEnt := []
  /-- translations that accesses of the core may have used and that its TLB holds no longer (R223; log 57) -/
  tlbPast : List TlbEnt := []
  bins : List Bin := []
  released : List Bin := []
  acc0 : AccBuf := {}
  acc1 : AccBuf := {}
  runs : List MxRun := []
  /-- the chains that a command has stopped, each with its code (R319) -/
  stops : List (Nat × Nat) := []
  copies : List CopyRun := []
  /-- the block whose queue each engine served last (R269) -/
  turnC : Option BRef := none
  turnM : Option BRef := none
  turnR : Option BRef := none
  /-- CLKRD count per partition and tenant, and the cycle up to which it is kept (R332) -/
  clkrd : List ((Nat × Nat) × Nat) := []
  /-- in a context switch: its banks have been exchanged, it has reported that it has stopped, its spill is done, and what of the
  outgoing context is held outside threads, warps and blocks (R339, R340) -/
  swapped : Bool := false
  stopped : Bool := false
  spilled : Bool := false
  /-- scratchpad ways that the spill has dealt with, in increasing number (R340) -/
  waysDone : Nat := 0
  out : Option SavedCore := none
  deriving DecidableEq, Repr

/-! ## The hub (chapters 07, 20, 22, 23) -/

/-- A reduction tree (R358): parent of each contributor, none for the root. -/
structure Tree where
  parents : List (Option Nat)
  deliv : Bool
  timeout : Nat
  deriving DecidableEq, Repr

/-- An item of a reduction: the contributor it comes from, its vector, the contributors it misses and those it carries. -/
structure RItem where
  idx : Nat
  vec : List Word
  missing : List Nat
  carried : List Nat
  /-- some part of it was poisoned in q6 (R334; log 71) -/
  bad : Bool := false
  deriving DecidableEq, Repr

/-- A node of a reduction (R359, R360): the items that have arrived, and the arrival of the first. -/
structure RNode where
  idx : Nat
  items : List RItem := []
  first : Option Nat := none
  combined : Bool := false
  deriving DecidableEq, Repr

/-- A reduction of a launch, by its full count, with the items on their way between routers. -/
structure Reduction where
  seq : Nat
  nodes : List RNode := []
  flying : List (Nat × RItem) := []
  nan : Bool := false
  ovf : Bool := false
  tmo : Bool := false
  /-- the root's result once it has combined, and the contributors whose q7 it has still to reach -/
  out : Option RItem := none
  owed : List Nat := []
  deriving DecidableEq, Repr

/-- The fields of a launch record that the device keeps (R142). -/
structure LRec where
  entry : Dword
  args : Dword
  handler : Dword
  lw : Nat
  lh : Nat
  fixed : Bool
  nomig : Bool
  ox : Nat
  oy : Nat
  warps : List Nat
  budgets : List Nat
  roles : List (BitVec 32)
  scratch : Nat
  reserve : Nat
  lbudget : Nat
  lentry : BitVec 32
  transforms : List Dword
  tree : Dword
  completion : Dword
  waits : List (Dword × Dword)
  deriving DecidableEq, Repr

/-- A launch whose record has been taken: a candidate until it is placed (R143-R148). -/
structure Launch where
  part : Nat
  tenant : Nat
  /-- its queue: the slot number from which it was taken, and the header's address -/
  slot : Nat
  hdr : Nat
  recVa : Nat
  prio : Nat
  serial : Bool
  lrec : LRec
  tree : Tree
  /-- the cycle at which it was first offered and did not fit, and that it holds lower priorities back (R145, R148) -/
  offeredAt : Option Nat := none
  starving : Bool := false
  placed : Bool := false
  x0 : Nat := 0
  y0 : Nat := 0
  blocksLeft : Nat := 0
  reds : List Reduction := []
  /-- the cycle of the save while its context is switched out: its deadlines stand still (R362) -/
  frozenAt : Option Nat := none
  deriving DecidableEq, Repr

/-- A hardware queue slot (R139, R140, R344). -/
structure QSlot where
  part : Nat
  tenant : Nat
  hdr : Nat
  base : Nat
  lsize : Nat
  prio : Nat
  nopre : Bool
  serial : Bool
  head : Nat
  tail : Nat
  mappedAt : Nat
  /-- the records from head up to tail, as they were read when a notify was accepted (R140) -/
  recs : List (List Byte) := []
  /-- the launch whose record stands at the head and has been taken -/
  cand : Option Nat := none
  deriving DecidableEq, Repr

/-- A queue on the pending list (R344). -/
structure PendQ where
  part : Nat
  tenant : Nat
  hdr : Nat
  deriving DecidableEq, Repr

/-- The error word of a context (R26). -/
structure ErrWord where
  ill : Bool := false
  dblf : Bool := false
  par : Bool := false
  novec : Bool := false
  firstv : Bool := false
  first16 : Bool := false
  firstmaj : BitVec 6 := 0
  deriving DecidableEq, Repr

/-- What is held of an error word: its bits before the cycle `cyc`, and those of the events of that cycle, whose first illegal
word has come from the core and warp slot `who` (R27). -/
structure ErrRec where
  old : ErrWord := {}
  cyc : Nat := 0
  recent : ErrWord := {}
  who : Nat := 0
  deriving DecidableEq, Repr

/-- A context descriptor as the hub reads it (R335, R352). -/
structure Ctx where
  desc : Nat
  s1root : Nat
  save : Nat
  slice : Nat
  tenant : Nat
  savecnt : Nat
  waymask : Nat
  rdcmask : Nat
  quota : Nat
  since : Nat
  deriving DecidableEq, Repr

/-- The stages of a context switch: none, or the hub has sent STOP, with the context that comes in, none for IDLE (R336, R339). -/
inductive Switch where
  | idle
  | stopping (into : Option Ctx)
  deriving DecidableEq, Repr

/-- An invalidation under way, or none (R368). -/
inductive HubInv where
  | va (va tenant : Nat)
  | tenant (tenant : Nat)
  | ipa (ipa : Nat)
  | all
  deriving DecidableEq, Repr

/-- What the hub keeps of a tenant that has been switched in: its masks and its quota (R352-R354). -/
structure Masks where
  tenant : Nat
  l2 : Nat := 0
  rdc : Nat := 0
  quota : Nat := 0
  deriving DecidableEq, Repr

/-- A partition: its share of the package and its register block (R349, R366). -/
structure Partition where
  dies : List Nat := []
  expBase : Nat := 0
  expGiB : Nat := 0
  hostBase : Nat := 0
  hostGiB : Nat := 0
  s2root : Dword := 0
  busy : Option HubInv := none
  ign : Bool := false
  nqbase : Dword := 0
  nqprod : BitVec 32 := 0
  nqlost : Nat := 0
  nqcons : BitVec 32 := 0
  epochs : BitVec 32 := 0
  epochGo : Bool := false
  /-- the clock notice of this epoch has been sent (R242) -/
  scNotice : Bool := false
  smaddr : Nat := 0
  smbusy : Bool := false
  smign : Bool := false
  smdone : BitVec 32 := 0
  smlast : Byte := 0
  cur : Option Ctx := none
  /-- the next context (none inside for IDLE) and NOW -/
  next : Option (Option Ctx × Bool) := none
  preloaded : Bool := false
  switch : Switch := .idle
  masks : List Masks := []
  errs : List (Nat × ErrRec) := []
  halted : Bool := false
  fatal : Bool := false
  irqs : Nat := 0
  /-- the entry of vector 0 in the MSI-X table that BAR 4 holds: its address, its data, its control word with the mask bit set
  (R363, R367; the layout and its reset value are those of PCI Express: PRESUMED, log 76) -/
  msix : List Byte := List.replicate 12 0 ++ [1, 0, 0, 0]
  /-- physical ranges registered for RoCEv2 by the partition's operating system: base, bytes (R365) -/
  registered : List (Nat × Nat) := []
  /-- NVMe commands passed to the partition's namespace (R364) -/
  nvme : List (List Byte) := []
  nspace : Nat := 0
  deriving DecidableEq, Repr

/-! ## Security and lifetime (chapter 23) -/

/-- A tenant bound to an ID, with its measurement TM (R381). -/
structure Binding where
  part : Nat
  tenant : Nat
  id : List Byte
  tm : BitVec 384
  deriving DecidableEq, Repr

/-- An entry of the counter area in flash, with its tag; it stands in one of the 64 sectors of the area, and a power loss may have torn
it (R371, R382). -/
structure CtrEnt where
  id : List Byte
  count : BitVec 63
  open_ : Bool
  seq : Nat
  tag : BitVec 256
  whole : Bool := true
  sec : Nat := 0
  deriving DecidableEq, Repr

/-- The lifetime counters (R390), each a list over its copies. -/
structure Lifetime where
  powerCycles : Nat := 0
  minutes : Nat := 0
  tempBins : List Nat := List.replicate 15 0
  droops : List Nat := List.replicate 8 0
  corrected : List Nat := List.replicate 40 0
  uncorrected : List Nat := List.replicate 8 0
  parity : List (Nat × Nat) := []
  retries : List Nat := List.replicate 10 0
  outOfService : List Nat := List.replicate 10 0
  alarms : List Nat := List.replicate 4 0
  imageFailures : Nat := 0
  recoveries : Nat := 0
  badTags : Nat := 0
  deriving DecidableEq, Repr

/-- A snapshot in the log area, with its CRC; a torn one ends at byte `cut` (R391). -/
structure Snapshot where
  seq : Nat
  counters : Lifetime
  crc : Nat
  cut : Option Nat := none
  deriving DecidableEq, Repr

/-- The map of the image of power-on: one partition of all eight dies (log 14). -/
def bootMap : PartMap := { shares := [{ dies := [0, 1, 2, 3, 4, 5, 6, 7] }] }

/-- The security engine, the boot flash and the alarm state (R371-R391). -/
structure Secure where
  mr : List (BitVec 384) := Config.bootMr0 :: Config.bootMr1 :: List.replicate 6 0
  bindings : List Binding := []
  counters : List CtrEnt := []
  /-- the sector of the counter area that is being filled -/
  ctrSec : Nat := 0
  /-- the certificates of the alias keys, issued at boot (R377) -/
  certs : List (List Byte) := aliasCerts Config.bootMr0
  fsvn : Nat := Config.bootSvn
  svn : Nat := Config.bootSvn
  recovery : Bool := false
  /-- the firmware image in flash passes R373; none is the image of power-on, some one that recovery has written -/
  imageGood : Bool := Config.goodImage
  image : Option (List Byte) := none
  received : List Byte := []
  transfer : Bool := false
  /-- the image area is being written (R375) -/
  writing : Bool := false
  /-- decapsulation key held per partition with the report's nonce, and the next key number (R380) -/
  kemKeys : List (Nat × Nat × List Byte) := []
  kemNext : Nat := 0
  queue : List Nat := []
  keysErased : Bool := false
  udsLocked : Bool := false
  raised : BitVec 4 := 0
  haltedBy : BitVec 4 := 0
  erased : Bool := false
  /-- the cycle of the last alarm (R389) -/
  alarmAt : Option Nat := none
  life : Lifetime := {}
  log : List Snapshot := []
  /-- the powered minutes at the last snapshot that the time has brought (R391) -/
  snapAt : Nat := 0
  /-- links out of service per edge, and consecutive retries per edge and link (R348) -/
  deadLinks : List (Nat × Nat) := []
  retryRun : List ((Nat × Nat) × Nat) := []
  powered : Bool := true
  deriving DecidableEq, Repr

/-! ## The model's own moves -/

/-- What one step does: issue the next instruction of the group on a port (fused where it qualifies, or with its
stores accepted and not yet performed), perform an event, drop a cached copy, or let an error strike. -/
inductive Act where
  | issue (core port : Nat) (fuse defer : Bool)
  | ev (i : Instr) (a : Arg)
  | evictL1 (core line : Nat)
  | evictRdc (die line : Nat)
  | evictL2 (line : Nat)
  | evictIc (core line : Nat)
  | evictTlb (core k : Nat)
  | evictWalk (cluster : Nat)
  /-- a cluster's translation cache loses one entry: its `k`-th final translation, or its `k`-th table entry (R221) -/
  | evictXlate (cluster : Nat) (table : Bool) (k : Nat)
  /-- of the outstanding load of a thread, part `k` takes its bytes before the others (R225, R226) -/
  | takePart (t : TRef) (base k : Nat)
  | parity (t : TRef) (reg : Nat)
  | parityK (core slot k : Nat)
  | poisonMem (pa : Nat)
  /-- a word of a line that an L1 or an RDC holds -/
  | poisonL1 (core pa : Nat)
  | poisonRdc (die pa : Nat)
  | poisonScr (b : BRef) (off : Nat)
  /-- the spill engine of a core saves, zeroes and loads the next scratchpad way (R340) -/
  | spillWay (core : Nat)
  /-- an entry of a queue, a word of an accumulator buffer, a register in a kneading bin (R334) -/
  | poisonQ (b : BRef) (q pos : Nat)
  | poisonAcc (core buf word : Nat)
  | poisonBin (core k i reg : Nat)
  /-- the peel moves the next elements of a command in flight, or one of the later ones before them (R283; log 23) -/
  | copyStep (core k n : Nat)
  | copyElem (core k n : Nat)
  | corrected (die cls : Nat)
  /-- the host writes its own memory: an address of the host window (R210) -/
  | hostMem (pa : Nat) (bytes : List Byte)
  /-- the partition's operating system registers a range of its memory for RoCEv2 (R365) -/
  | register (part base n : Nat)
  /-- the host reads bytes of a partition's register block through BAR 0 (R363) -/
  | bar0Read (part off n : Nat)
  /-- the host reads, or writes, bytes of the MSI-X table through BAR 4 (R363) -/
  | bar4Read (part off n : Nat)
  | bar4Write (part off : Nat) (bytes : List Byte)
  /-- the host sends the CXL mailbox a command other than those of R375 -/
  | mailboxOther (opcode : Nat)
  /-- the received image has been written to the boot flash, read back and compared (R375) -/
  | imageWritten
  | tick
  deriving DecidableEq, Repr

/-- A move of the agenda: the reference cycles that pass before it, and the act. -/
structure Move where
  dt : Nat
  act : Act
  deriving DecidableEq, Repr

/-- The whole machine. -/
structure State where
  /-- reference cycles since package reset (R13, R22) -/
  clock : Nat
  /-- the moves to come; when it is empty the step chooses one itself (log 1) -/
  agenda : List Move
  /-- the core and port whose group `exec` issues for (log 1) -/
  curCore : Nat
  curPort : Nat
  /-- the stores of this issue are accepted and performed later (log 1) -/
  defer : Bool
  /-- writes of threads to device registers, on their way to the hub in program order (R140, R212) -/
  hubq : List (Instr × Arg)
  /-- the argument of the event that `exec` performs (log 1) -/
  arg : Arg
  /-- a counter applied to the free values of Config (log 2) -/
  freeCtr : Nat
  cores : List (Nat × Core)
  warps : List ((Nat × Nat) × Warp)
  threads : List (TRef × Thread)
  blocks : List (BRef × Block)
  /-- remote-data cache and L2 lines; the die of an L2 line is its home (R207, R208) -/
  rdc : List ((Nat × Nat) × CLine)
  l2 : List CLine
  /-- slice floors: by die, slice and the partition whose lines have been evicted (R240, R350; log 75) -/
  floors : List ((Nat × Nat × Nat) × Stamp)
  /-- cluster translation caches (R221) -/
  ctlb : List (Nat × TlbEnt)
  cwalk : List (Nat × WalkEnt)
  /-- bytes of LPDDR-6, expander and host memory behind the L2 (R205) -/
  mem : List Host.Cell
  poison : List Nat
  parts : List (Nat × Partition)
  slots : List (Nat × QSlot)
  pending : List PendQ
  launches : List (Nat × Launch)
  nextLaunch : Nat
  /-- for each priority the queue slot at which its round robin begins (R145; log 54) -/
  rr : List (Nat × Nat)
  /-- rectangle commands that hold their member engines, by origin core and serial, and those that wait (R303) -/
  rectHeld : List (Nat × Nat × List Nat)
  rectReqs : List (Nat × Nat)
  /-- what the shadow banks hold of the next contexts, as they will stand on their cores, and what the images saved so far stand for
  (R337, R340) -/
  shadow : List SavedCore
  parked : List SavedCore
  saveSerial : Nat
  /-- the number of the next matrix command taken (R304-R306) -/
  mxSerial : Nat
  powerStep : Nat
  sec : Secure
  /-- the fuses and the installed memory of the part (R7, R205); no step changes them (log 19) -/
  hw : Hw
  /-- the guest L2 ways of the running map (R351) -/
  guestWays : List Nat
  /-- the edges of which the management endpoint has had a fatal notice, each with a partition that has stopped (R348) -/
  mgmt : List (Nat × Nat)
  /-- what the last read by an outside agent returned (R363, R375, R391) -/
  hostOut : List Byte
  deriving DecidableEq, Repr

/-- The partitions of a map at package reset, in the order of their numbers (R349). -/
def mapParts (m : PartMap) : List (Nat × Partition) :=
  m.shares.zipIdx.map fun x =>
    (x.2, { dies := x.1.dies, expBase := x.1.expBase, expGiB := x.1.expGiB, hostBase := x.1.hostBase, hostGiB := x.1.hostGiB, nspace := x.1.nspace })

/-- The machine right after package reset (R394): no context, no thread, no cached line; the ROM has verified the
firmware (R373). -/
def State.reset : State where
  clock := 0
  agenda := []
  curCore := 0
  curPort := 0
  defer := false
  hubq := []
  arg := {}
  freeCtr := 0
  cores := []
  warps := []
  threads := []
  blocks := []
  rdc := []
  l2 := []
  floors := []
  ctlb := []
  cwalk := []
  mem := []
  poison := []
  parts := mapParts bootMap
  slots := []
  pending := []
  launches := []
  nextLaunch := 0
  rr := []
  rectHeld := []
  rectReqs := []
  shadow := []
  parked := []
  saveSerial := 0
  mxSerial := 0
  powerStep := 0
  sec := {}
  hw := {}
  guestWays := bootMap.guestWays
  mgmt := []
  hostOut := []

end Sys2Proof.Machine
end

