-- ==== Sys2Proof/Machine/Frames.lean ====
section
/-! DEFINITION. Nested quantised geometry as exact integer arithmetic (spec 05): child boxes, leaves, ray blocks,
t-values, and what each geometry read makes of the bytes it loads. -/

namespace Sys2Proof.Machine

/-- The signed value of the low `bits` bits. -/
def signed (bits n : Nat) : Int :=
  let m := n % 2 ^ bits
  if m < 2 ^ (bits - 1) then m else (m : Int) - 2 ^ bits

/-- The natural number of the words, low word first. -/
def wordsValue : List Word → Nat
  | [] => 0
  | w :: ws => w.toNat + 2 ^ 32 * wordsValue ws

/-- The `k` low words of a number. -/
def toWords : Nat → Nat → List Word
  | 0, _ => []
  | k + 1, n => BitVec.ofNat 32 n :: toWords k (n / 2 ^ 32)

/-- The words of a list of bytes, low byte first. -/
def bytesWords (k : Nat) (bs : List Byte) : List Word := toWords k (leValue bs)

/-- The two's-complement residue of an integer. -/
def residue (bits : Nat) (x : Int) : Nat := (x % 2 ^ bits).toNat

/-- `n` bytes of a record, from an offset. -/
def field (bs : List Byte) (off n : Nat) : Nat := leValue ((bs.drop off).take n)
def sfield (bs : List Byte) (off n : Nat) : Int := signed (8 * n) (field bs off n)

def vec (l : List Int) (i : Nat) : Int := l.getD i 0
def vdot (a b : List Int) : Int := vec a 0 * vec b 0 + vec a 1 * vec b 1 + vec a 2 * vec b 2
def vsub (a b : List Int) : List Int := [vec a 0 - vec b 0, vec a 1 - vec b 1, vec a 2 - vec b 2]
def vadd (a b : List Int) : List Int := [vec a 0 + vec b 0, vec a 1 + vec b 1, vec a 2 + vec b 2]
def vscale (k : Int) (a : List Int) : List Int := [k * vec a 0, k * vec a 1, k * vec a 2]
def vcross (a b : List Int) : List Int :=
  [vec a 1 * vec b 2 - vec a 2 * vec b 1, vec a 2 * vec b 0 - vec a 0 * vec b 2, vec a 0 * vec b 1 - vec a 1 * vec b 0]

/-- The lexicographic order of vertices: x, then y, then z (R128). -/
def lexLt (a b : List Int) : Bool :=
  decide (vec a 0 < vec b 0) || (decide (vec a 0 = vec b 0) &&
    (decide (vec a 1 < vec b 1) || (decide (vec a 1 = vec b 1) && decide (vec a 2 < vec b 2))))

/-! ## Children (R116, R117) -/

/-- The minimum and maximum cells of an entry on each axis. -/
def childCells (e : Nat) : List (Nat × Nat) :=
  [(e % 16, e / 16 % 16), (e / 256 % 16, e / 4096 % 16), (e / 65536 % 16, e / 1048576 % 16)]

def childEmpty (e : Nat) : Bool := (childCells e).any fun c => decide (c.2 < c.1)

def childMin (e : Nat) : List Int := (childCells e).map fun c => (c.1 : Int)

/-- The frame exponent k of a child: the least with 2^k at or above its extent. -/
def childExp (e : Nat) : Nat :=
  let ext := (childCells e).foldl (fun m c => max m (c.2 - c.1 + 1)) 0
  if ext ≤ 1 then 0 else if ext ≤ 2 then 1 else if ext ≤ 4 then 2 else if ext ≤ 8 then 3 else 4

/-! ## Nodes and leaves (R118, R119) -/

def nodeCount (bs : List Byte) : Nat := field bs 0 4 / 256 % 16
def nodeMask (bs : List Byte) : Nat := field bs 0 4 / 65536 % 256
def nodeType (bs : List Byte) : Nat := field bs 0 4 % 16
def nodeBad (bs : List Byte) : Bool :=
  decide (nodeType bs ≠ 1) || decide (nodeCount bs = 0) || decide (nodeCount bs > 8) ||
    decide (nodeMask bs / 2 ^ nodeCount bs ≠ 0)
def nodeChild (bs : List Byte) (i : Nat) : Nat := field bs (8 + 3 * i) 3
/-- The child array address of a node at an address. -/
def nodeArray (node : Dword) (bs : List Byte) : Dword := node + BitVec.ofInt 64 (32 * sfield bs 4 4)

def leafVerts (bs : List Byte) : Nat := field bs 1 1
def leafTris (bs : List Byte) : Nat := field bs 2 1
def leafSkip (bs : List Byte) : Bool := decide (field bs 3 1 % 2 = 1)
def leafBad (bs : List Byte) : Bool :=
  decide (field bs 0 1 % 16 ≠ 2) || decide (leafVerts bs = 0) || decide (leafVerts bs > 24) || decide (leafTris bs > 16)
def leafVertex (bs : List Byte) (v : Nat) : List Int :=
  [16 * field bs (16 + 3 * v) 1, 16 * field bs (17 + 3 * v) 1, 16 * field bs (18 + 3 * v) 1]
/-- The vertex numbers of a triangle. -/
def leafTri (bs : List Byte) (t : Nat) : List Nat :=
  let w := field bs 88 24 / 2 ^ (12 * t)
  [w % 16 + 8 * (t / 8), w / 16 % 16 + 8 * (t / 8), w / 256 % 16 + 8 * (t / 8)]
/-- The primitive id of a triangle. -/
def leafId (bs : List Byte) (t : Nat) : Nat := (field bs 4 4 + t) % 2 ^ 32

/-! ## The ray block (R120, R122) -/

structure Ray where
  o : List Int
  d : List Int
  fw : Nat
  num : Nat
  id : Nat
  den : Nat
  deriving DecidableEq, Repr

def rayOf (y : List Word) : Ray :=
  { o := [signed 64 (wordsValue (y.take 2)), signed 64 (wordsValue ((y.drop 2).take 2)), signed 64 (wordsValue ((y.drop 4).take 2))],
    d := [(y.getD 6 0).toInt, (y.getD 7 0).toInt, (y.getD 8 0).toInt],
    fw := (y.getD 9 0).toNat, num := wordsValue ((y.drop 10).take 3), id := (y.getD 13 0).toNat,
    den := wordsValue ((y.drop 14).take 2) }

def Ray.block (r : Ray) : List Word :=
  (toWords 2 (residue 64 (vec r.o 0)) ++ toWords 2 (residue 64 (vec r.o 1)) ++ toWords 2 (residue 64 (vec r.o 2))) ++
  [BitVec.ofInt 32 (vec r.d 0), BitVec.ofInt 32 (vec r.d 1), BitVec.ofInt 32 (vec r.d 2), BitVec.ofNat 32 r.fw] ++
  (toWords 3 r.num ++ [BitVec.ofNat 32 r.id] ++ toWords 2 r.den)

/-- Bits of the frame word: HIT, OVR, DEG, BADN. -/
def fwHIT : Nat := 16
def fwOVR : Nat := 17
def fwDEG : Nat := 18
def fwBADN : Nat := 19

def Ray.E (r : Ray) : Nat := r.fw % 256
def Ray.Eh (r : Ray) : Nat := r.fw / 256 % 256
def setFw (fw bit : Nat) : Nat := if fw.testBit bit then fw else fw + 2 ^ bit
def Ray.dead (r : Ray) : Bool := r.fw.testBit fwOVR || r.fw.testBit fwDEG

/-- A t-value precedes another with their primitive ids as the second key (R121). -/
def tLess (n1 d1 e1 id1 n2 d2 e2 id2 : Nat) : Bool :=
  if d1 = 0 then decide (d2 = 0) && decide (id1 < id2)
  else if d2 = 0 then true
  else
    let l := n1 * (d2 * 2 ^ e2)
    let r := n2 * (d1 * 2 ^ e1)
    decide (l < r) || (decide (l = r) && decide (id1 < id2))

/-- The FP32 value of a t-value (R131). -/
def tcvt (num den eh : Nat) : Nat × Flags :=
  if den = 0 then (0x7F80_0000, 0) else if num = 0 then (0, 0) else arithF FP32 .rne false num (den * 2 ^ eh)

/-- TCMP (R131). -/
def tcmp (a b : Ray) : Word :=
  if tLess a.num a.den a.Eh a.id b.num b.den b.Eh b.id then 0xFFFF_FFFF
  else if tLess b.num b.den b.Eh b.id a.num a.den a.Eh a.id then 1 else 0

/-! ## Loading a ray (R125) -/

def rayLoad (bs : List Byte) : List Word :=
  let w := bytesWords 16 bs
  let deg := w.getD 6 0 = 0 ∧ w.getD 7 0 = 0 ∧ w.getD 8 0 = 0
  (w.take 9) ++ [BitVec.ofNat 32 (field bs 37 1 * 256 + (if deg then 2 ^ fwDEG else 0))] ++ ((w.drop 10).take 3) ++
    [0xFFFF_FFFF] ++ (w.drop 14)

/-! ## Boxes (R126) -/

/-- A rational with a positive denominator. -/
structure Rat' where
  n : Int
  d : Nat
  deriving DecidableEq, Repr

def Rat'.le (a b : Rat') : Bool := decide (a.n * b.d ≤ b.n * a.d)
def Rat'.max (a b : Rat') : Rat' := if a.le b then b else a
def Rat'.min (a b : Rat') : Rat' := if a.le b then a else b
/-- A quotient of integers with a nonzero divisor. -/
def ratDiv (a b : Int) (scale : Nat) : Rat' := if 0 < b then ⟨a, b.natAbs * scale⟩ else ⟨-a, b.natAbs * scale⟩

/-- One axis of the slab test: the interval narrowed, or a miss. The upper end is none for +∞. -/
def slab (o d : Int) (cell : Nat × Nat) (iv : Option (Rat' × Option Rat')) : Option (Rat' × Option Rat') :=
  match iv with
  | none => none
  | some (tin, tout) =>
    let lo : Int := 256 * cell.1 * 2 ^ 20
    let hi : Int := 256 * (cell.2 + 1) * 2 ^ 20
    if d = 0 then (if o < lo ∨ o > hi then none else some (tin, tout))
    else
      let t1 := ratDiv (lo - o) d (2 ^ 20)
      let t2 := ratDiv (hi - o) d (2 ^ 20)
      let far := t1.max t2
      some (tin.max (t1.min t2), some (match tout with | none => far | some t => t.min far))

/-- The key of a child that is hit. -/
def childKey (r : Ray) (e : Nat) : Option Nat :=
  if childEmpty e then none
  else
    let tmax : Option Rat' := if r.den = 0 then none else some ⟨r.num * 2 ^ r.E, r.den * 2 ^ r.Eh⟩
    let cs := childCells e
    let iv := slab (vec r.o 0) (vec r.d 0) (cs.getD 0 (0, 0)) (some (⟨0, 1⟩, tmax))
    let iv := slab (vec r.o 1) (vec r.d 1) (cs.getD 1 (0, 0)) iv
    let iv := slab (vec r.o 2) (vec r.d 2) (cs.getD 2 (0, 0)) iv
    match iv with
    | none => none
    | some (tin, tout) =>
      let hit := match tout with | none => true | some t => tin.le t
      if hit then some (arithF FP32 .rz false tin.n.toNat tin.d).1 else none

/-- Insertion by (key, index): the list is in increasing key, equal keys in index order. -/
def rankIn (x : Nat × Nat) : List (Nat × Nat) → List (Nat × Nat)
  | [] => [x]
  | y :: r => if x.1 < y.1 then x :: y :: r else y :: rankIn x r

/-- The slots of the order word. -/
def orderBits : Nat → List (Nat × Nat) → Nat
  | _, [] => 0
  | j, x :: r => x.2 * 2 ^ (8 + 3 * j) + orderBits (j + 1) r

/-- BOXT (R126). -/
def boxTest (y : List Word) (node : Dword) (bs : List Byte) : List Word :=
  let r := rayOf y
  let hits : List (Nat × Nat) :=
    if nodeBad bs ∨ r.dead then []
    else (List.range (nodeCount bs)).foldl (fun acc i =>
      match childKey r (nodeChild bs i) with | none => acc | some k => rankIn (k, i) acc) []
  let mask := hits.foldl (fun m x => m + 2 ^ x.2) 0
  let a := nodeArray node bs
  [BitVec.ofNat 32 (mask + orderBits 0 hits),
   BitVec.ofNat 32 (nodeMask bs + nodeCount bs * 2 ^ 8 + nodeType bs * 2 ^ 12 + (if nodeBad bs then 2 ^ 31 else 0)),
   loWord a, hiWord a]

/-- DESC and ASC (R127). -/
def moveFrame (down : Bool) (y : List Word) (i : Nat) (bs : List Byte) : List Word :=
  let r := rayOf y
  if r.dead then y
  else if nodeBad bs ∨ i ≥ nodeCount bs ∨ childEmpty (nodeChild bs i) then
    ({ r with fw := setFw r.fw fwBADN } : Ray).block
  else
    let e := nodeChild bs i
    let s := 4 - childExp e
    let m := vscale (256 * 2 ^ 20) (childMin e)
    let o : List Int :=
      if down then vscale (2 ^ s) (vsub r.o m)
      else vadd [vec r.o 0 / 2 ^ s, vec r.o 1 / 2 ^ s, vec r.o 2 / 2 ^ s] m
    let out := o.any fun x => decide (x < -(2 ^ 63)) || decide (x > 2 ^ 63 - 1)
    if out ∨ (if down then r.E + s > 235 else r.E < s) then ({ r with fw := setFw r.fw fwOVR } : Ray).block
    else ({ r with o := o, fw := if down then r.fw + s else r.fw - s } : Ray).block

/-! ## Triangles (R128) -/

/-- The moment vector of a directed edge: W(a, b) = d · K. -/
def edgeK (o a b : List Int) : List Int := vsub (vscale (2 ^ 20) (vcross a b)) (vcross o (vsub b a))

def triVerts (bs : List Byte) (t : Nat) : List (List Int) := (leafTri bs t).map (leafVertex bs)
def triNamed (bs : List Byte) (t : Nat) : Bool := (leafTri bs t).all fun v => decide (v < leafVerts bs)

/-- The decision for one edge from W, the sign of Dn and the order of its vertices. -/
def inside (dn w : Int) (lex : Bool) : Bool := decide (dn.sign * w > 0) || (decide (w = 0) && lex)

/-- One triangle: the parameter of a hit, as numerator and positive denominator. -/
def triHit (o d : List Int) (v0 v1 v2 : List Int) : Option (Nat × Nat) :=
  if v0 = v1 ∨ v1 = v2 ∨ v2 = v0 then none
  else
    let n := vcross (vsub v1 v0) (vsub v2 v0)
    let dn := vdot n d
    if dn = 0 then none
    else
      let ok (a b : List Int) : Bool := inside dn (vdot d (edgeK o a b)) (lexLt a b)
      if ok v0 v1 && ok v1 v2 && ok v2 v0 then
        let num := vdot n (vsub (vscale (2 ^ 20) v0) o)
        let num := if dn < 0 then -num else num
        if num < 0 then none else some (num.toNat, dn.natAbs)
      else none

/-- The hit recorded when it precedes the stored one. An E above 235, which only a program can write, makes E + 20 exceed the 8 bits of Eh:
it is compared whole and stored modulo 256 (DESIGN CHOICE, log entry 66). -/
def recordHit (r : Ray) (num den id : Nat) : Ray :=
  if tLess num den (r.E + 20) id r.num r.den r.Eh r.id then
    let fw := setFw (r.fw - r.Eh * 256 + (r.E + 20) % 256 * 256) fwHIT
    { r with num := num, den := den, id := id, fw := fw }
  else r

/-- TRIT (R128). -/
def triTest (y : List Word) (bs : List Byte) : List Word :=
  let r := rayOf y
  if r.dead then y
  else if leafBad bs then ({ r with fw := setFw r.fw fwBADN } : Ray).block
  else if leafSkip bs then y
  else
    let r := (List.range (leafTris bs)).foldl (fun (r : Ray) t =>
      if !triNamed bs t then { r with fw := setFw r.fw fwBADN }
      else
        let v := triVerts bs t
        match triHit r.o r.d (v.getD 0 []) (v.getD 1 []) (v.getD 2 []) with
        | none => r
        | some (num, den) => recordHit r num den (leafId bs t)) r
    r.block

/-! ## Rasterisation (R132, R133) -/

/-- What RASTS computes: the status, the bytes of offset 12 to 15 and 40 to 255, and what the record does not hold. A malformed leaf
gives DEGT, and a triangle number past a good leaf's count IDX alone (DESIGN CHOICE, log entry 67). -/
def rastSetup (y : List Word) (leaf rec_ : List Byte) : Nat × List Byte × List Byte × Rast :=
  let r := rayOf y
  let t := field rec_ 8 4 % 16
  let v := triVerts leaf t
  let v0 := v.getD 0 []
  let v1 := v.getD 1 []
  let v2 := v.getD 2 []
  let n := vcross (vsub v1 v0) (vsub v2 v0)
  let idx := decide (t ≥ leafTris leaf) || leafSkip leaf
  let degt := leafBad leaf || (decide (t < leafTris leaf) &&
    (!triNamed leaf t || decide (v0 = v1) || decide (v1 = v2) || decide (v2 = v0) || decide (n = [0, 0, 0])))
  let status : Nat := if r.dead then 2 else (if degt then 1 else 0) + (if idx then 4 else 0)
  let dX := [sfield rec_ 16 4, sfield rec_ 20 4, sfield rec_ 24 4]
  let dY := [sfield rec_ 28 4, sfield rec_ 32 4, sfield rec_ 36 4]
  let three (bits : Nat) (k : List Int) : List Byte :=
    let c (d : List Int) : List Byte := leBytes (bits / 8) (residue bits (if status = 0 then vdot d k else 0))
    c r.d ++ c dX ++ c dY
  let late := leBytes 4 (leafId leaf t) ++ leBytes 4 r.fw ++ leBytes 8 r.den ++ three 64 n ++
    three 128 (edgeK r.o v0 v1) ++ three 128 (edgeK r.o v1 v2) ++ three 128 (edgeK r.o v2 v0) ++ leBytes 16 r.num ++
    leBytes 16 (residue 128 (if status = 0 then vdot n (vsub (vscale (2 ^ 20) v0) r.o) else 0))
  (status, leBytes 4 status, late, ⟨r.d, dX, dY, [lexLt v0 v1, lexLt v1 v2, lexLt v2 v0]⟩)

/-- The FP32 root parameter of a pixel when it is covered, with its flags. -/
def rastPixel (bs : List Byte) (aux : Rast) (px py : Int) : Option (Nat × Flags) :=
  let lin (off n : Nat) : Int := sfield bs off n + px * sfield bs (off + n) n + py * sfield bs (off + 2 * n) n
  let d := vadd aux.d0 (vadd (vscale px aux.dX) (vscale py aux.dY))
  if (d.any fun x => decide (x < -(2 ^ 31)) || decide (x > 2 ^ 31 - 1)) ∨ d = [0, 0, 0] then none
  else
    let dn := lin 56 8
    if dn = 0 then none
    else if inside dn (lin 80 16) (aux.lex.getD 0 false) && inside dn (lin 128 16) (aux.lex.getD 1 false) &&
        inside dn (lin 176 16) (aux.lex.getD 2 false) then
      let num := sfield bs 240 16
      let num := if dn < 0 then -num else num
      let fw := field bs 44 4
      let e := fw % 256 + 20
      if num < 0 then none
      else if tLess num.toNat dn.natAbs e (field bs 40 4) (field bs 224 12) (field bs 48 8) (fw / 256 % 256) 0xFFFF_FFFF then
        some (tcvt num.toNat dn.natAbs (e % 256))
      else none
    else none

/-- RASTT (R133): coverage, and the FP32 parameter of the thread's own pixel. -/
def rastTile (bs : List Byte) (aux : Rast) (px0 py0 lane : Nat) : List Word × Flags :=
  if field bs 12 4 ≠ 0 then ([0, 0x7F80_0000], 0)
  else
    let pix (i : Nat) := rastPixel bs aux (px0 + i % 8 : Nat) (py0 + i / 8 : Nat)
    let mask := (List.range 32).foldl (fun m i => if (pix i).isSome then m + 2 ^ i else m) 0
    match pix lane with
    | none => ([BitVec.ofNat 32 mask, 0x7F80_0000], 0)
    | some (v, fl) => ([BitVec.ofNat 32 mask, BitVec.ofNat 32 v], fl)

/-! ## REFIT and VTXQ (R135, R136) -/

/-- One axis of REFIT: cells, OVF, EMPTY. -/
def refitAxis (w : Word) : Nat × Nat × Bool × Bool :=
  let lo := signed 16 w.toNat
  let hi := signed 16 (w.toNat / 2 ^ 16)
  let lo' := (min (max lo 0) 4096).toNat
  let hi' := (min (max hi 0) 4096).toNat
  let mn := min (lo' / 256) 15
  -- ⌈hi'/256⌉ − 1 is at least −1, and the maximum with mn is not negative
  let mx := max mn ((hi' + 255) / 256 - 1)
  (mn, mx, decide ((lo' : Int) ≠ lo ∨ (hi' : Int) ≠ hi), decide (lo > hi))

/-- The word of REFIT; with EMPTY its k is that of the computed cells and not that of the empty entry (DESIGN CHOICE, log entry 69). -/
def refit (x y z : Word) : Word :=
  let a := refitAxis x
  let b := refitAxis y
  let c := refitAxis z
  let e := a.1 + a.2.1 * 16 + b.1 * 2 ^ 8 + b.2.1 * 2 ^ 12 + c.1 * 2 ^ 16 + c.2.1 * 2 ^ 20
  let ovf := a.2.2.1 || b.2.2.1 || c.2.2.1
  let empty := a.2.2.2 || b.2.2.2 || c.2.2.2
  BitVec.ofNat 32 ((if empty then 1 else e) + childExp e * 2 ^ 24 + (if ovf then 2 ^ 28 else 0) + (if empty then 2 ^ 29 else 0))

/-- One axis of VTXQ: the byte, INEX, FITX. -/
def vtxqAxis (w : Word) : Nat × Bool × Bool :=
  let v := w.toInt
  -- frame units with 8 fractional bits: a step of the leaf grid is 16 units
  let q := (roundInt .rne (decide (v < 0)) v.natAbs 4096).1
  let c := (min (max q 0) 255).toNat
  (c, decide (v % 4096 ≠ 0), decide ((c : Int) ≠ q))

def vtxq (x y z : Word) : Word :=
  let a := vtxqAxis x
  let b := vtxqAxis y
  let c := vtxqAxis z
  BitVec.ofNat 32 (a.1 + b.1 * 2 ^ 8 + c.1 * 2 ^ 16 + (if a.2.1 || b.2.1 || c.2.1 then 2 ^ 24 else 0) +
    (if a.2.2 || b.2.2 || c.2.2 then 2 ^ 25 else 0))

/-! ## What a load makes of its bytes -/

/-- The values of the destination group of a load, with the flags that they deliver (R125-R133). -/
def Finish.run (f : Finish) (n : Nat) (bs : List Byte) : List Word × Flags :=
  match f with
  | .raw => (bytesWords n bs, 0)
  | .home => (bytesWords n bs, 0)
  | .rayld => (rayLoad bs, 0)
  | .boxt y node => (boxTest y node bs, 0)
  | .desc y i => (moveFrame true y i.toNat bs, 0)
  | .asc y i => (moveFrame false y i.toNat bs, 0)
  | .trit y => (triTest y bs, 0)
  | .rastt px py lane aux => rastTile bs aux px py lane

end Sys2Proof.Machine
end

