-- ==== Sys2Proof/Machine/Access.lean ====
section
/-! DEFINITION. Keyed lists, memory in its canonical form, and the accessors through which every part of the state is
read and written. -/

namespace Sys2Proof.Machine

/-! ## Keyed lists -/

/-- The record of a key. -/
def tget {κ α : Type} [DecidableEq κ] : List (κ × α) → κ → Option α
  | [], _ => none
  | (k, v) :: r, x => if k = x then some v else tget r x

/-- Sets the record of a key, in its place or at the end. -/
def tput {κ α : Type} [DecidableEq κ] : List (κ × α) → κ → α → List (κ × α)
  | [], x, v => [(x, v)]
  | (k, w) :: r, x, v => if k = x then (k, v) :: r else (k, w) :: tput r x v

/-- Removes the record of a key. -/
def tdel {κ α : Type} [DecidableEq κ] : List (κ × α) → κ → List (κ × α)
  | [], _ => []
  | (k, w) :: r, x => if k = x then tdel r x else (k, w) :: tdel r x

/-- The element at a position, replaced. -/
def lset {α : Type} : List α → Nat → α → List α
  | [], _, _ => []
  | _ :: r, 0, v => v :: r
  | x :: r, n + 1, v => x :: lset r n v

/-- The element at a position, removed. -/
def ldrop {α : Type} : List α → Nat → List α
  | [], _ => []
  | _ :: r, 0 => r
  | x :: r, n + 1 => x :: ldrop r n

/-- Insertion into a list ordered by a key. -/
def insertBy {α : Type} (key : α → Nat) (x : α) : List α → List α
  | [] => [x]
  | y :: r => if key x < key y then x :: y :: r else y :: insertBy key x r

/-- A list ordered by a key, equal keys in their old order. -/
def sortBy {α : Type} (key : α → Nat) (l : List α) : List α :=
  l.foldl (fun acc x => insertBy key x acc) []

/-- An element put at the end of a list that lacks it. -/
def addNew {α : Type} [DecidableEq α] (l : List α) (x : α) : List α := if x ∈ l then l else l ++ [x]

/-- A number added to an increasing list without repeats. -/
def addNat : List Nat → Nat → List Nat
  | [], x => [x]
  | y :: r, x => if x < y then x :: y :: r else if x = y then y :: r else y :: addNat r x

/-- The least natural number below `n` that satisfies `p`, if any, from `i` on. -/
def firstFrom (p : Nat → Bool) : Nat → Nat → Option Nat
  | 0, _ => none
  | n + 1, i => if p i then some i else firstFrom p n (i + 1)

/-! ## Memory in canonical form -/

/-- The byte at an address; an address that is not listed reads as zero (log 3). -/
def cellGet : List Host.Cell → Nat → Byte
  | [], _ => 0
  | (k, v) :: r, a => if a = k then v else if a < k then 0 else cellGet r a

/-- A byte written, keeping the addresses rising and listing no zero. -/
def cellSet : List Host.Cell → Nat → Byte → List Host.Cell
  | [], a, v => if v = 0 then [] else [(a, v)]
  | (k, w) :: r, a, v =>
    if a < k then (if v = 0 then (k, w) :: r else (a, v) :: (k, w) :: r)
    else if a = k then (if v = 0 then r else (a, v) :: r)
    else (k, w) :: cellSet r a v

/-- Every address is above a bound, the addresses rise strictly, and no byte listed is zero. -/
def cellsAbove : Option Nat → List Host.Cell → Bool
  | _, [] => true
  | lo, (k, v) :: r => (match lo with | none => true | some b => decide (b < k)) && decide (v ≠ 0) && cellsAbove (some k) r

/-- The canonical form of a memory. -/
def Memory.wf (m : List Host.Cell) : Bool := cellsAbove none m

/-- The canonical form of a list of cells: a later cell of an address replaces an earlier one. -/
def Memory.norm (l : List Host.Cell) : List Host.Cell := l.foldl (fun m x => cellSet m x.1 x.2) []

/-- `n` bytes from an address. -/
def cellRead (m : List Host.Cell) : Nat → Nat → List Byte
  | _, 0 => []
  | a, n + 1 => cellGet m a :: cellRead m (a + 1) n

/-- Bytes written from an address on. -/
def cellWrite (m : List Host.Cell) : Nat → List Byte → List Host.Cell
  | _, [] => m
  | a, v :: vs => cellWrite (cellSet m a v) (a + 1) vs

/-! ## Cores, warps, threads and blocks -/

/-- A core; one that has no record is at its reset state. -/
def State.core (s : State) (c : Nat) : Core := (tget s.cores c).getD {}
def State.setCore (s : State) (c : Nat) (x : Core) : State := { s with cores := tput s.cores c x }
def State.modCore (s : State) (c : Nat) (f : Core → Core) : State := s.setCore c (f (s.core c))

def State.thread? (s : State) (t : TRef) : Option Thread := tget s.threads t
/-- A thread; a position that holds none reads as a thread at its start. -/
def State.thread (s : State) (t : TRef) : Thread := (tget s.threads t).getD {}
def State.setThread (s : State) (t : TRef) (x : Thread) : State := { s with threads := tput s.threads t x }
/-- Changes the thread at a position; one that holds none stays empty. -/
def State.modThread (s : State) (t : TRef) (f : Thread → Thread) : State :=
  match s.thread? t with
  | none => s
  | some x => s.setThread t (f x)
def State.dropThread (s : State) (t : TRef) : State := { s with threads := tdel s.threads t }

/-- Every thread changed by a function of its position. -/
def State.mapThreads (s : State) (f : TRef → Thread → Thread) : State :=
  { s with threads := s.threads.map fun x => (x.1, f x.1 x.2) }

def State.warp? (s : State) (c sl : Nat) : Option Warp := tget s.warps (c, sl)
def State.warp (s : State) (c sl : Nat) : Warp := (tget s.warps (c, sl)).getD { blk := ⟨0, 0⟩, role := 0 }
def State.setWarp (s : State) (c sl : Nat) (x : Warp) : State := { s with warps := tput s.warps (c, sl) x }
/-- Changes the warp in a slot; an empty slot stays empty. -/
def State.modWarp (s : State) (c sl : Nat) (f : Warp → Warp) : State :=
  match s.warp? c sl with
  | none => s
  | some x => s.setWarp c sl (f x)

def State.block? (s : State) (b : BRef) : Option Block := tget s.blocks b
/-- A block that is not resident. -/
def noBlock : Block :=
  { part := 0, tenant := 0, core := 0, cx := 0, cy := 0, rw := 1, rh := 1, slots := [], nwarps := 0, budgets := [],
    scratch := 0, reserve := 0, pways := [], bars := [] }
def State.block (s : State) (b : BRef) : Block := (tget s.blocks b).getD noBlock
def State.setBlock (s : State) (b : BRef) (x : Block) : State := { s with blocks := tput s.blocks b x }
/-- Changes a resident block; one that is not resident stays absent. -/
def State.modBlock (s : State) (b : BRef) (f : Block → Block) : State :=
  match s.block? b with
  | none => s
  | some x => s.setBlock b (f x)

/-- The context of a tenant that a partition runs: the current one, or the one that a switch brings in (R336, R340). -/
def Partition.ctx (q : Partition) (tenant : Nat) : Option Ctx :=
  match q.cur.filter fun c => decide (c.tenant = tenant) with
  | some c => some c
  | none => match q.switch with | .stopping into => into.filter fun c => decide (c.tenant = tenant) | .idle => none

/-- What the hub keeps of a tenant. -/
def Partition.masksOf (q : Partition) (tenant : Nat) : Option Masks := q.masks.find? fun m => m.tenant = tenant

def State.partn (s : State) (p : Nat) : Partition := (tget s.parts p).getD {}
def State.setPart (s : State) (p : Nat) (x : Partition) : State := { s with parts := tput s.parts p x }
def State.modPart (s : State) (p : Nat) (f : Partition → Partition) : State := s.setPart p (f (s.partn p))

def State.launch? (s : State) (l : Nat) : Option Launch := tget s.launches l
def State.setLaunch (s : State) (l : Nat) (x : Launch) : State := { s with launches := tput s.launches l x }
def State.modLaunch (s : State) (l : Nat) (f : Launch → Launch) : State :=
  match s.launch? l with
  | none => s
  | some x => s.setLaunch l (f x)

def State.modSec (s : State) (f : Secure → Secure) : State := { s with sec := f s.sec }

/-- The threads in a warp slot, in lane order (R149). -/
def State.warpThreads (s : State) (c sl : Nat) : List (TRef × Thread) :=
  sortBy (fun x => x.1.lane) (s.threads.filter fun x => x.1.core = c ∧ x.1.slot = sl)

/-- The block of a thread. -/
def State.blkOf (s : State) (t : TRef) : BRef := (s.warp t.core t.slot).blk

/-- A thread that is neither Exited nor Halted (R32). -/
def Thread.live (th : Thread) : Bool := decide (th.st ≠ .exited) && decide (th.st ≠ .halted)

/-- The issue group of a port. -/
def Core.port (c : Core) (p : Nat) : List TRef := if p = 0 then c.p0 else c.p1
def Core.setPort (c : Core) (p : Nat) (g : List TRef) : Core := if p = 0 then { c with p0 := g } else { c with p1 := g }

/-- The group that `exec` issues for. -/
def State.group (s : State) : List TRef := (s.core s.curCore).port s.curPort

/-! ## The package (R1, R4, R30, R205) -/

/-- The logical coordinates of a core number 64*y + x (R1, R239). -/
def coreX (c : Nat) : Nat := c % 64
def coreY (c : Nat) : Nat := c / 64
/-- The die of a core (R1). -/
def dieOf (c : Nat) : Nat := (coreY c / 16) * 4 + coreX c / 16
/-- The cluster of a core: the aligned 4 x 4 block (R4). -/
def clusterOf (c : Nat) : Nat := (coreY c / 4) * 16 + coreX c / 4
/-- The core at a peer index of the cluster of a core (R30). -/
def peerCore (c i : Nat) : Nat := 64 * ((coreY c / 4) * 4 + i / 4) + (coreX c / 4) * 4 + i % 4
/-- A core row that is active in this part (R7, R8). -/
def State.coreActive (s : State) (c : Nat) : Bool := decide (coreY c % 16 < s.hw.rows)

/-- The partition that holds a die. -/
def State.partOfDie (s : State) (d : Nat) : Option Nat :=
  (s.parts.find? fun x => x.2.dies.contains d).map Prod.fst

/-- The partition of a core. -/
def State.partOf (s : State) (c : Nat) : Nat := (s.partOfDie (dieOf c)).getD 0

/-- The cores of a partition, in increasing number; the index in this list is the partition index (R335). -/
def State.coresOf (s : State) (p : Nat) : List Nat :=
  (List.range 2048).filter fun c => (s.partn p).dies.contains (dieOf c) && s.coreActive c

/-- A fresh value that the spec leaves open, and the counter moved on (log 2). -/
def State.fresh (s : State) : Dword × State := (Config.free64 s.freeCtr, { s with freeCtr := s.freeCtr + 1 })

/-! ## Saturating and modular counts -/

def satAdd (max a b : Nat) : Nat := if a + b > max then max else a + b
def sat8 (a b : Nat) : Nat := satAdd 255 a b
def sat32 (a b : Nat) : Nat := satAdd 0xFFFF_FFFF a b

end Sys2Proof.Machine
end

