-- ==== Sys2Proof/Machine/Memory.lean ====
section
/-! DEFINITION. Global memory and its three caches (spec 12 R205-R212, R220, 13 R240, 20 R334, 22 R351-R355), and the
scratchpads (11 R191-R203). Every function on a cache keeps valid and dirty per byte. -/

namespace Sys2Proof.Machine

/-- Whose access it is: the partition and the tenant (R206, R354). -/
structure Own where
  part : Nat
  tenant : Nat
  deriving DecidableEq, Repr

/-! ## The physical map -/

/-- The home die of a physical address that memory can hold (R205). -/
def homeOf (pa : Nat) : Nat := if pa < 0x80_0000_0000 then pa / 2 ^ 36 else pa / 4096 % 8

/-- An address of the host memory window (R205). -/
def inHostWindow (pa : Nat) : Bool := decide (0x800_0000_0000 ≤ pa) && decide (pa < 0x1000_0000_0000)

/-- An address of the device registers (R205). -/
def inDevice (pa : Nat) : Bool := decide (0xF000_0000_0000 ≤ pa)

/-- A physical address that the space of a partition holds (R205, R206). -/
def present (s : State) (part pa : Nat) : Bool :=
  let p := s.partn part
  if pa < 0x80_0000_0000 then decide (pa % 2 ^ 36 < s.hw.dieBytes) && p.dies.contains (pa / 2 ^ 36)
  else if 0x400_0000_0000 ≤ pa ∧ pa < 0x800_0000_0000 then
    decide (p.expBase ≤ pa) && decide (pa < p.expBase + p.expGiB * 2 ^ 30) && decide (pa < 0x400_0000_0000 + s.hw.expGiB * 2 ^ 30)
  else if 0x800_0000_0000 ≤ pa ∧ pa < 0x1000_0000_0000 then
    decide (p.hostBase ≤ pa) && decide (pa < p.hostBase + p.hostGiB * 2 ^ 30)
  else inDevice pa && decide (pa < 2 ^ 48)

/-- A range of bytes that the space of a partition holds as memory (R379). -/
def presentRange (s : State) (part pa n : Nat) : Bool :=
  (n = 0) || (present s part pa && present s part (pa + n - 1) && !inDevice pa &&
    decide ((homeOf pa = homeOf (pa + n - 1)) ∨ 0x80_0000_0000 ≤ pa ∨ (s.partn part).dies.contains (homeOf (pa + n - 1))))

/-- The slice of a line address at its home (R208). -/
def sliceOf (ln : Nat) : Nat := (ln % 128) ^^^ (ln / 128 % 128) ^^^ (ln / 16384 % 128)

/-! ## Lines -/

def lget (l : CLine) (off : Nat) : Option LByte := l.bytes.find? fun b => b.off = off

/-- Sets one byte of a line. -/
def lput : List LByte → LByte → List LByte
  | [], x => [x]
  | b :: r, x => if b.off = x.off then x :: r else b :: lput r x

/-- Bytes written into a line become valid and dirty (R207). -/
def lwrite (bs : List LByte) : Nat → List Byte → List LByte
  | _, [] => bs
  | off, v :: vs => lwrite (lput bs ⟨off, v, true⟩) (off + 1) vs

/-- A fill: only the bytes that are not valid take the fetched value (R207). -/
def lfill (bs : List LByte) : Nat → List Byte → List LByte
  | _, [] => bs
  | off, v :: vs =>
    if bs.any (fun b => b.off = off) then lfill bs (off + 1) vs else lfill (bs ++ [⟨off, v, false⟩]) (off + 1) vs

/-- The bytes `off` to `off + n - 1` are all valid. -/
def lvalid (bs : List LByte) (off n : Nat) : Bool :=
  (List.range' off n).all fun o => bs.any fun b => b.off = o

/-- The line with its dirty bits cleared. -/
def CLine.cleaned (l : CLine) : CLine := { l with bytes := l.bytes.map fun b => { b with dirty := false } }

/-- A new line that holds no byte yet. -/
def CLine.fresh (o : Own) (ln w age : Nat) (cmp : Bool) (st : Stamp) : CLine :=
  { line := ln, part := o.part, tenant := o.tenant, way := w, age := age, cmp := cmp, stamp := st, bytes := [], poison := [] }

/-- Where a new line goes: a free way of those allowed, else the least recently used line of them (R208, R354). -/
def placeIn (inSet : List CLine) (ways : List Nat) : Option (Nat × Option CLine) :=
  match ways.find? (fun w => inSet.all fun l => l.way ≠ w) with
  | some w => some (w, none)
  | none =>
    match sortBy CLine.age (inSet.filter fun l => ways.contains l.way) with
    | [] => none
    | v :: _ => some (v.way, some v)

/-- The ways of a mask of `n` ways. -/
def maskWays (n mask : Nat) : List Nat := (List.range n).filter fun i => mask.testBit i

/-! ## Home: L2 over memory -/

/-- The L2 set of a line: its home, its slice and an index (the structure affects timing only, R208; log 4). -/
def l2Set (ln : Nat) : Nat := (homeOf (ln * 128) * 128 + sliceOf ln) * 512 + ln / 128 % 512

def l2find (s : State) (ln : Nat) : Option CLine := s.l2.find? fun l => l.line = ln

/-- Replaces or adds a line. -/
def linePut : List CLine → CLine → List CLine
  | [], x => [x]
  | l :: r, x => if l.line = x.line then x :: r else l :: linePut r x

/-- The bytes of a line that are dirty, written to memory (R207). -/
def memMerge (m : List Host.Cell) (base : Nat) : List LByte → List Host.Cell
  | [] => m
  | b :: bs => memMerge (if b.dirty then cellSet m (base + b.off) b.val else m) base bs

/-- Writes an L2 line's dirty bytes back to memory; the line stays. -/
def l2Clean (s : State) (ln : Nat) : State :=
  match l2find s ln with
  | none => s
  | some l => { s with mem := memMerge s.mem (ln * 128) l.bytes, l2 := linePut s.l2 l.cleaned }

/-- The later of two stamps: by clock, then by core (R240). -/
def Stamp.max (a b : Stamp) : Stamp := if a.clk < b.clk ∨ (a.clk = b.clk ∧ a.core < b.core) then b else a
def Stamp.lt (a b : Stamp) : Bool := decide (a.clk < b.clk ∨ (a.clk = b.clk ∧ a.core < b.core))

/-- The floor that a slice keeps for the lines of a partition (R240). It is one for each partition that it serves, so that neither the
evictions nor the epoch of another are seen in it (R350; DEDUCED, log 75). -/
def floorOf (s : State) (p ln : Nat) : Stamp := (tget s.floors (homeOf (ln * 128), sliceOf ln, p)).getD {}

/-- Evicts an L2 line: its dirty bytes go to memory and the slice's floor takes its stamp (R207, R240). -/
def l2Evict (s : State) (ln : Nat) : State :=
  match l2find s ln with
  | none => s
  | some l =>
    { s with mem := memMerge s.mem (ln * 128) l.bytes, l2 := s.l2.filter (fun x => x.line ≠ ln),
             floors := tput s.floors (homeOf (ln * 128), sliceOf ln, l.part) ((floorOf s l.part ln).max l.stamp) }

/-- The L2 ways a tenant may fill: its mask on a die of its partition, the guest ways elsewhere (R351, R352). -/
def l2Ways (s : State) (o : Own) (ln : Nat) : List Nat :=
  if (s.partn o.part).dies.contains (homeOf (ln * 128)) then
    match (s.partn o.part).masksOf o.tenant with
    | some m => maskWays 16 m.l2
    | none => (List.range 16).filter fun w => !s.guestWays.contains w
  else (List.range 16).filter s.guestWays.contains

/-- The quota of a tenant in each slice; 0 is none. It is held with its masks (R352, R354). -/
def quotaOf (s : State) (o : Own) : Nat := (((s.partn o.part).masksOf o.tenant).map Masks.quota).getD 0

/-- Gives a line a place in its home L2 if it has none and one is permitted (R354, R355); the new line holds no byte. -/
def l2Alloc (s : State) (o : Own) (ln : Nat) (cmp : Bool) : State :=
  match l2find s ln with
  | some l =>
    -- a hit outside the tenant's own ways updates no age (R355)
    if (l2Ways s o ln).contains l.way then { s with l2 := linePut s.l2 { l with age := s.clock } } else s
  | none =>
    let inSet := s.l2.filter fun l => l2Set l.line = l2Set ln
    let charged := (s.l2.filter fun l => homeOf (l.line * 128) = homeOf (ln * 128) ∧ sliceOf l.line = sliceOf ln ∧
      l.part = o.part ∧ l.tenant = o.tenant).length
    let q := quotaOf s o
    let place :=
      if q ≠ 0 ∧ charged ≥ q then
        match sortBy CLine.age (inSet.filter fun l => l.part = o.part ∧ l.tenant = o.tenant ∧ (l2Ways s o ln).contains l.way) with
        | [] => none
        | v :: _ => some (v.way, some v)
      else placeIn inSet (l2Ways s o ln)
    match place with
    | none => s
    | some (w, v) =>
      let s := match v with | none => s | some v => l2Evict s v.line
      let nl := CLine.fresh o ln w s.clock cmp (floorOf s o.part ln)
      { s with l2 := linePut s.l2 nl }

/-- A line held under the other CMP value is written back and dropped before the access is served (R220). -/
def l2CmpDrop (s : State) (ln : Nat) (cmp : Bool) : State :=
  match l2find s ln with
  | some l => if l.cmp = cmp then s else l2Evict s ln
  | none => s

/-- The value of a byte at its home: the L2's valid byte, else memory's. -/
def homeByte (s : State) (pa : Nat) : Byte :=
  match l2find s (pa / 128) with
  | some l => match lget l (pa % 128) with | some b => b.val | none => cellGet s.mem pa
  | none => cellGet s.mem pa

/-- Bytes at their homes. -/
def homeBytes (s : State) : Nat → Nat → List Byte
  | _, 0 => []
  | pa, n + 1 => homeByte s pa :: homeBytes s (pa + 1) n

/-- The whole line at its home, found once. -/
def homeLine (s : State) (ln : Nat) : List Byte :=
  match l2find s ln with
  | none => cellRead s.mem (ln * 128) 128
  | some l => (List.range 128).map fun o => match lget l o with | some b => b.val | none => cellGet s.mem (ln * 128 + o)

/-- A read at the home: the line is placed and filled (R207, R208), and the bytes are read. -/
def homeFill (s : State) (o : Own) (ln : Nat) (cmp : Bool) : State :=
  let s := l2Alloc (l2CmpDrop s ln cmp) o ln cmp
  match l2find s ln with
  | none => s
  | some l => { s with l2 := linePut s.l2 { l with bytes := lfill l.bytes 0 (cellRead s.mem (ln * 128) 128) } }

/-- A watch on a line fires, or is given up with the cause SPUR (R262). -/
def Thread.fire (ln : Nat) (spur : Bool) (th : Thread) : Thread :=
  if th.watch.armed ∧ th.watch.tracked ∧ th.watch.line = ln then
    let w := { th.watch with fired := th.watch.fired || !spur, spur := th.watch.spur || spur, tracked := th.watch.tracked && !spur }
    { th with watch := w }
  else th

/-- Changes every thread of a bin. -/
def Bin.mapThreads (f : Thread → Thread) (b : Bin) : Bin :=
  { b with threads := b.threads.map fun x => { x with th := f x.th } }

/-- Fires every armed watch on a line (R262), those of threads held in kneading bins included. -/
def fireLine (s : State) (ln : Nat) (spur : Bool) : State :=
  let s := s.mapThreads fun _ th => th.fire ln spur
  let inCore (c : Core) : Core :=
    { c with bins := c.bins.map (Bin.mapThreads (Thread.fire ln spur)), released := c.released.map (Bin.mapThreads (Thread.fire ln spur)) }
  { s with cores := s.cores.map fun x => (x.1, inCore x.2) }

/-- One byte written at its home: into the L2 line if it has a place, else into memory. -/
def homeStore1 (s : State) (o : Own) (pa : Nat) (cmp : Bool) (v : Byte) : State :=
  let s := l2Alloc (l2CmpDrop s (pa / 128) cmp) o (pa / 128) cmp
  match l2find s (pa / 128) with
  | some l => { s with l2 := linePut s.l2 { l with bytes := lput l.bytes ⟨pa % 128, v, true⟩ } }
  | none => { s with mem := cellSet s.mem pa v }

def homeStoreAll (s : State) (o : Own) (cmp : Bool) : Nat → List Byte → State
  | _, [] => s
  | pa, v :: vs => homeStoreAll (homeStore1 s o pa cmp v) o cmp (pa + 1) vs

/-- The 8-byte words that a write covers whole lose their poison (R334). -/
def unpoison (l : List Nat) (a n : Nat) : List Nat := l.filter fun w => ¬ (a ≤ w * 8 ∧ w * 8 + 8 ≤ a + n)

/-- How many bytes of an 8-byte word a line holds that satisfy a condition. -/
def wordCount (bs : List LByte) (p : LByte → Bool) (w : Nat) : Nat := bs.countP fun b => decide (b.off / 8 = w % 16) && p b

/-- The poison of the words of a line, after a fill from a level whose poison is given: a word whose bytes were all valid takes
none (R207, R334). -/
def fillPoison (bs : List LByte) (own below : List Nat) : List Nat :=
  (below.filter fun w => decide (wordCount bs (fun _ => true) w < 8)).foldl addNat own

/-- The poison of a level after a write-back of the dirty bytes of a line: a word written whole loses it, and the written words
that are poisoned carry theirs along (R334). -/
def backPoison (bs : List LByte) (ln : Nat) (own above : List Nat) : List Nat :=
  (above.filter fun w => decide (0 < wordCount bs LByte.dirty w)).foldl addNat
    (own.filter fun w => !(decide (w / 16 = ln) && decide (wordCount bs LByte.dirty w = 8)))

/-- The lines that a range of bytes meets. -/
def linesOf (pa n : Nat) : List Nat := if n = 0 then [] else List.range' (pa / 128) ((pa + n - 1) / 128 - pa / 128 + 1)

/-- A write performed at the home: the bytes are written and every watch on their lines fires (R262). -/
def homeStore (s : State) (o : Own) (pa : Nat) (cmp : Bool) (bs : List Byte) : State :=
  let s := homeStoreAll s o cmp pa bs
  let s := (linesOf pa bs.length).foldl (fun s ln => fireLine s ln false) s
  { s with poison := unpoison s.poison pa bs.length }

/-- A byte range at its home is poisoned (R334). -/
def homePoison (s : State) (pa n : Nat) : Bool := s.poison.any fun w => decide (pa < w * 8 + 8) && decide (w * 8 < pa + n)

/-! ## The remote-data cache -/

def rdcfind (s : State) (d ln : Nat) : Option CLine := tget s.rdc (d, ln)

/-- Dirty bytes of a line written one by one to the home L2, with the poison they carry. -/
def mergeHome (s : State) (o : Own) (cmp : Bool) (base : Nat) : List LByte → State
  | [] => s
  | b :: bs => mergeHome (if b.dirty then homeStore1 s o (base + b.off) cmp b.val else s) o cmp base bs

/-- A write-back at the home: only the dirty bytes, then the watches fire (R207, R262). -/
def writeHome (s : State) (o : Own) (l : CLine) : State :=
  if l.bytes.any LByte.dirty then
    let s := fireLine (mergeHome s o l.cmp (l.line * 128) l.bytes) l.line false
    { s with poison := backPoison l.bytes l.line s.poison l.poison }
  else s

/-- Writes the dirty bytes of an RDC line back to its home L2; the line stays (R209). -/
def rdcClean (s : State) (d ln : Nat) : State :=
  match rdcfind s d ln with
  | none => s
  | some l => let s := writeHome s ⟨l.part, l.tenant⟩ l; { s with rdc := tput s.rdc (d, ln) l.cleaned }

/-- Writes an RDC line back and invalidates it (R209). -/
def rdcDrop (s : State) (d ln : Nat) : State := let s := rdcClean s d ln; { s with rdc := tdel s.rdc (d, ln) }

/-- The RDC ways a tenant may fill (R352). -/
def rdcWays (s : State) (o : Own) : List Nat :=
  match (s.partn o.part).masksOf o.tenant with
  | some m => maskWays 16 m.rdc
  | none => List.range 16

/-- Gives a line a place in the RDC of a die (R208, R354); 32 MiB of 16 ways are 16384 sets (log 4). -/
def rdcAlloc (s : State) (o : Own) (d ln : Nat) (cmp : Bool) : State :=
  let s := match rdcfind s d ln with | some l => if l.cmp = cmp then s else rdcDrop s d ln | none => s
  match rdcfind s d ln with
  | some l => if (rdcWays s o).contains l.way then { s with rdc := tput s.rdc (d, ln) { l with age := s.clock } } else s
  | none =>
    let inSet := (s.rdc.filter fun x => x.1.1 = d ∧ x.1.2 % 16384 = ln % 16384).map Prod.snd
    match placeIn inSet (rdcWays s o) with
    | none => s
    | some (w, v) =>
      let s := match v with | none => s | some v => rdcDrop s d v.line
      { s with rdc := tput s.rdc (d, ln) (CLine.fresh o ln w s.clock cmp {}) }

/-- The poisoned words of a line at its home. -/
def linePoison (s : State) (ln : Nat) : List Nat := s.poison.filter fun w => w / 16 = ln

/-- The bytes of a line and its poison as a die sees them below the L1: from its RDC when the home is another die,
else from the home L2 (R208). -/
def belowLine (s : State) (o : Own) (d ln : Nat) (cmp : Bool) : State × List Byte × List Nat :=
  if homeOf (ln * 128) = d then
    let s := homeFill s o ln cmp
    (s, homeLine s ln, linePoison s ln)
  else
    let s := rdcAlloc s o d ln cmp
    match rdcfind s d ln with
    | none => let s := homeFill s o ln cmp; (s, homeLine s ln, linePoison s ln)
    | some l =>
      let l' : State × CLine :=
        if lvalid l.bytes 0 128 then (s, l)
        else
          let s := homeFill s o ln cmp
          (s, { l with bytes := lfill l.bytes 0 (homeLine s ln), poison := fillPoison l.bytes l.poison (linePoison s ln) })
      let s := { l'.1 with rdc := tput l'.1.rdc (d, ln) l'.2 }
      (s, (List.range 128).map (fun o => match lget l'.2 o with | some b => b.val | none => 0), l'.2.poison)

/-- Dirty bytes leaving an L1: into the die's RDC when the home is another die, else to the home L2 (R208). -/
def writeBelow (s : State) (o : Own) (d : Nat) (l : CLine) : State :=
  if ¬ l.bytes.any LByte.dirty then s
  else if homeOf (l.line * 128) = d then writeHome s o l
  else
    let s := rdcAlloc s o d l.line l.cmp
    match rdcfind s d l.line with
    | none => writeHome s o l
    | some r =>
      let bs := (l.bytes.filter LByte.dirty).foldl (fun acc b => lput acc b) r.bytes
      { s with rdc := tput s.rdc (d, l.line) { r with bytes := bs, poison := backPoison l.bytes l.line r.poison l.poison } }

/-! ## The L1 of a core -/

def l1find (s : State) (c ln : Nat) : Option CLine := (s.core c).l1.find? fun l => l.line = ln

def l1Clean (s : State) (c ln : Nat) : State :=
  match l1find s c ln with
  | none => s
  | some l =>
    let s := writeBelow s ⟨l.part, l.tenant⟩ (dieOf c) l
    s.modCore c fun x => { x with l1 := linePut x.l1 l.cleaned }

def l1Drop (s : State) (c ln : Nat) : State :=
  let s := l1Clean s c ln
  s.modCore c fun x => { x with l1 := x.l1.filter fun l => l.line ≠ ln }

/-- The ways of a core that the resident blocks of the context in its bank hold as scratchpad (R147, R196). -/
def scrWays (s : State) (c : Nat) : List Nat :=
  (s.blocks.filter fun b => b.2.core = c ∧ b.2.benched = false).flatMap fun b => b.2.pways ++ b.2.cways

/-- The ways of a core that serve as L1 (R196, R208). -/
def cacheWays (s : State) (c : Nat) : List Nat := (List.range 24).filter fun w => ¬ (scrWays s c).contains w

/-- Gives a line a place in a core's L1; a 16 KiB way holds 128 lines (log 4). -/
def l1Alloc (s : State) (o : Own) (c ln : Nat) (cmp : Bool) : State :=
  let s := match l1find s c ln with | some l => if l.cmp = cmp then s else l1Drop s c ln | none => s
  match l1find s c ln with
  | some l => s.modCore c fun x => { x with l1 := linePut x.l1 { l with age := s.clock } }
  | none =>
    let inSet := (s.core c).l1.filter fun l => l.line % 128 = ln % 128
    match placeIn inSet (cacheWays s c) with
    | none => s
    | some (w, v) =>
      let s := match v with | none => s | some v => l1Drop s c v.line
      s.modCore c fun x => { x with l1 := linePut x.l1 (CLine.fresh o ln w s.clock cmp {}) }

/-- A store to normal memory: its bytes become valid and dirty in the L1 line, without a fetch (R207). -/
def l1Store (s : State) (o : Own) (c pa : Nat) (cmp : Bool) (bs : List Byte) : State :=
  let s := l1Alloc s o c (pa / 128) cmp
  match l1find s c (pa / 128) with
  | none => homeStore s o pa cmp bs
  | some l =>
    let nl : CLine := { l with bytes := lwrite l.bytes (pa % 128) bs, poison := unpoison l.poison pa bs.length }
    s.modCore c fun x => { x with l1 := linePut x.l1 nl }

/-- A load from normal memory: a line with an invalid byte is filled from the level below (R207). It delivers the
bytes and whether poison was read (R334). -/
def l1Load (s : State) (o : Own) (c pa n : Nat) (cmp : Bool) : State × List Byte × Bool :=
  let ln := pa / 128
  let s := l1Alloc s o c ln cmp
  match l1find s c ln with
  | none => let s := homeFill s o ln cmp; (s, homeBytes s pa n, homePoison s pa n)
  | some l =>
    let r : State × CLine :=
      if lvalid l.bytes (pa % 128) n then (s, l)
      else
        let b := belowLine s o (dieOf c) ln cmp
        (b.1, { l with bytes := lfill l.bytes 0 b.2.1, poison := fillPoison l.bytes l.poison b.2.2 })
    let s := r.1.modCore c fun x => { x with l1 := linePut x.l1 r.2 }
    (s, (List.range' (pa % 128) n).map (fun o => match lget r.2 o with | some b => b.val | none => 0),
      r.2.poison.any fun w => decide (pa < w * 8 + 8) && decide (w * 8 < pa + n))

/-- Before an atomic, an SC operation, an LDRAW, an uncached or device access or an engine's write leaves the core, the
core's and the die's copies of the line are written back and invalidated (R209, R243). -/
def dropCopies (s : State) (c ln : Nat) : State := rdcDrop (l1Drop s c ln) (dieOf c) ln

/-- Before an access of MT = 2 to memory, which no cache holds: the copies of the line are written back to memory and
invalidated, that of the home L2 too (R212). -/
def uncache (s : State) (c ln : Nat) : State := l2Evict (dropCopies s c ln) ln

/-- Bytes written to memory past every cache; the watches on their lines fire (R212, R262). -/
def memStore (s : State) (pa : Nat) (bs : List Byte) : State :=
  let s := (linesOf pa bs.length).foldl (fun s ln => fireLine s ln false) { s with mem := cellWrite s.mem pa bs }
  { s with poison := unpoison s.poison pa bs.length }

/-! ## Device registers (R206, R212, R366) -/

/-- The physical address of a partition's register block (R366). -/
def regBlock (p : Nat) : Nat := 0xF000_0000_0000 + 0x10_0000 * p

/-- The core count of a partition (CAP1). -/
def coreCount (s : State) (p : Nat) : Nat := (s.partn p).dies.length * 16 * s.hw.rows

/-- A capability word (R366). -/
def capWord (s : State) (p k : Nat) : Nat :=
  let q := s.partn p
  match k with
  | 0 => s.sec.fsvn * 2 ^ 32 + 2 ^ 24 + (q.dies.foldl (fun m d => m + 2 ^ d) 0) * 2 ^ 16 + s.hw.rows * 2 ^ 11 + p * 2 ^ 8 +
      (if s.sec.recovery then 1 else 0)
  | 1 => (2 ^ s.hw.channels - 1) * 2 ^ 32 + s.guestWays.length * 2 ^ 16 + coreCount s p
  | 2 => if q.expGiB = 0 then 0 else q.expBase
  | 3 => q.expGiB + s.hw.expGiB * 2 ^ 32
  | 4 => if q.hostGiB = 0 then 0 else q.hostBase
  | 5 => q.hostGiB
  | 6 => regBlock p
  | _ => 0

/-- What an 8-byte read of a register returns; write-only registers and absent ones return zero (R15, R206, R366). -/
def regRead (s : State) (p off : Nat) : Nat :=
  let q := s.partn p
  if off < 0x40 ∧ off % 8 = 0 then capWord s p (off / 8)
  else if s.sec.recovery then 0
  else match off with
  | 0x3000 => q.s2root.toNat
  | 0x3010 => (if q.busy.isSome then 1 else 0) + (if q.ign then 2 else 0)
  | 0x4000 => q.nqbase.toNat
  | 0x4008 => q.nqprod.toNat + q.nqlost * 2 ^ 48
  | 0x4010 => q.nqcons.toNat
  | 0x5000 => q.epochs.toNat * 2 ^ 32 + (if q.epochGo then 1 else 0)
  | 0x6008 => q.smdone.toNat * 2 ^ 32 + q.smlast.toNat * 2 ^ 8 + (if q.smign then 2 else 0) + (if q.smbusy then 1 else 0)
  | 0x7000 => Config.almpol.toNat
  | 0x7008 => (if s.sec.erased then 256 else 0) + s.sec.haltedBy.toNat * 16 + s.sec.raised.toNat
  | _ => 0

/-- A device read of a partition's thread: only its own block holds registers, and only 8-byte reads (R206, R366). -/
def devRead (s : State) (o : Own) (pa n : Nat) : List Byte :=
  if n = 8 ∧ regBlock o.part ≤ pa ∧ pa < regBlock o.part + 0x10_0000 then
    leBytes 8 (regRead s o.part (pa - regBlock o.part))
  else leBytes n 0

/-- The event that an 8-byte write to an offset of a register block is, with its argument (R366). -/
def regEvent (p : Nat) (writer : Option Nat) (off : Nat) (v : Dword) : Instr × Arg :=
  let a : Arg := { part := p, writer := writer, off := off, v := v }
  match off with
  | 0x1000 => (.lqn, a)
  | 0x2000 => (.ctxnext, a)
  | 0x3000 => (.s2root, a)
  | 0x3008 =>
    let a : Arg := { a with v := v &&& 0x0000_FFFF_FFFF_F000#64, tenant := (v.extractLsb' 4 6).toNat }
    match (v.extractLsb' 0 4).toNat with
    | 0 => (.hubinvVa, a)
    | 1 => (.hubinvTenant, a)
    | 2 => (.hubinvIpa, a)
    | 3 => (.hubinvPartition, a)
    | _ => (.registerWrite, { a with v := v })
  | 0x4000 => (.nqbase, a)
  | 0x5000 => (.scepoch, a)
  | 0x6000 => (.smaddr, a)
  | _ => (.registerWrite, a)

/-- A device write: it travels to the hub in program order, and is ignored where no register takes it (R206, R366). -/
def devWrite (s : State) (o : Own) (pa : Nat) (bs : List Byte) : State :=
  if bs.length = 8 ∧ regBlock o.part ≤ pa ∧ pa < regBlock o.part + 0x10_0000 then
    { s with hubq := s.hubq ++ [regEvent o.part (some o.tenant) (pa - regBlock o.part) (BitVec.ofNat 64 (leValue bs))] }
  else s

/-! ## Scratchpad -/

/-- The first offset of the carved range of a block (R191). -/
def Block.carveBase (b : Block) : Nat := 16384 * b.pways.length

/-- A range of offsets lies in the block's allocation (R191, R192). -/
def Block.holds (b : Block) (off n : Nat) : Bool :=
  decide (off + n ≤ b.scratch) || (decide (b.carveBase ≤ off) && decide (off + n ≤ b.carveBase + 16384 * b.cways.length))

/-- The ways that a range of offsets lies in have been loaded (R340). -/
def Block.ready (b : Block) (off n : Nat) : Bool :=
  b.unloaded.isEmpty || (List.range' (off / 16384) ((off + n - 1) / 16384 - off / 16384 + 1)).all fun i =>
    match (b.pways ++ b.cways)[i]? with | some w => !b.unloaded.contains w | none => true

/-- Some block has a way that is still to be loaded. -/
def State.loading (s : State) : Bool := s.blocks.any fun b => !b.2.unloaded.isEmpty

/-- Some block of a launch has one. -/
def State.loadingOf (s : State) (launch : Nat) : Bool := s.blocks.any fun b => decide (b.1.launch = launch) && !b.2.unloaded.isEmpty

/-- The state as it would be if every way were loaded. -/
def State.loaded (s : State) : State := { s with blocks := s.blocks.map fun (b : BRef × Block) => (b.1, { b.2 with unloaded := [] }) }

/-- The scratchpad bytes written, with the poison they clear. -/
def scrWrite (s : State) (b : BRef) (off : Nat) (bs : List Byte) : State :=
  s.modBlock b fun x => { x with cells := cellWrite x.cells off bs, poison := unpoison x.poison off bs.length }

def scrRead (s : State) (b : BRef) (off n : Nat) : List Byte := cellRead (s.block b).cells off n

def scrPoison (s : State) (b : BRef) (off n : Nat) : Bool :=
  (s.block b).poison.any fun w => decide (off < w * 8 + 8) && decide (w * 8 < off + n)

/-! ## Reading and writing at a location -/

/-- The memory type as which an access to normal memory is performed: a line whose home is a die of another partition, when the map names no
guest way, is not allocated anywhere, as for MT = 1 (R351). -/
def typeAt (s : State) (o : Own) (pa mt : Nat) : Nat :=
  if mt = 0 ∧ s.guestWays = [] ∧ (s.partn o.part).dies.contains (homeOf pa) = false then 1 else mt

/-- A plain read by a thread or an engine acting for a core (R208, R212, R243): bytes and whether poison was read. -/
def readLoc (s : State) (o : Own) (c : Nat) (l : Loc) (n : Nat) : State × List Byte × Bool :=
  match l with
  | .scr b off => (s, scrRead s b off n, scrPoison s b off n)
  | .glob pa mt cmp =>
    if inDevice pa then (s, devRead s o pa n, false)
    else if typeAt s o pa mt = 0 then l1Load s o c pa n cmp
    else if typeAt s o pa mt = 1 then
      let s := homeFill (dropCopies s c (pa / 128)) o (pa / 128) cmp
      (s, homeBytes s pa n, homePoison s pa n)
    else
      let s := uncache s c (pa / 128)
      (s, homeBytes s pa n, homePoison s pa n)

/-- A plain store by a thread (R207, R212). -/
def writeLoc (s : State) (o : Own) (c : Nat) (l : Loc) (bs : List Byte) : State :=
  match l with
  | .scr b off => scrWrite s b off bs
  | .glob pa mt cmp =>
    if inDevice pa then devWrite s o pa bs
    else if typeAt s o pa mt = 0 then l1Store s o c pa cmp bs
    else if typeAt s o pa mt = 1 then homeStore (dropCopies s c (pa / 128)) o pa cmp bs
    else memStore (uncache s c (pa / 128)) pa bs

/-- The bytes of a range at their home, as an atomic, an SC operation, an LDRAW or an object's action finds them; the line has
a place in the home L2. A device-register address holds nothing for them and reads as zero (R206; log 55). -/
def readAtHome (s : State) (o : Own) (pa n : Nat) (cmp : Bool) : State × List Byte × Bool :=
  if inDevice pa then (s, List.replicate n 0, false)
  else
    let s := homeFill s o (pa / 128) cmp
    (s, homeBytes s pa n, homePoison s pa n)

/-- Bytes written at their home; at a device-register address they are ignored (R206; log 55). -/
def storeAtHome (s : State) (o : Own) (pa : Nat) (cmp : Bool) (bs : List Byte) : State :=
  if inDevice pa then s else homeStore s o pa cmp bs

/-- A read of the home copy: an LDRAW, an atomic or an SC operation (R209, R238). -/
def readHome (s : State) (o : Own) (c pa n : Nat) (cmp : Bool) : State × List Byte × Bool :=
  readAtHome (dropCopies s c (pa / 128)) o pa n cmp

/-- A write at the home by an engine or a thread's atomic (R209, R243). -/
def storeHome (s : State) (o : Own) (c pa : Nat) (cmp : Bool) (bs : List Byte) : State :=
  storeAtHome ((linesOf pa bs.length).foldl (fun s ln => dropCopies s c ln) s) o pa cmp bs

/-- Two byte ranges of one space meet. -/
def Loc.meets (a : Loc) (n : Nat) (b : Loc) (m : Nat) : Bool :=
  match a, b with
  | .glob p _ _, .glob q _ _ => decide (p < q + m) && decide (q < p + n)
  | .scr x p, .scr y q => decide (x = y) && decide (p < q + m) && decide (q < p + n)
  | _, _ => false

end Sys2Proof.Machine
end

