-- ==== Sys2Proof/Machine/Translate.lean ====
section
/-! DEFINITION. Address translation in two stages with its caches (spec 12 R213-R217, R221-R223, 22 R368) and the check
of one access (14 R248, R249). A fault is described by a `TrapInfo`: what %xcause and %xaddr receive (20 R322, R323). -/

namespace Sys2Proof.Machine

/-- The cause of a trap (R322, R323). -/
structure TrapInfo where
  code : Nat
  addr : Dword
  acc : Nat := 0
  walk : Bool := false
  stage : Nat := 0
  level : Nat := 0
  ecode : Byte := 0
  afl : BitVec 5 := 0
  deriving DecidableEq, Repr

/-- The word of %xcause (R323). -/
def TrapInfo.word (i : TrapInfo) : Word :=
  BitVec.ofNat 32 (i.code + i.acc * 2 ^ 8 + (if i.walk then 2 ^ 12 else 0) + i.level * 2 ^ 13 + i.stage * 2 ^ 15 +
    i.afl.toNat * 2 ^ 16 + i.ecode.toNat * 2 ^ 24)

def causeTRANS : Nat := 0x01
def causePERM : Nat := 0x02
def causeATTR : Nat := 0x03
def causeALIGN : Nat := 0x04
def causeBOUND : Nat := 0x05
def causeMASK : Nat := 0x06
def causeENGF : Nat := 0x07
def causeARITH : Nat := 0x08
def causeTRAP : Nat := 0x09
def causeBKPT : Nat := 0x0A

/-- The access codes of %xcause (R323). -/
def accRead : Nat := 0
def accWrite : Nat := 1
def accRw : Nat := 2
def accFetch : Nat := 3

/-! ## Walking one stage -/

/-- What a leaf maps (R215, R217). -/
structure Leaf where
  base : Nat
  size : Nat
  r : Bool
  w : Bool
  x : Bool
  mt : Nat
  cmp : Bool
  layout : Nat
  deriving DecidableEq, Repr

/-- Bits [hi:lo] of an entry. -/
def ebits (e hi lo : Nat) : Nat := e / 2 ^ lo % 2 ^ (hi - lo + 1)

/-- The bytes that a leaf at a level maps (R214). -/
def leafSize (level e : Nat) : Nat :=
  if level = 1 then 2 ^ 30 else if level = 2 then 2 ^ 21 else if ebits e 11 11 = 1 then 2 ^ 16 else 2 ^ 12

/-- A walk step that fails (R216). -/
def entryBad (stage level e : Nat) : Bool :=
  let leaf := ebits e 1 1 = 1
  decide (ebits e 0 0 = 0) || (decide leaf && decide (level = 0)) || (!(decide leaf) && decide (level = 3)) ||
  decide (ebits e 63 60 ≠ 0) || decide (ebits e 55 48 ≠ 0) || decide (ebits e 10 7 ≠ 0) ||
  (!(decide leaf) && (decide (ebits e 63 48 ≠ 0) || decide (ebits e 11 2 ≠ 0))) ||
  (decide (ebits e 11 11 = 1) && decide (level ≠ 3)) ||
  (decide leaf &&
    (decide ((ebits e 47 12 * 4096) % leafSize level e ≠ 0) || (decide (ebits e 3 3 = 1) && decide (ebits e 2 2 = 0)) ||
     decide (ebits e 6 5 = 3) || (decide (ebits e 56 56 = 0) && decide (ebits e 59 57 ≠ 0)) ||
     (decide (ebits e 56 56 = 1) && decide (6 ≤ ebits e 59 57)) ||
     (decide (stage = 1) && (decide (ebits e 56 56 ≠ 0) || decide (ebits e 59 57 ≠ 0)))))

/-- The page of a good leaf. -/
def leafOf (level e : Nat) : Leaf :=
  { base := ebits e 47 12 * 4096, size := leafSize level e, r := ebits e 2 2 = 1, w := ebits e 3 3 = 1, x := ebits e 4 4 = 1,
    mt := ebits e 6 5, cmp := ebits e 56 56 = 1, layout := ebits e 59 57 }

/-- The address bits above those a level translates, which name the entry of that level. -/
def levelHigh (level addr : Nat) : Nat := addr / 2 ^ (39 - 9 * level)

/-- A walk of the levels given, through a reader of entries that may itself fail; a failing step is named by its
stage and level (R214, R216). The table entries visited are collected. A 64 KiB entry is the one at the address's own index: of a group
whose entries differ R216 allows any (DESIGN CHOICE, log 78). -/
def walkStage (rd : Nat → Nat → Except (Nat × Nat) Nat) (stage addr : Nat) :
    List Nat → Nat → List (Nat × Nat) → Except (Nat × Nat) (Leaf × List (Nat × Nat))
  | [], _, _ => .error (stage, 3)
  | level :: rest, table, seen =>
    match rd level (table + 8 * (levelHigh level addr % 512)) with
    | .error x => .error x
    | .ok e =>
      if entryBad stage level e then .error (stage, level)
      else if ebits e 1 1 = 1 then .ok (leafOf level e, seen)
      else walkStage rd stage addr rest (ebits e 47 12 * 4096) (seen ++ [(level, e)])

/-- An entry held by the cluster's cache (R221). -/
def cachedEntry (s : State) (cl stage part tenant level high : Nat) : Option Nat :=
  match s.cwalk.find? fun x => x.1 = cl ∧ x.2.stage = stage ∧ x.2.part = part ∧ x.2.tenant = tenant ∧ x.2.level = level ∧
      x.2.high = high with
  | some x => some x.2.value
  | none => none

/-- Stage 2: an IPA through the partition's tables (R213, R368). -/
def stage2 (s : State) (cl part ipa : Nat) : Except (Nat × Nat) (Leaf × List (Nat × Nat)) :=
  let root := (s.partn part).s2root
  if root.getLsbD 0 then
    walkStage (fun level a =>
      match cachedEntry s cl 1 part 0 level (levelHigh level ipa) with
      | some e => .ok e
      | none => if present s part a && !inDevice a then .ok (leValue (homeBytes s a 8)) else .error (1, level))
      1 ipa [0, 1, 2, 3] (root.toNat / 4096 % 2 ^ 36 * 4096) []
  else .error (1, 0)

/-- Stage 1: a virtual address through the context's tables, whose addresses are IPAs (R213). A table that stands where the partition holds
no memory fails the step that reads it, with the stage and level of the step (R216 does not name the case: DESIGN CHOICE, log 78). -/
def stage1 (s : State) (cl part tenant root va : Nat) : Except (Nat × Nat) (Leaf × List (Nat × Nat)) :=
  walkStage (fun level a =>
    match cachedEntry s cl 0 part tenant level (levelHigh level va) with
    | some e => .ok e
    | none =>
      match stage2 s cl part a with
      | .error x => .error x
      | .ok (l, _) =>
        let pa := l.base + a % l.size
        if present s part pa && !inDevice pa then .ok (leValue (homeBytes s pa 8)) else .error (0, level))
    0 va [0, 1, 2, 3] root []

/-- The stage-1 root of the context of a tenant that the partition runs (R335, R336). -/
def rootOf (s : State) (o : Own) : Option Nat := ((s.partn o.part).ctx o.tenant).map Ctx.s1root

/-- The stage-2 page of an IPA: base and size. -/
def s2page (s : State) (cl part ipa : Nat) : List (Nat × Nat) :=
  match stage2 s cl part ipa with
  | .ok (l, _) => [(ipa / l.size * l.size, l.size)]
  | .error _ => []

/-- The final translation of a page (R217), with every stage-2 page that it used (R368). -/
def combine (o : Own) (va ipa : Nat) (a b : Leaf) (tables : List (Nat × Nat)) : TlbEnt :=
  let size := min a.size b.size
  let pa := b.base + ipa % b.size
  { part := o.part, tenant := o.tenant, vbase := va / size * size, size := size, pbase := pa / size * size,
    r1 := a.r, w1 := a.w, x1 := a.x, r2 := b.r, w2 := b.w, x2 := b.x, mt := max a.mt b.mt, cmp := a.cmp, layout := a.layout,
    s2used := (ipa / b.size * b.size, b.size) :: tables }

/-- A full walk of both stages (R213). -/
def walk (s : State) (cl : Nat) (o : Own) (va : Nat) : Except (Nat × Nat) TlbEnt :=
  match rootOf s o with
  | none => .error (0, 0)
  | some root =>
    match stage1 s cl o.part o.tenant root va with
    | .error x => .error x
    | .ok (l1, seen) =>
      let ipa := l1.base + va % l1.size
      match stage2 s cl o.part ipa with
      | .error x => .error x
      | .ok (l2, _) =>
        .ok (combine o va ipa l1 l2
          ((root :: seen.map fun x => ebits x.2 47 12 * 4096).flatMap fun t => s2page s cl o.part t))

/-- The table entries of both stages that a walk of an address meets, as the cluster's cache holds them (R221). -/
def walkEntries (s : State) (cl : Nat) (o : Own) (va : Nat) : List WalkEnt :=
  match rootOf s o with
  | none => []
  | some root =>
    match stage1 s cl o.part o.tenant root va with
    | .error _ => []
    | .ok (l1, seen1) =>
      let ipa := l1.base + va % l1.size
      let seen2 := match stage2 s cl o.part ipa with | .ok r => r.2 | .error _ => []
      (seen1.map fun x => WalkEnt.mk 0 o.part o.tenant x.1 (levelHigh x.1 va) x.2) ++
        (seen2.map fun x => WalkEnt.mk 1 o.part 0 x.1 (levelHigh x.1 ipa) x.2)

/-- A cached final translation covers an address. -/
def TlbEnt.covers (e : TlbEnt) (o : Own) (va : Nat) : Bool :=
  decide (e.part = o.part) && decide (e.tenant = o.tenant) && decide (e.vbase ≤ va) && decide (va < e.vbase + e.size)

/-- The translation of an address as a core sees it: its TLB, its cluster's cache, or a walk (R221). -/
def translate (s : State) (c : Nat) (o : Own) (va : Nat) : Except (Nat × Nat) TlbEnt :=
  match (s.core c).tlb.find? fun e => e.covers o va with
  | some e => .ok e
  | none =>
    match s.ctlb.find? fun x => x.1 = clusterOf c ∧ x.2.covers o va with
    | some x => .ok x.2
    | none => walk s (clusterOf c) o va

/-- The newest `n` entries of a cluster, and all of the others. -/
def keepOf {α : Type} (cl n : Nat) (l : List (Nat × α)) : List (Nat × α) :=
  (l.foldr (fun x acc => if x.1 ≠ cl then (x :: acc.1, acc.2) else if acc.2 < n then (x :: acc.1, acc.2 + 1) else acc)
    (([] : List (Nat × α)), 0)).1

/-- The translation a use leaves in the core's TLB and the cluster's cache; failed walks leave none (R221). The TLB
keeps 128 entries and the cluster's cache 2048, of them at most 1024 table entries; the oldest leave first (R4, R221; log 4). -/
def noteXlate (s : State) (c : Nat) (o : Own) (va : Nat) : State :=
  match (s.core c).tlb.find? fun e => e.covers o va with
  | some _ => s
  | none =>
    match translate s c o va with
    | .error _ => s
    | .ok e =>
      let cl := clusterOf c
      let s := if s.ctlb.any fun x => x.1 = cl ∧ x.2.covers o va then s
        else
          let new := ((walkEntries s cl o va).map fun w => (cl, w)).filter fun x => !s.cwalk.contains x
          let tables := keepOf cl 1024 (s.cwalk ++ new)
          { s with ctlb := keepOf cl (2048 - tables.countP fun x => decide (x.1 = cl)) (s.ctlb ++ [(cl, e)]), cwalk := tables }
      s.modCore c fun x => { x with tlb := (e :: x.tlb).take 128, tlbPast := (x.tlb.drop 127).filter (fun e => !x.tlbPast.contains e) ++ x.tlbPast }

/-! ## Checking one access (R248) -/

/-- What an instruction's access is checked for (R249). -/
structure Need where
  acc : Nat
  r : Bool
  w : Bool
  x : Bool := false
  align : Nat
  /-- not permitted on device memory -/
  noDev : Bool
  /-- permitted on a page of chunk records -/
  cmpOk : Bool
  deriving DecidableEq, Repr

/-- The permission that is missing: none, or the stage that lacks it (R217, R323). -/
def permFail (e : TlbEnt) (q : Need) : Option Nat :=
  if (q.r && !(e.r1 && e.r2)) || (q.w && !(e.w1 && e.w2)) || (q.x && !(e.x1 && e.x2)) then
    some (if (q.r && !e.r2) || (q.w && !e.w2) || (q.x && !e.x2) then 1 else 0)
  else none

/-- A global access of `n` bytes at an effective address: the checks of R248 in their order. -/
def checkGlobal (s : State) (c : Nat) (o : Own) (ea : Dword) (n : Nat) (q : Need) : Except TrapInfo Loc :=
  let f : TrapInfo := { code := causeTRANS, addr := ea, acc := q.acc }
  if ea.toNat / 2 ^ 48 ≠ 0 then .error f
  else if ea.toNat % q.align ≠ 0 then .error { f with code := causeALIGN }
  else match translate s c o ea.toNat with
    | .error (st, lv) => .error { f with walk := true, stage := st, level := lv }
    | .ok e =>
      let pa := e.pbase + (ea.toNat - e.vbase)
      if !(present s o.part pa && present s o.part (pa + n - 1)) then .error f
      else match permFail e q with
        | some st => .error { f with code := causePERM, stage := st }
        | none =>
          if (e.mt = 2 ∧ q.noDev) ∨ (e.cmp ∧ !q.cmpOk) then .error { f with code := causeATTR }
          else .ok (.glob pa e.mt e.cmp)

/-- A scratchpad access of `n` bytes at an address: the block it reaches and the offset (R30, R192, R193). -/
def checkScratch (s : State) (b : BRef) (addr : Word) (n align : Nat) (acc : Nat) : Except TrapInfo Loc :=
  let f : TrapInfo := { code := causeBOUND, addr := addr.setWidth 64, acc := acc }
  if addr.toNat % align ≠ 0 then .error { f with code := causeALIGN }
  else if addr.toNat / 2 ^ 25 ≠ 0 then .error f
  else
    let tgt : Option BRef :=
      if addr.getLsbD 24 then
        let pc := peerCore (s.block b).core (addr.toNat / 2 ^ 20 % 16)
        (s.blocks.find? fun x => x.1.launch = b.launch ∧ x.2.core = pc).map Prod.fst
      else some b
    match tgt with
    | none => .error f
    | some t =>
      let off := addr.toNat % 2 ^ 20
      if (s.block t).holds off n then .ok (.scr t off) else .error f

/-- The BOUND fault of a scratchpad access that is performed where no block, or no allocation, is any more (R192, R193). -/
def boundAt (addr : Dword) (acc : Nat) : TrapInfo := { code := causeBOUND, addr := addr, acc := acc }

/-- A block is resident and its allocation holds a range of offsets (R192). -/
def State.scrHolds (s : State) (br : BRef) (off n : Nat) : Bool := (s.block? br).any fun b => b.holds off n

/-! ## Removing cached translations (R222, R223, R368) -/

/-- Removes matching final translations from the TLBs and cluster caches of a set of cores and clusters. -/
def dropTlbs (s : State) (cores : List Nat) (p : TlbEnt → Bool) : State :=
  let s := cores.foldl (fun s c => match tget s.cores c with
    | none => s
    | some x => s.setCore c { x with tlb := x.tlb.filter fun e => !p e, tlbPast := x.tlb.filter (fun e => p e && !x.tlbPast.contains e) ++ x.tlbPast }) s
  let cls := cores.map clusterOf
  { s with ctlb := s.ctlb.filter fun x => !(cls.contains x.1 && p x.2) }

/-- Removes matching table entries from the clusters of a set of cores. -/
def dropWalks (s : State) (cores : List Nat) (p : WalkEnt → Bool) : State :=
  let cls := cores.map clusterOf
  { s with cwalk := s.cwalk.filter fun x => !(cls.contains x.1 && p x.2) }

/-- The final translations that a TLBIB or TLBIL names (R222). -/
def tlbMatch (o : Own) (all : Bool) (va : Nat) (e : TlbEnt) : Bool :=
  decide (e.part = o.part) && decide (e.tenant = o.tenant) && (all || (decide (e.vbase ≤ va) && decide (va < e.vbase + e.size)))

/-- The effect of a TLBIB or TLBIL at the receivers named (R222). -/
def invalidate (s : State) (cores : List Nat) (o : Own) (all : Bool) (va : Nat) : State :=
  let s := dropTlbs s cores (tlbMatch o all va)
  dropWalks s cores fun w => decide (w.part = o.part) && decide (w.tenant = o.tenant) && decide (w.stage = 0) &&
    (all || decide (w.high = levelHigh w.level va))

end Sys2Proof.Machine
end

