-- ==== Sys2Proof/Machine/Ops.lean ====
section
/-! DEFINITION. The named operations over registers, threads and warps that the meanings share: reading and writing
registers (spec 01), the crumb latches and the heel (02), outstanding writes (02 R48, R49), deferred stores (13 R226),
the error word and halting (01 R26, 02 R53), taking a trap and returning from one (20 R324, R330), barrier flips
(08 R168) and the generator's switch conditions (09 R182). -/

namespace Sys2Proof.Machine

/-! ## Registers (R17, R18, R20, R81) -/

/-- A general register; g0 reads as zero. -/
def Thread.rd (th : Thread) (r : Nat) : Word := if r = 0 then 0 else (th.g[r]?).getD 0

/-- A general register written; a write to g0 is discarded. A register written whole has no parity error (R334). -/
def Thread.setG (th : Thread) (r : Nat) (v : Word) : Thread :=
  if r = 0 then th else { th with g := th.g.setIfInBounds r v, bad := th.bad.filter (· ≠ r) }

/-- A crumb latch. -/
def Loaf.latch (l : Loaf) : Nat → Dword
  | 0 => l.c0
  | 1 => l.c1
  | 2 => l.c2
  | _ => l.c3

/-- A 32-bit operand: codes 124-127 are bits [31:0] of a latch. -/
def Thread.word (th : Thread) (c : Nat) : Word := if c < 124 then th.rd c else loWord (th.loaf.latch (c - 124))

/-- A pair operand: g0:g1 reads as zero; a latch gives all 64 bits. -/
def Thread.pair (th : Thread) (c : Nat) : Dword :=
  if c = 0 then 0 else if c < 124 then pairOf (th.rd c) (th.rd (c + 1)) else th.loaf.latch (c - 124)

/-- A group of registers: in one that begins at g0, g0 and g1 read as zero. -/
def Thread.group (th : Thread) (base n : Nat) : List Word :=
  (List.range n).map fun i => if base = 0 ∧ i < 2 then 0 else th.rd (base + i)

/-- Registers written in order; in a group that begins at g0 the parts for g0 and g1 are discarded. -/
def Thread.setFrom (th : Thread) (base : Nat) : Nat → List Word → Thread
  | _, [] => th
  | i, w :: ws => ((if base = 0 ∧ i < 2 then th else th.setG (base + i) w)).setFrom base (i + 1) ws

/-- A destination group written. -/
def Thread.setGroup (th : Thread) (base : Nat) (ws : List Word) : Thread := th.setFrom base 0 ws

/-- A predicate; p0 reads as true. -/
def Thread.pred (th : Thread) : Nat → Bool
  | 0 => true
  | 1 => th.p1
  | 2 => th.p2
  | _ => th.p3

/-- A predicate written; a write to p0 is discarded. -/
def Thread.setPred (th : Thread) (p : Nat) (v : Bool) : Thread :=
  match p with
  | 0 => th
  | 1 => { th with p1 := v, bad := th.bad.filter (· ≠ 129) }
  | 2 => { th with p2 := v, bad := th.bad.filter (· ≠ 130) }
  | _ => { th with p3 := v, bad := th.bad.filter (· ≠ 131) }

/-- A result pushed into the latches (R46); the push count stops at 4 (R47). -/
def Loaf.push (l : Loaf) (v : Dword) : Loaf :=
  { l with c0 := v, c1 := l.c0, c2 := l.c1, c3 := l.c2, j := if l.j < 4 then l.j + 1 else 4 }

/-- Parity errors of the halves of latches move with the values (124-127 and 132-135). -/
def shiftBad (l : List Nat) : List Nat :=
  l.filterMap fun r => if r = 127 ∨ r = 135 then none else if (124 ≤ r ∧ r < 127) ∨ (132 ≤ r ∧ r < 135) then some (r + 1) else some r

def Thread.push (th : Thread) (v : Dword) : Thread := { th with loaf := th.loaf.push v, bad := shiftBad th.bad }

/-- Sticky flags set by OR (R25). -/
def Thread.flag (th : Thread) (f : BitVec 5) : Thread := { th with aflags := th.aflags ||| f }

/-! ## Owners and error words -/

def State.ownBlk (s : State) (b : BRef) : Own := ⟨(s.block b).part, (s.block b).tenant⟩
def State.ownOf (s : State) (t : TRef) : Own := s.ownBlk (s.blkOf t)

/-- Two error words together; the first illegal word is that of `a` if it has one. -/
def ErrWord.join (a b : ErrWord) : ErrWord :=
  { ill := a.ill || b.ill, dblf := a.dblf || b.dblf, par := a.par || b.par, novec := a.novec || b.novec, firstv := a.firstv || b.firstv,
    first16 := if a.firstv then a.first16 else b.first16, firstmaj := if a.firstv then a.firstmaj else b.firstmaj }

/-- The record in a cycle: the events of earlier cycles are past. -/
def ErrRec.at_ (r : ErrRec) (now : Nat) : ErrRec := if r.cyc = now then r else { old := r.old.join r.recent, cyc := now }

/-- An event recorded in a cycle. Of illegal words of one cycle the one from the lower core, and then the lower warp slot, comes
first (R27). -/
def ErrRec.note (r : ErrRec) (now who : Nat) (e : ErrWord) : ErrRec :=
  let r := r.at_ now
  if e.firstv && (!r.recent.firstv || decide (who < r.who)) then { r with recent := e.join r.recent, who := who }
  else { r with recent := r.recent.join e }

def State.errRec (s : State) (o : Own) : ErrRec := (tget (s.partn o.part).errs o.tenant).getD {}
/-- The error word of a context (R26). -/
def State.err (s : State) (o : Own) : ErrWord := (s.errRec o).old.join (s.errRec o).recent
def State.modErr (s : State) (o : Own) (f : ErrRec → ErrRec) : State :=
  s.modPart o.part fun p => { p with errs := tput p.errs o.tenant (f ((tget p.errs o.tenant).getD {})) }

/-- The 32 bits of an error word; FIRSTMAJ and FIRST16 read as zero until FIRSTV is set. -/
def ErrWord.word (e : ErrWord) : Word :=
  BitVec.ofNat 32 ((if e.ill then 1 else 0) + (if e.dblf then 2 else 0) + (if e.par then 4 else 0) + (if e.novec then 8 else 0) +
    if e.firstv then e.firstmaj.toNat * 2 ^ 8 + (if e.first16 then 2 ^ 14 else 0) + 2 ^ 15 else 0)

/-- What an illegal word records: ILL, and FIRSTMAJ and FIRST16 when it is the first (R26, R27). -/
def errILL (is16 : Bool) (maj : BitVec 6) : ErrWord := { ill := true, firstv := true, first16 := is16, firstmaj := maj }

/-! ## Outstanding writes and deferred stores -/

/-- A thread may be Ready: every unnamed write has landed, and so have the pending ones that its heel has found beyond the newest
six (R49). -/
def outsReady (outs : List Out) : Bool := outs.all fun o => o.named && !o.must

/-- A pending group that counts for the limit of six: a heel has named it (R49). -/
def Out.counts (o : Out) : Bool := o.named && !o.exempt

/-- Of the counted groups, oldest first, those beyond the newest six must land: `n` of them. -/
def mustLand : Nat → List Out → List Out
  | _, [] => []
  | 0, l => l
  | n + 1, o :: r => if o.counts then { o with must := true } :: mustLand n r else o :: mustLand (n + 1) r

/-- Ready, or Waiting for registers (R32, R49). -/
def Thread.rearm (th : Thread) : Thread := { th with st := if outsReady th.outs then .ready else .waiting .outs }

/-- The heel of a loaf: the latches are emptied, writes named by it become pending (R46, R49). -/
def Thread.heel (th : Thread) (names : List Nat) : Thread :=
  let outs := th.outs.map fun o =>
    if o.past then o else { o with past := true, named := names.any fun r => decide (o.base ≤ r) && decide (r < o.base + o.n) }
  let outs := mustLand (outs.countP Out.counts - 6) outs
  let bad := th.bad.filter fun r => !((decide (124 ≤ r) && decide (r ≤ 127)) || decide (132 ≤ r))
  ({ th with loaf := {}, outs := outs, bad := bad, heeled := true } : Thread).rearm

/-- A thread that waited at a heel goes on behind it: every instruction that waits so is 32 bits long. -/
def Thread.passHeel (th : Thread) : Thread := ({ th with pc := th.pc + 4 } : Thread).heel []

/-- An instruction retired in its loaf. -/
def Thread.retire (th : Thread) (len : Nat) : Thread :=
  { th with pc := th.pc + BitVec.ofNat 64 len, loaf := { th.loaf with cnt := th.loaf.cnt + 1 } }

/-- The bytes of parts from number `k` on: those that a part has taken before, else those that it reads now; and whether any was
poisoned (R225, R334). -/
def State.readRest (s : State) (o : Own) (c : Nat) (got : List (Nat × (List Byte × Bool))) : Nat → List Part → State × List Byte × Bool
  | _, [] => (s, [], false)
  | k, p :: ps =>
    let r := match tget got k with | some x => (s, x) | none => readLoc s o c p.loc p.n
    let q := r.1.readRest o c got (k + 1) ps
    (q.1, r.2.1 ++ q.2.1, r.2.2 || q.2.2)

/-- Parts read now, one after another. -/
def State.readParts (s : State) (o : Own) (c : Nat) (ps : List Part) : State × List Byte × Bool := s.readRest o c [] 0 ps

/-- Removes a thread from ports, PC table and overflow of its core. -/
def State.unplace (s : State) (t : TRef) : State :=
  s.modCore t.core fun c =>
    let tbl := (c.table.map fun e => { e with members := e.members.filter (· ≠ t) }).filter fun e => !e.members.isEmpty
    { c with p0 := c.p0.filter (· ≠ t), p1 := c.p1.filter (· ≠ t), table := tbl, overflow := c.overflow.filter fun x => x.1 ≠ t }

/-! ## Workgroup barriers (R167, R168) -/

/-- A slot of a core holds a thread that is neither Exited nor Halted. -/
def State.slotLive (s : State) (c sl : Nat) : Bool :=
  s.threads.any fun x => decide (x.1.core = c) && decide (x.1.slot = sl) && x.2.live

/-- The flip condition of a barrier: arrived + V ≥ X. -/
def State.barDue (s : State) (blk : Block) (b : Bar) : Bool :=
  let v := (blk.slots.filter fun sl => !b.bits.contains sl && !s.slotLive blk.core sl).length
  decide (b.arrived + v ≥ b.x)

/-- A thread of a flipped barrier: its token is invalid, and a wait for it ends. -/
def Thread.flipped (i : Nat) (th : Thread) : Thread :=
  let th : Thread := { th with tokens := th.tokens.filter fun x => x.1 ≠ i }
  if th.st = .waiting (.barrier i) then th.passHeel else th

/-- A phase flips (R168): arrivals are cleared, tokens of the block's threads become invalid wherever they are held. -/
def State.flipBarrier (s : State) (br : BRef) (i : Nat) : State :=
  let blk := s.block br
  let fresh : Bar := match blk.bars[i]? with | none => { x := 1 } | some x => { x with arrived := 0, bits := [], phase := !x.phase }
  let s := s.modBlock br fun b => { b with bars := lset b.bars i fresh }
  let s := s.mapThreads fun t th => if s.blkOf t = br ∧ (s.warp? t.core t.slot).isSome then th.flipped i else th
  let clear (b : Bin) : Bin :=
    if b.blk = br then b.mapThreads (Thread.flipped i) else b
  s.modCore blk.core fun c => { c with bins := c.bins.map clear, released := c.released.map clear }

/-- Evaluates one barrier; `fresh` says that an arrival has just been made, else a phase without arrivals never flips. -/
def State.checkBarrier (s : State) (br : BRef) (i : Nat) (fresh : Bool) : State :=
  let blk := s.block br
  match blk.bars[i]? with
  | none => s
  | some b => if (fresh || decide (b.arrived ≥ 1)) && s.barDue blk b then s.flipBarrier br i else s

/-- Evaluates every barrier of a block when one of its slots may have emptied. -/
def State.checkBarriers (s : State) (br : BRef) : State :=
  (List.range 16).foldl (fun s i => s.checkBarrier br i false) s

/-! ## Generator switch conditions (R177, R182) -/

/-- The producers that remain in a warp in generator mode. -/
def State.remaining (s : State) (c sl : Nat) (g : Gen) : Nat :=
  (s.warpThreads c sl).countP fun x => x.2.live && !g.ended.contains x.1.lane

def Gen.cnt (g : Gen) (f : Nat) : Nat := if f = 0 then g.cnt0 else g.cnt1
def Gen.setCnt (g : Gen) (f n : Nat) : Gen := if f = 0 then { g with cnt0 := n } else { g with cnt1 := n }

/-- The switch conditions of R182: PEND is set and the frame to consume is fixed. -/
def State.evalSwitch (s : State) (c sl : Nat) : State :=
  match (s.warp c sl).gen with
  | none => s
  | some g =>
    if g.consume || g.pend then s
    else
      let rem := s.remaining c sl g
      if g.cnt0 = 32 ∨ g.cnt1 = 32 ∨ (g.cnt g.fill ≥ g.h ∧ rem < g.p) ∨ rem = 0 then
        let cf := if g.cnt0 = 32 then 0 else if g.cnt1 = 32 then 1 else g.fill
        s.modWarp c sl fun w => { w with gen := some { g with pend := true, cf := cf } }
      else s

/-! ## Leaving a warp -/

/-- A warp slot with no live thread is vacated: its registers are zeroed (R173). -/
def State.vacate (s : State) (c sl : Nat) : State :=
  if s.slotLive c sl then s
  else
    let s := s.mapThreads fun t th => if t.core = c ∧ t.slot = sl then { th with g := Vector.replicate 124 0 } else th
    match s.warp? c sl with
    | none => s
    | some w => s.setWarp c sl { w with k := Vector.replicate 64 0 }

/-- Ends the leaven context in a slot: its threads and registers are gone (R155). -/
def State.endLeaven (s : State) (c sl : Nat) : State :=
  let s := (s.warpThreads c sl).foldl (fun s x => (s.unplace x.1).dropThread x.1) s
  { s with warps := tdel s.warps (c, sl) }

/-- The leaven contexts that a thread's stall has spawned end with it (R155). -/
def State.endSpawned (s : State) (t : TRef) : State :=
  match s.warps.find? fun x => x.2.leaven.any fun l => l.2 = t with
  | none => s
  | some x => s.endLeaven x.1.1 x.1.2

/-- One leaven thread ends; with the last one the context ends. -/
def State.endLeavenThread (s : State) (t : TRef) : State :=
  let s := (s.unplace t).dropThread t
  if (s.warpThreads t.core t.slot).isEmpty then { s with warps := tdel s.warps (t.core, t.slot) } else s

/-- A thread is a producer of its warp's generator: it has not ended (R177, R181). -/
def State.isProducer (s : State) (t : TRef) : Bool := (s.warp t.core t.slot).gen.any fun g => !g.ended.contains t.lane

/-- What follows when a thread has become Exited or Halted, or has left by KNEAD: barriers are evaluated again, and so
are the switch conditions of its warp when it was a producer and was Halted (R168, R182). -/
def State.departed (s : State) (t : TRef) (byHalt : Bool) : State :=
  let br := s.blkOf t
  let s := s.checkBarriers br
  let s := if byHalt && s.isProducer t then s.evalSwitch t.core t.slot else s
  s.vacate t.core t.slot

/-- A parity halt is counted for its core (R390). -/
def State.countPar (s : State) (c : Nat) : State :=
  s.modSec fun x => { x with life := { x.life with parity := tput x.life.parity c (satAdd 65535 ((tget x.life.parity c).getD 0) 1) } }

/-- A thread is Halted and the error word of its context records why, in this cycle and as from warp slot `sl` of its core
(R27, R32, R53, R324, R334). A leaven thread ends without a record (R155). -/
def State.haltAs (s : State) (sl : Nat) (t : TRef) (e : ErrWord) : State :=
  if (s.thread t).leaven then s.endLeavenThread t
  else
    let s := s.modErr (s.ownOf t) fun r => r.note s.clock (t.core * 64 + sl) e
    let s := if e.par then s.countPar t.core else s
    let s := (s.unplace t).modThread t fun th => { th with st := .halted }
    s.departed t true

def State.halt (s : State) (t : TRef) (e : ErrWord) : State := s.haltAs t.slot t e

def haltPAR : ErrWord := { par := true }

/-! ## SC operations (R239-R242, R258) -/

/-- The clock of a core or a thread beyond which an SC operation waits (R242). -/
def scLimit : Nat := 2 ^ 48 - 1

/-- A new timestamp for a thread's pending SC operation (R239). -/
def State.scStamp (s : State) (t : TRef) : State :=
  let k := (s.core t.core).scK + 1
  let s := s.modCore t.core fun c => { c with scK := k }
  s.modThread t fun th =>
    { th with scClock := BitVec.ofNat 48 k, scCore := BitVec.ofNat 11 t.core,
              sc := th.sc.map fun op => { op with ts := ⟨k, t.core⟩ } }

/-- The stamp that an arriving SC operation of a partition meets at the home: the line's, or the floor of its slice (R240). -/
def stampAt (s : State) (p ln : Nat) : Stamp := match l2find s ln with | some l => l.stamp | none => floorOf s p ln

/-- Sets the stamp of a line at its home. A line that gets no place in the home L2 (R355) has no stamp of its own: the operation meets the
floor of the slice and raises it (DESIGN CHOICE, log entry 74). -/
def setStamp (s : State) (p ln : Nat) (ts : Stamp) : State :=
  match l2find s ln with
  | some l => { s with l2 := linePut s.l2 { l with stamp := ts } }
  | none => { s with floors := tput s.floors (homeOf (ln * 128), sliceOf ln, p) ((floorOf s p ln).max ts) }

/-- What an SC operation writes, if it writes. -/
def ScOp.newWord (op : ScOp) (old : Word) : Option Word :=
  match op.kind with
  | .ld => none
  | .st => some op.b
  | .add => some (old + op.b)
  | .exch => some op.b
  | .cas => if old = op.expect then some op.b else none

/-- A thread's pending SC operation arrives at its home with its timestamp: it is applied when the timestamp exceeds the
stamp; the response raises the core's clock either way (R239, R240). -/
def State.scArrive (s : State) (t : TRef) : State :=
  match (s.thread t).sc with
  | none => s
  | some op =>
    let ln := op.pa / 128
    let r := readHome s (s.ownOf t) t.core op.pa 4 op.cmp
    let s := r.1
    let st := stampAt s (s.partOf t.core) ln
    let raise (c : Core) : Core := { c with scK := max c.scK st.clk }
    let s := s.modCore t.core raise
    if st.lt op.ts then
      let old := BitVec.ofNat 32 (leValue r.2.1)
      let s := match op.newWord old with
        | none => s
        | some w => storeHome s (s.ownOf t) t.core op.pa op.cmp (leBytes 4 w.toNat)
      let s := setStamp s (s.partOf t.core) ln op.ts
      let s := s.modThread t fun th =>
        { th with sc := none, outs := th.outs.map fun o => if o.src = .sc then { o with src := .val [old] } else o,
                  st := if th.st = .waiting .scHeld then .running else th.st }
      if r.2.2 && op.kind ≠ .st then s.halt t haltPAR else s
    else s

/-- An SC operation that was turned back takes a new timestamp and is tried again (R240); above 2^48 - 1 it waits for
the epoch change (R242). -/
def State.scRetry (s : State) (t : TRef) : State :=
  if (s.core t.core).scK ≥ scLimit then s else (s.scStamp t).scArrive t

/-- The SC operation of a thread is applied now, with as many tries as it needs. -/
def State.scForce (s : State) (t : TRef) : State :=
  match (s.thread t).sc with
  | none => s
  | some _ =>
    let s := s.scArrive t
    if (s.thread t).sc.isSome then s.scRetry t else s

/-- The SC operation of a thread cannot be applied before the epoch ends (R242). -/
def State.scStuck (s : State) (t : TRef) : Bool := (s.thread t).sc.isSome && ((s.scForce t).thread t).sc.isSome

/-- An access to bytes of the thread's pending SC operation follows it (R226). -/
def State.scMeeting (s : State) (t : TRef) (l : Loc) (n : Nat) : State :=
  match (s.thread t).sc with
  | none => s
  | some op => if l.meets n (.glob op.pa 0 false) 4 then s.scForce t else s

/-! ## Taking and landing loaded values (R48, R49, R226) -/

/-! ### Stores and atomics that are accepted and not yet performed (R226, R238, R252) -/

/-- What an atomic makes of the old word, if it writes (R256). -/
def AtomKind.newWord (k : AtomKind) (b expect old : Word) : Option Word :=
  match k with
  | .add => some (old + b)
  | .min => some (if old.toInt ≤ b.toInt then old else b)
  | .max => some (if old.toInt ≤ b.toInt then b else old)
  | .exch => some b
  | .cas => if old = expect then some b else none
  | .and => some (old &&& b)
  | .or => some (old ||| b)
  | .xor => some (old ^^^ b)

/-- An atomic performed at its home: one read and one write of the word in one action (R238). It delivers the old word. -/
def State.rmwAt (s : State) (t : TRef) (pa : Nat) (cmp : Bool) (x : Rmw) : State × Word × Bool :=
  let o := s.ownOf t
  let r := readHome s o t.core pa 4 cmp
  let old := BitVec.ofNat 32 (leValue r.2.1)
  let s := match x.kind.newWord x.b x.expect old with
    | none => r.1
    | some v => storeHome r.1 o t.core pa cmp (leBytes 4 v.toNat)
  (s, old, r.2.2)

/-- An accepted store or atomic is performed; the old word of an atomic is the value of its outstanding group. -/
def State.performStore (s : State) (t : TRef) (x : Store) : State :=
  match x.rmw, x.loc with
  | some a, .glob pa _ cmp =>
    let r := s.rmwAt t pa cmp a
    let set (o : Out) : Out := if o.src = .atom ∧ a.dst = some o.base then { o with src := .val [r.2.1] } else o
    let s := r.1.modThread t fun th => { th with outs := th.outs.map set }
    if r.2.2 then s.halt t haltPAR else s
  | _, _ => writeLoc s (s.ownOf t) t.core x.loc x.bytes

/-- Every accepted store and atomic, in the order of acceptance: by issue, and then by lane. -/
def State.accepted (s : State) : List (TRef × Store) :=
  sortBy (fun x => x.2.grp * 32 + x.1.lane) (s.threads.flatMap fun x => x.2.stores.map fun y => (x.1, y))

/-- The home die of an accepted atomic. -/
def Store.home (x : Store) : Option Nat := match x.rmw, x.loc with | some _, .glob pa _ _ => some (homeOf pa) | _, _ => none

/-- An access that must be performed before a later one: they meet, and one thread made both (R226) or one instruction did, the
earlier in the lower lane (R252); or they are atomics of one instruction that go to one home (R257). -/
def mustPrecede (x y : TRef × Store) : Bool :=
  let together := decide (x.1.core = y.1.core) && decide (x.2.grp = y.2.grp)
  (x.2.loc.meets x.2.bytes.length y.2.loc y.2.bytes.length && (decide (x.1 = y.1) || together)) ||
    (together && x.2.home.isSome && decide (x.2.home = y.2.home))

/-- Of the accepted accesses, those that a condition selects and those that must precede these. -/
def closeNeeded (need : TRef × Store → Bool) (l : List (TRef × Store)) : List ((TRef × Store) × Bool) :=
  (l.foldr (fun x acc =>
    let hit := need x || acc.1.any (mustPrecede x)
    (if hit then x :: acc.1 else acc.1, (x, hit) :: acc.2)) (([] : List (TRef × Store)), ([] : List ((TRef × Store) × Bool)))).2

/-- Performs the accepted accesses that a condition selects, after those that must precede them. -/
def State.performNeeded (s : State) (need : TRef × Store → Bool) : State :=
  let all := closeNeeded need s.accepted
  let left := (all.filter fun x => !x.2).map Prod.fst
  let s := s.mapThreads fun t th =>
    if th.stores.isEmpty then th else { th with stores := (left.filter fun x => decide (x.1 = t)).map Prod.snd }
  (all.filter Prod.snd).foldl (fun s x => s.performStore x.1.1 x.1.2) s

/-- The accepted accesses of a thread that meet a range are performed, since an access to the range follows them (R226). -/
def State.flushMeeting (s : State) (t : TRef) (l : Loc) (n : Nat) : State :=
  if (s.thread t).stores.isEmpty then s
  else s.performNeeded fun x => decide (x.1 = t) && x.2.loc.meets x.2.bytes.length l n

/-- Every accepted access of a thread is performed. -/
def State.flushAll (s : State) (t : TRef) : State :=
  if (s.thread t).stores.isEmpty then s else s.performNeeded fun x => decide (x.1 = t)

/-! ### Loads -/

/-- The parts of a load that have not taken their bytes. -/
def Out.parts (o : Out) : List Part :=
  match o.src with
  | .load ps _ => if o.got.isEmpty then ps else (ps.zipIdx.filter fun x => (tget o.got x.2).isNone).map Prod.fst
  | _ => []

/-- Two lists of parts share a byte. -/
def partsMeet (a b : List Part) : Bool := a.any fun p => b.any fun q => p.loc.meets p.n q.loc q.n

/-- Of a thread's outstanding loads, oldest first, those that must take their values before a read of some parts: they share a byte
with it or with a later one that must, so that reads of one byte follow its coherence order (R237). -/
def loadsNeeded (ps : List Part) (outs : List Out) : List Nat :=
  (outs.foldr (fun o acc => if partsMeet o.parts acc.1 then (o.parts ++ acc.1, o.base :: acc.2) else acc) (ps, ([] : List Nat))).2

/-- The load of one destination group takes its value now: the parts that have not taken their bytes do, its flags are delivered, and poison
halts the thread (R334). Parts that are left take their bytes in this one move, in order: the 16-byte accesses of a geometry object (R124) and
the four elements of a GATH (R255) too, unless `State.takePart` has moved one of them apart from it (DESIGN CHOICE, log 78). -/
def State.takeOut1 (s : State) (t : TRef) (base : Nat) : State :=
  match (s.thread t).outs.find? fun o => o.base = base with
  | some o =>
    match o.src with
    | .val _ => s
    | .sc => s.scForce t
    | .atom => s.performNeeded fun x => decide (x.1 = t) && decide (x.2.rmw.any fun a => a.dst = some base)
    | .load parts fin =>
      let r := s.readRest (s.ownOf t) t.core o.got 0 parts
      let v := fin.run o.n r.2.1
      let taken (x : Out) : Out := if x.base = base then { x with src := .val v.1 } else x
      let s := r.1.modThread t fun th => ({ th with outs := th.outs.map taken } : Thread).flag v.2
      if r.2.2 then s.halt t haltPAR else s
  | none => s

/-- The outstanding groups of a thread that were issued before one. -/
def outsBefore (base : Nat) (outs : List Out) : List Out := outs.takeWhile fun o => decide (o.base ≠ base)

/-- The load of one destination group takes its value, after the thread's earlier loads of the same bytes (R237). -/
def State.takeOut (s : State) (t : TRef) (base : Nat) : State :=
  let th := s.thread t
  let ps := (th.outs.filter fun o => decide (o.base = base)).flatMap Out.parts
  ((loadsNeeded ps (outsBefore base th.outs)).foldl (fun s b => s.takeOut1 t b) s).takeOut1 t base

/-- Part `k` of the load of one destination group takes its bytes before the others, after the thread's earlier loads of the same bytes
(R225, R237). -/
def State.takePart (s : State) (t : TRef) (base k : Nat) : State :=
  match (s.thread t).outs.find? fun o => o.base = base with
  | some o =>
    match o.src with
    | .load parts _ =>
      match parts[k]?, tget o.got k with
      | some p, none =>
        let s := (loadsNeeded [p] (outsBefore base (s.thread t).outs)).foldl (fun s b => s.takeOut1 t b) s
        let r := readLoc s (s.ownOf t) t.core p.loc p.n
        let taken (x : Out) : Out := if x.base = base then { x with got := tput x.got k r.2 } else x
        r.1.modThread t fun th => { th with outs := th.outs.map taken }
      | _, _ => s
    | _ => s
  | none => s

/-- Every load and atomic of a thread takes its value; its SC operation is neither (R231, R232, R241). -/
def State.takeAll (s : State) (t : TRef) : State :=
  (s.thread t).outs.foldl (fun s o => if o.src = .sc then s else s.takeOut t o.base) s

/-- The loads of a thread that read a byte of a range take their values, since a store to it follows (R226). -/
def State.takeMeeting (s : State) (t : TRef) (l : Loc) (n : Nat) : State :=
  (s.thread t).outs.foldl (fun s o => if o.parts.any fun p => p.loc.meets p.n l n then s.takeOut t o.base else s) s

/-- A destination group lands: the registers are written and the group is no longer outstanding (R49). Pending writes
of a thread that has ended are never read. -/
def State.landOut (s : State) (t : TRef) (base : Nat) : State :=
  let s := s.takeOut t base
  match (s.thread t).outs.find? fun o => o.base = base with
  | none => s
  | some o =>
    match o.src with
    | .val ws =>
      s.modThread t fun th =>
        let th : Thread := { th with outs := th.outs.filter fun x => x.base ≠ base }
        let th := if th.live then th.setGroup o.base ws else th
        if th.st = .waiting .outs then th.rearm else th
    | _ => s

/-- A location where accesses may be performed out of order: not device memory (R212, R226). -/
def Loc.loose : Loc → Bool
  | .glob pa mt _ => !inDevice pa && decide (mt ≠ 2)
  | .scr _ _ => true

/-- The number of the issue under way: a port issues once in a cycle. -/
def State.issueNo (s : State) : Nat := 2 * s.clock + s.curPort

/-- The loaves that have begun on all cores. -/
def State.loavesBegun (s : State) : Nat := s.cores.foldl (fun n x => n + x.2.loaves) 0

/-- An access of a thread is accepted, to be performed later. -/
def State.acceptAt (s : State) (t : TRef) (l : Loc) (bs : List Byte) (x : Option Rmw) : State :=
  let st : Store := { loc := l, bytes := bs, rmw := x, grp := s.issueNo, due := s.loavesBegun + 1024 }
  s.modThread t fun th => { th with stores := th.stores ++ [st] }

/-- A plain store of a thread: performed now, or accepted and performed later (R226, R231; log 1). -/
def State.storeAt (s : State) (t : TRef) (l : Loc) (bs : List Byte) : State :=
  let s := (s.takeMeeting t l bs.length).scMeeting t l bs.length
  if s.defer then
    if l.loose then s.acceptAt t l bs none
    else
      let s := s.performNeeded fun x => (decide (x.1 = t) || (decide (x.1.core = t.core) && decide (x.2.grp = s.issueNo))) &&
        x.2.loc.meets x.2.bytes.length l bs.length
      writeLoc s (s.ownOf t) t.core l bs
  else writeLoc (s.flushMeeting t l bs.length) (s.ownOf t) t.core l bs

/-- A long-latency read of a thread (R48): its value is taken when it lands, or now at a device; with N = 1 it
is performed and discarded (R39). `ld` marks the loads on which a stall may spawn a leaven context (R154). -/
def State.loadAt (s : State) (t : TRef) (base n : Nat) (nflag : Bool) (parts : List Part) (fin : Finish) (ld : Bool := false) : State :=
  let s := parts.foldl (fun s p => (s.flushMeeting t p.loc p.n).scMeeting t p.loc p.n) s
  if nflag then
    let s := (loadsNeeded parts (s.thread t).outs).foldl (fun s b => s.takeOut1 t b) s
    let r := s.readParts (s.ownOf t) t.core parts
    let s := r.1.modThread t fun th => th.flag (fin.run n r.2.1).2
    if r.2.2 then s.halt t haltPAR else s
  else
    let s := s.modThread t fun th => { th with outs := th.outs ++
      [{ base := base, n := n, named := false, past := false, exempt := false, ld := ld, src := .load parts fin }] }
    if parts.all fun p => p.loc.loose then s else s.takeOut t base

/-- A long-latency result whose value is known at once and lands later; with N = 1 it is discarded. -/
def Thread.outVal (th : Thread) (base : Nat) (nflag : Bool) (ws : List Word) : Thread :=
  if nflag then th
  else { th with outs := th.outs ++
    [{ base := base, n := ws.length, named := false, past := false, exempt := false, src := .val ws }] }

/-! ## Traps (R322-R326, R330) -/

/-- What taking a trap does to the thread (R324): the trap registers, the trap state, the handler's pc; every write that
has not landed becomes pending (R49). -/
def Thread.trapEntry (th : Thread) (i : TrapInfo) (after : Bool) : Thread :=
  let outs := th.outs.map fun o => if o.past then o else { o with past := true, named := true, exempt := true }
  { th with xpc := if after then th.pc + 4 else th.pc, xcause := i.word, xaddr := i.addr,
            trap := some (if after then {} else th.loaf), outs := outs, loaf := {}, pc := th.xvec, st := .ready, heeled := after }

/-- A thread traps: it saves its loaf, enters its handler with empty latches and leaves its group, or halts (R324).
`after` says that the instruction was TRAP, BKPT or TFENCE. A leaven thread ends (R155). -/
def State.takeTrap (s : State) (t : TRef) (i : TrapInfo) (after : Bool) : State :=
  let th := s.thread t
  if th.leaven then s.endLeavenThread t
  else if th.trap.isSome then s.halt t { dblf := true }
  else if th.xvec = 0 then s.halt t { novec := true }
  else
    (s.unplace t).setThread t (th.trapEntry i after)

/-- The return from a trap (R330): the heel of XRET, then the pc is %xpc and the loaf continues, or a new one starts. -/
def Thread.trapReturn (th : Thread) (fresh : Bool) : Thread :=
  let back : Loaf := if fresh then {} else th.trap.getD {}
  { th.heel [] with pc := th.xpc, loaf := back, trap := none }

/-- The word of %xmode (R325). -/
def Thread.xmode (th : Thread) : Word :=
  match th.trap with
  | none => 0
  | some l => BitVec.ofNat 32 (1 + (if l.j ≠ 0 ∨ l.cnt ≠ 0 then 4 else 0) + l.j * 16 + l.cnt * 256)

/-- %sctime (R22, R239). -/
def Thread.sctime (th : Thread) : Dword := BitVec.ofNat 64 (th.scClock.toNat + th.scCore.toNat * 2 ^ 48)

/-! ## The member register (R157, R158) -/

/-- k63 of a warp. -/
def State.members (s : State) (c sl : Nat) : Word := ((s.warp c sl).k[63]?).getD 0

/-- The lanes of a mask. -/
def maskLanes (m : Word) : List Nat := (List.range 32).filter fun i => m.getLsbD i

/-- A mask of lanes. -/
def laneMask (l : List Nat) : Word := BitVec.ofNat 32 ((List.range 32).foldl (fun m i => if l.contains i then m + 2 ^ i else m) 0)

/-- The thread in a lane is there and neither Exited nor Halted. -/
def State.laneLive (s : State) (c sl l : Nat) : Bool :=
  match s.thread? ⟨c, sl, l⟩ with | none => false | some th => th.live

/-- The MASK fault of R179: %xaddr is k63 zero-extended. -/
def maskTrap (m : Word) : TrapInfo := { code := causeMASK, addr := m.setWidth 64 }

end Sys2Proof.Machine
end

