-- ==== Sys2Proof/Machine/Operands.lean ====
section
/-! DEFINITION. How an issue group executes one instruction: the checks that make a word illegal (spec 02 R52, R53; 01
R19), parity (20 R334), the wait in place for an outstanding write (02 R48), the end of a leaven thread (07 R155), the
operands of a lane (04 R81), and what becomes of each thread and of the port (07 R151). -/

namespace Sys2Proof

/-! ## What is read beside general registers -/

/-- The predicates an instruction reads. -/
def Instr.predsRead : Instr → List Nat
  | .sel p _ _ _ _ _ => [p.toNat]
  | .pand b a _ _ => [a.toNat, b.toNat]
  | .por b a _ _ => [a.toNat, b.toNat]
  | .pxor b a _ _ => [a.toNat, b.toNat]
  | .pnot a _ _ => [a.toNat]
  | .br _ _ p => [p.toNat]
  | .voteAny a _ _ _ => [a.toNat]
  | .voteAll a _ _ _ => [a.toNat]
  | .voteBallot a _ _ _ => [a.toNat]
  | .compact a _ _ _ => [a.toNat]
  | .ptog _ _ _ => [1, 2, 3]
  | _ => []

/-- The cross-lane instructions (R157). -/
def Instr.isCross : Instr → Bool
  | .shflIdx .. | .shflUp .. | .shflDown .. | .shflXor .. => true
  | .voteAny .. | .voteAll .. | .voteBallot .. | .voteUni .. => true
  | .redaddI .. | .redaddF .. | .redminS .. | .redmaxS .. => true
  | .matchLanes .. | .compact .. | .scanadd .. | .elect .. => true
  | _ => false

/-- The k registers an instruction reads. -/
def Instr.kRead (i : Instr) : List Nat :=
  match i with
  | .rdk m _ _ _ => [m.toNat]
  | .cbx .. => List.range' 48 8
  | .cbq .. => List.range' 48 8
  | .mxiss .. => List.range' 48 8
  | .genbeg .. => [63]
  | .gennext => [63]
  | .mxmeta .. => [63]
  | .rsend .. => [63]
  | .rrecv .. => [63]
  | .join => [63]
  | i => if i.isCross then [63] else []

/-- What a leaven thread executes: the lane instructions of chapter 04 and the loads of R155 and R267. Everything else
ends it. -/
def Instr.leavenRuns : Instr → Bool
  | .ldG .. | .ldS .. | .gath .. | .gathS .. | .pref .. => true
  | .rayld .. | .boxt .. | .desc .. | .asc .. | .trit .. | .rastt .. => true
  | .tcmp .. | .tcvt .. | .refit .. | .vtxq .. => true
  | .br .. | .jmp .. | .jr .. | .ret | .jtab .. | .nop .. | .heel .. => true
  | .pand .. | .por .. | .pxor .. | .pnot .. | .ptog .. | .gtop .. | .icmp .. | .fcmp .. | .sel .. => true
  | .add .. | .sub .. | .and .. | .or .. | .xor .. | .andn .. | .minS .. | .maxS .. | .minU .. | .maxU .. => true
  | .absdS .. | .addsatS .. | .shl .. | .shrU .. | .shrS .. | .rotl .. => true
  | .mullo .. | .mulhiS .. | .mulhiU .. | .mulwS .. | .mad .. | .madwS .. | .dot4I8 .. | .dot4N8 .. => true
  | .addi .. | .andi .. | .ori .. | .xori .. | .shli .. | .shriU .. | .shriS .. | .rotli .. | .movh .. | .orl .. => true
  | .bfeU .. | .bfeS .. | .bfi .. | .permb .. | .popc .. | .clz .. | .brev .. | .neg .. => true
  | .fadd .. | .fsub .. | .fmul .. | .fmax .. | .ffma .. | .ffms .. | .fnfma .. | .fmad2 .. | .fmin .. => true
  | .fcopysign .. | .fabs .. | .fneg .. | .cvt .. | .pkbf .. | .pkh8 .. | .upkbf .. | .upkh8 .. => true
  | .rcp .. | .rsq .. | .ex2 .. | .lg2 .. | .sqrt .. | .sin .. | .cos .. | .tanh .. => true
  | .hadd2 .. | .hsub2 .. | .hmul2 .. | .hmax2 .. | .hfma2 .. | .hfms2 .. => true
  | .cbx .. | .cbq .. | .nqx .. | .nqq .. => true
  | .mov .. | .add16 .. | .sub16 .. | .mullo16 .. | .and16 .. | .or16 .. | .xor16 .. | .shl16 .. => true
  | .shrU16 .. | .shrS16 .. | .minS16 .. | .maxS16 .. | .fadd16 .. | .fsub16 .. | .fmul16 .. | .fmax16 .. => true
  | _ => false

/-- The registers that HEEL names (R50). -/
def Instr.heelNames : Instr → List Nat
  | .heel b a d => [d.toNat, a.toNat, b.toNat].filter (· ≠ 0)
  | _ => []

/-- MAJ, or op4 of a 16-bit word (R26). -/
def Instr.maj (i : Instr) : BitVec 6 :=
  match encode i with
  | b0 :: b1 :: _ => majOf b0 b1
  | _ => 0

end Sys2Proof

namespace Sys2Proof.Machine

/-- What an instruction answers. -/
abbrev Answer := Host.Outcome State Fault Refusal

/-! ## The fate of a thread -/

/-- What becomes of a thread at an instruction. -/
inductive Fate where
  /-- the instruction retires and the thread stands behind it -/
  | go
  /-- it retires and the thread stands at a target -/
  | goto (pc : Dword)
  /-- an exact fault -/
  | trap (i : TrapInfo)
  /-- TRAP, BKPT or TFENCE traps -/
  | trapNext (i : TrapInfo)
  /-- the thread waits at the instruction, which is a heel -/
  | wait (w : Wait)
  /-- the heel retires and the thread waits behind it -/
  | rest (w : Wait)
  /-- the meaning has said itself what becomes of the thread -/
  | gone
  deriving DecidableEq, Repr

/-- A thread behind an instruction that retires: in the middle of its loaf, or past its heel (R46, R49). -/
def Thread.behind (th : Thread) (i : Instr) (pc : Dword) : Thread :=
  let th := { th.retire i.len with pc := pc }
  if i.isHeel then th.heel i.heelNames else th

/-- The fate of a thread put into effect. -/
def State.applyFate (s : State) (i : Instr) (t : TRef) : Fate → State
  | .go => s.modThread t fun th => th.behind i (th.pc + BitVec.ofNat 64 i.len)
  | .goto pc => s.modThread t fun th => th.behind i pc
  | .trap inf => s.takeTrap t inf false
  | .trapNext inf => s.takeTrap t inf true
  | .wait w => s.modThread t fun th => { th with st := .waiting w }
  | .rest w => s.modThread t fun th => { th.behind i (th.pc + BitVec.ofNat 64 i.len) with st := .waiting w }
  | .gone => s

/-- A thread that its instruction has halted or ended (R334, R155) meets no further fate. -/
def State.settleFate (s : State) (i : Instr) (t : TRef) (f : Fate) : State :=
  if (s.thread t).st = .running then s.applyFate i t f else s

/-- The group a port keeps: the threads still Running, or none after a heel (R151). -/
def State.keepPort (s : State) (i : Instr) (g : List TRef) : State :=
  let keep := if i.isHeel then [] else g.filter fun t => (s.thread t).st = .running
  s.modCore s.curCore fun c => c.setPort s.curPort keep

/-- The warps that a group touches: core and slot. -/
def groupWarps (g : List TRef) : List (Nat × Nat) := (g.map fun t => (t.core, t.slot)).eraseDups

/-! ## Illegal words -/

/-- A group is held in place when what it does depends on a scratchpad way that is still to be loaded: an access to such a way waits
(R340). -/
def State.loadHold (s : State) (body : State → State) : Bool := s.loading && decide ((body s).loaded ≠ body s.loaded)

/-- A word is illegal for a whole group: its operands, a latch not yet pushed, a 25th instruction, a second YIELD
(R47, R52). -/
def illegalFor (i : Instr) (th : Thread) : Bool :=
  !i.wf || i.shape.latches.any (fun k => decide (th.loaf.j ≤ k)) || decide (24 ≤ th.loaf.cnt) ||
    (match i with | .yield .. => th.loaf.yielded | _ => false)

/-- A register at or above the thread's budget makes the word illegal for that thread alone (R19). -/
def overBudget (i : Instr) (th : Thread) : Bool := i.shape.regs.any fun r => decide (th.budget ≤ r)

/-- The warp slot of a group's first thread, in the order of the PC table: the lowest (R27, R149; log 56). -/
def firstSlot (g : List TRef) : Nat := g.foldl (fun m t => min m t.slot) 47

/-- Threads of a group `g` meet the fate of an illegal word (R53): they are Halted and ILL is recorded. -/
def State.illegal (s : State) (g ts : List TRef) (is16 : Bool) (maj : BitVec 6) : State :=
  ts.foldl (fun s t => s.haltAs (firstSlot g) t (errILL is16 maj)) s

/-- The k registers that BSQ reads when its control input names the CB4 table (R313). -/
def kReadBy (i : Instr) (th : Thread) : List Nat :=
  match i with
  | .bsq _ _ _ d _ => if (th.word d.toNat).toNat % 4 = 2 then List.range' 48 8 else []
  | _ => []

/-- The registers of the entry that YIELD reads, for the entry width of its warp (R179). -/
def yieldRegs (i : Instr) (w : Warp) : List Nat :=
  match i, w.gen with
  | .yield a _, some g => List.range' a.toNat g.w
  | _, _ => []

/-- The registers of the entry that TAKE writes (R185); with N = 1 none. -/
def takeRegs (i : Instr) (w : Warp) : List Nat :=
  match i, w.gen with
  | .take _ n d _, some g => if n then [] else List.range' d.toNat g.w
  | _, _ => []

/-- The parity marks that a source is read from: registers, and the halves of a latch that its width takes (R20, R334). -/
def srcMarks : Src → List Nat
  | .word c => [c]
  | .pair c => if c < 124 then [c, c + 1] else [c, c + 8]
  | .group b n => List.range' b n
  | .run b n => List.range' b n
  | .name _ => []
  | .soft _ => []

/-- The reading threads that a parity error halts (R334): registers, latches, predicates, k registers. -/
def parityHit (i : Instr) (w : Warp) (th : Thread) : Bool :=
  (!th.bad.isEmpty && ((i.shape.srcs.flatMap srcMarks ++ yieldRegs i w).any th.bad.contains ||
    i.predsRead.any fun p => th.bad.contains (128 + p))) ||
  (!w.badK.isEmpty && (i.kRead ++ kReadBy i th).any w.badK.contains)

/-- An instruction that reads or writes a register of an outstanding group waits in place (R48). -/
def waitsInPlace (i : Instr) (w : Warp) (th : Thread) : Bool :=
  !th.outs.isEmpty && (i.shape.touch ++ yieldRegs i w ++ takeRegs i w).any fun r =>
    th.outs.any fun o => decide (o.base ≤ r) && decide (r < o.base + o.n)

/-! ## Issue -/

/-- The part of an issue that every encoded instruction shares. A group with a thread that an SC operation holds keeps its port
(R44, R240). `held` gives what is left when the group is held in place for a reason of the instruction's own; `body`
executes it for the threads that remain, in lane order. -/
def issueWith (i : Instr) (s : State) (held : State → List TRef → Option State) (body : State → List TRef → State) :
    Answer :=
  match s.group with
  | [] => .fault .noIssueGroup
  | t0 :: rest =>
    let g := t0 :: rest
    if g.any fun t => decide ((s.thread t).st = .waiting .scHeld) then .next s
    else if (s.thread t0).leaven && !i.leavenRuns then
      .next ((g.foldl State.endLeavenThread s).keepPort i [])
    else if g.any fun t => illegalFor i (s.thread t) then
      .next ((s.illegal g g (decide (i.len = 2)) i.maj).keepPort i [])
    else
      let s := s.illegal g (g.filter fun t => overBudget i (s.thread t)) (decide (i.len = 2)) i.maj
      let g := g.filter fun t => (s.thread t).st = .running
      let s := (g.filter fun t => parityHit i (s.warp t.core t.slot) (s.thread t)).foldl (fun s t => s.halt t haltPAR) s
      let g := g.filter fun t => (s.thread t).st = .running
      if (g.any fun t => waitsInPlace i (s.warp t.core t.slot) (s.thread t)) || s.loadHold (fun s => body s g) then .next s
      else match held s g with
        | some s' => .next s'
        | none => .next ((body s g).keepPort i g)

/-- One thread's part of an instruction. -/
def turn (i : Instr) (f : State → TRef → State × Fate) (s : State) (t : TRef) : State :=
  let r := f s t
  r.1.settleFate i t r.2

/-- An instruction that each thread executes for itself, in lane order. -/
def issueEach (i : Instr) (s : State) (f : State → TRef → State × Fate) : Answer :=
  issueWith i s (fun _ _ => none) fun s g => g.foldl (turn i f) s

/-! ## Lane instructions (R81, R82) -/

/-- What a lane instruction delivers: registers from a base on, a value to push, predicates, flags. -/
structure Res where
  base : Nat := 0
  regs : List Word := []
  push : Option Dword := none
  preds : List (Nat × Bool) := []
  flags : BitVec 5 := 0
  deriving DecidableEq, Repr

/-- A result delivered to a thread. -/
def Thread.deliver (th : Thread) (r : Res) : Thread :=
  let th := th.setGroup r.base r.regs
  let th := match r.push with | none => th | some v => th.push v
  (r.preds.foldl (fun th p => th.setPred p.1 p.2) th).flag r.flags

/-- A 32-bit result for gD, pushed zero-extended; N = 1 suppresses the register write only (R39, R46). -/
def res1 (n : Bool) (d : Nat) (v : Word) (fl : BitVec 5 := 0) : Res :=
  { base := d, regs := if n then [] else [v], push := some (v.setWidth 64), flags := fl }

/-- A 64-bit result for gD:gD+1, pushed as one value. -/
def res2 (n : Bool) (d : Nat) (v : Dword) (fl : BitVec 5 := 0) : Res :=
  { base := d, regs := if n then [] else [loWord v, hiWord v], push := some v, flags := fl }

/-- A predicate result; nothing is pushed. -/
def resP (p : Nat) (v : Bool) (fl : BitVec 5 := 0) : Res := { preds := [(p, v)], flags := fl }

/-- A lane instruction: a function of the thread alone. -/
def laneTurn (f : Thread → Res) (s : State) (t : TRef) : State × Fate :=
  (s.modThread t fun th => th.deliver (f th), .go)

def issueLane (i : Instr) (s : State) (f : Thread → Res) : Answer :=
  issueEach i s (laneTurn f)

/-- A lane instruction that also reads its position, its warp or its core. -/
def issueLaneAt (i : Instr) (s : State) (f : State → TRef → Thread → Res) : Answer :=
  issueEach i s fun s t => (s.modThread t fun th => th.deliver (f s t th), .go)

/-- A lane instruction that may fault before any effect. -/
def issueLaneTrap (i : Instr) (s : State) (f : State → TRef → Thread → Except TrapInfo Res) :
    Answer :=
  issueEach i s fun s t =>
    match f s t (s.thread t) with
    | .error inf => (s, .trap inf)
    | .ok r => (s.modThread t fun th => th.deliver r, .go)

/-- The third source of an RC form as a 32-bit operand and as a pair (R38). -/
def Thread.third (th : Thread) (c : BitVec 2) (d : Code) : Word := th.word (Sys2Proof.third c d)
def Thread.thirdPair (th : Thread) (c : BitVec 2) (d : Code) : Dword := th.pair (Sys2Proof.third c d)

end Sys2Proof.Machine
end

