-- ==== Sys2Proof/Machine/Fetch.lean ====
section
/-! DEFINITION. Instruction fetch (spec 01 R28, 02 R35, 04 R112, 12 R211): translation with execute permission, the
instruction cache of a core, and the registers that the rest of a loaf names (02 R49). -/

namespace Sys2Proof.Machine

/-- What a fetch needs: execute permission, no device, no page of chunk records (R212, R217, R219). -/
def fetchNeed (align : Nat) : Need :=
  { acc := accFetch, r := false, w := false, x := true, align := align, noDev := true, cmpOk := false }

/-- The bytes of a physical address in one line, as the core fetches them: its instruction cache, else the home L2. -/
def State.codeBytes (s : State) (c pa n : Nat) : List Byte :=
  match (s.core c).icache.find? fun l => l.line = pa / 128 with
  | some l => (l.bytes.drop (pa % 128)).take n
  | none => homeBytes s pa n

/-- The line of a fetch is brought into the instruction cache: 64 KiB are 512 lines (log 4). -/
def State.codeFill (s : State) (o : Own) (c pa : Nat) (cmp : Bool) : State :=
  match (s.core c).icache.find? fun l => l.line = pa / 128 with
  | some _ => s
  | none =>
    let s := homeFill s o (pa / 128) cmp
    let l : ICLine := ⟨pa / 128, homeLine s (pa / 128), linePoison s (pa / 128)⟩
    s.modCore c fun x => { x with icache := (l :: x.icache).take 512 }

/-- `n` bytes fetched at an address, in one page and one line. -/
def State.fetchPart (s : State) (c : Nat) (o : Own) (va : Dword) (n align : Nat) : Except TrapInfo (State × List Byte) :=
  match checkGlobal s c o va n (fetchNeed align) with
  | .error e => .error e
  | .ok (.glob pa _ cmp) =>
    let s := (noteXlate s c o va.toNat).codeFill o c pa cmp
    .ok (s, s.codeBytes c pa n)
  | .ok (.scr _ _) => .error { code := causeTRANS, addr := va, acc := accFetch }

/-- The bytes of the instruction at an address: two, or four when bit 0 of the first is set; a word that straddles a
page reports the address of its first byte (R35). -/
def State.fetch (s : State) (c : Nat) (o : Own) (pc : Dword) : Except TrapInfo (State × List Byte) :=
  match s.fetchPart c o pc 2 2 with
  | .error e => .error e
  | .ok (s, bs) =>
    match bs with
    | b0 :: _ =>
      if b0.getLsbD 0 then
        match s.fetchPart c o (pc + 2) 2 2 with
        | .error e => .error { e with addr := pc }
        | .ok (s, cs) => .ok (s, bs ++ cs)
      else .ok (s, bs)
    | [] => .ok (s, bs)

/-- Two bytes of code that a core has fetched lie in a poisoned word (R334). -/
def State.partBad (s : State) (c : Nat) (o : Own) (va : Dword) : Bool :=
  match checkGlobal s c o va 2 (fetchNeed 2) with
  | .ok (.glob pa _ _) => ((s.core c).icache.find? fun l => l.line = pa / 128).any fun l => l.poison.contains (pa / 8)
  | _ => false

/-- The instruction of `n` bytes at an address, which the core has fetched, is poisoned: a thread that reads it is Halted (R334). -/
def State.codeBad (s : State) (c : Nat) (o : Own) (pc : Dword) (n : Nat) : Bool :=
  s.partBad c o pc || (decide (n = 4) && s.partBad c o (pc + 2))

/-- The registers that a loaf of a warp reads or writes, from an address up to its heel, as the core pre-decodes it (R49). -/
def State.loafTouch (s : State) (c : Nat) (o : Own) (w : Warp) : Nat → Dword → List Nat
  | 0, _ => []
  | fuel + 1, pc =>
    match s.fetch c o pc with
    | .error _ => []
    | .ok (_, bs) =>
      match decode bs with
      | none => []
      | some (i, _) =>
        i.shape.touch ++ yieldRegs i w ++ takeRegs i w ++ (if i.isHeel then [] else s.loafTouch c o w fuel (pc + BitVec.ofNat 64 i.len))

/-- A pending register holds a thread back from its next loaf (R49). -/
def State.heldBack (s : State) (t : TRef) (th : Thread) : Bool :=
  let pend := th.outs.filter Out.past
  !pend.isEmpty && (s.loafTouch t.core (s.ownOf t) (s.warp t.core t.slot) 25 th.pc).any fun r =>
    pend.any fun o => decide (o.base ≤ r) && decide (r < o.base + o.n)

end Sys2Proof.Machine
end

