-- ==== Sys2Proof/Machine/Plain.lean ====
section
/-! DEFINITION. Loads, stores, gathers, scatters, LDRAW and PREF (spec 14 R247-R255, R265, R266), and the checks that every
memory instruction shares (R248, R249). -/

namespace Sys2Proof.Machine

/-! ## Shared parts -/

/-- A location further on. -/
def Loc.shift : Loc → Nat → Loc
  | .glob pa mt cmp, i => .glob (pa + i) mt cmp
  | .scr b off, i => .scr b (off + i)

/-- An access as its single-copy parts: at most 16 bytes each (R225). -/
def partsOf (l : Loc) (n : Nat) : List Part :=
  if n ≤ 16 then [⟨l, n⟩] else (List.range (n / 16)).map fun i => ⟨l.shift (16 * i), 16⟩

/-- A memory instruction: each thread's checks, then its effect; a failed check is an exact fault. -/
def memTurn (f : State → TRef → Thread → Except TrapInfo State) (s : State) (t : TRef) : State × Fate :=
  match f s t (s.thread t) with
  | .error inf => (s, .trap inf)
  | .ok s' => (s', .go)

/-- The state as it would be if no SC operation had to wait for the end of an epoch. -/
def State.unstuck (s : State) : State :=
  { s with cores := s.cores.map fun (x : Nat × Core) => (x.1, { x.2 with scK := 0 }), l2 := s.l2.map fun (l : CLine) => { l with stamp := {} }, floors := [] }

/-- A group is held in place when an access of one of its threads meets that thread's SC operation, which must be performed first (R226)
and cannot be before the epoch ends (R242; log 58). -/
def State.stuckHold (body : State → List TRef → State) (s : State) (g : List TRef) : Option State :=
  let stuck := g.filter s.scStuck
  if stuck.isEmpty then none
  else
    let s' := body s.unstuck g
    if stuck.any fun t => (s'.thread t).sc.isNone then some s else none

def issueMem (i : Instr) (s : State) (f : State → TRef → Thread → Except TrapInfo State) : Answer :=
  let body (s : State) (g : List TRef) : State := g.foldl (turn i (memTurn f)) s
  issueWith i s (State.stuckHold body) body

/-- A global access of a thread checked; its translation stays in the TLB. -/
def State.globalOf (s : State) (t : TRef) (ea : Dword) (n : Nat) (q : Need) : Except TrapInfo (State × Loc) :=
  match checkGlobal s t.core (s.ownOf t) ea n q with
  | .error inf => .error inf
  | .ok l => .ok (noteXlate s t.core (s.ownOf t) ea.toNat, l)

/-- A scratchpad access of a thread checked. A range in a way that is not loaded is not there: the group that asks for it is held
(`State.loadHold`, R340). -/
def State.scratchOf (s : State) (t : TRef) (addr : Word) (n align acc : Nat) : Except TrapInfo (State × Loc) :=
  match checkScratch s (s.blkOf t) addr n align acc with
  | .error inf => .error inf
  | .ok l => match l with
    | .scr b off => if (s.block b).ready off n then .ok (s, l) else .error (boundAt (addr.setWidth 64) acc)
    | .glob _ _ _ => .ok (s, l)

/-- What a plain load or store of `z` bytes needs of a page (R249). -/
def loadNeed (z : Nat) : Need := { acc := accRead, r := true, w := false, align := z, noDev := decide (8 < z), cmpOk := false }
def storeNeed (z : Nat) : Need := { acc := accWrite, r := false, w := true, align := z, noDev := decide (8 < z), cmpOk := false }

/-- The effective address of a global M form (R247). -/
def eaGlobal (base : Dword) (o : BitVec 6) (z : Nat) : Dword := base + BitVec.ofInt 64 (o.toInt * z)
/-- The effective address of a scratchpad M form (R247). -/
def eaScratch (base : Word) (o : Int) (z : Nat) : Word := base + BitVec.ofInt 32 (o * z)

/-- The bytes of a word, of a pair and of a list of words. -/
def wordBytes (w : Word) : List Byte := leBytes 4 w.toNat
def dwordBytes (d : Dword) : List Byte := leBytes 8 d.toNat
def wordsBytes (ws : List Word) : List Byte := ws.flatMap wordBytes

/-- The bytes that a store of a size code takes from its data operand (R250). -/
def storeBytes (th : Thread) (size d : Nat) : List Byte :=
  if size < 3 then (wordBytes (th.word d)).take (sizeBytes size)
  else if size = 3 then dwordBytes (th.pair d)
  else wordsBytes (th.group d (sizeRegs size))

/-- Stores of bytes over the parts of an access. -/
def State.storeParts (s : State) (t : TRef) : List Part → List Byte → State
  | [], _ => s
  | p :: ps, bs => (s.storeAt t p.loc (bs.take p.n)).storeParts t ps (bs.drop p.n)

/-! ## LD.G, ST.G, LD.S, ST.S (R250, R251) -/

def execLdG (o : BitVec 6) (sz : BitVec 3) (a : Code) (n : Bool) (d : Code) (e : Bool) (s : State) : Answer :=
  issueMem (.ldG o sz a n d e) s fun s t th => do
    let z := sizeBytes sz.toNat
    let r ← s.globalOf t (eaGlobal (th.pair a.toNat) o z) z (loadNeed z)
    return r.1.loadAt t d.toNat (sizeRegs sz.toNat) n (partsOf r.2 z) .raw true

def execStG (o : BitVec 6) (sz : BitVec 3) (a d : Code) (e : Bool) (s : State) : Answer :=
  issueMem (.stG o sz a d e) s fun s t th => do
    let z := sizeBytes sz.toNat
    let r ← s.globalOf t (eaGlobal (th.pair a.toNat) o z) z (storeNeed z)
    return r.1.storeParts t (partsOf r.2 z) (storeBytes th sz.toNat d.toNat)

def execLdS (o : BitVec 6) (sz : BitVec 3) (a : Code) (n : Bool) (d : Code) (e : Bool) (s : State) : Answer :=
  issueMem (.ldS o sz a n d e) s fun s t th => do
    let z := sizeBytes sz.toNat
    let r ← s.scratchOf t (eaScratch (th.word a.toNat) o.toInt z) z z accRead
    return r.1.loadAt t d.toNat (sizeRegs sz.toNat) n (partsOf r.2 z) .raw true

def execStS (o : BitVec 6) (sz : BitVec 3) (a d : Code) (e : Bool) (s : State) : Answer :=
  issueMem (.stS o sz a d e) s fun s t th => do
    let z := sizeBytes sz.toNat
    let r ← s.scratchOf t (eaScratch (th.word a.toNat) o.toInt z) z z accWrite
    return r.1.storeParts t (partsOf r.2 z) (storeBytes th sz.toNat d.toNat)

/-! ## Gathers and scatters (R255) -/

/-- The element addresses of a global gather or scatter. -/
def elemsGlobal (base : Dword) (idx : List Word) : List Dword := idx.map fun i => base + BitVec.ofInt 64 (4 * i.toInt)
def elemsScratch (base : Word) (idx : List Word) : List Word := idx.map fun i => base + BitVec.ofInt 32 (4 * i.toInt)

/-- Every element is checked in order before any effect. -/
def State.globalAll (s : State) (t : TRef) (q : Need) : List Dword → Except TrapInfo (State × List Part)
  | [] => .ok (s, [])
  | a :: r =>
    match s.globalOf t a 4 q with
    | .error inf => .error inf
    | .ok (s, l) =>
      match s.globalAll t q r with
      | .error inf => .error inf
      | .ok (s, ps) => .ok (s, ⟨l, 4⟩ :: ps)

def State.scratchAll (s : State) (t : TRef) (acc : Nat) : List Word → Except TrapInfo (State × List Part)
  | [] => .ok (s, [])
  | a :: r =>
    match s.scratchOf t a 4 4 acc with
    | .error inf => .error inf
    | .ok (s, l) =>
      match s.scratchAll t acc r with
      | .error inf => .error inf
      | .ok (s, ps) => .ok (s, ⟨l, 4⟩ :: ps)

def execGath (b a : Code) (n : Bool) (d : Code) (e : Bool) (s : State) : Answer :=
  issueMem (.gath b a n d e) s fun s t th => do
    let q : Need := { loadNeed 4 with noDev := true }
    let r ← s.globalAll t q (elemsGlobal (th.pair a.toNat) (th.group b.toNat 4))
    return r.1.loadAt t d.toNat 4 n r.2 .raw true

def execScat (b a d : Code) (e : Bool) (s : State) : Answer :=
  issueMem (.scat b a d e) s fun s t th => do
    let q : Need := { storeNeed 4 with noDev := true }
    let r ← s.globalAll t q (elemsGlobal (th.pair a.toNat) (th.group b.toNat 4))
    return r.1.storeParts t r.2 (wordsBytes (th.group d.toNat 4))

def execGathS (b a : Code) (n : Bool) (d : Code) (e : Bool) (s : State) : Answer :=
  issueMem (.gathS b a n d e) s fun s t th => do
    let r ← s.scratchAll t accRead (elemsScratch (th.word a.toNat) (th.group b.toNat 4))
    return r.1.loadAt t d.toNat 4 n r.2 .raw true

def execScatS (b a d : Code) (e : Bool) (s : State) : Answer :=
  issueMem (.scatS b a d e) s fun s t th => do
    let r ← s.scratchAll t accWrite (elemsScratch (th.word a.toNat) (th.group b.toNat 4))
    return r.1.storeParts t r.2 (wordsBytes (th.group d.toNat 4))

/-! ## LDRAW (R266) -/

/-- The same location read at its home, past the core's L1 and the die's RDC. -/
def Loc.atHome : Loc → Loc
  | .glob pa _ cmp => .glob pa 1 cmp
  | l => l

def execLdraw (sz : BitVec 3) (a : Code) (n : Bool) (d : Code) (e : Bool) (s : State) : Answer :=
  issueMem (.ldraw sz a n d e) s fun s t th => do
    let z := sizeBytes sz.toNat
    let q : Need := { loadNeed z with noDev := true, cmpOk := true }
    let r ← s.globalOf t (th.pair a.toNat) z q
    return r.1.loadAt t d.toNat (sizeRegs sz.toNat) n [⟨r.2.atHome, z⟩] .home

/-! ## PREF (R265) -/

/-- A prefetch of the line of an address: into the L1, or only into the RDC or the home L2. -/
def State.prefetch (s : State) (t : TRef) (far : Bool) (ea : Dword) : State :=
  let o := s.ownOf t
  let q : Need := { acc := accRead, r := true, w := false, align := 1, noDev := true, cmpOk := false }
  match s.globalOf t ea 1 q with
  | .ok (s', .glob pa mt cmp) =>
    if typeAt s' o pa mt ≠ 0 ∨ inDevice pa then s
    else if far then (belowLine s' o (dieOf t.core) (pa / 128) cmp).1
    else (l1Load s' o t.core (pa / 128 * 128) 128 cmp).1
  | _ => s

def execPref (far : Bool) (a : Code) (e : Bool) (s : State) : Answer :=
  issueMem (.pref far a e) s fun s t th => .ok (s.prefetch t far (th.pair a.toNat))

end Sys2Proof.Machine
end

