-- ==== Sys2Proof/Machine/Queues.lean ====
section
/-! DEFINITION. The shared parts of the engines' front: queue registers and their waiters (spec 16 R269-R273), full-empty
granules and theirs (11 R200-R202), and barrier objects (16 R274-R277). -/

namespace Sys2Proof.Machine

/-! ## Queues -/

/-- The depth of a queue (R269); q1 counts words. -/
def qDepth : Nat → Nat
  | 0 => 8 | 1 => 128 | 2 => 64 | 3 => 16 | 4 => 8 | 5 => 16 | 6 => 2 | 7 => 2 | _ => 64

/-- The entries of a queue whose entries are 8 bytes. -/
def Block.q8of (b : Block) : Nat → List Dword
  | 2 => b.q2 | 3 => b.q3 | 5 => b.q5 | 8 => b.q8 | 9 => b.q9 | 10 => b.q10 | 11 => b.q11 | _ => []

def Block.setQ8 (b : Block) (q : Nat) (l : List Dword) : Block :=
  match q with
  | 2 => { b with q2 := l } | 3 => { b with q3 := l } | 5 => { b with q5 := l } | 8 => { b with q8 := l }
  | 9 => { b with q9 := l } | 10 => { b with q10 := l } | 11 => { b with q11 := l } | _ => b

/-- The entries a queue holds (R273). -/
def Block.qCount (b : Block) : Nat → Nat
  | 0 => b.q0.length
  | 1 => b.q1.foldl (fun n m => n + m.words.length) 0
  | 4 => b.q4.length
  | 6 => b.q6.length
  | 7 => b.q7.length
  | q => (b.q8of q).length

/-- The oldest entry of a queue is poisoned (R334). -/
def Block.headBad (b : Block) (q : Nat) : Bool := b.qbad.contains (q, 0)

/-- The marks of a queue whose oldest entry has been taken. -/
def Block.shiftBad (b : Block) (q : Nat) : Block :=
  { b with qbad := (b.qbad.filter fun x => decide (x ≠ (q, 0))).map fun x => if x.1 = q then (q, x.2 - 1) else x }

/-- A waiting operation that the state of its queue permits (R271). -/
def Block.permits (b : Block) (q : Nat) : QOp → Bool
  | .pop _ _ => decide (b.qCount q > 0)
  | .rpop _ => decide (b.qCount q > 0)
  | .mxmeta m => decide (b.qCount q + m.words.length ≤ qDepth q)
  | _ => decide (b.qCount q < qDepth q)

/-- The threads of an operation pass their heel. -/
def State.passAll (s : State) (who : List TRef) : State := who.foldl (fun s t => s.modThread t Thread.passHeel) s

/-- The mask of the missing contributors of `p` (R362). -/
def missMask (p : Nat) (missing : List Nat) : BitVec 64 :=
  let g := max 1 (p / 64)
  BitVec.ofNat 64 ((List.range 64).foldl (fun v k => if missing.any fun i => i / g = k then v + 2 ^ k else v) 0)

/-- The record of a block to which a result has been appended: of `p` contributors some are missing (R362). -/
def RStat.withResult (r : Reduction) (x : RItem) (p : Nat) (w : RStat) : RStat :=
  { w with res := true, pend := false, missn := min 255 x.missing.length, nanf := r.nan, ovff := r.ovf, tmo := r.tmo, mask := missMask p x.missing }

/-- The record of a block's RSEND to reduction `n`. The root's block may have the result already: it came too late itself (R362). -/
def State.freshRec (s : State) (br : BRef) (n : Nat) : RStat :=
  let w : RStat := { seq := n % 65536, pend := true }
  match s.launch? br.launch with
  | none => w
  | some l =>
    match l.reds.find? fun r => r.seq = n with
    | none => w
    | some r =>
      match r.out with
      | none => w
      | some x => if l.tree.parents.getD br.idx none = none ∧ !r.owed.contains br.idx then w.withResult r x l.tree.parents.length else w

/-- A queue operation performed (R271, R297, R307, R361). -/
def State.qPerform (s : State) (br : BRef) (w : QWait) : State :=
  let b := s.block br
  match w.op with
  | .push8 v => (s.modBlock br fun x => x.setQ8 w.q (x.q8of w.q ++ [v])).passAll w.who
  | .entry e => (s.modBlock br fun x => { x with q0 := x.q0 ++ [e] }).passAll w.who
  | .desc db off addr _ =>
    -- the descriptor is read now (R279): outside the allocation now in force it gives BOUND (R192, R193), poison halts (R334)
    if !s.scrHolds db off 64 then w.who.foldl (fun s t => s.takeTrap t (boundAt (addr.setWidth 64) accRead) false) s
    else if scrPoison s db off 64 then w.who.foldl (fun s t => s.halt t haltPAR) s
    else
      let d := scrRead s db off 64
      (s.modBlock br fun x => { x with q4 := x.q4 ++ [d] }).passAll w.who
  | .mxmeta m => (s.modBlock br fun x => { x with q1 := x.q1 ++ [m] }).passAll w.who
  | .packet p =>
    let rec_ := s.freshRec br b.rsends
    (s.modBlock br fun x => { x with q6 := x.q6 ++ [p], rsends := x.rsends + 1, rstat := rec_ }).passAll w.who
  | .pop d n =>
    match b.q8of w.q with
    | [] => s
    | v :: r =>
      let s := s.modBlock br fun x => (x.setQ8 w.q r).shiftBad w.q
      if b.headBad w.q then w.who.foldl (fun s t => s.halt t haltPAR) s
      else w.who.foldl (fun s t => s.modThread t fun th => (th.outVal d n [loWord v, hiWord v]).passHeel) s
  | .rpop dests =>
    match b.q7 with
    | [] => s
    | p :: r =>
      let s := s.modBlock br fun x => { x.shiftBad 7 with q7 := r }
      if b.headBad 7 then w.who.foldl (fun s t => s.halt t haltPAR) s
      else (w.who.zip dests).foldl (fun s x =>
        s.modThread x.1 fun th => (th.outVal x.2.2.1 x.2.2.2 [p.getD x.2.1 0]).passHeel) s

/-- What a waiting operation reads has been loaded (R340). -/
def State.qReady (s : State) (w : QWait) : Bool := match w.op with | .desc db off _ _ => (s.block db).ready off 64 | _ => true

/-- The oldest waiting operation on a queue that is permitted, with its place. -/
def oldestPermitted (b : Block) (q : Nat) (ready : QWait → Bool) : List QWait → Nat → Option (Nat × QWait)
  | [], _ => none
  | w :: r, i => if w.q = q ∧ b.permits q w.op ∧ ready w then some (i, w) else oldestPermitted b q ready r (i + 1)

/-- Serves a queue: the oldest permitted operation is performed, as often as there is one (R271). -/
def State.serveQueue (br : BRef) (q : Nat) : Nat → State → State
  | 0, s => s
  | fuel + 1, s =>
    let b := s.block br
    match oldestPermitted b q s.qReady b.qwait 0 with
    | none => s
    | some (i, w) => ((s.modBlock br fun x => { x with qwait := ldrop x.qwait i }).qPerform br w).serveQueue br q fuel

/-- After a queue has changed. -/
def State.serveQ (s : State) (br : BRef) (q : Nat) : State := s.serveQueue br q ((s.block br).qwait.length + 1)

/-- An operation arrives at its queue: it waits behind those that are there, and is performed when its turn comes. -/
def State.arriveQueue (s : State) (br : BRef) (w : QWait) : State :=
  let s := w.who.foldl (fun s t => s.modThread t fun th => { th with st := .waiting (.queue w.q) }) s
  (s.modBlock br fun x => { x with qwait := x.qwait ++ [w] }).serveQ br w.q

/-- A push or pop by each thread of a group, in lane order (R271). -/
def queueTurn (q : Nat) (op : Thread → QOp) (s : State) (t : TRef) : State × Fate :=
  (s.arriveQueue (s.blkOf t) ⟨q, [t], op (s.thread t)⟩, .gone)

/-- An engine delivers an entry of 8 bytes, which a waiting pop may take at once. -/
def State.engineEntry (s : State) (br : BRef) (q : Nat) (v : Dword) : State :=
  (s.modBlock br fun x => x.setQ8 q (x.q8of q ++ [v])).serveQ br q

/-- The QSTAT word (R273). -/
def Block.qstat (b : Block) (q : Nat) : Word :=
  let waiters := (b.qwait.filter fun w => w.q = q).foldl (fun n w => n + w.who.length) 0
  BitVec.ofNat 32 (b.qCount q % 256 + qDepth q * 2 ^ 8 + (min waiters 255) * 2 ^ 16)

/-! ## Granules (R200-R202) -/

/-- A full-empty operation whose granule is gone faults. -/
def State.gBound (s : State) (w : GWait) : State := s.takeTrap w.who (boundAt (w.addr.setWidth 64) w.acc) false

/-- A waiting operation performed: a load reads its bytes and may empty the granule; a store fills it. It is checked against the
allocation in force (R192, R197). -/
def State.gPerform (s : State) (br : BRef) (w : GWait) : State :=
  if !s.scrHolds br w.off w.n then s.gBound w else
  let gran := w.off / 16
  match w.store with
  | some bs =>
    let s := (scrWrite s br w.off bs).modBlock br fun x => { x with full := addNat x.full gran }
    s.modThread w.who Thread.passHeel
  | none =>
    let bs := scrRead s br w.off w.n
    let bad := scrPoison s br w.off w.n
    let s := if w.take then s.modBlock br fun x => { x with full := x.full.filter (· ≠ gran) } else s
    let s := s.modThread w.who fun th => (th.outVal w.d w.disc (bytesWords w.regs bs)).passHeel
    if bad then s.halt w.who haltPAR else s

def oldestGranule (b : Block) (gran : Nat) : List GWait → Nat → Option (Nat × GWait)
  | [], _ => none
  | w :: r, i =>
    if w.off / 16 = gran ∧ (b.full.contains gran = w.store.isNone) ∧ b.ready w.off w.n then some (i, w) else oldestGranule b gran r (i + 1)

/-- Serves a granule: the oldest operation that the bit permits, as often as there is one (R201). -/
def State.serveGranule (br : BRef) (gran : Nat) : Nat → State → State
  | 0, s => s
  | fuel + 1, s =>
    let b := s.block br
    match oldestGranule b gran b.gwait 0 with
    | none => s
    | some (i, w) => ((s.modBlock br fun x => { x with gwait := ldrop x.gwait i }).gPerform br w).serveGranule br gran fuel

def State.serveG (s : State) (br : BRef) (gran : Nat) : State := s.serveGranule br gran ((s.block br).gwait.length + 1)

/-- An LDFE or STFE arrives at its granule. -/
def State.arriveGranule (s : State) (br : BRef) (w : GWait) : State :=
  if !s.scrHolds br w.off w.n then s.gBound w else
  let s := s.modThread w.who fun th => { th with st := .waiting .granule }
  (s.modBlock br fun x => { x with gwait := x.gwait ++ [w] }).serveG br (w.off / 16)

/-- An engine's writes into a granule are in place: it is full, without waiting (R200). -/
def State.engineFill (s : State) (br : BRef) (gran : Nat) : State :=
  if (s.block br).full.contains gran then s
  else (s.modBlock br fun x => { x with full := addNat x.full gran }).serveG br gran

/-! ## Barrier objects (R274-R277) -/

/-- The fields of a barrier object. -/
structure Obj where
  expect : Nat
  count : Nat
  arrx : Nat
  arrived : Nat
  phase : Bool
  err : Bool
  rest : Nat
  ecode : Nat
  phcnt : Nat
  deriving DecidableEq, Repr

def Obj.of (bs : List Byte) : Obj :=
  let st := field bs 12 4
  { expect := field bs 0 4, count := field bs 4 4, arrx := field bs 8 2, arrived := field bs 10 2,
    phase := st.testBit 0, err := st.testBit 1, rest := st / 4 % 64, ecode := st / 256 % 256, phcnt := st / 65536 }

def Obj.bytes (o : Obj) : List Byte :=
  leBytes 4 o.expect ++ leBytes 4 o.count ++ leBytes 2 o.arrx ++ leBytes 2 o.arrived ++
  leBytes 4 ((if o.phase then 1 else 0) + (if o.err then 2 else 0) + o.rest % 64 * 4 + o.ecode % 256 * 256 + o.phcnt % 65536 * 65536)

/-- The check after an action: excess bytes, or the flip of the phase. It says whether the phase flipped. -/
def Obj.check (o : Obj) : Obj × Bool :=
  if !o.err && decide (o.arrived ≥ o.arrx) && decide (o.count ≥ o.expect) then
    if o.count > o.expect then ({ o with err := true, ecode := 1 }, false)
    else
      let ph := (o.phcnt + 1) % 65536
      ({ o with phcnt := ph, phase := decide (ph % 2 = 1), expect := 0, count := 0, arrived := 0 }, true)
  else (o, false)

def State.objAt (s : State) (br : BRef) (off : Nat) : Obj := Obj.of (scrRead s br off 16)

/-- The bytes of an object are poisoned (R334). -/
def State.objBad (s : State) (br : BRef) (off : Nat) : Bool := scrPoison s br off 16

/-- Lines written by an engine, counted into the current phase of an object (R244). -/
def Block.noteLines (b : Block) (off : Nat) (ls : List Nat) : Block :=
  let x := (tget b.acq off).getD ([], [])
  { b with acq := tput b.acq off (ls.foldl addNat x.1, x.2) }

/-- The phase of an object flips: its lines are those that a wait for it acquires. -/
def Block.flipLines (b : Block) (off : Nat) : Block :=
  match tget b.acq off with
  | none => b
  | some x => { b with acq := tput b.acq off ([], x.1) }

/-- The acquisition of a phase by a core: its stale copies of the lines counted go (R209, R244). -/
def State.acquirePhase (s : State) (c : Nat) (br : BRef) (off : Nat) : State :=
  match tget (s.block br).acq off with
  | none => s
  | some x => x.2.foldl (fun s ln => l1Drop s c ln) s

/-- One evaluation of a waiter, on arrival or at a wake (R277); a thread that reads a poisoned object is Halted (R334). -/
def State.evalWaiter (s : State) (t : TRef) (br : BRef) (off : Nat) (addr : Word) (parity : Bool) (pd : Option (BitVec 2)) :
    State :=
  let o := s.objAt br off
  if !(s.block br).ready off 16 then s
  else if s.objBad br off then s.halt t haltPAR
  else if o.err then
    match pd with
    | none => s.takeTrap t { code := causeENGF, addr := addr.setWidth 64, ecode := BitVec.ofNat 8 o.ecode } false
    | some p => s.modThread t fun th => (th.setPred p.toNat false).passHeel
  else if o.phase ≠ parity then
    let s := s.acquirePhase t.core br off
    s.modThread t fun th => ((match pd with | none => th | some p => th.setPred p.toNat true) : Thread).passHeel
  else s

/-- The wait field of a matrix command evaluated (R302). -/
def MxRun.evalWait (o : Obj) (br : BRef) (off : Nat) (r : MxRun) : MxRun :=
  match r.wait with
  | .on b f parity =>
    if b = br ∧ f = off then
      if o.err then { r with wait := .failed } else if o.phase ≠ parity then { r with wait := .met } else r
    else r
  | _ => r

/-- Wakes every waiter on an object: threads, and matrix commands that wait on it (R277, R302). -/
def State.wakeObject (s : State) (br : BRef) (off : Nat) : State :=
  let o := s.objAt br off
  let inCore (c : Core) : Core := if c.runs.isEmpty then c else { c with runs := c.runs.map (MxRun.evalWait o br off) }
  let s : State := { s with cores := s.cores.map fun (x : Nat × Core) => (x.1, inCore x.2) }
  s.threads.foldl (fun s x =>
    match x.2.st with
    | .waiting (.object b o addr parity pd) => if b = br ∧ o = off then s.evalWaiter x.1 br off addr parity pd else s
    | _ => s) s

/-- An action on an object: performed whole at the core that holds it, then the check (R275). -/
def State.objAct (s : State) (br : BRef) (off : Nat) (f : Obj → Obj) : State :=
  let r := (f (s.objAt br off)).check
  let s := scrWrite s br off r.1.bytes
  let s := if r.2 then s.modBlock br fun b => b.flipLines off else s
  s.wakeObject br off

/-- An action of a thread on an object; on a poisoned one the thread is Halted (R334). -/
def State.objTurn (s : State) (t : TRef) (br : BRef) (off : Nat) (f : Obj → Obj) : State :=
  if s.objBad br off then s.halt t haltPAR else s.objAct br off f

/-- An engine's action on an object. An engine that reads a poisoned one leaves ERR with ECODE 7 in it (R334). -/
def State.objEngine (s : State) (br : BRef) (off : Nat) (f : Obj → Obj) : State :=
  s.objAct br off (if s.objBad br off then fun o => { o with err := true, ecode := 7 } else f)

/-- BOINIT: the object starts phase 0 afresh, without a check. -/
def State.objInit (s : State) (br : BRef) (off x : Nat) : State :=
  let o : Obj := { expect := 0, count := 0, arrx := x, arrived := 0, phase := false, err := false, rest := 0, ecode := 0, phcnt := 0 }
  (scrWrite s br off o.bytes).modBlock br fun b => { b with acq := tdel b.acq off }

/-- An engine's byte count (R275), with the lines counted. -/
def State.objCount (s : State) (br : BRef) (off n : Nat) (ls : List Nat) : State :=
  match s.block? br with
  | none => s
  | some _ =>
    let s := s.modBlock br fun b => b.noteLines off ls
    s.objEngine br off fun o => { o with count := (o.count + n) % 2 ^ 32 }

/-- An engine's error (R275). -/
def State.objError (s : State) (br : BRef) (off code : Nat) : State :=
  match s.block? br with
  | none => s
  | some _ => s.objEngine br off fun o => { o with err := true, ecode := if o.ecode = 0 then code else o.ecode }

end Sys2Proof.Machine
end

