-- ==== Sys2Proof/Machine/Atomic.lean ====
section
/-! DEFINITION. Atomics (spec 14 R256, R257, 13 R238), full-empty loads and stores (14 R254, 11 R200-R202), SC operations
(14 R258, 13 R239-R242) and SCTIME (14 R259). -/

namespace Sys2Proof.Machine

/-! ## Atomics (R256) -/

/-- What an atomic needs of a page (R249). -/
def atomicNeed : Need := { acc := accRw, r := true, w := true, align := 4, noDev := true, cmpOk := false }

/-- An atomic of a thread: performed at the home now, or accepted and performed later, with its destination outstanding until
then (R226, R238; log 1). -/
def State.atomicAt (s : State) (t : TRef) (l : Loc) (d : Nat) (n : Bool) (x : Rmw) : State :=
  match l with
  | .scr _ _ => s
  | .glob pa _ cmp =>
    let s := (s.takeMeeting t l 4).scMeeting t l 4
    if s.defer && l.loose then
      let s := s.acceptAt t l (List.replicate 4 0) (some x)
      s.modThread t fun th => if n then th else
        { th with outs := th.outs ++ [{ base := d, n := 1, named := false, past := false, exempt := false, src := .atom }] }
    else
      let r := (s.flushMeeting t l 4).rmwAt t pa cmp x
      let s := r.1.modThread t fun th => th.outVal d n [r.2.1]
      if r.2.2 then s.halt t haltPAR else s

/-- An atomic instruction on the word at gA:gA+1, with its operand and the word that ACAS expects. -/
def issueAtomic (i : Instr) (s : State) (k : AtomKind) (a : Code) (n : Bool) (d : Code) (b expect : Thread → Word) : Answer :=
  issueMem i s fun s t th => do
    let r ← s.globalOf t (th.pair a.toNat) 4 atomicNeed
    return r.1.atomicAt t r.2 d.toNat n { kind := k, b := b th, expect := expect th, dst := if n then none else some d.toNat }

def execAadd (b a : Code) (n : Bool) (d : Code) (e : Bool) (s : State) : Answer :=
  issueAtomic (.aadd b a n d e) s .add a n d (fun th => th.word b.toNat) fun _ => 0

def execAmin (b a : Code) (n : Bool) (d : Code) (e : Bool) (s : State) : Answer :=
  issueAtomic (.amin b a n d e) s .min a n d (fun th => th.word b.toNat) fun _ => 0

def execAmax (b a : Code) (n : Bool) (d : Code) (e : Bool) (s : State) : Answer :=
  issueAtomic (.amax b a n d e) s .max a n d (fun th => th.word b.toNat) fun _ => 0

def execAexch (b a : Code) (n : Bool) (d : Code) (e : Bool) (s : State) : Answer :=
  issueAtomic (.aexch b a n d e) s .exch a n d (fun th => th.word b.toNat) fun _ => 0

def execAcas (c : BitVec 2) (b : Code5) (a : Code) (n : Bool) (d : Code) (e : Bool) (s : State) : Answer :=
  issueAtomic (.acas c b a n d e) s .cas a n d (fun th => th.word (code5 b)) fun th => th.third c d

def execAand (b : Code5) (a : Code) (n : Bool) (d : Code) (e : Bool) (s : State) : Answer :=
  issueAtomic (.aand b a n d e) s .and a n d (fun th => th.word (code5 b)) fun _ => 0

def execAor (b : Code5) (a : Code) (n : Bool) (d : Code) (e : Bool) (s : State) : Answer :=
  issueAtomic (.aor b a n d e) s .or a n d (fun th => th.word (code5 b)) fun _ => 0

def execAxor (b : Code5) (a : Code) (n : Bool) (d : Code) (e : Bool) (s : State) : Answer :=
  issueAtomic (.axor b a n d e) s .xor a n d (fun th => th.word (code5 b)) fun _ => 0

/-! ## Full-empty loads and stores (R254) -/

/-- A full-empty operation arrives at its granule in the block that holds it. Earlier accesses of the thread to its bytes
are performed first (R226). An access that crosses a granule is misaligned (R200). -/
def granuleTurn (addr : Word) (z acc : Nat) (w : BRef → Nat → GWait) (s : State) (t : TRef) : State × Fate :=
  if 16 < z then (s, .trap { code := causeALIGN, addr := addr.setWidth 64, acc := acc })
  else
    match s.scratchOf t addr z z acc with
    | .error inf => (s, .trap inf)
    | .ok (s, .scr br off) =>
      let l : Loc := .scr br off
      let s := (s.takeMeeting t l z).flushMeeting t l z
      if (s.thread t).live then (s.arriveGranule br (w br off), .gone) else (s, .gone)
    | .ok (s, .glob _ _ _) => (s, .gone)

def execLdfe (tk : Bool) (o : BitVec 5) (sz : BitVec 3) (a : Code) (n : Bool) (d : Code) (s : State) : Answer :=
  issueEach (.ldfe tk o sz a n d) s fun s t =>
    let th := s.thread t
    let z := sizeBytes sz.toNat
    granuleTurn (eaScratch (th.word a.toNat) o.toInt z) z accRead (fun _ off =>
      { who := t, off := off, n := z, take := tk, d := d.toNat, regs := sizeRegs sz.toNat, disc := n, store := none, addr := eaScratch (th.word a.toNat) o.toInt z,
        acc := accRead, no := s.issueNo }) s t

def execStfe (o : BitVec 6) (sz : BitVec 3) (a d : Code) (s : State) : Answer :=
  issueEach (.stfe o sz a d) s fun s t =>
    let th := s.thread t
    let z := sizeBytes sz.toNat
    granuleTurn (eaScratch (th.word a.toNat) o.toInt z) z accWrite (fun _ off =>
      { who := t, off := off, n := z, take := false, d := 0, regs := 0, disc := false,
        store := some (storeBytes th sz.toNat d.toNat), addr := eaScratch (th.word a.toNat) o.toInt z, acc := accWrite, no := s.issueNo }) s t

/-! ## SC operations (R258) -/

/-- What an SC operation needs of a page (R249). -/
def scNeed (k : ScKind) : Need := if k = .ld then { atomicNeed with acc := accRead, w := false } else atomicNeed

/-- The issue of a group's SC operations waits. Threads whose previous one is not applied are Waiting until it is (R32, R240);
while an epoch change is under way the group waits in place (R242). -/
def State.scHeld (s : State) (g : List TRef) : Option State :=
  let busy := g.filter fun t => (s.thread t).sc.isSome
  if !busy.isEmpty then some (busy.foldl (fun s t => s.modThread t fun th => { th with st := .waiting .scHeld }) s)
  else if g.any fun t => (s.partn (s.ownOf t).part).epochGo then some s else none

/-- An SC operation takes its timestamp and leaves for its home; it arrives at once unless the move defers it. One that would need
a clock above 2^48 - 1 takes none and waits (R242). -/
def State.scIssue (s : State) (t : TRef) (op : ScOp) (l : Loc) : State :=
  let s := (s.takeMeeting t l 4).flushMeeting t l 4
  let s := s.modThread t fun th =>
    let th : Thread := { th with sc := some op }
    if op.kind = .st ∨ op.n then th
    else { th with outs := th.outs ++ [{ base := op.d, n := 1, named := false, past := false, exempt := false, src := .sc }] }
  if (s.core t.core).scK ≥ scLimit then s
  else
    let s := s.scStamp t
    if s.defer then s else s.scArrive t

/-- An SC instruction. A thread whose previous SC operation is not applied holds its group in place. -/
def issueSc (i : Instr) (s : State) (k : ScKind) (a : Code) (n : Bool) (d : Nat) (b expect : Thread → Word) : Answer :=
  issueWith i s State.scHeld fun s g => g.foldl (turn i (memTurn fun s t th => do
    let r ← s.globalOf t (th.pair a.toNat) 4 (scNeed k)
    match r.2 with
    | .scr _ _ => return r.1
    | .glob pa _ cmp =>
      let op : ScOp := { kind := k, d := d, n := n, pa := pa, cmp := cmp, b := b th, expect := expect th, ts := {} }
      return r.1.scIssue t op r.2)) s

def execLdSc (a : Code) (n : Bool) (d : Code) (e : Bool) (s : State) : Answer :=
  issueSc (.ldSc a n d e) s .ld a n d.toNat (fun _ => 0) (fun _ => 0)

def execStSc (b a : Code) (e : Bool) (s : State) : Answer :=
  issueSc (.stSc b a e) s .st a false 0 (fun th => th.word b.toNat) (fun _ => 0)

def execAaddSc (b a : Code) (n : Bool) (d : Code) (e : Bool) (s : State) : Answer :=
  issueSc (.aaddSc b a n d e) s .add a n d.toNat (fun th => th.word b.toNat) (fun _ => 0)

def execAexchSc (b a : Code) (n : Bool) (d : Code) (e : Bool) (s : State) : Answer :=
  issueSc (.aexchSc b a n d e) s .exch a n d.toNat (fun th => th.word b.toNat) (fun _ => 0)

def execAcasSc (c : BitVec 2) (b : Code5) (a : Code) (n : Bool) (d : Code) (e : Bool) (s : State) : Answer :=
  issueSc (.acasSc c b a n d e) s .cas a n d.toNat (fun th => th.word (code5 b)) (fun th => th.third c d)

/-- SC_RETRY: the SC operation of thread `arg.t` that its home turned back is tried again with a new timestamp. One that
has not arrived yet, or that its home would apply, is left to ACCESS_PERFORMED. -/
def execScRetry (s : State) : Answer :=
  let t := s.arg.t
  match (s.thread t).sc with
  | none => .next s
  | some op => .next (if (stampAt s (s.partOf t.core) (op.pa / 128)).lt op.ts then s else (s.scArrive t).scRetry t)

/-- SCTIME (R259). -/
def execSctime (a : Code) (n : Bool) (d : Code) (e : Bool) (s : State) : Answer :=
  issueEach (.sctime a n d e) s fun s t =>
    let c := ((s.thread t).pair a.toNat).toNat % 2 ^ 48
    let raise (k : Core) : Core := { k with scK := max k.scK c }
    let s := s.modCore t.core raise
    (s.modThread t fun th =>
      let th : Thread := { th with scClock := BitVec.ofNat 48 (max th.scClock.toNat c) }
      th.deliver (res2 n d.toNat th.sctime), .go)

end Sys2Proof.Machine
end

