-- ==== Sys2Proof/Machine/Barrier.lean ====
section
/-! DEFINITION. The workgroup barriers (spec 08 R167-R170). -/

namespace Sys2Proof.Machine

/-- The accesses of a thread that a release orders: its loads take their values, its stores and atomics are performed (R170, R231, R234).
Its SC operation is ordered by none of them (R241). -/
def State.releaseAll (s : State) (t : TRef) : State := (s.takeAll t).flushAll t

/-- An arrival at barrier `b` (R168, R170): the writes before it are released, the thread takes a token, and its warp slot
arrives once. A slot that the block has not received at placement arrives with a bit of its own (DESIGN CHOICE, log entry 63). -/
def State.barMark (s : State) (t : TRef) (b : Nat) : State :=
  let br := s.blkOf t
  let s := s.releaseAll t
  match (s.block br).bars[b]? with
  | none => s
  | some x =>
    if (s.thread t).live then
      let s := s.modThread t fun th => { th with tokens := tput th.tokens b x.phase }
      let x : Bar := if x.bits.contains t.slot then x else { x with bits := x.bits ++ [t.slot], arrived := x.arrived + 1 }
      s.modBlock br fun k => { k with bars := lset k.bars b x }
    else s

/-- The threads of an issue group arrive together, as the worked program of chapter 15 has it (its notes on lines 039-040):
all their arrivals are made, and the flip condition is then evaluated once in each block (DEDUCED, log entry 32). -/
def State.barArrive (s : State) (g : List TRef) (b : Nat) : State :=
  let s := g.foldl (fun s t => s.barMark t b) s
  ((g.filter fun t => (s.thread t).live).map s.blkOf).eraseDups.foldl (fun s br => s.checkBarrier br b true) s

/-- The thread holds a valid token of barrier `b`, and the phase is still the token's: it must wait. -/
def State.barHolds (s : State) (t : TRef) (b : Nat) : Bool :=
  match tget (s.thread t).tokens b, (s.block (s.blkOf t)).bars[b]? with
  | some ph, some x => decide (ph = x.phase)
  | _, _ => false

/-- BAR.SYNC: arrive, then wait until the phase differs from the token. -/
def execBarSync (b : BitVec 4) (s : State) : Answer :=
  issueWith (.barSync b) s (fun _ _ => none) fun s g =>
    g.foldl (turn (.barSync b) fun s t => (s, if s.barHolds t b.toNat then .wait (.barrier b.toNat) else .go)) (s.barArrive g b.toNat)

/-- BAR.ARRIVE. -/
def execBarArrive (b : BitVec 4) (e : Bool) (s : State) : Answer :=
  issueWith (.barArrive b e) s (fun _ _ => none) fun s g =>
    g.foldl (turn (.barArrive b e) fun s _ => (s, .go)) (s.barArrive g b.toNat)

/-- BAR.WAIT: waits only with a valid token of the present phase. -/
def execBarWait (b : BitVec 4) (s : State) : Answer :=
  issueEach (.barWait b) s fun s t => (s, if s.barHolds t b.toNat then .wait (.barrier b.toNat) else .go)

/-- BAR.INIT: BOUND for a count of 0 or above the warps of the block; else X is set and the arrivals are lost (R169). -/
def execBarInit (b : BitVec 4) (a : Code) (e : Bool) (s : State) : Answer :=
  issueEach (.barInit b a e) s fun s t =>
    let x := (s.thread t).word a.toNat
    let br := s.blkOf t
    if x.toNat = 0 ∨ (s.block br).nwarps < x.toNat then (s, .trap { code := causeBOUND, addr := x.setWidth 64 })
    else
      let f (o : Bar) : Bar := { o with x := x.toNat, arrived := 0, bits := [] }
      (s.modBlock br fun k => match k.bars[b.toNat]? with
        | none => k
        | some o => { k with bars := lset k.bars b.toNat (f o) }, .go)

end Sys2Proof.Machine
end

