-- ==== Sys2Proof/Machine/Control.lean ====
section
/-! DEFINITION. Control transfers, JOIN, JTAB, EXIT, HEEL, NOP and LVEND (spec 04 R107-R112, 01 R33, 02 R50, 07 R156),
and the fate of a word that is not an instruction (02 R53). -/

namespace Sys2Proof.Machine

/-! ## Targets (R107-R109) -/

/-- The relative target of BR, JMP and CALL: PC + 4 + 2 × sext(off20). -/
def relTarget (pc : Dword) (o : BitVec 20) : Int := (pc.toNat : Int) + 4 + 2 * o.toInt

/-- A relative transfer: a target outside the space raises TRANS with the target modulo 2^64. -/
def relJump (pc : Dword) (o : BitVec 20) : Fate :=
  let x := relTarget pc o
  if x < 0 ∨ x > 0xFFFF_FFFF_FFFE then .trap { code := causeTRANS, addr := BitVec.ofInt 64 x, acc := accFetch }
  else .goto (BitVec.ofInt 64 x)

/-- A transfer to a register target: TRANS for a nonzero upper part, else ALIGN for an odd one (R109). -/
def regJump (target : Dword) : Fate :=
  if target.toNat / 2 ^ 48 ≠ 0 then .trap { code := causeTRANS, addr := target, acc := accFetch }
  else if target.getLsbD 0 then .trap { code := causeALIGN, addr := target, acc := accFetch }
  else .goto target

/-- The return address PC + 4, bits [63:48] zero (R108). -/
def returnAddr (pc : Dword) : Dword := (pc + 4) &&& 0x0000_FFFF_FFFF_FFFF#64

/-- The return address written into g2:g3 when the transfer is made. -/
def State.link (s : State) (t : TRef) (f : Fate) : State :=
  match f with
  | .goto _ => s.modThread t fun th => th.setGroup 2 [loWord (returnAddr th.pc), hiWord (returnAddr th.pc)]
  | _ => s

def execBr (o : BitVec 20) (sense : Bool) (p : BitVec 2) (s : State) : Answer :=
  issueEach (.br o sense p) s fun s t =>
    let th := s.thread t
    (s, if th.pred p.toNat != sense then relJump th.pc o else .go)

def execJmp (o : BitVec 20) (s : State) : Answer :=
  issueEach (.jmp o) s fun s t => (s, relJump (s.thread t).pc o)

def execCall (o : BitVec 20) (s : State) : Answer :=
  issueEach (.call o) s fun s t =>
    let f := relJump (s.thread t).pc o
    (s.link t f, f)

def execJr (a : Code) (s : State) : Answer :=
  issueEach (.jr a) s fun s t => (s, regJump ((s.thread t).pair a.toNat))

/-- The target is read before the link is written. -/
def execCallr (a : Code) (s : State) : Answer :=
  issueEach (.callr a) s fun s t =>
    let f := regJump ((s.thread t).pair a.toNat)
    (s.link t f, f)

def execRet (s : State) : Answer :=
  issueEach .ret s fun s t => (s, regJump ((s.thread t).pair 2))

/-! ## JTAB (R112) -/

/-- Where the table of a JTAB starts. -/
def jtabBase (pc : Dword) (off : BitVec 9) : Nat := 4 * ((pc.toNat + 7) / 4) + 4 * off.toNat

/-- JTAB for one thread: the index, the entry read as a fetch, and the target are checked in turn. -/
def jtabTurn (off : BitVec 9) (a n : Code) (s : State) (t : TRef) : State × Fate :=
  let th := s.thread t
  let idx := (th.word a.toNat).toNat
  if idx ≥ n.toNat then (s, .trap { code := causeBOUND, addr := BitVec.ofNat 64 idx })
  else
    let base := jtabBase th.pc off
    match s.fetchPart t.core (s.ownOf t) (BitVec.ofNat 64 (base + 4 * idx)) 4 4 with
    | .error inf => (s, .trap inf)
    | .ok (s, bs) =>
      let target : Int := (base : Int) + signed 32 (leValue bs)
      let addr := BitVec.ofInt 64 target
      if target < 0 ∨ target > 0xFFFF_FFFF_FFFE then (s, .trap { code := causeTRANS, addr := addr, acc := accFetch })
      else if target % 2 ≠ 0 then (s, .trap { code := causeALIGN, addr := addr, acc := accFetch })
      else (s, .goto addr)

def execJtab (off : BitVec 9) (a n : Code) (s : State) : Answer :=
  issueEach (.jtab off a n) s (jtabTurn off a n)

/-! ## EXIT (R33, R187) -/

/-- EXIT retires: the thread is Exited, and the results of its loads in flight are discarded. -/
def State.exitNow (s : State) (t : TRef) : State :=
  let s := s.modThread t fun th => { th with st := .exited, outs := [] }
  ((s.unplace t).endSpawned t).departed t false

/-- EXIT waits until every earlier access has been accepted: here until the thread's SC operation is applied, or as long
as the move says (log 1). -/
def execExit (s : State) : Answer :=
  issueEach .exit s fun s t =>
    if (s.warp t.core t.slot).gen.isSome then (s, .trap (maskTrap (s.members t.core t.slot)))
    else if s.defer ∨ (s.thread t).sc.isSome then (s, .wait (.access .exit))
    else (s.exitNow t, .gone)

/-! ## JOIN (R110, R187, R326) -/

def execJoin (s : State) : Answer :=
  issueEach .join s fun s t => (s, .rest (.join (s.thread t).pc))

/-- A thread runs in a group that has issued an instruction since it took its port. -/
def State.hasIssued (s : State) (t : TRef) : Bool :=
  let c := s.core t.core
  (c.p0.contains t && c.last0.isSome) || (c.p1.contains t && c.last1.isSome)

/-- Another thread of the warp holds back a JOIN at `j`: named in k63, live, in trap mode exactly if the waiting thread
is, a producer in PRODUCE, and below `j`. A Running thread stands at the instruction that it has issued last until it issues the
next, so one whose next instruction is the JOIN is still below it (DEDUCED, log entry 33). -/
def State.holdsJoin (s : State) (c sl : Nat) (j : Dword) (trapMode : Bool) (me : TRef) : Bool :=
  let w := s.warp c sl
  let k63 := s.members c sl
  s.threads.any fun x =>
    decide (x.1.core = c) && decide (x.1.slot = sl) && decide (x.1 ≠ me) && k63.getLsbD x.1.lane && x.2.live &&
      (x.2.trap.isSome == trapMode) && (decide (x.2.pc.toNat < j.toNat) || (x.2.pc == j && decide (x.2.st = .running) && s.hasIssued x.1)) &&
      (match w.gen with | some g => g.consume || !g.ended.contains x.1.lane | none => true)

/-- The threads of a warp that may pass the JOIN at an address. -/
def State.joinFree (s : State) (c sl : Nat) (j : Dword) : List TRef :=
  ((s.warpThreads c sl).filter fun x =>
    decide (x.2.st = .waiting (.join j)) && !s.holdsJoin c sl j x.2.trap.isSome x.1).map Prod.fst

/-- The addresses of the JOINs at which threads of a warp wait. -/
def State.joinAddrs (s : State) (c sl : Nat) : List Dword :=
  ((s.warpThreads c sl).filterMap fun x => match x.2.st with | .waiting (.join j) => some j | _ => none).eraseDups

/-- JOIN_RELEASE: the threads of warp `arg.slot` on core `arg.core` that wait at the JOIN at address `arg.v` and that no
thread holds back become Ready together. -/
def execJoinRelease (s : State) : Answer :=
  let a := s.arg
  .next ((s.joinFree a.core a.slot a.v).foldl (fun s t => s.modThread t Thread.rearm) s)

/-! ## Instructions without effect of their own -/

def execNop (e : Bool) (s : State) : Answer := issueEach (.nop e) s fun s _ => (s, .go)

/-- HEEL names pending registers and has no other effect (R50). -/
def execHeel (b a d : Code) (s : State) : Answer := issueEach (.heel b a d) s fun s _ => (s, .go)

/-- LVEND ends a leaven thread; elsewhere it has no effect (R156). -/
def execLvend (e : Bool) (s : State) : Answer := issueEach (.lvend e) s fun s _ => (s, .go)

/-! ## Illegal words (R53) -/

/-- ILLEGAL_WORD: every thread of the group is Halted before any effect; `arg.flag` says that the word was 16 bits long
and `arg.maj` is its MAJ or op4 (R26). -/
def execIllegalWord (s : State) : Answer :=
  match s.group with
  | [] => .fault .noIssueGroup
  | g => .next ((s.illegal g g s.arg.flag s.arg.maj).keepPort .illegalWord [])

end Sys2Proof.Machine
end

