-- ==== Sys2Proof/Machine/Rendezvous.lean ====
section
/-! DEFINITION. The rendezvous of a warp (spec 08 R157-R160): arrivals, the two kinds of MASK fault, and what every
instruction that is a rendezvous does when it completes: cross-lane results (08 R164, R165), GENBEG and GENNEXT (09
R178, R186), MXMETA (18 R307), RSEND and RRECV (22 R361). -/

namespace Sys2Proof.Machine

/-! ## Results of the cross-lane instructions (R164, R165) -/

/-- The arrival of a lane. -/
def arrOf (need : List Arrival) (l : Nat) : Option Arrival := need.find? fun a => a.lane = l

def countBelow (need : List Arrival) (l : Nat) (p : Arrival → Bool) : Nat :=
  (need.filter fun a => decide (a.lane < l) && p a).length

def sumA (l : List Arrival) : Word := l.foldl (fun s a => s + a.a) 0

/-- The source lane of a shuffle. -/
def shflSource (op : XOp) (l b : Nat) : Option Nat :=
  match op with
  | .shflIdx => some b
  | .shflUp => if b ≤ l then some (l - b) else none
  | .shflDown => if l + b ≤ 31 then some (l + b) else none
  | .shflXor => some (l ^^^ b)
  | _ => none

/-- The words that one arrival receives, and the flags. `need` is in lane order. -/
def crossResult (need : List Arrival) (absent : Word) (me : Arrival) : List Word × BitVec 5 :=
  let one (v : Word) : List Word × BitVec 5 := ([v], 0)
  let bit (p : Bool) : Word := if p then 1 else 0
  let lanes (p : Arrival → Bool) : Word := laneMask ((need.filter p).map Arrival.lane)
  match me.op with
  | .voteAny => one (bit (need.any Arrival.p))
  | .voteAll => one (bit (need.all Arrival.p))
  | .voteBallot => ([lanes Arrival.p, absent], 0)
  | .voteUni => one (bit (need.all fun x => decide (x.a = me.a)))
  | .redaddI => one (sumA need)
  | .redaddF =>
    let r := treeSum 5 ((List.range 32).map fun l => match arrOf need l with | some x => x.a.toNat | none => 0x8000_0000) 0
    ([BitVec.ofNat 32 r.1], r.2)
  | .redminS => one (need.foldl (fun m x => if x.a.toInt < m.toInt then x.a else m) 0x7FFF_FFFF)
  | .redmaxS => one (need.foldl (fun m x => if m.toInt < x.a.toInt then x.a else m) 0x8000_0000)
  | .matchLanes => ([lanes fun x => decide (x.a = me.a), absent], 0)
  | .compact =>
    let t := (need.filter Arrival.p).length
    one (BitVec.ofNat 32 (if me.p then countBelow need me.lane Arrival.p else t + countBelow need me.lane fun x => !x.p))
  | .scanadd => ([sumA (need.filter fun x => x.lane < me.lane), sumA need], 0)
  | .elect =>
    let low := (need.map Arrival.lane).foldl min 31
    one (BitVec.ofNat 32 (low + if me.lane = low then 2 ^ 31 else 0))
  | op =>
    match shflSource op me.lane (me.b.toNat % 32) with
    | none => one me.a
    | some l => match arrOf need l with | some x => one x.a | none => one me.a

/-- A cross-lane result delivered: written, pushed, and the thread Ready behind the instruction. -/
def Thread.crossDone (th : Thread) (need : List Arrival) (absent : Word) (me : Arrival) : Thread :=
  let r := crossResult need absent me
  let push : Dword := pairOf (r.1.getD 0 0) (r.1.getD 1 0)
  let th := (th.deliver { base := me.d, regs := if me.n then [] else r.1, push := some push, flags := r.2 }).retire 4
  if me.e then th.heel [] else { th with st := .ready }

/-! ## The generator (R176-R178, R183, R186) -/

/-- The proofing areas of a block in use. -/
def State.areasUsed (s : State) (br : BRef) : List Nat :=
  s.warps.filterMap fun x => if x.2.blk = br then x.2.gen.map Gen.area else none

/-- A thread is taken from wherever it stands or waits. -/
def State.recall (s : State) (t : TRef) : State :=
  let s := s.unplace t
  let s := s.modWarp t.core t.slot fun w => { w with arrs := w.arrs.filter fun a => a.lane ≠ t.lane }
  s.modBlock (s.blkOf t) fun b => { b with qwait := b.qwait.filter (fun w => w.who ≠ [t]), gwait := b.gwait.filter fun w => w.who ≠ t }

/-- A thread begins at an address with a fresh loaf. -/
def State.startAt (s : State) (t : TRef) (pc : Dword) : State :=
  (s.recall t).modThread t fun th => { ({ th with pc := pc } : Thread).heel [] with heeled := false }

/-- Every live thread of a warp begins at an address with a fresh loaf (R183, R186). -/
def State.startAll (s : State) (c sl : Nat) (pc : Dword) : State :=
  (s.warpThreads c sl).foldl (fun s x => if x.2.live then s.startAt x.1 pc else s) s

/-- GENBEG completes: its checks in order, or generator mode (R178). A target that fails is recorded with ACC 3, as that of a control
transfer: R323 does not name GENBEG (DESIGN CHOICE, log 78). -/
def State.genEnter (s : State) (c sl : Nat) (need : List Arrival) (absent : Word) : State × Option TrapInfo :=
  let w := s.warp c sl
  let k63 := s.members c sl
  match need with
  | [] => (s, none)
  | a0 :: _ =>
    let cfg := a0.a
    let p := (cfg.extractLsb' 16 6).toNat
    let h := (cfg.extractLsb' 8 6).toNat
    let reserved := cfg.extractLsb' 22 10 ≠ 0 ∨ cfg.extractLsb' 14 2 ≠ 0 ∨ cfg.extractLsb' 2 6 ≠ 0
    let blk := s.block w.blk
    let area := firstFrom (fun j => !(s.areasUsed w.blk).contains j) blk.reserve 0
    let target : Int := (a0.addr.toNat : Int) + a0.b.toInt
    let bad (code : Nat) (addr : Dword) (acc : Nat) : State × Option TrapInfo := (s, some { code := code, addr := addr, acc := acc })
    if w.gen.isSome then bad causeMASK (k63.setWidth 64) 0
    else if need.length ≠ 32 then bad causeMASK (pairOf k63 absent) 0
    else if reserved ∨ h < 8 ∨ h > 32 ∨ p > 32 then bad causeBOUND (cfg.setWidth 64) 0
    else match area with
      | none => bad causeBOUND 0 0
      | some j =>
        let taddr := BitVec.ofInt 64 target
        if target < 0 ∨ target > 0xFFFF_FFFF_FFFE then bad causeTRANS taddr accFetch
        else if target % 2 ≠ 0 then bad causeALIGN taddr accFetch
        else
          let g : Gen := { consume := false, pend := false, w := (cfg.extractLsb' 0 2).toNat + 1, h := h, p := p, consumer := taddr,
                           area := j, cnt0 := 0, cnt1 := 0, fill := 0, cf := 0, ended := [], saved := [] }
          (s.setWarp c sl { w with gen := some g }, none)

/-- GENNEXT completes: the transition of R184 that applies (R186). -/
def State.genNext (s : State) (c sl : Nat) (here : Dword) : State :=
  let w := s.warp c sl
  match w.gen with
  | none => s
  | some g =>
    let g := { g.setCnt g.cf 0 with now := none }
    let rem := s.remaining c sl g
    if rem > 0 then
      let s := s.setWarp c sl { w with gen := some { g with consume := false, fill := 1 - g.cf } }
      (s.warpThreads c sl).foldl (fun s x =>
        if x.2.live then
          if g.ended.contains x.1.lane then (s.recall x.1).modThread x.1 fun th => { th.heel [] with st := .waiting .ended, heeled := false }
          else s.startAt x.1 ((tget g.saved x.1.lane).getD x.2.pc)
        else s) s
    else if g.cnt (1 - g.cf) > 0 then
      (s.setWarp c sl { w with gen := some { g with cf := 1 - g.cf } }).startAll c sl g.consumer
    else (s.setWarp c sl { w with gen := none }).startAll c sl (here + 4)

/-! ## Completion -/

/-- The thread of a lane. -/
def laneRef (c sl l : Nat) : TRef := ⟨c, sl, l⟩

/-- A rendezvous of a warp is performed over the arrivals of Need, in lane order (R158). -/
def State.perform (s : State) (c sl : Nat) (need : List Arrival) (absent : Word) : State :=
  match need with
  | [] => s
  | a0 :: _ =>
    let br := (s.warp c sl).blk
    let who := need.map fun a => laneRef c sl a.lane
    let s := match a0.op with
      | .mxmeta _ => who.foldl State.releaseAll s
      | .rsend => who.foldl State.releaseAll s
      | _ => s
    let who := who.filter fun t => (s.thread t).live
    match a0.op with
    | .genbeg =>
      let r := s.genEnter c sl need absent
      match r.2 with
      | some inf => who.foldl (fun s t => s.takeTrap t inf false) s
      | none => r.1.passAll who
    | .gennext => s.genNext c sl a0.addr
    | .mxmeta code =>
      let ws := (List.range 32).map fun l => match arrOf need l with | some x => x.a | none => 0x7654_3210
      s.arriveQueue br ⟨1, who, .mxmeta ⟨code, ws⟩⟩
    | .rsend =>
      let ws := (List.range 32).map fun l => match arrOf need l with | some x => x.a | none => 0x8000_0000
      s.arriveQueue br ⟨6, who, .packet ws⟩
    | .rrecv => s.arriveQueue br ⟨7, who, .rpop (need.map fun a => (a.lane, a.d, a.n))⟩
    | _ => need.foldl (fun s a => s.modThread (laneRef c sl a.lane) fun th => th.crossDone need absent a) s

/-- The lanes of a mask that hold no thread, or an Exited or Halted one (R158). -/
def State.absentIn (s : State) (c sl : Nat) (m : Word) : List Nat := (maskLanes m).filter fun l => !s.laneLive c sl l
def State.needIn (s : State) (c sl : Nat) (m : Word) : List Nat := (maskLanes m).filter fun l => s.laneLive c sl l

/-- Removes arrivals of lanes. -/
def State.dropArrivals (s : State) (c sl : Nat) (ls : List Nat) : State :=
  s.modWarp c sl fun w => { w with arrs := w.arrs.filter fun a => !ls.contains a.lane }

/-- The %xaddr of the faults of R160: the thread's M, and the lanes of Need held elsewhere or with another M. -/
def State.clashAddr (s : State) (c sl : Nat) (arrs : List Arrival) (a : Arrival) : Dword :=
  let other := (s.needIn c sl a.mask).filter fun l =>
    match arrOf arrs l with | some x => decide (x.addr ≠ a.addr ∨ x.mask ≠ a.mask) | none => false
  pairOf a.mask (laneMask other)

/-- Held threads take the MASK fault of R160. -/
def State.clash (s : State) (c sl : Nat) (ls : List Nat) : State :=
  let arrs := (s.warp c sl).arrs
  let hit := arrs.filter fun a => ls.contains a.lane
  let infos := hit.map fun a => (laneRef c sl a.lane, ({ code := causeMASK, addr := s.clashAddr c sl arrs a } : TrapInfo))
  infos.foldl (fun s x => s.takeTrap x.1 x.2 false) (s.dropArrivals c sl ls)

/-- What the arrivals held at one address with one mask lead to: the completion, the clash of R160, or nothing. -/
inductive Meet where
  | done (need : List Nat)
  | clash (need : List Nat)
  | none
  deriving DecidableEq, Repr

def State.meetOf (s : State) (c sl : Nat) (a : Arrival) : Meet :=
  let arrs := (s.warp c sl).arrs
  let need := s.needIn c sl a.mask
  let here (l : Nat) : Bool := match arrOf arrs l with | some x => decide (x.addr = a.addr ∧ x.mask = a.mask) | none => false
  if need.all here then .done need
  else if need.all fun l => (arrOf arrs l).isSome then .clash need
  else .none

/-- Performs what is due for the arrivals like `a`. -/
def State.meet (s : State) (c sl : Nat) (a : Arrival) : State :=
  match s.meetOf c sl a with
  | .none => s
  | .clash need => s.clash c sl need
  | .done need =>
    let arrs := need.filterMap (arrOf (s.warp c sl).arrs)
    (s.dropArrivals c sl need).perform c sl arrs (laneMask (s.absentIn c sl a.mask))

/-- Evaluates every rendezvous of a warp again, as when Absent has changed (R158). -/
def State.meetAll (s : State) (c sl : Nat) : State :=
  (s.warp c sl).arrs.foldl (fun s a => if (s.warp c sl).arrs.contains a then s.meet c sl a else s) s

/-! ## Arrival -/

/-- What a thread supplies at a rendezvous. -/
structure Offer where
  op : XOp
  a : Word := 0
  b : Word := 0
  p : Bool := false
  d : Nat := 0
  n : Bool := false
  e : Bool := true
  deriving DecidableEq, Repr

/-- A MASK fault before any rendezvous: generator mode in a phase that forbids the instruction (R186, R187), or the
thread's own lane missing from M (R158). -/
def State.arrivalFault (s : State) (t : TRef) (th : Thread) (op : XOp) (m : Word) : Option TrapInfo :=
  let k63 := s.members t.core t.slot
  let forbidden : Bool :=
    match op, (s.warp t.core t.slot).gen with
    | .genbeg, some _ => true
    | .genbeg, none => false
    | .gennext, none => true
    | .gennext, some g => !g.consume || th.trap.isSome
    | _, some g => !g.consume
    | _, none => false
  if forbidden then some (maskTrap k63)
  else if !m.getLsbD t.lane then some (maskTrap m)
  else none

/-- The arrivals of one warp's threads of a group, all at one address (R158, R160). A thread in trap mode is its own
whole rendezvous. -/
def State.arriveWarp (s : State) (c sl : Nat) (ts : List TRef) (f : Thread → Offer) : State :=
  let mk (t : TRef) (th : Thread) (m : Word) : Arrival :=
    let o := f th
    { lane := t.lane, addr := th.pc, mask := m, op := o.op, a := o.a, b := o.b, p := o.p, d := o.d, n := o.n, e := o.e }
  let s := ts.foldl (fun s t =>
    let th := s.thread t
    let m : Word := if th.trap.isSome then laneMask [t.lane] else s.members c sl
    match s.arrivalFault t th (f th).op m with
    | some inf => s.takeTrap t inf false
    | none =>
      if th.trap.isSome then s.perform c sl [mk t th m] 0
      else
        let s := s.modThread t fun th => { th with st := .waiting .rendezvous }
        s.modWarp c sl fun w => { w with arrs := w.arrs ++ [mk t th m] }) s
  -- arrivals with a different M at the address: the first case of R160
  match (s.warp c sl).arrs.reverse with
  | [] => s
  | a :: _ =>
    if ¬ ts.contains (laneRef c sl a.lane) then s
    else
      let here := (s.warp c sl).arrs.filter fun x => x.addr = a.addr
      if here.any fun x => x.mask ≠ a.mask then s.clash c sl (here.map Arrival.lane) else s.meet c sl a

/-- An instruction that is a rendezvous (R158, R159). When every warp of the group completes in place the group keeps its
port; else it gives the port up. -/
def issueMeet (i : Instr) (s : State) (f : Thread → Offer) : Answer :=
  issueWith i s (fun _ _ => none) fun s g =>
    let shared := g.any fun t => (s.thread t).trap.isNone && (s.warp t.core t.slot).arrs.any fun a => a.addr = (s.thread t).pc
    let s := (groupWarps g).foldl (fun s w =>
      s.arriveWarp w.1 w.2 (g.filter fun t => t.core = w.1 ∧ t.slot = w.2) f) s
    -- in place: Need lay in the group, and nobody of the group is held at the instruction
    if i.isHeel ∨ shared ∨ (g.any fun t => (s.thread t).st = .waiting .rendezvous) then s
    else g.foldl (fun s t =>
      if (s.thread t).st = .ready ∧ ((s.core t.core).port s.curPort).contains t then s.modThread t fun th => { th with st := .running }
      else s) s

end Sys2Proof.Machine
end

