-- ==== Sys2Proof/Machine/Generator.lean ====
section
/-! DEFINITION. The generator loop (spec 09 R176-R188): GENBEG and GENNEXT as rendezvous, YIELD, TAKE, GENEND, GENSTAT and
the switch to the consumer. -/

namespace Sys2Proof.Machine

/-! ## The proofing buffer (R176) -/

/-- The scratchpad offset of an entry of a frame of an area. -/
def Block.entryAt (b : Block) (area f e : Nat) : Nat := b.scratch + 1024 * area + 512 * f + 16 * e

/-- Entry width rounded up to a power of two. -/
def widthAlign (w : Nat) : Nat := if w = 3 then 4 else w

/-! ## GENBEG and GENNEXT (R178, R186) -/

def execGenbeg (b a : Code) (s : State) : Answer :=
  issueMeet (.genbeg b a) s fun th => { op := .genbeg, a := th.word a.toNat, b := th.word b.toNat }

def execGennext (s : State) : Answer :=
  issueMeet .gennext s fun _ => { op := .gennext }

/-! ## YIELD (R179) -/

/-- The checks of YIELD and TAKE on the registers of their entry (R179, R185). An entry that passes the budget is BOUND and no illegal
word (log 45). -/
def genRegFault (th : Thread) (r w : Nat) : Option TrapInfo :=
  if r % widthAlign w ≠ 0 then some { code := causeALIGN, addr := BitVec.ofNat 64 r }
  else if th.budget ≤ r + w - 1 then some { code := causeBOUND, addr := BitVec.ofNat 64 (r + w - 1) }
  else none

/-- The thread may produce: generator mode, PRODUCE, not in trap mode, not Ended. -/
def Gen.produces (g : Gen) (th : Thread) (lane : Nat) : Bool := !g.consume && th.trap.isNone && !g.ended.contains lane

/-- An entry of a lane among those that its warp has appended in this cycle, in increasing lane order (R180). -/
def Yields.add (y : Yields) (lane : Nat) (ws : List Word) : Yields := { y with list := insertBy Prod.fst (lane, ws) y.list }

/-- The YIELDs of this cycle so far. -/
def Gen.yields (g : Gen) (now : Nat) : Yields :=
  let fresh : Yields := { cyc := now, fill := g.fill, cnt0 := g.cnt0, cnt1 := g.cnt1, list := [] }
  match g.now with
  | none => fresh
  | some y => if y.cyc = now then y else fresh

/-- One entry appended to the filling frame (R179). -/
def State.append (s : State) (c sl : Nat) (ws : List Word) : State :=
  let w := s.warp c sl
  match w.gen with
  | none => s
  | some g =>
    let n := g.cnt g.fill
    let s := scrWrite s w.blk ((s.block w.blk).entryAt g.area g.fill n) (ws.flatMap fun v => leBytes 4 v.toNat)
    let g1 := g.setCnt g.fill (n + 1)
    s.modWarp c sl fun w => { w with gen := some (if n + 1 = 32 then { g1 with fill := 1 - g.fill } else g1) }

/-- The YIELDs of a cycle appended anew, from the frames as they stood before it. -/
def State.appendAll (s : State) (c sl : Nat) (y : Yields) : State :=
  let s := s.modWarp c sl fun w => { w with gen := w.gen.map fun g => { g with fill := y.fill, cnt0 := y.cnt0, cnt1 := y.cnt1, now := some y } }
  y.list.foldl (fun s x => s.append c sl x.2) s

def yieldTurn (a : Code) (s : State) (t : TRef) : State × Fate :=
  let th := s.thread t
  let w := s.warp t.core t.slot
  let mask : Fate := .trap (maskTrap (s.members t.core t.slot))
  match w.gen with
  | none => (s, mask)
  | some g =>
    if !g.produces th t.lane then (s, mask)
    else match genRegFault th a.toNat g.w with
      | some inf => (s, .trap inf)
      | none =>
        -- the proofing area is not there: the group is held (R340)
        if !(s.block w.blk).unloaded.isEmpty then (s, mask) else
        let s := s.appendAll t.core t.slot ((g.yields s.clock).add t.lane (th.group a.toNat g.w))
        (s.modThread t fun th => { th with loaf := { th.loaf with yielded := true } }, .go)

def execYield (a : Code) (e : Bool) (s : State) : Answer := issueEach (.yield a e) s (yieldTurn a)

/-! ## TAKE (R185) -/

def takeTurn (p : BitVec 2) (n : Bool) (d : Code) (s : State) (t : TRef) : State × Fate :=
  let th := s.thread t
  let w := s.warp t.core t.slot
  let mask : Fate := .trap (maskTrap (s.members t.core t.slot))
  match w.gen with
  | none => (s, mask)
  | some g =>
    if !g.consume || th.trap.isSome then (s, mask)
    else match genRegFault th d.toNat g.w with
      | some inf => (s, .trap inf)
      | none =>
        if !(s.block w.blk).unloaded.isEmpty then (s, mask) else
        let valid := decide (t.lane < g.cnt g.cf)
        let at_ := (s.block w.blk).entryAt g.area g.cf t.lane
        if valid && scrPoison s w.blk at_ (4 * g.w) then (s.halt t haltPAR, .gone) else
        let bs := scrRead s w.blk at_ (4 * g.w)
        let ws := bytesWords g.w (if valid then bs else [])
        let push := if n || decide (2 < g.w) then none else some (pairOf (ws.getD 0 0) (ws.getD 1 0))
        (s.modThread t fun th =>
          th.deliver { base := d.toNat, regs := if n then [] else ws, push := push, preds := [(p.toNat, valid)] }, .go)

def execTake (p : BitVec 2) (n : Bool) (d : Code) (e : Bool) (s : State) : Answer := issueEach (.take p n d e) s (takeTurn p n d)

/-! ## GENEND and GENSTAT (R181, R188) -/

def genendTurn (s : State) (t : TRef) : State × Fate :=
  let mask : Fate := .trap (maskTrap (s.members t.core t.slot))
  match (s.warp t.core t.slot).gen with
  | none => (s, mask)
  | some g =>
    if !g.produces (s.thread t) t.lane then (s, mask)
    else (s.modWarp t.core t.slot fun w => { w with gen := some { g with ended := addNat g.ended t.lane } }, .rest .ended)

def execGenend (s : State) : Answer := issueEach .genend s genendTurn

/-- The GENSTAT word for the thread in a lane. -/
def State.genstatWord (s : State) (t : TRef) : Word :=
  match (s.warp t.core t.slot).gen with
  | none => 0
  | some g =>
    BitVec.ofNat 32 (2 ^ 31 + (if g.consume then 2 ^ 30 else 0) + (if g.pend then 2 ^ 29 else 0) +
      (if g.consume then g.cf else g.fill) * 2 ^ 28 + (g.w - 1) * 2 ^ 26 + (if g.ended.contains t.lane then 2 ^ 24 else 0) +
      s.remaining t.core t.slot g * 2 ^ 18 + g.cnt1 * 2 ^ 12 + g.cnt0 * 2 ^ 6)

def execGenstat (n : Bool) (d : Code) (e : Bool) (s : State) : Answer :=
  issueLaneAt (.genstat n d e) s fun s t _ => res1 n d.toNat (s.genstatWord t)

/-! ## The switch (R183) -/

/-- A producer that the switch may take: Ready and withheld, or Waiting only for registers, at the start of a loaf. -/
def Thread.atSwitch (th : Thread) : Bool :=
  th.trap.isNone && decide (th.loaf.cnt = 0) &&
    (match th.st with | .ready => true | .listed => true | .waiting .withheld => true | .waiting .outs => th.outs.all Out.named | _ => false)

/-- The warp in a slot enters CONSUME when its switch is pending and every producer may be taken; pending writes hold no thread back
from the consumer but by R49. -/
def State.switchGen (s : State) (c sl : Nat) : State :=
  match (s.warp c sl).gen with
  | none => s
  | some g =>
    let prod := (s.warpThreads c sl).filter fun x => x.2.live && !g.ended.contains x.1.lane
    if g.pend && !g.consume && prod.all fun x => x.2.atSwitch then
      let saved := prod.map fun x => (x.1.lane, x.2.pc)
      let g2 : Gen := { g with consume := true, pend := false, saved := saved, now := none }
      let s := (s.modWarp c sl fun w => { w with gen := some g2 }).startAll c sl g.consumer
      prod.foldl (fun s x => s.modThread x.1 fun th => { th with st := .ready }) s
    else s

/-- GENERATOR_SWITCH: the warp in slot `arg.slot` of core `arg.core`. -/
def execGeneratorSwitch (s : State) : Answer := .next (s.switchGen s.arg.core s.arg.slot)

end Sys2Proof.Machine
end

