-- ==== Sys2Proof/Machine/Knead.lean ====
section
/-! DEFINITION. The kneading table (spec 08 R171-R175): KNEAD, KFLUSH, KSTAT, the release of a bin and the slot that a
released bin takes. -/

namespace Sys2Proof.Machine

/-! ## A released bin forms a warp (R174) -/

/-- A warp of KNEAD in a slot that its block did not receive at placement has left it: the slot is free again (R174). -/
def State.leftSlot (s : State) (c sl : Nat) (w : Warp) : Bool :=
  w.leaven.isNone && !(s.block w.blk).slots.contains sl && !s.slotLive c sl

/-- The registers in use on a core: the budgets of its warps and the leaven budgets of its blocks (R147). -/
def State.regsUsed (s : State) (c : Nat) : Nat :=
  let warps := s.warps.foldl (fun n x =>
    if x.1.1 = c ∧ x.1.2 < 64 ∧ x.2.leaven.isNone ∧ !s.leftSlot c x.1.2 x.2 then n + (s.block x.2.blk).budgets.getD x.2.role 0 else n) 0
  s.blocks.foldl (fun n x => if x.2.core = c ∧ x.2.benched = false then n + x.2.leavenBudget else n) warps

/-- The warp slots of a core that are free. -/
def State.freeSlots (s : State) (c : Nat) : List Nat :=
  (List.range 48).filter fun sl => match s.warp? c sl with | none => true | some w => s.leftSlot c sl w

/-- The slot that a released bin takes: the lowest vacated one of its block, else the lowest free one of the core at
which the registers suffice, if any. -/
def State.slotFor (s : State) (c : Nat) (b : Bin) : Option Nat :=
  let blk := s.block b.blk
  match (List.range 48).find? fun sl => blk.slots.contains sl && !s.slotLive c sl with
  | some sl => some sl
  | none =>
    if s.regsUsed c + blk.budgets.getD b.role 0 ≤ 2048 then (s.freeSlots c).head? else none

/-- A thread of a released bin as it starts in its new warp; a poisoned word of the bin is a parity error in the register that receives
it (R334). -/
def BinThread.start (b : BinThread) (budget : Nat) : Thread :=
  let th : Thread := {
    tid := b.th.tid, budget := budget, p1 := b.th.p1, p2 := b.th.p2, p3 := b.th.p3, pc := b.th.pc, aflags := b.th.aflags,
    scClock := b.th.scClock, scCore := b.th.scCore, xvec := b.th.xvec, bad := b.th.bad, watch := b.th.watch, tokens := b.th.tokens }
  { b.regs.foldl (fun th r => th.setG r.1 r.2) th with bad := b.th.bad }

/-- The threads of a bin placed in lanes from `i` on. -/
def State.seat (s : State) (c sl budget : Nat) : Nat → List BinThread → State
  | _, [] => s
  | i, b :: r => (s.setThread ⟨c, sl, i⟩ (b.start budget)).seat c sl budget (i + 1) r

/-- The threads that an earlier warp has left in a slot go. -/
def State.clearSlot (s : State) (c sl : Nat) : State := (s.warpThreads c sl).foldl (fun s x => (s.unplace x.1).dropThread x.1) s

/-- A released bin takes a slot. -/
def State.formWarp (s : State) (c sl : Nat) (b : Bin) : State :=
  let s := s.clearSlot c sl
  let lanes := List.range b.threads.length
  let k := (match b.threads with | [] => Vector.replicate 64 0 | x :: _ => x.k).setIfInBounds 63 (laneMask lanes)
  let s := s.setWarp c sl { blk := b.blk, role := b.role, k := k }
  s.seat c sl ((s.block b.blk).budgets.getD b.role 0) 0 b.threads

/-- The `k`-th released bin of a core takes a slot, when one is there for it. -/
def State.placeReleased (s : State) (c k : Nat) : State :=
  match (s.core c).released[k]? with
  | none => s
  | some b =>
    match s.slotFor c b with
    | none => s
    | some sl => (s.modCore c fun x => { x with released := ldrop x.released k }).formWarp c sl b

/-- The waiting bins of a core take slots, the one that has waited longest first, as long as one of them finds one. -/
def State.placeWaiting (c : Nat) : Nat → State → State
  | 0, s => s
  | fuel + 1, s =>
    match (s.core c).released.findIdx? fun b => (s.slotFor c b).isSome with
    | none => s
    | some k => (s.placeReleased c k).placeWaiting c fuel

/-- Bin `k` of a core is released: it leaves the table and takes a slot at once when it can. -/
def State.releaseBin (s : State) (c k : Nat) : State :=
  match (s.core c).bins[k]? with
  | none => s
  | some b =>
    let s := s.modCore c fun x => { x with bins := ldrop x.bins k, released := x.released ++ [b] }
    s.placeWaiting c (s.core c).released.length

/-! ## KNEAD (R172, R173) -/

/-- The bin whose first thread entered earliest. -/
def earliestBin (bins : List Bin) : Nat :=
  match sortBy (fun x => x.2.entered) (bins.zipIdx.map fun x => (x.2, x.1)) with
  | [] => 0
  | x :: _ => x.1

/-- A free bin is made, by eviction when all 8 are in use. -/
def State.makeRoom (s : State) (c : Nat) : State :=
  if (s.core c).bins.length < 8 then s else s.releaseBin c (earliestBin (s.core c).bins)

/-- The place of a thread in its bin: after those that entered before this cycle, and of this cycle in order of warp slot and then
lane (R173). -/
def insertBin (x : BinThread) (l : List BinThread) : List BinThread :=
  insertBy (fun y => y.since * 2048 + y.from_.slot * 32 + y.from_.lane) x l

/-- The bin of a block, a role and a key. -/
def Bin.isFor (br : BRef) (role : Nat) (key : Word) (b : Bin) : Bool := decide (b.blk = br) && decide (b.role = role) && decide (b.key = key)

/-- A core has a bin of a block, role and key: the one that it holds, else a free one, by eviction when there is none. -/
def State.openBin (s : State) (c : Nat) (br : BRef) (role : Nat) (key : Word) : State :=
  if (s.core c).bins.any (Bin.isFor br role key) then s
  else
    let s := s.makeRoom c
    let fresh : Bin := { blk := br, role := role, key := key, threads := [], entered := s.clock }
    s.modCore c fun k => { k with bins := k.bins ++ [fresh] }

/-- A thread is appended to the bin of its block, role and key. -/
def State.joinBin (s : State) (c : Nat) (br : BRef) (role : Nat) (key : Word) (x : BinThread) : State :=
  let add (b : Bin) : Bin := if b.isFor br role key then { b with threads := insertBin x b.threads } else b
  s.modCore c fun k => { k with bins := k.bins.map add }

/-- The bin of a block, role and key is released when it holds 32 threads. -/
def State.closeBin (s : State) (c : Nat) (br : BRef) (role : Nat) (key : Word) : State :=
  match (s.core c).bins.findIdx? fun b => b.isFor br role key && decide (32 ≤ b.threads.length) with
  | none => s
  | some k => s.releaseBin c k

/-- KNEAD takes effect: every pending write has landed. The bin is found, by eviction while the thread still holds its slot; the thread is
appended to it and its lane becomes absent; the bin may then be full. -/
def State.kneadNow (s : State) (t : TRef) (key : Word) (base n : Nat) : State :=
  let s := (s.flushAll t).scForce t
  let th := s.thread t
  if th.live then
    let w := s.warp t.core t.slot
    let x : BinThread := {
      from_ := t, since := s.clock, regs := (List.range' base n).map fun r => (r, th.rd r),
      th := { th with pc := th.pc + 4, loaf := {}, bad := th.bad.filter fun r => decide (129 ≤ r) && decide (r ≤ 131), st := .ready }, k := w.k }
    let s := (s.openBin t.core w.blk w.role key).joinBin t.core w.blk w.role key x
    (((s.unplace t).dropThread t).departed t false).closeBin t.core w.blk w.role key
  else s

/-- A thread waits at a KNEAD in the bank of its core (R340), and none of its writes is left (R173). -/
def State.kneadReady (s : State) (t : TRef) : Bool :=
  match (s.thread t).st with
  | .waiting (.kneadOuts _ _ _) => decide (t.slot < 64) && (s.thread t).outs.isEmpty && (s.thread t).sc.isNone
  | _ => false

/-- A KNEAD that has waited takes effect when it may. -/
def State.kneadDue (s : State) (t : TRef) : State :=
  match (s.thread t).st with
  | .waiting (.kneadOuts key base n) => if s.kneadReady t then s.kneadNow t key base n else s
  | _ => s

/-- No thread of a core but those given can enter the kneading table in the present cycle after them: the others that wait at a KNEAD
and the groups on the ports might. -/
def State.kneadAlone (s : State) (c : Nat) (ts : List TRef) : Bool :=
  ((s.core c).p0 ++ (s.core c).p1).all ts.contains &&
  s.threads.all fun x => decide (x.1.core ≠ c) || ts.contains x.1 || (match x.2.st with | .waiting (.kneadOuts _ _ _) => false | _ => true)

/-- At the end of a cycle the KNEADs that may take effect do, in order of warp slot and then lane (R173). -/
def State.kneadCycle (s : State) : State :=
  let due := (s.threads.map Prod.fst).filter s.kneadReady
  if due.isEmpty then s else (sortBy (fun t => (t.core * 64 + t.slot) * 32 + t.lane) due).foldl State.kneadDue s

/-- The last write of a thread that waits at a KNEAD has landed: the KNEAD takes effect, at the end of the cycle when another thread of the
core might enter the table in this cycle too. -/
def State.kneadLanded (s : State) (t : TRef) : State := if s.kneadAlone t.core [t] then s.kneadDue t else s

/-- KNEAD gA, with `c` live registers from gB on: in trap mode it only advances, in generator mode it faults (R187). It takes effect at
once, or when the thread's writes have landed and no thread that is to enter before it in the same cycle is left. -/
def execKnead (b a : Code) (c : BitVec 4) (s : State) : Answer :=
  issueWith (.knead b a c) s (fun _ _ => none) fun s g =>
    let alone := s.kneadAlone s.curCore g
    (sortBy (fun t => t.slot * 32 + t.lane) g).foldl (turn (.knead b a c) fun s t =>
      let th := s.thread t
      let key := th.word a.toNat
      if th.trap.isSome then (s, .go)
      else if (s.warp t.core t.slot).gen.isSome then (s, .trap (maskTrap (s.members t.core t.slot)))
      else if alone && th.outs.isEmpty && !s.scStuck t then (s.kneadNow t key b.toNat c.toNat, .gone)
      else (s, .wait (.kneadOuts key b.toNat c.toNat))) s

/-! ## KFLUSH and KSTAT (R175) -/

/-- Every bin of a block is released, in the order of the table. -/
def State.releaseBins (s : State) (c : Nat) (br : BRef) : Nat → State
  | 0 => s
  | fuel + 1 =>
    match (s.core c).bins.findIdx? fun b => b.blk = br with
    | none => s
    | some k => (s.releaseBin c k).releaseBins c br fuel

/-- KFLUSH: afterwards no thread of the block is in a bin, so it does not wait. -/
def execKflush (s : State) : Answer :=
  issueEach .kflush s fun s t => (s.releaseBins t.core (s.blkOf t) 8, .go)

/-- The KSTAT word of a block. More than eight of its bins may wait for a slot: WAITB is then their count modulo 16 (DESIGN CHOICE, log
entry 64). -/
def State.kstatWord (s : State) (c : Nat) (br : BRef) : Word :=
  let k := s.core c
  let held := (k.bins.filter fun b => b.blk = br).foldl (fun n b => n + b.threads.length) 0
  let waitb := (k.released.filter fun b => b.blk = br).length
  BitVec.ofNat 32 (held % 512 + k.bins.length * 2 ^ 16 + waitb % 16 * 2 ^ 20)

def execKstat (n : Bool) (d : Code) (e : Bool) (s : State) : Answer :=
  issueLaneAt (.kstat n d e) s fun s t _ => res1 n d.toNat (s.kstatWord t.core (s.blkOf t))

/-! ## Events -/

/-- BIN_TIMEOUT: bin `arg.k` of core `arg.core` is released when its first thread entered 2048 cycles ago. -/
def execBinTimeout (s : State) : Answer :=
  let a := s.arg
  match (s.core a.core).bins[a.k]? with
  | none => .next s
  | some b => .next (if b.entered + 2048 ≤ s.clock then s.releaseBin a.core a.k else s)

/-- BIN_WARP_TAKES_SLOT: the first waiting bin of core `arg.core` that finds a slot takes it. -/
def execBinWarpTakesSlot (s : State) : Answer :=
  .next (s.placeWaiting s.arg.core 1)

end Sys2Proof.Machine
end

