-- ==== Sys2Proof/Machine/Watch.lean ====
section
/-! DEFINITION. Watches (spec 14 R262, R263): WATCH, DOZE and DOZE_TIMEOUT. -/

namespace Sys2Proof.Machine

/-! ## WATCH (R262) -/

/-- The distinct lines that watches hold trackers for on the home slice of a line. -/
def State.tracked (s : State) (ln : Nat) : List Nat :=
  let at_ (k : Nat) : Bool := decide (homeOf (k * 128) = homeOf (ln * 128)) && decide (sliceOf k = sliceOf ln)
  let ths := s.threads.map Prod.snd ++
    s.cores.flatMap fun c => (c.2.bins ++ c.2.released).flatMap fun b => b.threads.map BinThread.th
  ((ths.filter fun th => th.watch.armed && th.watch.tracked && at_ th.watch.line).map fun th => th.watch.line).eraseDups

/-- A watch armed on a line; without a free one of the 256 trackers it fires at once with the cause SPUR. -/
def State.arm (s : State) (t : TRef) (ln : Nat) : State :=
  let s := s.modThread t fun th => { th with watch := {} }
  let used := s.tracked ln
  let got := used.contains ln || decide (used.length < 256)
  let w : Watch := { line := ln, armed := true, spur := !got, tracked := got }
  s.modThread t fun th => { th with watch := w }

def execWatch (a : Code) (e : Bool) (s : State) : Answer :=
  issueMem (.watch a e) s fun s t th => do
    let q : Need := { acc := accRead, r := true, w := false, align := 1, noDev := true, cmpOk := true }
    let r ← s.globalOf t (th.pair a.toNat) 1 q
    match r.2 with
    | .scr _ _ => return r.1
    | .glob pa _ _ => return r.1.arm t (pa / 128)

/-! ## DOZE (R263) -/

/-- The words that DOZE delivers. -/
def dozeFired : Word := 1
def dozeTimeout : Word := 2
def dozeRestore : Word := 4
def dozeNoarm : Word := 8
def dozeSpur : Word := 16

/-- DOZE ends: the watch is disarmed and the word is delivered. -/
def Thread.dozed (th : Thread) (d : Nat) (n : Bool) (w : Word) : Thread :=
  ({ th with watch := {} } : Thread).deliver (res1 n d w)

/-- The word of a watch that has fired, if it has. A write on the line takes precedence over SPUR. -/
def Watch.outcome (w : Watch) : Option Word := if w.fired then some dozeFired else if w.spur then some dozeSpur else none

def execDoze (a : Code) (n : Bool) (d : Code) (s : State) : Answer :=
  issueEach (.doze a n d) s fun s t =>
    let th := s.thread t
    let done (w : Word) : State × Fate := (s.modThread t fun th => th.dozed d.toNat n w, .go)
    if th.watch.lost then done dozeRestore
    else if !th.watch.armed then done dozeNoarm
    else match th.watch.outcome with
      | some w => done w
      | none => (s, .wait (.doze s.clock (th.word a.toNat).toNat d.toNat n))

/-- A dozing thread whose watch has fired goes on behind its DOZE. -/
def Thread.wakeDoze (th : Thread) : Thread :=
  match th.st with
  | .waiting (.doze _ _ d n) =>
    match th.watch.outcome with
    | some w => (th.dozed d n w).passHeel
    | none => th
  | _ => th

/-- DOZE_TIMEOUT: the limit of the dozing thread `arg.t` has passed. -/
def execDozeTimeout (s : State) : Answer :=
  let t := s.arg.t
  match (s.thread t).st with
  | .waiting (.doze since limit d n) =>
    .next (if limit ≠ 0 ∧ since + limit ≤ s.clock then
        s.modThread t fun th => (th.dozed d n ((th.watch.outcome).getD dozeTimeout)).passHeel
      else s)
  | _ => .next s

end Sys2Proof.Machine
end

