-- ==== Sys2Proof/Machine/Grouper.lean ====
section
/-! DEFINITION. The grouper of a core (spec 07 R149-R152): the PC table, its overflow, the two ports; what each cycle does (threads
that have become Ready enter the table, free ports are filled); what follows a move; and the events GROUPER_FILL, ENTRY_AGED,
PENDING_WRITE_LANDS and RENDEZVOUS_COMPLETE. -/

namespace Sys2Proof.Machine

/-! ## The PC table (R149) -/

/-- An entry may take a thread: same PC and loaf position, lane free, same trap mode (R326), and never leaven threads with
ordinary ones (R154). -/
def Entry.takes (e : Entry) (t : TRef) (th : Thread) : Bool :=
  decide (e.pc = th.pc) && decide (e.j = th.loaf.j) && decide (e.cnt = th.loaf.cnt) && (e.trapMode == th.trap.isSome) &&
  (e.leaven == th.leaven) && e.members.all fun m => decide (m.lane ≠ t.lane)

/-- The place of the entry of oldest creation that takes a thread. Entries stand in order of creation. -/
def Core.entryFor (c : Core) (t : TRef) (th : Thread) : Option Nat := c.table.findIdx? fun e => e.takes t th

/-- A new entry for a thread that has been Ready since the core had begun `born` loaves. -/
def Entry.start (t : TRef) (th : Thread) (now born : Nat) : Entry :=
  { pc := th.pc, j := th.loaf.j, cnt := th.loaf.cnt, trapMode := th.trap.isSome, leaven := th.leaven, members := [t], created := now, born := born }

/-- A Ready thread enters the table, or the overflow when the 256 entries are in use. -/
def Core.insert (c : Core) (t : TRef) (th : Thread) (now : Nat) : Core :=
  match c.entryFor t th with
  | some k => { c with table := c.table.zipIdx.map fun e => if e.2 = k then { e.1 with members := e.1.members ++ [t] } else e.1 }
  | none =>
    if c.table.length < 256 then { c with table := c.table ++ [Entry.start t th now c.loaves] }
    else { c with overflow := c.overflow ++ [(t, c.loaves)] }

/-- The oldest thread of the overflow takes a freed entry. -/
def State.drainOverflow (c : Nat) : Nat → State → State
  | 0, s => s
  | fuel + 1, s =>
    let x := s.core c
    match x.overflow with
    | [] => s
    | (t, born) :: rest =>
      if x.table.length < 256 then
        (s.setCore c { x with overflow := rest, table := x.table ++ [Entry.start t (s.thread t) s.clock born] }).drainOverflow c fuel
      else s

/-! ## Threads that have become Ready (R49, R149, R183) -/

/-- A producer that may begin no new loaf, since a switch is pending (R183). -/
def State.withheld (s : State) (t : TRef) (th : Thread) : Bool :=
  match (s.warp t.core t.slot).gen with
  | none => false
  | some g => g.pend && !g.consume && th.trap.isNone && decide (th.loaf.cnt = 0) && !g.ended.contains t.lane

/-- A Ready thread that is not in the table yet: withheld, held back by a pending register, or inserted. -/
def State.takeIn (s : State) (t : TRef) : State :=
  let th := s.thread t
  if th.st ≠ .ready then s
  else if s.withheld t th then s.modThread t fun th => { th with st := .waiting .withheld }
  else if s.heldBack t th then s.modThread t fun th => { th with st := .waiting .outs }
  else (s.modCore t.core fun c => c.insert t th s.clock).modThread t fun th => { th with st := .listed }

/-- The position of a thread in the order of insertion. -/
def TRef.order (t : TRef) : Nat := (t.core * 64 + t.slot) * 32 + t.lane

/-- The threads that satisfy a condition, in the order of insertion. -/
def State.refsWhere (s : State) (p : TRef → Thread → Bool) : List TRef :=
  sortBy TRef.order ((s.threads.filter fun x => p x.1 x.2).map Prod.fst)

/-- A thread in the bank of its core that is Ready and not in the table: the slots from 64 on hold what a context switch takes out
(R340). -/
def Thread.enters (t : TRef) (th : Thread) : Bool := decide (th.st = .ready) && decide (t.slot < 64)

/-- The threads of a core that have become Ready enter, after those that the overflow holds. -/
def State.insertReady (s : State) (c : Nat) : State :=
  let s := s.drainOverflow c (s.core c).overflow.length
  (s.refsWhere fun t th => decide (t.core = c) && th.enters t).foldl State.takeIn s

/-! ## Filling the ports (R150, R152) -/

/-- An entry is aged: 256 cycles without issuing. -/
def Entry.old (e : Entry) (now : Nat) : Bool := e.aged || decide (e.created + 256 ≤ now)

/-- So many loaves have begun since some thread became Ready that those Ready as long must be the next, two loaves beginning for each of
them, if no more than 1024 are to begin before its own (R152; log 70). -/
def Core.urgent (c : Core) : Bool :=
  let born := c.table.map Entry.born ++ c.overflow.map Prod.snd
  born.any fun b => decide (b + 1022 ≤ c.loaves + 2 * born.countP fun x => decide (x ≤ b))

/-- The candidates of R150: the aged entries, oldest first, then the others by PC and creation; when it is urgent, the entry that has
waited longest before all of them. -/
def Core.candidates (c : Core) (now : Nat) : List Entry :=
  let l := sortBy Entry.created (c.table.filter fun e => e.old now) ++ sortBy (fun e => e.pc.toNat) (c.table.filter fun e => !e.old now)
  if c.urgent then match sortBy Entry.born c.table with | e :: _ => e :: l.filter (· ≠ e) | [] => l else l

def lanesOf (g : List TRef) : List Nat := g.map TRef.lane
def Entry.disjoint (e : Entry) (lanes : List Nat) : Bool := e.members.all fun m => !lanes.contains m.lane

/-- The entries that ports 0 and 1 take. When it is urgent a single free port waits for the first candidate. -/
def Core.picks (c : Core) (now : Nat) : Option Entry × Option Entry :=
  let cand := c.candidates now
  let cand := if c.urgent && !(c.p0.isEmpty && c.p1.isEmpty) then cand.take 1 else cand
  match c.p0.isEmpty, c.p1.isEmpty with
  | true, true =>
    match cand with
    | [] => (none, none)
    | a :: rest => (some a, rest.find? fun e => decide (e.pc ≠ a.pc) && e.disjoint (lanesOf a.members))
  | true, false => (cand.find? fun e => e.disjoint (lanesOf c.p1), none)
  | false, true => (none, cand.find? fun e => e.disjoint (lanesOf c.p0))
  | false, false => (none, none)

/-- The cycle in which a port last issued. -/
def Core.setLast (c : Core) (p : Nat) (l : Option Nat) : Core := if p = 0 then { c with last0 := l } else { c with last1 := l }
def Core.last (c : Core) (p : Nat) : Option Nat := if p = 0 then c.last0 else c.last1

/-- An entry leaves the table and its threads form the issue group of a port; a loaf that begins is counted. -/
def Core.takeEntry (c : Core) (p : Nat) (e : Entry) : Core :=
  let c := (c.setPort p (sortBy TRef.lane e.members)).setLast p none
  { c with table := c.table.filter (· ≠ e), loaves := if e.cnt = 0 then c.loaves + 1 else c.loaves }

def State.takeEntry (s : State) (c p : Nat) : Option Entry → State
  | none => s
  | some e => e.members.foldl (fun s t => s.modThread t fun th => { th with st := .running }) (s.modCore c fun x => x.takeEntry p e)

/-- Nothing of a core issues: an alarm has halted its partition (R389). -/
def State.coreHalted (s : State) (c : Nat) : Bool := (s.partn (s.partOf c)).halted

/-- The filling of a cycle: threads that have become Ready enter the table and the free ports take entries; while load is shed each core
issues on port 0 only (R356). -/
def State.fillPorts (s : State) (c : Nat) : State :=
  if s.coreHalted c then s
  else
    let s := s.insertReady c
    let e := (s.core c).picks s.clock
    let s := s.takeEntry c 0 e.1
    let s := if 3 ≤ s.powerStep then s else s.takeEntry c 1 e.2
    s.modCore c fun x => { x with fillAt := s.clock + 1 }

/-- GROUPER_FILL: core `arg.core` fills its ports, when the filling of this cycle is still to come. -/
def execGrouperFill (s : State) : Answer := .next (if (s.core s.arg.core).fillAt = s.clock then s.fillPorts s.arg.core else s)

/-- ENTRY_AGED: entry `arg.k` of core `arg.core` has existed for 256 cycles without issuing. -/
def execEntryAged (s : State) : Answer :=
  let c := s.arg.core
  .next (s.modCore c fun x =>
    { x with table := x.table.zipIdx.map fun e => if e.2 = s.arg.k ∧ e.1.old s.clock then { e.1 with aged := true } else e.1 })

/-! ## Landing and meeting -/

/-- The destination group of a thread that begins at a register arrives; a KNEAD that waited for the last one takes effect. -/
def State.landWrite (s : State) (t : TRef) (base : Nat) : State := (s.landOut t base).kneadLanded t

/-- PENDING_WRITE_LANDS: the group of thread `arg.t` that begins at register `arg.k`. -/
def execPendingWriteLands (s : State) : Answer := .next (s.landWrite s.arg.t s.arg.k)

/-- RENDEZVOUS_COMPLETE: the arrivals held in warp `arg.slot` of core `arg.core` are evaluated again, as when a lane that they
waited for has become absent (R158). -/
def execRendezvousComplete (s : State) : Answer := .next (s.meetAll s.arg.core s.arg.slot)

/-! ## What follows a move -/

/-- A listed producer leaves the table when the switch becomes pending (R183). -/
def State.withhold (s : State) (t : TRef) : State :=
  let th := s.thread t
  if th.st = .listed ∧ s.withheld t th then (s.unplace t).modThread t fun th => { th with st := .waiting .withheld } else s

/-- A warp waits for a switch of its generator. -/
def State.anyPending (s : State) : Bool := s.warps.any fun x => match x.2.gen with | none => false | some g => g.pend && !g.consume

/-- A thread that waits for registers, with the cycle since which it does (R154); its heel has been looked at. -/
def Thread.markStall (now : Nat) (th : Thread) : Thread :=
  let th := if th.heeled then { th with heeled := false } else th
  if th.st = .waiting .outs then (match th.stall with | none => { th with stall := some now } | some _ => th)
  else match th.stall with | none => th | some _ => { th with stall := none }

/-- The warps that a heel of this move concerns evaluate the switch conditions (R182). -/
def State.evalHeels (s : State) : State :=
  ((s.threads.filter fun x => x.2.heeled).map fun x => (x.1.core, x.1.slot)).eraseDups.foldl (fun s w => s.evalSwitch w.1 w.2) s

/-- What follows every move: dozing threads whose watch has fired go on, heels are evaluated, producers are withheld. -/
def State.settle (s : State) : State :=
  let s := (s.mapThreads fun _ th => th.wakeDoze).evalHeels
  let s := if s.anyPending then (s.refsWhere fun _ th => decide (th.st = .listed)).foldl State.withhold s else s
  s.mapThreads fun _ th => th.markStall s.clock

/-! ## What each cycle does -/

/-- Waits at JOINs that nothing holds back end (R110). -/
def State.releaseJoins (s : State) : State :=
  (s.warps.filter fun x => decide (x.1.2 < 64)).foldl (fun s x =>
    (s.joinAddrs x.1.1 x.1.2).foldl (fun s j => (s.joinFree x.1.1 x.1.2 j).foldl (fun s t => s.modThread t Thread.rearm) s) s) s

/-- The switches that are due take place in the first cycle in which they may (R183). -/
def State.dueSwitches (s : State) : State :=
  (s.warps.filter fun x => decide (x.1.2 < 64) && x.2.gen.any fun g => g.pend && !g.consume).foldl (fun s x => s.switchGen x.1.1 x.1.2) s

/-- Stores that have been deferred for 1024 loaves of the machine are performed, so that no thread spins longer for one (R152; log 53). -/
def State.overdue (s : State) : State :=
  let n := s.loavesBegun
  if s.threads.any fun x => x.2.stores.any fun y => decide (y.due ≤ n) then s.performNeeded fun x => decide (x.2.due ≤ n) else s

/-- The cores that hold a thread or have a record of their own. -/
def State.coresInUse (s : State) : List Nat :=
  sortBy id (s.cores.map Prod.fst ++ (s.threads.filterMap fun x => if x.2.enters x.1 then some x.1.core else none)).eraseDups

/-- What a new cycle does before its moves; each core in use fills its ports once. -/
def State.newCycle (s : State) : State :=
  let s := s.releaseJoins.dueSwitches.overdue
  let s := s.coresInUse.foldl State.fillPorts s
  s.mapThreads fun _ th => th.markStall s.clock

end Sys2Proof.Machine
end

