-- ==== Sys2Proof/Machine/Engine.lean ====
section
/-! DEFINITION. What the engines share: their accesses to global memory through a core (spec 13 R243, 17 R289, 18 R319), the
chunk records (17 R291), their checksum (R292) and the order-independent sum (R293), and the swizzle (11 R195). -/

namespace Sys2Proof.Machine

/-! ## Global accesses (R243, R249, R289) -/

/-- A range of addresses cut at the lines. -/
def lineParts : Nat → Nat → Nat → List (Nat × Nat)
  | 0, _, _ => []
  | fuel + 1, va, n =>
    if n = 0 then []
    else
      let m := min n (128 - va % 128)
      (va, m) :: lineParts fuel (va + m) (n - m)

/-- The physical location of an engine's access within one line, and its layout code; none when translation, permission
or attribute fails, or when it names a device. `cmp` says which view the access needs. -/
def engineLoc (s : State) (o : Own) (c : Nat) (r w cmp : Bool) (va n : Nat) : Option (Nat × Nat × Nat) :=
  if 2 ^ 48 ≤ va then none
  else match translate s c o va with
    | .error _ => none
    | .ok e =>
      let pa := e.pbase + (va - e.vbase)
      let q : Need := { acc := 0, r := r, w := w, align := 1, noDev := true, cmpOk := cmp }
      if !(present s o.part pa && present s o.part (pa + n - 1)) || (permFail e q).isSome || decide (e.mt = 2) ||
          (e.cmp != cmp) || inDevice pa then none
      else some (pa, e.mt, e.layout)

/-- The physical parts of a range, if all of it may be accessed. -/
def engineParts (s : State) (o : Own) (c : Nat) (r w cmp : Bool) : List (Nat × Nat) → Option (List (Nat × Nat × Nat))
  | [] => some []
  | (va, n) :: rest =>
    match engineLoc s o c r w cmp va n, engineParts s o c r w cmp rest with
    | some (pa, mt, _), some ps => some ((pa, mt, n) :: ps)
    | _, _ => none

/-- The codes of engine errors that memory causes (R274, R289, R319). -/
def codeMem : Nat := 4
def codePoison : Nat := 7

/-- An engine's read: the bytes, or the code of its error. -/
def engineRead (s : State) (o : Own) (c : Nat) (cmp : Bool) (va : Int) (n : Nat) : State × Except Nat (List Byte) :=
  if va < 0 then (s, .error codeMem)
  else
    match engineParts s o c true false cmp (lineParts (n / 128 + 2) va.toNat n) with
    | none => (s, .error codeMem)
    | some ps =>
      let r := ps.foldl (fun (x : State × List Byte × Bool) p =>
        let y := readLoc x.1 o c (.glob p.1 p.2.1 cmp) p.2.2
        (y.1, x.2.1 ++ y.2.1, x.2.2 || y.2.2)) (s, [], false)
      (r.1, if r.2.2 then .error codePoison else .ok r.2.1)

/-- An engine's write at the home: the lines written, or none when it may not be made. -/
def engineWrite (s : State) (o : Own) (c : Nat) (cmp : Bool) (va : Int) (bs : List Byte) : State × Option (List Nat) :=
  if va < 0 then (s, none)
  else
    match engineParts s o c false true cmp (lineParts (bs.length / 128 + 2) va.toNat bs.length) with
    | none => (s, none)
    | some ps =>
      let r := ps.foldl (fun (x : State × List Byte) p =>
        (storeHome x.1 o c p.1 cmp (x.2.take p.2.2), x.2.drop p.2.2)) (s, bs)
      (r.1, some (ps.map fun p => p.1 / 128))

/-- An engine's reduction of an element at its home, in one action (R238, R285). -/
def engineAtomic (s : State) (o : Own) (c : Nat) (va : Int) (n : Nat) (f : Nat → Nat) : State × Except Nat (List Nat) :=
  if va < 0 then (s, .error codeMem)
  else
    match engineParts s o c true true false (lineParts 3 va.toNat n) with
    | none => (s, .error codeMem)
    | some ps =>
      let r := ps.foldl (fun (x : State × List Byte × Bool) p =>
        let y := readHome x.1 o c p.1 p.2.2 false
        (y.1, x.2.1 ++ y.2.1, x.2.2 || y.2.2)) (s, [], false)
      if r.2.2 then (r.1, .error codePoison)
      else
        let q := ps.foldl (fun (x : State × List Byte) p =>
          (storeHome x.1 o c p.1 false (x.2.take p.2.2), x.2.drop p.2.2)) (r.1, leBytes n (f (leValue r.2.1)))
        (q.1, .ok (ps.map fun p => p.1 / 128))

/-! ## Swizzle (R195) -/

/-- A field of a number replaced. -/
def setBits (x lo n v : Nat) : Nat := x - x / 2 ^ lo % 2 ^ n * 2 ^ lo + v % 2 ^ n * 2 ^ lo

def swizzle (mode o : Nat) : Nat :=
  match mode with
  | 1 => setBits o 4 3 ((o / 16 % 8) ^^^ (o / 128 % 8))
  | 2 => setBits o 2 5 ((o / 4 % 32) ^^^ (o / 128 % 32))
  | _ => o

/-! ## Checksums and sums (R292, R293) -/

/-- One byte of CRC-64/ECMA-182, reflected. -/
def crcBits : Nat → Nat → Nat
  | 0, crc => crc
  | k + 1, crc => crcBits k (if crc % 2 = 1 then (crc / 2) ^^^ 0xC96C_5795_D787_0F42 else crc / 2)

def crc64 (bs : List Byte) : Nat :=
  (bs.foldl (fun crc b => crcBits 8 (crc ^^^ b.toNat)) 0xFFFF_FFFF_FFFF_FFFF) ^^^ 0xFFFF_FFFF_FFFF_FFFF

/-- The mix of one word into a command's sum. -/
def sumMix (a w : Nat) : Nat := ((w ^^^ (a * 0xB5AD_4ECE_DA1C_E2A9 % 2 ^ 64)) * 0x9FB2_1C65_1E98_DF25) % 2 ^ 64

def Moved.add (m : Moved) (off : Nat) (bs : List Byte) : Moved :=
  { words := (List.range bs.length).foldl (fun l i => addNat l ((off + i) / 8)) m.words, cells := cellWrite m.cells off bs }

/-- The sum of a command. -/
def Moved.sum (m : Moved) : Nat :=
  m.words.foldl (fun s w => (s + sumMix (8 * w) (leValue (cellRead m.cells (8 * w) 8))) % 2 ^ 64) 0

/-! ## Chunk records (R291) -/

/-- The slot of a layout code (R218). -/
def slotBytes (layout : Nat) : Nat := 256 * 2 ^ layout

/-- The code of a sector in the map of a record. -/
def sectorCode (map s : Nat) : Nat := map / 4 ^ s % 4

/-- The payload bytes of the sectors from `s` on. -/
def payloadLen (map : Nat) : Nat :=
  (List.range 32).foldl (fun n s => n + (match sectorCode map s with | 1 => 4 | 2 => 128 | _ => 0)) 0

/-- The header of a record is well formed for its slot. -/
def chunkOk (slot : Nat) (h : List Byte) : Bool :=
  let len := field h 0 2
  let map := field h 16 8
  decide (field h 2 1 ≤ 7) && decide (field h 3 1 = 1) && decide (field h 4 4 = 0) &&
    (List.range 32).all (fun s => decide (sectorCode map s ≠ 3)) && decide (len = 24 + payloadLen map) && decide (len ≤ slot)

/-- The 4096 bytes of a record's payload. -/
def chunkExpand (map : Nat) : List Nat → List Byte → List Byte
  | [], _ => []
  | s :: r, p =>
    match sectorCode map s with
    | 0 => List.replicate 128 0 ++ chunkExpand map r p
    | 1 => (List.replicate 32 (p.take 4)).flatten ++ chunkExpand map r (p.drop 4)
    | _ => p.take 128 ++ chunkExpand map r (p.drop 128)

/-- Whether a sector is constant: its four bytes repeated. -/
def sectorConst (bs : List Byte) : Bool := decide (bs = (List.replicate 32 (bs.take 4)).flatten)

/-- Where the record of chunk `k` of a tensor at `base` stands, with its slot: the page that holds it has the layout whose slot gives
its place, and so has the second page of a slot of 8192 bytes (R218, R286). Where several layouts would fit, the lowest counts (the spec does
not say which: DESIGN CHOICE, log 78). -/
def chunkSpot (s : State) (o : Own) (c : Nat) (r w : Bool) (base k : Nat) : Option (Nat × Nat) :=
  let page (at_ layout : Nat) : Bool := match engineLoc s o c r w true at_ 1 with | some x => decide (x.2.2 = layout) | none => false
  let at_ (layout : Nat) : Nat := base + slotBytes layout * k
  match (List.range 6).find? fun l => page (at_ l) l && (decide (l ≠ 5) || page (at_ l + 4096) l) with
  | none => none
  | some l => some (at_ l, slotBytes l)

/-- Reads the record of a chunk and checks it: its bytes, code 2 when it fails, or the error of the read. -/
def readChunk (s : State) (o : Own) (c : Nat) (base k : Nat) : State × Except Nat (List Byte) :=
  match chunkSpot s o c true false base k with
  | none => (s, .error codeMem)
  | some (at_, slot) =>
    let h := engineRead s o c true at_ 24
    match h.2 with
    | .error e => (h.1, .error e)
    | .ok hb =>
      -- the slot must lie on compressed pages throughout (R218)
      if (engineParts h.1 o c true false true (lineParts (slot / 128 + 2) at_ slot)).isNone then (h.1, .error codeMem)
      else if !chunkOk slot hb then (h.1, .error 2)
      else
        let p := engineRead h.1 o c true (at_ + 24 : Nat) (field hb 0 2 - 24)
        match p.2 with
        | .error e => (p.1, .error e)
        | .ok pb =>
          let bytes := chunkExpand (field hb 16 8) (List.range 32) pb
          (p.1, if crc64 bytes = field hb 8 8 then .ok bytes else .error 2)

end Sys2Proof.Machine
end

