-- ==== Sys2Proof/Machine/Matrix.lean ====
section
/-! DEFINITION. The matrix instructions (spec 18 R297, R304, R307, R309, R313, R316), the parameter block (R298, R299, R318)
and the arithmetic of a command: its operands (R300-R302), k-steps (R79), metadata (R306, R308) and drain formats
(R311, R312, R314). -/

namespace Sys2Proof.Machine

/-! ## Issuing a command (R297, R304, R307) -/

/-- The CB4 table of a warp: k48 to k55 (R73). -/
def State.cb4Of (s : State) (t : TRef) : List Word := ((s.warp t.core t.slot).k.toList.drop 48).take 8

/-- The chain tag of a buffer that an entry records. -/
def Block.chainTag (b : Block) (buf : Bool) : Option Nat :=
  if buf then (if b.open1 then some (b.chain1 % 2 ^ 31) else none) else (if b.open0 then some (b.chain0 % 2 ^ 31) else none)

def execMxiss (a : Code) (s : State) : Answer :=
  issueEach (.mxiss a) s fun s t =>
    let addr := (s.thread t).word a.toNat
    match s.scratchOf t addr 64 64 accRead with
    | .error inf => (s, .trap inf)
    | .ok (s, _) =>
      let blk := s.block (s.blkOf t)
      let e : MxEntry := { addr := addr, tbl := s.cb4Of t, tag0 := blk.chainTag false, tag1 := blk.chainTag true }
      let s := s.releaseAll t
      if (s.thread t).live then (s.arriveQueue (s.blkOf t) ⟨0, [t], .entry e⟩, .gone) else (s, .gone)

def execChbeg (b : Bool) (e : Bool) (s : State) : Answer :=
  issueEach (.chbeg b e) s fun s t =>
    (s.modBlock (s.blkOf t) fun x =>
      if b then { x with chain1 := x.chain1 + 1, open1 := true } else { x with chain0 := x.chain0 + 1, open0 := true }, .go)

def execChend (b : Bool) (e : Bool) (s : State) : Answer :=
  issueEach (.chend b e) s fun s t =>
    (s.modBlock (s.blkOf t) fun x => if b then { x with open1 := false } else { x with open0 := false }, .go)

def execMxmeta (c : BitVec 2) (a : Code) (s : State) : Answer :=
  issueMeet (.mxmeta c a) s fun th => { op := .mxmeta c.toNat, a := th.word a.toNat }

/-! ## Structured sparsity on lanes (R309) -/

/-- The elements of a group of registers, `bits` wide, low first. -/
def groupElems (bits : Nat) (ws : List Word) : List Nat :=
  ws.flatMap fun w => (List.range (32 / bits)).map fun i => w.toNat / 2 ^ (bits * i) % 2 ^ bits

/-- Elements packed into `n` registers, zero where none is left. -/
def packElems (bits n : Nat) (es : List Nat) : List Word :=
  (List.range n).map fun r => BitVec.ofNat 32 ((List.range (32 / bits)).foldl (fun w i => w + es.getD (r * (32 / bits) + i) 0 * 2 ^ (bits * i)) 0)

/-- The magnitude by which SPCMP orders elements: INT8, H8, BF16. -/
def spMag (t v : Nat) : Nat :=
  match t with
  | 0 => (signed 8 v).natAbs
  | 1 => if v = 0x80 then 0x100 else v % 128
  | _ => if v % 0x8000 > 0x7F80 then 0x1_0000 else v % 0x8000

/-- The indices kept: the `n` greatest magnitudes, the lower index first among equals, in increasing order. -/
def spKept (t n : Nat) (es : List Nat) : List Nat :=
  let rank (i : Nat) : Nat :=
    ((List.range 16).filter fun j => decide (spMag t (es.getD j 0) > spMag t (es.getD i 0)) ||
      (decide (spMag t (es.getD j 0) = spMag t (es.getD i 0)) && decide (j < i))).length
  (List.range 16).filter fun i => rank i < n

def spBits (t : Nat) : Nat := if t = 2 then 16 else 8

def execSpcmp (t k : BitVec 2) (a : Code) (n : Bool) (d : Code) (e : Bool) (s : State) : Answer :=
  issueLane (.spcmp t k a n d e) s fun th =>
    let bits := spBits t.toNat
    let sz := spGroup t.toNat
    let es := groupElems bits (th.group a.toNat sz)
    let kept := spKept t.toNat (2 ^ (k.toNat + 1)) es
    let idx := kept.zipIdx.foldl (fun w x => w + x.1 * 16 ^ x.2) 0
    let ws := BitVec.ofNat 32 idx :: packElems bits (sz - 1) (kept.map fun i => es.getD i 0)
    { base := d.toNat, regs := if n then [] else ws }

/-- The indices of a pruned group's first register, when it is well formed: nibbles increasing, the rest zero. -/
def spIndices (n m : Nat) : Option (List Nat) :=
  let ks := (List.range n).map fun i => m / 16 ^ i % 16
  if (ks.zip (ks.drop 1)).all (fun p => decide (p.1 < p.2)) && decide (m / 16 ^ n = 0) then some ks else none

def execSpexp (t k : BitVec 2) (a : Code) (n : Bool) (d : Code) (e : Bool) (s : State) : Answer :=
  issueLane (.spexp t k a n d e) s fun th =>
    let bits := spBits t.toNat
    let sz := spGroup t.toNat
    let src := th.group a.toNat sz
    let es := groupElems bits (src.drop 1)
    match spIndices (2 ^ (k.toNat + 1)) (src.headD 0).toNat with
    | none => { base := d.toNat, regs := if n then [] else List.replicate sz 0, flags := INV }
    | some ks =>
      let put (i : Nat) : Nat := match firstIdx (fun x => decide (x = i)) ks 0 with | none => 0 | some j => es.getD j 0
      { base := d.toNat, regs := if n then [] else packElems bits sz ((List.range 16).map put) }

/-! ## Block scales on lanes (R313, R316) -/

def execScac (c : BitVec 2) (b : Code5) (a : Code) (n : Bool) (d : Code) (e : Bool) (s : State) : Answer :=
  issueLane (.scac c b a n d e) s fun th =>
    let v := th.pair (code5 b)
    let r := scaleAdd (th.third c d).toNat (th.word a.toNat).toNat (v.toNat % 256) (hiWord v).toNat
    res1 n d.toNat (BitVec.ofNat 32 r.1) r.2

/-- The magnitude of a value. -/
def FVal.mag : FVal → FVal
  | .nan q => .nan q
  | .inf _ => .inf false
  | .fin _ n d => .fin false n d

/-- The CB4 table as exact values. -/
def cb4Values (tbl : List Word) : List FVal := (cb4Entries tbl).map (decodeF BF16)

/-- BSQ: the scale code of a magnitude; its invalid inputs give 0 and INV. -/
def bsqValue (ctl a sup : Nat) (tbl : List Word) : Nat × Flags :=
  let x := decodeF FP32 a
  let sv := decodeF FP32 sup
  let fmax := if ctl = 0 then (1, 1) else if ctl = 1 then (14, 1) else cb4Max (cb4Values tbl)
  if ctl = 3 || x.isNan || sv.isNan || sv.isZero || sv.sign || sv.isInf then (0, INV) else scaleCode x.mag sv fmax

def execBsq (b : Code5) (a : Code) (n : Bool) (d : Code) (e : Bool) (s : State) : Answer :=
  issueLaneAt (.bsq b a n d e) s fun s t th =>
    let r := bsqValue ((th.word d.toNat).toNat % 4) (th.word a.toNat).toNat (th.word (code5 b)).toNat (s.cb4Of t)
    res1 n d.toNat (BitVec.ofNat 32 r.1) r.2

/-! ## The parameter block (R298, R299, R318) -/

def MxPar.of (bs : List Byte) : MxPar :=
  let w (off : Nat) : Word := BitVec.ofNat 32 (field bs off 4)
  let d (off : Nat) : Dword := BitVec.ofNat 64 (field bs off 8)
  { asrc := w 0, bsrc := w 4, mdata := w 8, waita := w 12, klen := field bs 16 2, apitch := field bs 18 2, bpitch := field bs 20 2,
    opitch := field bs 22 2, out := d 24, scout := d 32, obj := w 40, super := w 44, part := w 48, tile := field bs 52 4, ctl := w 56,
    fmt := BitVec.ofNat 16 (field bs 60 2), rect := BitVec.ofNat 16 (field bs 62 2) }

def MxPar.bit (p : MxPar) (i : Nat) : Bool := p.ctl.getLsbD i
def MxPar.pdest (p : MxPar) : Bool := p.bit 23
def MxPar.zero (p : MxPar) : Bool := p.bit 22
def MxPar.drain (p : MxPar) : Bool := p.bit 21
def MxPar.keep (p : MxPar) : Bool := p.bit 20
def MxPar.buf (p : MxPar) : Bool := p.bit 19
def MxPar.tag (p : MxPar) : Nat := p.ctl.toNat % 4096
def MxPar.acmp (p : MxPar) : Bool := p.fmt.getLsbD 15
def MxPar.bcmp (p : MxPar) : Bool := p.fmt.getLsbD 14
def MxPar.dfmt (p : MxPar) : Nat := p.fmt.toNat / 1024 % 8
def MxPar.ddest (p : MxPar) : Nat := p.fmt.toNat / 256 % 4
def MxPar.sp (p : MxPar) : Nat := p.fmt.toNat / 64 % 4
def MxPar.msrc (p : MxPar) : Bool := p.fmt.getLsbD 5
def MxPar.comp (p : MxPar) : Bool := p.fmt.getLsbD 4
def MxPar.opf (p : MxPar) : Nat := p.fmt.toNat % 8
def MxPar.rm (p : MxPar) : Bool := p.rect.getLsbD 15
def MxPar.slot (p : MxPar) : Nat := slotBytes (p.rect.toNat / 4096 % 8)
def MxPar.lh (p : MxPar) : Nat := p.rect.toNat / 8 % 8
def MxPar.lw (p : MxPar) : Nat := p.rect.toNat % 8
/-- The elements kept of each group of 16. -/
def MxPar.kept (p : MxPar) : Nat := 2 ^ p.sp
/-- A block-scaled operand format: it names no buffer (R296). -/
def MxPar.scaled (p : MxPar) : Bool := decide (p.opf = 2) || decide (p.opf = 4) || decide (p.opf = 5)
/-- The k positions of a k-step and the number of k-steps (R79, R300). -/
def MxPar.width (p : MxPar) : Nat := if p.opf = 0 then 32 else 64
def MxPar.steps (p : MxPar) : Nat := (p.klen + p.width - 1) / p.width
/-- The metadata columns of a command (R306). -/
def MxPar.columns (p : MxPar) : Nat := if p.sp = 0 then 0 else p.klen * p.kept / 128
/-- The bits of an element in memory. -/
def MxPar.ebits (p : MxPar) : Nat := match p.opf with | 0 => 16 | 1 => 8 | 2 => 6 | 3 => 8 | _ => 4
/-- The bits of a drained element (R311). -/
def MxPar.dbits (p : MxPar) : Nat := match p.dfmt with | 0 => 32 | 1 => 16 | 2 => 8 | 3 => 6 | 4 => 4 | 5 => 4 | _ => 8
/-- A drain that quantises in blocks. -/
def MxPar.blocks (p : MxPar) : Bool := decide (3 ≤ p.dfmt) && decide (p.dfmt ≤ 5)

/-- The breaches of R318 for a block of a launch. -/
def MxPar.malformed (p : MxPar) (b : Block) : Bool :=
  let sup := decodeF FP32 p.super.toNat
  decide (p.ctl.toNat / 2 ^ 24 ≠ 0) || decide (p.ctl.toNat / 4096 % 128 ≠ 0) || p.fmt.getLsbD 13 || p.fmt.getLsbD 3 ||
  decide (p.rect.toNat / 64 % 64 ≠ 0) || decide (p.waita.toNat / 4 % 4 ≠ 0) || p.obj.getLsbD 0 || decide (p.obj.toNat / 4 % 4 ≠ 0) ||
  decide (6 ≤ p.opf) || decide (p.dfmt = 7) || decide (6 ≤ p.rect.toNat / 4096 % 8) || decide (4 < p.lw) || decide (4 < p.lh) ||
  (!p.rm && decide (p.lw ≠ 0 ∨ p.lh ≠ 0)) ||
  decide (p.klen = 0) || decide (p.klen % 16 ≠ 0) || decide (32768 < p.klen) || (p.scaled && decide (p.klen % 64 ≠ 0)) ||
  (decide (p.sp ≠ 0) && decide (p.klen % (128 / p.kept) ≠ 0)) ||
  (p.scaled && (p.zero || p.drain || p.keep || p.buf || decide (p.ddest ≠ 0))) || (!p.scaled && p.pdest) ||
  (!p.drain && (p.keep || decide (p.ddest ≠ 0))) || (decide (p.ddest = 3) && (decide (p.dfmt ≠ 0) || p.rm)) ||
  (p.comp && decide (p.ddest ≠ 2)) || (p.blocks && (sup.isNan || sup.isInf || sup.isZero || sup.sign)) ||
  (p.rm && (decide (b.cx % 2 ^ p.lw ≠ 0) || decide (b.cy % 2 ^ p.lh ≠ 0) || decide (b.rw < b.cx + 2 ^ p.lw) || decide (b.rh < b.cy + 2 ^ p.lh) ||
    p.asrc.getLsbD 24 || p.bsrc.getLsbD 24 || p.mdata.getLsbD 24 || (decide (p.sp ≠ 0) && !p.msrc)))

/-! ## Operands in a scratchpad (R192, R302) -/

/-- Bytes that an engine reads in a scratchpad: code 4 outside the allocation, code 7 for poison. -/
def scrOperand (s : State) (b : BRef) (addr n : Nat) : Except Nat (List Byte) :=
  if 2 ^ 32 ≤ addr then .error codeMem
  else match checkScratch s b (BitVec.ofNat 32 addr) n 1 accRead with
    | .ok (.scr t off) => if scrPoison s t off n then .error codePoison else .ok (scrRead s t off n)
    | _ => .error codeMem

/-- A chunk record in a scratchpad, decoded and checked. -/
def scrChunk (s : State) (b : BRef) (addr slot : Nat) : Except Nat (List Byte) := do
  let h ← scrOperand s b addr 24
  if !chunkOk slot h then throw 2
  let p ← scrOperand s b (addr + 24) (field h 0 2 - 24)
  let bytes := chunkExpand (field h 16 8) (List.range 32) p
  if crc64 bytes = field h 8 8 then return bytes else throw 2

/-- Where the bytes of an operand are found: plain, or in chunk records already decoded. -/
structure OpSrc where
  blk : BRef
  base : Nat
  cmp : Bool
  chunks : List (Nat × Except Nat (List Byte)) := []

/-- Bytes of the plain layout of an operand. -/
def OpSrc.bytes (o : OpSrc) (s : State) (u n : Nat) : Except Nat (List Byte) :=
  if !o.cmp then scrOperand s o.blk (o.base + u) n
  else do
    let x ← (tget o.chunks (u / 4096)).getD (.error codeMem)
    let y ← (tget o.chunks ((u + n - 1) / 4096)).getD (.error codeMem)
    let lo := (x.drop (u % 4096)).take n
    return lo ++ y.take (n - lo.length)

/-- The chunks of the ranges named are decoded, each once (R302). -/
def OpSrc.decode (o : OpSrc) (s : State) (slot : Nat) (ranges : List (Nat × Nat)) : OpSrc :=
  if !o.cmp then o
  else
    let ks := (ranges.flatMap fun r => [r.1 / 4096, (r.1 + r.2 - 1) / 4096]).foldl addNat []
    { o with chunks := ks.map fun k => (k, scrChunk s o.blk (o.base + slot * k) slot) }

/-- The byte range of `n` elements of a row from element `e0`: offset and length. -/
def rowRange (bits pitch row e0 n : Nat) : Nat × Nat := (16 * pitch * row + bits * e0 / 8, (bits * (e0 + n) + 7) / 8 - bits * e0 / 8)

/-- The codes of `n` elements of a row from element `e0`. -/
def OpSrc.codes (o : OpSrc) (s : State) (bits pitch row e0 n : Nat) : Except Nat (List Nat) := do
  let r := rowRange bits pitch row e0 n
  let bs ← o.bytes s r.1 r.2
  let v := leValue bs / 2 ^ (bits * e0 % 8)
  return (List.range n).map fun i => v / 2 ^ (bits * i) % 2 ^ bits

/-- The words of metadata: group q of a word, kept element i (R306). -/
def metaIdx (kept : Nat) (w : Nat) (q i : Nat) : Nat := w / 2 ^ (4 * kept * q + 4 * i) % 16

/-- The columns of metadata that k-step j uses: the first, and how many. -/
def MxPar.stepCols (p : MxPar) (j : Nat) : Nat × Nat :=
  let per := 128 / p.kept
  let hi := min (p.width * (j + 1)) p.klen
  (p.width * j / per, (hi - 1) / per + 1 - p.width * j / per)

/-- The positions within k-step j of the stored elements of row r of A, for a pruned A (R301). -/
def MxPar.positions (p : MxPar) (cols : List (List Word)) (j r : Nat) : List Nat :=
  let per := 32 / (4 * p.kept)
  let g0 := p.width * j / 16
  let g1 := min (p.width * (j + 1)) p.klen / 16
  (List.range' g0 (g1 - g0)).flatMap fun g =>
    let w := (((cols.getD (g / per) []).getD r 0) : Word).toNat
    (List.range p.kept).map fun i => 16 * (g - g0) + metaIdx p.kept w (g % per) i

/-- Rows read one after another. -/
def readRows (f : Nat → Except Nat (List (Nat × Nat))) : List Nat → Except Nat (List (List (Nat × Nat)))
  | [] => .ok []
  | r :: rs => do
    let x ← f r
    let xs ← readRows f rs
    return x :: xs

/-- The operands of k-step j of a run (R300-R302). -/
def MxRun.fetch (r : MxRun) (s : State) (j : Nat) : Except Nat MxFetch := do
  let p := r.par
  let k0 := p.width * j
  let n := min (p.width * (j + 1)) p.klen - k0
  let rows := List.range 32
  let ae := if p.sp = 0 then (k0, n) else (p.kept * (k0 / 16), p.kept * (n / 16))
  let a0 : OpSrc := { blk := r.ablk, base := p.asrc.toNat, cmp := p.acmp }
  let b0 : OpSrc := { blk := r.bblk, base := p.bsrc.toNat, cmp := p.bcmp }
  let asrc := a0.decode s p.slot (rows.map fun i => rowRange p.ebits p.apitch i ae.1 ae.2)
  let bsrc := b0.decode s p.slot (rows.map fun i => rowRange p.ebits p.bpitch i k0 n)
  let a ← readRows (fun i => do
    let cs ← asrc.codes s p.ebits p.apitch i ae.1 ae.2
    let pos := if p.sp = 0 then List.range n else p.positions r.cols j i
    return pos.zip cs) rows
  let b ← readRows (fun i => do
    let cs ← bsrc.codes s p.ebits p.bpitch i k0 n
    return (List.range n).zip cs) rows
  return { step := j, a := a, b := b }

/-! ## The arithmetic of a k-step (R79) -/

/-- The exact value of an operand code. -/
def opValue (opf : Nat) (tbl : List Word) (c : Nat) : FVal :=
  match opf with
  | 0 => decodeF BF16 c
  | 1 => decodeF FH8 c
  | 2 => decodeF FH6 c
  | 3 => ofInt (signed 8 c)
  | 4 => nq4Values.getD c (.fin false 0 1)
  | _ => decodeF BF16 (cb4Expand tbl c)

/-- The products of one element (r, c). -/
def prodsOf (a : List (Nat × FVal)) (b : List FVal) : List (FVal × FVal) := a.map fun x => (x.2, b.getD x.1 (.fin false 0 1))

/-- The new word of an element and its events. -/
def stepWord (opf : Nat) (acc : Nat) (ps : List (FVal × FVal)) : Nat × Flags :=
  let d := dotV ps
  match opf with
  | 3 => match d.1 with
    | .fin neg n _ => (((acc : Int) + (if neg then -(n : Int) else n)) % 2 ^ 32 |>.toNat, 0)
    | _ => (acc, 0)
  | 0 => let r := addV .rne (decodeF FP32 acc) d.1; finishF FP32 .rne (r.1, d.2 ||| r.2)
  | 1 => let r := addV .rne (decodeF FP32 acc) d.1; finishF FP32 .rne (r.1, d.2 ||| r.2)
  | _ => finishF FP32 .rne d

/-- The 1024 words of a k-step, with the counts of its overflow and invalid events (R317). -/
def MxFetch.apply (f : MxFetch) (opf : Nat) (tbl : List Word) (acc : List Nat) : List Nat × Nat × Nat :=
  let av := f.a.map fun r => r.map fun x => (x.1, opValue opf tbl x.2)
  let bv := f.b.map fun r => r.map fun x => opValue opf tbl x.2
  let es := (av.flatMap fun a => bv.map fun b => prodsOf a b).zip acc
  let rs := es.map fun x => stepWord opf x.2 x.1
  (rs.map Prod.fst, (rs.filter fun x => x.2 &&& OVF ≠ 0).length, (rs.filter fun x => x.2 &&& INV ≠ 0).length)

/-! ## The accumulator buffers (R296) -/

/-- The 1024 words of a buffer. -/
def AccBuf.all (b : AccBuf) : List Nat := (List.range 1024).map fun i => ((tget b.words i).getD 0).toNat

/-- A buffer with all its words written. -/
def AccBuf.withAll (b : AccBuf) (ws : List Nat) : AccBuf :=
  { b with words := (ws.zipIdx.filter fun x => x.1 ≠ 0).map (fun x => (x.2, BitVec.ofNat 32 x.1)), poison := [] }

def Core.acc (c : Core) (b : Bool) : AccBuf := if b then c.acc1 else c.acc0
def Core.setAcc (c : Core) (b : Bool) (x : AccBuf) : Core := if b then { c with acc1 := x } else { c with acc0 := x }

/-- The code with which a chain has stopped (R319). -/
def Core.stopOf (c : Core) (chain : Nat) : Option Nat := tget c.stops chain

/-! ## Metadata (R306, R308) -/

/-- The first fault of a metadata word: group, nibble and kind. -/
def metaFault (kept : Nat) (w : Nat) : Option (Nat × Nat × Nat) :=
  let pairs := (List.range (32 / (4 * kept))).flatMap fun q => (List.range (kept - 1)).map fun j => (q, j)
  match pairs.find? fun x => decide (metaIdx kept w x.1 (x.2 + 1) ≤ metaIdx kept w x.1 x.2) with
  | none => none
  | some (q, j) => some (q, j + 1, if metaIdx kept w q (j + 1) = metaIdx kept w q j then 1 else 2)

/-- The fault record of the first malformed word of a column, if there is one. `code` is the N code of the push. -/
def MxRun.metaRecord (r : MxRun) (col code : Nat) (ws : List Word) : Option Dword :=
  let ncmd := r.par.sp - 1
  let mk (row : Nat) (w : Word) (g nib kind : Nat) : Dword :=
    BitVec.ofNat 64 (w.toNat * 2 ^ 32 + (32 * r.my + row) * 2 ^ 23 + col % 2048 * 2 ^ 12 + g * 2 ^ 9 + nib * 2 ^ 6 + kind * 16 + ncmd * 4 + code)
  if code ≠ ncmd then some (mk 0 (ws.headD 0) 0 0 3)
  else
    match ws.zipIdx.find? fun x => (metaFault r.par.kept x.1.toNat).isSome with
    | none => none
    | some (w, row) =>
      match metaFault r.par.kept w.toNat with
      | none => none
      | some (g, nib, kind) => some (mk row w g nib kind)

/-! ## Drain formats (R311, R312, R314) -/

/-- The exact value of a buffer word. -/
def bufValue (opf w : Nat) : FVal := if opf = 3 then ofInt (signed 32 w) else decodeF FP32 w

/-- An element drained without a block scale: its code and its events. -/
def drainPlain (opf dfmt w : Nat) : Nat × Flags :=
  match dfmt with
  | 0 => (w, 0)
  | 1 => narrowF BF16 .rne (bufValue opf w)
  | 2 => narrowF FH8 .rne (bufValue opf w)
  | _ => let r := narrowInt (-128) 127 .rne (bufValue opf w); ((r.1 % 256).toNat, r.2)

/-- The greatest magnitude of the elements that are no NaN, or 0. -/
def maxMag (vs : List FVal) : FVal :=
  vs.foldl (fun m v => if v.isNan then m else if ltV m v.mag then v.mag else m) (.fin false 0 1)

/-- e × 255 / (s × S). -/
def unscale (e : FVal) (s : Nat) (sup : FVal) : FVal :=
  match e, sup with
  | .fin neg n d, .fin _ sn sd => if s = 0 then .fin false 0 1 else .fin neg (n * 255 * sd) (d * s * sn)
  | .inf neg, _ => if s = 0 then .fin false 0 1 else .inf neg
  | x, _ => x

/-- A value quantised in a block format. -/
def quantBlock (dfmt : Nat) (tbl : List FVal) (x : FVal) : Nat × Flags :=
  match dfmt with
  | 3 => narrowF FH6 .rne x
  | 4 => nq4Quant x
  | _ => cb4Quant tbl x

/-- A block of 64 elements drained: its scale code, its codes and its events. -/
def drainBlock (dfmt : Nat) (tbl : List Word) (sup : FVal) (vs : List FVal) : Nat × List Nat × List Flags :=
  let vals := cb4Values tbl
  let fmax := if dfmt = 4 then (1, 1) else if dfmt = 3 then (14, 1) else cb4Max vals
  let sc := scaleCode (maxMag vs) sup fmax
  let qs := vs.map fun e => quantBlock dfmt vals (if e.isNan then e else unscale e sc.1 sup)
  (sc.1, qs.map Prod.fst, sc.2 :: qs.map Prod.snd)

/-- Lists cut into pieces of `n`. -/
def piecesOf {α : Type} (n : Nat) : Nat → List α → List (List α)
  | 0, _ => []
  | k + 1, l => l.take n :: piecesOf n k (l.drop n)

/-- A tile as it is written: the codes of the 32 rows, the scale codes, and its events. -/
structure Tile where
  rows : List (List Nat)
  scales : List Nat
  flags : List Flags
  deriving DecidableEq, Repr

def MxPar.tileOf (p : MxPar) (tbl : List Word) (ws : List Nat) : Tile :=
  if p.blocks then
    let bs := (piecesOf 64 16 ws).map fun b => drainBlock p.dfmt tbl (decodeF FP32 p.super.toNat) (b.map (bufValue p.opf))
    { rows := bs.flatMap fun b => piecesOf 32 2 b.2.1, scales := bs.map Prod.fst, flags := bs.flatMap fun b => b.2.2 }
  else
    let es := ws.map (drainPlain p.opf p.dfmt)
    { rows := piecesOf 32 32 (es.map Prod.fst), scales := [], flags := es.map Prod.snd }

/-- A row of codes packed (R65). -/
def packRow (bits : Nat) (cs : List Nat) : List Byte :=
  leBytes (4 * bits) (cs.zipIdx.foldl (fun v x => v + x.1 * 2 ^ (bits * x.2)) 0)

/-- The chunk record of 4096 bytes (R291, R314). -/
def chunkRecord (fmt : Nat) (bytes : List Byte) : List Byte :=
  let secs := piecesOf 128 32 bytes
  let code (b : List Byte) : Nat := if b.all fun x => x = 0 then 0 else if sectorConst b then 1 else 2
  let map := (secs.zipIdx).foldl (fun m x => m + code x.1 * 4 ^ x.2) 0
  let pay := secs.flatMap fun b => match code b with | 0 => [] | 1 => b.take 4 | _ => b
  leBytes 2 (24 + pay.length) ++ leBytes 1 fmt ++ leBytes 1 1 ++ leBytes 4 0 ++ leBytes 8 (crc64 bytes) ++ leBytes 8 map ++ pay

/-- The record of a tile. -/
def MxPar.record (p : MxPar) (rows : List (List Byte)) : List Byte :=
  let flat := rows.flatten
  chunkRecord (if p.dfmt = 0 then (if p.opf = 3 then 1 else 0) else p.dfmt + 1) (flat ++ List.replicate (4096 - flat.length) 0)

end Sys2Proof.Machine
end

