-- ==== Sys2Proof/Machine/Peel.lean ====
section
/-! DEFINITION. The copy engine and the sifter (spec 17 R279-R294). A command is walked when the peel takes it, whole or a number of
elements at a time (log 23); its counts, its error and its status are moves of their own (R283, R289, R290). -/

namespace Sys2Proof.Machine

/-! ## The descriptor (R280, R281) -/

/-- A dimension word. -/
structure Dim where
  ext : Nat
  size : Nat
  start : Int
  stride : Nat
  deriving DecidableEq, Repr

def Dim.of (v : Nat) : Dim :=
  { ext := v / 2 ^ 56 + 1, size := v / 2 ^ 40 % 65536 + 1, start := signed 17 (v / 2 ^ 23), stride := v % 2 ^ 23 }

/-- A copy descriptor. -/
structure Copy where
  base : Nat
  mode : Nat
  mcast : Nat
  dest : Nat
  bobj : Nat
  ctl : Nat
  aux : Nat
  dims : List Dim
  deriving DecidableEq, Repr

def Copy.of (bs : List Byte) : Copy :=
  { base := field bs 0 6, mode := field bs 6 2, mcast := field bs 8 2, dest := field bs 10 2 * 16, bobj := field bs 12 2 * 16,
    ctl := field bs 14 2, aux := field bs 16 8, dims := (List.range 5).map fun d => Dim.of (field bs (24 + 8 * d) 8) }

def Copy.srcf (d : Copy) : Nat := d.mode / 2 ^ 14
def Copy.sumx (d : Copy) : Bool := d.mode.testBit 13
def Copy.sumr (d : Copy) : Bool := d.mode.testBit 12
def Copy.fill (d : Copy) : Bool := d.mode.testBit 11
def Copy.rop (d : Copy) : Nat := d.mode / 256 % 8
def Copy.store (d : Copy) : Bool := d.mode.testBit 7
def Copy.swz (d : Copy) : Nat := d.mode / 16 % 8
def Copy.xform (d : Copy) : Nat := d.mode / 4 % 4
/-- The element size. -/
def Copy.z (d : Copy) : Nat := 2 ^ (d.mode % 4)
/-- The destination element size: 4 bytes for dequantise (R282). -/
def Copy.zd (d : Copy) : Nat := if d.xform = 2 then 4 else d.z
def Copy.nobar (d : Copy) : Bool := d.ctl.testBit 12
def Copy.tag (d : Copy) : Nat := d.ctl % 4096
def Copy.dim (d : Copy) (i : Nat) : Dim := d.dims.getD i ⟨1, 1, 0, 0⟩
/-- The elements of the box. -/
def Copy.count (d : Copy) : Nat := d.dims.foldl (fun n x => n * x.ext) 1

/-- CXS and CYS applied: the start advances by the block's place (R282). -/
def Copy.placed (d : Copy) (cx cy : Nat) : Copy :=
  let adv (i : Nat) (x : Dim) : Dim :=
    if i = 0 ∧ d.ctl.testBit 13 then { x with start := x.start + (cx * x.ext : Nat) }
    else if i = 1 ∧ d.ctl.testBit 14 then { x with start := x.start + (cy * x.ext : Nat) }
    else x
  { d with dims := d.dims.zipIdx.map fun p => adv p.2 p.1 }

/-- The breaches of R288. -/
def Copy.malformed (d : Copy) : Bool :=
  let n := d.zd * d.count
  let x := d.dim 0
  decide (3 ≤ d.swz) || decide (5 ≤ d.rop) || d.ctl.testBit 15 ||
  (d.store && (decide (d.mcast ≠ 0) || decide (d.xform = 1) || decide (d.xform = 2))) ||
  (!d.store && decide (d.rop ≠ 0)) ||
  (decide (d.rop = 1 ∨ d.rop = 3 ∨ d.rop = 4) && decide (d.z ≠ 4)) || (decide (d.rop = 2) && decide (d.z ≠ 2)) ||
  (decide (d.rop ≠ 0) && decide (2 ^ 20 < d.z * d.count)) ||
  (decide (d.xform = 2) && (decide (d.z ≠ 4) || decide (2 ≤ d.srcf) || decide (x.stride ≠ 0) || decide (x.start % 64 ≠ 0) ||
    decide (x.ext % 64 ≠ 0) || decide (x.size % 64 ≠ 0) || decide (d.aux % 4 ≠ 0) || decide (d.aux / 2 ^ 48 ≠ 0) || d.sumx)) ||
  (decide (d.aux ≠ 0) && !d.sumx && decide (d.xform ≠ 2)) || decide (x.stride % d.z ≠ 0) || decide (2 ^ 20 < d.dest + n)

/-! ## The walk (R282-R287) -/

/-- The position j of an element of the box from its rank, dimension 0 fastest. -/
def boxIndex : List Dim → Nat → List Nat
  | [], _ => []
  | x :: r, k => k % x.ext :: boxIndex r (k / x.ext)

/-- The element number L of a position in the scratchpad. -/
def Copy.rank (d : Copy) (j : List Nat) : Nat :=
  let e (i : Nat) : Nat := (d.dim i).ext
  let at_ (i : Nat) : Nat := j.getD i 0
  let upper := at_ 2 + e 2 * (at_ 3 + e 3 * at_ 4)
  if d.xform = 3 then at_ 1 + e 1 * (at_ 0 + e 0 * upper) else at_ 0 + e 0 * (at_ 1 + e 1 * upper)

/-- The tensor index of a position, and whether it lies in the tensor. -/
def Copy.index (d : Copy) (j : List Nat) : List Int := (d.dims.zip j).map fun x => x.1.start + x.2
def Copy.inBounds (d : Copy) (i : List Int) : Bool := (d.dims.zip i).all fun x => decide (0 ≤ x.2) && decide (x.2 < x.1.size)

/-- The byte offset of an element from BASE. -/
def Copy.offset (d : Copy) (i : List Int) : Int :=
  let at_ (k : Nat) : Int := vec i k
  at_ 0 * (d.dim 0).stride + 16 * (at_ 1 * (d.dim 1).stride + at_ 2 * (d.dim 2).stride + at_ 3 * (d.dim 3).stride + at_ 4 * (d.dim 4).stride)

/-- The scratchpad offsets of the bytes of an element: the swizzle acts on each byte's own offset (R195; log 24). -/
def Copy.places (d : Copy) (l : Nat) : List Nat := (List.range d.zd).map fun k => swizzle d.swz (d.dest + d.zd * l + k)

/-- The bytes of a fill element. -/
def Copy.fillBytes (d : Copy) : List Byte :=
  if !d.fill then List.replicate d.zd 0
  else match d.zd with
    | 1 => [0x80]
    | 2 => leBytes 2 0x7FC0
    | 4 => leBytes 4 0x7FC0_0000
    | _ => leBytes 8 0x7FF8_0000_0000_0000

/-- What the walk has done so far. -/
structure Walk where
  s : State
  /-- the first error; a memory error or poison stops the walk -/
  code : Nat := 0
  stopped : Bool := false
  /-- bytes that may be counted -/
  bytes : Nat := 0
  inv : Nat := 0
  moved : Moved := {}
  grans : List Nat := []
  lines : List Nat := []
  chunks : List (Nat × Nat × List Byte) := []

def Walk.fail (w : Walk) (code : Nat) : Walk :=
  { w with code := if w.code = 0 then code else w.code, stopped := w.stopped || decide (code ≠ 2) }

/-- A byte written in the scratchpads of the destinations. -/
def scrWriteAll (s : State) (dests : List BRef) (places : List Nat) (bs : List Byte) : State :=
  dests.foldl (fun s br => (places.zip bs).foldl (fun s x => scrWrite s br x.1 [x.2]) s) s

/-- An element delivered to the destinations of a load, each checked again against the carved count now in force there (R192): where a
destination that still exists no longer holds a byte of it, the command meets a memory error and the element is written nowhere (R289). -/
def Walk.put (w : Walk) (d : Copy) (dests : List BRef) (l : Nat) (bs : List Byte) : Walk :=
  let ps := d.places l
  if dests.all fun b => (w.s.block? b).isNone || ps.all fun p => (w.s.block b).holds p 1 then
    { w with s := scrWriteAll w.s dests ps bs, bytes := w.bytes + d.zd, grans := ps.foldl (fun g p => addNat g (p / 16)) w.grans }
  else w.fail codeMem

/-- The chunk of a decompress, read once per command. -/
def Walk.chunk (w : Walk) (o : Own) (c base k : Nat) : Walk × Except Nat (List Byte) :=
  match tget w.chunks k with
  | some x => (w, if x.1 = 0 then .ok x.2 else .error x.1)
  | none =>
    let r := readChunk w.s o c base k
    ({ w with s := r.1, chunks := (k, match r.2 with | .ok bs => (0, bs) | .error e => (e, [])) :: w.chunks }, r.2)

/-- The code of a dequantise element and the packed bytes it is read from: an NQ4 half-byte, or the stream bits of an H6
block, all 48 bytes of which are checked (R65, R333). -/
def Walk.packed (w : Walk) (d : Copy) (o : Own) (c : Nat) (row : Int) (i0 : Nat) : Walk × Except Nat (Nat × Int × List Byte) :=
  if d.srcf = 0 then
    let r := engineRead w.s o c false (row + (i0 / 2 : Nat)) 1
    ({ w with s := r.1 }, r.2.map fun b => (field b 0 1 / 16 ^ (i0 % 2) % 16, row + (i0 / 2 : Nat) - d.base, b))
  else
    let at_ := row + (i0 / 64 * 48 : Nat)
    let r := engineRead w.s o c false at_ 48
    ({ w with s := r.1 }, r.2.map fun b => (leValue b / 2 ^ (6 * (i0 % 64)) % 64, at_ - d.base, b))

/-- The FP32 word of a packed code. -/
def packedValue (srcf v : Nat) : Nat :=
  if srcf = 0 then (widenF BF16 FP32 (nq4Table.getD v 0)).1 else (widenF FH6 FP32 v).1

/-- A dequantised element: ScaleAdd(+0, v, s, S) with its INV event (R287). -/
def Walk.dequant (w : Walk) (d : Copy) (o : Own) (c : Nat) (i : List Int) : Walk × Except Nat (List Byte × Bool) :=
  let at_ (k : Nat) : Nat := (vec i k).toNat
  let row : Int := d.base + 16 * ((at_ 1 * (d.dim 1).stride + at_ 2 * (d.dim 2).stride + at_ 3 * (d.dim 3).stride +
    at_ 4 * (d.dim 4).stride : Nat) : Int)
  let b := at_ 0 / 64 + (d.dim 0).size / 64 * (at_ 1 + (d.dim 1).size * (at_ 2 + (d.dim 2).size * (at_ 3 + (d.dim 3).size * at_ 4)))
  let scb := d.aux % 2 ^ 48 + 260 * (b / 256)
  let p := w.packed d o c row (at_ 0)
  match p.2 with
  | .error e => (p.1, .error e)
  | .ok (v, off, raw) =>
    let r1 := engineRead p.1.s o c false ((scb + b % 256 : Nat) : Int) 1
    let r2 := engineRead r1.1 o c false ((scb + 256 : Nat) : Int) 4
    match r1.2, r2.2 with
    | .ok sb, .ok ss =>
      let x := scaleAdd 0 (packedValue d.srcf v) (leValue sb) (leValue ss)
      ({ p.1 with s := r2.1, moved := p.1.moved.add off.toNat raw }, .ok (leBytes 4 x.1, x.2 &&& INV ≠ 0))
    | .error e, _ => ({ p.1 with s := r2.1 }, .error e)
    | _, .error e => ({ p.1 with s := r2.1 }, .error e)

/-- One element of a load. -/
def Walk.load1 (d : Copy) (o : Own) (c : Nat) (dests : List BRef) (w : Walk) (k : Nat) : Walk :=
  if w.stopped then w
  else
    let j := boxIndex d.dims k
    let l := d.rank j
    let i := d.index j
    if !d.inBounds i then w.put d dests l d.fillBytes
    else match d.xform with
      | 1 =>
        let u := (d.offset i).toNat
        -- an element lies in one chunk or in two
        let a := w.chunk o c d.base (u / 4096)
        let b := a.1.chunk o c d.base ((u + d.z - 1) / 4096)
        match a.2, b.2 with
        | .ok x, .ok y =>
          let bs := (x.drop (u % 4096)).take d.z
          let bs := bs ++ y.take (d.z - bs.length)
          let w := b.1.put d dests l bs
          { w with moved := w.moved.add u bs }
        | .error e, _ => b.1.fail e
        | _, .error e => b.1.fail e
      | 2 =>
        let r := w.dequant d o c i
        match r.2 with
        | .error e => r.1.fail e
        | .ok (bs, inv) => { r.1.put d dests l bs with inv := r.1.inv + (if inv then 1 else 0) }
      | _ =>
        let r := engineRead w.s o c false (d.base + d.offset i) d.z
        match r.2 with
        | .error e => { w with s := r.1 }.fail e
        | .ok bs =>
          let w := { w with s := r.1 }.put d dests l bs
          { w with moved := w.moved.add (d.offset i).toNat bs }

/-- The new value of a reduction (R285). -/
def ropValue (rop old v : Nat) : Nat :=
  match rop with
  | 1 => (addF FP32 old v).1
  | 2 => (addF BF16 old v).1
  | 3 => (minNum FP32 old v).1
  | _ => (maxNum FP32 old v).1

/-- The tensor index of the position whose rank is `l`. -/
def Copy.indexOf (d : Copy) (l : Nat) : List Int :=
  let e0 := (d.dim 0).ext
  let e1 := (d.dim 1).ext
  d.index (boxIndex d.dims (if d.xform = 3 then l % e1 * e0 + l / e1 % e0 + l / (e0 * e1) * (e0 * e1) else l))

/-- One element of a store: read at its swizzled place, written or applied when it is in bounds. With ROP ≠ 0 the operand read from the
scratchpad, not the value it leaves at the home, is what enters the sum of the command (R293 leaves it open: DESIGN CHOICE, log 77). -/
def Walk.store1 (d : Copy) (o : Own) (c : Nat) (br : BRef) (w : Walk) (l : Nat) : Walk :=
  if w.stopped then w
  else
    let i := d.indexOf l
    let ps := d.places l
    if !ps.all fun p => (w.s.block br).holds p 1 then w.fail codeMem
    else if ps.any fun p => scrPoison w.s br p 1 then w.fail codePoison
    else if !d.inBounds i then w
    else
      let bs := ps.map fun p => cellGet (w.s.block br).cells p
      let va := d.base + d.offset i
      let r : State × Except Nat (List Nat) :=
        if d.rop = 0 then
          let x := engineWrite w.s o c false va bs
          (x.1, match x.2 with | none => .error codeMem | some ls => .ok ls)
        else engineAtomic w.s o c va d.z fun old => ropValue d.rop old (leValue bs)
      match r.2 with
      | .error e => { w with s := r.1 }.fail e
      | .ok ls =>
        { w with s := r.1, bytes := w.bytes + d.z, lines := ls.foldl addNat w.lines, moved := w.moved.add (d.offset i).toNat bs }

/-! ## Taking a command (R284, R288, R289) -/

/-- The destinations of a command: the issuing block, or the blocks of the launch at the peers named. None stands for a
peer that holds no block. -/
def copyDests (s : State) (br : BRef) (mcast : Nat) : List (Option BRef) :=
  if mcast = 0 then [some br]
  else ((List.range 16).filter fun i => mcast.testBit i).map fun i =>
    let pc := peerCore (s.block br).core i
    (s.blocks.find? fun x => x.1.launch = br.launch ∧ x.2.core = pc).map Prod.fst

/-- Every byte of the box lies in the allocation of a block. -/
def Copy.fits (d : Copy) (s : State) (br : BRef) : Bool :=
  (s.block br).holds d.dest (d.zd * d.count) &&
    (d.swz = 0 || (List.range d.count).all fun l => (d.places l).all fun p => (s.block br).holds p 1)

/-- The sum of what a command has moved differs from the one it expects (R289). -/
def Copy.mismatch (d : Copy) (m : Moved) : Bool := d.sumx && decide (m.sum ≠ d.aux)

/-- The granules that elements of a load write. -/
def Copy.gransOf (d : Copy) (ks : List Nat) : List Nat :=
  ks.foldl (fun g k => (d.places (d.rank (boxIndex d.dims k))).foldl (fun g p => addNat g (p / 16)) g) []

/-- The descriptor of a command with its start advanced for its block. -/
def CopyRun.copy (s : State) (r : CopyRun) : Copy := (Copy.of r.desc).placed (s.block r.blk).cx (s.block r.blk).cy

/-- Elements are still to be walked. -/
def CopyRun.walking (r : CopyRun) : Bool := !r.stopped && decide (r.next < r.total)

/-- The next `n` places of the walk, without the elements that have been moved before their turn. -/
def CopyRun.coming (r : CopyRun) (n : Nat) : List Nat :=
  (List.range' r.next (min n (r.total - r.next))).filter fun k => !r.early.contains k

/-- The walk gone on by `n` places. -/
def CopyRun.ahead (r : CopyRun) (n : Nat) : CopyRun :=
  let next := r.next + min n (r.total - r.next)
  { r with next := next, early := r.early.filter fun k => decide (next ≤ k) }

/-- What the error found by a walk makes of a command: with NOBAR only its status reports it. -/
def CopyRun.seen (r : CopyRun) (code : Nat) : CopyRun :=
  if r.code = 0 ∧ code ≠ 0 then { r with code := code, errDone := r.nobar } else r

/-- A destination whose block has ended or been saved is a memory error; the others go on (R284). -/
def CopyRun.seeGone (s : State) (r : CopyRun) : CopyRun :=
  if r.dests.any fun b => (s.block? b).isNone then r.seen codeMem else r

/-- The command as a walk has left it: its counts go on, or wait for the comparison of the sum (R289). -/
def CopyRun.after (r : CopyRun) (d : Copy) (w : Walk) (grans : List Nat) : CopyRun :=
  let r := { (r.seen w.code) with
    stopped := w.stopped, bytes := w.bytes, inv := w.inv, moved := w.moved, grans := grans, chunks := w.chunks, lines := w.lines,
    left := if r.nobar || d.sumx then 0 else r.left + (w.bytes - r.bytes) }
  if r.walking || !d.sumx then r
  else if d.mismatch w.moved || w.stopped then { r.seen 5 with bytes := 0 }
  else { r with left := if r.nobar then 0 else w.bytes }

/-- The elements `ks` of a command are moved; `r` is the command as their walk begins, `to_` where it then stands. A granule is full when
every byte that the command writes in it is in place (R200). -/
def State.walkElems (s : State) (r to_ : CopyRun) (ks : List Nat) : State × CopyRun :=
  let d := r.copy s
  let blk := s.block r.blk
  let o := s.ownBlk r.blk
  let w : Walk := { s := s, code := r.code, stopped := r.stopped, bytes := r.bytes, inv := r.inv, moved := r.moved, grans := r.grans, lines := r.lines, chunks := r.chunks }
  let w := if d.store then ks.foldl (Walk.store1 d o blk.core r.blk) w else ks.foldl (Walk.load1 d o blk.core r.dests) w
  let more := if w.stopped then [] else d.gransOf (to_.coming to_.total)
  let full := w.grans.filter fun g => !more.contains g
  let fill (g : Nat) (s : State) (b : BRef) : State := if (s.block b).holds (16 * g) 1 then s.engineFill b g else s
  let s := full.foldl (fun s g => r.dests.foldl (fill g) s) w.s
  (s, (to_.after d w (w.grans.filter more.contains)).seeGone s)

/-- The next `n` elements of a command are walked. -/
def State.walkCopy (s : State) (r : CopyRun) (n : Nat) : State × CopyRun :=
  if !r.walking then (s, r) else s.walkElems r (r.ahead n) (r.coming n)

/-- A command as the engine begins it for a block: malformed, refused for a destination, or with its whole walk before it (R284, R288,
R289). `bad` is the code of an entry that could not be read. -/
def Copy.begin (d : Copy) (s : State) (br : BRef) (desc : List Byte) (sifter : Bool) (bad : Nat) : CopyRun :=
  let all := copyDests s br d.mcast
  let dests := all.filterMap id
  let placed := d.placed (s.block br).cx (s.block br).cy
  let r : CopyRun := { blk := br, desc := desc, dests := dests, bobj := d.bobj, nobar := d.nobar || sifter, tag := d.tag,
                       reduce := d.store && decide (d.rop ≠ 0), sifter := sifter, total := d.count }
  let code := if bad ≠ 0 then bad else if placed.malformed then 6
    else if all.any Option.isNone || !(dests.all fun b => placed.fits s b) then codeMem else 0
  if code = 0 then r else { (r.seen code) with total := 0, stopped := true }

/-- Nothing of a command is left but its status. -/
def CopyRun.finished (r : CopyRun) : Bool := !r.walking && decide (r.left = 0) && r.errDone

/-- Its second entry: the sum, when SUMR asks for it (R290). -/
def CopyRun.sum (r : CopyRun) : Option Dword := if (Copy.of r.desc).sumr then some (BitVec.ofNat 64 r.moved.sum) else none

/-- Entries that a status delivers. -/
def CopyRun.need (r : CopyRun) : Nat := if r.sum.isSome then 2 else 1

/-- A finished command of a block waits for room in q5: no further command of the block starts (R269). -/
def State.copyBlocked (s : State) (c : Nat) (br : BRef) : Bool :=
  (s.core c).copies.any fun r => decide (r.blk = br) && r.finished && decide (16 < (s.block br).q5.length + r.need)

/-- The blocks of a core in order of placement, from the one after a given block on (R269). -/
def State.inTurn (s : State) (c : Nat) (last : Option BRef) : List BRef :=
  let all := (s.blocks.filter fun x => decide (x.2.core = c)).map Prod.fst
  match last with
  | none => all
  | some b => if all.contains b then (all.dropWhile (· ≠ b)).drop 1 ++ all.takeWhile (· ≠ b) ++ [b] else all

/-- The turn of an engine of a core when a block ends: it goes on behind the block, from the one placed before it (R269). -/
def State.turnAfter (s : State) (c : Nat) (b : BRef) (last : Option BRef) : Option BRef :=
  if last = some b then (s.inTurn c last).dropLast.getLast? else last

/-- The block whose copy queue the peel of a core serves next (R269); none while an alarm has stopped the partition (R389). -/
def State.nextCopy (s : State) (c : Nat) : Option BRef :=
  if (s.partn (s.partOf c)).halted then none else
  (s.inTurn c (s.core c).turnC).find? fun br => !(s.block br).benched && !s.loadingOf br.launch && !(s.block br).q4.isEmpty && !s.copyBlocked c br

/-- COPY_TAKE_ENTRY: the peel of core `arg.core` takes the head of q4 of block `arg.blk`, whose turn it is, with at most four commands
of the core in flight. It walks the command whole, or with `arg.flag` begins with nothing moved. -/
def execCopyTakeEntry (s : State) : Answer :=
  let c := s.arg.core
  let br := s.arg.blk
  let blk := s.block br
  match blk.q4 with
  | [] => .next s
  | e :: rest =>
    if s.nextCopy c ≠ some br ∨ 4 ≤ (s.core c).copies.length then .next s
    else
      let bad := blk.headBad 4
      let s := (s.modBlock br fun b => { b.shiftBad 4 with q4 := rest }).serveQ br 4
      let r := (Copy.of e).begin s br e false (if bad then codePoison else 0)
      let w := s.walkCopy r (if s.arg.flag then 0 else r.total)
      .next (w.1.modCore c fun k => { k with copies := k.copies ++ [w.2], turnC := some br })

/-- The peel of a core moves the next `n` elements of its command `k` (R283). -/
def State.copyStep (s : State) (c k n : Nat) : State :=
  match (s.core c).copies[k]? with
  | none => s
  | some r => let w := s.walkCopy r n; w.1.modCore c fun x => { x with copies := lset x.copies k w.2 }

/-- The bytes of memory that an element of a store writes. -/
def Copy.cells (d : Copy) (s : State) (o : Own) (c l : Nat) : List Nat :=
  let i := d.indexOf l
  let va := d.base + d.offset i
  if !d.inBounds i || decide (va < 0) then []
  else (List.range d.z).filterMap fun k => (engineLoc s o c false true false (va.toNat + k) 1).map Prod.fst

/-- Element `n` of a command may be moved before those that precede it: of plain stores to one byte the last in L order stays (R283). -/
def State.mayMove (s : State) (r : CopyRun) (n : Nat) : Bool :=
  let d := r.copy s
  let bytes (l : Nat) : List Nat := d.cells s (s.ownBlk r.blk) (s.block r.blk).core l
  r.walking && decide (r.next ≤ n) && decide (n < r.total) && !r.early.contains n &&
    (!d.store || decide (d.rop ≠ 0) || (r.coming (n - r.next)).all fun l => (bytes l).all fun a => !(bytes n).contains a)

/-- The peel of a core moves element `n` of its command `k` before its turn: the accesses of a command have no order (R283). -/
def State.copyElem (s : State) (c k n : Nat) : State :=
  match (s.core c).copies[k]? with
  | none => s
  | some r =>
    if !s.mayMove r n then s
    else
      let w := s.walkElems r { r with early := addNat r.early n } [n]
      w.1.modCore c fun x => { x with copies := lset x.copies k w.2 }

/-! ## Counts, errors, status (R275, R289, R290) -/

/-- The status entry of a command. For a slot of the sifter, whose NOBAR is ignored and which counts no byte (R294), the rule does not say
what COUNTB is: as with NOBAR = 1 it is the bytes moved (DESIGN CHOICE, log 77). -/
def CopyRun.status (r : CopyRun) : Dword :=
  let n := if r.nobar then r.bytes else r.counted
  BitVec.ofNat 64 (n % 2 ^ 32 * 2 ^ 32 + min r.inv 255 * 2 ^ 24 + r.code * 2 ^ 16 + (if r.sum.isSome then 2 ^ 12 else 0) + r.tag)

/-- An object of a command is poisoned: the engine that reads it stops as on a memory error, with code 7 (R334). -/
def CopyRun.seeBad (s : State) (r : CopyRun) : CopyRun :=
  if r.dests.any fun b => (s.block b).holds r.bobj 16 && s.objBad b r.bobj then { r.seen codePoison with stopped := true, left := 0 } else r

/-- Bytes of a command counted at every destination; one that has gone is code 4 (R284). -/
def State.copyCount (s : State) (c k n : Nat) : State :=
  match (s.core c).copies[k]? with
  | none => s
  | some r =>
    let n := min n r.left
    let r2 : CopyRun := ({ r with left := r.left - n, counted := r.counted + n } : CopyRun).seeBad s
    let s := r.dests.foldl (fun s b => if (s.block b).holds r.bobj 16 then s.objCount b r.bobj n r.lines else s) s
    let r2 : CopyRun := r2.seeGone s
    s.modCore c fun x => { x with copies := lset x.copies k r2 }

/-- The error of a command reaches its objects. What has stopped the walk ends the count (R289); a failed chunk, and a peer that has
gone, end none (R284, R286). -/
def State.copyError (s : State) (c k : Nat) : State :=
  match (s.core c).copies[k]? with
  | none => s
  | some r =>
    if r.errDone then s
    else
      let s := r.dests.foldl (fun s b => if (s.block b).holds r.bobj 16 then s.objError b r.bobj r.code else s) s
      let r2 : CopyRun := { r with errDone := true, left := if r.stopped then 0 else r.left }
      s.modCore c fun x => { x with copies := lset x.copies k r2 }

/-- The status of a finished command is delivered to q5; the command is over. -/
def State.copyStatus (s : State) (c k : Nat) : State :=
  match (s.core c).copies[k]? with
  | none => s
  | some r =>
    let s := s.modCore c fun x => { x with copies := ldrop x.copies k }
    let s := s.engineEntry r.blk 5 r.status
    match r.sum with | none => s | some v => s.engineEntry r.blk 5 v

/-- COPY_STATUS: command `arg.k` of core `arg.core` delivers its status when it has finished and q5 has room. -/
def execCopyStatus (s : State) : Answer :=
  let c := s.arg.core
  match (s.core c).copies[s.arg.k]? with
  | none => .next s
  | some r =>
    .next (if r.finished && decide ((s.block r.blk).q5.length + r.need ≤ 16) then s.copyStatus c s.arg.k else s)

/-! ## CPISS (R279) -/

def execCpiss (a : Code) (s : State) : Answer :=
  issueEach (.cpiss a) s fun s t =>
    let addr := (s.thread t).word a.toNat
    match s.scratchOf t addr 64 64 accRead with
    | .error inf => (s, .trap inf)
    | .ok (s, .scr db off) =>
      let s := s.releaseAll t
      if (s.thread t).live then (s.arriveQueue (s.blkOf t) ⟨4, [t], .desc db off addr s.issueNo⟩, .gone) else (s, .gone)
    | .ok (s, .glob _ _ _) => (s, .gone)

/-! ## The sifter (R294) -/

/-- The threads of a block whose sifter has finished become Ready together. -/
def State.siftDone (s : State) (br : BRef) : State :=
  s.mapThreads fun t th => if s.blkOf t = br ∧ th.st = .waiting .sifter then { th with st := .ready } else th

/-- One slot of the sifter: its descriptor is read and run as a command of the block, and its status is delivered. -/
def State.siftSlot (s : State) (br : BRef) (slot : Nat) : State :=
  let blk := s.block br
  let o := s.ownBlk br
  let addr := match s.launch? br.launch with | none => 0 | some l => (l.lrec.transforms.getD slot 0).toNat
  let r := if addr % 64 = 0 then engineRead s o blk.core false addr 64 else (s, .error codeMem)
  let bytes := match r.2 with | .ok b => b | .error _ => []
  let d := Copy.of bytes
  let bad := if r.2 = .error codePoison then codePoison else if bytes.isEmpty || d.store || decide (d.mcast ≠ 0) || decide (d.rop ≠ 0) then 6 else 0
  let f := d.begin r.1 br bytes true bad
  let w := r.1.walkCopy f f.total
  let s := w.1.engineEntry br 5 w.2.status
  match w.2.sum with | none => s | some v => s.engineEntry br 5 v

/-- SIFTER: block `arg.blk` runs its next slot; after the last its warps are Ready. -/
def execSifter (s : State) : Answer :=
  let br := s.arg.blk
  match (s.block br).sift with
  | [] => .next s
  | slot :: rest =>
    let s := (s.modBlock br fun b => { b with sift := rest }).siftSlot br slot
    .next (if rest.isEmpty then s.siftDone br else s)

end Sys2Proof.Machine
end

