-- ==== Sys2Proof/Machine/MatrixRun.lean ====
section
/-! DEFINITION. The matrix engine at work (spec 18 R296-R319): taking an entry, claiming a buffer, reserving a rectangle,
metadata, k-steps, partials, drains, counts and status. Each is a move of its own (log 1); the tile of a drain is written
in one move (log 25). An event whose condition does not hold changes nothing. -/

namespace Sys2Proof.Machine

/-! ## Runs of a core -/

def State.run? (s : State) (c k : Nat) : Option MxRun := (s.core c).runs[k]?
def State.setRun (s : State) (c k : Nat) (r : MxRun) : State := s.modCore c fun x => { x with runs := lset x.runs k r }

/-- Its block's context does not stand in the bank of its core, or an alarm has stopped its partition: the command goes no further (R341,
R389). -/
def State.halted (s : State) (r : MxRun) : Bool := (s.block r.blk).benched || s.loadingOf r.blk.launch || (s.partn (s.block r.blk).part).halted

/-- It acts on an accumulator buffer (R296). -/
def MxRun.buffered (r : MxRun) : Bool := !r.par.scaled && !r.inert

/-- Every k-step is applied. -/
def MxRun.stepped (r : MxRun) : Bool := decide (r.par.steps ≤ r.done.length)

/-- It has finished acting on its buffer. -/
def MxRun.acted (r : MxRun) : Bool := r.inert || r.ended || (decide (r.code = 0) && r.stepped && !r.par.drain)

/-- Another block of the core holds the buffer that the run names. -/
def MxRun.foreign (r : MxRun) (c : Core) : Bool :=
  r.buffered && r.needBuf && (match (c.acc r.par.buf).held with | none => false | some b => decide (b ≠ r.blk))

/-- An earlier command of the block on the buffer that has not finished acting on it (R296). -/
def MxRun.before (e r : MxRun) : Bool :=
  decide (e.blk = r.blk) && e.buffered && (e.par.buf == r.par.buf) && decide (e.serial < r.serial) && !e.acted

/-- It may claim its buffer and add k-steps: every earlier command on the buffer has finished acting on it, but for those of the same
chain that have no zeroing to do any more (R296, R304). -/
def MxRun.mayAct (r : MxRun) (c : Core) : Bool :=
  !r.buffered || c.runs.all fun e => !(e.before r && (decide (e.chain ≠ r.chain) || (e.par.zero && e.done.isEmpty)))

/-- It may drain, or end with a stop: every earlier command on the buffer has finished acting on it, and so none can stop its chain any
more (R296, R304, R319). -/
def MxRun.mayEnd (r : MxRun) (c : Core) : Bool := !r.buffered || c.runs.all fun e => !e.before r

/-- The pieces that it delivers: q2 entries, or rows of partials in a scratchpad (R311, R315). -/
def MxRun.pieces (r : MxRun) : Nat :=
  if r.inert then 0
  else if r.par.scaled then r.par.steps * (if r.par.pdest then 32 else 512)
  else if r.par.ddest = 3 ∧ r.code = 0 ∧ r.ended then 512 else 0

/-- Its metadata is taken: a stopped command takes and discards what q1 still owes it. -/
def MxRun.metaTaken (r : MxRun) : Bool := r.inert || r.par.msrc || decide (r.par.columns ≤ r.colsTaken)

/-- A command that has stopped counts nothing, unless it has written its partials (R315, R317, R319). -/
def MxRun.uncounted (r : MxRun) : Bool := decide (r.code ≠ 0 ∧ r.code ≠ 8) && !(r.par.scaled && r.par.pdest && !r.inert)

/-- It has nothing left to do but report. -/
def MxRun.finished (r : MxRun) : Bool :=
  r.acted && decide (r.pieces ≤ r.delivered) && (decide (r.code = 0) || r.metaTaken) &&
  (r.counted || r.uncounted) && (r.errDone || decide (r.code = 0)) && !r.needRect

/-- A member engine is reserved by a rectangle command that has not finished there (R303). -/
def State.reserved (s : State) (c : Nat) : Bool :=
  s.rectHeld.any fun h => h.2.2.contains c && (s.core c).runs.any fun r => decide (r.origin = h.1) && decide (r.oserial = h.2.1) && !r.finished && !s.halted r

/-! ## Stopping (R308, R319) -/

/-- A command stops with a code: the later commands of its chain on the buffer are skipped. -/
def State.stopRun (s : State) (c k code : Nat) (frec : Option Dword) : State :=
  match s.run? c k with
  | none => s
  | some r =>
    if r.code ≠ 0 then s
    else
      let mark (e : MxRun) : MxRun :=
        if e.serial = r.serial then { e with code := code, frec := frec, partials := [] }
        else if r.buffered && e.buffered && decide (e.chain = r.chain) && decide (r.serial < e.serial) && decide (e.code = 0) then
          { e with code := code, chab := true, partials := [] }
        else e
      s.modCore c fun x =>
        let x : Core := { x with runs := x.runs.map mark }
        if r.buffered && (x.stopOf r.chain).isNone then { x with stops := x.stops ++ [(r.chain, code)] } else x

/-- What a stopped command does to its buffer: it is zeroed, and freed with DRAIN and without KEEP. -/
def State.settleStop (s : State) (c k : Nat) : State :=
  match s.run? c k with
  | none => s
  | some r =>
    let x := s.core c
    if r.ended || r.inert || !r.mayEnd x || (r.buffered && r.needBuf) || r.needRect then s
    else
      let s := s.setRun c k { r with ended := true }
      if !r.buffered then s
      else
        s.modCore c fun x => x.setAcc r.par.buf { held := if r.par.drain && !r.par.keep then none else some r.blk, words := [] }

/-- The stop that the command's wait field has brought, if any (R302). -/
def MxRun.waitStop (r : MxRun) : Option Nat := match r.wait with | .failed => some 9 | .gone => some codeMem | _ => none

/-- It may begin to read: well formed, not stopped, its wait met, its rectangle reserved, no other block at its buffer. -/
def MxRun.reads (r : MxRun) (c : Core) : Bool := !r.inert && decide (r.code = 0) && decide (r.wait = .met) && !r.needRect && !r.foreign c

/-! ## Taking an entry (R297, R302, R304, R318) -/

/-- The chain of a command that names a buffer, and what the next one on it may join. -/
def chainOf (last : Option (Nat × Nat)) (tag : Option Nat) (zero drain : Bool) (serial : Nat) : Nat × Option (Nat × Nat) :=
  let id := match tag, last with
    | some t, some l => if l.1 = t ∧ !zero then l.2 else serial
    | _, _ => serial
  (id, match tag with | none => none | some t => if drain then none else some (t, id))

/-- A run that a block starts on its core, with the chain it joins and the stop of that chain. -/
def State.startRun (s : State) (c : Nat) (tag : Option Nat) (r : MxRun) : State :=
  let r := { r with serial := s.mxSerial }
  let s : State := { s with mxSerial := s.mxSerial + 1 }
  if !r.buffered then s.modCore c fun x => { x with runs := x.runs ++ [r] }
  else
    let p := r.par
    let b := s.block r.blk
    let ch := chainOf (if p.buf then b.last1 else b.last0) tag p.zero p.drain r.serial
    let stop := (s.core c).stopOf ch.1
    let r := { r with chain := ch.1, tag := tag, needBuf := true, code := stop.getD 0, chab := stop.isSome }
    let s := s.modBlock r.blk fun b => if p.buf then { b with last1 := ch.2 } else { b with last0 := ch.2 }
    s.modCore c fun x => { x with runs := x.runs ++ [r] }

/-- The wait field as it stands when the command is taken; code 4 when its address fails (R302). -/
def MxPar.waitOf (p : MxPar) (s : State) (br : BRef) : Except Nat MxWait :=
  if !p.waita.getLsbD 1 then .ok .met
  else match checkScratch s br (p.waita &&& 0xFFFF_FFF0#32) 16 16 accRead with
    | .ok (.scr b off) =>
      let o := s.objAt b off
      if scrPoison s b off 16 then .error codePoison
      else .ok (if o.err then .failed else if o.phase ≠ p.waita.getLsbD 0 then .met else .on b off (p.waita.getLsbD 0))
    | _ => .error codeMem

/-- No further command of a block starts (R269, R296, R303, R315). -/
def State.mxBlocked (s : State) (c : Nat) (br : BRef) : Bool :=
  (s.core c).runs.any fun r =>
    decide (r.blk = br) && (r.foreign (s.core c) || r.needRect ||
      (decide (r.delivered < r.pieces) && r.par.scaled && !r.par.pdest) ||
      (r.finished && decide (16 < (s.block br).q3.length + (if r.frec.isSome then 2 else 1))))

/-- A parameter block that is not used: zeros. -/
def MxPar.none : MxPar := MxPar.of []

/-- The block whose command queue the matrix engine of a core serves next (R269). -/
def State.nextMatrix (s : State) (c : Nat) : Option BRef :=
  (s.inTurn c (s.core c).turnM).find? fun br => !(s.block br).benched && !s.loadingOf br.launch && !(s.partn (s.block br).part).halted && !(s.block br).q0.isEmpty && !s.mxBlocked c br

/-- MATRIX_TAKE_ENTRY: the engine of core `arg.core` takes the head of q0 of block `arg.blk`, whose turn it is, reads its parameter
block and checks it. The 64 bytes are read at one moment, where R297 lets each 16 of them be read before or after a change that a program
makes (DESIGN CHOICE, log 78). -/
def execMatrixTakeEntry (s : State) : Answer :=
  let c := s.arg.core
  let br := s.arg.blk
  let blk := s.block br
  match blk.q0 with
  | [] => .next s
  | e :: rest =>
    if s.nextMatrix c ≠ some br ∨ s.reserved c then .next s
    else
      let s := ((s.modBlock br fun b => { b.shiftBad 0 with q0 := rest }).serveQ br 0).modCore c fun x => { x with turnM := some br }
      let serial := s.mxSerial
      let base : MxRun := { blk := br, entry := e, par := .none, serial := serial, chain := serial, tag := none, origin := c, oserial := serial,
                            ablk := br, bblk := br, mblk := br }
      match (if blk.headBad 0 then .error codePoison else scrOperand s br e.addr.toNat 64) with
      | .error code => .next (s.startRun c none { base with inert := true, code := code, errDone := true })
      | .ok bs =>
        let p := MxPar.of bs
        let tag := if p.buf then e.tag1 else e.tag0
        if p.malformed blk then .next (s.startRun c none { base with par := p, inert := true, code := 6 })
        else
          let w := p.waitOf s br
          let r : MxRun := { base with par := p, needRect := p.rm }
          let s := match w with
            | .error code => let s := s.startRun c tag r; s.stopRun c ((s.core c).runs.length - 1) code none
            | .ok w => s.startRun c tag { r with wait := w }
          .next (if p.rm then { s with rectReqs := s.rectReqs ++ [(c, serial)] } else s)

/-! ## Buffers and rectangles (R296, R303) -/

/-- BUFFER_CLAIM: run `arg.k` of core `arg.core` claims its buffer when it is free, which zeroes it, or goes on with the
one that its block holds. -/
def execBufferClaim (s : State) : Answer :=
  let c := s.arg.core
  match s.run? c s.arg.k with
  | none => .next s
  | some r =>
    let x := s.core c
    if !r.buffered || !r.needBuf || r.needRect || !r.mayAct x || s.halted r then .next s
    else match (x.acc r.par.buf).held with
      | none =>
        let s := s.setRun c s.arg.k { r with needBuf := false }
        .next (s.modCore c fun x => x.setAcc r.par.buf { held := some r.blk, words := [] })
      | some b => .next (if b = r.blk then s.setRun c s.arg.k { r with needBuf := false } else s)

/-- The member positions of a rectangle, row by row. -/
def MxPar.members (p : MxPar) : List (Nat × Nat) := (List.range (2 ^ p.lh)).flatMap fun b => (List.range (2 ^ p.lw)).map fun a => (a, b)

/-- The block of a launch at a core. -/
def State.blockAt (s : State) (launch c : Nat) : Option BRef := (s.blocks.find? fun x => x.1.launch = launch ∧ x.2.core = c).map Prod.fst

/-- The run of a member of a rectangle: its strips, its tile index and its place in a global tile (log 26). -/
def MxRun.member (r : MxRun) (pos : Nat × Nat) (blk ablk bblk : BRef) : MxRun :=
  let p := r.par
  let row := 32 * pos.2 * 16 * p.opitch + 32 * pos.1 * p.dbits / 8
  let out : Dword := if p.ddest = 2 then p.out + BitVec.ofNat 64 row else p.out
  let mp : MxPar := { p with out := out, tile := p.tile + pos.2 * 2 ^ p.lw + pos.1 }
  { r with blk := blk, ablk := ablk, bblk := bblk, mblk := ablk, mx := pos.1, my := pos.2, needRect := false, par := mp }

/-- Starts the member runs of a rectangle command; the origin's own run is there already. -/
def State.startMembers (s : State) (c : Nat) (r : MxRun) (tag : Option Nat) : List ((Nat × Nat) × BRef) → State
  | [] => s
  | (pos, blk) :: rest =>
    let mc := c + pos.1 + 64 * pos.2
    let ablk := (s.blockAt r.blk.launch (c + 64 * pos.2)).getD blk
    let bblk := (s.blockAt r.blk.launch (c + pos.1)).getD blk
    let m := r.member pos blk ablk bblk
    let s :=
      if pos = (0, 0) then s.modCore c fun x => { x with runs := x.runs.map fun e => if e.serial = r.serial then { m with needBuf := e.needBuf } else e }
      else
        let s := s.startRun mc tag { m with errDone := false, code := 0, chab := false }
        -- what has stopped the whole command stops it at every member
        if r.code ≠ 0 ∧ !r.chab then s.stopRun mc ((s.core mc).runs.length - 1) r.code none else s
    s.startMembers c r tag rest

/-- RECT_RESERVE: the rectangle arbiter of partition `arg.part` looks at its oldest request and grants it when no member
is reserved. -/
def execRectReserve (s : State) : Answer :=
  match s.rectReqs.find? fun x => decide (s.partOf x.1 = s.arg.part) && (s.core x.1).runs.all fun r => !(decide (r.serial = x.2) && s.halted r) with
  | none => .next s
  | some (c, serial) =>
    let drop (s : State) : State := { s with rectReqs := s.rectReqs.filter (· ≠ (c, serial)) }
    match firstIdx (fun (r : MxRun) => r.serial = serial) (s.core c).runs 0 with
    | none => .next (drop s)
    | some k =>
      match s.run? c k with
      | none => .next s
      | some r =>
        let mem := r.par.members
        let cores := mem.map fun x => c + x.1 + 64 * x.2
        let blks := mem.map fun x => s.blockAt r.blk.launch (c + x.1 + 64 * x.2)
        if cores.any fun m => s.reserved m then .next s
        else if blks.any Option.isNone then
          -- a member has no block of the launch any more: a memory error (log 26)
          .next ((drop (s.setRun c k { r with needRect := false })).stopRun c k codeMem none)
        else
          let s := drop { s with rectHeld := s.rectHeld ++ [(c, serial, cores)] }
          .next (s.startMembers c r r.tag (mem.zip (blks.filterMap id)))

/-! ## Metadata (R306, R308) -/

/-- The earlier commands of the block that still have columns to take from q1. -/
def MxRun.metaTurn (r : MxRun) (c : Core) : Bool :=
  c.runs.all fun e => !(decide (e.blk = r.blk) && decide (e.serial < r.serial) && !e.metaTaken)

/-- The columns taken that some k-step still needs. -/
def MxRun.colsHeld (r : MxRun) : Nat :=
  if r.code ≠ 0 then 0
  else ((List.range r.colsTaken).filter fun col => (List.range r.par.steps).any fun j =>
    let u := r.par.stepCols j
    decide (u.1 ≤ col) && decide (col < u.1 + u.2) && !r.done.contains j).length

/-- The engine may take a further column for a command: it holds fewer than 32 in all, and those it would hold wait for no command that
has columns to take itself (R306). -/
def MxRun.colRoom (r : MxRun) (c : Core) : Bool :=
  decide (c.runs.foldl (fun n e => n + e.colsHeld) 0 < 32) &&
  (r.mayAct c || c.runs.all fun e =>
    !(decide (e.blk = r.blk) && decide (e.serial < r.serial) && decide (e.code = 0) && !e.inert && decide (e.colsTaken < e.par.columns)))

/-- The column of a run's metadata array. -/
def MxRun.metaRead (r : MxRun) (s : State) (col : Nat) : Except Nat (List Word) :=
  (scrOperand s r.mblk (r.par.mdata.toNat + 128 * col) 128).map (bytesWords 32)

/-- METADATA_TAKE: run `arg.k` of core `arg.core` takes its next column, or discards it when it has stopped. -/
def execMetadataTake (s : State) : Answer :=
  let c := s.arg.core
  match s.run? c s.arg.k with
  | none => .next s
  | some r =>
    let x := s.core c
    if r.inert || decide (r.par.columns ≤ r.colsTaken) || s.halted r then .next s
    else if r.par.msrc then
      if !r.reads x || !r.colRoom { x with runs := x.runs.filter fun e => !s.halted e } then .next s
      else match r.metaRead s r.colsTaken with
        | .error code => .next (s.stopRun c s.arg.k code none)
        | .ok ws =>
          let s2 := s.setRun c s.arg.k { r with colsTaken := r.colsTaken + 1, cols := r.cols ++ [ws] }
          match r.metaRecord r.colsTaken (r.par.sp - 1) ws with
          | none => .next s2
          | some f => .next (s2.stopRun c s.arg.k 3 (some f))
    else match (s.block r.blk).q1 with
      | [] => .next s
      | m :: rest =>
        if !r.metaTurn x || (decide (r.code = 0) && (!r.reads x || !r.colRoom { x with runs := x.runs.filter fun e => !s.halted e })) then .next s
        else
          let bad := decide (r.code = 0) && (s.block r.blk).headBad 1
          let s := (s.modBlock r.blk fun b => { b.shiftBad 1 with q1 := rest }).serveQ r.blk 1
          let s2 := s.setRun c s.arg.k { r with colsTaken := r.colsTaken + 1, cols := r.cols ++ [m.words] }
          if bad then .next (s2.stopRun c s.arg.k codePoison none)
          else match (if r.code = 0 then r.metaRecord r.colsTaken m.code m.words else none) with
          | none => .next s2
          | some f => .next (s2.stopRun c s.arg.k 3 (some f))

/-! ## k-steps (R79, R80, R300, R304) -/

/-- K-step j may be applied now: in increasing j without a chain tag, in any order within a chain. -/
def MxRun.mayStep (r : MxRun) (j : Nat) : Bool :=
  decide (j < r.par.steps) && !r.done.contains j && (r.tag.isSome && !r.par.scaled || decide (j = r.done.length))

/-- The metadata that k-step j needs has been taken. -/
def MxRun.metaHere (r : MxRun) (j : Nat) : Bool :=
  r.par.sp = 0 || (let u := r.par.stepCols j; decide (u.1 + u.2 ≤ r.colsTaken))

/-- A k-step applied with its operands; a poisoned word of the buffer stops the command (R334). A chain that has stopped keeps its
buffer at zero (R319). -/
def State.applyStep (s : State) (c k : Nat) (r : MxRun) (f : MxFetch) : State :=
  let x := s.core c
  let p := r.par
  let buf := x.acc p.buf
  if !p.scaled && !(p.zero && r.done.isEmpty) && !buf.poison.isEmpty then s.stopRun c k codePoison none else
  let acc := if p.scaled then List.replicate 1024 0 else if p.zero && r.done.isEmpty then List.replicate 1024 0 else buf.all
  let res := f.apply p.opf r.entry.tbl acc
  let r2 : MxRun := { r with
    done := r.done ++ [f.step], fetched := r.fetched.filter fun x => x.step ≠ f.step,
    ovfc := sat8 r.ovfc res.2.1, invc := sat8 r.invc res.2.2 }
  let chainStopped := (x.stopOf r.chain).isSome
  if p.scaled then
    s.setRun c k { r2 with partials := r2.partials ++ [res.1.map (BitVec.ofNat 32)] }
  else
    let s := s.setRun c k r2
    if chainStopped then s else s.modCore c fun x => x.setAcc p.buf (buf.withAll res.1)

/-- K_STEP: run `arg.k` of core `arg.core`. With `arg.flag` it only fetches the operands of k-step `arg.n`; else the k-step
is applied, with the operands fetched before or read now. A command that has stopped settles its buffer instead. -/
def execKStep (s : State) : Answer :=
  let c := s.arg.core
  let k := s.arg.k
  let j := s.arg.n
  match s.run? c k with
  | none => .next s
  | some r =>
    let x := s.core c
    if s.halted r then .next s
    else if r.code ≠ 0 then .next (s.settleStop c k)
    else match r.waitStop with
      | some code => .next (s.stopRun c k code none)
      | none =>
        if !r.reads x || !r.metaHere j || !decide (j < r.par.steps) || r.done.contains j then .next s
        else if s.arg.flag then
          if r.fetched.any fun f => f.step = j then .next s
          else match r.fetch s j with
            | .error code => .next (s.stopRun c k code none)
            | .ok f => .next (s.setRun c k { r with fetched := r.fetched ++ [f] })
        else if !r.mayStep j || r.needBuf || !r.mayAct x then .next s
        else match r.fetched.find? fun f => f.step = j with
          | some f => .next (s.applyStep c k r f)
          | none =>
            match r.fetch s j with
            | .error code => .next (s.stopRun c k code none)
            | .ok f => .next (s.applyStep c k r f)

/-! ## Partials (R315) and the entries of a drain to q2 (R311) -/

/-- The words of a piece: 2 words of an entry, 32 of a row. A stopped command delivers canonical NaNs. -/
def MxRun.pieceWords (r : MxRun) (size : Nat) : Option (List Word) :=
  if r.code ≠ 0 ∧ r.par.scaled then some (List.replicate size 0x7FC0_0000)
  else match r.partials with
    | [] => none
    | ws :: _ => some ((ws.drop (r.delivered % (1024 / size) * size)).take size)

/-- A piece has been delivered. -/
def MxRun.pieceDone (r : MxRun) (size : Nat) : MxRun :=
  let last := decide ((r.delivered + 1) % (1024 / size) = 0)
  { r with delivered := r.delivered + 1, partials := if last then r.partials.drop 1 else r.partials }

/-- The granules of a scratchpad range. -/
def gransOf (br : BRef) (off n : Nat) : List (BRef × Nat) :=
  if n = 0 then [] else (List.range' (off / 16) ((off + n - 1) / 16 - off / 16 + 1)).map fun g => (br, g)

/-- The scratchpad range that an engine writes at an address: none when it fails R192 or R193. -/
def scrTarget (s : State) (br : BRef) (addr n : Nat) : Option (BRef × Nat) :=
  if 2 ^ 32 ≤ addr then none
  else match checkScratch s br (BitVec.ofNat 32 addr) n 1 accWrite with
    | .ok (.scr t off) => some (t, off)
    | _ => none

/-- Granules become full: every byte that the engine writes in them is in place (R200). -/
def State.fillAll (s : State) (gs : List (BRef × Nat)) : State := gs.foldl (fun s g => s.engineFill g.1 g.2) s

/-- Bytes that an engine writes at a scratchpad address, with the granules touched; none when the address fails. -/
def scrDeliver (s : State) (br : BRef) (addr : Nat) (bs : List Byte) : Option (State × List (BRef × Nat)) :=
  (scrTarget s br addr bs.length).map fun x => (scrWrite s x.1 x.2 bs, gransOf x.1 x.2 bs.length)

/-- The entries that a run has for q2 are not yet delivered, and some are. -/
def MxRun.midQ2 (r : MxRun) : Bool := !(r.par.scaled && r.par.pdest) && decide (0 < r.delivered) && decide (r.delivered < r.pieces)

/-- A row of partials in place: the granules that no later row reaches become full. -/
def State.rowDone (s : State) (c k : Nat) (r : MxRun) (gs : List (BRef × Nat)) : State :=
  let all := gs.foldl addNew r.grans
  let next := r.par.part.toNat + 128 * (r.delivered + 1)
  let later := match (if r.delivered + 1 < r.pieces then scrTarget s r.blk next 128 else none) with
    | none => []
    | some x => gransOf x.1 x.2 128
  let s := s.setRun c k { r.pieceDone 32 with bytes := r.bytes + 128, grans := all.filter later.contains }
  s.fillAll (all.filter fun g => !later.contains g)

/-- PARTIAL_DELIVERY: run `arg.k` of core `arg.core` delivers its next piece: an entry of q2 once there is room, those of one command
together, or a row of 128 bytes of partials. -/
def execPartialDelivery (s : State) : Answer :=
  let c := s.arg.core
  let k := s.arg.k
  match s.run? c k with
  | none => .next s
  | some r =>
    let toScr := r.par.scaled && r.par.pdest
    if r.pieces ≤ r.delivered ∨ r.needRect ∨ s.halted r then .next s
    else match r.pieceWords (if toScr then 32 else 2) with
      | none => .next s
      | some ws =>
        if toScr then
          match scrDeliver s r.blk (r.par.part.toNat + 128 * r.delivered) (wordsBytes ws) with
          | some x => .next (x.1.rowDone c k r x.2)
          -- a stopped command goes on with the pieces that can be written
          | none =>
            let s2 := (s.setRun c k { r.pieceDone 32 with grans := [] }).fillAll r.grans
            .next (if r.code = 0 then s2.stopRun c k codeMem none else s2)
        else if 64 ≤ (s.block r.blk).q2.length || (r.delivered = 0 && (s.core c).runs.any fun e => decide (e.blk = r.blk) && e.midQ2) then .next s
        else .next ((s.setRun c k (r.pieceDone 2)).engineEntry r.blk 2 (pairOf (ws.getD 0 0) (ws.getD 1 0)))

/-! ## Draining (R311-R314) -/

/-- What writes have left: the global lines written and the granules touched. -/
structure Written where
  lines : List Nat := []
  grans : List (BRef × Nat) := []
  deriving DecidableEq, Repr

def Written.join (a b : Written) : Written := { lines := a.lines ++ b.lines, grans := b.grans.foldl addNew a.grans }

/-- Writes at addresses of one space; none when one of them fails. -/
def drainWrite (s : State) (c : Nat) (r : MxRun) (cmp : Bool) : List (Nat × List Byte) → State × Option Written
  | [] => (s, some {})
  | (a, bs) :: rest =>
    let x : State × Option Written :=
      if r.par.ddest = 1 then match scrDeliver s r.blk a bs with | none => (s, none) | some x => (x.1, some { grans := x.2 })
      else let x := engineWrite s (s.ownBlk r.blk) c cmp a bs; (x.1, x.2.map fun ls => { lines := ls })
    match x.2 with
    | none => (x.1, none)
    | some w => let y := drainWrite x.1 c r cmp rest; (y.1, y.2.map w.join)

/-- The pieces that a drain writes: the rows of the tile, or its record, and the scale codes with their super-scale. -/
def MxRun.scaleWrites (r : MxRun) (t : Tile) : List (Nat × List Byte) :=
  if !r.par.blocks then []
  else
    let b := 16 * r.par.tile
    let at_ := r.par.scout.toNat + 260 * (b / 256)
    [(at_ + b % 256, t.scales.map (BitVec.ofNat 8)), (at_ + 256, wordBytes r.par.super)]

def MxRun.rowWrites (r : MxRun) (rows : List (List Byte)) : List (Nat × List Byte) :=
  rows.zipIdx.map fun x => (r.par.out.toNat + 16 * r.par.opitch * x.2, x.1)

/-- What a drain writes in memory: the state, the bytes to count, what the writes leave, and code 8 for a record too long. -/
def MxRun.drainOut (r : MxRun) (s : State) (c : Nat) (t : Tile) : Except Nat (State × Nat × Written × Nat) :=
  let rows := t.rows.map (packRow r.par.dbits)
  let o := s.ownBlk r.blk
  let scales := r.scaleWrites t
  let extra := if r.par.blocks then 20 else 0
  if r.par.ddest = 1 ∧ (decide (r.par.out.toNat / 2 ^ 32 ≠ 0) || (r.par.blocks && decide (r.par.scout.toNat / 2 ^ 32 ≠ 0))) then .error codeMem
  else if r.par.comp then
    match chunkSpot s o c false true r.par.out.toNat r.par.tile with
    | none => .error codeMem
    | some (at_, slot) =>
      let bytes := r.par.record rows
      let fits := decide (bytes.length ≤ slot)
      let x := drainWrite s c r true (if fits then [(at_, bytes)] else [])
      let y := drainWrite x.1 c r false scales
      match x.2, y.2 with
      | some a, some b => .ok (y.1, (if fits then 4096 else 0) + extra, a.join b, if fits then 0 else 8)
      | _, _ => .error codeMem
  else
    let x := drainWrite s c r false (r.rowWrites rows ++ scales)
    match x.2 with
    | none => .error codeMem
    | some w => .ok (x.1, 32 * (4 * r.par.dbits) + extra, w, 0)

/-- DRAIN: run `arg.k` of core `arg.core` drains its buffer after its last k-step; a failed address writes nothing. The granules of a
tile become full when it is written. -/
def execDrain (s : State) : Answer :=
  let c := s.arg.core
  let k := s.arg.k
  match s.run? c k with
  | none => .next s
  | some r =>
    let x := s.core c
    if r.inert || decide (r.code ≠ 0) || !r.par.drain || r.ended || !r.stepped || r.needBuf || !r.mayEnd x || s.halted r then .next s
    else if !(x.acc r.par.buf).poison.isEmpty then .next ((s.stopRun c k codePoison none).settleStop c k)
    else
      let ws := (x.acc r.par.buf).all
      let t := r.par.tileOf r.entry.tbl ws
      let r2 : MxRun := { r with
        ended := true, nanf := r.par.opf ≠ 3 && ws.any fun w => (decodeF FP32 w).isNan,
        ovfc := sat8 r.ovfc (t.flags.filter fun f => f &&& OVF ≠ 0).length,
        invc := sat8 r.invc (t.flags.filter fun f => f &&& INV ≠ 0).length }
      let free (s : State) : State := if r.par.keep then s else s.modCore c fun x => x.setAcc r.par.buf {}
      match r.par.ddest with
      | 0 => .next (free (s.setRun c k r2))
      | 3 => .next (free (s.setRun c k { r2 with partials := [ws.map (BitVec.ofNat 32)] }))
      | _ =>
        match r.drainOut s c t with
        | .error code => .next ((s.stopRun c k code none).settleStop c k)
        | .ok (s2, n, w, code) => .next ((free (s2.setRun c k { r2 with bytes := n, lines := w.lines, code := code })).fillAll w.grans)

/-! ## Counts, errors and status (R275, R317-R319) -/

/-- The counting object of a run lies at the offset that OBJ gives, on the core that executes it, if the field passes R192 (R298). -/
def MxRun.objOff (r : MxRun) : Nat := r.par.obj.toNat / 16 % 65536 * 16
def MxRun.objHere (r : MxRun) (s : State) : Bool :=
  r.par.obj.getLsbD 1 && decide (r.par.obj.toNat / 2 ^ 25 = 0) && (s.block r.blk).holds r.objOff 16

/-- A run's bytes counted into its object once all are in place. -/
def State.runCount (s : State) (c k : Nat) : State :=
  match s.run? c k with
  | none => s
  | some r =>
    if r.counted || r.uncounted || !r.acted || !r.mayEnd (s.core c) || decide (r.delivered < r.pieces) then s
    else
      -- a poisoned object stops the command, which counts nothing in it (R334)
      let bad := r.objHere s && s.objBad r.blk r.objOff
      let s := s.setRun c k { r with counted := true, code := if bad ∧ r.code = 0 then codePoison else r.code }
      if r.objHere s then s.objCount r.blk r.objOff r.bytes r.lines else s

/-- A run's error reaches its object. -/
def State.runError (s : State) (c k : Nat) : State :=
  match s.run? c k with
  | none => s
  | some r =>
    if r.errDone || decide (r.code = 0) then s
    else
      let s := s.setRun c k { r with errDone := true }
      if r.objHere s then s.objError r.blk r.objOff r.code else s

/-- ENGINE_BYTE_COUNT: `arg.flag` names a matrix run `arg.k` of core `arg.core`, else copy command `arg.k` and `arg.n` bytes
of it. -/
def execEngineByteCount (s : State) : Answer :=
  .next (if s.arg.flag then s.runCount s.arg.core s.arg.k else s.copyCount s.arg.core s.arg.k s.arg.n)

/-- ENGINE_ERROR: the error of a matrix run or of a copy command. -/
def execEngineError (s : State) : Answer :=
  .next (if s.arg.flag then s.runError s.arg.core s.arg.k else s.copyError s.arg.core s.arg.k)

/-- The runs of a command over its members. -/
def State.membersOf (s : State) (c serial : Nat) : List MxRun :=
  s.cores.flatMap fun x => x.2.runs.filter fun r => decide (r.origin = c) && decide (r.oserial = serial)

/-- The lowest nonzero code of a command's members. -/
def lowestCode (rs : List MxRun) : Nat :=
  rs.foldl (fun m r => if r.code ≠ 0 ∧ (m = 0 ∨ r.code < m) then r.code else m) 0

/-- The status entry of a command (R317). -/
def statusWord (r : MxRun) (rs : List MxRun) : Dword :=
  let sum (f : MxRun → Nat) : Nat := rs.foldl (fun n x => sat8 n (f x)) 0
  let bit (p : MxRun → Bool) (i : Nat) : Nat := if rs.any p then 2 ^ i else 0
  BitVec.ofNat 64 (sum MxRun.ovfc * 2 ^ 56 + sum MxRun.invc * 2 ^ 48 + bit (fun x => x.frec.isSome) 24 + lowestCode rs * 2 ^ 16 +
    bit MxRun.nanf 13 + bit MxRun.chab 12 + r.par.tag)

/-- Only the stops of chains that have commands, or may still get one, are kept. -/
def State.pruneStops (s : State) : State :=
  let last (c : Nat) : List (Nat × Nat) := s.blocks.flatMap fun b => if b.2.core = c then b.2.last0.toList ++ b.2.last1.toList else []
  let keep (c : Nat) (x : Core) : Core :=
    { x with stops := x.stops.filter fun st => (x.runs.any fun r => decide (r.chain = st.1)) || (last c).any fun l => decide (l.2 = st.1) }
  { s with cores := s.cores.map fun (x : Nat × Core) => (x.1, if x.2.stops.isEmpty then x.2 else keep x.1 x.2) }

/-- Run `k` of a core delivers the status of its command when every member has finished, every earlier command of the block has
reported, and q3 has room; at a stop it needs none (R341). -/
def State.mxStatus (s : State) (c k : Nat) (deep : Bool) : State :=
  match s.run? c k with
  | none => s
  | some r =>
    let rs := s.membersOf c r.serial
    let first := (s.core c).runs.all fun e => !(decide (e.blk = r.blk) && decide (e.origin = c) && decide (e.oserial = e.serial) && decide (e.serial < r.serial))
    let frec := (rs.filterMap MxRun.frec).head?
    let need := if frec.isSome then 2 else 1
    if r.origin ≠ c ∨ r.oserial ≠ r.serial ∨ !first ∨ !rs.all MxRun.finished ∨ (!deep ∧ 16 < (s.block r.blk).q3.length + need) then s
    else
      let keep (x : Core) : Core := { x with runs := x.runs.filter fun e => !(decide (e.origin = c) && decide (e.oserial = r.serial)) }
      let s := { s with cores := s.cores.map fun (x : Nat × Core) => (x.1, keep x.2), rectHeld := s.rectHeld.filter fun h => ¬ (h.1 = c ∧ h.2.1 = r.serial) }
      let s := s.pruneStops.engineEntry r.blk 3 (statusWord r rs)
      match frec with | none => s | some f => s.engineEntry r.blk 3 f

/-- MATRIX_STATUS: the command of run `arg.k` of core `arg.core` delivers its status. -/
def execMatrixStatus (s : State) : Answer := .next (s.mxStatus s.arg.core s.arg.k false)

end Sys2Proof.Machine
end

