-- ==== Sys2Proof/Machine/Sync.lean ====
section
/-! DEFINITION. Binding, acquiring, releasing and fencing (spec 13 R227-R233, 12 R209, R210, 14 R260, R261) and the
invalidation of translations by threads (12 R222, R223). -/

namespace Sys2Proof.Machine

/-! ## Cache actions of a scope (R209, R210, R230) -/

/-- A line of the host memory window. -/
def hostLine (ln : Nat) : Bool := inHostWindow (ln * 128)

/-- A release of a line at a scope: its dirty bytes go outward. -/
def State.releaseLine (s : State) (c scope ln : Nat) : State :=
  if scope < 3 then s
  else
    let s := l1Clean s c ln
    if scope < 5 then s
    else
      let s := rdcClean s (dieOf c) ln
      if scope = 6 ∧ hostLine ln then l2Clean s ln else s

/-- An acquire of a line at a scope: its copies between the thread and that scope go. -/
def State.acquireLine (s : State) (c scope ln : Nat) : State :=
  if scope < 3 then s
  else
    let s := l1Drop s c ln
    if scope < 5 then s
    else
      let s := rdcDrop s (dieOf c) ln
      if scope = 6 ∧ hostLine ln then l2Evict s ln else s

/-- The lines that the caches between a core and a scope hold; of the host lines in the L2, those of the core's own partition (R351). -/
def State.heldLines (s : State) (c scope : Nat) : List Nat :=
  if scope < 3 then []
  else
    let l1 := (s.core c).l1.map CLine.line
    if scope < 5 then l1
    else
      let rdc := (s.rdc.filter fun x => x.1.1 = dieOf c).map fun x => x.1.2
      let host := if scope = 6 then (s.l2.filter fun l => hostLine l.line && decide (l.part = s.partOf c)).map CLine.line else []
      (l1 ++ rdc ++ host).eraseDups

/-- FENCE's action on the caches: every dirty byte goes out, every line is dropped. -/
def State.fenceCaches (s : State) (c scope : Nat) : State :=
  (s.heldLines c scope).foldl (fun s ln => s.acquireLine c scope ln) s

/-! ## Objects (R227-R229) -/

/-- The region of an object. -/
inductive Region where
  | none
  | glob (base lines : Nat)
  | scr (base lines : Nat)
  deriving DecidableEq, Repr

/-- The region that the bytes of an object give. -/
def regionOf (bs : List Byte) : Region :=
  let b := field bs 0 8
  let lines := field bs 8 4
  let base := b / 128 % 2 ^ 41 * 128
  if b % 2 = 0 ∨ b / 2 ^ 48 ≠ 0 ∨ b / 4 % 32 ≠ 0 ∨ lines = 0 then .none
  else if b / 2 % 2 = 0 then (if base + 128 * lines ≤ 2 ^ 48 then .glob base lines else .none)
  else if base / 2 ^ 25 ≠ 0 ∨ base / 2 ^ 20 ≠ (base + 128 * lines - 1) / 2 ^ 20 then .none
  else .scr base lines

/-- The 16 bytes of an object, read at its home; a thread that reads poison is Halted (R334). -/
def State.readObject (s : State) (t : TRef) (o : SyncObj) : State × List Byte :=
  let r := match o.loc with
    | .scr b off => (s, scrRead s b off 16, scrPoison s b off 16)
    | .glob pa _ cmp => readAtHome s (s.ownOf t) pa 16 cmp
  (if r.2.2 then r.1.halt t haltPAR else r.1, r.2.1)

/-- Bytes of an object written at its home in one action; the copies of its line in L1 and RDC stay as they are (R209, R228). -/
def State.writeObject (s : State) (t : TRef) (l : Loc) (bs : List Byte) : State :=
  match l with
  | .scr b off => scrWrite s b off bs
  | .glob pa _ cmp => storeAtHome s (s.ownOf t) pa cmp bs

/-- An action on every line of a region of global memory, as far as its addresses translate (R261). -/
def State.onRegion (s : State) (t : TRef) (r : Region) (f : State → Nat → State) : State :=
  match r with
  | .glob base lines =>
    (List.range lines).foldl (fun s i =>
      match translate s t.core (s.ownOf t) (base + 128 * i) with
      | .error _ => s
      | .ok e => f s ((e.pbase + (base + 128 * i - e.vbase)) / 128)) s
  | _ => s

/-! ## The acts (R231-R233) -/

/-- REL: the thread's accesses are performed, the region's dirty bytes go outward, RCOUNT is raised at the home. -/
def State.doRel (s : State) (t : TRef) (scope : Nat) (o : SyncObj) : State :=
  let s := (s.releaseAll t).scMeeting t o.loc 16
  let r := s.readObject t o
  if !(r.1.thread t).live then r.1
  else
    let s := r.1.onRegion t (regionOf r.2) fun s ln => s.releaseLine t.core scope ln
    let q := s.readObject t o
    q.1.writeObject t (o.loc.shift 12) (leBytes 4 (field q.2 12 4 + 1))

/-- ACQ: the thread's loads have their values, then the region's copies go. -/
def State.doAcq (s : State) (t : TRef) (scope : Nat) (o : SyncObj) : State :=
  let s := (s.takeAll t).scMeeting t o.loc 16
  let r := s.readObject t o
  if !(r.1.thread t).live then r.1 else r.1.onRegion t (regionOf r.2) fun s ln => s.acquireLine t.core scope ln

/-- FENCE: a release and an acquire of the whole of memory. -/
def State.doFence (s : State) (t : TRef) (scope : Nat) : State := (s.releaseAll t).fenceCaches t.core scope

/-- A retirement that awaits accesses of a thread: at once, or as late as the move says (log 1). -/
def State.whenDone (s : State) (op : SyncOp) (now : State → State) : State × Fate :=
  if s.defer then (s, .wait (.access op)) else (now s, .go)

/-- The object of an ACQ or a REL meets the thread's SC operation, which must be performed first (R226) and cannot be before the epoch ends
(R242), or lies in a way that is still to be loaded (R340). -/
def State.objectStuck (s : State) (t : TRef) (o : SyncObj) : Bool :=
  let far := match o.loc with | .scr b off => !(s.block b).ready off 16 | .glob _ _ _ => false
  far || match (s.thread t).sc with
    | none => false
    | some op => o.loc.meets 16 (.glob op.pa 0 false) 4 && s.scStuck t

/-- The check of an object's address (R248, R249, R261). -/
def State.objectAddr (s : State) (t : TRef) (k : Bool) (a : Code) (acc : Nat) : Except TrapInfo (State × SyncObj) :=
  let th := s.thread t
  let q : Need := { acc := acc, r := decide (acc ≠ accWrite), w := decide (acc ≠ accRead), align := 16, noDev := true, cmpOk := false }
  match (if k then s.scratchOf t (th.word a.toNat) 16 16 acc else s.globalOf t (th.pair a.toNat) 16 q) with
  | .error inf => .error inf
  | .ok (s, l) => .ok (s, ⟨l, if k then (th.word a.toNat).setWidth 64 else th.pair a.toNat, acc, s.issueNo⟩)

def execAcq (k : Bool) (a : Code) (sc : BitVec 3) (s : State) : Answer :=
  issueEach (.acq k a sc) s fun s t =>
    match s.objectAddr t k a accRead with
    | .error inf => (s, .trap inf)
    | .ok (s, o) => if s.objectStuck t o then (s, .wait (.access (.acq sc.toNat o))) else s.whenDone (.acq sc.toNat o) fun s => s.doAcq t sc.toNat o

def execRel (k : Bool) (a : Code) (sc : BitVec 3) (s : State) : Answer :=
  issueEach (.rel k a sc) s fun s t =>
    match s.objectAddr t k a accRw with
    | .error inf => (s, .trap inf)
    | .ok (s, o) => if s.objectStuck t o then (s, .wait (.access (.rel sc.toNat o))) else s.whenDone (.rel sc.toNat o) fun s => s.doRel t sc.toNat o

def execFence (sc : BitVec 3) (s : State) : Answer :=
  issueEach (.fence sc) s fun s t => s.whenDone (.fence sc.toNat) fun s => s.doFence t sc.toNat

/-- BIND: bytes 0 to 11 of the object in one action. -/
def execBind (b a : Code) (k : Bool) (e : Bool) (s : State) : Answer :=
  issueMem (.bind b a k e) s fun s t th => do
    let r ← s.objectAddr t k a accWrite
    let l := r.2.loc
    let s := ((r.1.takeMeeting t l 16).flushMeeting t l 16).scMeeting t l 16
    return s.writeObject t l (wordsBytes ((th.group b.toNat 4).take 3))

/-! ## TLBIB and TLBIL (R222, R223) -/

/-- The scratchpad of an object is still there, and its allocation holds it (R192, R193). -/
def State.objectThere (s : State) (o : SyncObj) : Bool :=
  match o.loc with | .scr b off => s.scrHolds b off 16 | .glob _ _ _ => true

/-- A waiting ACQ or REL is performed and retires, unless its object is gone, which is BOUND (R193), or meets the thread's SC operation,
which cannot be applied. -/
def State.finishObject (s : State) (t : TRef) (o : SyncObj) (now : State → State) : State :=
  if s.objectStuck t o then s
  else if !s.objectThere o then s.takeTrap t (boundAt o.addr o.acc) false
  else
    let st := (s.thread t).st
    let s := now s
    if (s.thread t).st = st then s.modThread t Thread.passHeel else s

/-- A thread that waits at an ACQ or REL has an address translated: it is performed and retires. -/
def State.finishSync (s : State) (t : TRef) : State :=
  match (s.thread t).st with
  | .waiting (.access (.acq sc o)) => s.finishObject t o fun s => s.doAcq t sc o
  | .waiting (.access (.rel sc o)) => s.finishObject t o fun s => s.doRel t sc o
  | _ => s

/-- Every access that threads of a partition have issued is performed. -/
def State.drainPart (s : State) (p : Nat) : State :=
  s.threads.foldl (fun s x => if (s.ownOf x.1).part = p then ((s.releaseAll x.1).scForce x.1).finishSync x.1 else s) s

/-- No access of a partition's threads is left under way that a translation has served: all but SC operations that wait for the end
of the epoch have been performed (R223, R242). -/
def State.drained (s : State) (p : Nat) : Bool :=
  s.threads.all fun x => decide ((s.ownOf x.1).part ≠ p) || x.2.sc.isNone

/-- The dirty bytes that a core holds of the pages of some translations go to their home (R223). -/
def State.cleanPages (s : State) (c : Nat) (es : List TlbEnt) : State :=
  let hit (ln : Nat) : Bool := es.any fun e => decide (e.pbase ≤ ln * 128) && decide (ln * 128 < e.pbase + e.size)
  let ls := ((s.core c).l1.map CLine.line ++ (s.rdc.filter fun x => decide (x.1.1 = dieOf c)).map fun x => x.1.2).eraseDups
  (ls.filter hit).foldl (fun s ln => s.releaseLine c 5 ln) s

/-- The translations of some kind that a core's accesses may have used: what they wrote goes to its home, and no record of them is
kept (R223; log 57). -/
def State.settlePages (s : State) (cores : List Nat) (p : TlbEnt → Bool) : State :=
  cores.foldl (fun s c => match tget s.cores c with
    | none => s
    | some x => (s.cleanPages c (x.tlbPast.filter p)).modCore c fun x => { x with tlbPast := x.tlbPast.filter fun e => !p e }) s

/-- TLBIB: FENCE at system scope, the removal at every receiver of the partition, and the accesses translated before: they are
performed at their homes. -/
def State.doTlbib (s : State) (t : TRef) (all : Bool) (va : Dword) : State :=
  let o := s.ownOf t
  let s := (s.doFence t 6).drainPart o.part
  let cores := s.coresOf o.part
  (invalidate s cores o all va.toNat).settlePages cores (tlbMatch o all va.toNat)

/-- A TLBIB retires when no access of its partition waits for the end of an epoch. -/
def State.tlbibReady (s : State) (t : TRef) : Bool := (s.drainPart (s.ownOf t).part).drained (s.ownOf t).part

/-- The address of a kind 0 invalidation, or its TRANS fault. -/
def tlbiAddr (th : Thread) (a : Code) (k : BitVec 2) : Except TrapInfo Dword :=
  let va := th.pair a.toNat
  if k = 0 ∧ va.toNat / 2 ^ 48 ≠ 0 then .error { code := causeTRANS, addr := va } else .ok va

def execTlbib (a : Code) (k : BitVec 2) (s : State) : Answer :=
  issueEach (.tlbib a k) s fun s t =>
    match tlbiAddr (s.thread t) a k with
    | .error inf => (s, .trap inf)
    | .ok va =>
      if s.defer || !s.tlbibReady t then (s, .wait (.access (.tlbib (k != 0) va))) else (s.doTlbib t (k != 0) va, .go)

def execTlbil (a : Code) (k : BitVec 2) (e : Bool) (s : State) : Answer :=
  issueMem (.tlbil a k e) s fun s t th => do
    let va ← tlbiAddr th a k
    return invalidate s [t.core] (s.ownOf t) (k != 0) va.toNat

end Sys2Proof.Machine
end

