-- ==== Sys2Proof/Machine/Carve.lean ====
section
/-! DEFINITION. The carve-out of cache ways as scratchpad (spec 11 R191, R196-R199), and the accesses that a waiting
instruction awaits being performed (13 R231, 12 R223, 01 R33, 14 R258). -/

namespace Sys2Proof.Machine

/-! ## The ranges of engine commands (R196) -/

/-- Two ranges of offsets meet. -/
def rangesMeet (a n b m : Nat) : Bool := decide (0 < n) && decide (0 < m) && decide (a < b + m) && decide (b < a + n)

/-- The scratchpad range of a copy command; a swizzle moves bytes within aligned 4096. -/
def Copy.range (d : Copy) : Nat × Nat :=
  let n := d.zd * d.count
  if d.swz = 0 then (d.dest, n) else (d.dest / 4096 * 4096, n + 8192)

/-- The scratchpad ranges that a matrix command names: address and length. -/
def MxPar.ranges (p : MxPar) : List (Nat × Nat) :=
  let strip (base pitch : Nat) (cmp : Bool) (k : Nat) : Nat × Nat :=
    let n := 16 * pitch * 31 + (p.ebits * k + 7) / 8
    (base, if cmp then p.slot * ((n + 4095) / 4096) else n)
  [strip p.asrc.toNat p.apitch p.acmp (if p.sp = 0 then p.klen else p.klen * p.kept / 16), strip p.bsrc.toNat p.bpitch p.bcmp p.klen] ++
  (if p.sp ≠ 0 ∧ p.msrc then [(p.mdata.toNat, 128 * p.columns)] else []) ++
  (if p.scaled ∧ p.pdest then [(p.part.toNat, 4096 * p.steps)] else []) ++
  (if p.drain ∧ p.ddest = 1 then
    [(p.out.toNat, 16 * p.opitch * 31 + 4 * p.dbits)] ++ (if p.blocks then [(p.scout.toNat + 260 * (16 * p.tile / 256), 260)] else [])
   else []) ++
  (if p.waita.getLsbD 1 then [(p.waita.toNat / 16 * 16, 16)] else []) ++ (if p.obj.getLsbD 1 then [(p.obj.toNat / 16 % 65536 * 16, 16)] else [])

/-- A range of addresses meets offsets of the block's own scratchpad. -/
def ownRange (s : State) (b : BRef) (lo hi : Nat) (r : Nat × Nat) : Bool :=
  let peer := decide (r.1 / 2 ^ 24 % 2 = 1) && decide (peerCore (s.block b).core (r.1 / 2 ^ 20 % 16) ≠ (s.block b).core)
  !peer && rangesMeet (r.1 % 2 ^ 20) r.2 lo (hi - lo)

/-- Some engine command of the block, queued or in progress, names offsets of a range. -/
def State.engineMeets (s : State) (b : BRef) (lo hi : Nat) : Bool :=
  let blk := s.block b
  let x := s.core blk.core
  let copy (bs : List Byte) : Bool :=
    let d := (Copy.of bs).placed blk.cx blk.cy
    let r := d.range
    rangesMeet r.1 r.2 lo (hi - lo) || (!d.nobar && rangesMeet d.bobj 16 lo (hi - lo))
  blk.q4.any copy || (x.copies.any fun r => decide (r.blk = b) && copy r.desc) ||
  (blk.q0.any fun e => ownRange s b lo hi (e.addr.toNat, 64) ||
    (match scrOperand s b e.addr.toNat 64 with | .ok bs => (MxPar.of bs).ranges.any (ownRange s b lo hi) | .error _ => false)) ||
  x.runs.any fun r => decide (r.blk = b) && r.par.ranges.any (ownRange s b lo hi)

/-! ## CARVE (R196, R197) -/

/-- The status word. -/
def State.carveWord (s : State) (b : BRef) (fail : Bool) : Word :=
  let blk := s.block b
  BitVec.ofNat 32 ((if fail then 2 ^ 31 else 0) + (cacheWays s blk.core).length * 2 ^ 16 + blk.pways.length * 2 ^ 8 + blk.cways.length)

/-- Lines of a core's L1 in the ways given are written back and go. -/
def State.dropWays (s : State) (c : Nat) (ws : List Nat) : State :=
  ((s.core c).l1.filter fun l => ws.contains l.way).foldl (fun s l => l1Drop s c l.line) s

/-- The offsets from `lo` to `hi - 1` of a scratchpad are zeroed: every byte zero, every granule empty, nothing poisoned (R203). -/
def Block.zeroRange (b : Block) (lo hi : Nat) : Block :=
  let out (a : Nat) : Bool := !(decide (lo ≤ a) && decide (a < hi))
  { b with cells := b.cells.filter fun k => out k.1, full := b.full.filter fun g => out (16 * g),
           poison := b.poison.filter fun w => out (8 * w), acq := b.acq.filter fun a => out a.1, rast := b.rast.filter fun a => out a.1 }

/-- A block takes more ways: the lowest cache ways of its core (the spec names none: log 59), zeroed (R196, R198). -/
def State.carveMore (s : State) (b : BRef) (n : Nat) : State :=
  let c := (s.block b).core
  let ws := (cacheWays s c).take n
  (s.dropWays c ws).modBlock b fun x =>
    { x.zeroRange (x.carveBase + 16384 * x.cways.length) (x.carveBase + 16384 * (x.cways.length + ws.length)) with cways := x.cways ++ ws }

/-- A block gives back its highest carved ways, zeroed (R196). -/
def State.carveLess (s : State) (b : BRef) (want : Nat) : State :=
  s.modBlock b fun x =>
    { x.zeroRange (x.carveBase + 16384 * want) (x.carveBase + 16384 * x.cways.length) with cways := x.cways.take want }

/-- Accesses that threads have issued to a range of a scratchpad are performed. -/
def State.settleRange (s : State) (b : BRef) (lo n : Nat) : State :=
  s.threads.foldl (fun s x =>
    if x.1 ∈ s.threads.map Prod.fst ∧ (x.2.stores ≠ [] ∨ x.2.outs ≠ []) then (s.takeMeeting x.1 (.scr b lo) n).flushMeeting x.1 (.scr b lo) n else s) s

/-- The descriptor that a thread's CPISS is still to read: the thread waits for room in q4. -/
def State.cpissOf (s : State) (t : TRef) : Option (BRef × Nat × Word × Nat) :=
  (s.block (s.blkOf t)).qwait.findSome? fun w => match w.op with
    | .desc db off addr no => if w.who.contains t then some (db, off, addr, no) else none
    | _ => none

/-- A thread waits at an access to a range of a scratchpad that has not been performed: a full-empty operation, an act on an object, or the
read of a descriptor. With it the number of its issue. -/
def State.waitsIn (s : State) (b : BRef) (lo n : Nat) (x : TRef × Thread) : Option Nat :=
  let hit (br : BRef) (off m : Nat) : Bool := decide (br = b) && decide (off < lo + n) && decide (lo < off + m)
  let obj (o : SyncObj) : Option Nat := match o.loc with | .scr br off => if hit br off 16 then some o.no else none | _ => none
  match x.2.st with
  | .waiting (.access (.acq _ o)) => obj o
  | .waiting (.access (.rel _ o)) => obj o
  | .waiting .granule => ((s.block b).gwait.find? fun w => decide (w.who = x.1) && hit b w.off w.n).map GWait.no
  | .waiting (.queue 4) => (s.cpissOf x.1).bind fun d => if hit d.1 d.2.1 64 then some d.2.2.2 else none
  | _ => none

/-- A waiting CPISS leaves the queue of its block, and its thread takes BOUND for the descriptor. -/
def State.boundDesc (s : State) (t : TRef) (addr : Word) : State :=
  let s := s.modBlock (s.blkOf t) fun b => { b with qwait := b.qwait.filter fun w => !w.who.contains t }
  s.takeTrap t (boundAt (addr.setWidth 64) accRead) false

/-- Accesses to a range that a shrink excludes and that have not been performed are faulted, and so are waits on an object in it (R192,
R197; log 59). -/
def State.boundRange (s : State) (b : BRef) (lo n : Nat) : State :=
  let cut := (s.block b).gwait.filter fun w => decide (w.off < lo + n) && decide (lo < w.off + w.n)
  let s := s.modBlock b fun x => { x with gwait := x.gwait.filter fun w => !cut.contains w }
  let s := cut.foldl State.gBound s
  s.threads.foldl (fun s x =>
    let obj (o : SyncObj) : State := match o.loc with
      | .scr br off => if br = b ∧ off < lo + n ∧ lo < off + 16 then s.takeTrap x.1 (boundAt o.addr o.acc) false else s
      | _ => s
    match x.2.st with
    | .waiting (.access (.acq _ o)) => obj o
    | .waiting (.access (.rel _ o)) => obj o
    | .waiting (.object br off addr _ _) => obj ⟨.scr br off, addr.setWidth 64, accRead, 0⟩
    | .waiting (.queue 4) => match s.cpissOf x.1 with
      | some d => if d.1 = b ∧ d.2.1 < lo + n ∧ lo < d.2.1 + 64 then s.boundDesc x.1 d.2.2.1 else s
      | none => s
    | _ => s) s

/-- The orders of the CARVEs that wait on a core (R197). -/
def State.carveOrders (s : State) (c : Nat) : List Nat :=
  s.threads.filterMap fun x => match x.2.st with
    | .waiting (.access (.carve _ _ _ o _)) => if x.1.core = c then some o else none
    | _ => none

/-- A CARVE of issue `no` may be performed: those before it are, no engine command names a range it gives back, and no access to the
range that was issued before it is still to be performed (R196, R197). -/
def State.carveReady (s : State) (b : BRef) (want order no : Nat) : Bool :=
  let blk := s.block b
  let lo := blk.carveBase + 16384 * want
  !(s.core blk.core).swapped && (s.carveOrders blk.core).all (fun o => decide (order ≤ o)) &&
  (decide (blk.cways.length ≤ want) ||
    (!s.engineMeets b lo (blk.carveBase + 16384 * blk.cways.length) &&
      s.threads.all fun x => (s.waitsIn b lo (16384 * (blk.cways.length - want)) x).all fun k => decide (no ≤ k)))

/-- CARVE performed: the ways are taken or given back, and the status is delivered. -/
def State.carveNow (s : State) (t : TRef) (d : Nat) (n : Bool) (want : Nat) : State :=
  let b := s.blkOf t
  let blk := s.block b
  let cur := blk.cways.length
  let free := (cacheWays s blk.core).length
  let fail := decide (cur < want) && decide (free < want - cur + 4)
  let s :=
    if fail then s
    else if cur < want then s.carveMore b (want - cur)
    else if want < cur then
      let lo := blk.carveBase + 16384 * want
      let n := 16384 * (cur - want)
      ((s.settleRange b lo n).carveLess b want).boundRange b lo n
    else s
  s.modThread t fun th => th.deliver (res1 n d (s.carveWord b fail))

def execCarve (a : Code) (n : Bool) (d : Code) (s : State) : Answer :=
  issueEach (.carve a n d) s fun s t =>
    let want := ((s.thread t).word a.toNat).toNat
    let b := s.blkOf t
    if want + (s.block b).pways.length > 20 then (s, .trap { code := causeBOUND, addr := BitVec.ofNat 64 want })
    else
      let order := (s.carveOrders t.core).foldl (fun m o => max m (o + 1)) 0
      if s.defer ∨ !s.carveReady b want order s.issueNo then (s, .wait (.access (.carve d.toNat n want order s.issueNo)))
      else (s.carveNow t d.toNat n want, .go)

/-! ## ACCESS_PERFORMED -/

/-- The accesses that a waiting instruction awaits are performed, and it retires. -/
def State.syncDone (s : State) (t : TRef) (op : SyncOp) : State :=
  let pass (s : State) : State := if (s.thread t).st = .waiting (.access op) then s.modThread t Thread.passHeel else s
  match op with
  | .acq _ _ => s.finishSync t
  | .rel _ _ => s.finishSync t
  | .fence sc => pass (s.doFence t sc)
  | .tlbib all va => if s.tlbibReady t then pass (s.doTlbib t all va) else s
  | .carve d n want order no =>
    if s.carveReady (s.blkOf t) want order no then pass (s.carveNow t d n want) else s
  | .exit => if (s.thread t).sc.isSome then s else s.exitNow t

/-- ACCESS_PERFORMED: for thread `arg.t`, its accepted store number `arg.k` is performed (with `arg.flag`); else the instruction
that awaits accesses retires, or its SC operation reaches its home. -/
def execAccessPerformed (s : State) : Answer :=
  let t := s.arg.t
  let th := s.thread t
  if s.arg.flag then
    match th.stores[s.arg.k]? with
    | none => .next s
    | some x => .next (s.performNeeded fun y => decide (y.1 = t) && decide (y.2 = x))
  else match th.st with
    | .waiting (.access .exit) => .next (if th.sc.isSome then s.scArrive t else s.syncDone t .exit)
    | .waiting (.access op) =>
      let s1 := s.syncDone t op
      .next (if (s1.thread t).st = .waiting (.access op) then s1.scArrive t else s1)
    | _ => .next ((s.scArrive t).kneadLanded t)

end Sys2Proof.Machine
end

