-- ==== Sys2Proof/Machine/Hub.lean ====
section
/-! DEFINITION. The hub (spec 22 R366-R369, 13 R242, 12 R222, 22 R348): its accesses to memory, the notice ring, the register
block's writes, invalidations, SC epochs, and the links between dies. -/

namespace Sys2Proof.Machine

/-! ## Accesses of the hub to memory: at the home, at system scope (R363, R367, R379) -/

/-- One byte at its home: into the L2 line that is there, else into memory. -/
def hubByte (s : State) (pa : Nat) (v : Byte) : State :=
  let s := l2CmpDrop s (pa / 128) false
  match l2find s (pa / 128) with
  | some l => { s with l2 := linePut s.l2 { l with bytes := lput l.bytes ⟨pa % 128, v, true⟩ } }
  | none => { s with mem := cellSet s.mem pa v }

def hubBytes (s : State) : Nat → List Byte → State
  | _, [] => s
  | pa, v :: vs => hubBytes (hubByte s pa v) (pa + 1) vs

/-- A write of the hub at the home; watches on its lines fire. -/
def hubStore (s : State) (pa : Nat) (bs : List Byte) : State :=
  let s := hubBytes s pa bs
  let s := (linesOf pa bs.length).foldl (fun s ln => fireLine s ln false) s
  { s with poison := unpoison s.poison pa bs.length }

/-- A read of the hub at the home. -/
def hubRead (s : State) (pa n : Nat) : List Byte := homeBytes s pa n

/-- The cluster number by which the hub walks tables: no cluster cache has it. -/
def hubCluster : Nat := 128

/-- An access of the launch scheduler at a virtual address of a tenant (R140): the physical address, if translation and
permission allow it. A page of chunk records, a device register and an address that its partition does not have count as failed
(DEDUCED, log entry 61). -/
def hubXlate (s : State) (o : Own) (va n : Nat) (w : Bool) : Option Nat :=
  if 2 ^ 48 ≤ va then none
  else match walk s hubCluster o va with
    | .error _ => none
    | .ok e =>
      let pa := e.pbase + (va - e.vbase)
      let q : Need := { acc := 0, r := true, w := w, align := 1, noDev := true, cmpOk := false }
      if !(present s o.part pa && present s o.part (pa + n - 1)) || (permFail e q).isSome || e.cmp || inDevice pa then none else some pa

/-! ## Notices (R367) -/

def noTenant : Nat := 0xFF

/-- A notice to a partition: written into the ring when there is room, else counted as lost; the interrupt is raised. -/
def State.notice (s : State) (p code tenant a0 a1 : Nat) : State :=
  let q := s.partn p
  let cap := 2 ^ (q.nqbase.toNat / 2 % 8 + 7)
  let prod := q.nqprod.toNat
  let q := { q with irqs := q.irqs + 1 }
  if q.nqbase.getLsbD 0 ∧ (q.nqprod - q.nqcons).toNat < cap then
    let pa := q.nqbase.toNat / 4096 % 2 ^ 36 * 4096 + 32 * (prod % cap)
    let bs := leBytes 2 code ++ leBytes 1 p ++ leBytes 1 tenant ++ leBytes 4 prod ++ leBytes 8 a0 ++ leBytes 8 a1 ++ leBytes 8 s.clock
    let s := s.setPart p { q with nqprod := q.nqprod + 1 }
    if presentRange s p pa 32 then hubStore s pa bs else s
  else s.setPart p { q with nqlost := satAdd 65535 q.nqlost 1 }

/-- A notice to every partition. -/
def State.noticeAll (s : State) (code a0 a1 : Nat) : State :=
  s.parts.foldl (fun s x => s.notice x.1 code noTenant a0 a1) s

/-! ## Register writes (R366, R367, R369) -/

/-- The registers of a partition answer: the package has power and the hub is not in recovery (R366). -/
def State.regsAnswer (s : State) (p : Nat) : Bool := s.sec.powered && !s.sec.recovery && (tget s.parts p).isSome

/-- NQBASE: a write with EN resets the counts. -/
def execNqbase (s : State) : Answer :=
  let p := s.arg.part
  if !s.regsAnswer p then .next s
  else
    let v := s.arg.v &&& 0x0000_FFFF_FFFF_F00F#64
    .next (s.modPart p fun q => if v.getLsbD 0 then { q with nqbase := v, nqprod := 0, nqcons := 0 } else { q with nqbase := v })

/-- REGISTER_WRITE: NQCONS takes its value; every other register or address ignores the write. -/
def execRegisterWrite (s : State) : Answer :=
  let p := s.arg.part
  if s.regsAnswer p && decide (s.arg.off = 0x4010) then .next (s.modPart p fun q => { q with nqcons := s.arg.v.setWidth 32 })
  else if s.regsAnswer p && decide (s.arg.off = 0x3008) then .next (s.modPart p fun q => { q with ign := true })
  else .next s

/-! ## Invalidations (R368) -/

/-- An invalidation begins, or is ignored while another is under way. -/
def State.startInv (s : State) (p : Nat) (k : HubInv) : State :=
  s.modPart p fun q => if q.busy.isSome then { q with ign := true } else { q with busy := some k, ign := false }

/-- S2ROOT: the root, and an invalidation of the whole partition. -/
def execS2root (s : State) : Answer :=
  let p := s.arg.part
  let v := s.arg.v &&& 0x0000_FFFF_FFFF_F001#64
  if !s.regsAnswer p then .next s
  else if (s.partn p).busy.isSome then .next (s.modPart p fun q => { q with ign := true })
  else .next ((s.modPart p fun q => { q with s2root := v }).startInv p .all)

def execHubinvVa (s : State) : Answer :=
  let p := s.arg.part
  .next (if s.regsAnswer p then s.startInv p (.va s.arg.v.toNat s.arg.tenant) else s)

def execHubinvTenant (s : State) : Answer :=
  let p := s.arg.part
  .next (if s.regsAnswer p then s.startInv p (.tenant s.arg.tenant) else s)

def execHubinvIpa (s : State) : Answer :=
  let p := s.arg.part
  .next (if s.regsAnswer p then s.startInv p (.ipa s.arg.v.toNat) else s)

def execHubinvPartition (s : State) : Answer :=
  let p := s.arg.part
  .next (if s.regsAnswer p then s.startInv p .all else s)

/-- What an invalidation removes at every receiver of a partition. -/
def State.runInv (s : State) (p : Nat) (k : HubInv) : State :=
  let cores := s.coresOf p
  match k with
  | .va va tenant => invalidate s cores ⟨p, tenant⟩ false va
  | .tenant tenant => invalidate s cores ⟨p, tenant⟩ true 0
  | .ipa ipa =>
    let s := dropTlbs s cores fun e => decide (e.part = p) && e.s2used.any fun x => decide (x.1 ≤ ipa) && decide (ipa < x.1 + x.2)
    dropWalks s cores fun w => decide (w.part = p) && decide (w.stage = 1) && decide (w.high = levelHigh w.level ipa)
  | .all =>
    let s := dropTlbs s cores fun e => decide (e.part = p)
    dropWalks s cores fun w => decide (w.part = p)

/-- INVALIDATION_COMPLETE: every access that used a removed translation is performed, and BUSY clears. -/
def execInvalidationComplete (s : State) : Answer :=
  let p := s.arg.part
  match (s.partn p).busy with
  | none => .next s
  | some k => .next (((s.drainPart p).runInv p k).modPart p fun q => { q with busy := none })

/-! ## SC epochs (R242, R369) -/

def execScepoch (s : State) : Answer :=
  let p := s.arg.part
  .next (if s.regsAnswer p && s.arg.v.getLsbD 0 then s.modPart p fun q => { q with epochGo := true } else s)

/-- A thread with its SC clock at zero, and its watch with its tracker given up (R242, R262). -/
def Thread.newEpoch (th : Thread) : Thread :=
  { th with scClock := 0, watch := if th.watch.armed then { th.watch with spur := true, tracked := false } else th.watch }

/-- What is saved of a context, with the clocks of its threads at zero. -/
def SavedCore.newEpoch (x : SavedCore) : SavedCore :=
  { x with threads := x.threads.map fun y => (y.1, y.2.newEpoch), bins := x.bins.map (Bin.mapThreads Thread.newEpoch),
           released := x.released.map (Bin.mapThreads Thread.newEpoch) }

/-- Every core clock, thread clock, line stamp and slice floor of a partition becomes zero, also for the threads of its contexts that
are switched out; the lines of other partitions, in guest ways, keep theirs (R350). -/
def State.zeroEpoch (s : State) (p : Nat) : State :=
  let own (t : TRef) : Bool := decide (s.partOf t.core = p)
  let s := s.mapThreads fun t th => if own t then th.newEpoch else th
  let inCore (x : Nat × Core) : Nat × Core :=
    if s.partOf x.1 = p then
      (x.1, { x.2 with scK := 0, bins := x.2.bins.map (Bin.mapThreads Thread.newEpoch), released := x.2.released.map (Bin.mapThreads Thread.newEpoch),
                           out := x.2.out.map SavedCore.newEpoch })
    else x
  let line (l : CLine) : CLine := if l.part = p then { l with stamp := {} } else l
  let saved (x : SavedCore) : SavedCore := if x.part = p then x.newEpoch else x
  { s with cores := s.cores.map inCore, l2 := s.l2.map line, floors := s.floors.filter (fun f => decide (f.1.2.2 ≠ p)),
           shadow := s.shadow.map saved, parked := s.parked.map saved }

/-- EPOCH_CHANGE_COMPLETE: no SC operation of partition `arg.part` is in flight, but for those that wait for a clock; the clocks become
zero, those that waited take a timestamp, and issue resumes. -/
def execEpochChangeComplete (s : State) : Answer :=
  let p := s.arg.part
  let q := s.partn p
  let open_ := (s.threads.filter fun x => x.2.sc.isSome && decide (s.partOf x.1.core = p)).map Prod.fst
  if q.epochGo ∧ open_.all s.scStuck then
    let s := (open_.foldl State.scStamp (s.zeroEpoch p)).modPart p fun q => { q with epochGo := false, epochs := q.epochs + 1, scNotice := false }
    .next (s.notice p 12 noTenant (s.partn p).epochs.toNat 0)
  else .next s

/-- A clock of the partition that has reached 2^47, with its core number: a core's, or that of a line's stamp. -/
def State.highClock (s : State) (p : Nat) : Option Stamp :=
  match s.cores.find? fun x => decide (s.partOf x.1 = p) && decide (2 ^ 47 ≤ x.2.scK) with
  | some x => some ⟨x.2.scK, x.1⟩
  | none => (s.l2.find? fun l => decide (l.part = p) && decide (2 ^ 47 ≤ l.stamp.clk)).map CLine.stamp

/-- The clock notice: sent once in an epoch, when a core clock or a line stamp of the partition has reached 2^47 (R242). -/
def State.clockNotice (s : State) (p : Nat) : State :=
  if (s.partn p).scNotice then s
  else match s.highClock p with
    | none => s
    | some x => (s.modPart p fun q => { q with scNotice := true }).notice p 3 noTenant x.clk x.core

def State.clockNotices (s : State) : State := s.parts.foldl (fun s x => s.clockNotice x.1) s

/-! ## Links between dies (R347, R348) -/

/-- The two dies of an edge: six edges along x, then four along y. -/
def edgeDies (e : Nat) : Nat × Nat :=
  if e < 6 then let d := e / 3 * 4 + e % 3; (d, d + 1) else (e - 6, e - 2)

/-- A partition stops for good, with a fatal notice to its general-purpose cores (R348, R389). -/
def State.fatalStop (s : State) (p reason detail : Nat) : State :=
  (s.modPart p fun q => { q with halted := true, fatal := true }).notice p 10 noTenant reason detail

/-- FLIT_CRC_FAILURE: a flit on link `arg.n` of edge `arg.k` failed its CRC and is sent again; `arg.flag` says that it was
itself a retry. After 16 retries in a row the link goes out of service; with the last link of an edge, the partitions of
both dies stop, and the management endpoint has a fatal notice too. -/
def execFlitCrcFailure (s : State) : Answer :=
  let e := s.arg.k
  let l := s.arg.n
  if 10 ≤ e ∨ 16 ≤ l ∨ s.sec.deadLinks.contains (e, l) then .next s
  else
    let run := if s.arg.flag then (tget s.sec.retryRun (e, l)).getD 0 + 1 else 0
    let s := s.modSec fun x => { x with
      retryRun := tput x.retryRun (e, l) run, life := { x.life with retries := lset x.life.retries e (sat32 (x.life.retries.getD e 0) 1) } }
    if run < 16 then .next s
    else
      let s := s.modSec fun x => { x with
        deadLinks := x.deadLinks ++ [(e, l)],
        life := { x.life with outOfService := lset x.life.outOfService e (sat32 (x.life.outOfService.getD e 0) 1) } }
      if (s.sec.deadLinks.filter fun d => d.1 = e).length < 16 then .next s
      else
        let d := edgeDies e
        let hit := s.parts.filter fun x => x.2.dies.contains d.1 || x.2.dies.contains d.2
        .next (hit.foldl (fun s x => s.fatalStop x.1 1 e) { s with mgmt := s.mgmt ++ hit.map fun x => (e, x.1) })

end Sys2Proof.Machine
end

