-- ==== Sys2Proof/Machine/Launch.lean ====
section
/-! DEFINITION. The launch scheduler and the distributor (spec 07 R139-R147, 20 R344, 01 R31, R34): notifies, queue slots and
the pending list, taking and checking records, placing blocks, the end of a block and the completion of a launch. -/

namespace Sys2Proof.Machine

/-! ## Reading through the queue's tenant (R140) -/

/-- `n` bytes at a virtual address of a tenant, page by page. -/
def hubReadVa (s : State) (o : Own) : Nat → Nat → Nat → Option (List Byte)
  | _, _, 0 => some []
  | 0, _, _ + 1 => none
  | fuel + 1, va, n =>
    let k := min n (4096 - va % 4096)
    match hubXlate s o va k false with
    | none => none
    | some pa => (hubReadVa s o fuel (va + k) (n - k)).map fun r => hubRead s pa k ++ r

/-- Bytes written at a virtual address within one page; without W they are not written. -/
def hubWriteVa (s : State) (o : Own) (va : Nat) (bs : List Byte) : State :=
  match hubXlate s o va bs.length true with
  | none => s
  | some pa => hubStore s pa bs

/-- The tenant is the current context of its partition (R140). -/
def State.isCurrent (s : State) (o : Own) : Bool :=
  match (s.partn o.part).cur with | none => false | some c => decide (c.tenant = o.tenant)

/-- An acquire of the scheduler at system scope: the lines of a partition's host memory leave the home L2 (R140, R210). -/
def State.acquireHost (s : State) (p : Nat) : State :=
  ((s.l2.map CLine.line).filter fun ln => hostLine ln && present s p (ln * 128)).foldl l2Evict s

/-! ## The header (R139, R141) -/

/-- The fields of a queue header. -/
structure Header where
  base : Nat
  size : Nat
  prio : Nat
  nopre : Bool
  serial : Bool
  qerr : Bool
  head : Nat
  tail : Nat
  malformed : Bool
  deriving DecidableEq, Repr

def Header.of (bs : List Byte) : Header :=
  let b8 := field bs 8 1
  let b9 := field bs 9 1
  let b10 := field bs 10 1
  { base := field bs 0 8, size := b8 % 32, prio := b9 % 8, nopre := b10.testBit 0, serial := b10.testBit 1,
    qerr := (field bs 11 1).testBit 0, head := field bs 16 4, tail := field bs 20 4,
    malformed := decide (16 < b8 % 32) || decide (field bs 0 8 % 256 ≠ 0) || decide (b8 / 32 ≠ 0) || decide (b9 / 8 ≠ 0) || decide (b10 / 4 ≠ 0) }

/-- The header at an address, when it can be read and written. -/
def State.header (s : State) (o : Own) (hdr : Nat) : Option Header :=
  (hubXlate s o hdr 64 true).map fun pa => Header.of (hubRead s pa 64)

/-- More records than the ring holds. -/
def overfull (size head tail : Nat) : Bool := decide (2 ^ size < (tail + 2 ^ 32 - head) % 2 ^ 32)

/-- A queue is stopped: QERR is set, its slot is freed, and the partition is told (R141). Records taken run on. -/
def State.stopQueue (s : State) (o : Own) (hdr : Nat) : State :=
  let old := match hubXlate s o (hdr + 11) 1 true with | none => 0 | some pa => field (hubRead s pa 1) 0 1
  let s := hubWriteVa s o (hdr + 11) (leBytes 1 (if old % 2 = 1 then old else old + 1))
  let s : State := { s with slots := s.slots.filter fun x => !(decide (x.2.part = o.part) && decide (x.2.tenant = o.tenant) && decide (x.2.hdr = hdr)) }
  s.notice o.part 1 o.tenant hdr 0

/-! ## Slots and the pending list (R140, R344) -/

/-- The slot that holds a queue. -/
def State.slotOf (s : State) (o : Own) (hdr : Nat) : Option Nat :=
  (s.slots.find? fun x => decide (x.2.part = o.part) && decide (x.2.tenant = o.tenant) && decide (x.2.hdr = hdr)).map Prod.fst

def State.freeSlot (s : State) : Option Nat := firstFrom (fun k => (tget s.slots k).isNone) 256 0

/-- The records that stand between two indices of a ring. -/
def ringCount (head tail : Nat) : Nat := (tail + 2 ^ 32 - head) % 2 ^ 32

/-- `n` records of a ring from index `i` on, read through the tenant's tables; none when one of them cannot be read (R140). -/
def State.readRecords (s : State) (o : Own) (base lsize : Nat) : Nat → Nat → Option (List (List Byte))
  | _, 0 => some []
  | i, n + 1 => match hubReadVa s o 1 (base + 256 * (i % 2 ^ lsize)) 256, s.readRecords o base lsize (i + 1) n with
    | some b, some bs => some (b :: bs)
    | _, _ => none

/-- The records of a queue that a header describes. -/
def State.headerRecords (s : State) (o : Own) (h : Header) : Option (List (List Byte)) :=
  s.readRecords o h.base h.size h.head (ringCount h.head h.tail)

/-- A queue mapped to a slot, with the records read. -/
def State.mapTo (s : State) (k : Nat) (o : Own) (hdr : Nat) (h : Header) (rs : List (List Byte)) : State :=
  { s with slots := tput s.slots k { part := o.part, tenant := o.tenant, hdr := hdr, base := h.base, lsize := h.size, prio := h.prio, nopre := h.nopre, serial := h.serial, head := h.head, tail := h.tail, mappedAt := s.clock, recs := rs } }

/-- A queue goes onto the pending list, once; a full list drops it with a notice. -/
def State.pend (s : State) (o : Own) (hdr : Nat) : State :=
  let q : PendQ := ⟨o.part, o.tenant, hdr⟩
  if s.pending.contains q then s
  else if 4096 ≤ s.pending.length then s.notice o.part 5 o.tenant hdr 0
  else { s with pending := s.pending ++ [q] }

def State.unpend (s : State) (o : Own) (hdr : Nat) : State := { s with pending := s.pending.filter (· ≠ ⟨o.part, o.tenant, hdr⟩) }

/-- The slot to take from its queue: NOPRE = 0, priority at most `prio`, the lowest, and mapped longest (R344). -/
def State.victim (s : State) (prio : Nat) : Option (Nat × QSlot) :=
  (sortBy (fun x => x.2.prio) (sortBy (fun x => x.2.mappedAt) (s.slots.filter fun x => !x.2.nopre && decide (x.2.prio ≤ prio)))).head?

/-- A queue leaves its slot for the pending list; its record that is not placed waits for the remap with the others. -/
def State.evictQueue (s : State) (k : Nat) (q : QSlot) : State :=
  let s : State := { s with slots := tdel s.slots k, launches := match q.cand with | none => s.launches | some l => tdel s.launches l }
  s.pend ⟨q.part, q.tenant⟩ q.hdr

/-- A notify that the scheduler acts on: the queue's tenant is current (R140, R344). It reads the header and the records up to
tail as an acquire at system scope; a record that cannot be read stops the queue (log entry 28). -/
def State.accept (s : State) (o : Own) (hdr : Nat) : State :=
  let s := s.acquireHost o.part
  let u := s.unpend o hdr
  match s.header o hdr with
  | none => u.notice o.part 1 o.tenant hdr 0
  | some h =>
    if h.qerr then u
    else match s.slotOf o hdr with
      | some k =>
        match tget s.slots k with
        | none => u
        | some q =>
          if overfull q.lsize q.head h.tail then u.stopQueue o hdr
          else
            let known := q.recs.take (ringCount q.head h.tail)
            match s.readRecords o q.base q.lsize (q.head + known.length) (ringCount q.head h.tail - known.length) with
            | none => u.stopQueue o hdr
            | some rs => { u with slots := tput u.slots k { q with tail := h.tail, recs := known ++ rs } }
      | none =>
        if h.malformed || overfull h.size h.head h.tail then u.stopQueue o hdr
        else match s.headerRecords o h with
          | none => u.stopQueue o hdr
          | some rs =>
            match s.freeSlot with
            | some k => u.mapTo k o hdr h rs
            | none =>
              match s.victim h.prio with
              | some (k, q) =>
                if 4096 ≤ u.pending.length then u.notice o.part 5 o.tenant hdr 0
                else (u.evictQueue k q).mapTo k o hdr h rs
              | none =>
                let s := s.pend o hdr
                if s.slots.all fun x => x.2.nopre then s.notice o.part 4 o.tenant hdr 0 else s

/-- A notify (R140). -/
def State.notify (s : State) (o : Own) (hdr : Nat) : State := if s.isCurrent o then s.accept o hdr else s.pend o hdr

/-- LQN: a write of `arg.v` to the notify register of partition `arg.part`, by a thread of tenant `arg.writer` or from outside. -/
def execLqn (s : State) : Answer :=
  let p := s.arg.part
  let tenant := match s.arg.writer with | some t => t | none => (s.arg.v.extractLsb' 0 6).toNat
  let hdr := (s.arg.v.extractLsb' 6 42).toNat * 64
  .next (if s.regsAnswer p then s.notify ⟨p, tenant⟩ hdr else s)

/-- The pending queues of a tenant are considered when its context becomes current, in the order of their notifies. -/
def State.wakePending (s : State) (o : Own) : State :=
  (s.pending.filter fun q => decide (q.part = o.part) && decide (q.tenant = o.tenant)).foldl (fun s q => s.accept o q.hdr) s

/-- Launches of a queue that are placed and have not completed. -/
def State.liveOf (s : State) (part tenant hdr : Nat) : List Nat :=
  (s.launches.filter fun x => x.2.placed && decide (x.2.part = part) && decide (x.2.tenant = tenant) && decide (x.2.hdr = hdr)).map Prod.fst

/-- A pending queue that a freed slot may take, with its header. -/
def State.pendingHeader (s : State) (q : PendQ) : Option Header :=
  if s.isCurrent ⟨q.part, q.tenant⟩ then s.header ⟨q.part, q.tenant⟩ q.hdr else none

/-- A free slot takes the pending queue of the highest priority, the earliest notified first (R344). -/
def State.refill (s : State) (k : Nat) : State :=
  let s := ((s.pending.filter fun q => s.isCurrent ⟨q.part, q.tenant⟩).map PendQ.part).eraseDups.foldl State.acquireHost s
  -- queues whose header fails now are dropped or stopped, as when a notify is acted on
  let bad := s.pending.filter fun q => s.isCurrent ⟨q.part, q.tenant⟩ &&
    (match s.pendingHeader q with
     | none => true
     | some h => h.qerr || h.malformed || overfull h.size h.head h.tail || (s.slotOf ⟨q.part, q.tenant⟩ q.hdr).isSome ||
         (s.headerRecords ⟨q.part, q.tenant⟩ h).isNone)
  let s := bad.foldl (fun s q => s.accept ⟨q.part, q.tenant⟩ q.hdr) s
  let ready := s.pending.filterMap fun q => (s.pendingHeader q).map fun h => (q, h)
  match sortBy (fun x => 7 - x.2.prio) ready with
  | [] => s
  | (q, h) :: _ =>
    if (tget s.slots k).isSome then s
    else (s.unpend ⟨q.part, q.tenant⟩ q.hdr).mapTo k ⟨q.part, q.tenant⟩ q.hdr h ((s.headerRecords ⟨q.part, q.tenant⟩ h).getD [])

/-- SLOT_FREE: slot `arg.k` frees when its queue is empty and each record taken from it has completed or been rejected; a
free slot takes a pending queue. -/
def execSlotFree (s : State) : Answer :=
  let k := s.arg.k
  if 256 ≤ k then .next s
  else match tget s.slots k with
    | none => .next (s.refill k)
    | some q =>
      if q.head = q.tail ∧ q.cand = none ∧ (s.liveOf q.part q.tenant q.hdr).isEmpty then
        .next (({ s with slots := tdel s.slots k } : State).refill k)
      else .next s

/-! ## The record (R142, R143, R358) -/

/-- The default tree of a launch of `n` blocks. -/
def defaultTree (n : Nat) : Tree :=
  { parents := (List.range n).map fun i => if i = 0 then none else some (i &&& (i - 1)), deliv := false, timeout := 0 }

/-- From a contributor the parents lead to the root within `fuel` steps. -/
def reachesRoot (ps : List (Option Nat)) : Nat → Nat → Bool
  | 0, i => ps.getD i (some 0) = none
  | fuel + 1, i => match ps.getD i (some i) with | none => true | some j => reachesRoot ps fuel j

/-- The tree of a descriptor for `n` contributors, or none when it is malformed (R358). -/
def treeOf (bs : List Byte) (n : Nat) : Option Tree :=
  let raw := (List.range n).map fun i => field bs (16 + 2 * i) 2
  let ps := raw.map fun v => if v = 0xFFFF then none else some v
  let shape := (ps.filter Option.isNone).length = 1 ∧ (raw.all fun v => decide (v = 0xFFFF ∨ v < n)) = true ∧
    ((List.range n).all fun i => reachesRoot ps n i) = true
  if field bs 0 2 = n ∧ field bs 2 1 < 2 ∧ field bs 3 1 = 0 ∧ field bs 8 8 = 0 ∧ shape then
    some { parents := ps, deliv := field bs 2 1 = 1, timeout := field bs 4 4 }
  else none

/-- The warps, registers and placement ways that a block of a launch needs (R147). -/
def LRec.total (r : LRec) : Nat := r.warps.foldl (· + ·) 0
def LRec.regs (r : LRec) : Nat := (r.warps.zip r.budgets).foldl (fun n x => n + x.1 * x.2) 0 + r.lbudget
def LRec.ways (r : LRec) : Nat := (r.scratch + 1024 * r.reserve + 16383) / 16384

def LRec.of (bs : List Byte) : LRec :=
  let d (off : Nat) : Dword := BitVec.ofNat 64 (field bs off 8)
  { entry := d 0, args := d 8, handler := d 16, lw := field bs 24 1 % 8, lh := field bs 25 1 % 8, fixed := (field bs 26 1).testBit 0,
    nomig := (field bs 26 1).testBit 1, ox := field bs 28 1, oy := field bs 29 1,
    warps := (List.range 4).map fun i => field bs (32 + i) 1, budgets := (List.range 4).map fun i => field bs (36 + i) 1,
    roles := (List.range 3).map fun i => BitVec.ofNat 32 (field bs (40 + 4 * i) 4), scratch := field bs 52 4,
    reserve := field bs 56 1, lbudget := field bs 57 1, lentry := BitVec.ofNat 32 (field bs 60 4),
    transforms := (List.range 4).map fun i => d (64 + 8 * i), tree := d 96, completion := d 104,
    waits := (List.range 4).map fun i => (d (112 + 16 * i), d (120 + 16 * i)) }

/-- The bytes of a record that are reserved. -/
def reservedBytes : List Nat := [27, 30, 31, 58, 59] ++ List.range' 176 72 ++ List.range' 250 6

/-- The start address of a role: the entry, with the offset of copy, matrix or epilogue. -/
def LRec.roleEntry (r : LRec) (role : Nat) : Dword :=
  if role = 0 then r.entry else r.entry + (r.roles.getD (role - 1) 0).signExtend 64
def LRec.leavenEntry (r : LRec) : Dword := r.entry + r.lentry.signExtend 64

/-- A rectangle lies wholly on active rows of the dies of a partition (R10, R146). -/
def State.onPart (s : State) (p w h x y : Nat) : Bool :=
  decide (x + w ≤ 64) && decide (y + h ≤ 32) &&
  (List.range h).all fun b => (List.range w).all fun a =>
    let c := 64 * (y + b) + x + a
    s.coreActive c && (s.partn p).dies.contains (dieOf c)

/-- The aligned origins of a size in a partition, in increasing y and then x (R146, R147). -/
def State.origins (s : State) (p w h : Nat) : List (Nat × Nat) :=
  ((List.range (32 / h)).flatMap fun j => (List.range (64 / w)).map fun i => (i * w, j * h)).filter fun o => s.onPart p w h o.1 o.2

/-- An address that a record names: aligned to 16, below 2^48, and readable (written too, for the completion object). -/
def addrBad (s : State) (o : Own) (a : Dword) (w : Bool) : Bool :=
  decide (a.toNat % 16 ≠ 0) || decide (2 ^ 48 ≤ a.toNat) || (a ≠ 0 && (hubXlate s o a.toNat 16 w).isNone)

/-- The lowest reason to reject a record, 0 for none, and its tree (R143). -/
def checkRecord (s : State) (o : Own) (bs : List Byte) : Nat × Tree :=
  let r := LRec.of bs
  let w := 2 ^ r.lw
  let h := 2 ^ r.lh
  let tree : Option (List Byte) := hubReadVa s o 4 r.tree.toNat (16 + 2 * (w * h))
  let odd (d : Dword) : Bool := d.getLsbD 0
  let bad1 := odd r.entry || decide (2 ^ 48 ≤ r.entry.toNat) || (List.range 4).any (fun i => odd (r.roleEntry i)) || odd r.leavenEntry
  let bad2 := decide (6 < r.lw) || decide (5 < r.lh) ||
    (if r.fixed then decide (r.ox % w ≠ 0) || decide (r.oy % h ≠ 0) || !s.onPart o.part w h r.ox r.oy else (s.origins o.part w h).isEmpty)
  let bad3 := decide (r.total = 0) || decide (48 < r.total)
  let bad4 := ((r.warps.zip r.budgets).any fun x => decide (0 < x.1) && (decide (x.2 % 4 ≠ 0) || decide (x.2 < 8) || decide (124 < x.2))) ||
    decide (2048 < r.regs)
  let bad5 := decide (r.scratch % 1024 ≠ 0) || decide (327680 < r.scratch + 1024 * r.reserve) || decide (r.total < r.reserve)
  let bad6 := (decide (r.lbudget ≠ 0) && (decide (r.lbudget % 4 ≠ 0) || decide (r.lbudget < 8) || decide (32 < r.lbudget))) ||
    (decide (r.lbudget = 0) && decide (r.lentry ≠ 0))
  let bad7 := addrBad s o r.tree false || addrBad s o r.completion true || (r.waits.any fun x => addrBad s o x.1 false) ||
    (r.tree ≠ 0 && tree.isNone)
  let bad8 := reservedBytes.any fun i => decide (field bs i 1 ≠ 0)
  let t : Option Tree := if r.tree = 0 then some (defaultTree (w * h)) else (tree.bind fun b => treeOf b (w * h))
  let reason :=
    if bad1 then 1 else if bad2 then 2 else if bad3 then 3 else if bad4 then 4 else if bad5 then 5 else if bad6 then 6
    else if bad7 then 7 else if bad8 then 8 else if t.isNone then 9 else 0
  (reason, t.getD (defaultTree 1))

/-- The head of a queue's header advances by one record. -/
def State.advanceHead (s : State) (o : Own) (hdr head : Nat) : State :=
  let h := (head + 1) % 2 ^ 32
  let s := hubWriteVa s o (hdr + 16) (leBytes 4 h)
  match s.slotOf o hdr with
  | none => s
  | some k => match tget s.slots k with
    | none => s
    | some q => { s with slots := tput s.slots k { q with head := h, cand := none, recs := q.recs.drop 1 } }

/-- TAKE_RECORD: the record at the head of slot `arg.k`'s queue, as it was read, is checked. -/
def execTakeRecord (s : State) : Answer :=
  match tget s.slots s.arg.k with
  | none => .next s
  | some q =>
    let o : Own := ⟨q.part, q.tenant⟩
    -- a record taken before its queue was stopped stands until it is placed
    let taken := s.launches.any fun x => !x.2.placed && decide (x.2.part = q.part) && decide (x.2.tenant = q.tenant) && decide (x.2.hdr = q.hdr)
    if taken ∨ !s.isCurrent o then .next s
    else
      let va := q.base + 256 * (q.head % 2 ^ q.lsize)
      match q.recs with
      | [] => .next s
      | bs :: _ =>
        let r := checkRecord s o bs
        if r.1 = 0 then
          let l : Launch := { part := q.part, tenant := q.tenant, slot := s.arg.k, hdr := q.hdr, recVa := va, prio := q.prio, serial := q.serial, lrec := LRec.of bs, tree := r.2 }
          .next { s with launches := tput s.launches s.nextLaunch l, nextLaunch := s.nextLaunch + 1, slots := tput s.slots s.arg.k { q with cand := some s.nextLaunch } }
        else
          let s := (hubWriteVa s o (va + 248) (leBytes 2 (3 + 256 * r.1))).advanceHead o q.hdr q.head
          .next (s.notice q.part 2 q.tenant va r.1)

/-! ## Offering and placing (R144, R145, R147) -/

/-- A wait is met: the count at its address is at or above its target. -/
def State.waitMet (s : State) (o : Own) (x : Dword × Dword) : Bool :=
  x.1 = 0 || (match hubReadVa s o 2 x.1.toNat 8 with | none => false | some bs => decide (x.2.toNat ≤ field bs 0 8))

/-- A partition on which blocks may be placed for a tenant: its context is current and no stop is under way (R336, R356). -/
def State.placing (s : State) (o : Own) : Bool :=
  s.isCurrent o && !(s.partn o.part).halted && decide ((s.partn o.part).switch = .idle) && decide (s.powerStep < 4)

/-- A candidate is eligible (R145). -/
def State.eligible (s : State) (l : Launch) : Bool :=
  !l.placed && s.placing ⟨l.part, l.tenant⟩ && l.lrec.waits.all (s.waitMet ⟨l.part, l.tenant⟩) &&
  (!l.serial || (s.liveOf l.part l.tenant l.hdr).isEmpty)

/-- It has gone unplaced for 65 536 cycles. -/
def Launch.old (l : Launch) (now : Nat) : Bool :=
  l.starving || (match l.offeredAt with | none => false | some t => decide (t + 65536 ≤ now))

/-- The priority below which nothing is placed: the highest of the records that have gone unplaced too long (R145). -/
def State.floorPrio (s : State) : Nat :=
  (s.launches.filter fun x => !x.2.placed && x.2.old s.clock).foldl (fun m x => max m x.2.prio) 0

/-- The candidates in the order of offering: by priority, then by slot number, from the one after the slot last placed at that priority
(R145; where a round robin stands is a DESIGN CHOICE, log entry 54). -/
def State.candidates (s : State) : List (Nat × Launch) :=
  let all := s.launches.filter fun x => s.eligible x.2
  let floor := s.floorPrio
  let rr (l : Launch) : Nat := (l.slot + 256 - (tget s.rr l.prio).getD 0) % 256
  sortBy (fun x => 7 - x.2.prio) (sortBy (fun x => rr x.2) (all.filter fun x => decide (floor ≤ x.2.prio)))

/-- A block of a launch fits a core (R147). -/
def State.fitsCore (s : State) (r : LRec) (c : Nat) : Bool :=
  decide (r.total ≤ (s.freeSlots c).length) && decide (s.regsUsed c + r.regs ≤ 2048) && decide ((scrWays s c).length + r.ways ≤ 20)

/-- The cores of a rectangle, by block index. -/
def rectCores (w h x y : Nat) : List Nat := (List.range (w * h)).map fun i => 64 * (y + i / w) + x + i % w

/-- The first origin at which the block fits every core of the rectangle. -/
def State.originFor (s : State) (l : Launch) : Option (Nat × Nat) :=
  let w := 2 ^ l.lrec.lw
  let h := 2 ^ l.lrec.lh
  let tries := if l.lrec.fixed then [(l.lrec.ox, l.lrec.oy)] else s.origins l.part w h
  tries.find? fun o => (rectCores w h o.1 o.2).all (s.fitsCore l.lrec)

/-- The roles of the warps of a block, in order. -/
def LRec.roleList (r : LRec) : List Nat := r.warps.zipIdx.flatMap fun x => List.replicate x.1 x.2

/-- A thread at its start (R31). Bit 0 of the record's handler is cleared, since a PC has none (R28), and its bits [63:48] stay, so
that a trap to such a handler fails in its fetch (DEDUCED, log entry 65). -/
def LRec.thread (r : LRec) (role tid : Nat) (st : TState) : Thread :=
  { tid := tid, budget := r.budgets.getD role 0, pc := r.roleEntry role, xvec := r.handler &&& ~~~1#64, st := st }

/-- The k registers of a warp at its start (R31). -/
def LRec.kregs (r : LRec) : Vector Word 64 :=
  (((Vector.replicate 64 (0 : Word)).setIfInBounds 0 (loWord r.args)).setIfInBounds 1 (hiWord r.args)).setIfInBounds 63 0xFFFF_FFFF

/-- One warp of a block placed in a slot with its 32 threads. -/
def State.placeWarp (s : State) (r : LRec) (br : BRef) (c sl role i : Nat) (st : TState) : State :=
  let s := (s.clearSlot c sl).setWarp c sl { blk := br, role := role, k := r.kregs }
  (List.range 32).foldl (fun s lane => s.setThread ⟨c, sl, lane⟩ (r.thread role (32 * i + lane) st)) s

/-- A block placed on a core: ways taken from the cache, slots, warps and threads; the instruction cache is invalidated
(R211) and the core counts reference cycles for the context (R332). -/
def State.placeBlock (s : State) (id : Nat) (l : Launch) (i c : Nat) : State :=
  let r := l.lrec
  let w := 2 ^ r.lw
  let br : BRef := ⟨id, i⟩
  let ways := (cacheWays s c).take r.ways
  let slots := (s.freeSlots c).take r.total
  let sift := (List.range 4).filter fun k => r.transforms.getD k 0 ≠ 0
  let s := s.dropWays c ways
  let blk : Block := {
    part := l.part, tenant := l.tenant, core := c, cx := i % w, cy := i / w, rw := w, rh := 2 ^ r.lh, slots := slots, nwarps := r.total,
    budgets := r.budgets, leavenBudget := r.lbudget, leavenEntry := r.leavenEntry, handler := r.handler, scratch := r.scratch,
    reserve := r.reserve, pways := ways, bars := List.replicate 16 { x := r.total }, sift := sift }
  let s := s.setBlock br blk
  let st : TState := if sift.isEmpty then .ready else .waiting .sifter
  let s := ((slots.zip r.roleList).zipIdx).foldl (fun s x => s.placeWarp r br c x.1.1 x.1.2 x.2 st) s
  let key := (l.part, l.tenant)
  let count (x : Core) : List ((Nat × Nat) × Nat) := if (tget x.clkrd key).isSome then x.clkrd else x.clkrd ++ [(key, 0)]
  s.modCore c fun x => { x with icache := [], clkrd := count x }

/-- A launch placed at an origin (R144, R145, R147). -/
def State.place (s : State) (id : Nat) (l : Launch) (x y : Nat) : State :=
  let w := 2 ^ l.lrec.lw
  let h := 2 ^ l.lrec.lh
  let o : Own := ⟨l.part, l.tenant⟩
  let cores := rectCores w h x y
  let s := if l.lrec.waits.any fun x => x.1 ≠ 0 then cores.foldl (fun s c => s.fenceCaches c 6) s else s
  let s := s.setLaunch id { l with placed := true, x0 := x, y0 := y, blocksLeft := w * h }
  let s := cores.zipIdx.foldl (fun s c => s.placeBlock id l c.2 c.1) s
  let head := match s.header o l.hdr with
    | some h => h.head
    | none => 0
  let head := match (s.slotOf o l.hdr).bind fun k => tget s.slots k with | some q => q.head | none => head
  let s := (hubWriteVa s o (l.recVa + 248) (leBytes 1 1)).advanceHead o l.hdr head
  { s with rr := tput s.rr l.prio ((l.slot + 1) % 256) }

/-- OFFER_CANDIDATE: the candidates are offered in turn; the first that fits is placed. -/
def State.offer : List (Nat × Launch) → State → State
  | [], s => s
  | (id, l) :: rest, s =>
    match s.originFor l with
    | some o => s.place id l o.1 o.2
    | none => (s.modLaunch id fun x => { x with offeredAt := some (x.offeredAt.getD s.clock) }).offer rest

def execOfferCandidate (s : State) : Answer := .next (s.offer s.candidates)

/-- RECORD_STARVATION: launch `arg.k` has gone unplaced for 65 536 cycles since it was first offered. -/
def execRecordStarvation (s : State) : Answer :=
  .next (s.modLaunch s.arg.k fun l => if !l.placed && l.old s.clock then { l with starving := true } else l)

/-! ## The end of a block and of a launch (R34, R144, R392) -/

/-- Every thread of a block is Exited or Halted, and every command it issued has completed. -/
def State.blockDone (s : State) (b : BRef) : Bool :=
  let blk := s.block b
  let c := s.core blk.core
  let mine (x : Bin) : Bool := decide (x.blk = b)
  (s.threads.all fun x => x.2.leaven || s.blkOf x.1 ≠ b || !x.2.live) && !(c.bins.any mine) && !(c.released.any mine) &&
  !(c.copies.any fun r => r.blk = b) && !(c.runs.any fun r => r.blk = b) && blk.q0.isEmpty && blk.q4.isEmpty && blk.q6.isEmpty && blk.sift.isEmpty

/-- An accumulator buffer that a block held is zeroed. -/
def AccBuf.freeOf (b : BRef) (a : AccBuf) : AccBuf := if a.held = some b then {} else a

/-- What still waits at the scratchpad of a block that has ended finds no block there: an LDFE, STFE or WAITPH of a peer takes BOUND, and
a matrix command has a memory error (R193, R319). -/
def State.orphan (s : State) (b : BRef) (waits : List GWait) : State :=
  let run (r : MxRun) : MxRun := match r.wait with | .on x _ _ => if x = b then { r with wait := .gone } else r | _ => r
  let inCore (c : Core) : Core := if c.runs.isEmpty then c else { c with runs := c.runs.map run }
  let s : State := { s with cores := s.cores.map fun (x : Nat × Core) => (x.1, inCore x.2) }
  let s := waits.foldl (fun s w => if ((s.thread? w.who).map Thread.st) = some (.waiting .granule) then s.gBound w else s) s
  s.threads.foldl (fun s x =>
    match x.2.st with
    | .waiting (.object ob _ addr _ _) => if ob = b then s.takeTrap x.1 (boundAt (addr.setWidth 64) accRead) false else s
    | _ => s) s

/-- Accesses that threads of other blocks have issued to the scratchpad of a block that ends have arrived before (R193), and are performed.
What a block held on its core goes: its warps with their threads, leaven contexts, buffers and ways; the ways return to the
cache (R34, R199, R203). -/
def State.removeBlock (s : State) (b : BRef) : State :=
  let c := (s.block b).core
  let turn := s.turnAfter c b
  let waits := (s.block b).gwait.filter fun w => decide (s.blkOf w.who ≠ b)
  let slots := (s.warps.filter fun x => x.2.blk = b).map Prod.fst
  let s := s.threads.foldl (fun s x => if s.blkOf x.1 = b then (s.flushAll x.1).unplace x.1 else s) (s.settleRange b 0 (2 ^ 20))
  let s := { s with threads := s.threads.filter (fun x => !slots.contains (x.1.core, x.1.slot)), warps := s.warps.filter fun x => x.2.blk ≠ b }
  let s := s.modCore c fun x => { x with
    acc0 := x.acc0.freeOf b, acc1 := x.acc1.freeOf b, turnC := turn x.turnC, turnM := turn x.turnM, turnR := turn x.turnR }
  ((({ s with blocks := tdel s.blocks b } : State)).pruneStops).orphan b waits

/-- Every write of a core goes outward as far as the system (R144). -/
def State.releaseCore (s : State) (c : Nat) : State := (s.heldLines c 6).foldl (fun s ln => s.releaseLine c 6 ln) s

/-- A launch completes: its writes are visible at system scope, its completion object is raised at its home, status 2 is
written, and its reductions are discarded with it (R144, R392). An object whose translation or permission fails by now, though it
passed when the record was taken, is not raised (DESIGN CHOICE, log entry 62). -/
def State.complete (s : State) (id : Nat) (l : Launch) : State :=
  let o : Own := ⟨l.part, l.tenant⟩
  let s := (rectCores (2 ^ l.lrec.lw) (2 ^ l.lrec.lh) l.x0 l.y0).foldl (fun s c => s.releaseCore c) s
  let s := if l.lrec.completion = 0 then s
    else match hubXlate s o l.lrec.completion.toNat 8 true with
      | none => s
      | some pa => hubStore s pa (leBytes 8 (leValue (hubRead s pa 8) + 1))
  let s := hubWriteVa s o (l.recVa + 248) (leBytes 1 2)
  { s with launches := tdel s.launches id }

/-- BLOCK_END: block `arg.blk` ends. -/
def execBlockEnd (s : State) : Answer :=
  let b := s.arg.blk
  match s.block? b, s.launch? b.launch with
  | some _, some l =>
    if s.blockDone b && !(s.block b).benched then
      let s := (s.removeBlock b).modLaunch b.launch fun x => { x with blocksLeft := x.blocksLeft - 1 }
      .next (if l.blocksLeft ≤ 1 then s.complete b.launch l else s)
    else .next s
  | _, _ => .next s

end Sys2Proof.Machine
end

