-- ==== Sys2Proof/Machine/Leaven.lean ====
section
/-! DEFINITION. Leaven contexts (spec 07 R154, R155): the spawn and the end after 4096 cycles. The events that end a leaven
thread stand where instructions issue (Operands) and where a thread traps or halts (Ops). -/

namespace Sys2Proof.Machine

/-- The thread waits for a pending destination group of LD.G, GATH, LD.S or GATH.S: one that must land before it is Ready, or one that
holds it back from its next loaf (R49, R154; log 43). -/
def State.waitsForLoad (s : State) (t : TRef) (th : Thread) : Bool :=
  decide (th.st = .waiting .outs) && th.outs.any fun o => o.ld && o.named &&
    (o.must || (outsReady th.outs && s.heldBack t { th with outs := [o] }))

/-- A register of a pending destination group. -/
def Thread.pendingReg (th : Thread) (r : Nat) : Bool := th.outs.any fun o => decide (o.base ≤ r) && decide (r < o.base + o.n)

/-- The leaven thread of a lane: registers g0 to g(L-1), pending ones zero, and the predicates (R154). -/
def Thread.toLeaven (th : Thread) (l : Nat) (entry : Dword) : Thread :=
  let start : Thread := { tid := th.tid, budget := l, leaven := true, p1 := th.p1, p2 := th.p2, p3 := th.p3, pc := entry }
  (List.range l).foldl (fun (x : Thread) r => if th.pendingReg r then x else x.setG r (th.rd r)) start

/-- A leaven context spawned for the warp of a thread, in a slot. -/
def State.spawn (s : State) (t : TRef) (sl : Nat) : State :=
  let w := s.warp t.core t.slot
  let blk := s.block w.blk
  let lanes := (s.warpThreads t.core t.slot).filter fun x => x.2.live
  let s := (s.clearSlot t.core sl).setWarp t.core sl { blk := w.blk, role := w.role, k := w.k, leaven := some (s.clock, t) }
  lanes.foldl (fun s x => s.setThread ⟨t.core, sl, x.1.lane⟩ (x.2.toLeaven blk.leavenBudget blk.leavenEntry)) s

/-- LEAVEN_SPAWN: thread `arg.t` has waited 256 cycles for a load; its block has a leaven slice and no leaven context, and a warp
slot is free. -/
def execLeavenSpawn (s : State) : Answer :=
  let t := s.arg.t
  let th := s.thread t
  let br := s.blkOf t
  let long := match th.stall with | none => false | some since => decide (since + 256 ≤ s.clock)
  let has := s.warps.any fun x => x.2.leaven.isSome && decide (x.2.blk = br)
  match (s.freeSlots t.core).head? with
  | none => .next s
  | some sl =>
    if (s.thread? t).isSome && !(s.block br).benched && !th.leaven && s.waitsForLoad t th && long && decide ((s.block br).leavenBudget ≠ 0) && !has then .next (s.spawn t sl)
    else .next s

/-- LEAVEN_CONTEXT_END: the leaven context in slot `arg.slot` of core `arg.core` was spawned 4096 cycles ago. -/
def execLeavenContextEnd (s : State) : Answer :=
  match (s.warp? s.arg.core s.arg.slot).bind Warp.leaven with
  | none => .next s
  | some l => .next (if l.1 + 4096 ≤ s.clock then s.endLeaven s.arg.core s.arg.slot else s)

end Sys2Proof.Machine
end

