-- ==== Sys2Proof/Machine/Quiesce.lean ====
section
/-! DEFINITION. Stopping, saving and restoring what a set of blocks has on a core (spec 20 R339-R343): the machinery that a
context switch and a migration (07 R148) share. What a core's bank exchange takes out of it stands, until it is saved, in the warp
slots from 64 on, in blocks marked as benched, and in the core's own record (R340). -/

namespace Sys2Proof.Machine

/-! ## Time (R13, R332) -/

/-- A context is active on a core: it is current, or on its way in, and the core's bank holds a block of it. -/
def State.activeOn (s : State) (c : Nat) (key : Nat × Nat) : Bool :=
  ((s.partn key.1).ctx key.2).isSome &&
    s.blocks.any fun b => decide (b.2.core = c) && decide (b.2.part = key.1) && decide (b.2.tenant = key.2) && !b.2.benched

/-- Reference cycles pass: the clock, and the count of each context that is active on a core. -/
def State.pass (s : State) (n : Nat) : State :=
  let count (c : Nat) (x : (Nat × Nat) × Nat) : (Nat × Nat) × Nat := if s.activeOn c x.1 then (x.1, x.2 + n) else x
  let inCore (x : Nat × Core) : Nat × Core := if x.2.clkrd.isEmpty then x else (x.1, { x.2 with clkrd := x.2.clkrd.map (count x.1) })
  { s with clock := s.clock + n, cores := s.cores.map inCore }

/-- Cycles pass one by one, each with what its end and its successor's beginning bring (R149-R152, R173). -/
def State.cycles : Nat → State → State
  | 0, s => s
  | n + 1, s => (s.kneadCycle.pass 1).newCycle.cycles n

/-- Cycles pass before a move. With no move between them, what they bring has come about after four, and the others only count, up to the
last, which begins as every cycle does. -/
def State.advance (s : State) (n : Nat) : State := if n ≤ 5 then s.cycles n else ((s.cycles 4).pass (n - 5)).cycles 1

/-! ## Threads (R339) -/

/-- The ordinary threads on a core of the blocks selected. -/
def State.threadsOf (s : State) (c : Nat) (own : BRef → Bool) : List TRef :=
  sortBy TRef.order ((s.threads.filter fun x => decide (x.1.core = c) && !x.2.leaven && own (s.blkOf x.1)).map Prod.fst)

/-- A thread that halts at its instruction boundary: a Waiting one keeps its wait. -/
def Thread.stopped (th : Thread) : Thread :=
  if th.st = .running ∨ th.st = .listed ∨ th.st = .waiting .scHeld then { th with st := .ready } else th

/-- Threads of a core halt; the leaven contexts of their blocks end (R155, R339). -/
def State.haltThreads (s : State) (c : Nat) (own : BRef → Bool) : State :=
  let leaven := s.warps.filter fun x => decide (x.1.1 = c) && x.2.leaven.isSome && own x.2.blk
  let s := leaven.foldl (fun s x => s.endLeaven x.1.1 x.1.2) s
  (s.threadsOf c own).foldl (fun s t => (s.unplace t).modThread t Thread.stopped) s

/-- Every access that a thread has issued is performed, and every pending group lands. -/
def State.performThread (s : State) (t : TRef) : State :=
  let s := ((s.releaseAll t).scForce t).finishSync t
  ((s.thread t).outs.map Out.base).foldl (fun s b => s.landWrite t b) s

def State.performThreads (s : State) (c : Nat) (own : BRef → Bool) : State := (s.threadsOf c own).foldl State.performThread s

/-- No access of the threads selected is outstanding: an SC operation may have to wait for the epoch change (R242). -/
def State.quiet (s : State) (c : Nat) (own : BRef → Bool) : Bool :=
  (s.threadsOf c own).all fun t => let th := s.thread t; th.outs.isEmpty && th.stores.isEmpty && th.sc.isNone

/-! ## Copy commands (R341) -/

/-- A command that is completed and not aborted: it reduces, it has counted a byte, or it is a sifter's. -/
def CopyRun.mustFinish (r : CopyRun) : Bool := r.reduce || decide (r.counted ≠ 0) || r.sifter

/-- A command moves what is left, counts its last bytes, reports its error and delivers its status, even beyond the depth of q5. -/
def State.finishCopy (s : State) (c k : Nat) : State :=
  let left (s : State) : Nat := match (s.core c).copies[k]? with | none => 0 | some r => r.left
  let total := match (s.core c).copies[k]? with | none => 0 | some r => r.total
  let s := s.copyStep c k total
  ((s.copyCount c k (left s)).copyError c k).copyStatus c k

def State.finishCopies (c : Nat) (own : BRef → Bool) : Nat → State → State
  | 0, s => s
  | fuel + 1, s =>
    match (s.core c).copies.findIdx? fun r => own r.blk with
    | none => s
    | some k => (s.finishCopy c k).finishCopies c own fuel

/-- The sifter slots of a block that is being placed are completed. -/
def State.finishSift (s : State) (br : BRef) : State :=
  let slots := (s.block br).sift
  if slots.isEmpty then s
  else (slots.foldl (fun s k => s.siftSlot br k) (s.modBlock br fun b => { b with sift := [] })).siftDone br

/-- Copy commands of a core that have counted nothing are aborted and put back at the head of q4 in their order. -/
def State.abortCopies (s : State) (c : Nat) (own : BRef → Bool) : State :=
  let gone (r : CopyRun) : Bool := own r.blk && !r.mustFinish
  let back := (s.core c).copies.filter gone
  let s := s.modCore c fun x => { x with copies := x.copies.filter fun r => !gone r }
  back.foldr (fun r s => s.modBlock r.blk fun b => { b with q4 := r.desc :: b.q4, qbad := b.qbad.map fun e => if e.1 = 4 then (4, e.2 + 1) else e }) s

/-- The commands and the sifter slots of a core that are completed before the save. -/
def State.endCopies (s : State) (c : Nat) (own : BRef → Bool) : State :=
  let mine := (s.blocks.filter fun b => decide (b.2.core = c) && own b.1).map Prod.fst
  let s := mine.foldl State.finishSift s
  s.finishCopies c own ((s.core c).copies.length)

/-! ## Matrix commands (R341) -/

/-- Before its first k-step and with no metadata taken, and with nothing counted or delivered. -/
def MxRun.untouched (r : MxRun) : Bool :=
  r.done.isEmpty && decide (r.colsTaken = 0) && !r.ended && decide (r.delivered = 0) && !r.counted

def State.allRuns (s : State) : List (Nat × MxRun) := s.cores.flatMap fun x => x.2.runs.map fun r => (x.1, r)

/-- The commands that go back to q0 untaken: no member of the command has begun. -/
def State.returning (s : State) (own : BRef → Bool) : List (Nat × MxRun) :=
  let all := s.allRuns
  let begun := all.filter fun y => !y.2.untouched
  all.filter fun x => own x.2.blk && decide (x.2.origin = x.1) && decide (x.2.oserial = x.2.serial) &&
    begun.all fun y => !(decide (y.2.origin = x.1) && decide (y.2.oserial = x.2.serial))

/-- A command is taken back: its runs go, its entry is again the head of q0, and the chain of its buffer stands as before it, unless a later
command of the block on the buffer stays (R304). -/
def State.returnRun (s : State) (x : Nat × MxRun) : State :=
  let r := x.2
  let gone (y : MxRun) : Bool := decide (y.origin = x.1) && decide (y.oserial = r.serial)
  let s : State := {
    s with
    cores := s.cores.map fun (k : Nat × Core) => (k.1, { k.2 with runs := k.2.runs.filter fun y => !gone y }),
    rectHeld := s.rectHeld.filter fun h => !(decide (h.1 = x.1) && decide (h.2.1 = r.serial)), rectReqs := s.rectReqs.filter (· ≠ (x.1, r.serial)) }
  let last : Option (Nat × Nat) := if r.chain = r.serial then none else r.tag.map fun t => (t, r.chain)
  s.modBlock r.blk fun b =>
    let b : Block := { b with q0 := r.entry :: b.q0, qbad := b.qbad.map fun e => if e.1 = 0 then (0, e.2 + 1) else e }
    if !r.buffered || s.allRuns.any fun y => r.before y.2 then b else if r.par.buf then { b with last1 := last } else { b with last0 := last }

/-- What is left of a drain to q2 that is under way is delivered, even beyond the depth of q2: at most `fuel` entries. The entries of one
command stand together, so a drain that has delivered none is not yet under way while another command of the block has. -/
def State.finishDrain (c serial : Nat) : Nat → State → State
  | 0, s => s
  | fuel + 1, s =>
    match (s.core c).runs.findIdx? fun e => decide (e.serial = serial) with
    | none => s
    | some k =>
      match s.run? c k with
      | none => s
      | some r =>
        let other := decide (r.delivered = 0) && (s.core c).runs.any fun e => decide (e.blk = r.blk) && e.midQ2
        if !r.ended || !r.par.drain || decide (r.par.ddest ≠ 3) || decide (r.pieces ≤ r.delivered) || other then s
        else match r.pieceWords 2 with
          | none => s
          | some ws => ((s.setRun c k (r.pieceDone 2)).engineEntry r.blk 2 (pairOf (ws.getD 0 0) (ws.getD 1 0))).finishDrain c serial fuel

/-- A command that has finished acting completes its drain, counts, reports its error and delivers its status, even beyond the depth of q3. -/
def State.finishRuns (own : BRef → Bool) (s : State) (c : Nat) : State :=
  let mine := (s.core c).runs.filter fun r => own r.blk && r.acted
  let at_ (s : State) (r : MxRun) (f : State → Nat → State) : State :=
    match (s.core c).runs.findIdx? fun e => decide (e.serial = r.serial) with | none => s | some k => f s k
  let s := mine.foldl (fun s r => s.finishDrain c r.serial (r.pieces - r.delivered)) s
  mine.foldl (fun s r => at_ (at_ s r fun s k => (s.runCount c k).runError c k) r fun s k => s.mxStatus c k true) s

/-- Matrix commands: those not begun go back to q0 in their order, those that have acted deliver their status, the others stand at a
k-step boundary. -/
def State.stopRuns (s : State) (own : BRef → Bool) : State :=
  let s := (sortBy (fun x => x.2.serial) (s.returning own)).foldr (fun x s => s.returnRun x) s
  let s := (s.cores.map Prod.fst).foldl (State.finishRuns own) s
  let fresh (r : MxRun) : MxRun := if own r.blk then { r with fetched := [] } else r
  { s with cores := s.cores.map fun (k : Nat × Core) => (k.1, { k.2 with runs := k.2.runs.map fresh }) }

/-! ## Collecting (R337, R342) -/

/-- A watch at a save: disarmed, and lost if it was armed (R263, R342). -/
def Watch.saved (w : Watch) : Watch := if w.armed then { lost := true } else w

/-- A thread as it is saved. -/
def Thread.saved (th : Thread) : Thread := { th.stopped with watch := th.watch.saved, stall := none }

/-- A bin keeps the cycles for which it has stood: its count stands still while its block is switched out (R174). -/
def Bin.rested (now : Nat) (b : Bin) : Bin := { b with entered := now - b.entered }
/-- The bin goes on counting. -/
def Bin.resumed (now : Nat) (b : Bin) : Bin := { b with entered := now - b.entered }

/-- A thread's place in the bank. -/
def TRef.seat (t : TRef) : TRef := { t with slot := t.slot % 64 }

/-- A block as it is saved. -/
def Block.saved (b : Block) : Block :=
  { b with
    slots := b.slots.map (· % 64), bars := b.bars.map fun x => { x with bits := x.bits.map (· % 64) },
    qwait := b.qwait.map fun w => { w with who := w.who.map TRef.seat }, gwait := b.gwait.map fun w => { w with who := TRef.seat w.who },
    benched := false }

/-- What the blocks selected have on a core, in its bank or taken out of it. -/
def State.collect (s : State) (o : Own) (c : Nat) (own : BRef → Bool) : SavedCore :=
  let k := s.core c
  let blocks := s.blocks.filter fun b => decide (b.2.core = c) && own b.1
  let runs := k.runs.filter fun r => own r.blk
  let warps := (s.warps.filter fun w => decide (w.1.1 = c) && own w.2.blk && w.2.leaven.isNone).map fun w => (w.1.2 % 64, w.2)
  let threads := (s.threadsOf c own).map fun t => ((t.slot % 64, t.lane), (s.thread t).saved)
  let joined (n : Nat) : Bool := (runs.any fun r => decide (r.chain = n)) ||
    blocks.any fun b => decide (b.2.last0.map Prod.snd = some n ∨ b.2.last1.map Prod.snd = some n)
  let out := k.out.toList
  let buf (a : AccBuf) (f : SavedCore → AccBuf) : AccBuf :=
    ((a :: out.map f).find? fun x => x.held.any own).getD {}
  let bins (l : List Bin) (f : SavedCore → List Bin) : List Bin :=
    ((l ++ out.flatMap f).filter fun b => own b.blk).map (Bin.mapThreads Thread.saved)
  let held := (s.rectHeld.filter fun h => decide (h.1 = c) && runs.any fun r => decide (r.serial = h.2.1)).map fun h => (h.2.1, h.2.2)
  let reqs := (s.rectReqs.filter fun h => decide (h.1 = c) && runs.any fun r => decide (r.serial = h.2)).map Prod.snd
  { part := o.part, tenant := o.tenant, idx := (s.coresOf o.part).idxOf c, savecnt := 0, serial := 0, core := c, warps := warps, threads := threads,
    blocks := blocks.map fun b => (b.1, b.2.saved), bins := bins (k.bins.map (Bin.rested s.clock)) SavedCore.bins, released := bins k.released SavedCore.released,
    acc0 := buf k.acc0 SavedCore.acc0, acc1 := buf k.acc1 SavedCore.acc1, runs := runs, stops := k.stops.filter fun x => joined x.1,
    held := held, reqs := reqs, clkrd := (tget k.clkrd (o.part, o.tenant)).getD 0 }

/-- What was collected leaves the core, which is zeroed there (R203). -/
def State.strip (s : State) (x : SavedCore) (own : BRef → Bool) : State :=
  let c := x.core
  let s := (s.threadsOf c own).foldl (fun s t => (s.unplace t).dropThread t) s
  let s : State := { s with
    warps := s.warps.filter (fun w => !(decide (w.1.1 = c) && own w.2.blk)), blocks := s.blocks.filter (fun b => !(decide (b.2.core = c) && own b.1)) }
  let buf (a : AccBuf) : AccBuf := if a.held.any own then {} else a
  let s := s.modCore c fun k => {
    k with
    bins := k.bins.filter (fun b => !own b.blk), released := k.released.filter (fun b => !own b.blk), acc0 := buf k.acc0, acc1 := buf k.acc1,
    runs := k.runs.filter (fun r => !own r.blk), stops := k.stops.filter fun y => !x.stops.contains y }
  { s with rectHeld := s.rectHeld.filter (fun h => !(decide (h.1 = c) && x.held.any fun y => y.1 = h.2.1)),
           rectReqs := s.rectReqs.filter fun h => !(decide (h.1 = c) && x.reqs.contains h.2) }

/-! ## The exchange of the banks (R340) -/

/-- The blocks in the bank of a core. -/
def State.inBank (s : State) (c : Nat) (br : BRef) : Bool := match s.block? br with | none => false | some b => decide (b.core = c) && !b.benched

/-- The bank of a core goes out: its warps stand in the slots from 64 on, its blocks are benched, and what the core holds of them
besides stands in its record. -/
def State.bench (s : State) (o : Own) (c : Nat) : State :=
  let up (t : TRef) : TRef := if t.core = c ∧ t.slot < 64 then { t with slot := t.slot + 64 } else t
  let k := s.core c
  let empty := s.collect o c fun _ => false
  let out : SavedCore := { empty with bins := k.bins.map (Bin.rested s.clock), released := k.released, acc0 := k.acc0, acc1 := k.acc1 }
  let refs (b : Block) : Block :=
    { b with qwait := b.qwait.map fun w => { w with who := w.who.map up }, gwait := b.gwait.map fun w => { w with who := up w.who } }
  let block (b : Block) : Block :=
    if b.core = c ∧ b.benched = false then
      { refs b with slots := b.slots.map (· + 64), bars := b.bars.map (fun x => { x with bits := x.bits.map (· + 64) }), benched := true }
    else refs b
  let s : State := {
    s with
    threads := s.threads.map fun x => (up x.1, x.2),
    warps := s.warps.map fun x => if x.1.1 = c ∧ x.1.2 < 64 then ((c, x.1.2 + 64), x.2) else x,
    blocks := s.blocks.map fun x => (x.1, block x.2) }
  s.modCore c fun k => { k with bins := [], released := [], acc0 := {}, acc1 := {}, out := some out }

/-! ## Restoring (R343) -/

def moveRef (f : Nat → Nat) (t : TRef) : TRef := { t with core := f t.core }
def BinThread.moved (f : Nat → Nat) (b : BinThread) : BinThread := { b with from_ := moveRef f b.from_ }
def Bin.moved (f : Nat → Nat) (b : Bin) : Bin := { b with threads := b.threads.map (BinThread.moved f) }

/-- A run on its new core: its serial, its chain and its rectangle's numbers move up past those in use. -/
def MxRun.moved (f : Nat → Nat) (d : Nat) (r : MxRun) : MxRun :=
  { r with serial := r.serial + d, chain := r.chain + d, origin := f r.origin, oserial := r.oserial + d }

/-- A block on its new core. -/
def Block.moved (f : Nat → Nat) (d : Nat) (b : Block) : Block :=
  let chain (x : Option (Nat × Nat)) : Option (Nat × Nat) := x.map fun v => (v.1, v.2 + d)
  { b with
    core := f b.core, last0 := chain b.last0, last1 := chain b.last1, qwait := b.qwait.map fun w => { w with who := w.who.map (moveRef f) },
    gwait := b.gwait.map fun w => { w with who := moveRef f w.who } }

/-- What was saved as it will stand: `f` gives the new number of each core, and the matrix commands move up by `d`. -/
def SavedCore.moved (f : Nat → Nat) (d : Nat) (x : SavedCore) : SavedCore :=
  { x with
    core := f x.core, blocks := x.blocks.map fun b => (b.1, b.2.moved f d), bins := x.bins.map (Bin.moved f),
    released := x.released.map (Bin.moved f), runs := x.runs.map (MxRun.moved f d), stops := x.stops.map fun y => (y.1 + d, y.2),
    held := x.held.map fun h => (h.1 + d, h.2.map f), reqs := x.reqs.map (· + d) }

/-- The greatest number that the matrix commands of a saved core use. -/
def SavedCore.top (x : SavedCore) : Nat :=
  let chain (v : Option (Nat × Nat)) : Nat := match v with | none => 0 | some y => y.2
  let m := x.runs.foldl (fun n r => max n (max r.serial (max r.chain r.oserial))) 0
  x.blocks.foldl (fun n b => max n (max (chain b.2.last0) (chain b.2.last1))) m

/-- A restored thread that was in DOZE goes on with RESTORE (R263). -/
def Thread.undoze (th : Thread) : Thread :=
  match th.st with
  | .waiting (.doze _ _ d n) => (th.dozed d n dozeRestore).passHeel
  | _ => th

/-- The contents of blocks are still to be loaded into their ways (R340). -/
def State.unload (s : State) (bs : List BRef) : State :=
  bs.foldl (fun s b => s.modBlock b fun y => { y with unloaded := y.pways ++ y.cways }) s

/-- Ways of a core's incoming blocks are loaded: what has waited for an access to them is served. -/
def State.loadWays (s : State) (c : Nat) (ws : List Nat) : State :=
  let mine := (s.blocks.filter fun b => decide (b.2.core = c) && !b.2.benched && b.2.unloaded.any ws.contains).map Prod.fst
  let s := mine.foldl (fun s b => s.modBlock b fun y => { y with unloaded := y.unloaded.filter fun w => !ws.contains w }) s
  let serve (s : State) (b : BRef) : State :=
    let s := (((s.block b).gwait.map fun w => w.off / 16).eraseDups).foldl (fun s g => s.serveG b g) s
    let s := (s.blocks.filter fun x => decide (x.1.launch = b.launch)).foldl (fun s x => s.serveQ x.1 4) s
    s.threads.foldl (fun s x => match x.2.st with
      | .waiting (.object o off addr parity pd) => if o = b then s.evalWaiter x.1 o off addr parity pd else s
      | _ => s) s
  mine.foldl serve s

/-- The blocks of what was saved are there, not yet in the banks of their cores: accesses from other cores reach them (R340; log 27). -/
def State.install (s : State) (l : List SavedCore) : State :=
  (l.flatMap SavedCore.blocks).foldl (fun s b => s.setBlock b.1 { b.2 with qwait := [], gwait := [], benched := true }) s

/-- What was saved stands in the bank of its core, in ways that the core gives it; a thread that comes back makes the core fence its
caches (R234). -/
def State.enter (s : State) (x : SavedCore) : State :=
  let c := x.core
  let s := if x.threads.isEmpty then s else s.fenceCaches c 5
  let s := x.blocks.foldl (fun s b =>
    let n := b.2.pways.length
    let ways := (cacheWays s c).take (n + b.2.cways.length)
    (s.dropWays c ways).modBlock b.1 fun y => { y with pways := ways.take n, cways := ways.drop n, benched := false }) s
  let s := x.warps.foldl (fun s w => s.setWarp c w.1 w.2) s
  let s := x.threads.foldl (fun s y => s.setThread ⟨c, y.1.1, y.1.2⟩ y.2.undoze) s
  let clocks := x.threads.map (fun y => y.2.scClock.toNat) ++ (x.bins ++ x.released).flatMap fun b => b.threads.map fun y => y.th.scClock.toNat
  let key := (x.part, x.tenant)
  let buf (old new : AccBuf) : AccBuf := if new.held.isSome then new else old
  let s := s.modCore c fun k => {
    k with
    scK := clocks.foldl max k.scK, icache := [], bins := k.bins ++ x.bins.map (Bin.resumed s.clock), released := k.released ++ x.released,
    acc0 := buf k.acc0 x.acc0, acc1 := buf k.acc1 x.acc1, runs := k.runs ++ x.runs, stops := k.stops ++ x.stops,
    clkrd := tput k.clkrd key (max x.clkrd ((tget k.clkrd key).getD 0)) }
  { s with rectHeld := s.rectHeld ++ x.held.map (fun h => (c, h.1, h.2)), rectReqs := s.rectReqs ++ x.reqs.map fun r => (c, r) }

/-- The order in which restored waiters arrive anew: warp slot, then lane. -/
def arrivalOrder (l : List TRef) : Nat := match l with | [] => 0 | t :: _ => t.slot * 32 + t.lane

/-- The waiters of a saved block that stand on a core arrive anew, behind every operation already waiting, and are served (R202, R271,
R343). -/
def State.arriveAnew (c : Nat) (s : State) (b : BRef × Block) : State :=
  let qs := sortBy (fun w => arrivalOrder w.who) (b.2.qwait.filter fun w => w.who.any fun t => decide (t.core = c))
  let gs := sortBy (fun w => arrivalOrder [w.who]) (b.2.gwait.filter fun w => decide (w.who.core = c))
  if qs.isEmpty ∧ gs.isEmpty then s
  else
    let s := s.modBlock b.1 fun y => { y with qwait := y.qwait ++ qs, gwait := y.gwait ++ gs }
    let s := ((qs.map QWait.q).eraseDups).foldl (fun s q => s.serveQ b.1 q) s
    ((gs.map fun w => w.off / 16).eraseDups).foldl (fun s g => s.serveG b.1 g) s

/-- A restored thread whose wait is already over goes on: the phase it waits for has come. A KNEAD that has nothing to await takes effect
at the end of the cycle. -/
def State.reviewWait (s : State) (t : TRef) : State :=
  match (s.thread t).st with
  | .waiting (.object br off addr parity pd) => s.evalWaiter t br off addr parity pd
  | _ => s

/-- What is restored on a core takes up its waits: `l` is all that is restored, of which the waiters on this core arrive. -/
def State.resume (l : List SavedCore) (s : State) (x : SavedCore) : State :=
  let s := (l.flatMap SavedCore.blocks).foldl (State.arriveAnew x.core) s
  x.threads.foldl (fun s y => s.reviewWait ⟨x.core, y.1.1, y.1.2⟩) s

/-- All that was saved stands again, and then its waiters arrive. -/
def State.restoreAll (s : State) (l : List SavedCore) : State :=
  l.foldl (State.resume l) (l.foldl State.enter (s.install l))

end Sys2Proof.Machine
end

