-- ==== Sys2Proof/Machine/Reduction.lean ====
section
/-! DEFINITION. Reductions in the mesh (spec 22 R358-R362, 24 R392): RSEND, RRECV and RSTAT, the packets that routers take, the
combines of a node, deadlines, and the results that reach q7. -/

namespace Sys2Proof.Machine

/-! ## The instructions (R361, R362) -/

def execRsend (a : Code) (s : State) : Answer :=
  issueMeet (.rsend a) s fun th => { op := .rsend, a := th.word a.toNat }

def execRrecv (n : Bool) (d : Code) (s : State) : Answer :=
  issueMeet (.rrecv n d) s fun _ => { op := .rrecv, d := d.toNat, n := n }

/-- The word of a record (R362). -/
def RStat.word (r : RStat) : Word :=
  let bit (b : Bool) (k : Nat) : Nat := if b then 2 ^ k else 0
  BitVec.ofNat 32 (r.seq * 2 ^ 16 + r.missn * 2 ^ 8 + bit r.nanf 7 + bit r.ovff 6 + bit r.drop 5 + bit r.tmo 4 + bit r.sent 2 + bit r.res 1 +
    bit r.pend 0)

def execRstat (sel : BitVec 2) (n : Bool) (d : Code) (e : Bool) (s : State) : Answer :=
  issueLaneAt (.rstat sel n d e) s fun s t _ =>
    let r := (s.block (s.blkOf t)).rstat
    res1 n d.toNat (match sel.toNat with | 0 => r.word | 1 => loWord r.mask | _ => hiWord r.mask)

/-! ## The tree (R358, R360) -/

/-- The children of a contributor, in increasing index. -/
def Tree.kids (t : Tree) (m : Nat) : List Nat := (List.range t.parents.length).filter fun i => t.parents.getD i none = some m

/-- The items of a node in the order of R359: its own packet and its children's results. -/
def Tree.want (t : Tree) (m : Nat) : List Nat := addNat (t.kids m) m

/-- The contributors of the subtree of a node. -/
def Tree.subtree (t : Tree) : Nat → Nat → List Nat
  | 0, m => [m]
  | fuel + 1, m => m :: (t.kids m).flatMap (t.subtree fuel)

/-- The height of a node: 0 for a leaf. -/
def Tree.height (t : Tree) : Nat → Nat → Nat
  | 0, _ => 0
  | fuel + 1, m => (t.kids m).foldl (fun h c => max h (1 + t.height fuel c)) 0

def Tree.size (t : Tree) : Nat := t.parents.length

/-- The deadline of item `x` at a node whose first item arrived at `t0` (R360). -/
def Tree.deadline (t : Tree) (m t0 x : Nat) : Nat := t0 + t.timeout * (1 + if x = m then 0 else t.height t.size x)

/-! ## The state of a reduction -/

def Launch.red? (l : Launch) (n : Nat) : Option Reduction := l.reds.find? fun r => r.seq = n
def Launch.putRed (l : Launch) (r : Reduction) : Launch :=
  { l with reds := if l.reds.any fun x => x.seq = r.seq then l.reds.map fun x => if x.seq = r.seq then r else x else l.reds ++ [r] }

def Reduction.node (r : Reduction) (m : Nat) : RNode := (r.nodes.find? fun x => x.idx = m).getD { idx := m }
def Reduction.putNode (r : Reduction) (x : RNode) : Reduction :=
  { r with nodes := if r.nodes.any fun y => y.idx = x.idx then r.nodes.map fun y => if y.idx = x.idx then x else y else r.nodes ++ [x] }

/-- The record of a contributor's block, when it is the record of reduction `n` (R362). -/
def State.noteRed (s : State) (id n i : Nat) (f : RStat → RStat) : State :=
  s.modBlock ⟨id, i⟩ fun b => if b.rsends = n + 1 then { b with rstat := f b.rstat } else b

/-! ## Combining (R359, R360) -/

/-- The item taken for one that has not arrived: −0, with its subtree missing. -/
def Tree.absent (t : Tree) (m x : Nat) : RItem :=
  { idx := x, vec := List.replicate 32 0x8000_0000, missing := if x = m then [m] else t.subtree t.size x, carried := [] }

/-- One addition of a combine, with the flags: NaN, overflow. -/
def addItems (a b : List Word) : List Word × Bool × Bool :=
  let r := (a.zip b).map fun x => addF FP32 x.1.toNat x.2.toNat
  (r.map fun v => BitVec.ofNat 32 v.1, r.any fun v => (decodeF FP32 v.1).isNan, r.any fun v => v.2 &&& OVF ≠ 0)

/-- The items of a node added in index order, left to right. -/
def combineItems (m : Nat) : List RItem → RItem × Bool × Bool
  | [] => ({ idx := m, vec := [], missing := [], carried := [] }, false, false)
  | x :: rest => rest.foldl (fun acc y =>
      let v := addItems acc.1.vec y.vec
      ({ acc.1 with vec := v.1, missing := acc.1.missing ++ y.missing, carried := acc.1.carried ++ y.carried, bad := acc.1.bad || y.bad }, acc.2.1 || v.2.1, acc.2.2 || v.2.2))
    ({ x with idx := m }, false, false)

/-- A node combines, with −0 for what has not arrived; its sum flies to its parent, or is the result of the reduction. -/
def State.combineNode (s : State) (id : Nat) (l : Launch) (r : Reduction) (m : Nat) : State :=
  let t := l.tree
  let k := r.node m
  let items := (t.want m).map fun x => (k.items.find? fun y => y.idx = x).getD (t.absent m x)
  let late := decide (k.items.length < (t.want m).length)
  let c := combineItems m items
  let r := r.putNode { k with combined := true }
  let r : Reduction := { r with nan := r.nan || c.2.1, ovf := r.ovf || c.2.2, tmo := r.tmo || late }
  match t.parents.getD m none with
  | some p => s.setLaunch id (l.putRed { r with flying := r.flying ++ [(p, c.1)] })
  | none =>
    let others := if t.deliv then (List.range t.size).filter fun i => i ≠ m ∧ !c.1.missing.contains i else []
    let s := s.setLaunch id (l.putRed { r with out := some c.1, owed := m :: others })
    c.1.carried.foldl (fun s i => s.noteRed id r.seq i fun w => { w with sent := true, pend := false }) s

/-- A result is appended to q7 of one receiver; a block that has ended receives none (R392). With `full` the depth of q7 is
passed over, as at a save (R362). -/
def State.deliverTo (s : State) (id : Nat) (r : Reduction) (p i : Nat) (full : Bool) : State × Bool :=
  let b := s.block ⟨id, i⟩
  match s.block? ⟨id, i⟩, r.out with
  | some _, some x =>
    if full || decide (b.q7.length < qDepth 7) then
      let s := s.modBlock ⟨id, i⟩ fun b => { b with q7 := b.q7 ++ [x.vec], qbad := if x.bad then addNew b.qbad (7, b.q7.length) else b.qbad }
      let s := s.noteRed id r.seq i (RStat.withResult r x p)
      (s.serveQ ⟨id, i⟩ 7, true)
    else (s, false)
  | _, _ => (s, true)

/-- The result of a completed reduction goes to the receivers that have room. -/
def State.deliverOwed (s : State) (id n : Nat) (full : Bool) : State :=
  match s.launch? id with
  | none => s
  | some l =>
    match l.red? n with
    | none => s
    | some r =>
      let x := r.owed.foldl (fun (acc : State × List Nat) i =>
        let d := acc.1.deliverTo id r l.tree.size i full
        (d.1, if d.2 then acc.2 else acc.2 ++ [i])) (s, [])
      x.1.modLaunch id fun l => match l.red? n with | none => l | some r => l.putRed { r with owed := x.2 }

/-- Every item of a node has arrived. -/
def Reduction.full (r : Reduction) (t : Tree) (m : Nat) : Bool := (t.want m).all fun x => (r.node m).items.any fun y => y.idx = x

/-- The latest open deadline of a node has passed (R360). -/
def Reduction.expired (r : Reduction) (t : Tree) (m now : Nat) : Bool :=
  match (r.node m).first with
  | none => false
  | some t0 => decide (t.timeout ≠ 0) &&
    ((t.want m).filter fun x => !(r.node m).items.any fun y => y.idx = x).all fun x => decide (t.deadline m t0 x ≤ now)

/-- Node `m` of reduction `n` of a launch combines when it may; a result is then appended where q7 has room. -/
def State.tryCombine (s : State) (id n m : Nat) (byTime : Bool) : State :=
  match s.launch? id with
  | none => s
  | some l =>
    match l.red? n with
    | none => s
    | some r =>
      let ok := !(r.node m).combined && (if byTime then r.expired l.tree m s.clock else r.full l.tree m)
      (if ok then s.combineNode id l r m else s).deliverOwed id n false

/-! ## Packets (R360) -/

/-- An item reaches a node: it is held there, or discarded when the node has combined. A node whose latest open deadline has passed
before this cycle combines first (R360). -/
def State.itemAt (s : State) (id n m : Nat) (x : RItem) : State :=
  let late := match s.launch? id with
    | none => false
    | some l => ((l.red? n).getD { seq := n }).expired l.tree m (s.clock - 1)
  let s := if late then s.tryCombine id n m true else s
  match s.launch? id with
  | none => s
  | some l =>
    let r := (l.red? n).getD { seq := n }
    let k := r.node m
    if k.combined then x.carried.foldl (fun s i => s.noteRed id n i fun w => { w with drop := true, pend := false }) s
    else
      let k : RNode := { k with items := k.items ++ [x], first := some (k.first.getD s.clock) }
      s.setLaunch id (l.putRed (r.putNode k))

/-- The reduction to which the head of a block's q6 contributes. -/
def Block.headRed (b : Block) : Nat := b.rsends - b.q6.length

/-- A launch whose context is current: its routers' state stands still otherwise (R362). -/
def State.redsRun (s : State) (id : Nat) : Bool :=
  match s.launch? id with | none => false | some l => s.isCurrent ⟨l.part, l.tenant⟩

/-- The router may take the head of a block's q6: not while four reductions of the launch are incomplete and this is a later one. -/
def State.sends (s : State) (br : BRef) : Bool :=
  match s.launch? br.launch with
  | none => false
  | some l => s.redsRun br.launch && !(s.block br).q6.isEmpty &&
      ((l.red? (s.block br).headRed).isSome || decide ((l.reds.filter fun r => r.out.isNone).length < 4))

/-- The block whose q6 the router of a core serves next (R269). -/
def State.nextPacket (s : State) (c : Nat) : Option BRef := (s.inTurn c (s.core c).turnR).find? s.sends

/-- The router of a block's core takes the head of the block's q6, when it is the block's turn. -/
def State.takePacket (s : State) (br : BRef) : State :=
  let b := s.block br
  match b.q6 with
  | [] => s
  | p :: rest =>
    if s.nextPacket b.core ≠ some br then s
    else
      let s := ((s.modBlock br fun x => { x.shiftBad 6 with q6 := rest }).serveQ br 6).modCore b.core fun x => { x with turnR := some br }
      s.itemAt br.launch b.headRed br.idx { idx := br.idx, vec := p, missing := [], carried := [br.idx], bad := b.headBad 6 }

/-- Item `k` in flight of reduction `n` reaches its node. -/
def State.landItem (s : State) (id n k : Nat) : State :=
  match s.launch? id with
  | none => s
  | some l =>
    match l.red? n with
    | none => s
    | some r =>
      match r.flying[k]? with
      | none => s
      | some x => (s.setLaunch id (l.putRed { r with flying := ldrop r.flying k })).itemAt id n x.1 x.2

/-! ## Events -/

/-- REDUCTION_ITEM_ARRIVAL: with `arg.flag` the router of block `arg.blk` takes its next packet; else item `arg.off` in flight
of reduction `arg.n` of launch `arg.k` reaches its router. -/
def execReductionItemArrival (s : State) : Answer :=
  let a := s.arg
  if a.flag then .next (s.takePacket a.blk)
  else .next (if s.redsRun a.k then s.landItem a.k a.n a.off else s)

/-- ROUTER_COMBINE: node `arg.off` of reduction `arg.n` of launch `arg.k` has every item, or its result has still to be
appended. -/
def execRouterCombine (s : State) : Answer :=
  let a := s.arg
  .next (if s.redsRun a.k then s.tryCombine a.k a.n a.off false else s)

/-- REDUCTION_DEADLINE: the latest open deadline of node `arg.off` has passed. -/
def execReductionDeadline (s : State) : Answer :=
  let a := s.arg
  .next (if s.redsRun a.k then s.tryCombine a.k a.n a.off true else s)

/-! ## At a stop (R341, R362) -/

/-- One pass over a launch: the items in flight land, and every node that is full combines. -/
def State.redPass (s : State) (id : Nat) : State :=
  match s.launch? id with
  | none => s
  | some l =>
    let s := l.reds.foldl (fun s r => (List.range r.flying.length).foldl (fun s _ => s.landItem id r.seq 0) s) s
    match s.launch? id with
    | none => s
    | some l => l.reds.foldl (fun s r => r.nodes.foldl (fun s k => s.tryCombine id r.seq k.idx false) s) s

def State.redPasses (id : Nat) : Nat → State → State
  | 0, s => s
  | fuel + 1, s => (s.redPass id).redPasses id fuel

/-- Items in the mesh are combined as far as they can be, results go to q7 beyond its depth, and the deadlines stand still. -/
def State.freezeReds (s : State) (id : Nat) : State :=
  match s.launch? id with
  | none => s
  | some l =>
    let s := s.redPasses id (l.tree.size + 1)
    let s := l.reds.foldl (fun s r => s.deliverOwed id r.seq true) s
    s.modLaunch id fun l => { l with frozenAt := some s.clock }

/-- The deadlines of a launch go on. -/
def State.thawReds (s : State) (id : Nat) : State :=
  s.modLaunch id fun l =>
    match l.frozenAt with
    | none => l
    | some t0 =>
      let node (k : RNode) : RNode := { k with first := k.first.map fun f => f + (s.clock - t0) }
      { l with frozenAt := none, reds := l.reds.map fun r => { r with nodes := r.nodes.map node } }

end Sys2Proof.Machine
end

