-- ==== Sys2Proof/Machine/Context.lean ====
section
/-! DEFINITION. Contexts (spec 20 R335-R343, 22 R352, R353, R394): naming the next context, the preload and its checks, STOP, the
exchange of the banks and the spill core by core (log 27); load shedding (22 R356); migration (07 R148). -/

namespace Sys2Proof.Machine

/-! ## The descriptor (R335, R352) -/

/-- The bytes of a descriptor that are reserved. -/
def ctxReserved : List Nat := [22, 23] ++ List.range' 40 24 ++ List.range' 64 64

def Ctx.of (desc : Nat) (bs : List Byte) : Ctx :=
  { desc := desc, s1root := field bs 0 8 / 4096 * 4096 % 2 ^ 48, save := field bs 8 8 / 2 ^ 20 * 2 ^ 20, slice := field bs 16 4,
    tenant := field bs 20 1 % 64, savecnt := field bs 24 8, waymask := field bs 32 2, rdcmask := field bs 34 2, quota := field bs 36 4, since := 0 }

/-- A descriptor that is refused: not valid, an empty mask, a guest way, or a nonzero reserved byte. -/
def State.ctxRefused (s : State) (bs : List Byte) : Bool :=
  !(field bs 21 1).testBit 0 || decide (field bs 32 2 = 0) || decide (field bs 34 2 = 0) || s.guestWays.any (fun w => (field bs 32 2).testBit w) ||
  ctxReserved.any fun i => decide (field bs i 1 ≠ 0)

/-- CTXNEXT: a write of `arg.v` names the next context of partition `arg.part` and begins its preload, replacing one that has
not been switched in. The shadow banks are free for it once a switch under way is over (R340). -/
def execCtxnext (s : State) : Answer :=
  let p := s.arg.part
  let v := s.arg.v
  let desc := (v.extractLsb' 7 41).toNat * 128
  let set (x : Option Ctx) : State :=
    let s : State := if (s.partn p).switch = .idle then { s with shadow := s.shadow.filter fun y => y.part ≠ p } else s
    s.modPart p fun q => { q with next := some (x, v.getLsbD 1), preloaded := false }
  if !s.regsAnswer p then .next s
  else if v.getLsbD 0 then .next (set none)
  else
    let bs := hubRead s desc 128
    if presentRange s p desc 128 && !s.ctxRefused bs then .next (set (some (Ctx.of desc bs)))
    else .next (s.notice p 6 noTenant desc 0xFFFF_FFFF)

/-! ## Images (R337, R338) -/

def imageBytes : Nat := 2 ^ 20
/-- Where the zero section of an image begins. -/
def imageZero : Nat := 905216

/-- What a core's image holds behind its header: bytes that only the device interprets (log 21). -/
def imageBody (serial : Nat) : List Byte :=
  (List.range (imageBytes - 64)).map fun i => if 64 + i < imageZero then Config.imageByte serial (64 + i) else 0

/-- The 64 bytes of an image's header. -/
def imageHeader (x : SavedCore) (crc : Nat) : List Byte :=
  leBytes 4 1 ++ leBytes 1 x.tenant ++ leBytes 1 x.part ++ leBytes 2 x.core ++ leBytes 8 x.savecnt ++ leBytes 4 x.blocks.length ++
  leBytes 12 0 ++ leBytes 8 crc ++ leBytes 24 0

/-- An image as it is written: a core without a block writes only its header. -/
def imageOf (x : SavedCore) : List Byte :=
  if x.blocks.isEmpty then imageHeader x 0
  else
    let body := imageBody x.serial
    imageHeader x (crc64 body) ++ body

/-- What an image stands for that no save of this device wrote (log 21). -/
opaque foreignCore : List Byte → Option SavedCore

/-- An image passes the checks of R338. -/
def imageGood (img : List Byte) (o : Own) (savecnt : Nat) : Bool :=
  decide (field img 0 4 = 1) && decide (field img 4 1 = o.tenant) && decide (field img 5 1 = o.part) && decide (field img 8 8 + 1 = savecnt) &&
  decide ((if field img 16 4 = 0 then 0 else crc64 (img.drop 64)) = field img 32 8)

/-- What an image stands for. -/
def State.decodeImage (s : State) (img : List Byte) (o : Own) (idx : Nat) : Option SavedCore :=
  let x :=
    if field img 16 4 = 0 then
      s.parked.find? fun y => y.blocks.isEmpty && decide (y.part = o.part) && decide (y.tenant = o.tenant) && decide (y.idx = idx) &&
        decide (y.savecnt = field img 8 8)
    else
      match s.parked.find? fun y => !y.blocks.isEmpty && decide (imageBody y.serial = img.drop 64) with
      | some y => some y
      | none => foreignCore img
  x.map fun y => { y with part := o.part, tenant := o.tenant, idx := idx, savecnt := field img 8 8, blocks := y.blocks.map fun b =>
    (b.1, { b.2 with part := o.part, tenant := o.tenant, cells := Memory.norm b.2.cells, benched := false, unloaded := [] }) }

/-! ## Switching in (R336, R340, R343, R353) -/

/-- The ways whose set of tenants a new mask changes. -/
def waysChanged (old new : Nat) : List Nat := (List.range 16).filter fun i => old.testBit i != new.testBit i

/-- The masks of a tenant that is switched in: changed ways are written back and invalidated, and the trackers of their lines are given up
(R353, R262). The hub keeps the quota with them (R354). -/
def State.setMasks (s : State) (p : Nat) (x : Ctx) : State :=
  let q := s.partn p
  let old := (q.masksOf x.tenant).getD { tenant := x.tenant }
  let rw := waysChanged old.rdc x.rdcmask
  let lw := waysChanged old.l2 x.waymask
  let rdc := (s.rdc.filter fun l => q.dies.contains l.1.1 && rw.contains l.2.way).map Prod.fst
  let s := rdc.foldl (fun s k => rdcDrop s k.1 k.2) s
  let l2 := (s.l2.filter fun l => q.dies.contains (homeOf (l.line * 128)) && lw.contains l.way).map CLine.line
  let s := l2.foldl (fun s ln => fireLine (l2Evict s ln) ln true) s
  s.modPart p fun q => { q with masks := (q.masks.filter fun m => m.tenant ≠ x.tenant) ++ [⟨x.tenant, x.waymask, x.rdcmask, x.quota⟩] }

/-- The core on which the saved core `c` of a list stands again: the core of the same partition index. -/
def homeCore (cores : List Nat) (l : List SavedCore) (c : Nat) : Nat :=
  match l.find? fun x => x.core = c with
  | none => c
  | some x => cores.getD x.idx c

/-- The launches of a tenant. -/
def State.launchesOf (s : State) (o : Own) : List Nat :=
  (s.launches.filter fun x => decide (x.2.part = o.part) && decide (x.2.tenant = o.tenant)).map Prod.fst

/-- What the shadow banks of a partition hold. -/
def State.shadowOf (s : State) (p : Nat) : List SavedCore := s.shadow.filter fun x => x.part = p

/-- A switch of a partition is over: the context that has come in is current, or none is. -/
def State.become (s : State) (p : Nat) (next : Option Ctx) : State :=
  let s := (s.coresOf p).foldl (fun s c => match tget s.cores c with
    | none => s
    | some k => s.setCore c { k with swapped := false, stopped := false, spilled := false, waysDone := 0, out := none }) { s with shadow := s.shadow.filter fun x => x.part ≠ p }
  match next with
  | none => (s.modPart p fun q => { q with cur := none, switch := .idle }).notice p 7 noTenant 0 0
  | some x =>
    let s := s.modPart p fun q => { q with cur := some { x with since := s.clock }, switch := .idle }
    let s := (s.launchesOf ⟨p, x.tenant⟩).foldl State.thawReds s
    (s.wakePending ⟨p, x.tenant⟩).notice p 7 x.tenant x.desc x.savecnt

/-- All that the shadow banks of a partition hold stands in the banks of its cores. -/
def State.enterAll (s : State) (p : Nat) (x : Ctx) : State := (s.setMasks p x).restoreAll (s.shadowOf p)

/-- STOP is sent: the next context is on its way in. -/
def Partition.beginStop (q : Partition) (into : Option Ctx) : Partition := { q with switch := .stopping into, next := none, preloaded := false }

/-- The switch that a preloaded next context brings at once: there is no current context (R394), or NOW was set. A context comes in
only while the load is not shed to step 4 (R356). -/
def State.switchDue (s : State) (p : Nat) : State :=
  let q := s.partn p
  match q.next with
  | none => s
  | some (x, now) =>
    if !q.preloaded || q.halted || decide (q.switch ≠ .idle) || (x.isSome && decide (4 ≤ s.powerStep)) then s
    else if q.cur.isNone then
      let s := s.modPart p fun q => { q with next := none, preloaded := false }
      match x with
      | none => s.become p none
      | some c => (s.enterAll p c).become p x
    else if now then s.modPart p fun q => q.beginStop x
    else s

/-! ## The preload (R336, R338) -/

/-- The first image of a context that is refused. -/
def State.badImage (s : State) (p : Nat) (x : Ctx) : Option Nat :=
  (List.range (s.coresOf p).length).find? fun i => !imageGood (hubRead s (x.save + imageBytes * i) imageBytes) ⟨p, x.tenant⟩ x.savecnt

/-- The shadow banks loaded from the images of a context that has been saved, as they will stand on the cores of the same partition
index. -/
def State.preload (s : State) (p : Nat) (x : Ctx) : State :=
  let o : Own := ⟨p, x.tenant⟩
  let cores := s.coresOf p
  let l := if x.savecnt = 0 then [] else
    (List.range cores.length).filterMap fun i => s.decodeImage (hubRead s (x.save + imageBytes * i) imageBytes) o i
  let d := s.mxSerial
  { s with shadow := s.shadow.filter (fun y => y.part ≠ p) ++ l.map (SavedCore.moved (homeCore cores l) d),
           mxSerial := l.foldl (fun n y => max n (d + y.top + 1)) d }

/-- PRELOAD_COMPLETE: the preload of partition `arg.part` has finished. An image may be refused: no switch takes place and the current
context runs on. -/
def execPreloadComplete (s : State) : Answer :=
  let p := s.arg.part
  let q := s.partn p
  match q.next with
  | none => .next s
  | some (x, _) =>
    if q.switch ≠ .idle then .next s
    else if q.preloaded then .next (s.switchDue p)
    else
      let bad := match x with | none => none | some c => if c.savecnt = 0 then none else s.badImage p c
      match x, bad with
      | some c, some i => .next ((s.modPart p fun q => { q with next := none, preloaded := false }).notice p 6 noTenant c.desc i)
      | _, _ =>
        let s := match x with | none => s | some c => s.preload p c
        .next ((s.modPart p fun q => { q with preloaded := true }).switchDue p)

/-! ## Stopping and exchanging (R339, R340) -/

/-- SLICE_END: the slice of partition `arg.part`'s current context is over; the switch begins when the next context is loaded,
else a new slice does. -/
def execSliceEnd (s : State) : Answer :=
  let p := s.arg.part
  let q := s.partn p
  match q.cur with
  | none => .next s
  | some c =>
    if c.slice = 0 ∨ s.clock < c.since + 1024 * c.slice ∨ q.switch ≠ .idle ∨ q.halted = true then .next s
    else match q.next with
      | some (x, _) =>
        if q.preloaded && (x.isNone || decide (s.powerStep < 4)) then .next (s.modPart p fun q => q.beginStop x)
        else .next (s.modPart p fun q => { q with cur := some { c with since := c.since + 1024 * c.slice } })
      | none => .next (s.modPart p fun q => { q with cur := some { c with since := c.since + 1024 * c.slice } })

/-- The first step of the stop on a core, and the exchange of its banks: its groups halt, copy commands that have counted nothing are
aborted, and what the shadow bank holds for the core goes on. Blocks that come in can be reached from the first exchange on, but what they
hold in their ways is still to be loaded. A context that follows itself comes back when it has been saved (log 27). -/
def State.exchange (s : State) (p c : Nat) (x : Ctx) (into : Option Ctx) : State :=
  let own := s.inBank c
  let before := (s.coresOf p).any fun k => (s.core k).swapped
  let s := (((s.haltThreads c own).abortCopies c own).bench ⟨p, x.tenant⟩ c).modCore c fun k =>
    { k with swapped := true, p0 := [], p1 := [], table := [], overflow := [] }
  match into with
  | none => s
  | some y =>
    if y.tenant = x.tenant then s
    else
      let l := s.shadowOf p
      let refs (r : SavedCore) : List BRef := r.blocks.map Prod.fst
      let s := if before then s else ((s.setMasks p y).install l).unload (l.flatMap refs)
      (l.filter fun r => r.core = c).foldl (fun s r => State.resume l ((s.enter r).unload (refs r)) r) s

/-- The blocks that the exchange has taken out of a core. -/
def State.benchOf (s : State) (p c : Nat) (br : BRef) : Bool :=
  match s.block? br with | none => false | some b => decide (b.core = c) && decide (b.part = p) && b.benched

/-- CORE_STOPPED: core `arg.core` halts its groups and its banks are exchanged; with `arg.flag` no more. Then it performs every access
that the outgoing context has issued, and reports. -/
def execCoreStopped (s : State) : Answer :=
  let c := s.arg.core
  let p := s.partOf c
  match (s.partn p).switch, (s.partn p).cur with
  | .stopping into, some x =>
    if (s.core c).stopped ∨ (s.partn p).halted ∨ !(s.coresOf p).contains c then .next s
    else
      let s1 := if (s.core c).swapped then s else s.exchange p c x into
      if s.arg.flag then .next s1
      else
        let own := s1.benchOf p c
        let s2 := s1.performThreads c own
        .next (if s2.quiet c own then s2.modCore c fun k => { k with stopped := true } else s1)
  | _, _ => .next s

/-! ## Spilling (R340, R341) -/

/-- What comes before the first save of a switch: commands are completed or put back, and the SAVECNT of the images is read. -/
def State.prepareSave (p : Nat) (x : Ctx) (s : State) : State :=
  let own (b : BRef) : Bool := (s.block b).benched && decide ((s.block b).part = p)
  let s := ((s.coresOf p).filter fun c => (tget s.cores c).isSome).foldl (fun s c => s.endCopies c own) s
  let s := (s.launchesOf ⟨p, x.tenant⟩).foldl State.freezeReds (s.stopRuns own)
  s.modPart p fun q => { q with cur := some { x with savecnt := field (hubRead s (x.desc + 24) 8) 0 8 } }

/-- The first save of a switch is prepared, once. -/
def State.beginSave (s : State) (p : Nat) (x : Ctx) : State :=
  if (s.coresOf p).any fun c => (s.core c).spilled || decide (0 < (s.core c).waysDone) then s else s.prepareSave p x

/-- The spill engine of a core writes back and invalidates its L1, and then saves, zeroes and loads its scratchpad ways one by one: the next
of them (R340). What leaves the way stands in its block until the bank is written. -/
def State.spillWay (s : State) (c : Nat) : State :=
  let p := s.partOf c
  match (s.partn p).cur, (s.partn p).switch with
  | some x, .stopping _ =>
    let n := (s.core c).waysDone
    if (s.partn p).halted || !((s.coresOf p).all fun k => (s.core k).stopped) || (s.core c).spilled || decide (24 ≤ n) then s
    else
      let s := s.beginSave p x
      let s := if n = 0 then s.fenceCaches c 3 else s
      (s.modCore c fun k => { k with waysDone := n + 1 }).loadWays c [n]
  | _, _ => s

/-- The outgoing context of a partition is saved from one core: its L1 is written back, its bank and its records leave the core, its
image is written. Every saved thread fences at partition scope (R234). -/
def State.saveCore (p : Nat) (x : Ctx) (s : State) (c : Nat) : State :=
  let own := s.benchOf p c
  let y := { s.collect ⟨p, x.tenant⟩ c own with savecnt := x.savecnt, serial := s.saveSerial }
  let s := (s.fenceCaches c (if y.threads.isEmpty then 3 else 5)).strip y own
  let s := (s.modCore c fun k => { k with clkrd := tdel k.clkrd (p, x.tenant), spilled := true, waysDone := 24, out := none }).loadWays c (List.range 24)
  let pa := x.save + imageBytes * y.idx
  let img := imageOf y
  let s : State := { s with parked := s.parked ++ [y], saveSerial := s.saveSerial + 1 }
  if presentRange s p pa img.length then hubStore s pa img else s

/-- Every core of a partition has spilled: SAVECNT rises, and the next context is current. -/
def State.endSwitch (s : State) (p : Nat) (x : Ctx) (into : Option Ctx) : State :=
  let s := if presentRange s p (x.desc + 24) 8 then hubStore s (x.desc + 24) (leBytes 8 (x.savecnt + 1)) else s
  let s := match into with | none => s | some y => if y.tenant = x.tenant then s.enterAll p y else s
  (s.become p into).switchDue p

/-- SPILL: every core of partition `arg.part` has stopped; its cores spill, with `arg.flag` only core `arg.core`. With the last one the
switch is over. -/
def execSpill (s : State) : Answer :=
  let p := s.arg.part
  let cores := s.coresOf p
  match (s.partn p).cur, (s.partn p).switch with
  | some x, .stopping into =>
    if (s.partn p).halted || !(cores.all fun c => (s.core c).stopped) then .next s
    else
      let s1 := s.beginSave p x
      let x1 := (s1.partn p).cur.getD x
      let todo := cores.filter fun c => !(s1.core c).spilled && (!s.arg.flag || decide (c = s.arg.core))
      let s2 := todo.foldl (State.saveCore p x1) s1
      .next (if cores.all fun c => (s2.core c).spilled then s2.endSwitch p x1 into else s2)
  | _, _ => .next s

/-! ## Load shedding (R356) -/

/-- Every current context is to be stopped and saved, as for CTXNEXT with IDLE = 1 and NOW = 1. -/
def Partition.pause (q : Partition) : Partition :=
  match q.cur, q.switch with
  | none, _ => { q with next := none, preloaded := false }
  | some _, .idle => q.beginStop none
  | some _, .stopping _ => { q with next := some (none, true), preloaded := true }

/-- POWER_LIMIT: the next step of the table is taken. -/
def execPowerLimit (s : State) : Answer :=
  if 5 ≤ s.powerStep then .next s
  else
    let n := s.powerStep + 1
    let s : State := { s with powerStep := n }
    if n < 4 then .next s
    else if n = 4 then .next (({ s with parts := s.parts.map fun x => (x.1, x.2.pause) } : State).noticeAll 8 4 0)
    else .next (s.noticeAll 8 5 0)

/-- SHED_RETURN: a step is undone. -/
def execShedReturn (s : State) : Answer := .next { s with powerStep := s.powerStep - 1 }

/-! ## Migration (R148) -/

/-- The launch may be moved for the one that waits. -/
def Launch.movable (l w : Launch) : Bool := l.placed && !l.lrec.nomig && decide (l.prio ≤ w.prio) && decide (l.part = w.part)

/-- A core has room for what was collected: its warp slots, registers, ways, bins and buffers. -/
def State.room (s : State) (c : Nat) (r : LRec) (x : SavedCore) : Bool :=
  let ways := x.blocks.foldl (fun n b => n + b.2.pways.length + b.2.cways.length) 0
  let regs := x.warps.foldl (fun n w => n + r.budgets.getD w.2.role 0) (if x.blocks.isEmpty then 0 else r.lbudget)
  let k := s.core c
  (x.warps.all fun w => (s.warp? c w.1).isNone) && decide (s.regsUsed c + regs ≤ 2048) && decide ((scrWays s c).length + ways ≤ 20) &&
  decide (k.bins.length + x.bins.length ≤ 8) && (x.acc0.held.isNone || k.acc0.held.isNone) && (x.acc1.held.isNone || k.acc1.held.isNone)

/-- The launch as it stands after a migration to an origin, if the cores there have room. -/
def State.migrate (s : State) (id : Nat) (l : Launch) (x y : Nat) : Option State :=
  let w := 2 ^ l.lrec.lw
  let h := 2 ^ l.lrec.lh
  let src := rectCores w h l.x0 l.y0
  let dst := rectCores w h x y
  let o : Own := ⟨l.part, l.tenant⟩
  let own (b : BRef) : Bool := decide (b.launch = id)
  let s1 := src.foldl (fun s c => (s.haltThreads c own).performThreads c own) s
  if !(src.all fun c => s1.quiet c own) then none
  else
    let s1 := ((src.foldl (fun s c => (s.abortCopies c own).endCopies c own) s1).stopRuns own).freezeReds id
    let l1 := src.map fun c => s1.collect o c own
    let s2 := l1.foldl (fun s y => (s.fenceCaches y.core 5).strip y own) s1
    if (dst.zip l1).all fun z => s2.room z.1 l.lrec z.2 then
      let f (c : Nat) : Nat := match firstIdx (fun k => k = c) src 0 with | none => c | some i => dst.getD i c
      some ((((s2.modLaunch id fun l => { l with x0 := x, y0 := y }).pass 64).restoreAll (l1.map (SavedCore.moved f 0))).thawReds id)
    else none

/-- MIGRATION: launch `arg.n` is moved to the origin (`arg.k`, `arg.off`), since no origin fits launch `arg.slot`, which has gone
unplaced for 4096 cycles. The place within a cluster stays, so that peer indices do (R30, R148; log 30). -/
def execMigration (s : State) : Answer :=
  match s.launch? s.arg.slot, s.launch? s.arg.n with
  | some wait, some l =>
    let due := match wait.offeredAt with | none => false | some t => decide (t + 4096 ≤ s.clock)
    let w := 2 ^ l.lrec.lw
    let h := 2 ^ l.lrec.lh
    let x := s.arg.k
    let y := s.arg.off
    if due && s.eligible wait && (s.originFor wait).isNone && l.movable wait && s.isCurrent ⟨l.part, l.tenant⟩ && decide ((x, y) ≠ (l.x0, l.y0)) &&
        decide (x % w = 0) && decide (y % h = 0) && decide (x % 4 = l.x0 % 4) && decide (y % 4 = l.y0 % 4) && s.onPart l.part w h x y then
      .next ((s.migrate s.arg.n l x y).getD s)
    else .next s
  | _, _ => .next s

end Sys2Proof.Machine
end

