-- ==== Sys2Proof/Machine/Security.lean ====
section
/-! DEFINITION. The security engine (spec 23 R371-R387): the mailbox, measurement, attestation, sealing, release and unsealing.
The functions of the standards are free functions of Config (log 20); a command is performed in one move. -/

namespace Sys2Proof.Machine

def digestOf (bs : List Byte) : BitVec 384 := BitVec.ofNat 384 (leValue (bs.take 48))

/-- An extension of a measurement by a digest (R376). -/
def extend (m : BitVec 384) (d : List Byte) : BitVec 384 := Config.sha384 (digestBytes m ++ d.take 48)

/-! ## Status codes (R378) -/

def stOK : Nat := 0
def stSTALE : Nat := 1
def stBADSIG : Nat := 2
def stPOLICY : Nat := 3
def stTAG : Nat := 4
def stSTATE : Nat := 5
def stMALFORMED : Nat := 6
def stALARM : Nat := 7
def stFULL : Nat := 8

/-! ## Counter records (R382) -/

/-- The counter of an entry with OPEN in bit 63, and the tag of its first 32 bytes under CK. -/
def CtrEnt.word (e : CtrEnt) : Nat := e.count.toNat + if e.open_ then 2 ^ 63 else 0
def CtrEnt.mac (e : CtrEnt) : BitVec 256 := Config.hmac (keyBytes counterKey) (e.id ++ leBytes 8 e.word ++ leBytes 8 e.seq)
/-- A valid entry: whole, and with its tag. -/
def CtrEnt.good (e : CtrEnt) : Bool := e.whole && decide (e.tag = e.mac)

/-- The record in force for an ID: the valid entry of the highest sequence number. -/
def Secure.entry? (x : Secure) (id : List Byte) : Option CtrEnt :=
  (sortBy CtrEnt.seq (x.counters.filter fun e => e.good && decide (e.id = id))).getLast?

/-- The counter of an ID; one without a record has 0 and OPEN clear. -/
def Secure.counter (x : Secure) (id : List Byte) : Nat := match x.entry? id with | none => 0 | some e => e.count.toNat
def Secure.open? (x : Secure) (id : List Byte) : Bool := match x.entry? id with | none => false | some e => e.open_

def Secure.nextSeq (x : Secure) : Nat := x.counters.foldl (fun m e => max m (e.seq + 1)) 0

/-- Room for an entry: the area has 64 sectors of 1024 entries. When the sector that is being filled is full the next one is, and so that
an empty one stays, the live records of the oldest are written to it before their sector is erased (R371, R382; log 72). -/
def Secure.makeRoom : Nat → Secure → Secure
  | 0, x => x
  | fuel + 1, x =>
    if (x.counters.countP fun e => decide (e.sec = x.ctrSec)) < 1024 then x
    else
      let next := (x.ctrSec + 1) % 64
      let old := (x.ctrSec + 2) % 64
      let live := x.counters.filter fun e => decide (e.sec = old) && decide (x.entry? e.id = some e)
      let kept := x.counters.filter fun e => decide (e.sec ≠ old)
      ({ x with ctrSec := next, counters := kept ++ live.map fun e => { e with sec := next } } : Secure).makeRoom fuel

/-- An entry written behind the others. -/
def Secure.write (x : Secure) (e : CtrEnt) : Secure :=
  let x := x.makeRoom 64
  { x with counters := x.counters ++ [{ e with sec := x.ctrSec }] }

/-- A record appended, in force at once. -/
def Secure.append (x : Secure) (id : List Byte) (count : Nat) (op : Bool) : Secure :=
  let e : CtrEnt := { id := id, count := BitVec.ofNat 63 count, open_ := op, seq := x.nextSeq, tag := 0 }
  x.write { e with tag := e.mac }

/-- The counter that follows one of 63 bits; the spec does not say what follows the greatest (log 2). -/
def State.nextCount (s : State) (c : Nat) : Nat := if c + 1 < 2 ^ 63 then c + 1 else (Config.free64 s.freeCtr).toNat % 2 ^ 63

/-- A record for one more ID than the area holds would be needed. -/
def Secure.full (x : Secure) (id : List Byte) : Bool :=
  (x.entry? id).isNone && decide (4096 ≤ (((x.counters.filter CtrEnt.good).map CtrEnt.id).eraseDups).length)

/-- The 8 bytes of a record in a report. -/
def Secure.crec (x : Secure) (id : List Byte) : List Byte := leBytes 8 (x.counter id % 2 ^ 63 + if x.open? id then 2 ^ 63 else 0)

/-! ## Bindings (R381) -/

def Secure.binding? (x : Secure) (p tenant : Nat) : Option Binding := x.bindings.find? fun b => b.part = p ∧ b.tenant = tenant
def Secure.bind (x : Secure) (b : Binding) : Secure :=
  { x with bindings := x.bindings.filter (fun y => !(decide (y.part = b.part) && decide (y.tenant = b.tenant))) ++ [b] }

/-! ## The mailbox (R379) -/

/-- A command block. -/
structure Cmb where
  addr : Nat
  code : Nat
  zero : Nat
  inlen : Nat
  inaddr : Nat
  outcap : Nat
  outaddr : Nat
  args : List Byte
  deriving DecidableEq, Repr

def Cmb.of (addr : Nat) (bs : List Byte) : Cmb :=
  { addr := addr, code := field bs 0 1, zero := field bs 2 2, inlen := field bs 4 4, inaddr := field bs 8 8, outcap := field bs 16 4,
    outaddr := field bs 24 8, args := (bs.drop 32).take 32 }

/-- The argument bytes that a command leaves unused are zero. -/
def Cmb.unused (b : Cmb) (used : List Nat) : Bool := (List.range 32).all fun i => used.contains i || decide (field b.args i 1 = 0)

/-- What a command asks of its block: the argument bytes it uses, the length of its input, and of its result. -/
structure CmdShape where
  used : List Nat
  inOk : Nat → Bool
  out : Nat

/-- A block that is malformed for a command. -/
def Cmb.malformed (b : Cmb) (s : State) (p : Nat) (k : CmdShape) : Bool :=
  decide (b.zero ≠ 0) || !b.unused k.used || !k.inOk b.inlen || decide (b.outcap < k.out) ||
  !presentRange s p b.inaddr b.inlen || !presentRange s p b.outaddr k.out

/-- SMADDR: a write of `arg.v` queues a command of partition `arg.part`, or is ignored while one is queued or in progress. -/
def execSmaddr (s : State) : Answer :=
  let p := s.arg.part
  if !s.regsAnswer p then .next s
  else if (s.partn p).smbusy then .next (s.modPart p fun q => { q with smign := true })
  else
    let s := s.modPart p fun q => { q with smign := false, smbusy := true, smaddr := (s.arg.v.extractLsb' 6 42).toNat * 64 }
    .next (s.modSec fun x => { x with queue := x.queue ++ [p] })

/-- The end of a command: result, OUTLEN and STATUS are written, DONE and LAST follow, BUSY clears, and the partition is told. -/
def State.finish (s : State) (p : Nat) (b : Cmb) (status : Nat) (out : List Byte) : State :=
  let s := if out.isEmpty then s else hubStore s b.outaddr out
  let s := if presentRange s p b.addr 64 then hubStore (hubStore s (b.addr + 20) (leBytes 4 out.length)) (b.addr + 1) (leBytes 1 status) else s
  let s := s.modPart p fun q => { q with smbusy := false, smdone := q.smdone + 1, smlast := BitVec.ofNat 8 status }
  let s := s.modSec fun x => { x with queue := x.queue.drop 1 }
  s.notice p 11 noTenant b.addr status

/-- A command of a code: the head of the engine's queue, with the checks that come before every effect. A block with an
unknown code is answered by whichever command comes. -/
def State.command (s : State) (p code : Nat) (shape : Cmb → CmdShape) (f : State → Cmb → List Byte → State × Nat × List Byte) : State :=
  match s.sec.queue with
  | [] => s
  | q :: _ =>
    let addr := (s.partn p).smaddr
    let b := Cmb.of addr (hubRead s addr 64)
    if q ≠ p then s
    else if s.sec.keysErased then s.finish p b stALARM []
    else if !presentRange s p addr 64 then s.finish p b stMALFORMED []
    else if b.code = 0 ∨ 9 < b.code then s.finish p b stMALFORMED []
    else if b.code ≠ code then s
    else if b.malformed s p (shape b) then s.finish p b stMALFORMED []
    else
      let r := f s b (hubRead s b.inaddr b.inlen)
      r.1.finish p b r.2.1 (if r.2.1 = stOK then r.2.2 else [])

/-! ## ATTEST, TBIND, TMEXT, SVNCOMMIT, MREXT (R374, R376, R378, R380, R381) -/

def bytes0 (n : Nat) : List Byte := List.replicate n 0
def Cmb.tenant (b : Cmb) : Nat := field b.args 0 1
def Cmb.desc (b : Cmb) : Nat := field b.args 8 8

/-- The part of a report that is signed. -/
def Secure.report (x : Secure) (p tenant : Nat) (nonce : List Byte) (b : Option Binding) (key : Nat) : List Byte :=
  let tm := match b with | none => bytes0 48 | some b => digestBytes b.tm
  let id := match b with | none => bytes0 16 | some b => b.id
  let crec := match b with | none => bytes0 8 | some b => x.crec b.id
  leBytes 4 1 ++ leBytes 1 p ++ leBytes 1 tenant ++ bytes0 2 ++ nonce ++ x.mr.flatMap digestBytes ++ tm ++ id ++ crec ++ leBytes 1 x.fsvn ++
  bytes0 7 ++ leBytes 1568 (Config.kemPublic key).toNat

/-- Both signatures over a message, by the alias keys (R377). -/
def Secure.signed (x : Secure) (msg : List Byte) : List Byte :=
  let seed := cdi0 (x.mr.getD 0 0)
  msg ++ leBytes 384 (Config.rsaSign seed msg).toNat ++ leBytes 16224 (Config.slhSign seed msg).toNat

/-- ATTEST (R380): a fresh encapsulation key replaces the one that the partition held. -/
def execAttest (s : State) : Answer :=
  let p := s.arg.part
  .next (s.command p 1 (fun _ => { used := [0], inOk := fun n => n = 32, out := 18680 }) fun s b nonce =>
    let bind := s.sec.binding? p b.tenant
    if b.tenant ≠ 255 ∧ 64 ≤ b.tenant then (s, stMALFORMED, [])
    else if b.tenant ≠ 255 ∧ bind.isNone then (s, stSTATE, [])
    else
      let key := s.sec.kemNext
      let rep := s.sec.signed (s.sec.report p b.tenant nonce (if b.tenant = 255 then none else bind) key)
      (s.modSec fun x => { x with kemNext := key + 1, kemKeys := tput x.kemKeys p (key, nonce) }, stOK, rep))

/-- TBIND (R381). -/
def execTbind (s : State) : Answer :=
  let p := s.arg.part
  .next (s.command p 2 (fun _ => { used := [0], inOk := fun n => n = 16, out := 0 }) fun s b id =>
    if 64 ≤ b.tenant then (s, stMALFORMED, [])
    else if s.sec.bindings.any fun y => decide (y.id = id) && !(decide (y.part = p) && decide (y.tenant = b.tenant)) then (s, stSTATE, [])
    else (s.modSec fun x => x.bind { part := p, tenant := b.tenant, id := id, tm := 0 }, stOK, []))

/-- TMEXT (R378, R381). -/
def execTmext (s : State) : Answer :=
  let p := s.arg.part
  .next (s.command p 3 (fun _ => { used := [0], inOk := fun n => n = 48, out := 48 }) fun s b d =>
    if 64 ≤ b.tenant then (s, stMALFORMED, [])
    else match s.sec.binding? p b.tenant with
      | none => (s, stSTATE, [])
      | some y =>
        let tm := extend y.tm d
        (s.modSec fun x => x.bind { y with tm := tm }, stOK, digestBytes tm))

/-- SVNCOMMIT (R374): never lowered. -/
def execSvncommit (s : State) : Answer :=
  .next (s.command s.arg.part 7 (fun _ => { used := [], inOk := fun n => n = 0, out := 1 }) fun s _ _ =>
    let v := max s.sec.fsvn s.sec.svn
    (s.modSec fun x => { x with fsvn := v }, stOK, leBytes 1 v))

/-- MREXT (R376). -/
def execMrext (s : State) : Answer :=
  .next (s.command s.arg.part 8 (fun _ => { used := [0], inOk := fun n => n = 48, out := 48 }) fun s b d =>
    let i := b.tenant
    if i < 2 ∨ 7 < i then (s, stMALFORMED, [])
    else
      let v := extend (s.sec.mr.getD i 0) d
      (s.modSec fun x => { x with mr := lset x.mr i v }, stOK, digestBytes v))

/-! ## The log area (R371, R391) -/

/-- The counters of R390, in the order of its table and in their sizes. -/
def Lifetime.bytes (l : Lifetime) : List Byte :=
  let w (n : Nat) (xs : List Nat) : List Byte := xs.flatMap fun x => leBytes n x
  w 4 [l.powerCycles, l.minutes] ++ w 4 l.tempBins ++ w 4 l.droops ++ w 4 l.corrected ++ w 4 l.uncorrected ++
  w 2 ((List.range 2048).map fun c => (tget l.parity c).getD 0) ++ w 4 l.retries ++ w 4 l.outOfService ++ w 2 l.alarms ++
  w 2 [l.imageFailures, l.recoveries, l.badTags]

/-- What a snapshot's CRC covers, and all that the snapshot holds. -/
def Snapshot.content (y : Snapshot) : List Byte := leBytes 8 y.seq ++ y.counters.bytes
def Snapshot.bytes (y : Snapshot) : List Byte := y.content ++ leBytes 8 y.crc
/-- A valid snapshot: whole, and with its CRC. -/
def Snapshot.good (y : Snapshot) : Bool := y.cut.isNone && decide (y.crc = crc64 y.content)

/-- Bytes of the log area: a ring of 512 snapshots of 8 KiB; what no snapshot fills is left open. -/
def Secure.logBytes (x : Secure) (off n : Nat) : List Byte :=
  (List.range' off n).map fun o =>
    match x.log.find? fun y => decide (y.seq % 512 = o / 8192) && (match y.cut with | none => true | some k => decide (o % 8192 < k)) with
    | some y => Config.snapByte y.bytes (o % 8192)
    | none => Config.freeByte 0 o

/-- LOGREAD (R378). -/
def execLogread (s : State) : Answer :=
  .next (s.command s.arg.part 9 (fun _ => { used := List.range 8, inOk := fun n => n = 0, out := 4096 }) fun s b _ =>
    let off := field b.args 0 8
    if off % 4096 ≠ 0 ∨ 2 ^ 22 ≤ off then (s, stMALFORMED, []) else (s, stOK, s.sec.logBytes off 4096))

/-! ## Sealing (R383, R384) -/

/-- Bytes of a sealed image: the ciphertext and its tag. -/
def sealedImage : Nat := 2 ^ 20 + 16

/-- The header of a sealed package. -/
def packHeader (id : List Byte) (c : Nat) (tm : BitVec 384) (n savecnt : Nat) : List Byte :=
  leBytes 4 1 ++ id ++ bytes0 4 ++ leBytes 8 c ++ digestBytes tm ++ leBytes 2 n ++ bytes0 6 ++ leBytes 8 savecnt

/-- The sealing key of a package (R383). -/
def sealKey (id : List Byte) (c : Nat) (tm : List Byte) : BitVec 256 :=
  Config.hkdf (keyBytes sealSecret) tm (ascii "FJ-SEAL" ++ id ++ leBytes 8 c)

def sealNonce (i : Nat) : List Byte := leBytes 4 i ++ bytes0 8

/-- An image encrypted under a key, with its tag. -/
def sealImage (k : BitVec 256) (hdr : List Byte) (i : Nat) (img : List Byte) : List Byte :=
  (List.range img.length).map (Config.gcmByte k (sealNonce i) hdr img) ++ leBytes 16 (Config.gcmTag k (sealNonce i) hdr img).toNat

/-- A tenant's context is current or next (R383, R386). -/
def State.inUse (s : State) (p tenant : Nat) : Bool :=
  let q := s.partn p
  let is (c : Ctx) : Bool := decide (c.tenant = tenant)
  q.cur.any is || (match q.next with | some (some c, _) => is c | _ => false) || (match q.switch with | .stopping (some c) => is c | _ => false)

/-- The descriptor of a tenant, when it and its save area lie in the partition's memory. -/
def State.descOf (s : State) (p : Nat) (b : Cmb) : Option Ctx :=
  let c := Ctx.of b.desc (hubRead s b.desc 128)
  if b.tenant < 64 ∧ b.desc % 128 = 0 ∧ presentRange s p b.desc 128 ∧ c.tenant = b.tenant ∧
      ((List.range (s.coresOf p).length).all fun i => presentRange s p (c.save + imageBytes * i) imageBytes) = true then some c else none

/-- The save area of a descriptor holds a complete save: every image passes the checks of R338. -/
def State.saveComplete (s : State) (p : Nat) (c : Ctx) : Bool := decide (c.savecnt ≠ 0) && (s.badImage p c).isNone

/-- SEAL (R383): the record is in force before anything is encrypted. -/
def execSealTenant (s : State) : Answer :=
  let p := s.arg.part
  let n := (s.coresOf p).length
  .next (s.command p 4 (fun _ => { used := [0] ++ List.range' 8 8, inOk := fun k => k = 0, out := 96 + n * sealedImage }) fun s b _ =>
    match s.descOf p b with
    | none => (s, stMALFORMED, [])
    | some c =>
      match s.sec.binding? p b.tenant with
      | none => (s, stSTATE, [])
      | some y =>
        if s.inUse p b.tenant ∨ s.saveComplete p c = false then (s, stSTATE, [])
        else if s.sec.full y.id then (s, stFULL, [])
        else
          let count := s.nextCount (s.sec.counter y.id)
          let hdr := packHeader y.id count y.tm n (c.savecnt - 1)
          let k := sealKey y.id count (digestBytes y.tm)
          let out := hdr ++ (List.range n).flatMap fun i => sealImage k hdr i (hubRead s (c.save + imageBytes * i) imageBytes)
          (({ s with freeCtr := s.freeCtr + 1 } : State).modSec fun x => x.append y.id count true, stOK, out))

/-! ## Release (R385) -/

/-- A package header is well formed; its counter has 63 bits (R382). -/
def headerOk (h : List Byte) : Bool := decide (field h 0 4 = 1) && decide (field h 20 4 = 0) && decide (field h 82 6 = 0) && decide (field h 24 8 < 2 ^ 63)

def headerId (h : List Byte) : List Byte := (h.drop 4).take 16
def headerC (h : List Byte) : Nat := field h 24 8
def headerTm (h : List Byte) : List Byte := (h.drop 32).take 48

/-- The key that wraps K for a peer. -/
def wrapKey (ss : BitVec 256) (nonce : List Byte) : BitVec 256 := Config.hkdf (keyBytes ss) nonce (ascii "FJ-WRAP")

/-- The measurements of a report keep a policy: entries of zeros match anything. -/
def policyOk (rep policy : List Byte) : Bool :=
  (List.range 8).all fun i =>
    let want := (policy.drop (48 * i)).take 48
    decide (want = bytes0 48) || decide (want = (rep.drop (40 + 48 * i)).take 48)

/-- RELEASE (R385): at most once, to a peer that has attested. -/
def execReleaseKey (s : State) : Answer :=
  .next (s.command s.arg.part 5 (fun _ => { used := [], inOk := fun n => 19192 ≤ n, out := 1616 }) fun s _ input =>
    let hdr := input.take 96
    let nonce := (input.drop 96).take 32
    let policy := (input.drop 128).take 384
    let rep := (input.drop 512).take 18680
    let certs := input.drop 19192
    let body := rep.take 2072
    let id := headerId hdr
    let c := headerC hdr
    let good := match Config.chainKeys certs with
      | none => false
      | some k => Config.rsaVerify k.1 body ((rep.drop 2072).take 384) && Config.slhVerify k.2 body ((rep.drop 2456).take 16224)
    if !headerOk hdr then (s, stMALFORMED, [])
    else if !good then (s, stBADSIG, [])
    else if (rep.drop 8).take 32 ≠ nonce ∨ (rep.drop 472).take 16 ≠ id ∨ field rep 0 4 ≠ field hdr 0 4 ∨ policyOk rep policy = false then
      (s, stPOLICY, [])
    else if s.sec.counter id ≠ c ∨ s.sec.open? id = false then (s, stSTALE, [])
    else if c ≤ field rep 488 8 % 2 ^ 63 then (s, stSTALE, [])
    else
      let k := sealKey id c (headerTm hdr)
      let e := Config.kemEncaps ((rep.drop 504).take 1568) s.freeCtr
      let kw := wrapKey e.2 nonce
      let plain := keyBytes k
      let wrapped := (List.range 32).map (Config.gcmByte kw (bytes0 12) hdr plain)
      let out := leBytes 1568 e.1.toNat ++ wrapped ++ leBytes 16 (Config.gcmTag kw (bytes0 12) hdr plain).toNat
      let s : State := { s with freeCtr := s.freeCtr + 1 }
      (s.modSec fun x => x.append id c false, stOK, out))

/-! ## Unsealing (R386, R387) -/

/-- The sealing key of a package by the blob of a release, or by the device's own record; a status where it is refused. -/
def State.unsealKey (s : State) (p blob : Nat) (hdr : List Byte) : Except Nat (BitVec 256) :=
  let id := headerId hdr
  let c := headerC hdr
  if blob = 0 then
    if s.sec.counter id = c ∧ s.sec.open? id = true then .ok (sealKey id c (headerTm hdr)) else .error stSTALE
  else
    match tget s.sec.kemKeys p with
    | none => .error stSTATE
    | some (key, nonce) =>
      let bs := hubRead s blob 1616
      let kw := wrapKey (Config.kemDecaps key (bs.take 1568)) nonce
      match Config.gcmOpen kw (bytes0 12) hdr ((bs.drop 1568).take 32) (BitVec.ofNat 128 (leValue ((bs.drop 1600).take 16))) with
      | none => .error stTAG
      | some k => if s.sec.counter id < c then .ok (BitVec.ofNat 256 (leValue k)) else .error stSTALE

/-- Image `i` of a package decrypted. -/
def openImage (k : BitVec 256) (hdr pack : List Byte) (i : Nat) : Option (List Byte) :=
  let x := (pack.drop (96 + sealedImage * i)).take sealedImage
  Config.gcmOpen k (sealNonce i) hdr (x.take imageBytes) (BitVec.ofNat 128 (leValue (x.drop imageBytes)))

/-- An image as it is written for a tenant: bytes 4 and 5 name the tenant and the partition. -/
def retagged (p tenant : Nat) (img : List Byte) : List Byte := img.take 4 ++ leBytes 1 tenant ++ leBytes 1 p ++ img.drop 6

/-- UNSEAL (R386): the record is in force before the images are written; before it nothing changes. -/
def execUnsealTenant (s : State) : Answer :=
  let p := s.arg.part
  let n := (s.coresOf p).length
  let used := [0] ++ List.range' 8 16
  .next (s.command p 6 (fun _ => { used := used, inOk := fun k => k = 96 + n * sealedImage, out := 0 }) fun s b pack =>
    let hdr := pack.take 96
    let blob := field b.args 16 8
    let id := headerId hdr
    match s.descOf p b with
    | none => (s, stMALFORMED, [])
    | some c =>
      if !headerOk hdr ∨ field hdr 80 2 ≠ n ∨ (blob ≠ 0 ∧ presentRange s p blob 1616 = false) then (s, stMALFORMED, [])
      else match s.sec.binding? p b.tenant with
        | none => (s, stSTATE, [])
        | some y =>
          if s.inUse p b.tenant ∨ y.id ≠ id then (s, stSTATE, [])
          else if s.sec.full id then (s, stFULL, [])
          else match s.unsealKey p blob hdr with
            | .error st => (s, st, [])
            | .ok k =>
              let imgs := (List.range n).map (openImage k hdr pack)
              if imgs.any Option.isNone then (s, stTAG, [])
              else
                let s := s.modSec fun x =>
                  let x : Secure := (x.append id (headerC hdr) false).bind { y with tm := digestOf (headerTm hdr) }
                  if blob = 0 then x else { x with kemKeys := tdel x.kemKeys p }
                let s := (imgs.filterMap fun (x : Option (List Byte)) => x).zipIdx.foldl (fun s im => hubStore s (c.save + imageBytes * im.2) (retagged p b.tenant im.1)) s
                (hubStore s (c.desc + 24) (leBytes 8 (field hdr 88 8 + 1)), stOK, []))

end Sys2Proof.Machine
end

