-- ==== Sys2Proof/Machine/Boot.lean ====
section
/-! DEFINITION. Reset, recovery, alarms and lifetime records (spec 22 R394, 23 R371-R376, R388-R391). -/

namespace Sys2Proof.Machine

/-! ## Snapshots (R391) -/

/-- A snapshot written to the ring of 512, whole or up to byte `cut`; entering a sector of 8 that is in use erases it first. -/
def Secure.snapshotTo (x : Secure) (cut : Option Nat) : Secure :=
  let n := x.log.foldl (fun m y => max m (y.seq + 1)) 0
  let kept := x.log.filter fun y => !(decide (n % 8 = 0) && decide (y.seq % 512 / 8 = n % 512 / 8))
  let y : Snapshot := { seq := n, counters := x.life, crc := 0, cut := cut }
  { x with log := kept ++ [{ y with crc := crc64 y.content }] }

def Secure.snapshot (x : Secure) : Secure := x.snapshotTo none

/-- The counters of the newest valid snapshot, from which counting resumes at boot. -/
def Secure.resumed (x : Secure) : Lifetime :=
  match (sortBy Snapshot.seq (x.log.filter Snapshot.good)).getLast? with | none => {} | some y => y.counters

def sat16 (a b : Nat) : Nat := satAdd 65535 a b

/-- The element of a list of counters raised by one. -/
def bump (sat : Nat → Nat → Nat) (l : List Nat) (i : Nat) : List Nat := lset l i (sat (l.getD i 0) 1)

/-! ## The image (R372, R373) -/

/-- The checks of the ROM on an image (R373). -/
def imagePasses (img : List Byte) (fsvn : Nat) : Bool :=
  let at_ (off n : Nat) : List Byte := (img.drop off).take n
  let len := field img 12 4
  let modulus := at_ 16672 384
  let key := at_ 17056 48
  let signed := at_ 0 64
  decide (field img 0 4 = 0x4A43_4657) && decide (field img 4 4 = 1) && decide (1 ≤ len) && decide (len ≤ 33536000) &&
  decide (17408 + len ≤ img.length) && decide (at_ 17104 304 = bytes0 304) && decide (Config.sha384 modulus = Config.kh1) &&
  decide (Config.sha384 key = Config.kh2) && decide (digestBytes (Config.sha384 (at_ 17408 len)) = at_ 16 48) &&
  Config.rsaVerify modulus signed (at_ 64 384) && Config.slhVerify key signed (at_ 448 16224) && decide (fsvn ≤ field img 8 4)

/-- The measurement registers after the ROM has extended them with an image. -/
def bootMrs (img : Option (List Byte)) : List (BitVec 384) :=
  match img with
  | none => Config.bootMr0 :: Config.bootMr1 :: List.replicate 6 0
  | some b => extend 0 (digestBytes (Config.sha384 (b.take 64))) :: extend 0 (digestBytes (Config.mapDigest b)) :: List.replicate 6 0

/-- The security version number of an image. -/
def imageSvn (img : Option (List Byte)) : Nat := match img with | none => Config.bootSvn | some b => field b 8 4

/-- An image failure is counted, and a snapshot written at once. -/
def Secure.imageFailed (x : Secure) : Secure :=
  ({ x with life := { x.life with imageFailures := sat16 x.life.imageFailures 1 } } : Secure).snapshot

/-! ## Package reset (R373, R394) -/

/-- The firmware of an image runs: it is measured, and the certificates of the alias keys are issued (R376, R377). -/
def Secure.measured (x : Secure) : Secure :=
  let mr := bootMrs x.image
  { x with mr := mr, certs := aliasCerts (mr.getD 0 0) }

/-! ## The partition map (R349, R351) -/

/-- The rectangles of dies that a partition may have, by width and height. -/
def dieRects : List (Nat × Nat) := [(1, 1), (2, 1), (1, 2), (2, 2), (4, 1), (4, 2)]

/-- The dies of an aligned rectangle of the 4 × 2 grid. -/
def rectDies (w h x y : Nat) : List Nat := (List.range h).flatMap fun j => (List.range w).map fun i => (y + j) * 4 + x + i

def dieRectOk (ds : List Nat) : Bool :=
  dieRects.any fun r => (List.range 4).any fun x => (List.range 2).any fun y =>
    decide (x % r.1 = 0) && decide (y % r.2 = 0) && decide (x + r.1 ≤ 4) && decide (y + r.2 ≤ 2) && decide (ds = rectDies r.1 r.2 x y)

/-- Windows given as base and GiB: aligned, in the range from `lo` to `hi`, and apart. -/
def windowsOk (lo hi : Nat) (ws : List (Nat × Nat)) : Bool :=
  let used := ws.filter fun w => decide (w.2 ≠ 0)
  used.all (fun w => decide (w.1 % 2 ^ 30 = 0) && decide (lo ≤ w.1) && decide (w.1 + w.2 * 2 ^ 30 ≤ hi)) &&
    used.zipIdx.all fun a => used.zipIdx.all fun b =>
      decide (a.2 = b.2) || decide (a.1.1 + a.1.2 * 2 ^ 30 ≤ b.1.1) || decide (b.1.1 + b.1.2 * 2 ^ 30 ≤ a.1.1)

/-- A map that R349 and R351 permit: rectangles of dies apart from each other, in the order of their lowest dies, windows in the ranges of
R205, and at most four of the 16 ways as guest ways. -/
def mapLegal (m : PartMap) : Bool :=
  let ds := m.shares.map Share.dies
  ds.all dieRectOk && decide ds.flatten.Nodup && decide ((ds.map fun l => l.headD 0).Pairwise (· < ·)) &&
  windowsOk 0x400_0000_0000 0x800_0000_0000 (m.shares.map fun x => (x.expBase, x.expGiB)) &&
  windowsOk 0x800_0000_0000 0x1000_0000_0000 (m.shares.map fun x => (x.hostBase, x.hostGiB)) && decide (m.guestWays.length ≤ 4) && decide m.guestWays.Nodup && m.guestWays.all fun w => decide (w < 16)

/-- The map of the image in flash; one that is not permitted boots no partition (log 14). -/
def Secure.map (x : Secure) : PartMap :=
  match x.image with
  | none => bootMap
  | some img => if mapLegal (Config.mapOf img) then Config.mapOf img else {}

/-- The partitions and guest ways of the map; in recovery no partition boots (R375). -/
def State.mapped (s : State) : State :=
  let m : PartMap := if s.sec.recovery then {} else s.sec.map
  { s with parts := mapParts m, guestWays := m.guestWays }

/-- The engine at the start of the ROM: what fuses and flash hold, and counting from the newest valid snapshot. -/
def Secure.boot (x : Secure) : Secure :=
  let life := x.resumed
  let bad := x.counters.countP fun e => !e.good
  let life : Lifetime := { life with powerCycles := if x.powered then life.powerCycles else sat32 life.powerCycles 1, badTags := sat16 life.badTags bad }
  let y : Secure := {
    mr := List.replicate 8 0, bindings := [], counters := x.counters, ctrSec := x.ctrSec, certs := [], fsvn := x.fsvn, svn := imageSvn x.image, recovery := !x.imageGood,
    imageGood := x.imageGood, image := x.image, kemNext := x.kemNext, life := life, log := x.log, snapAt := life.minutes }
  if x.imageGood ∧ x.fsvn ≤ imageSvn x.image then y.measured else ({ y with recovery := true } : Secure).imageFailed

/-- The machine at a package reset: memory, the images that saves have written, the flash and the fuses stay; the partitions are those
of the map in flash. -/
def State.reboot (s : State) : State :=
  ({ State.reset with
    agenda := s.agenda, arg := s.arg, freeCtr := s.freeCtr, mem := s.mem, poison := s.poison, parked := s.parked, saveSerial := s.saveSerial,
    sec := s.sec.boot, hw := s.hw, mgmt := s.mgmt, hostOut := s.hostOut } : State).mapped

def execPackageReset (s : State) : Answer := .next s.reboot

/-- PARTITION_RESET: partition `arg.part` holds no context, its cores no thread, the scheduler none of its queues, and its
registers have their reset values (R394; log 29). -/
def execPartitionReset (s : State) : Answer :=
  let p := s.arg.part
  if !s.regsAnswer p then .next s
  else
    let cores := s.coresOf p
    let mine (c : Nat) : Bool := cores.contains c
    let s := s.threads.foldl (fun s x => if mine x.1.core then s.flushAll x.1 else s) s
    let s := cores.foldl (fun s c => match tget s.cores c with | none => s | some _ => (s.fenceCaches c 5).setCore c {}) s
    let q := s.partn p
    let fresh : Partition := {
      dies := q.dies, expBase := q.expBase, expGiB := q.expGiB, hostBase := q.hostBase, hostGiB := q.hostGiB, smaddr := q.smaddr, smbusy := q.smbusy,
      smign := q.smign, smdone := q.smdone, smlast := q.smlast, masks := q.masks, msix := q.msix, halted := q.halted, fatal := q.fatal, nspace := q.nspace }
    let s := dropTlbs s cores fun e => decide (e.part = p)
    let s := dropWalks s cores fun w => decide (w.part = p)
    .next { s.setPart p fresh with
      threads := s.threads.filter (fun x => !mine x.1.core), warps := s.warps.filter (fun x => !mine x.1.1),
      blocks := s.blocks.filter (fun x => decide (x.2.part ≠ p)), slots := s.slots.filter (fun x => decide (x.2.part ≠ p)),
      pending := s.pending.filter (fun x => decide (x.part ≠ p)), launches := s.launches.filter (fun x => decide (x.2.part ≠ p)),
      rectHeld := s.rectHeld.filter (fun x => !mine x.1), rectReqs := s.rectReqs.filter (fun x => !mine x.1),
      shadow := s.shadow.filter fun x => decide (x.part ≠ p) }

/-! ## Recovery (R375) -/

/-- Return codes of the CXL mailbox (log 20: from CXL 3.1, which the spec names and does not restate). -/
def cxlSuccess : Nat := 0
def cxlUnsupported : Nat := 3
def cxlInvalidPayload : Nat := 0x16

/-- What a mailbox command answers. -/
def State.reply (s : State) (code : Nat) (payload : List Byte) : State := { s with hostOut := leBytes 2 code ++ payload }

/-- A mailbox command: it is answered in recovery only, and not while an image is being written. -/
def State.mailbox (s : State) (f : State → State) : Answer :=
  if !s.sec.powered || s.sec.writing then .next s else .next (if s.sec.recovery then f s else s.reply cxlUnsupported [])

/-- An action of Transfer FW, for the slot number `arg.slot`, which is 1. -/
def State.transferFw (s : State) (f : State → State) : Answer :=
  s.mailbox fun s => if s.arg.slot ≠ 1 then s.reply cxlUnsupported [] else f s

/-- GET_FW_INFO: the answer's bytes are those of CXL 3.1, which the spec does not restate. -/
def execGetFwInfo (s : State) : Answer :=
  s.mailbox fun s => { s.reply cxlSuccess ((List.range 80).map (Config.freeByte s.freeCtr)) with freeCtr := s.freeCtr + 1 }

/-- TRANSFER_FW_INITIATE: the first bytes `arg.bytes`. -/
def execTransferFwInitiate (s : State) : Answer :=
  s.transferFw fun s => (s.modSec fun x => { x with transfer := true, received := s.arg.bytes }).reply cxlSuccess []

/-- TRANSFER_FW_CONTINUE: further bytes. -/
def execTransferFwContinue (s : State) : Answer :=
  s.transferFw fun s =>
    if s.sec.transfer then (s.modSec fun x => { x with received := x.received ++ s.arg.bytes }).reply cxlSuccess [] else s.reply cxlUnsupported []

/-- The received image stands in flash and runs. -/
def Secure.recovered (x : Secure) : Secure :=
  let life := { x.life with recoveries := sat16 x.life.recoveries 1 }
  let img := some x.received
  (({ x with imageGood := true, image := img, svn := imageSvn img, recovery := false, transfer := false, writing := false, received := [], life := life } :
    Secure).measured).snapshot

/-- The write of a received image begins: the image area is erased (R375). -/
def Secure.beginWrite (x : Secure) : Secure := { x with imageGood := false, image := some x.received, writing := true }

/-- The received image has been written, read back and compared: its partitions boot. -/
def State.imageWritten (s : State) : State := ((s.modSec Secure.recovered).mapped).reply cxlSuccess []

/-- TRANSFER_FW_END: the last bytes; the image is verified and written, or refused. With `arg.flag` the write only begins. -/
def execTransferFwEnd (s : State) : Answer :=
  s.transferFw fun s =>
    if !s.sec.transfer then s.reply cxlUnsupported []
    else
      let s := s.modSec fun x => { x with received := x.received ++ s.arg.bytes }
      if imagePasses s.sec.received s.sec.fsvn then if s.arg.flag then s.modSec Secure.beginWrite else s.imageWritten
      else (s.modSec fun x => { x.imageFailed with transfer := false, received := [] }).reply cxlInvalidPayload []

/-- TRANSFER_FW_ABORT. -/
def execTransferFwAbort (s : State) : Answer :=
  s.transferFw fun s => (s.modSec fun x => { x with transfer := false, received := [] }).reply cxlSuccess []

/-! ## Alarms (R388, R389) -/

/-- The policy of a class: 0 log, 1 halt tenants, 2 and 3 erase. -/
def alarmPolicy (k : Nat) : Nat := Config.almpol.toNat / 4 ^ k % 4

/-- Every SRAM outside the power floor is zeroed: dirty lines are lost with it. -/
def State.zeroSram (s : State) : State :=
  { s with cores := [], warps := [], threads := [], blocks := [], rdc := [], l2 := [], floors := [], ctlb := [], cwalk := [], slots := [], pending := [],
           launches := [], rectHeld := [], rectReqs := [], shadow := [], hubq := [] }

/-- The key store is cleared and UDS locked. -/
def Secure.erase (x : Secure) : Secure :=
  { x with kemKeys := [], bindings := [], keysErased := true, udsLocked := true, erased := true }

/-- The record that the command at the head of the engine's queue appends, if any. -/
def State.appending (s : State) : Option CtrEnt :=
  match s.sec.queue with
  | [] => none
  | p :: _ =>
    let run : Answer :=
      match field (hubRead s (s.partn p).smaddr 1) 0 1 with
      | 4 => execSealTenant { s with arg := { part := p } }
      | 5 => execReleaseKey { s with arg := { part := p } }
      | 6 => execUnsealTenant { s with arg := { part := p } }
      | _ => .next s
    match run with
    | .next t => if s.sec.nextSeq < t.sec.nextSeq then t.sec.counters.getLast? else none
    | _ => none

/-- An alarm ends the command in progress, that of the head of the queue: it answers ALARM and nothing of it leaves. With `kept` its
record had been appended, which stays in force. -/
def State.endCommand (s : State) (kept : Bool) : State :=
  match s.sec.queue with
  | [] => s
  | p :: _ =>
    let e := if kept then s.appending else none
    let s := match e with | none => s | some e => s.modSec fun x => x.write e
    let addr := (s.partn p).smaddr
    s.finish p (Cmb.of addr (hubRead s addr 64)) stALARM []

/-- An alarm is raised, counted and logged at once. -/
def Secure.alarmed (x : Secure) (k : Nat) : Secure :=
  ({ x with raised := x.raised ||| BitVec.ofNat 4 (2 ^ k), life := { x.life with alarms := bump sat16 x.life.alarms k } } : Secure).snapshot

/-- STOP without a save: the groups of a core halt, and its copy commands that have counted nothing are aborted (R339, R341). -/
def State.stopCore (s : State) (c : Nat) : State := (s.haltThreads c fun _ => true).abortCopies c fun _ => true

/-- Halt tenants: every partition is stopped until package reset. -/
def State.haltTenants (s : State) (k : Nat) : State :=
  let s := s.modSec fun x => { x with haltedBy := x.haltedBy ||| BitVec.ofNat 4 (2 ^ k) }
  let s := (s.cores.map Prod.fst).foldl State.stopCore s
  ({ s with parts := s.parts.map fun x => (x.1, { x.2 with halted := true }) } : State).noticeAll 9 k 0

/-- Erase: the keys and every SRAM are zeroed, and every partition stops. -/
def State.eraseAll (s : State) (k : Nat) : State :=
  let s := (s.modSec Secure.erase).zeroSram
  s.parts.foldl (fun s x => s.fatalStop x.1 2 k) s

/-- ALARM: a sensor of class `arg.k` raises an alarm; in the same cycle so does one of class `arg.off` − 1, if that is a class. The
stronger policy acts. With `arg.flag` a command was in progress, which ends: its record was appended if `arg.n` is 1. An alarm of a later
event comes in a later cycle. -/
def execAlarm (s : State) : Answer :=
  let a := s.arg
  if 4 ≤ a.k ∨ !s.sec.powered then .next s
  else
    let s := if s.sec.alarmAt = some s.clock then s.advance 1 else s
    let s := s.modSec fun x => { x with alarmAt := some s.clock }
    let ks := if 1 ≤ a.off ∧ a.off ≤ 4 ∧ a.off ≠ a.k + 1 then [a.k, a.off - 1] else [a.k]
    let s := if a.flag then s.endCommand (a.n = 1) else s
    let s := s.modSec fun x => ks.foldl Secure.alarmed x
    match ks.find? fun k => decide (2 ≤ alarmPolicy k), ks.find? fun k => decide (alarmPolicy k = 1) with
    | some k, _ => .next (s.eraseAll k)
    | none, some k => .next (s.haltTenants k)
    | none, none => .next s

/-! ## Lifetime counters (R390) -/

/-- A counter that counts while the package has power. -/
def State.count (s : State) (f : Lifetime → Lifetime) : State := if s.sec.powered then s.modSec fun x => { x with life := f x.life } else s

/-- POWERED_MINUTE: a minute has passed with the hottest die sensor at `arg.temp` degrees Celsius. -/
def execPoweredMinute (s : State) : Answer :=
  let t := s.arg.temp
  let bin : Nat := if t < 0 then 0 else min 14 (t.toNat / 10 + 1)
  .next (s.count fun l => { l with minutes := sat32 l.minutes 1, tempBins := bump sat32 l.tempBins bin })

/-- DROOP_EVENT: a core rail of die `arg.k` has drooped. -/
def execDroopEvent (s : State) : Answer := .next (s.count fun l => { l with droops := bump sat32 l.droops s.arg.k })

/-- LOG_SNAPSHOT: ten minutes of powered time have passed since the last one. -/
def execLogSnapshot (s : State) : Answer :=
  if s.sec.powered ∧ s.sec.snapAt + 10 ≤ s.sec.life.minutes then
    .next (s.modSec fun x => { x.snapshot with snapAt := x.life.minutes })
  else .next s

/-! ## Power loss and the management endpoint (R382, R391) -/

/-- What a power loss tears: with `arg.k` = 1 the entry that a command appends, 3 a snapshot, of which `arg.n` bytes stand, 4 an image
write; with 2 the entry is whole and the rest of its command is lost. -/
def State.torn (s : State) : Secure :=
  let x := s.sec
  match s.arg.k with
  | 1 => match s.appending with | none => x | some e => x.write { e with whole := false }
  | 2 => match s.appending with | none => x | some e => x.write e
  | 3 => x.snapshotTo (some (min s.arg.n 8191))
  | 4 => if x.recovery && x.transfer && imagePasses x.received x.fsvn then { x with imageGood := false } else x
  | _ => x

/-- POWER_LOSS: everything but the flash, the fuses and memory outside the package is lost, until the next package reset. -/
def execPowerLoss (s : State) : Answer :=
  let x := s.torn
  .next { State.reset with
    agenda := s.agenda, arg := s.arg, freeCtr := s.freeCtr, mem := s.mem.filter (fun c => decide (0x80_0000_0000 ≤ c.1)), parked := s.parked,
    saveSerial := s.saveSerial, hw := s.hw, mgmt := s.mgmt, hostOut := s.hostOut, parts := [],
    sec := { x with powered := false, recovery := true, writing := false, certs := [], bindings := [], kemKeys := [], queue := [], transfer := false, received := [], mr := List.replicate 8 0 } }

/-- The word of ALMSTAT (R388). -/
def Secure.almstat (x : Secure) : Nat := (if x.erased then 256 else 0) + x.haltedBy.toNat * 16 + x.raised.toNat

/-- MCTP_MESSAGE: the management endpoint reads the log area or an alarm register. -/
def execMctpMessage (s : State) : Answer :=
  if !s.sec.powered then .next s
  else
    .next { s with hostOut := match s.arg.req with
      | .log off => s.sec.logBytes (off % 2 ^ 22) (min 4096 (2 ^ 22 - off % 2 ^ 22))
      | .almpol => leBytes 4 Config.almpol.toNat
      | .almstat => leBytes 4 s.sec.almstat }

end Sys2Proof.Machine
end

