-- ==== Sys2Proof/Machine/Convert.lean ====
section
/-! DEFINITION. Conversions, packing and codebooks (spec 04 R102-R106). -/

namespace Sys2Proof.Machine

/-- A result as 64 bits with its flags. -/
def cvtNat (r : Nat × Flags) : Dword × Flags := (BitVec.ofNat 64 r.1, r.2)
/-- An integer result sign-extended to 64 bits, so that its low word is the delivered word. -/
def cvtInt (r : Int × Flags) : Dword × Flags := (BitVec.ofInt 64 r.1, r.2)

/-- FP32 rounded to an integral FP32 value (R104, code 0x1C). -/
def toIntegral (m : RMode) (a : Nat) : Nat × Flags :=
  match decodeF FP32 a with
  | .nan sig => (FP32.cnan, if sig then INV else 0)
  | .inf _ => (a, 0)
  | .fin neg num den =>
    let r := roundInt m neg num den
    (if r.1 = 0 then zeroF FP32 neg else (deliver FP32 .rne (ofInt r.1)).1, if r.2 then INX else 0)

/-- The conversions of R103: the source as a 64-bit operand, the value delivered and the flags. -/
def cvt (k : Nat) (m : RMode) (v : Dword) : Dword × Flags :=
  let a := v.toNat % 2 ^ 32
  let f := decodeF FP32 a
  let i32 := signed 32 a
  match k with
  | 0x00 => cvtInt (narrowInt (-(2 ^ 31)) (2 ^ 31 - 1) m f)
  | 0x01 => cvtInt (narrowInt 0 (2 ^ 32 - 1) m f)
  | 0x02 => cvtInt (narrowInt (-(2 ^ 63)) (2 ^ 63 - 1) m f)
  | 0x03 => cvtInt (narrowInt 0 (2 ^ 64 - 1) m f)
  | 0x04 => cvtNat (narrowF FP32 m (ofInt i32))
  | 0x05 => cvtNat (narrowF FP32 m (ofInt a))
  | 0x06 => cvtNat (narrowF FP32 m (ofInt v.toInt))
  | 0x07 => cvtNat (narrowF FP32 m (ofInt v.toNat))
  | 0x08 => cvtNat (narrowF FP16 m f)
  | 0x09 => cvtNat (narrowF BF16 m f)
  | 0x0A => cvtNat (narrowF FH8 m f)
  | 0x0B => cvtNat (narrowF FH6 m f)
  | 0x0C => cvtNat (widenF FP16 FP32 (a % 2 ^ 16))
  | 0x0D => cvtNat (widenF BF16 FP32 (a % 2 ^ 16))
  | 0x0E => cvtNat (widenF FH8 FP32 (a % 2 ^ 8))
  | 0x0F => cvtNat (widenF FH6 FP32 (a % 2 ^ 6))
  | 0x10 => cvtInt (narrowInt (-(2 ^ 15)) (2 ^ 15 - 1) m f)
  | 0x11 => cvtInt (narrowInt 0 (2 ^ 16 - 1) m f)
  | 0x12 => cvtInt (narrowInt (-(2 ^ 7)) (2 ^ 7 - 1) m f)
  | 0x13 => cvtInt (narrowInt 0 (2 ^ 8 - 1) m f)
  | 0x14 => cvtInt (clampInt (-(2 ^ 15)) (2 ^ 15 - 1) i32)
  | 0x15 => cvtInt (clampInt 0 (2 ^ 16 - 1) i32)
  | 0x16 => cvtInt (clampInt (-(2 ^ 7)) (2 ^ 7 - 1) i32)
  | 0x17 => cvtInt (clampInt 0 (2 ^ 8 - 1) i32)
  | 0x18 => cvtInt (clampInt 0 (2 ^ 16 - 1) a)
  | 0x19 => cvtInt (clampInt 0 (2 ^ 8 - 1) a)
  | 0x1A => cvtInt (clampInt (-(2 ^ 31)) (2 ^ 31 - 1) v.toInt)
  | 0x1B => cvtInt (clampInt 0 (2 ^ 32 - 1) v.toNat)
  | _ => cvtNat (toIntegral m a)

/-- CVT (R102-R104): a 64-bit source or destination is a pair. -/
def execCvt (m : BitVec 2) (k a : Code) (n : Bool) (d : Code) (e : Bool) (s : State) : Answer :=
  issueLane (.cvt m k a n d e) s fun th =>
    let v : Dword := if cvtWideSrc k then th.pair a.toNat else (th.word a.toNat).setWidth 64
    let r := cvt k.toNat (rmode m) v
    if cvtWideDst k then res2 n d.toNat r.1 r.2 else res1 n d.toNat (loWord r.1) r.2

/-! ## Packing (R105) -/

def pkbf (a b : Nat) : Nat × Flags :=
  let x := narrowF BF16 .rne (decodeF FP32 a)
  let y := narrowF BF16 .rne (decodeF FP32 b)
  (x.1 + y.1 * 2 ^ 16, x.2 ||| y.2)

def pkh8 (a b : Nat) : Nat × Flags :=
  let q (v : Nat) := narrowF FH8 .rne (decodeF BF16 v)
  let x0 := q (a % 65536)
  let x1 := q (a / 65536)
  let x2 := q (b % 65536)
  let x3 := q (b / 65536)
  (x0.1 + x1.1 * 2 ^ 8 + x2.1 * 2 ^ 16 + x3.1 * 2 ^ 24, x0.2 ||| x1.2 ||| x2.2 ||| x3.2)

def execPkbf (b a : Code) (n : Bool) (d : Code) (e : Bool) (s : State) : Answer :=
  issueLane (.pkbf b a n d e) s fun th =>
    let r := pkbf (th.word a.toNat).toNat (th.word b.toNat).toNat
    res1 n d.toNat (BitVec.ofNat 32 r.1) r.2

def execPkh8 (b a : Code) (n : Bool) (d : Code) (e : Bool) (s : State) : Answer :=
  issueLane (.pkh8 b a n d e) s fun th =>
    let r := pkh8 (th.word a.toNat).toNat (th.word b.toNat).toNat
    res1 n d.toNat (BitVec.ofNat 32 r.1) r.2

def execUpkbf (a : Code) (n : Bool) (d : Code) (e : Bool) (s : State) : Answer :=
  issueLane (.upkbf a n d e) s fun th =>
    let v := (th.word a.toNat).toNat
    let x := widenF BF16 FP32 (v % 65536)
    let y := widenF BF16 FP32 (v / 65536)
    res2 n d.toNat (BitVec.ofNat 64 (x.1 + y.1 * 2 ^ 32)) (x.2 ||| y.2)

def execUpkh8 (a : Code) (n : Bool) (d : Code) (e : Bool) (s : State) : Answer :=
  issueLane (.upkh8 a n d e) s fun th =>
    let v := (th.word a.toNat).toNat
    let q (i : Nat) := widenF FH8 BF16 (v / 256 ^ i % 256)
    let val := (q 0).1 + (q 1).1 * 2 ^ 16 + (q 2).1 * 2 ^ 32 + (q 3).1 * 2 ^ 48
    res2 n d.toNat (BitVec.ofNat 64 val) ((q 0).2 ||| (q 1).2 ||| (q 2).2 ||| (q 3).2)

/-! ## Codebooks (R106) -/

/-- The CB4 table of a warp: k48 to k55 (R73). -/
def Warp.table (w : Warp) : List Word := (List.range 8).map fun i => (w.k[48 + i]?).getD 0

/-- Two codes chosen by j, expanded through a table of 16 BF16 words. -/
def expand2 (tbl : Nat → Nat) (a b : Word) : Word :=
  let v := a.toNat / 256 ^ (b.toNat % 4)
  BitVec.ofNat 32 (tbl (v % 16) + tbl (v / 16 % 16) * 65536)

/-- Two FP32 values quantised: the code of B above the code of A; a signalling NaN sets INV as well. -/
def quant2 (q : FVal → Nat × Flags) (a b : Word) : Word × Flags :=
  let u := decodeF FP32 a.toNat
  let v := decodeF FP32 b.toNat
  let x := q u
  let y := q v
  (BitVec.ofNat 32 (y.1 * 16 + x.1), x.2 ||| y.2 ||| if u.isSig || v.isSig then INV else 0)

def execCbx (b a : Code) (n : Bool) (d : Code) (e : Bool) (s : State) : Answer :=
  issueLaneAt (.cbx b a n d e) s fun s t th =>
    res1 n d.toNat (expand2 (cb4Expand (s.warp t.core t.slot).table) (th.word a.toNat) (th.word b.toNat))

def execCbq (b a : Code) (n : Bool) (d : Code) (e : Bool) (s : State) : Answer :=
  issueLaneAt (.cbq b a n d e) s fun s t th =>
    let tbl := (cb4Entries (s.warp t.core t.slot).table).map (decodeF BF16)
    let r := quant2 (cb4Quant tbl) (th.word a.toNat) (th.word b.toNat)
    res1 n d.toNat r.1 r.2

def execNqx (b a : Code) (n : Bool) (d : Code) (e : Bool) (s : State) : Answer :=
  issueLane (.nqx b a n d e) s fun th =>
    res1 n d.toNat (expand2 (fun c => nq4Table.getD c 0) (th.word a.toNat) (th.word b.toNat))

def execNqq (b a : Code) (n : Bool) (d : Code) (e : Bool) (s : State) : Answer :=
  issueLane (.nqq b a n d e) s fun th =>
    let r := quant2 nq4Quant (th.word a.toNat) (th.word b.toNat)
    res1 n d.toNat r.1 r.2

end Sys2Proof.Machine
end

