-- ==== Sys2Proof/Machine/CrossLane.lean ====
section
/-! DEFINITION. The cross-lane instructions (spec 08 R157-R165, 03 R78) and the access to a warp's k registers (R162,
R163). Each cross-lane instruction is a rendezvous: what a thread supplies stands here, what the rendezvous delivers in
`crossResult`. -/

namespace Sys2Proof.Machine

/-- What a thread supplies to a cross-lane instruction with a register operand. -/
def offerA (op : XOp) (a : Code) (n : Bool) (d : Code) (e : Bool) (th : Thread) : Offer :=
  { op := op, a := th.word a.toNat, d := d.toNat, n := n, e := e }

/-- What a thread supplies to a shuffle. -/
def offerAB (op : XOp) (b a : Code) (n : Bool) (d : Code) (e : Bool) (th : Thread) : Offer :=
  { op := op, a := th.word a.toNat, b := th.word b.toNat, d := d.toNat, n := n, e := e }

/-- What a thread supplies to a cross-lane instruction with a predicate operand. -/
def offerP (op : XOp) (p : BitVec 2) (n : Bool) (d : Code) (e : Bool) (th : Thread) : Offer :=
  { op := op, p := th.pred p.toNat, d := d.toNat, n := n, e := e }

/-! ## Shuffles (R164) -/

def execShflIdx (b a : Code) (n : Bool) (d : Code) (e : Bool) (s : State) : Answer :=
  issueMeet (.shflIdx b a n d e) s (offerAB .shflIdx b a n d e)

def execShflUp (b a : Code) (n : Bool) (d : Code) (e : Bool) (s : State) : Answer :=
  issueMeet (.shflUp b a n d e) s (offerAB .shflUp b a n d e)

def execShflDown (b a : Code) (n : Bool) (d : Code) (e : Bool) (s : State) : Answer :=
  issueMeet (.shflDown b a n d e) s (offerAB .shflDown b a n d e)

def execShflXor (b a : Code) (n : Bool) (d : Code) (e : Bool) (s : State) : Answer :=
  issueMeet (.shflXor b a n d e) s (offerAB .shflXor b a n d e)

/-! ## Votes, reductions and the match family (R165) -/

def execVoteAny (p : BitVec 2) (n : Bool) (d : Code) (e : Bool) (s : State) : Answer :=
  issueMeet (.voteAny p n d e) s (offerP .voteAny p n d e)

def execVoteAll (p : BitVec 2) (n : Bool) (d : Code) (e : Bool) (s : State) : Answer :=
  issueMeet (.voteAll p n d e) s (offerP .voteAll p n d e)

def execVoteBallot (p : BitVec 2) (n : Bool) (d : Code) (e : Bool) (s : State) : Answer :=
  issueMeet (.voteBallot p n d e) s (offerP .voteBallot p n d e)

def execCompact (p : BitVec 2) (n : Bool) (d : Code) (e : Bool) (s : State) : Answer :=
  issueMeet (.compact p n d e) s (offerP .compact p n d e)

def execVoteUni (a : Code) (n : Bool) (d : Code) (e : Bool) (s : State) : Answer :=
  issueMeet (.voteUni a n d e) s (offerA .voteUni a n d e)

def execRedaddI (a : Code) (n : Bool) (d : Code) (e : Bool) (s : State) : Answer :=
  issueMeet (.redaddI a n d e) s (offerA .redaddI a n d e)

def execRedaddF (a : Code) (n : Bool) (d : Code) (e : Bool) (s : State) : Answer :=
  issueMeet (.redaddF a n d e) s (offerA .redaddF a n d e)

def execRedminS (a : Code) (n : Bool) (d : Code) (e : Bool) (s : State) : Answer :=
  issueMeet (.redminS a n d e) s (offerA .redminS a n d e)

def execRedmaxS (a : Code) (n : Bool) (d : Code) (e : Bool) (s : State) : Answer :=
  issueMeet (.redmaxS a n d e) s (offerA .redmaxS a n d e)

def execMatchLanes (a : Code) (n : Bool) (d : Code) (e : Bool) (s : State) : Answer :=
  issueMeet (.matchLanes a n d e) s (offerA .matchLanes a n d e)

def execScanadd (a : Code) (n : Bool) (d : Code) (e : Bool) (s : State) : Answer :=
  issueMeet (.scanadd a n d e) s (offerA .scanadd a n d e)

def execElect (n : Bool) (d : Code) (e : Bool) (s : State) : Answer :=
  issueMeet (.elect n d e) s fun _ => { op := .elect, d := d.toNat, n := n, e := e }

/-! ## The warp's own registers (R162, R163) -/

def execRdk (k : BitVec 6) (n : Bool) (d : Code) (e : Bool) (s : State) : Answer :=
  issueLaneAt (.rdk k n d e) s fun s t _ => res1 n d.toNat (((s.warp t.core t.slot).k[k.toNat]?).getD 0)

/-- k registers written from a base on. A register written whole loses its parity error. -/
def Warp.setK (w : Warp) : Nat → List Word → Warp
  | _, [] => w
  | i, v :: vs => ({ w with k := w.k.setIfInBounds i v, badK := w.badK.filter (· ≠ i) } : Warp).setK (i + 1) vs

/-- The thread of a group in the lowest lane of a warp. -/
def lowestLane (g : List TRef) (c sl : Nat) : Option TRef :=
  (sortBy TRef.lane (g.filter fun t => t.core = c ∧ t.slot = sl)).head?

/-- A write of k registers of every warp that a group touches, from the group's lowest lane of that warp (R163). -/
def issueKWrite (i : Instr) (s : State) (base : Nat) (f : Thread → List Word) : Answer :=
  issueWith i s (fun _ _ => none) fun s g =>
    let vals := (groupWarps g).map fun w =>
      (w, match lowestLane g w.1 w.2 with | none => [] | some t => f (s.thread t))
    let s := vals.foldl (fun s x => s.modWarp x.1.1 x.1.2 fun w => w.setK base x.2) s
    g.foldl (fun s t => s.settleFate i t .go) s

def execWrk (k : BitVec 6) (a : Code) (e : Bool) (s : State) : Answer :=
  issueKWrite (.wrk k a e) s k.toNat fun th => [th.word a.toNat]

def execCbset (a : Code) (e : Bool) (s : State) : Answer :=
  issueKWrite (.cbset a e) s 48 fun th => th.group a.toNat 8

end Sys2Proof.Machine
end

