-- ==== Sys2Proof/Machine/Float.lean ====
section
/-! DEFINITION. FP32 arithmetic, BF16 pairs and special functions (spec 04 R95-R101) and their 16-bit forms (02 R36). -/

namespace Sys2Proof.Machine

/-- A float operation on 32-bit operands: value and flags. -/
def fl2 (f : Nat → Nat → Nat × Flags) (x y : Word) : Word × Flags :=
  let r := f x.toNat y.toNat
  (BitVec.ofNat 32 r.1, r.2)

/-- An RR float instruction: its flags are set also with N = 1 (R82). -/
def frr (f : Nat → Nat → Nat × Flags) (b a : Code) (n : Bool) (d : Code) (th : Thread) : Res :=
  let r := fl2 f (th.word a.toNat) (th.word b.toNat)
  res1 n d.toNat r.1 r.2

/-- A 16-bit float form (R36). -/
def fhalf (f : Nat → Nat → Nat × Flags) (b d : Code5) (th : Thread) : Res :=
  if d = 0 then {}
  else
    let r := fl2 f (th.word d.toNat) (th.word (code5 b))
    res1 false d.toNat r.1 r.2

/-- An RC float instruction. -/
def frc (f : Nat → Nat → Nat → Nat × Flags) (c : BitVec 2) (b : Code5) (a : Code) (n : Bool) (d : Code) (th : Thread) : Res :=
  let r := f (th.word a.toNat).toNat (th.word (code5 b)).toNat (th.third c d).toNat
  res1 n d.toNat (BitVec.ofNat 32 r.1) r.2

/-- FMAD2 rounds the product and then the sum (R97). -/
def fmad2 (a b c : Nat) : Nat × Flags :=
  let m := mulF FP32 a b
  let r := addF FP32 m.1 c
  (r.1, m.2 ||| r.2)

/-- An operation on both BF16 halves (R101). -/
def pair2 (f : Nat → Nat → Nat × Flags) (a b : Nat) : Nat × Flags :=
  let lo := f (a % 65536) (b % 65536)
  let hi := f (a / 65536) (b / 65536)
  (lo.1 + hi.1 * 65536, lo.2 ||| hi.2)

def pair3 (f : Nat → Nat → Nat → Nat × Flags) (a b c : Nat) : Nat × Flags :=
  let lo := f (a % 65536) (b % 65536) (c % 65536)
  let hi := f (a / 65536) (b / 65536) (c / 65536)
  (lo.1 + hi.1 * 65536, lo.2 ||| hi.2)

/-- The formats of FCMP (R98). -/
def fcmpFmt (t : BitVec 2) : Fmt := if t = 0 then FP32 else if t = 1 then BF16 else FP16
/-- The bits of an FCMP operand. -/
def fcmpBits (t : BitVec 2) (x : Word) : Nat := if t = 0 then x.toNat else x.toNat % 65536

/-! ## FP32 (R95-R98) -/

def execFadd (b a : Code) (n : Bool) (d : Code) (e : Bool) (s : State) : Answer :=
  issueLane (.fadd b a n d e) s (frr (addF FP32) b a n d)

def execFsub (b a : Code) (n : Bool) (d : Code) (e : Bool) (s : State) : Answer :=
  issueLane (.fsub b a n d e) s (frr (subF FP32) b a n d)

def execFmul (b a : Code) (n : Bool) (d : Code) (e : Bool) (s : State) : Answer :=
  issueLane (.fmul b a n d e) s (frr (mulF FP32) b a n d)

def execFmax (b a : Code) (n : Bool) (d : Code) (e : Bool) (s : State) : Answer :=
  issueLane (.fmax b a n d e) s (frr (maxNum FP32) b a n d)

def execFmin (b a : Code) (n : Bool) (d : Code) (e : Bool) (s : State) : Answer :=
  issueLane (.fmin b a n d e) s (frr (minNum FP32) b a n d)

/-- FCOPYSIGN, FABS and FNEG act on bits and set no flag (R96). -/
def execFcopysign (b a : Code) (n : Bool) (d : Code) (e : Bool) (s : State) : Answer :=
  issueLane (.fcopysign b a n d e) s fun th =>
    res1 n d.toNat ((th.word a.toNat &&& 0x7FFF_FFFF) ||| (th.word b.toNat &&& 0x8000_0000))

def execFabs (a : Code) (n : Bool) (d : Code) (e : Bool) (s : State) : Answer :=
  issueLane (.fabs a n d e) s fun th => res1 n d.toNat (th.word a.toNat &&& 0x7FFF_FFFF)

def execFneg (a : Code) (n : Bool) (d : Code) (e : Bool) (s : State) : Answer :=
  issueLane (.fneg a n d e) s fun th => res1 n d.toNat (th.word a.toNat ^^^ 0x8000_0000)

def execFfma (c : BitVec 2) (b : Code5) (a : Code) (n : Bool) (d : Code) (e : Bool) (s : State) : Answer :=
  issueLane (.ffma c b a n d e) s (frc (fmaF FP32) c b a n d)

def execFfms (c : BitVec 2) (b : Code5) (a : Code) (n : Bool) (d : Code) (e : Bool) (s : State) : Answer :=
  issueLane (.ffms c b a n d e) s (frc (fmsF FP32) c b a n d)

def execFnfma (c : BitVec 2) (b : Code5) (a : Code) (n : Bool) (d : Code) (e : Bool) (s : State) : Answer :=
  issueLane (.fnfma c b a n d e) s (frc (fnmaF FP32) c b a n d)

def execFmad2 (c : BitVec 2) (b : Code5) (a : Code) (n : Bool) (d : Code) (e : Bool) (s : State) : Answer :=
  issueLane (.fmad2 c b a n d e) s (frc Sys2Proof.Machine.fmad2 c b a n d)

def execFcmp (t : BitVec 2) (b a : Code) (c : BitVec 4) (p : BitVec 2) (e : Bool) (s : State) : Answer :=
  issueLane (.fcmp t b a c p e) s fun th =>
    let r := fcmpF (fcmpFmt t) c.toNat (fcmpBits t (th.word a.toNat)) (fcmpBits t (th.word b.toNat))
    resP p.toNat r.1 r.2

/-! ## Special functions (R99, R100) -/

def execRcp (a : Code) (n : Bool) (d : Code) (e : Bool) (s : State) : Answer :=
  issueLane (.rcp a n d e) s fun th =>
    let r := sfun .rcp (th.word a.toNat).toNat
    res1 n d.toNat (BitVec.ofNat 32 r.1) r.2

def execRsq (a : Code) (n : Bool) (d : Code) (e : Bool) (s : State) : Answer :=
  issueLane (.rsq a n d e) s fun th =>
    let r := sfun .rsq (th.word a.toNat).toNat
    res1 n d.toNat (BitVec.ofNat 32 r.1) r.2

def execEx2 (a : Code) (n : Bool) (d : Code) (e : Bool) (s : State) : Answer :=
  issueLane (.ex2 a n d e) s fun th =>
    let r := sfun .ex2 (th.word a.toNat).toNat
    res1 n d.toNat (BitVec.ofNat 32 r.1) r.2

def execLg2 (a : Code) (n : Bool) (d : Code) (e : Bool) (s : State) : Answer :=
  issueLane (.lg2 a n d e) s fun th =>
    let r := sfun .lg2 (th.word a.toNat).toNat
    res1 n d.toNat (BitVec.ofNat 32 r.1) r.2

def execSqrt (a : Code) (n : Bool) (d : Code) (e : Bool) (s : State) : Answer :=
  issueLane (.sqrt a n d e) s fun th =>
    let r := sfun .sqrt (th.word a.toNat).toNat
    res1 n d.toNat (BitVec.ofNat 32 r.1) r.2

def execSin (a : Code) (n : Bool) (d : Code) (e : Bool) (s : State) : Answer :=
  issueLane (.sin a n d e) s fun th =>
    let r := sfun .sin (th.word a.toNat).toNat
    res1 n d.toNat (BitVec.ofNat 32 r.1) r.2

def execCos (a : Code) (n : Bool) (d : Code) (e : Bool) (s : State) : Answer :=
  issueLane (.cos a n d e) s fun th =>
    let r := sfun .cos (th.word a.toNat).toNat
    res1 n d.toNat (BitVec.ofNat 32 r.1) r.2

def execTanh (a : Code) (n : Bool) (d : Code) (e : Bool) (s : State) : Answer :=
  issueLane (.tanh a n d e) s fun th =>
    let r := sfun .tanh (th.word a.toNat).toNat
    res1 n d.toNat (BitVec.ofNat 32 r.1) r.2

/-! ## BF16 pairs (R101) -/

def execHadd2 (b a : Code) (n : Bool) (d : Code) (e : Bool) (s : State) : Answer :=
  issueLane (.hadd2 b a n d e) s (frr (pair2 (addF BF16)) b a n d)

def execHsub2 (b a : Code) (n : Bool) (d : Code) (e : Bool) (s : State) : Answer :=
  issueLane (.hsub2 b a n d e) s (frr (pair2 (subF BF16)) b a n d)

def execHmul2 (b a : Code) (n : Bool) (d : Code) (e : Bool) (s : State) : Answer :=
  issueLane (.hmul2 b a n d e) s (frr (pair2 (mulF BF16)) b a n d)

def execHmax2 (b a : Code) (n : Bool) (d : Code) (e : Bool) (s : State) : Answer :=
  issueLane (.hmax2 b a n d e) s (frr (pair2 (maxNum BF16)) b a n d)

def execHfma2 (c : BitVec 2) (b : Code5) (a : Code) (n : Bool) (d : Code) (e : Bool) (s : State) : Answer :=
  issueLane (.hfma2 c b a n d e) s (frc (pair3 (fmaF BF16)) c b a n d)

def execHfms2 (c : BitVec 2) (b : Code5) (a : Code) (n : Bool) (d : Code) (e : Bool) (s : State) : Answer :=
  issueLane (.hfms2 c b a n d e) s (frc (pair3 (fmsF BF16)) c b a n d)

/-! ## 16-bit forms (R36) -/

def execFadd16 (b d : Code5) (e : Bool) (s : State) : Answer :=
  issueLane (.fadd16 b d e) s (fhalf (addF FP32) b d)

def execFsub16 (b d : Code5) (e : Bool) (s : State) : Answer :=
  issueLane (.fsub16 b d e) s (fhalf (subF FP32) b d)

def execFmul16 (b d : Code5) (e : Bool) (s : State) : Answer :=
  issueLane (.fmul16 b d e) s (fhalf (mulF FP32) b d)

def execFmax16 (b d : Code5) (e : Bool) (s : State) : Answer :=
  issueLane (.fmax16 b d e) s (fhalf (maxNum FP32) b d)

end Sys2Proof.Machine
end

