-- ==== Sys2Proof/Machine/Integer.lean ====
section
/-! DEFINITION. Integer, bit-field, predicate and select instructions (spec 04 R81-R94) and the integer 16-bit forms
(02 R36). -/

namespace Sys2Proof.Machine

/-! ## The operations -/

def minS (a b : Word) : Word := if a.toInt ≤ b.toInt then a else b
def maxS (a b : Word) : Word := if a.toInt ≤ b.toInt then b else a
def minU (a b : Word) : Word := if a.toNat ≤ b.toNat then a else b
def maxU (a b : Word) : Word := if a.toNat ≤ b.toNat then b else a
/-- |sA − sB| as an unsigned value. -/
def absdS (a b : Word) : Word := BitVec.ofNat 32 (a.toInt - b.toInt).natAbs
/-- sA + sB clamped to the signed range. -/
def addsatS (a b : Word) : Word := BitVec.ofInt 32 (max (-(2 ^ 31)) (min (2 ^ 31 - 1) (a.toInt + b.toInt)))
/-- The shift count of the RR shifts is uB[7:0] (R83). -/
def shl (a b : Word) : Word := a <<< (b.toNat % 256)
def shrU (a b : Word) : Word := a >>> (b.toNat % 256)
def shrS (a b : Word) : Word := a.sshiftRight (b.toNat % 256)
def rotl (a b : Word) : Word := a.rotateLeft (b.toNat % 32)
def mulhiS (a b : Word) : Word := BitVec.ofInt 32 (a.toInt * b.toInt / 2 ^ 32)
def mulhiU (a b : Word) : Word := BitVec.ofNat 32 (a.toNat * b.toNat / 2 ^ 32)
def mulwS (a b : Word) : Dword := BitVec.ofInt 64 (a.toInt * b.toInt)
def madwS (a b : Word) (c : Dword) : Dword := BitVec.ofInt 64 (a.toInt * b.toInt + c.toInt)

/-- Byte i of a word. -/
def byteOf (a : Word) (i : Nat) : Byte := a.extractLsb' (8 * i) 8

def dot4I8 (a b c : Word) : Word :=
  BitVec.ofInt 32 ((List.range 4).foldl (fun s i => s + (byteOf a i).toInt * (byteOf b i).toInt) c.toInt)
def dot4N8 (a b c : Word) : Word :=
  BitVec.ofNat 32 ((List.range 4).foldl (fun s i => s + (byteOf a i).toNat * (byteOf b i).toNat) c.toNat)

/-- The position and the effective width of a bit-field control word (R89). -/
def bfPos (b : Word) : Nat := b.toNat % 32
def bfWidth (b : Word) : Nat := min (b.toNat / 256 % 64) (32 - bfPos b)

def bfeU (a b : Word) : Word := BitVec.ofNat 32 (a.toNat / 2 ^ bfPos b % 2 ^ bfWidth b)
def bfeS (a b : Word) : Word :=
  if bfWidth b = 0 then 0 else BitVec.ofInt 32 (signed (bfWidth b) (a.toNat / 2 ^ bfPos b))
def bfi (a b d : Word) : Word :=
  let m : Word := BitVec.ofNat 32 ((2 ^ bfWidth b - 1) * 2 ^ bfPos b)
  (d &&& ~~~m) ||| ((a <<< bfPos b) &&& m)

/-- One byte of PERMB from its nibble (R89). -/
def permByte (a : Word) (nib : Nat) : Byte :=
  let b := byteOf a (nib % 4)
  if 8 ≤ nib then 0 else if 4 ≤ nib then (if b.getLsbD 7 then 0xFF else 0) else b

def permb (a b : Word) : Word :=
  let by_ (i : Nat) : Byte := permByte a (b.toNat / 16 ^ i % 16)
  (by_ 3 ++ by_ 2 ++ by_ 1 ++ by_ 0 : BitVec 32)

def popc (a : Word) : Word := BitVec.ofNat 32 ((List.range 32).countP fun i => a.getLsbD i)
def clz (a : Word) : Word := BitVec.ofNat 32 ((firstFrom (fun i => a.getLsbD (31 - i)) 32 0).getD 32)
def brev (a : Word) : Word := laneMask ((List.range 32).filter fun i => a.getLsbD (31 - i))

/-- The conditions of ICMP (R91). -/
def icond (c : BitVec 4) (w : Nat) (a b : BitVec w) : Bool :=
  match c.toNat with
  | 0 => decide (a = b)
  | 1 => decide (a ≠ b)
  | 2 => decide (a.toInt < b.toInt)
  | 3 => decide (a.toInt ≤ b.toInt)
  | 4 => decide (a.toInt > b.toInt)
  | 5 => decide (a.toInt ≥ b.toInt)
  | 6 => decide (a.toNat < b.toNat)
  | 7 => decide (a.toNat ≤ b.toNat)
  | 8 => decide (a.toNat > b.toNat)
  | 9 => decide (a.toNat ≥ b.toNat)
  | 10 => decide (a &&& b ≠ 0)
  | _ => decide (a &&& b = 0)

/-- An RR instruction with one 32-bit result. -/
def rr (f : Word → Word → Word) (b a : Code) (n : Bool) (d : Code) (th : Thread) : Res :=
  res1 n d.toNat (f (th.word a.toNat) (th.word b.toNat))

/-- A 16-bit form D ← D op B; with D = 0 it is a no-op (R36). -/
def half (f : Word → Word → Word) (b d : Code5) (th : Thread) : Res :=
  if d = 0 then {} else res1 false d.toNat (f (th.word d.toNat) (th.word (code5 b)))

/-- An immediate extended to 32 bits (R86). -/
def imm9 (i : BitVec 9) : Word := i.signExtend 32

/-! ## RR arithmetic and logic (R83, R84) -/

def execAdd (b a : Code) (n : Bool) (d : Code) (e : Bool) (s : State) : Answer :=
  issueLane (.add b a n d e) s (rr (fun a b => a + b) b a n d)

def execSub (b a : Code) (n : Bool) (d : Code) (e : Bool) (s : State) : Answer :=
  issueLane (.sub b a n d e) s (rr (fun a b => a - b) b a n d)

def execAnd (b a : Code) (n : Bool) (d : Code) (e : Bool) (s : State) : Answer :=
  issueLane (.and b a n d e) s (rr (fun a b => a &&& b) b a n d)

def execOr (b a : Code) (n : Bool) (d : Code) (e : Bool) (s : State) : Answer :=
  issueLane (.or b a n d e) s (rr (fun a b => a ||| b) b a n d)

def execXor (b a : Code) (n : Bool) (d : Code) (e : Bool) (s : State) : Answer :=
  issueLane (.xor b a n d e) s (rr (fun a b => a ^^^ b) b a n d)

def execAndn (b a : Code) (n : Bool) (d : Code) (e : Bool) (s : State) : Answer :=
  issueLane (.andn b a n d e) s (rr (fun a b => a &&& ~~~b) b a n d)

def execMinS (b a : Code) (n : Bool) (d : Code) (e : Bool) (s : State) : Answer :=
  issueLane (.minS b a n d e) s (rr minS b a n d)

def execMaxS (b a : Code) (n : Bool) (d : Code) (e : Bool) (s : State) : Answer :=
  issueLane (.maxS b a n d e) s (rr maxS b a n d)

def execMinU (b a : Code) (n : Bool) (d : Code) (e : Bool) (s : State) : Answer :=
  issueLane (.minU b a n d e) s (rr minU b a n d)

def execMaxU (b a : Code) (n : Bool) (d : Code) (e : Bool) (s : State) : Answer :=
  issueLane (.maxU b a n d e) s (rr maxU b a n d)

def execAbsdS (b a : Code) (n : Bool) (d : Code) (e : Bool) (s : State) : Answer :=
  issueLane (.absdS b a n d e) s (rr absdS b a n d)

def execAddsatS (b a : Code) (n : Bool) (d : Code) (e : Bool) (s : State) : Answer :=
  issueLane (.addsatS b a n d e) s (rr addsatS b a n d)

def execShl (b a : Code) (n : Bool) (d : Code) (e : Bool) (s : State) : Answer :=
  issueLane (.shl b a n d e) s (rr shl b a n d)

def execShrU (b a : Code) (n : Bool) (d : Code) (e : Bool) (s : State) : Answer :=
  issueLane (.shrU b a n d e) s (rr shrU b a n d)

def execShrS (b a : Code) (n : Bool) (d : Code) (e : Bool) (s : State) : Answer :=
  issueLane (.shrS b a n d e) s (rr shrS b a n d)

def execRotl (b a : Code) (n : Bool) (d : Code) (e : Bool) (s : State) : Answer :=
  issueLane (.rotl b a n d e) s (rr rotl b a n d)

def execMullo (b a : Code) (n : Bool) (d : Code) (e : Bool) (s : State) : Answer :=
  issueLane (.mullo b a n d e) s (rr (fun a b => a * b) b a n d)

def execMulhiS (b a : Code) (n : Bool) (d : Code) (e : Bool) (s : State) : Answer :=
  issueLane (.mulhiS b a n d e) s (rr mulhiS b a n d)

def execMulhiU (b a : Code) (n : Bool) (d : Code) (e : Bool) (s : State) : Answer :=
  issueLane (.mulhiU b a n d e) s (rr mulhiU b a n d)

/-- MULW.S pushes its 64-bit product as one value. -/
def execMulwS (b a : Code) (n : Bool) (d : Code) (e : Bool) (s : State) : Answer :=
  issueLane (.mulwS b a n d e) s fun th => res2 n d.toNat (mulwS (th.word a.toNat) (th.word b.toNat))

/-! ## Multiply-add and dot products (R85) -/

def execMad (c : BitVec 2) (b : Code5) (a : Code) (n : Bool) (d : Code) (e : Bool) (s : State) : Answer :=
  issueLane (.mad c b a n d e) s fun th =>
    res1 n d.toNat (th.word a.toNat * th.word (code5 b) + th.third c d)

def execMadwS (c : BitVec 2) (b : Code5) (a : Code) (n : Bool) (d : Code) (e : Bool) (s : State) : Answer :=
  issueLane (.madwS c b a n d e) s fun th =>
    res2 n d.toNat (madwS (th.word a.toNat) (th.word (code5 b)) (th.thirdPair c d))

def execDot4I8 (c : BitVec 2) (b : Code5) (a : Code) (n : Bool) (d : Code) (e : Bool) (s : State) : Answer :=
  issueLane (.dot4I8 c b a n d e) s fun th =>
    res1 n d.toNat (dot4I8 (th.word a.toNat) (th.word (code5 b)) (th.third c d))

def execDot4N8 (c : BitVec 2) (b : Code5) (a : Code) (n : Bool) (d : Code) (e : Bool) (s : State) : Answer :=
  issueLane (.dot4N8 c b a n d e) s fun th =>
    res1 n d.toNat (dot4N8 (th.word a.toNat) (th.word (code5 b)) (th.third c d))

/-! ## Immediates and constants (R86-R88) -/

def execAddi (i : BitVec 9) (a : Code) (n : Bool) (d : Code) (e : Bool) (s : State) : Answer :=
  issueLane (.addi i a n d e) s fun th => res1 n d.toNat (th.word a.toNat + imm9 i)

def execAndi (i : BitVec 9) (a : Code) (n : Bool) (d : Code) (e : Bool) (s : State) : Answer :=
  issueLane (.andi i a n d e) s fun th => res1 n d.toNat (th.word a.toNat &&& imm9 i)

def execOri (i : BitVec 9) (a : Code) (n : Bool) (d : Code) (e : Bool) (s : State) : Answer :=
  issueLane (.ori i a n d e) s fun th => res1 n d.toNat (th.word a.toNat ||| imm9 i)

def execXori (i : BitVec 9) (a : Code) (n : Bool) (d : Code) (e : Bool) (s : State) : Answer :=
  issueLane (.xori i a n d e) s fun th => res1 n d.toNat (th.word a.toNat ^^^ imm9 i)

def execShli (c : BitVec 5) (a : Code) (n : Bool) (d : Code) (e : Bool) (s : State) : Answer :=
  issueLane (.shli c a n d e) s fun th => res1 n d.toNat (th.word a.toNat <<< c.toNat)

def execShriU (c : BitVec 5) (a : Code) (n : Bool) (d : Code) (e : Bool) (s : State) : Answer :=
  issueLane (.shriU c a n d e) s fun th => res1 n d.toNat (th.word a.toNat >>> c.toNat)

def execShriS (c : BitVec 5) (a : Code) (n : Bool) (d : Code) (e : Bool) (s : State) : Answer :=
  issueLane (.shriS c a n d e) s fun th => res1 n d.toNat ((th.word a.toNat).sshiftRight c.toNat)

def execRotli (c : BitVec 5) (a : Code) (n : Bool) (d : Code) (e : Bool) (s : State) : Answer :=
  issueLane (.rotli c a n d e) s fun th => res1 n d.toNat ((th.word a.toNat).rotateLeft c.toNat)

def execMovh (i : BitVec 16) (n : Bool) (d : Code) (e : Bool) (s : State) : Answer :=
  issueLane (.movh i n d e) s fun _ => res1 n d.toNat (i ++ 0#16)

/-- ORL reads D even when N = 1. -/
def execOrl (i : BitVec 16) (n : Bool) (d : Code) (e : Bool) (s : State) : Answer :=
  issueLane (.orl i n d e) s fun th => res1 n d.toNat (th.word d.toNat ||| i.setWidth 32)

/-! ## Bit fields and unary operations (R89, R90) -/

def execBfeU (b a : Code) (n : Bool) (d : Code) (e : Bool) (s : State) : Answer :=
  issueLane (.bfeU b a n d e) s (rr bfeU b a n d)

def execBfeS (b a : Code) (n : Bool) (d : Code) (e : Bool) (s : State) : Answer :=
  issueLane (.bfeS b a n d e) s (rr bfeS b a n d)

def execPermb (b a : Code) (n : Bool) (d : Code) (e : Bool) (s : State) : Answer :=
  issueLane (.permb b a n d e) s (rr permb b a n d)

/-- BFI reads D even when N = 1. -/
def execBfi (b a : Code) (n : Bool) (d : Code) (e : Bool) (s : State) : Answer :=
  issueLane (.bfi b a n d e) s fun th => res1 n d.toNat (bfi (th.word a.toNat) (th.word b.toNat) (th.word d.toNat))

def execPopc (a : Code) (n : Bool) (d : Code) (e : Bool) (s : State) : Answer :=
  issueLane (.popc a n d e) s fun th => res1 n d.toNat (popc (th.word a.toNat))

def execClz (a : Code) (n : Bool) (d : Code) (e : Bool) (s : State) : Answer :=
  issueLane (.clz a n d e) s fun th => res1 n d.toNat (clz (th.word a.toNat))

def execBrev (a : Code) (n : Bool) (d : Code) (e : Bool) (s : State) : Answer :=
  issueLane (.brev a n d e) s fun th => res1 n d.toNat (brev (th.word a.toNat))

def execNeg (a : Code) (n : Bool) (d : Code) (e : Bool) (s : State) : Answer :=
  issueLane (.neg a n d e) s fun th => res1 n d.toNat (0 - (th.word a.toNat))

/-! ## Compares, predicates and select (R91-R94) -/

def execIcmp (w : BitVec 2) (b a : Code) (c : BitVec 4) (p : BitVec 2) (e : Bool) (s : State) : Answer :=
  issueLane (.icmp w b a c p e) s fun th =>
    resP p.toNat (if w = 0 then icond c 32 (th.word a.toNat) (th.word b.toNat) else icond c 64 (th.pair a.toNat) (th.pair b.toNat))

def execSel (p : BitVec 2) (b a : Code) (n : Bool) (d : Code) (e : Bool) (s : State) : Answer :=
  issueLane (.sel p b a n d e) s fun th => res1 n d.toNat (if th.pred p.toNat then th.word a.toNat else th.word b.toNat)

def execPand (b a d : BitVec 2) (e : Bool) (s : State) : Answer :=
  issueLane (.pand b a d e) s fun th => resP d.toNat (th.pred a.toNat && th.pred b.toNat)

def execPor (b a d : BitVec 2) (e : Bool) (s : State) : Answer :=
  issueLane (.por b a d e) s fun th => resP d.toNat (th.pred a.toNat || th.pred b.toNat)

def execPxor (b a d : BitVec 2) (e : Bool) (s : State) : Answer :=
  issueLane (.pxor b a d e) s fun th => resP d.toNat (th.pred a.toNat != th.pred b.toNat)

def execPnot (a d : BitVec 2) (e : Bool) (s : State) : Answer :=
  issueLane (.pnot a d e) s fun th => resP d.toNat (!th.pred a.toNat)

/-- The predicates as a word: bit 0 is p0, always true (R94). -/
def ptog (th : Thread) : Word :=
  BitVec.ofNat 32 (1 + (if th.p1 then 2 else 0) + (if th.p2 then 4 else 0) + (if th.p3 then 8 else 0))

def execPtog (n : Bool) (d : Code) (e : Bool) (s : State) : Answer :=
  issueLane (.ptog n d e) s fun th => res1 n d.toNat (ptog th)

def execGtop (a : Code) (e : Bool) (s : State) : Answer :=
  issueLane (.gtop a e) s fun th =>
    let v := th.word a.toNat
    { preds := [(1, v.getLsbD 1), (2, v.getLsbD 2), (3, v.getLsbD 3)] }

/-! ## 16-bit forms (R36) -/

def execMov (b d : Code5) (e : Bool) (s : State) : Answer :=
  issueLane (.mov b d e) s (half (fun _ b => b) b d)

def execAdd16 (b d : Code5) (e : Bool) (s : State) : Answer :=
  issueLane (.add16 b d e) s (half (fun a b => a + b) b d)

def execSub16 (b d : Code5) (e : Bool) (s : State) : Answer :=
  issueLane (.sub16 b d e) s (half (fun a b => a - b) b d)

def execMullo16 (b d : Code5) (e : Bool) (s : State) : Answer :=
  issueLane (.mullo16 b d e) s (half (fun a b => a * b) b d)

def execAnd16 (b d : Code5) (e : Bool) (s : State) : Answer :=
  issueLane (.and16 b d e) s (half (fun a b => a &&& b) b d)

def execOr16 (b d : Code5) (e : Bool) (s : State) : Answer :=
  issueLane (.or16 b d e) s (half (fun a b => a ||| b) b d)

def execXor16 (b d : Code5) (e : Bool) (s : State) : Answer :=
  issueLane (.xor16 b d e) s (half (fun a b => a ^^^ b) b d)

def execShl16 (b d : Code5) (e : Bool) (s : State) : Answer :=
  issueLane (.shl16 b d e) s (half shl b d)

def execShrU16 (b d : Code5) (e : Bool) (s : State) : Answer :=
  issueLane (.shrU16 b d e) s (half shrU b d)

def execShrS16 (b d : Code5) (e : Bool) (s : State) : Answer :=
  issueLane (.shrS16 b d e) s (half shrS b d)

def execMinS16 (b d : Code5) (e : Bool) (s : State) : Answer :=
  issueLane (.minS16 b d e) s (half minS b d)

def execMaxS16 (b d : Code5) (e : Bool) (s : State) : Answer :=
  issueLane (.maxS16 b d e) s (half maxS b d)

end Sys2Proof.Machine
end

