-- ==== Sys2Proof/Machine/Fused.lean ====
section
/-! DEFINITION. Fused groups (spec 04 R113, R114): which adjacent sequences qualify, and their execution one after another. -/

namespace Sys2Proof.Machine

/-- The instruction that a member is. -/
def fusedInstr : Fusable → Instr
  | .mullo b a n d e => .mullo b a n d e
  | .mullo16 b d e => .mullo16 b d e
  | .add b a n d e => .add b a n d e
  | .add16 b d e => .add16 b d e
  | .shli s a n d e => .shli s a n d e
  | .movh i n d e => .movh i n d e
  | .orl i n d e => .orl i n d e
  | .icmp w b a c p e => .icmp w b a c p e
  | .fcmp t b a c p e => .fcmp t b a c p e
  | .br o s p => .br o s p
  | .fmul b a n d e => .fmul b a n d e
  | .fmul16 b d e => .fmul16 b d e
  | .fadd b a n d e => .fadd b a n d e
  | .fadd16 b d e => .fadd16 b d e
  | .ldS o s a n d e => .ldS o s a n d e
  | .pand b a d e => .pand b a d e

/-- A member executed. -/
def fusedRun (m : Fusable) (s : State) : Answer :=
  match m with
  | .mullo b a n d e => execMullo b a n d e s
  | .mullo16 b d e => execMullo16 b d e s
  | .add b a n d e => execAdd b a n d e s
  | .add16 b d e => execAdd16 b d e s
  | .shli x a n d e => execShli x a n d e s
  | .movh i n d e => execMovh i n d e s
  | .orl i n d e => execOrl i n d e s
  | .icmp w b a c p e => execIcmp w b a c p e s
  | .fcmp t b a c p e => execFcmp t b a c p e s
  | .br o x p => execBr o x p s
  | .fmul b a n d e => execFmul b a n d e s
  | .fmul16 b d e => execFmul16 b d e s
  | .fadd b a n d e => execFadd b a n d e s
  | .fadd16 b d e => execFadd16 b d e s
  | .ldS o x a n d e => execLdS o x a n d e s
  | .pand b a d e => execPand b a d e s

/-- An instruction that can stand in a group. -/
def fusableOf : Instr → Option Fusable
  | .mullo b a n d e => some (.mullo b a n d e)
  | .mullo16 b d e => some (.mullo16 b d e)
  | .add b a n d e => some (.add b a n d e)
  | .add16 b d e => some (.add16 b d e)
  | .shli s a n d e => some (.shli s a n d e)
  | .movh i n d e => some (.movh i n d e)
  | .orl i n d e => some (.orl i n d e)
  | .icmp w b a c p e => some (.icmp w b a c p e)
  | .fcmp t b a c p e => some (.fcmp t b a c p e)
  | .br o s p => some (.br o s p)
  | .fmul b a n d e => some (.fmul b a n d e)
  | .fmul16 b d e => some (.fmul16 b d e)
  | .fadd b a n d e => some (.fadd b a n d e)
  | .fadd16 b d e => some (.fadd16 b d e)
  | .ldS o s a n d e => some (.ldS o s a n d e)
  | .pand b a d e => some (.pand b a d e)
  | _ => none

/-- The kind of a member: multiply, add, shift, and so on. -/
inductive FKind where
  | mul | add | shl | movh | orl | icmp | fcmp | br | fmul | fadd | ldS | pand
  deriving DecidableEq, Repr

def fusedKind : Fusable → FKind
  | .mullo .. => .mul | .mullo16 .. => .mul | .add .. => .add | .add16 .. => .add | .shli .. => .shl | .movh .. => .movh
  | .orl .. => .orl | .icmp .. => .icmp | .fcmp .. => .fcmp | .br .. => .br | .fmul .. => .fmul | .fmul16 .. => .fmul
  | .fadd .. => .fadd | .fadd16 .. => .fadd | .ldS .. => .ldS | .pand .. => .pand

/-- The codes through which the result of a member can be read: its register, unless it is g0 or N = 1, and c0. A 16-bit word with D = 0
does nothing (R36). -/
def fusedDst (m : Fusable) : List Nat :=
  let at_ (n : Bool) (d : Nat) : List Nat := if n ∨ d = 0 then [124] else [d, 124]
  let at16 (d : Nat) : List Nat := if d = 0 then [] else [d, 124]
  match m with
  | .mullo _ _ n d _ => at_ n d.toNat
  | .mullo16 _ d _ => at16 d.toNat
  | .add _ _ n d _ => at_ n d.toNat
  | .add16 _ d _ => at16 d.toNat
  | .shli _ _ n d _ => at_ n d.toNat
  | .movh _ n d _ => at_ n d.toNat
  | .fmul _ _ n d _ => at_ n d.toNat
  | .fmul16 _ d _ => at16 d.toNat
  | _ => []

/-- The codes that a member reads as data: registers and latches. -/
def fusedSrc (m : Fusable) : List Nat :=
  match m with
  | .add b a _ _ _ => [a.toNat, b.toNat]
  | .add16 b d _ => if d.toNat = 0 then [] else [d.toNat, code5 b]
  | .orl _ _ d _ => [d.toNat]
  | .fadd b a _ _ _ => [a.toNat, b.toNat]
  | .fadd16 b d _ => if d.toNat = 0 then [] else [d.toNat, code5 b]
  | .ldS _ _ a _ _ _ => [a.toNat]
  | _ => []

/-- The second member reads the result of the first, through its register or through c0. -/
def readsResult (m k : Fusable) : Bool := (fusedSrc k).any (fusedDst m).contains

/-- The predicate through which the result of a member can be read: a write to p0 is discarded. -/
def fusedPd (m : Fusable) : Option (BitVec 2) :=
  match m with
  | .icmp _ _ _ _ p _ => if p = 0 then none else some p
  | .fcmp _ _ _ _ p _ => if p = 0 then none else some p
  | .pand _ _ d _ => if d = 0 then none else some d
  | _ => none

def readsPd (m k : Fusable) : Bool :=
  match fusedPd m, k with
  | some p, .br _ _ q => decide (p = q)
  | some p, .pand b a _ _ => decide (p = a) || decide (p = b)
  | _, _ => false

/-- A MOVH that writes its register and an ORL of the same; g0 takes no result. -/
def sameConst (m k : Fusable) : Bool :=
  match m, k with
  | .movh _ n d _, .orl _ _ d2 _ => !n && decide (d = d2) && decide (d ≠ 0)
  | _, _ => false

/-- A shift by at most 4. -/
def smallShift : Fusable → Bool
  | .shli s _ _ _ _ => decide (s.toNat ≤ 4)
  | _ => true

/-- The sequences of R113. -/
def fusedQualifies (ms : List Fusable) : Bool :=
  let inside := (ms.dropLast).all fun m => !(fusedInstr m).isHeel
  inside && match ms with
    | [m, k] =>
      match fusedKind m, fusedKind k with
      | .mul, .add => readsResult m k
      | .shl, .add => smallShift m && readsResult m k
      | .movh, .orl => sameConst m k
      | .icmp, .br => readsPd m k
      | .fcmp, .br => readsPd m k
      | .fmul, .fadd => readsResult m k
      | _, _ => false
    | [m, k, l] =>
      match fusedKind m, fusedKind k, fusedKind l with
      | .shl, .add, .ldS => smallShift m && readsResult m k && readsResult k l
      | .icmp, .pand, .br => readsPd m k && readsPd k l
      | _, _, _ => false
    | _ => false

/-- The group goes on to the next member: its first thread stands behind the last one. -/
def fusedGoesOn (m : Fusable) (s s' : State) : Bool :=
  match s.group, s'.group with
  | t :: _, u :: _ => decide ((s'.thread u).pc = (s.thread t).pc + BitVec.ofNat 64 (fusedInstr m).len)
  | _, _ => false

/-- The members executed one after another. -/
def runFused : List Fusable → State → Answer
  | [], s => .next s
  | m :: ms, s =>
    match fusedRun m s with
    | .next s' => if fusedGoesOn m s s' then runFused ms s' else .next s'
    | x => x

/-- FUSED_GROUP: the sequence `arg.fused` at the pc of the group issues as one operation; one that does not qualify is not
fused. -/
def execFusedGroup (s : State) : Answer :=
  match s.group with
  | [] => .fault .noIssueGroup
  | _ => if fusedQualifies s.arg.fused then runFused s.arg.fused s else .next s

end Sys2Proof.Machine
end

