-- ==== Sys2Proof/Machine/Geometry.lean ====
section
/-! DEFINITION. The geometry instructions (spec 05 R123-R136): reads of ray records, nodes, leaves and raster records,
and the lane instructions on ray blocks. -/

namespace Sys2Proof.Machine

/-- A geometry read needs R and is refused on device memory and on pages of chunk records (R124, R212). -/
def geoNeed (size : Nat) : Need := { loadNeed size with noDev := true }

/-- A geometry read of `size` bytes at a global address into `n` registers. -/
def geoRead (d n : Nat) (nflag : Bool) (size : Nat) (ea : Dword) (fin : Finish) (s : State) (t : TRef) :
    Except TrapInfo State := do
  let r ← s.globalOf t ea size (geoNeed size)
  return r.1.loadAt t d n nflag (partsOf r.2 size) fin

def execRayld (a : Code) (n : Bool) (d : Code) (e : Bool) (s : State) : Answer :=
  issueMem (.rayld a n d e) s fun s t th => geoRead d.toNat 16 n 64 (th.pair a.toNat) .rayld s t

def execBoxt (b a : Code) (n : Bool) (d : Code) (e : Bool) (s : State) : Answer :=
  issueMem (.boxt b a n d e) s fun s t th =>
    let node := th.pair b.toNat
    geoRead d.toNat 4 n 32 node (.boxt (th.group a.toNat 16) node) s t

def execDesc (b a : Code) (n : Bool) (d : Code) (e : Bool) (s : State) : Answer :=
  issueMem (.desc b a n d e) s fun s t th =>
    geoRead d.toNat 16 n 32 (th.pair a.toNat) (.desc (th.group d.toNat 16) (th.word b.toNat)) s t

def execAsc (b a : Code) (n : Bool) (d : Code) (e : Bool) (s : State) : Answer :=
  issueMem (.asc b a n d e) s fun s t th =>
    geoRead d.toNat 16 n 32 (th.pair a.toNat) (.asc (th.group d.toNat 16) (th.word b.toNat)) s t

def execTrit (a : Code) (n : Bool) (d : Code) (e : Bool) (s : State) : Answer :=
  issueMem (.trit a n d e) s fun s t th =>
    geoRead d.toNat 16 n 128 (th.pair a.toNat) (.trit (th.group d.toNat 16)) s t

/-! ## Lane instructions (R131, R135, R136) -/

def execTcmp (b a : Code) (n : Bool) (d : Code) (e : Bool) (s : State) : Answer :=
  issueLane (.tcmp b a n d e) s fun th => res1 n d.toNat (tcmp (rayOf (th.group a.toNat 16)) (rayOf (th.group b.toNat 16)))

/-- The FP32 value of a ray block's t and its flags. -/
def tcvtRay (r : Ray) : Nat × Flags := tcvt r.num r.den r.Eh

def execTcvt (a : Code) (n : Bool) (d : Code) (e : Bool) (s : State) : Answer :=
  issueLane (.tcvt a n d e) s fun th =>
    let r := tcvtRay (rayOf (th.group a.toNat 16))
    res1 n d.toNat (BitVec.ofNat 32 r.1) r.2

def execRefit (b a : Code) (n : Bool) (d : Code) (e : Bool) (s : State) : Answer :=
  issueLane (.refit b a n d e) s fun th =>
    let p := th.pair a.toNat
    res1 n d.toNat (refit (loWord p) (hiWord p) (th.word b.toNat))

def execVtxq (b a : Code) (n : Bool) (d : Code) (e : Bool) (s : State) : Answer :=
  issueLane (.vtxq b a n d e) s fun th =>
    let p := th.pair a.toNat
    res1 n d.toNat (vtxq (loWord p) (hiWord p) (th.word b.toNat))

/-! ## HITW (R131) -/

/-- The hit record of a ray block. -/
def hitRecord (y : List Word) : List Byte :=
  let w (i : Nat) : Word := y.getD i 0
  wordsBytes [w 10, w 11, w 12, w 13, w 14, w 15, w 9, BitVec.ofNat 32 (tcvtRay (rayOf y)).1]

def execHitw (a d : Code) (e : Bool) (s : State) : Answer :=
  issueMem (.hitw a d e) s fun s t th => do
    let y := th.group d.toNat 16
    let r ← s.globalOf t (th.pair a.toNat) 32 (storeNeed 32)
    let s := r.1.storeParts t (partsOf r.2 32) (hitRecord y)
    return s.modThread t fun th => th.flag (tcvtRay (rayOf y)).2

/-! ## Rasterisation (R132, R133) -/

/-- The sixteen accesses of a raster record, each checked on its own (R124). -/
def State.recordOf (s : State) (t : TRef) (addr : Word) (acc : Nat) : Except TrapInfo (List Part) :=
  (List.range 16).foldr (fun i rest =>
    match s.scratchOf t (addr + BitVec.ofNat 32 (16 * i)) 16 16 acc with
    | .error inf => .error inf
    | .ok (_, l) =>
      match rest with
      | .error inf => .error inf
      | .ok ps => .ok (⟨l, 16⟩ :: ps)) (.ok [])

/-- The block and offset of a record's first bytes. -/
def recordHome : List Part → Option (BRef × Nat)
  | ⟨.scr b off, _⟩ :: _ => some (b, off)
  | _ => none

/-- The bytes of a range as a thread reads them now: its own stores to them and its earlier loads of them come first (R226, R237). -/
def State.readNow (s : State) (t : TRef) (ps : List Part) : State × List Byte × Bool :=
  let s := ps.foldl (fun s p => (s.flushMeeting t p.loc p.n).scMeeting t p.loc p.n) s
  let s := (loadsNeeded ps (s.thread t).outs).foldl (fun s b => s.takeOut1 t b) s
  s.readParts (s.ownOf t) t.core ps

/-- RASTS: reads the record whole, then the leaf; stores the rest of the record. The status lands in gD. The leaf and the record are read
when the instruction issues, and poison in any of the record's 256 bytes halts the thread (DESIGN CHOICE, log entry 68). -/
def execRasts (b a : Code) (n : Bool) (d : Code) (e : Bool) (s : State) : Answer :=
  issueMem (.rasts b a n d e) s fun s t th => do
    let ps ← s.recordOf t (th.word b.toNat) accRw
    let r := s.readNow t ps
    let leafAt := BitVec.ofNat 64 (field r.2.1 0 8)
    let l ← r.1.globalOf t leafAt 128 (geoNeed 128)
    let q := l.1.readNow t (partsOf l.2 128)
    let s := q.1
    if r.2.2 || q.2.2 then return s.halt t haltPAR
    let x := rastSetup (th.group a.toNat 16) q.2.1 r.2.1
    let bytes := r.2.1.take 12 ++ x.2.1 ++ (r.2.1.drop 16).take 24 ++ x.2.2.1
    -- offsets 12-15 and 40-255 are written; the rest keeps what the program wrote
    let s := match ps with
      | [] => s
      | p0 :: _ =>
        let s := s.storeAt t (p0.loc.shift 12) ((bytes.drop 12).take 4)
        match ps[2]? with
        | none => s
        | some p2 => (s.storeAt t (p2.loc.shift 8) ((bytes.drop 40).take 8)).storeParts t (ps.drop 3) (bytes.drop 48)
    let s := match recordHome ps with
      | none => s
      | some (br, off) => s.modBlock br fun k => { k with rast := tput k.rast off x.2.2.2 }
    return s.modThread t fun th => th.outVal d.toNat n [BitVec.ofNat 32 x.1]

/-- What RASTT needs beside the record, when no RASTS made it: free values (log 22). -/
def rastFree (k : Nat) : Rast :=
  let v (i : Nat) : Int := (loWord (Config.free64 (k + i))).toInt
  ⟨[v 0, v 1, v 2], [v 3, v 4, v 5], [v 6, v 7, v 8], [(Config.free64 (k + 9)).getLsbD 0, (Config.free64 (k + 10)).getLsbD 0, (Config.free64 (k + 11)).getLsbD 0]⟩

/-- RASTT. -/
def execRastt (b a : Code) (n : Bool) (d : Code) (e : Bool) (s : State) : Answer :=
  issueMem (.rastt b a n d e) s fun s t th => do
    let ps ← s.recordOf t (th.word a.toNat) accRead
    let o := th.word b.toNat
    let known := match recordHome ps with | none => none | some (br, off) => tget (s.block br).rast off
    let r : State × Rast := match known with
      | some x => (s, x)
      | none => ({ s with freeCtr := s.freeCtr + 12 }, rastFree s.freeCtr)
    return r.1.loadAt t d.toNat 2 n ps (.rastt (o.toNat % 65536) (o.toNat / 65536) t.lane r.2)

end Sys2Proof.Machine
end

