-- ==== Sys2Proof/Machine/HostLink.lean ====
section
/-! DEFINITION. What reaches the device from outside: the host through BAR 0 and BAR 2 (spec 22 R363), RoCEv2 (R365) and NVMe commands
(R364). -/

namespace Sys2Proof.Machine

/-- The physical address of an offset of BAR 2: the LPDDR-6 of the partition's dies, 64 GiB each, in increasing die. -/
def State.bar2 (s : State) (p off n : Nat) : Option Nat :=
  match (s.partn p).dies[off / 2 ^ 36]? with
  | none => none
  | some d =>
    let pa := d * 2 ^ 36 + off % 2 ^ 36
    if presentRange s p pa n then some pa else none

/-- The host reads `n` bytes of partition `p`'s register block through BAR 0: of 8 bytes a register's value, in recovery that of a capability
word alone, and zero where there is no register; of any other number zero. The page of the CXL mailbox holds registers that the spec does
not describe: their bytes are left open (R363, R366, R375). -/
def State.bar0Read (s : State) (p off n : Nat) : State :=
  if !s.sec.powered then s
  else if n ≠ 8 then { s with hostOut := leBytes n 0 }
  else if 0x8000 ≤ off ∧ off < 0x9000 ∧ off % 8 = 0 then
    { s with hostOut := leBytes 8 (Config.free64 s.freeCtr).toNat, freeCtr := s.freeCtr + 1 }
  else { s with hostOut := leBytes 8 (regRead s p off) }

/-- The host reads bytes of partition `p`'s MSI-X table through BAR 4 (R363); the table holds vector 0 (R367; log 76). -/
def State.bar4Read (s : State) (p off n : Nat) : State :=
  if !s.regsAnswer p then s else { s with hostOut := ((s.partn p).msix.drop off).take n }

/-- The host writes bytes of the table (R363). -/
def State.bar4Write (s : State) (p off : Nat) (bs : List Byte) : State :=
  if !s.regsAnswer p || decide (16 < off + bs.length) then s
  else s.modPart p fun q => { q with msix := q.msix.take off ++ bs ++ q.msix.drop (off + bs.length) }

/-- HOST_BAR2_READ: `arg.n` bytes at offset `arg.off` of partition `arg.part`, at the home L2. -/
def execHostBar2Read (s : State) : Answer :=
  let a := s.arg
  if !s.regsAnswer a.part then .next s
  else match s.bar2 a.part a.off a.n with
    | none => .next s
    | some pa => .next { s with hostOut := hubRead s pa a.n }

/-- HOST_BAR2_WRITE: `arg.bytes` written at the home L2, as though released at system scope. -/
def execHostBar2Write (s : State) : Answer :=
  let a := s.arg
  if !s.regsAnswer a.part then .next s
  else match s.bar2 a.part a.off a.bytes.length with
    | none => .next s
    | some pa => .next (hubStore s pa a.bytes)

/-- ROCE_READ: `arg.n` bytes at physical address `arg.off` of the partition's memory. -/
def execRoceRead (s : State) : Answer :=
  let a := s.arg
  .next (if s.regsAnswer a.part && presentRange s a.part a.off a.n then { s with hostOut := hubRead s a.off a.n } else s)

/-- A range lies in memory that the partition's operating system has registered. -/
def State.isRegistered (s : State) (p pa n : Nat) : Bool :=
  (s.partn p).registered.any fun r => decide (r.1 ≤ pa) && decide (pa + n ≤ r.1 + r.2)

/-- ROCE_WRITE: performed inside registered memory, refused outside it. -/
def execRoceWrite (s : State) : Answer :=
  let a := s.arg
  .next (if s.regsAnswer a.part && s.isRegistered a.part a.off a.bytes.length && presentRange s a.part a.off a.bytes.length then
      hubStore s a.off a.bytes
    else s)

/-- NVME_COMMAND: a command for namespace `arg.n` is passed to the controller of the partition's own namespace, or refused. -/
def execNvmeCommand (s : State) : Answer :=
  let a := s.arg
  .next (if s.regsAnswer a.part && decide (a.n = (s.partn a.part).nspace) then
      s.modPart a.part fun q => { q with nvme := q.nvme ++ [a.bytes] }
    else s)

end Sys2Proof.Machine
end

