-- ==== Sys2Proof/Machine/QueueOps.lean ====
section
/-! DEFINITION. The queue instructions and the instructions on barrier objects (spec 16 R271-R277). -/

namespace Sys2Proof.Machine

/-! ## QPUSH, QPOP, QPOLL, QSTAT (R272, R273) -/

/-- A push: the thread's accesses are released first (R234), then the operation arrives at its queue. -/
def pushTurn (q : Nat) (op : QOp) (s : State) (t : TRef) : State × Fate :=
  let s := s.releaseAll t
  if (s.thread t).live then (s.arriveQueue (s.blkOf t) ⟨q, [t], op⟩, .gone) else (s, .gone)

def execQpush (q : BitVec 4) (a : Code) (s : State) : Answer :=
  issueEach (.qpush q a) s fun s t => pushTurn q.toNat (.push8 ((s.thread t).pair a.toNat)) s t

def execQpop (q : BitVec 4) (n : Bool) (d : Code) (s : State) : Answer :=
  issueEach (.qpop q n d) s fun s t => (s.arriveQueue (s.blkOf t) ⟨q.toNat, [t], .pop d.toNat n⟩, .gone)

def execQpoll (q : BitVec 4) (p : BitVec 2) (n : Bool) (d : Code) (e : Bool) (s : State) : Answer :=
  issueEach (.qpoll q p n d e) s fun s t =>
    let br := s.blkOf t
    let give (v : Dword) (ok : Bool) (th : Thread) : Thread :=
      let r := res2 n d.toNat v
      th.deliver { r with preds := [(p.toNat, ok)] }
    match (s.block br).q8of q.toNat with
    | [] => (s.modThread t (give 0 false), .go)
    | v :: rest =>
      let bad := (s.block br).headBad q.toNat
      let s := s.modBlock br fun x => (x.setQ8 q.toNat rest).shiftBad q.toNat
      let s := if bad then s.halt t haltPAR else s.modThread t (give v true)
      (s.serveQ br q.toNat, .go)

def execQstat (q : BitVec 4) (n : Bool) (d : Code) (e : Bool) (s : State) : Answer :=
  issueLaneAt (.qstat q n d e) s fun s t _ => res1 n d.toNat ((s.block (s.blkOf t)).qstat q.toNat)

/-! ## Barrier objects (R276) -/

/-- The address of a barrier object checked; the thread's earlier accesses to its bytes are performed (R226). -/
def State.boAddr (s : State) (t : TRef) (a : Code) (acc : Nat) : Except TrapInfo (State × BRef × Nat) :=
  match s.scratchOf t ((s.thread t).word a.toNat) 16 16 acc with
  | .error inf => .error inf
  | .ok (s, l) =>
    match l with
    | .scr br off => .ok ((s.takeMeeting t l 16).flushMeeting t l 16, br, off)
    | .glob _ _ _ => .ok (s, s.blkOf t, 0)

def execBoinit (b a : Code) (e : Bool) (s : State) : Answer :=
  issueMem (.boinit b a e) s fun s t th => do
    let r ← s.boAddr t a accRw
    let x := (th.word b.toNat).toNat
    if x = 0 ∨ 65535 < x then .error { code := causeBOUND, addr := BitVec.ofNat 64 x }
    else return r.1.objInit r.2.1 r.2.2 x

def execBoexp (b a : Code) (e : Bool) (s : State) : Answer :=
  issueMem (.boexp b a e) s fun s t th => do
    let r ← s.boAddr t a accRw
    let x := (th.word b.toNat).toNat
    return r.1.objTurn t r.2.1 r.2.2 fun o => { o with expect := (o.expect + x) % 2 ^ 32 }

/-- BOARR: one arrival per thread, after every earlier load has its value. ARRIVED has 16 bits. -/
def execBoarr (a : Code) (e : Bool) (s : State) : Answer :=
  issueEach (.boarr a e) s <| memTurn fun s t _ => do
    let r ← s.boAddr t a accRw
    let s := r.1.takeAll t
    if (s.thread t).live then return s.objTurn t r.2.1 r.2.2 fun o => { o with arrived := (o.arrived + 1) % 65536 }
    else return s

/-! ## WAITPH (R277) -/

/-- The thread waits at the object and is evaluated at once. -/
def State.waitObject (s : State) (t : TRef) (a : Code) (parity : Bool) (pd : Option (BitVec 2)) : State × Fate :=
  match s.boAddr t a accRead with
  | .error inf => (s, .trap inf)
  | .ok (s, br, off) =>
    let addr := (s.thread t).word a.toNat
    let s := s.modThread t fun th => if th.live then { th with st := .waiting (.object br off addr parity pd) } else th
    (if (s.thread t).live then s.evalWaiter t br off addr parity pd else s, .gone)

def execWaitph (b a : Code) (s : State) : Answer :=
  issueEach (.waitph b a) s fun s t => s.waitObject t a (((s.thread t).word b.toNat).getLsbD 0) none

def execWaitphSt (a : Code) (r : Bool) (p : BitVec 2) (s : State) : Answer :=
  issueEach (.waitphSt a r p) s fun s t => s.waitObject t a r (some p)

end Sys2Proof.Machine
end

