-- ==== Sys2Proof/Machine/System.lean ====
section
/-! DEFINITION. The system instructions (spec 20 R327-R332) and the special registers (01 R22-R26). -/

namespace Sys2Proof.Machine

/-! ## TRAP, BKPT, TFENCE, XRET (R328-R330) -/

def execTrap (a : Code) (s : State) : Answer :=
  issueEach (.trap a) s fun s t =>
    (s, .trapNext { code := causeTRAP, addr := ((s.thread t).word a.toNat).setWidth 64 })

def execBkpt (s : State) : Answer :=
  issueEach .bkpt s fun s _ => (s, .trapNext { code := causeBKPT, addr := 0 })

/-- The outstanding loads of a thread that have still to deliver flags take their values: the reads of RASTT alone have any (R70,
R329). -/
def State.takeFlags (s : State) (t : TRef) : State :=
  (s.thread t).outs.foldl (fun s o => match o.src with | .load _ (.rastt ..) => s.takeOut t o.base | _ => s) s

/-- TFENCE: the flags of every earlier instruction are delivered, then the selected ones trap. It orders no memory access. -/
def execTfence (a : Code) (s : State) : Answer :=
  issueEach (.tfence a) s fun s t =>
    let m := (s.thread t).word a.toNat
    let s := s.takeFlags t
    let f := (s.thread t).aflags &&& m.setWidth 5
    (s, if f = 0 then .go else .trapNext { code := causeARITH, addr := 0, afl := f })

def execXret (f : Bool) (s : State) : Answer :=
  issueEach (.xret f) s fun s t =>
    if (s.thread t).trap.isNone then (s, .trap { code := causeMASK, addr := 0 })
    else (s.modThread t fun th => th.trapReturn f, .gone)

/-! ## The error word (R331) -/

/-- ERRCLR acts on what the word was before the events of its cycle (R27, R331). -/
def ErrRec.before (r : ErrRec) (now : Nat) (f : ErrWord → ErrWord) : ErrRec := let r := r.at_ now; { r with old := f r.old }

/-- What a clear mask leaves of the error word. -/
def ErrWord.clear (e : ErrWord) (m : Word) : ErrWord :=
  let e : ErrWord := { e with
    ill := e.ill && !m.getLsbD 0, dblf := e.dblf && !m.getLsbD 1, par := e.par && !m.getLsbD 2, novec := e.novec && !m.getLsbD 3 }
  if m.getLsbD 0 then { e with firstv := false, first16 := false, firstmaj := 0 } else e

def execErrclr (a : Code) (e : Bool) (s : State) : Answer :=
  issueEach (.errclr a e) s fun s t =>
    let m := (s.thread t).word a.toNat
    (s.modErr (s.ownOf t) fun r => r.before s.clock fun x => x.clear m, .go)

def execErrrd (n : Bool) (d : Code) (e : Bool) (s : State) : Answer :=
  issueEach (.errrd n d e) s fun s t =>
    let o := s.ownOf t
    let v := ((s.errRec o).at_ s.clock).old.word
    ((s.modErr o fun r => r.before s.clock fun _ => {}).modThread t fun th => th.deliver (res1 n d.toNat v), .go)

/-! ## CLKRD (R332) -/

def execClkrd (n : Bool) (d : Code) (e : Bool) (s : State) : Answer :=
  issueLaneAt (.clkrd n d e) s fun s t _ =>
    let o := s.ownOf t
    res2 n d.toNat (BitVec.ofNat 64 ((tget (s.core t.core).clkrd (o.part, o.tenant)).getD 0))

/-! ## Special registers (R22-R25) -/

/-- %clock as a core reads it: within 16 cycles of the others (R23; log 13). -/
def State.clockAt (s : State) (c : Nat) : Dword := BitVec.ofNat 64 (s.clock + (Config.clockSkew c).val)

/-- The value of a special register; a 32-bit one is zero-extended. -/
def State.special (s : State) (t : TRef) (th : Thread) (sr : Nat) : Dword :=
  let blk := s.block (s.blkOf t)
  let n (x : Nat) : Dword := BitVec.ofNat 64 x
  match sr with
  | 0 => n t.lane
  | 1 => n t.slot
  | 2 => n th.tid
  | 3 => n blk.cx
  | 4 => n blk.cy
  | 5 => n blk.rw
  | 6 => n blk.rh
  | 7 => n (blk.cy * blk.rw + blk.cx)
  | 8 => s.clockAt t.core
  | 9 => th.sctime
  | 10 => ((s.err (s.ownOf t)).word).setWidth 64
  | 11 => th.xpc
  | 12 => th.xcause.setWidth 64
  | 13 => th.xaddr
  | 14 => th.xmode.setWidth 64
  | 15 => th.xvec
  | 16 => n (blk.tenant % 64 + blk.part % 8 * 256)
  | _ => th.aflags.setWidth 64

def execRdsp (sr : BitVec 7) (n : Bool) (d : Code) (e : Bool) (s : State) : Answer :=
  issueEach (.rdsp sr n d e) s fun s t =>
    let s := if sr = 17 then s.takeFlags t else s
    let v := s.special t (s.thread t) sr.toNat
    let r := if spRegs sr.toNat = 2 then res2 n d.toNat v else res1 n d.toNat (loWord v)
    (s.modThread t fun th => th.deliver r, .go)

/-- The fields of %xcause that a handler may write (R323). -/
def xcauseMask : Word := 0xFF1F_F3FF

/-- A write of a special register: %xpc and %xvec take bit 0 as zero (R325), reserved fields stay zero. -/
def Thread.setSpecial (th : Thread) (sr : Nat) (v : Dword) : Thread :=
  match sr with
  | 11 => { th with xpc := v &&& ~~~(1 : Dword) }
  | 12 => { th with xcause := loWord v &&& xcauseMask }
  | 13 => { th with xaddr := v }
  | 15 => { th with xvec := v &&& ~~~(1 : Dword) }
  | 17 => { th with aflags := v.setWidth 5 }
  | _ => th

def execWrsp (sr : BitVec 7) (a : Code) (e : Bool) (s : State) : Answer :=
  issueEach (.wrsp sr a e) s fun s t =>
    let th := s.thread t
    let v := if spRegs sr.toNat = 2 then th.pair a.toNat else (th.word a.toNat).setWidth 64
    let s := if sr = 17 then s.takeFlags t else s
    (s.modThread t fun th => th.setSpecial sr.toNat v, .go)

end Sys2Proof.Machine
end

