-- ==== Sys2Proof/Machine/Dispatch.lean ====
section
/-! DEFINITION. The dispatch of the operations and events: one arm per constructor, each a call of its meaning. -/

namespace Sys2Proof.Machine

def exec (i : Instr) (s : State) : Host.Outcome State Fault Refusal :=
  match i with
  | .add b a n d e => Sys2Proof.Machine.execAdd b a n d e s
  | .sub b a n d e => Sys2Proof.Machine.execSub b a n d e s
  | .and b a n d e => Sys2Proof.Machine.execAnd b a n d e s
  | .or b a n d e => Sys2Proof.Machine.execOr b a n d e s
  | .xor b a n d e => Sys2Proof.Machine.execXor b a n d e s
  | .andn b a n d e => Sys2Proof.Machine.execAndn b a n d e s
  | .minS b a n d e => Sys2Proof.Machine.execMinS b a n d e s
  | .maxS b a n d e => Sys2Proof.Machine.execMaxS b a n d e s
  | .minU b a n d e => Sys2Proof.Machine.execMinU b a n d e s
  | .maxU b a n d e => Sys2Proof.Machine.execMaxU b a n d e s
  | .absdS b a n d e => Sys2Proof.Machine.execAbsdS b a n d e s
  | .addsatS b a n d e => Sys2Proof.Machine.execAddsatS b a n d e s
  | .shl b a n d e => Sys2Proof.Machine.execShl b a n d e s
  | .shrU b a n d e => Sys2Proof.Machine.execShrU b a n d e s
  | .shrS b a n d e => Sys2Proof.Machine.execShrS b a n d e s
  | .rotl b a n d e => Sys2Proof.Machine.execRotl b a n d e s
  | .mullo b a n d e => Sys2Proof.Machine.execMullo b a n d e s
  | .mulhiS b a n d e => Sys2Proof.Machine.execMulhiS b a n d e s
  | .mulhiU b a n d e => Sys2Proof.Machine.execMulhiU b a n d e s
  | .mulwS b a n d e => Sys2Proof.Machine.execMulwS b a n d e s
  | .mad c b a n d e => Sys2Proof.Machine.execMad c b a n d e s
  | .madwS c b a n d e => Sys2Proof.Machine.execMadwS c b a n d e s
  | .dot4I8 c b a n d e => Sys2Proof.Machine.execDot4I8 c b a n d e s
  | .dot4N8 c b a n d e => Sys2Proof.Machine.execDot4N8 c b a n d e s
  | .addi y a n d e => Sys2Proof.Machine.execAddi y a n d e s
  | .andi y a n d e => Sys2Proof.Machine.execAndi y a n d e s
  | .ori y a n d e => Sys2Proof.Machine.execOri y a n d e s
  | .xori y a n d e => Sys2Proof.Machine.execXori y a n d e s
  | .shli x a n d e => Sys2Proof.Machine.execShli x a n d e s
  | .shriU x a n d e => Sys2Proof.Machine.execShriU x a n d e s
  | .shriS x a n d e => Sys2Proof.Machine.execShriS x a n d e s
  | .rotli x a n d e => Sys2Proof.Machine.execRotli x a n d e s
  | .movh y n d e => Sys2Proof.Machine.execMovh y n d e s
  | .orl y n d e => Sys2Proof.Machine.execOrl y n d e s
  | .bfeU b a n d e => Sys2Proof.Machine.execBfeU b a n d e s
  | .bfeS b a n d e => Sys2Proof.Machine.execBfeS b a n d e s
  | .bfi b a n d e => Sys2Proof.Machine.execBfi b a n d e s
  | .permb b a n d e => Sys2Proof.Machine.execPermb b a n d e s
  | .popc a n d e => Sys2Proof.Machine.execPopc a n d e s
  | .clz a n d e => Sys2Proof.Machine.execClz a n d e s
  | .brev a n d e => Sys2Proof.Machine.execBrev a n d e s
  | .neg a n d e => Sys2Proof.Machine.execNeg a n d e s
  | .icmp w b a c p e => Sys2Proof.Machine.execIcmp w b a c p e s
  | .sel p b a n d e => Sys2Proof.Machine.execSel p b a n d e s
  | .pand b a d e => Sys2Proof.Machine.execPand b a d e s
  | .por b a d e => Sys2Proof.Machine.execPor b a d e s
  | .pxor b a d e => Sys2Proof.Machine.execPxor b a d e s
  | .pnot a d e => Sys2Proof.Machine.execPnot a d e s
  | .fadd b a n d e => Sys2Proof.Machine.execFadd b a n d e s
  | .fsub b a n d e => Sys2Proof.Machine.execFsub b a n d e s
  | .fmul b a n d e => Sys2Proof.Machine.execFmul b a n d e s
  | .fmax b a n d e => Sys2Proof.Machine.execFmax b a n d e s
  | .ffma c b a n d e => Sys2Proof.Machine.execFfma c b a n d e s
  | .ffms c b a n d e => Sys2Proof.Machine.execFfms c b a n d e s
  | .fnfma c b a n d e => Sys2Proof.Machine.execFnfma c b a n d e s
  | .fmad2 c b a n d e => Sys2Proof.Machine.execFmad2 c b a n d e s
  | .fmin b a n d e => Sys2Proof.Machine.execFmin b a n d e s
  | .fcopysign b a n d e => Sys2Proof.Machine.execFcopysign b a n d e s
  | .fabs a n d e => Sys2Proof.Machine.execFabs a n d e s
  | .fneg a n d e => Sys2Proof.Machine.execFneg a n d e s
  | .fcmp t b a c p e => Sys2Proof.Machine.execFcmp t b a c p e s
  | .cvt m k a n d e => Sys2Proof.Machine.execCvt m k a n d e s
  | .pkbf b a n d e => Sys2Proof.Machine.execPkbf b a n d e s
  | .pkh8 b a n d e => Sys2Proof.Machine.execPkh8 b a n d e s
  | .upkbf a n d e => Sys2Proof.Machine.execUpkbf a n d e s
  | .upkh8 a n d e => Sys2Proof.Machine.execUpkh8 a n d e s
  | .rcp a n d e => Sys2Proof.Machine.execRcp a n d e s
  | .rsq a n d e => Sys2Proof.Machine.execRsq a n d e s
  | .ex2 a n d e => Sys2Proof.Machine.execEx2 a n d e s
  | .lg2 a n d e => Sys2Proof.Machine.execLg2 a n d e s
  | .sqrt a n d e => Sys2Proof.Machine.execSqrt a n d e s
  | .sin a n d e => Sys2Proof.Machine.execSin a n d e s
  | .cos a n d e => Sys2Proof.Machine.execCos a n d e s
  | .tanh a n d e => Sys2Proof.Machine.execTanh a n d e s
  | .hadd2 b a n d e => Sys2Proof.Machine.execHadd2 b a n d e s
  | .hsub2 b a n d e => Sys2Proof.Machine.execHsub2 b a n d e s
  | .hmul2 b a n d e => Sys2Proof.Machine.execHmul2 b a n d e s
  | .hmax2 b a n d e => Sys2Proof.Machine.execHmax2 b a n d e s
  | .cbx b a n d e => Sys2Proof.Machine.execCbx b a n d e s
  | .cbq b a n d e => Sys2Proof.Machine.execCbq b a n d e s
  | .nqx b a n d e => Sys2Proof.Machine.execNqx b a n d e s
  | .nqq b a n d e => Sys2Proof.Machine.execNqq b a n d e s
  | .hfma2 c b a n d e => Sys2Proof.Machine.execHfma2 c b a n d e s
  | .hfms2 c b a n d e => Sys2Proof.Machine.execHfms2 c b a n d e s
  | .br o x p => Sys2Proof.Machine.execBr o x p s
  | .jmp o => Sys2Proof.Machine.execJmp o s
  | .call o => Sys2Proof.Machine.execCall o s
  | .jr a => Sys2Proof.Machine.execJr a s
  | .callr a => Sys2Proof.Machine.execCallr a s
  | .ret => Sys2Proof.Machine.execRet s
  | .exit => Sys2Proof.Machine.execExit s
  | .join => Sys2Proof.Machine.execJoin s
  | .nop e => Sys2Proof.Machine.execNop e s
  | .jtab o a n => Sys2Proof.Machine.execJtab o a n s
  | .heel b a d => Sys2Proof.Machine.execHeel b a d s
  | .rayld a n d e => Sys2Proof.Machine.execRayld a n d e s
  | .boxt b a n d e => Sys2Proof.Machine.execBoxt b a n d e s
  | .desc b a n d e => Sys2Proof.Machine.execDesc b a n d e s
  | .asc b a n d e => Sys2Proof.Machine.execAsc b a n d e s
  | .trit a n d e => Sys2Proof.Machine.execTrit a n d e s
  | .tcmp b a n d e => Sys2Proof.Machine.execTcmp b a n d e s
  | .tcvt a n d e => Sys2Proof.Machine.execTcvt a n d e s
  | .hitw a d e => Sys2Proof.Machine.execHitw a d e s
  | .rasts b a n d e => Sys2Proof.Machine.execRasts b a n d e s
  | .rastt b a n d e => Sys2Proof.Machine.execRastt b a n d e s
  | .refit b a n d e => Sys2Proof.Machine.execRefit b a n d e s
  | .vtxq b a n d e => Sys2Proof.Machine.execVtxq b a n d e s
  | .shflIdx b a n d e => Sys2Proof.Machine.execShflIdx b a n d e s
  | .shflUp b a n d e => Sys2Proof.Machine.execShflUp b a n d e s
  | .shflDown b a n d e => Sys2Proof.Machine.execShflDown b a n d e s
  | .shflXor b a n d e => Sys2Proof.Machine.execShflXor b a n d e s
  | .voteAny p n d e => Sys2Proof.Machine.execVoteAny p n d e s
  | .voteAll p n d e => Sys2Proof.Machine.execVoteAll p n d e s
  | .voteBallot p n d e => Sys2Proof.Machine.execVoteBallot p n d e s
  | .voteUni a n d e => Sys2Proof.Machine.execVoteUni a n d e s
  | .redaddI a n d e => Sys2Proof.Machine.execRedaddI a n d e s
  | .redaddF a n d e => Sys2Proof.Machine.execRedaddF a n d e s
  | .redminS a n d e => Sys2Proof.Machine.execRedminS a n d e s
  | .redmaxS a n d e => Sys2Proof.Machine.execRedmaxS a n d e s
  | .matchLanes a n d e => Sys2Proof.Machine.execMatchLanes a n d e s
  | .compact p n d e => Sys2Proof.Machine.execCompact p n d e s
  | .scanadd a n d e => Sys2Proof.Machine.execScanadd a n d e s
  | .elect n d e => Sys2Proof.Machine.execElect n d e s
  | .knead b a c => Sys2Proof.Machine.execKnead b a c s
  | .kflush => Sys2Proof.Machine.execKflush s
  | .wrk k a e => Sys2Proof.Machine.execWrk k a e s
  | .rdk k n d e => Sys2Proof.Machine.execRdk k n d e s
  | .barSync b => Sys2Proof.Machine.execBarSync b s
  | .barArrive b e => Sys2Proof.Machine.execBarArrive b e s
  | .barWait b => Sys2Proof.Machine.execBarWait b s
  | .barInit b a e => Sys2Proof.Machine.execBarInit b a e s
  | .genbeg b a => Sys2Proof.Machine.execGenbeg b a s
  | .yield a e => Sys2Proof.Machine.execYield a e s
  | .take p n d e => Sys2Proof.Machine.execTake p n d e s
  | .gennext => Sys2Proof.Machine.execGennext s
  | .ldG o x a n d e => Sys2Proof.Machine.execLdG o x a n d e s
  | .stG o x a d e => Sys2Proof.Machine.execStG o x a d e s
  | .ldS o x a n d e => Sys2Proof.Machine.execLdS o x a n d e s
  | .stS o x a d e => Sys2Proof.Machine.execStS o x a d e s
  | .ldSc a n d e => Sys2Proof.Machine.execLdSc a n d e s
  | .stSc b a e => Sys2Proof.Machine.execStSc b a e s
  | .aaddSc b a n d e => Sys2Proof.Machine.execAaddSc b a n d e s
  | .aexchSc b a n d e => Sys2Proof.Machine.execAexchSc b a n d e s
  | .acasSc c b a n d e => Sys2Proof.Machine.execAcasSc c b a n d e s
  | .ldfe t o x a n d => Sys2Proof.Machine.execLdfe t o x a n d s
  | .stfe o x a d => Sys2Proof.Machine.execStfe o x a d s
  | .aadd b a n d e => Sys2Proof.Machine.execAadd b a n d e s
  | .amin b a n d e => Sys2Proof.Machine.execAmin b a n d e s
  | .amax b a n d e => Sys2Proof.Machine.execAmax b a n d e s
  | .aexch b a n d e => Sys2Proof.Machine.execAexch b a n d e s
  | .acas c b a n d e => Sys2Proof.Machine.execAcas c b a n d e s
  | .aand b a n d e => Sys2Proof.Machine.execAand b a n d e s
  | .aor b a n d e => Sys2Proof.Machine.execAor b a n d e s
  | .axor b a n d e => Sys2Proof.Machine.execAxor b a n d e s
  | .gath b a n d e => Sys2Proof.Machine.execGath b a n d e s
  | .scat b a d e => Sys2Proof.Machine.execScat b a d e s
  | .gathS b a n d e => Sys2Proof.Machine.execGathS b a n d e s
  | .scatS b a d e => Sys2Proof.Machine.execScatS b a d e s
  | .acq k a x => Sys2Proof.Machine.execAcq k a x s
  | .rel k a x => Sys2Proof.Machine.execRel k a x s
  | .bind b a k e => Sys2Proof.Machine.execBind b a k e s
  | .fence x => Sys2Proof.Machine.execFence x s
  | .watch a e => Sys2Proof.Machine.execWatch a e s
  | .doze a n d => Sys2Proof.Machine.execDoze a n d s
  | .pref h a e => Sys2Proof.Machine.execPref h a e s
  | .ldraw x a n d e => Sys2Proof.Machine.execLdraw x a n d e s
  | .qpush q a => Sys2Proof.Machine.execQpush q a s
  | .qpop q n d => Sys2Proof.Machine.execQpop q n d s
  | .qpoll q p n d e => Sys2Proof.Machine.execQpoll q p n d e s
  | .qstat q n d e => Sys2Proof.Machine.execQstat q n d e s
  | .mxiss a => Sys2Proof.Machine.execMxiss a s
  | .mxmeta c a => Sys2Proof.Machine.execMxmeta c a s
  | .chbeg b e => Sys2Proof.Machine.execChbeg b e s
  | .chend b e => Sys2Proof.Machine.execChend b e s
  | .spcmp t k a n d e => Sys2Proof.Machine.execSpcmp t k a n d e s
  | .spexp t k a n d e => Sys2Proof.Machine.execSpexp t k a n d e s
  | .scac c b a n d e => Sys2Proof.Machine.execScac c b a n d e s
  | .bsq b a n d e => Sys2Proof.Machine.execBsq b a n d e s
  | .boinit b a e => Sys2Proof.Machine.execBoinit b a e s
  | .boexp b a e => Sys2Proof.Machine.execBoexp b a e s
  | .boarr a e => Sys2Proof.Machine.execBoarr a e s
  | .waitph b a => Sys2Proof.Machine.execWaitph b a s
  | .cpiss a => Sys2Proof.Machine.execCpiss a s
  | .rsend a => Sys2Proof.Machine.execRsend a s
  | .rrecv n d => Sys2Proof.Machine.execRrecv n d s
  | .rstat x n d e => Sys2Proof.Machine.execRstat x n d e s
  | .trap a => Sys2Proof.Machine.execTrap a s
  | .tfence a => Sys2Proof.Machine.execTfence a s
  | .xret f => Sys2Proof.Machine.execXret f s
  | .errclr a e => Sys2Proof.Machine.execErrclr a e s
  | .rdsp x n d e => Sys2Proof.Machine.execRdsp x n d e s
  | .wrsp x a e => Sys2Proof.Machine.execWrsp x a e s
  | .cbset a e => Sys2Proof.Machine.execCbset a e s
  | .carve a n d => Sys2Proof.Machine.execCarve a n d s
  | .ptog n d e => Sys2Proof.Machine.execPtog n d e s
  | .gtop a e => Sys2Proof.Machine.execGtop a e s
  | .sctime a n d e => Sys2Proof.Machine.execSctime a n d e s
  | .genend => Sys2Proof.Machine.execGenend s
  | .genstat n d e => Sys2Proof.Machine.execGenstat n d e s
  | .tlbib a k => Sys2Proof.Machine.execTlbib a k s
  | .tlbil a k e => Sys2Proof.Machine.execTlbil a k e s
  | .lvend e => Sys2Proof.Machine.execLvend e s
  | .kstat n d e => Sys2Proof.Machine.execKstat n d e s
  | .bkpt => Sys2Proof.Machine.execBkpt s
  | .waitphSt a r p => Sys2Proof.Machine.execWaitphSt a r p s
  | .errrd n d e => Sys2Proof.Machine.execErrrd n d e s
  | .clkrd n d e => Sys2Proof.Machine.execClkrd n d e s
  | .mov b d e => Sys2Proof.Machine.execMov b d e s
  | .add16 b d e => Sys2Proof.Machine.execAdd16 b d e s
  | .sub16 b d e => Sys2Proof.Machine.execSub16 b d e s
  | .mullo16 b d e => Sys2Proof.Machine.execMullo16 b d e s
  | .and16 b d e => Sys2Proof.Machine.execAnd16 b d e s
  | .or16 b d e => Sys2Proof.Machine.execOr16 b d e s
  | .xor16 b d e => Sys2Proof.Machine.execXor16 b d e s
  | .shl16 b d e => Sys2Proof.Machine.execShl16 b d e s
  | .shrU16 b d e => Sys2Proof.Machine.execShrU16 b d e s
  | .shrS16 b d e => Sys2Proof.Machine.execShrS16 b d e s
  | .minS16 b d e => Sys2Proof.Machine.execMinS16 b d e s
  | .maxS16 b d e => Sys2Proof.Machine.execMaxS16 b d e s
  | .fadd16 b d e => Sys2Proof.Machine.execFadd16 b d e s
  | .fsub16 b d e => Sys2Proof.Machine.execFsub16 b d e s
  | .fmul16 b d e => Sys2Proof.Machine.execFmul16 b d e s
  | .fmax16 b d e => Sys2Proof.Machine.execFmax16 b d e s
  | .fusedGroup => Sys2Proof.Machine.execFusedGroup s
  | .illegalWord => Sys2Proof.Machine.execIllegalWord s
  | .pendingWriteLands => Sys2Proof.Machine.execPendingWriteLands s
  | .grouperFill => Sys2Proof.Machine.execGrouperFill s
  | .entryAged => Sys2Proof.Machine.execEntryAged s
  | .rendezvousComplete => Sys2Proof.Machine.execRendezvousComplete s
  | .joinRelease => Sys2Proof.Machine.execJoinRelease s
  | .binTimeout => Sys2Proof.Machine.execBinTimeout s
  | .binWarpTakesSlot => Sys2Proof.Machine.execBinWarpTakesSlot s
  | .leavenSpawn => Sys2Proof.Machine.execLeavenSpawn s
  | .leavenContextEnd => Sys2Proof.Machine.execLeavenContextEnd s
  | .generatorSwitch => Sys2Proof.Machine.execGeneratorSwitch s
  | .dozeTimeout => Sys2Proof.Machine.execDozeTimeout s
  | .scRetry => Sys2Proof.Machine.execScRetry s
  | .lqn => Sys2Proof.Machine.execLqn s
  | .slotFree => Sys2Proof.Machine.execSlotFree s
  | .takeRecord => Sys2Proof.Machine.execTakeRecord s
  | .offerCandidate => Sys2Proof.Machine.execOfferCandidate s
  | .recordStarvation => Sys2Proof.Machine.execRecordStarvation s
  | .migration => Sys2Proof.Machine.execMigration s
  | .sifter => Sys2Proof.Machine.execSifter s
  | .blockEnd => Sys2Proof.Machine.execBlockEnd s
  | .copyTakeEntry => Sys2Proof.Machine.execCopyTakeEntry s
  | .engineByteCount => Sys2Proof.Machine.execEngineByteCount s
  | .engineError => Sys2Proof.Machine.execEngineError s
  | .copyStatus => Sys2Proof.Machine.execCopyStatus s
  | .matrixTakeEntry => Sys2Proof.Machine.execMatrixTakeEntry s
  | .bufferClaim => Sys2Proof.Machine.execBufferClaim s
  | .rectReserve => Sys2Proof.Machine.execRectReserve s
  | .metadataTake => Sys2Proof.Machine.execMetadataTake s
  | .kStep => Sys2Proof.Machine.execKStep s
  | .partialDelivery => Sys2Proof.Machine.execPartialDelivery s
  | .drain => Sys2Proof.Machine.execDrain s
  | .matrixStatus => Sys2Proof.Machine.execMatrixStatus s
  | .reductionItemArrival => Sys2Proof.Machine.execReductionItemArrival s
  | .routerCombine => Sys2Proof.Machine.execRouterCombine s
  | .reductionDeadline => Sys2Proof.Machine.execReductionDeadline s
  | .flitCrcFailure => Sys2Proof.Machine.execFlitCrcFailure s
  | .packageReset => Sys2Proof.Machine.execPackageReset s
  | .partitionReset => Sys2Proof.Machine.execPartitionReset s
  | .ctxnext => Sys2Proof.Machine.execCtxnext s
  | .preloadComplete => Sys2Proof.Machine.execPreloadComplete s
  | .sliceEnd => Sys2Proof.Machine.execSliceEnd s
  | .coreStopped => Sys2Proof.Machine.execCoreStopped s
  | .spill => Sys2Proof.Machine.execSpill s
  | .powerLimit => Sys2Proof.Machine.execPowerLimit s
  | .shedReturn => Sys2Proof.Machine.execShedReturn s
  | .s2root => Sys2Proof.Machine.execS2root s
  | .hubinvVa => Sys2Proof.Machine.execHubinvVa s
  | .hubinvTenant => Sys2Proof.Machine.execHubinvTenant s
  | .hubinvIpa => Sys2Proof.Machine.execHubinvIpa s
  | .hubinvPartition => Sys2Proof.Machine.execHubinvPartition s
  | .invalidationComplete => Sys2Proof.Machine.execInvalidationComplete s
  | .nqbase => Sys2Proof.Machine.execNqbase s
  | .scepoch => Sys2Proof.Machine.execScepoch s
  | .epochChangeComplete => Sys2Proof.Machine.execEpochChangeComplete s
  | .registerWrite => Sys2Proof.Machine.execRegisterWrite s
  | .attest => Sys2Proof.Machine.execAttest s
  | .tbind => Sys2Proof.Machine.execTbind s
  | .tmext => Sys2Proof.Machine.execTmext s
  | .sealTenant => Sys2Proof.Machine.execSealTenant s
  | .releaseKey => Sys2Proof.Machine.execReleaseKey s
  | .unsealTenant => Sys2Proof.Machine.execUnsealTenant s
  | .svncommit => Sys2Proof.Machine.execSvncommit s
  | .mrext => Sys2Proof.Machine.execMrext s
  | .logread => Sys2Proof.Machine.execLogread s
  | .getFwInfo => Sys2Proof.Machine.execGetFwInfo s
  | .transferFwInitiate => Sys2Proof.Machine.execTransferFwInitiate s
  | .transferFwContinue => Sys2Proof.Machine.execTransferFwContinue s
  | .transferFwEnd => Sys2Proof.Machine.execTransferFwEnd s
  | .transferFwAbort => Sys2Proof.Machine.execTransferFwAbort s
  | .alarm => Sys2Proof.Machine.execAlarm s
  | .logSnapshot => Sys2Proof.Machine.execLogSnapshot s
  | .poweredMinute => Sys2Proof.Machine.execPoweredMinute s
  | .hostBar2Read => Sys2Proof.Machine.execHostBar2Read s
  | .hostBar2Write => Sys2Proof.Machine.execHostBar2Write s
  | .roceRead => Sys2Proof.Machine.execRoceRead s
  | .roceWrite => Sys2Proof.Machine.execRoceWrite s
  | .nvmeCommand => Sys2Proof.Machine.execNvmeCommand s
  | .smaddr => Sys2Proof.Machine.execSmaddr s
  | .accessPerformed => Sys2Proof.Machine.execAccessPerformed s
  | .droopEvent => Sys2Proof.Machine.execDroopEvent s
  | .powerLoss => Sys2Proof.Machine.execPowerLoss s
  | .mctpMessage => Sys2Proof.Machine.execMctpMessage s

end Sys2Proof.Machine
end

