-- ==== Sys2Proof/Machine/Turn.lean ====
section
/-! DEFINITION. One move of the machine: the fetch and the issue of a group's next instruction (spec 01 R28, 02 R35, R53, 04
R112, R113), what an act of the agenda does, and the move that the machine chooses when none is given (log 1). -/

namespace Sys2Proof.Machine

/-! ## Issuing -/

/-- The major opcode that FIRSTMAJ records: bits [7:2], or the four bits of op4 in a 16-bit word (R26, R36). -/
def majOf (bs : List Byte) : BitVec 6 :=
  match bs with
  | [] => 0
  | b :: _ => if b.getLsbD 0 then b.extractLsb' 2 6 else (b.extractLsb' 2 4).setWidth 6

/-- The members of a fused group that may begin at an address: at most `fuel` of them (R113). -/
def State.fusables (s : State) (c : Nat) (o : Own) : Nat → Dword → List Fusable
  | 0, _ => []
  | fuel + 1, pc =>
    match s.fetch c o pc with
    | .error _ => []
    | .ok r =>
      match (if r.1.codeBad c o pc r.2.length then none else decode r.2) with
      | none => []
      | some (i, _) =>
        match fusableOf i with
        | none => []
        | some m => if i.isHeel then [m] else m :: s.fusables c o fuel (pc + BitVec.ofNat 64 i.len)

/-- The fused group that begins at an address, the longest that qualifies; empty for none. -/
def State.fusedAt (s : State) (c : Nat) (o : Own) (pc : Dword) : List Fusable :=
  let ms := s.fusables c o 3 pc
  if ms.length = 3 ∧ fusedQualifies ms then ms else if fusedQualifies (ms.take 2) then ms.take 2 else []

/-- The state in which a port issues. A port issues once in a cycle, and port 0 before port 1: a cycle passes when the port's turn is
over. What port 1 issues finds what port 0 has done in the same cycle, also a k register that it has written: R163 speaks only of later
cycles (DESIGN CHOICE, log 78). -/
def State.atPort (s : State) (c p : Nat) (defer : Bool) : State :=
  let x := s.core c
  let s := if x.last p = some s.clock ∨ (p = 0 ∧ x.last1 = some s.clock) then s.advance 1 else s
  { s.modCore c (fun x => x.setLast p (some s.clock)) with curCore := c, curPort := p, defer := defer }

/-- The next instruction of the group on a port is fetched, decoded and executed; a fetch that faults traps every thread of the
group, one that reads poison halts them, a word that does not decode is illegal. -/
def State.issueAt (s : State) (c p : Nat) (fuse defer : Bool) : Answer :=
  let s := s.atPort c p defer
  match s.group with
  | [] => .next s
  | t :: _ =>
    if s.coreHalted c then .next s
    else
      let o := s.ownOf t
      let pc := (s.thread t).pc
      match s.fetch c o pc with
      | .error inf => .next (s.group.foldl (fun s t => s.takeTrap t inf false) s)
      | .ok (s, bs) =>
        if s.codeBad c o pc bs.length then .next (s.group.foldl (fun s t => s.halt t haltPAR) s) else
        match decode bs with
        | none => exec .illegalWord { s with arg := { maj := majOf bs, flag := decide (bs.length = 2) } }
        | some (i, _) =>
          let ms := if fuse then s.fusedAt c o pc else []
          if ms.isEmpty then exec i s else exec .fusedGroup { s with arg := { fused := ms } }

/-! ## Acts -/

/-- The constructors that stand for events, and not for words that a group issues. -/
def Instr.isEvent (i : Instr) : Bool :=
  match encodeWord i, i with
  | .none, .illegalWord => false
  | .none, .fusedGroup => false
  | .none, _ => true
  | _, _ => false

/-- An error strikes a register, the low or high half of a latch (124 to 127, 132 to 135) or a predicate (129 to 131) of a thread
(R334). -/
def Thread.strike (r : Nat) (th : Thread) : Thread :=
  if r = 0 ∨ r = 128 ∨ 136 ≤ r then th else { th with bad := addNat th.bad r }

/-- An error that has poisoned data on a core is counted (R390). -/
def State.poisoned (s : State) (c : Nat) : State := s.count fun l => { l with uncorrected := bump sat32 l.uncorrected (dieOf c) }

/-- An error strikes the 8-byte word of a line that a cache holds, if it holds a byte of it (R334). -/
def CLine.strike (pa : Nat) (l : CLine) : CLine :=
  if 0 < wordCount l.bytes (fun _ => true) (pa / 8) then { l with poison := addNat l.poison (pa / 8) } else l

/-- What an act does. -/
def State.perform1 (s : State) (a : Act) : Answer :=
  match a with
  | .issue c p fuse defer => s.issueAt c p fuse defer
  | .ev i arg => if Instr.isEvent i then exec i { s with arg := arg } else .next s
  | .evictL1 c ln => .next (l1Drop s c ln)
  | .evictRdc d ln => .next (rdcDrop s d ln)
  | .evictL2 ln => .next (l2Evict s ln)
  | .evictIc c ln => .next (s.modCore c fun x => { x with icache := x.icache.filter fun l => decide (l.line ≠ ln) })
  | .evictTlb c k => .next (s.modCore c fun x =>
      { x with tlb := ldrop x.tlb k, tlbPast := (x.tlb[k]?.toList.filter fun e => !x.tlbPast.contains e) ++ x.tlbPast })
  | .evictWalk cl => .next { s with ctlb := s.ctlb.filter (fun x => decide (x.1 ≠ cl)), cwalk := s.cwalk.filter fun x => decide (x.1 ≠ cl) }
  | .evictXlate cl table k =>
    let nth {α : Type} (l : List (Nat × α)) : List (Nat × α) :=
      match ((l.zipIdx.filter fun x => decide (x.1.1 = cl)).map Prod.snd)[k]? with | none => l | some i => ldrop l i
    .next (if table then { s with cwalk := nth s.cwalk } else { s with ctlb := nth s.ctlb })
  | .takePart t base k => .next (s.takePart t base k)
  | .parity t r => .next (s.modThread t (Thread.strike r))
  | .parityK c sl k => .next (s.modWarp c sl fun w => { w with badK := addNat w.badK (k % 64) })
  | .poisonMem pa =>
    let s := s.count fun l => { l with uncorrected := bump sat32 l.uncorrected (homeOf pa) }
    .next { s with poison := addNat s.poison (pa / 8) }
  | .poisonL1 c pa =>
    .next ((s.poisoned c).modCore c fun x => { x with l1 := x.l1.map fun l => if l.line = pa / 128 then l.strike pa else l })
  | .poisonRdc d pa =>
    let s := s.count fun l => { l with uncorrected := bump sat32 l.uncorrected d }
    .next { s with rdc := s.rdc.map fun x => if x.1 = (d, pa / 128) then (x.1, x.2.strike pa) else x }
  | .spillWay c => .next (s.spillWay c)
  | .poisonScr b off =>
    .next ((s.poisoned (s.block b).core).modBlock b fun x => { x with poison := addNat x.poison (off / 8) })
  | .poisonQ b q pos =>
    .next (if pos < (s.block b).qCount q then (s.poisoned (s.block b).core).modBlock b fun x => { x with qbad := addNew x.qbad (q, pos) } else s)
  | .poisonAcc c buf word =>
    .next (if word < 1024 then (s.poisoned c).modCore c fun x =>
      let a := x.acc (buf ≠ 0)
      x.setAcc (buf ≠ 0) { a with poison := addNat a.poison word } else s)
  | .poisonBin c k i r =>
    let hit (b : BinThread) : BinThread :=
      if b.regs.any fun x => x.1 = r then { b with th := { b.th with bad := addNat b.th.bad r } } else b
    let inBin (b : Bin) : Bin := { b with threads := b.threads.zipIdx.map fun x => if x.2 = i then hit x.1 else x.1 }
    .next ((s.poisoned c).modCore c fun x => { x with bins := x.bins.zipIdx.map fun b => if b.2 = k then inBin b.1 else b.1 })
  | .copyStep c k n => .next (s.copyStep c k n)
  | .copyElem c k n => .next (s.copyElem c k n)
  | .bar0Read p off n => .next (s.bar0Read p off n)
  | .bar4Read p off n => .next (s.bar4Read p off n)
  | .bar4Write p off bs => .next (s.bar4Write p off bs)
  | .mailboxOther _ => s.mailbox fun s => s.reply cxlUnsupported []
  | .imageWritten => .next (if s.sec.writing then s.imageWritten else s)
  | .corrected d k => .next (if k < 5 then s.count fun l => { l with corrected := bump sat32 l.corrected (5 * d + k) } else s)
  | .hostMem pa bs =>
    .next (if bs.isEmpty || (inHostWindow pa && inHostWindow (pa + bs.length - 1)) then { s with mem := cellWrite s.mem pa bs } else s)
  | .register p base n => .next (s.modPart p fun q => { q with registered := q.registered ++ [(base, n)] })
  | .tick => .next s

/-! ## The move that the machine chooses -/

/-- The first element that a function accepts. -/
def firstSome {α β : Type} (f : α → Option β) : List α → Option β
  | [] => none
  | x :: r => match f x with | some y => some y | none => firstSome f r

/-- An event with its argument, as a move without delay. -/
def evNow (i : Instr) (a : Arg) : Option Move := some ⟨0, .ev i a⟩

/-- What a thread is ready for: a group lands, a store or an SC operation is performed, a wait ends. -/
def State.threadMove (s : State) (x : TRef × Thread) : Option Move :=
  let t := x.1
  let th := x.2
  match th.outs with
  | o :: _ =>
    if o.src = .sc then
      match th.sc with
      | none => none
      | some op =>
        if (stampAt s (s.partOf t.core) (op.pa / 128)).lt op.ts then evNow .accessPerformed { t := t }
        else if (s.core t.core).scK < scLimit then evNow .scRetry { t := t } else none
    else evNow .pendingWriteLands { t := t, k := o.base }
  | [] =>
    if !th.stores.isEmpty then evNow .accessPerformed { t := t, flag := true }
    else match th.sc, th.st with
      | some op, _ =>
        if (stampAt s (s.partOf t.core) (op.pa / 128)).lt op.ts then evNow .accessPerformed { t := t }
        else if (s.core t.core).scK < scLimit then evNow .scRetry { t := t } else none
      | none, .waiting (.access (.carve _ _ want order no)) =>
        if s.carveReady (s.blkOf t) want order no then evNow .accessPerformed { t := t } else none
      | none, .waiting (.access (.tlbib _ _)) => if s.tlbibReady t then evNow .accessPerformed { t := t } else none
      | none, .waiting (.access (.acq _ o)) => if s.objectStuck t o then none else evNow .accessPerformed { t := t }
      | none, .waiting (.access (.rel _ o)) => if s.objectStuck t o then none else evNow .accessPerformed { t := t }
      | none, .waiting (.access _) => evNow .accessPerformed { t := t }
      | none, .waiting (.join addr) =>
        if (s.joinFree t.core t.slot addr).contains t then evNow .joinRelease { core := t.core, slot := t.slot, v := addr } else none
      | none, .waiting (.doze since limit _ _) => if limit ≠ 0 ∧ since + limit ≤ s.clock then evNow .dozeTimeout { t := t } else none
      | _, _ => none

/-- What a warp is ready for: its generator's switch, a rendezvous, the end of a leaven context. -/
def State.warpMove (s : State) (x : (Nat × Nat) × Warp) : Option Move :=
  let c := x.1.1
  let sl := x.1.2
  let prod (g : Gen) := (s.warpThreads c sl).filter fun y => y.2.live && !g.ended.contains y.1.lane
  match x.2.gen, x.2.leaven with
  | some g, _ =>
    if g.pend && !g.consume && (prod g).all fun y => y.2.atSwitch then evNow .generatorSwitch { core := c, slot := sl }
    else if x.2.arrs.any fun a => s.meetOf c sl a ≠ .none then evNow .rendezvousComplete { core := c, slot := sl } else none
  | none, some l => if l.1 + 4096 ≤ s.clock then evNow .leavenContextEnd { core := c, slot := sl } else none
  | none, none => if x.2.arrs.any fun a => s.meetOf c sl a ≠ .none then evNow .rendezvousComplete { core := c, slot := sl } else none

/-- An event of the matrix engine that changes something, tried in the order of a command's life. -/
def State.runMove (s : State) (c k : Nat) (r : MxRun) : Option Move :=
  let a : Arg := { core := c, k := k }
  let tryEv (i : Instr) (a : Arg) : Option Move :=
    match exec i { s with arg := a } with
    | .next t => if { t with arg := s.arg } ≠ s then evNow i a else none
    | _ => none
  let step : Option Move := firstSome (fun j => tryEv .kStep { a with n := j }) (List.range (r.par.steps + 1))
  firstSome (fun (m : Option Move) => m)
    [tryEv .bufferClaim a, tryEv .metadataTake a, step, tryEv .partialDelivery a, tryEv .drain a, tryEv .engineByteCount { a with flag := true },
     tryEv .engineError { a with flag := true }, tryEv .matrixStatus a]

/-- What the engines of a core are ready for. -/
def State.engineMove (s : State) (x : Nat × Core) : Option Move :=
  let c := x.1
  let copy (y : CopyRun × Nat) : Option Move :=
    if y.1.walking then some ⟨0, .copyStep c y.2 y.1.total⟩
    else if 0 < y.1.left then evNow .engineByteCount { core := c, k := y.2, n := y.1.left }
    else if !y.1.errDone then evNow .engineError { core := c, k := y.2 }
    else if y.1.finished && decide ((s.block y.1.blk).q5.length + y.1.need ≤ 16) then evNow .copyStatus { core := c, k := y.2 } else none
  match firstSome copy x.2.copies.zipIdx with
  | some m => some m
  | none => firstSome (fun (y : MxRun × Nat) => s.runMove c y.2 y.1) x.2.runs.zipIdx

/-- What a block is ready for: its sifter, its queues' heads, its end. -/
def State.blockMove (s : State) (x : BRef × Block) : Option Move :=
  let b := x.2
  let a : Arg := { core := b.core, blk := x.1 }
  if !b.sift.isEmpty then evNow .sifter a
  else if s.nextCopy b.core = some x.1 ∧ (s.core b.core).copies.length < 4 then evNow .copyTakeEntry a
  else if s.nextMatrix b.core = some x.1 ∧ !s.reserved b.core then evNow .matrixTakeEntry a
  else if s.nextPacket b.core = some x.1 then
    evNow .reductionItemArrival { blk := x.1, flag := true }
  else if s.blockDone x.1 && !b.benched && (s.launch? x.1.launch).isSome then evNow .blockEnd a
  else none

/-- What the routers of a launch are ready for. -/
def State.redMove (s : State) (x : Nat × Launch) : Option Move :=
  if !s.redsRun x.1 then none
  else firstSome (fun r =>
    if !r.flying.isEmpty then evNow .reductionItemArrival { k := x.1, n := r.seq }
    else
      let node (m : RNode) : Option Move :=
        if m.combined then none
        else if r.full x.2.tree m.idx then evNow .routerCombine { k := x.1, n := r.seq, off := m.idx }
        else if r.expired x.2.tree m.idx s.clock then evNow .reductionDeadline { k := x.1, n := r.seq, off := m.idx } else none
      match firstSome node r.nodes with
      | some m => some m
      | none =>
        if r.owed.any fun i => (s.block? ⟨x.1, i⟩).isNone || decide ((s.block ⟨x.1, i⟩).q7.length < qDepth 7) then
          evNow .routerCombine { k := x.1, n := r.seq }
        else none) x.2.reds

/-- A core of a partition in a switch has a step of its stop to do. -/
def State.stopsNow (s : State) (p c : Nat) : Bool :=
  !(s.core c).stopped && (!(s.core c).swapped || (s.performThreads c (s.benchOf p c)).quiet c (s.benchOf p c))

/-- What the hub is ready for in a partition. -/
def State.partMove (s : State) (x : Nat × Partition) : Option Move :=
  let p := x.1
  let q := x.2
  let a : Arg := { part := p }
  if q.busy.isSome then evNow .invalidationComplete a
  else if q.epochGo && s.threads.all fun t => t.2.sc.isNone || s.scStuck t.1 || decide (s.partOf t.1.core ≠ p) then evNow .epochChangeComplete a
  else if q.halted then none
  else if q.switch = .idle && (match q.next with
      | none => false
      | some (x, now) => !q.preloaded || ((q.cur.isNone || now) && (x.isNone || decide (s.powerStep < 4)))) then evNow .preloadComplete a
  else if q.switch ≠ .idle && (s.coresOf p).any fun c => s.stopsNow p c then
    match (s.coresOf p).find? fun c => s.stopsNow p c with
    | some c => evNow .coreStopped { core := c }
    | none => none
  else if q.switch ≠ .idle && (s.coresOf p).all fun c => (s.core c).stopped then evNow .spill a
  else if q.switch = .idle && (match q.cur with | none => false | some c => decide (c.slice ≠ 0) && decide (c.since + 1024 * c.slice ≤ s.clock)) then evNow .sliceEnd a
  else if (s.rectReqs.any fun r => decide (s.partOf r.1 = p)) then
    match exec .rectReserve { s with arg := a } with
    | .next t => if { t with arg := s.arg } ≠ s then evNow .rectReserve a else none
    | _ => none
  else none

/-- The command at the head of the security engine's queue. -/
def State.secMove (s : State) : Option Move :=
  match s.sec.queue with
  | [] => none
  | p :: _ =>
    let i : Instr := match field (hubRead s (s.partn p).smaddr 1) 0 1 with
      | 2 => .tbind | 3 => .tmext | 4 => .sealTenant | 5 => .releaseKey | 6 => .unsealTenant | 7 => .svncommit | 8 => .mrext | 9 => .logread
      | _ => .attest
    evNow i { part := p }

/-- What the launch scheduler is ready for. -/
def State.schedMove (s : State) : Option Move :=
  let slot (x : Nat × QSlot) : Option Move :=
    let q := x.2
    if q.cand.isNone && !q.recs.isEmpty && s.isCurrent ⟨q.part, q.tenant⟩ then evNow .takeRecord { k := x.1 }
    else if q.head = q.tail ∧ q.cand = none ∧ (s.liveOf q.part q.tenant q.hdr).isEmpty then evNow .slotFree { k := x.1 } else none
  match firstSome slot s.slots with
  | some m => some m
  | none => if s.candidates.any fun x => (s.originFor x.2).isSome then evNow .offerCandidate {} else none

/-- What a core's kneading table is ready for; the ports fill with each cycle. -/
def State.kneadMove (s : State) (x : Nat × Core) : Option Move :=
  let c := x.1
  let late := firstSome (fun (b : Bin × Nat) => if b.1.entered + 2048 ≤ s.clock then evNow .binTimeout { core := c, k := b.2 } else none) x.2.bins.zipIdx
  match late with
  | some m => some m
  | none =>
    if x.2.released.any fun b => (s.slotFor c b).isSome then evNow .binWarpTakesSlot { core := c } else none

/-- The ports that hold a group. -/
def State.ports (s : State) : List (Nat × Nat) :=
  (s.cores.filter fun x => !s.coreHalted x.1).flatMap fun x =>
    (if x.2.p0.isEmpty then [] else [(x.1, 0)]) ++ (if x.2.p1.isEmpty then [] else [(x.1, 1)])

/-- The move that the machine makes when the agenda gives none: what is due is done, then the groups issue in turn. -/
def State.nextMove (s : State) : Move :=
  let due : Option Move := firstSome (fun (f : Unit → Option Move) => f ())
    [fun _ => firstSome s.threadMove s.threads, fun _ => firstSome s.warpMove s.warps, fun _ => firstSome s.partMove s.parts,
     fun _ => s.secMove, fun _ => firstSome s.blockMove s.blocks, fun _ => firstSome s.engineMove s.cores, fun _ => firstSome s.redMove s.launches,
     fun _ => s.schedMove, fun _ => firstSome s.kneadMove s.cores]
  match due with
  | some m => m
  | none =>
    match s.ports with
    | [] => ⟨1, .tick⟩
    | l => let p := l.getD (s.clock % l.length) (0, 0); ⟨1, .issue p.1 p.2 false false⟩

/-! ## One move -/

/-- A write to a device register reaches the hub. -/
def State.hubTurn (s : State) (x : Instr × Arg) (rest : List (Instr × Arg)) : Answer :=
  exec x.1 { s with hubq := rest, arg := x.2 }

/-- What follows a move, and the clock notices that go out. -/
def State.after (s : State) : State := s.settle.clockNotices

/-- A move made: its cycles pass, each with what it brings, then its act. -/
def State.make (s : State) (m : Move) : Answer := (s.advance m.dt).perform1 m.act

/-- The move of this step: a register write on its way, else the agenda's head, else the machine's choice. -/
def State.turn (s : State) : Answer :=
  match s.hubq, s.agenda with
  | x :: rest, _ => s.hubTurn x rest
  | [], m :: ms => ({ s with agenda := ms } : State).make m
  | [], [] => s.make s.nextMove

end Sys2Proof.Machine
end

