-- ==== Sys2Proof/Machine/Step.lean ====
section
/-! DEFINITION. One step of the machine, and the state in which the next step runs a given instruction. -/

namespace Sys2Proof.Machine

/-- One step: a move, and what follows it. -/
def step (s : State) : Host.Outcome State Fault Refusal :=
  match s.turn with
  | .next t => .next t.after
  | x => x

/-- The port, and the physical address, from which the first group of the machine fetches its next instruction. -/
def State.fetchSpot (s : State) : Option (Nat × Nat × Nat) :=
  firstSome (fun x =>
    match (s.core x.1).port x.2 with
    | [] => none
    | t :: _ =>
      match checkGlobal s x.1 (s.ownOf t) (s.thread t).pc 4 (fetchNeed 2) with
      | .ok (.glob pa _ _) => if pa % 128 ≤ 124 then some (x.1, x.2, pa) else none
      | _ => none) s.ports

/-- A bare context for a fetch: one thread of one block runs on core 0 in partition 0, whose tables map the first GiB to itself. -/
def State.bare (s : State) : State :=
  let pc := 0x12000
  let ctx : Ctx := { desc := 0, s1root := 0x10000, save := 0, slice := 0, tenant := 0, savecnt := 0, waymask := 0xFFFF, rdcmask := 0xFFFF, quota := 0, since := 0 }
  let br : BRef := ⟨s.nextLaunch, 0⟩
  let blk : Block := {
    part := 0, tenant := 0, core := 0, cx := 0, cy := 0, rw := 1, rh := 1, slots := [0], nwarps := 1, budgets := [124, 8, 8, 8], scratch := 0,
    reserve := 0, pways := [], bars := List.replicate 16 { x := 1 } }
  let t : TRef := ⟨0, 0, 0⟩
  let mem := cellWrite (cellWrite s.mem 0x10000 (leBytes 8 0x11001)) 0x11000 (leBytes 8 0x1F)
  let s : State := { s with mem := mem, l2 := [], sec := { s.sec with powered := true, recovery := false }, powerStep := 0 }
  let s := s.modPart 0 fun q => { q with s2root := 0x10001, cur := some ctx, halted := false, switch := .idle }
  let s := (s.setBlock br blk).setWarp 0 0 { blk := br, role := 0, k := (Vector.replicate 64 (0 : Word)).setIfInBounds 63 1 }
  let s := s.setThread t { budget := 124, pc := BitVec.ofNat 64 pc, st := .running }
  s.modCore 0 fun c => { c with p0 := [t], p1 := [], last0 := none, last1 := none, swapped := false, stopped := false, spilled := false, out := none, tlb := [], icache := [] }

/-- The state with an instruction stored where the next step fetches it (log 31): `w` with its first word lowest, zeros above
`nbits`. -/
def State.withFetchWord (s : State) (nbits w : Nat) : State :=
  let s := if s.fetchSpot.isSome then s else s.bare
  let spot := s.fetchSpot.getD (0, 0, 0x12000)
  let pa := spot.2.2
  let s := l2Evict s (pa / 128)
  let s := s.modCore spot.1 fun c => { c with icache := c.icache.filter fun l => decide (l.line ≠ pa / 128) }
  { s with mem := cellWrite s.mem pa (leBytes 4 (w % 2 ^ nbits)), hubq := [], agenda := [⟨0, .issue spot.1 spot.2.1 false false⟩] }

end Sys2Proof.Machine
end

