-- ==== Sys2Proof/Safety.lean ====
section
/-! DEFINITION. The terms in which statements about the machine are made: when a group is ready to execute an instruction whole,
what a lane instruction leaves, what a step must leave unchanged, and the invariant of memory. -/

namespace Sys2Proof.Machine

/-! ## Readiness -/

/-- A thread may execute an instruction whole: it runs, the word is legal for it (R47, R52) and within its budget (R19), none of
what it reads has a parity error (R334), no outstanding write holds it in place (R48), a leaven thread may execute it (R155), and no scratchpad way is still to be loaded (R340). -/
def ReadyFor (i : Instr) (s : State) (t : TRef) : Bool :=
  (s.thread? t).isSome && decide ((s.thread t).st = .running) && !illegalFor i (s.thread t) && !overBudget i (s.thread t) &&
    !parityHit i (s.warp t.core t.slot) (s.thread t) && !waitsInPlace i (s.warp t.core t.slot) (s.thread t) && (!(s.thread t).leaven || i.leavenRuns) &&
    !s.loading

/-- The group on the current port is there, holds no thread twice, and each of its threads may execute the instruction whole. -/
abbrev Clean (i : Instr) (s : State) : Prop :=
  s.group ≠ [] ∧ s.group.Nodup ∧ ∀ t ∈ s.group, ReadyFor i s t = true

/-- The group is one thread, which may execute the instruction whole. -/
abbrev Alone (i : Instr) (s : State) (t : TRef) : Prop :=
  s.group = [t] ∧ ReadyFor i s t = true

/-! ## Exact values -/

/-- The rational that a finite value stands for (R61, R63, R64). -/
def FVal.rat : FVal → ℚ
  | .fin neg a b => (if neg then -1 else 1) * (a : ℚ) / b
  | _ => 0

/-- The place of a value that is no NaN on the line: the infinities lie beyond every finite value of a format. -/
def FVal.rank : FVal → ℚ
  | .inf neg => if neg then -(2 ^ 200) else 2 ^ 200
  | x => x.rat

/-- The result of an operation whose exact value is `x`, not zero: rounded once in RNE and delivered as R62 and R70 say. -/
def Rounds (f : Fmt) (x : ℚ) (r : Nat × Flags) : Prop :=
  ∃ n d : Nat, 0 < d ∧ (n : ℚ) / d = |x| ∧ r = arithF f .rne (decide (x < 0)) n d

/-- A NaN result: the canonical NaN, with INV when an operand signals (R62). -/
def nanResult (f : Fmt) (ops : List FVal) : Nat × Flags := (f.cnan, if ops.any FVal.isSig then INV else 0)

/-- The sum of two values as IEEE 754-2019 lays it down (R62, R95). -/
structure Sums (f : Fmt) (x y : FVal) (r : Nat × Flags) : Prop where
  nan : x.isNan = true ∨ y.isNan = true → r = nanResult f [x, y]
  inf2 : ∀ a b, x = .inf a → y = .inf b → r = if a = b then (infF f a, 0) else (f.cnan, INV)
  infl : ∀ a, x = .inf a → y.isFin = true → r = (infF f a, 0)
  infr : ∀ b, x.isFin = true → y = .inf b → r = (infF f b, 0)
  fin : x.isFin = true → y.isFin = true → x.rat + y.rat ≠ 0 → Rounds f (x.rat + y.rat) r
  zero : x.isFin = true → y.isFin = true → x.rat + y.rat = 0 → r = (zeroF f (x.sign && y.sign), 0)

/-- The product of two values (R62, R95). -/
structure Multiplies (f : Fmt) (x y : FVal) (r : Nat × Flags) : Prop where
  nan : x.isNan = true ∨ y.isNan = true → r = nanResult f [x, y]
  invalid : (x.isInf = true ∧ y.isZero = true) ∨ (x.isZero = true ∧ y.isInf = true) → r = (f.cnan, INV)
  inf : x.isNan = false → y.isNan = false → x.isZero = false → y.isZero = false → x.isInf = true ∨ y.isInf = true → r = (infF f (x.sign != y.sign), 0)
  fin : x.isFin = true → y.isFin = true → x.rat * y.rat ≠ 0 → Rounds f (x.rat * y.rat) r
  zero : x.isFin = true → y.isFin = true → x.rat * y.rat = 0 → r = (zeroF f (x.sign != y.sign), 0)

/-- x * y + z with one rounding (R97). -/
structure Fuses (f : Fmt) (x y z : FVal) (r : Nat × Flags) : Prop where
  invalid : (x.isInf = true ∧ y.isZero = true) ∨ (x.isZero = true ∧ y.isInf = true) → r = (f.cnan, INV)
  nan : x.isNan = true ∨ y.isNan = true → r = nanResult f [x, y, z]
  addNan : x.isFin = true → y.isFin = true → z.isNan = true → r = nanResult f [z]
  inf : ∀ b : Bool, x.isNan = false → y.isNan = false → x.isZero = false → y.isZero = false → x.isInf = true ∨ y.isInf = true → b = (x.sign != y.sign) →
    (z.isNan = true → r = nanResult f [z]) ∧ (z = .inf !b → r = (f.cnan, INV)) ∧ (z.isFin = true ∨ z = .inf b → r = (infF f b, 0))
  addInf : ∀ b, x.isFin = true → y.isFin = true → z = .inf b → r = (infF f b, 0)
  fin : x.isFin = true → y.isFin = true → z.isFin = true → x.rat * y.rat + z.rat ≠ 0 → Rounds f (x.rat * y.rat + z.rat) r
  zero : x.isFin = true → y.isFin = true → z.isFin = true → x.rat * y.rat + z.rat = 0 → r = (zeroF f ((x.sign != y.sign) && z.sign), 0)

/-- A rational rounded to an integer (R67). -/
def roundRat (mode : RMode) (x : ℚ) : ℤ :=
  match mode with
  | .rd => ⌊x⌋
  | .ru => ⌈x⌉
  | .rz => if x < 0 then ⌈x⌉ else ⌊x⌋
  | .rne => if x - ⌊x⌋ < 1 / 2 then ⌊x⌋ else if 1 / 2 < x - ⌊x⌋ then ⌊x⌋ + 1 else if ⌊x⌋ % 2 = 0 then ⌊x⌋ else ⌊x⌋ + 1

/-! ## Nested geometry -/

/-- The product and the scalar product of vectors, as functions of the axis. -/
def cross3 (a b : ℕ → ℤ) (i : ℕ) : ℤ := a ((i + 1) % 3) * b ((i + 2) % 3) - a ((i + 2) % 3) * b ((i + 1) % 3)
def dot3 (a b : ℕ → ℤ) : ℤ := a 0 * b 0 + a 1 * b 1 + a 2 * b 2

/-- The order of hits by exact root parameter and primitive id; a denominator of 0 stands for +∞ (R121). -/
def Precedes (n1 d1 e1 id1 n2 d2 e2 id2 : ℕ) : Prop :=
  let v (n d e : ℕ) : ℚ := n / (d * 2 ^ e)
  (d1 ≠ 0 ∧ (d2 = 0 ∨ v n1 d1 e1 < v n2 d2 e2)) ∨ (((d1 = 0 ∧ d2 = 0) ∨ (d1 ≠ 0 ∧ d2 ≠ 0 ∧ v n1 d1 e1 = v n2 d2 e2)) ∧ id1 < id2)

/-- A triangle is hit (R128): the origin in units of 2^-20, the direction and the three vertices give the parameter num / den. -/
def TriHit (o d : ℕ → ℤ) (v : ℕ → ℕ → ℤ) (num den : ℕ) : Prop :=
  let n := cross3 (fun i => v 1 i - v 0 i) (fun i => v 2 i - v 0 i)
  let dn := dot3 n d
  let w (a b : ℕ → ℤ) : ℤ := dot3 d fun i => 2 ^ 20 * cross3 a b i - cross3 o (fun j => b j - a j) i
  let lex (a b : ℕ → ℤ) : Prop := a 0 < b 0 ∨ (a 0 = b 0 ∧ (a 1 < b 1 ∨ (a 1 = b 1 ∧ a 2 < b 2)))
  dn ≠ 0 ∧ (∀ k < 3, let a := v k; let b := v ((k + 1) % 3); 0 < dn.sign * w a b ∨ (w a b = 0 ∧ lex a b)) ∧
    (num : ℤ) = dn.sign * dot3 n (fun i => 2 ^ 20 * v 0 i - o i) ∧ den = dn.natAbs

/-- The vertex number of corner `k` of a leaf's triangle, and its coordinates (R119, R65). -/
def leafCorner (bs : List Byte) (t k : ℕ) : ℕ :=
  (bs.getD (88 + (3 * t + k) / 2) 0).toNat / (if (3 * t + k) % 2 = 0 then 1 else 16) % 16 + 8 * (t / 8)
def leafPoint (bs : List Byte) (t k a : ℕ) : ℤ := 16 * (bs.getD (16 + 3 * leafCorner bs t k + a) 0).toNat

/-! ## What a lane instruction leaves -/

/-- Register `k` is one that a result writes: g0 is none, and of a group that begins at g0 neither is g1 (R17, R18). -/
def Res.writes (r : Res) (k : Nat) : Bool :=
  decide (r.base ≤ k) && decide (k < r.base + r.regs.length) && decide (k ≠ 0) && !(decide (r.base = 0) && decide (k = 1))

/-- The last value that a result gives a predicate, if any. -/
def Res.predOf (r : Res) (p : Nat) : Option Bool := (r.preds.reverse.find? fun x => decide (x.1 = p)).map Prod.snd

/-- Of the pending groups that a heel has named, oldest first, those with six newer ones after them are awaited (R49). -/
def awaitOld : List Out → List Out
  | [] => []
  | o :: r => { o with must := o.must || (o.counts && decide (6 ≤ r.countP Out.counts)) } :: awaitOld r

/-- What is outstanding behind a heel that names registers (R49, R50): a group that an earlier heel has passed keeps its state; of the
others, those are pending that hold a register named, and the rest are awaited. -/
def heelOuts (names : List Nat) (outs : List Out) : List Out :=
  awaitOld (outs.map fun o => if o.past then o else { o with past := true, named := names.any fun r => decide (o.base ≤ r) && decide (r < o.base + o.n) })

/-- A thread after a lane instruction: the result's registers, predicates and sticky flags, and its value pushed into the latches
(R39, R46, R82); the pc behind the instruction; after a heel empty latches, its names pending, and the thread Ready, or Waiting for registers while a write it awaits has not landed
(R46, R49, R50); every other part of it as before. `dst` is where the thread then stands: behind the instruction unless it transfers control. -/
structure Delivered (i : Instr) (th th' : Thread) (r : Res) (dst : Dword := th.pc + BitVec.ofNat 64 i.len) : Prop where
  regs : ∀ k < 124, th'.rd k = if r.writes k then r.regs.getD (k - r.base) 0 else th.rd k
  preds : ∀ p < 4, th'.pred p = if p = 0 then true else (r.predOf p).getD (th.pred p)
  flags : th'.aflags = th.aflags ||| r.flags
  pc : th'.pc = dst
  latches : th'.loaf =
    if i.isHeel then {}
    else match r.push with
      | none => { th.loaf with cnt := th.loaf.cnt + 1 }
      | some v => { th.loaf with c0 := v, c1 := th.loaf.c0, c2 := th.loaf.c1, c3 := th.loaf.c2, j := min 4 (th.loaf.j + 1), cnt := th.loaf.cnt + 1 }
  st : i.isHeel = false → th'.st = th.st ∧ th'.outs = th.outs
  heel : i.isHeel = true → th'.outs = heelOuts i.heelNames th.outs ∧
    th'.st = if th'.outs.all (fun o => o.named && !o.must) then .ready else .waiting .outs
  rest : th' = { th with g := th'.g, p1 := th'.p1, p2 := th'.p2, p3 := th'.p3, aflags := th'.aflags, pc := th'.pc, loaf := th'.loaf,
                         st := th'.st, outs := th'.outs, bad := th'.bad, heeled := th'.heeled }

/-- Between two states nothing differs but threads and the current port: every byte of memory and of every scratchpad, every warp, queue,
barrier, k register and register of the hub is as before. The port keeps its group, or after a heel none (R151). -/
structure OnlyThreads (i : Instr) (s s' : State) : Prop where
  rest : s' = { s with threads := s'.threads, cores := s'.cores }
  cores : ∀ c, s'.core c = if c = s.curCore then (s.core c).setPort s.curPort (if i.isHeel then [] else s.group) else s.core c

/-- The instruction executes for every thread of the group and gives each the result `f`; nothing else changes. -/
def Gives (i : Instr) (s : State) (f : TRef → Thread → Res)
    (dst : Thread → Dword := fun th => th.pc + BitVec.ofNat 64 i.len) : Prop :=
  ∃ s', exec i s = .next s' ∧
    (∀ t ∈ s.group, ∃ th', s'.thread? t = some th' ∧ Delivered i (s.thread t) th' (f t (s.thread t)) (dst (s.thread t))) ∧
    (∀ t, t ∉ s.group → s'.thread? t = s.thread? t) ∧
    OnlyThreads i s s'

/-- A lane instruction gives every thread of every clean group the result that `f` names. -/
def Lane (i : Instr) (f : Thread → Res) : Prop := ∀ s, Clean i s → Gives i s fun _ th => f th

/-- The same for a lane instruction that also reads its position or its warp. -/
def LaneAt (i : Instr) (f : State → TRef → Thread → Res) : Prop := ∀ s, Clean i s → Gives i s (f s)

/-- The RR form (R37): one 32-bit result of the operands A and B, with the flags it sets. -/
def GivesRR (i : Code → Code → Bool → Code → Bool → Instr) (f : Word → Word → Word) (fl : Word → Word → BitVec 5 := fun _ _ => 0) : Prop :=
  ∀ b a n d e, Lane (i b a n d e) fun th =>
    res1 n d.toNat (f (th.word a.toNat) (th.word b.toNat)) (fl (th.word a.toNat) (th.word b.toNat))

/-- The RR form with B = 0: one 32-bit result of A. -/
def GivesR1 (i : Code → Bool → Code → Bool → Instr) (f : Word → Word) (fl : Word → BitVec 5 := fun _ => 0) : Prop :=
  ∀ a n d e, Lane (i a n d e) fun th => res1 n d.toNat (f (th.word a.toNat)) (fl (th.word a.toNat))

/-- The RC form (R38): the third operand is the register that D names, or c0, c1 or c2. -/
def GivesRC (i : BitVec 2 → Code5 → Code → Bool → Code → Bool → Instr) (f : Word → Word → Word → Word)
    (fl : Word → Word → Word → BitVec 5 := fun _ _ _ => 0) : Prop :=
  ∀ c b a n d e, Lane (i c b a n d e) fun th =>
    let A := th.word a.toNat
    let B := th.word (code5 b)
    let C := th.word (if c = 0 then d.toNat else 123 + c.toNat)
    res1 n d.toNat (f A B C) (fl A B C)

/-- The RI form: A and the immediate of 9 bits, sign-extended (R86). -/
def GivesRI (i : BitVec 9 → Code → Bool → Code → Bool → Instr) (f : Word → Word → Word) : Prop :=
  ∀ m a n d e, Lane (i m a n d e) fun th => res1 n d.toNat (f (th.word a.toNat) (m.signExtend 32))

/-- The 16-bit form D ← D op B; with D = 0 it does nothing but count in its loaf (R36). -/
def GivesHalf (i : Code5 → Code5 → Bool → Instr) (f : Word → Word → Word) (fl : Word → Word → BitVec 5 := fun _ _ => 0) : Prop :=
  ∀ b d e, Lane (i b d e) fun th =>
    if d.toNat = 0 then {}
    else
      let D := th.word d.toNat
      let B := th.word (code5 b)
      res1 false d.toNat (f D B) (fl D B)

/-- The conditions of ICMP by their codes (R91). -/
def intCond {w : Nat} (c : Nat) (a b : BitVec w) : Bool :=
  match c with
  | 0 => a == b
  | 1 => a != b
  | 2 => a.slt b
  | 3 => a.sle b
  | 4 => b.slt a
  | 5 => b.sle a
  | 6 => a.ult b
  | 7 => a.ule b
  | 8 => b.ult a
  | 9 => b.ule a
  | 10 => (a &&& b) != 0
  | _ => (a &&& b) == 0

/-! ## A thread alone in its group -/

/-- A core that differs only in its ports, its PC table and its cached translations. -/
abbrev Core.still (c d : Core) : Prop :=
  d = { c with p0 := d.p0, p1 := d.p1, table := d.table, overflow := d.overflow, tlb := d.tlb, tlbPast := d.tlbPast }

/-- Nothing differs but threads, ports and PC tables, and cached translations: every byte of memory, of every cache and of every
scratchpad, every warp, queue, barrier and engine, every k register and every register of the hub is as before. -/
structure Calm (s s' : State) : Prop where
  rest : s' = { s with threads := s'.threads, cores := s'.cores, ctlb := s'.ctlb, cwalk := s'.cwalk }
  cores : ∀ c, (s.core c).still (s'.core c)

/-- The instruction answers a next state in which the thread is one that `P` describes; every other thread is as `was` says, which is
as before unless it is given; the port keeps the thread while it runs within its loaf (R151); and `F` holds of the rest. -/
def Makes (i : Instr) (s : State) (t : TRef) (P : Thread → Prop) (F : State → Prop) (was : TRef → Option Thread := s.thread?) : Prop :=
  ∃ s', exec i s = .next s' ∧
    (∃ th', s'.thread? t = some th' ∧ P th' ∧ s'.group = if i.isHeel = false ∧ th'.st = .running then [t] else []) ∧
    (∀ u, u ≠ t → s'.thread? u = was u) ∧ F s'

/-- A thread whose trap enters its handler: it is not in trap mode, it has a handler, and it is no leaven thread (R324, R155). -/
abbrev MayTrap (s : State) (t : TRef) : Prop := (s.thread t).trap = none ∧ (s.thread t).xvec ≠ 0 ∧ (s.thread t).leaven = false

/-- A thread that has trapped (R324): the trap registers say where and why, the trap state keeps the loaf, every write that has not
landed is pending, and the thread is Ready at its handler with empty latches. -/
structure Trapped (th th' : Thread) (inf : TrapInfo) (after : Bool) : Prop where
  xpc : th'.xpc = if after then th.pc + 4 else th.pc
  xcause : th'.xcause = inf.word
  xaddr : th'.xaddr = inf.addr
  kept : th'.trap = some (if after then {} else th.loaf)
  start : th'.pc = th.xvec ∧ th'.loaf = {} ∧ th'.st = .ready
  pending : (∀ o ∈ th'.outs, o.past = true) ∧ th'.outs.map (fun o => (o.base, o.n, o.src)) = th.outs.map fun o => (o.base, o.n, o.src)
  rest : th' = { th with xpc := th'.xpc, xcause := th'.xcause, xaddr := th'.xaddr, trap := th'.trap, outs := th'.outs, loaf := {},
                         pc := th'.pc, st := .ready, heeled := th'.heeled }

/-- The instruction is an exact fault for the thread (R322): it traps with the cause and the address given, and nothing else changes. -/
def Faults (i : Instr) (s : State) (t : TRef) (inf : TrapInfo) : Prop :=
  Makes i s t (fun th' => Trapped (s.thread t) th' inf false) (Calm s)

/-- A thread behind a heel, Waiting (R32): the loaf has ended, and what was outstanding still is. -/
structure Rested (i : Instr) (th th' : Thread) (w : Wait) : Prop where
  pc : th'.pc = th.pc + BitVec.ofNat 64 i.len
  st : th'.st = .waiting w
  loaf : th'.loaf = {}
  outs : th'.outs = heelOuts i.heelNames th.outs
  rest : th' = { th with pc := th'.pc, st := th'.st, loaf := {}, outs := th'.outs, bad := th'.bad, heeled := true }

/-- A thread whose accesses have all been performed: nothing outstanding, and this issue performs its accesses at once. -/
abbrev Quiet (s : State) (t : TRef) : Prop :=
  (s.thread t).outs = [] ∧ (s.thread t).stores = [] ∧ (s.thread t).sc = none ∧ s.defer = false

/-! ## A warp at a rendezvous -/

/-- A group of one warp, outside trap mode, that is the whole of Need at its instruction, so that the rendezvous completes in place
(R158, R159): every live lane that k63 names is in it, and nobody else has arrived. -/
structure WholeNeed (s : State) (c sl : Nat) : Prop where
  warp : (s.warp? c sl).isSome = true
  here : ∀ t ∈ s.group, t.core = c ∧ t.slot = sl ∧ t.lane < 32 ∧ (s.thread t).trap = none ∧ (s.members c sl).getLsbD t.lane = true
  pc : ∀ t ∈ s.group, ∀ u ∈ s.group, (s.thread t).pc = (s.thread u).pc
  whole : ∀ l < 32, (s.members c sl).getLsbD l = true → s.laneLive c sl l = true → laneRef c sl l ∈ s.group
  fresh : (s.warp c sl).arrs = []

/-- The lanes of a group, in increasing order. -/
def groupLanes (s : State) : List Nat := (List.range 32).filter fun l => s.group.any fun t => t.lane = l

/-- The instruction is a rendezvous that completes: each thread of the group stands behind its heel with its result, no other thread differs,
the port is free, and `F` holds of the rest. -/
def Meets (i : Instr) (s : State) (th : TRef → Thread) (F : State → Prop) : Prop :=
  ∃ s', exec i s = .next s' ∧ (∀ t ∈ s.group, ∃ th', s'.thread? t = some th' ∧ Delivered i (th t) th' {}) ∧
    (∀ t, t ∉ s.group → s'.thread? t = s.thread? t) ∧ s'.group = [] ∧ F s'

/-! ## Translation -/

/-- A table entry of a stage (0 guest, 1 host) and level that a walk may use (R215, R216). -/
structure GoodEntry (stage level e : ℕ) : Prop where
  valid : e.testBit 0 = true
  kind : (level = 0 → e.testBit 1 = false) ∧ (level = 3 → e.testBit 1 = true)
  reserved : e / 2 ^ 60 % 16 = 0 ∧ e / 2 ^ 48 % 256 = 0 ∧ e / 2 ^ 7 % 16 = 0
  table : e.testBit 1 = false → e / 2 ^ 48 % 2 ^ 16 = 0 ∧ e / 2 ^ 2 % 2 ^ 10 = 0
  large : level ≠ 3 → e.testBit 11 = false
  aligned : e.testBit 1 = true → e / 2 ^ 12 % 2 ^ 36 * 2 ^ 12 % (if level = 1 then 2 ^ 30 else if level = 2 then 2 ^ 21 else if e.testBit 11 then 2 ^ 16 else 2 ^ 12) = 0
  perms : e.testBit 1 = true → e.testBit 3 = true → e.testBit 2 = true
  mt : e.testBit 1 = true → e / 2 ^ 5 % 4 ≠ 3
  layout : e.testBit 1 = true → if e.testBit 56 then e / 2 ^ 57 % 8 < 6 else e / 2 ^ 57 % 8 = 0
  host : stage = 1 → e.testBit 1 = true → e.testBit 56 = false ∧ e / 2 ^ 57 % 8 = 0

/-- A walk of the four levels of a stage from a root ends so (R214, R216): in the level and the entry of a leaf, or in a stage and a level that
failed. `read` says what the read of the entry of a level at an address gives. -/
def Walked (stage : ℕ) (read : ℕ → ℕ → Except (ℕ × ℕ) ℕ → Prop) (root addr : ℕ) (x : Except (ℕ × ℕ) (ℕ × ℕ)) : Prop :=
  ∃ (n : ℕ) (e : ℕ → ℕ), n ≤ 3 ∧
    let spot (k : ℕ) : ℕ := (if k = 0 then root else e (k - 1) / 2 ^ 12 % 2 ^ 36 * 2 ^ 12) + 8 * (addr / 2 ^ (39 - 9 * k) % 512)
    (∀ k < n, read k (spot k) (.ok (e k)) ∧ GoodEntry stage k (e k) ∧ (e k).testBit 1 = false) ∧
    ((∃ y, read n (spot n) (.error y) ∧ x = .error y) ∨
      (read n (spot n) (.ok (e n)) ∧ ¬GoodEntry stage n (e n) ∧ x = .error (stage, n)) ∨
      (read n (spot n) (.ok (e n)) ∧ GoodEntry stage n (e n) ∧ (e n).testBit 1 = true ∧ x = .ok (n, e n)))

/-! ## Memory -/

/-- Memory, the scratchpad of every block and every saved scratchpad are in their canonical form: addresses strictly rising, no listed
byte zero. -/
structure MemInv (s : State) : Prop where
  mem : Memory.wf s.mem = true
  scratch : ∀ x ∈ s.blocks, Memory.wf x.2.cells = true
  saved : ∀ z ∈ s.shadow ++ s.parked, ∀ x ∈ z.blocks, Memory.wf x.2.cells = true

/-- The byte of normal memory that the threads of a core read: their L1's, else their die's remote-data cache's when the home is another
die, else the home's (R207, R208). -/
def State.seen (s : State) (c pa : Nat) : Byte :=
  match (l1find s c (pa / 128)).bind fun l => lget l (pa % 128) with
  | some b => b.val
  | none =>
    if homeOf pa = dieOf c then homeByte s pa
    else match (rdcfind s (dieOf c) (pa / 128)).bind fun l => lget l (pa % 128) with
      | some b => b.val
      | none => homeByte s pa

/-- A core's L1 holds the line of an address, or has a way free for it (R208). -/
def L1Room (s : State) (c pa : Nat) (cmp : Bool) : Prop :=
  match l1find s c (pa / 128) with
  | some l => l.cmp = cmp
  | none => ∃ w ∈ cacheWays s c, ∀ l ∈ (s.core c).l1, l.line % 128 = pa / 128 % 128 → l.way ≠ w

/-- The home L2 holds the line of an address, or has a way free for it (R208, R354). -/
def HomeRoom (s : State) (o : Own) (pa : Nat) (cmp : Bool) : Prop :=
  match l2find s (pa / 128) with
  | some l => l.cmp = cmp
  | none => quotaOf s o = 0 ∧ ∃ w ∈ l2Ways s o (pa / 128), ∀ l ∈ s.l2, l2Set l.line = l2Set (pa / 128) → l.way ≠ w

/-- What the home L2 holds of a line is what memory holds, but for the bytes that it has dirty. -/
def LineClean (s : State) (ln : Nat) : Prop :=
  ∀ l, l2find s ln = some l → (l.bytes.map LByte.off).Nodup ∧
    ∀ b ∈ l.bytes, b.off < 128 ∧ (b.dirty = false → cellGet s.mem (ln * 128 + b.off) = b.val)

/-- The threads of the group are of one warp, in lane order, and each has its accesses performed at once. -/
abbrev InLanes (s : State) : Prop :=
  s.group.Pairwise (fun t u => t.core = u.core ∧ t.slot = u.slot ∧ t.lane < u.lane) ∧ ∀ t ∈ s.group, Quiet s t

/-- Neither the core's L1 nor its die's remote-data cache holds the line of an address. -/
abbrev NoCopies (s : State) (c pa : Nat) : Prop := l1find s c (pa / 128) = none ∧ rdcfind s (dieOf c) (pa / 128) = none

/-- Bytes have been written at their home: no other byte of memory differs at its home, every watch on the line has fired (R262), and
nothing else differs but what `Calm` leaves open. -/
structure HomeWritten (s s' : State) (pa : Nat) (bs : List Byte) : Prop where
  bytes : ∀ a, homeByte s' a = if pa ≤ a ∧ a < pa + bs.length then bs.getD (a - pa) 0 else homeByte s a
  rest : Calm (fireLine { s with l2 := s'.l2, mem := s'.mem, poison := s'.poison } (pa / 128) false) s'

/-- Bytes have been written into a core's L1: its threads see them, the threads of other cores and the home see what they saw. -/
structure CoreWritten (s s' : State) (c pa : Nat) (bs : List Byte) : Prop where
  seen : ∀ d a, s'.seen d a = if d = c ∧ pa ≤ a ∧ a < pa + bs.length then bs.getD (a - pa) 0 else s.seen d a
  home : ∀ a, homeByte s' a = homeByte s a
  rest : Calm (s.modCore c fun x => { x with l1 := (s'.core c).l1 }) s'

/-- Bytes have been written into the scratchpad of a block: no other byte of a scratchpad differs, and nothing else of the block. -/
structure ScratchWritten (s s' : State) (b : BRef) (off : Nat) (bs : List Byte) : Prop where
  bytes : ∀ c a, cellGet (s'.block c).cells a = if c = b ∧ off ≤ a ∧ a < off + bs.length then bs.getD (a - off) 0 else cellGet (s.block c).cells a
  blocks : ∀ c, s'.block c = { s.block c with cells := (s'.block c).cells, poison := (s'.block c).poison }
  rest : Calm { s with blocks := s'.blocks } s'

/-- A load of a thread, as its check of R248 comes out: a fault; or its destination group is outstanding (R48), to take its value when it
lands, or at a device now, after the thread's earlier loads of the same bytes (R237); or with N = 1 it is performed and
discarded (R39). `ld` says that a stall on it may spawn a leaven context (R154). Memory and every other register are as before. -/
def Loads (i : Instr) (s : State) (t : TRef) (d n : Nat) (nflag : Bool) (chk : Except TrapInfo (State × List Part)) (fin : Finish)
    (ld : Bool := false) : Prop :=
  (∀ inf, chk = .error inf → MayTrap s t → Faults i s t inf) ∧
  ∀ s1 parts, chk = .ok (s1, parts) → (s.thread t).stores = [] → (s.thread t).sc = none →
    let r := s1.readParts (s.ownOf t) t.core parts
    let v := fin.run n r.2.1
    let out (src : OutSrc) : Out := { base := d, n := n, named := false, ld := ld, past := false, exempt := false, src := src }
    let th := s.thread t
    let th1 := r.1.thread t
    let later := ∀ p ∈ parts, p.loc.loose = true
    (nflag = false → later →
      Makes i s t (fun th' => Delivered i { th with outs := th.outs ++ [out (.load parts fin)] } th' {}) (Calm s)) ∧
    (nflag = false → ¬later → (∀ o ∈ th.outs, o.parts = [] ∧ o.base ≠ d) → r.2.2 = false →
      Makes i s t (fun th' => Delivered i { th1 with outs := th.outs ++ [out (.val v.1)] } th' { flags := v.2 }) (Calm r.1) r.1.thread?) ∧
    (nflag = true → (∀ o ∈ th.outs, o.parts = []) → r.2.2 = false → Makes i s t (fun th' => Delivered i th1 th' { flags := v.2 }) (Calm r.1) r.1.thread?)

end Sys2Proof.Machine
end

