-- ==== Sys2Proof/Certificates/Slice0/Obligations.lean ====
section
/-! DEFINITION. The statements about the machine. Each is a definition of a proposition; the log entries and rules it rests on are named at it. -/

open Sys2Proof Sys2Proof.Machine

/-- R83, R84: the twenty integer instructions of MAJ 0x00 to 0x04. -/
def Obligations.IntegerArithmetic : Prop :=
  GivesRR .add (fun A B => BitVec.ofNat 32 (A.toNat + B.toNat)) ∧
  GivesRR .sub (fun A B => BitVec.ofInt 32 ((A.toNat : Int) - B.toNat)) ∧
  GivesRR .and (fun A B => A &&& B) ∧
  GivesRR .or (fun A B => A ||| B) ∧
  GivesRR .xor (fun A B => A ^^^ B) ∧
  GivesRR .andn (fun A B => A &&& ~~~B) ∧
  GivesRR .minS (fun A B => if A.toInt < B.toInt then A else B) ∧
  GivesRR .maxS (fun A B => if A.toInt < B.toInt then B else A) ∧
  GivesRR .minU (fun A B => if A.toNat < B.toNat then A else B) ∧
  GivesRR .maxU (fun A B => if A.toNat < B.toNat then B else A) ∧
  GivesRR .absdS (fun A B => BitVec.ofNat 32 (A.toInt - B.toInt).natAbs) ∧
  GivesRR .addsatS (fun A B =>
    let x := A.toInt + B.toInt
    if x < -(2 ^ 31) then 0x8000_0000 else if 2 ^ 31 - 1 < x then 0x7FFF_FFFF else BitVec.ofInt 32 x) ∧
  GivesRR .shl (fun A B => BitVec.ofNat 32 (A.toNat * 2 ^ (B.toNat % 256))) ∧
  GivesRR .shrU (fun A B => BitVec.ofNat 32 (A.toNat / 2 ^ (B.toNat % 256))) ∧
  GivesRR .shrS (fun A B => BitVec.ofInt 32 (A.toInt / 2 ^ (B.toNat % 256))) ∧
  GivesRR .rotl (fun A B => A.rotateLeft (B.toNat % 32)) ∧
  GivesRR .mullo (fun A B => BitVec.ofNat 32 (A.toNat * B.toNat)) ∧
  GivesRR .mulhiS (fun A B => BitVec.ofInt 32 (A.toInt * B.toInt / 2 ^ 32)) ∧
  GivesRR .mulhiU (fun A B => BitVec.ofNat 32 (A.toNat * B.toNat / 2 ^ 32)) ∧
  (∀ b a n d e, Lane (.mulwS b a n d e) fun th =>
    res2 n d.toNat (BitVec.ofInt 64 ((th.word a.toNat).toInt * (th.word b.toNat).toInt)))

/-- R85: the four instructions of MAJ 0x05. -/
def Obligations.MultiplyAddAndDots : Prop :=
  GivesRC .mad (fun A B C => BitVec.ofNat 32 (A.toNat * B.toNat + C.toNat)) ∧
  (∀ c b a n d e, Lane (.madwS c b a n d e) fun th =>
    let C := th.pair (if c = 0 then d.toNat else 123 + c.toNat)
    res2 n d.toNat (BitVec.ofInt 64 ((th.word a.toNat).toInt * (th.word (code5 b)).toInt + C.toInt))) ∧
  GivesRC .dot4I8 (fun A B C =>
    let p (i : Nat) : Int := (A.extractLsb' (8 * i) 8).toInt * (B.extractLsb' (8 * i) 8).toInt
    BitVec.ofInt 32 (C.toInt + p 0 + p 1 + p 2 + p 3)) ∧
  GivesRC .dot4N8 (fun A B C =>
    let p (i : Nat) : Nat := (A.extractLsb' (8 * i) 8).toNat * (B.extractLsb' (8 * i) 8).toNat
    BitVec.ofNat 32 (C.toNat + p 0 + p 1 + p 2 + p 3))

/-- R86 to R88: immediates and constants. -/
def Obligations.ImmediateForms : Prop :=
  GivesRI .addi (fun A X => BitVec.ofNat 32 (A.toNat + X.toNat)) ∧
  GivesRI .andi (fun A X => A &&& X) ∧
  GivesRI .ori (fun A X => A ||| X) ∧
  GivesRI .xori (fun A X => A ^^^ X) ∧
  (∀ (k : BitVec 5) a n d e, Lane (.shli k a n d e) fun th => res1 n d.toNat (BitVec.ofNat 32 ((th.word a.toNat).toNat * 2 ^ k.toNat))) ∧
  (∀ (k : BitVec 5) a n d e, Lane (.shriU k a n d e) fun th => res1 n d.toNat (BitVec.ofNat 32 ((th.word a.toNat).toNat / 2 ^ k.toNat))) ∧
  (∀ (k : BitVec 5) a n d e, Lane (.shriS k a n d e) fun th => res1 n d.toNat (BitVec.ofInt 32 ((th.word a.toNat).toInt / 2 ^ k.toNat))) ∧
  (∀ (k : BitVec 5) a n d e, Lane (.rotli k a n d e) fun th => res1 n d.toNat ((th.word a.toNat).rotateLeft k.toNat)) ∧
  (∀ (m : BitVec 16) n d e, Lane (.movh m n d e) fun _ => res1 n d.toNat (BitVec.ofNat 32 (m.toNat * 2 ^ 16))) ∧
  (∀ (m : BitVec 16) n d e, Lane (.orl m n d e) fun th => res1 n d.toNat (th.word d.toNat ||| BitVec.ofNat 32 m.toNat))

/-- R89, R90: bit fields, byte permutation and the unary operations. The values are named by their bits. -/
def Obligations.BitFieldsAndCounts : Prop :=
  let pos (B : Word) : Nat := B.toNat % 32
  let width (B : Word) : Nat := min (B.toNat / 256 % 64) (32 - pos B)
  GivesRR .bfeU (fun A B => BitVec.ofNat 32 (A.toNat / 2 ^ pos B % 2 ^ width B)) ∧
  GivesRR .bfeS (fun A B => if width B = 0 then 0 else (A <<< (32 - pos B - width B)).sshiftRight (32 - width B)) ∧
  (∃ f : Word → Word → Word → Word,
    (∀ A B D k, k < 32 → (f A B D).getLsbD k = if pos B ≤ k ∧ k < pos B + width B then A.getLsbD (k - pos B) else D.getLsbD k) ∧
    ∀ b a n d e, Lane (.bfi b a n d e) fun th => res1 n d.toNat (f (th.word a.toNat) (th.word b.toNat) (th.word d.toNat))) ∧
  (∃ f : Word → Word → Word,
    (∀ A B i, i < 4 →
      let x := B.extractLsb' (4 * i) 4
      let y := A.extractLsb' (8 * (x.toNat % 4)) 8
      (f A B).extractLsb' (8 * i) 8 = if x.getLsbD 3 then 0 else if x.getLsbD 2 then (if y.getLsbD 7 then 0xFF else 0) else y) ∧
    GivesRR .permb f) ∧
  GivesR1 .popc (fun A => BitVec.ofNat 32 (((List.range 32).filter fun k => A.getLsbD k).length)) ∧
  (∃ f : Word → Nat,
    (∀ A, f A ≤ 32 ∧ (∀ k < f A, A.getLsbD (31 - k) = false) ∧ (f A < 32 → A.getLsbD (31 - f A) = true)) ∧
    GivesR1 .clz fun A => BitVec.ofNat 32 (f A)) ∧
  (∃ f : Word → Word, (∀ A k, k < 32 → (f A).getLsbD k = A.getLsbD (31 - k)) ∧ GivesR1 .brev f) ∧
  GivesR1 .neg (fun A => BitVec.ofInt 32 (-A.toInt))

/-- R91 to R94: compares, predicates and select. -/
def Obligations.ComparesAndPredicates : Prop :=
  (∀ (w : BitVec 2) b a (c : BitVec 4) (p : BitVec 2) e, Lane (.icmp w b a c p e) fun th =>
    { preds := [(p.toNat,
        if w = 0 then intCond c.toNat (th.word a.toNat) (th.word b.toNat) else intCond c.toNat (th.pair a.toNat) (th.pair b.toNat))] }) ∧
  (∀ (p : BitVec 2) b a n d e, Lane (.sel p b a n d e) fun th => res1 n d.toNat (if th.pred p.toNat then th.word a.toNat else th.word b.toNat)) ∧
  (∀ b a d e, Lane (.pand b a d e) fun th => { preds := [(d.toNat, th.pred a.toNat && th.pred b.toNat)] }) ∧
  (∀ b a d e, Lane (.por b a d e) fun th => { preds := [(d.toNat, th.pred a.toNat || th.pred b.toNat)] }) ∧
  (∀ b a d e, Lane (.pxor b a d e) fun th => { preds := [(d.toNat, th.pred a.toNat ^^ th.pred b.toNat)] }) ∧
  (∀ a d e, Lane (.pnot a d e) fun th => { preds := [(d.toNat, !th.pred a.toNat)] }) ∧
  (∀ n d e, Lane (.ptog n d e) fun th =>
    let bit (v : Bool) : Nat := if v then 1 else 0
    res1 n d.toNat (BitVec.ofNat 32 (bit (th.pred 3) * 8 + bit (th.pred 2) * 4 + bit (th.pred 1) * 2 + 1))) ∧
  (∀ a e, Lane (.gtop a e) fun th =>
    let A := th.word a.toNat
    { preds := [(1, A.getLsbD 1), (2, A.getLsbD 2), (3, A.getLsbD 3)] })

/-- R95 to R98: FP32 arithmetic. The functions `addF`, `mulF`, `fmaF`, … are the model's arithmetic of a format: value and flags. The last clauses
say what they are in terms of exact values; how a result rounds is said in `RoundingIsAsModeSays`. -/
def Obligations.FloatArithmetic : Prop :=
  let two (i : Code → Code → Bool → Code → Bool → Instr) (f : Nat → Nat → Nat × Flags) : Prop :=
    GivesRR i (fun A B => BitVec.ofNat 32 (f A.toNat B.toNat).1) fun A B => (f A.toNat B.toNat).2
  let three (i : BitVec 2 → Code5 → Code → Bool → Code → Bool → Instr) (f : Nat → Nat → Nat → Nat × Flags) : Prop :=
    GivesRC i (fun A B C => BitVec.ofNat 32 (f A.toNat B.toNat C.toNat).1) fun A B C => (f A.toNat B.toNat C.toNat).2
  two .fadd (addF FP32) ∧ two .fsub (subF FP32) ∧ two .fmul (mulF FP32) ∧ two .fmax (maxNum FP32) ∧ two .fmin (minNum FP32) ∧
  GivesRR .fcopysign (fun A B => (A &&& 0x7FFF_FFFF) ||| (B &&& 0x8000_0000)) ∧
  GivesR1 .fabs (fun A => A &&& 0x7FFF_FFFF) ∧
  GivesR1 .fneg (fun A => A ^^^ 0x8000_0000) ∧
  three .ffma (fmaF FP32) ∧ three .ffms (fmsF FP32) ∧ three .fnfma (fnmaF FP32) ∧
  three .fmad2 (fun A B C => ((addF FP32 (mulF FP32 A B).1 C).1, (mulF FP32 A B).2 ||| (addF FP32 (mulF FP32 A B).1 C).2)) ∧
  (∀ (t : BitVec 2) b a (c : BitVec 4) (p : BitVec 2) e, Lane (.fcmp t b a c p e) fun th =>
    let A := (th.word a.toNat).toNat
    let B := (th.word b.toNat).toNat
    let r := if t = 0 then fcmpF FP32 c.toNat A B else if t = 1 then fcmpF BF16 c.toNat (A % 65536) (B % 65536)
      else fcmpF FP16 c.toNat (A % 65536) (B % 65536)
    { preds := [(p.toNat, r.1)], flags := r.2 }) ∧
  (∀ f ∈ [FP32, BF16], ∀ a b c, a < 2 ^ f.width → b < 2 ^ f.width → c < 2 ^ f.width →
    let v := decodeF f
    let sign := 2 ^ (f.width - 1)
    Sums f (v a) (v b) (addF f a b) ∧ subF f a b = addF f a (b ^^^ sign) ∧ Multiplies f (v a) (v b) (mulF f a b) ∧
    Fuses f (v a) (v b) (v c) (fmaF f a b c) ∧ fmsF f a b c = fmaF f a b (c ^^^ sign) ∧ fnmaF f a b c = fmaF f (a ^^^ sign) b c ∧
    -- maximumNumber and minimumNumber, with -0 below +0
    (let fl : Flags := if (v a).isSig || (v b).isSig then INV else 0
     let na := (v a).isNan
     let nb := (v b).isNan
     (na = true → nb = true → maxNum f a b = (f.cnan, fl) ∧ minNum f a b = (f.cnan, fl)) ∧
     (na = true → nb = false → maxNum f a b = (b, fl) ∧ minNum f a b = (b, fl)) ∧ (na = false → nb = true → maxNum f a b = (a, fl) ∧ minNum f a b = (a, fl)) ∧
     (na = false → nb = false → let below : Prop := (v a).rank < (v b).rank ∨ ((v a).rank = (v b).rank ∧ (v a).sign = true)
       (below → maxNum f a b = (b, 0) ∧ minNum f a b = (a, 0)) ∧ (¬below → maxNum f a b = (a, 0) ∧ minNum f a b = (b, 0))))) ∧
  (∀ f ∈ [FP32, BF16, FP16], ∀ c a b, c < 8 → a < 2 ^ f.width → b < 2 ^ f.width →
    let x := decodeF f a
    let y := decodeF f b
    let un : Prop := x.isNan = true ∨ y.isNan = true
    let holds : Prop := (c = 0 ∧ ¬un ∧ x.rank = y.rank) ∨ (c = 1 ∧ (un ∨ x.rank ≠ y.rank)) ∨ (c = 2 ∧ ¬un ∧ x.rank < y.rank) ∨ (c = 3 ∧ ¬un ∧ x.rank ≤ y.rank) ∨
      (c = 4 ∧ ¬un ∧ y.rank < x.rank) ∨ (c = 5 ∧ ¬un ∧ y.rank ≤ x.rank) ∨ (c = 6 ∧ un) ∨ (c = 7 ∧ ¬un)
    ((fcmpF f c a b).1 = true ↔ holds) ∧
    ((fcmpF f c a b).2 = if x.isSig = true ∨ y.isSig = true ∨ (un ∧ 2 ≤ c ∧ c ≤ 5) then INV else 0))

/-- R99, R100, R102 to R105, R67 to R69: special functions, conversions and packing. Of EX2, LG2, SIN, COS and TANH the exact and the special cases
are stated, and the symmetries; that their other results round correctly is presumed (log 5). -/
def Obligations.SpecialFunctionsAndConversions : Prop :=
  let one (i : Code → Bool → Code → Bool → Instr) (g : SFun) : Prop :=
    GivesR1 i (fun A => BitVec.ofNat 32 (sfun g A.toNat).1) fun A => (sfun g A.toNat).2
  one .rcp .rcp ∧ one .rsq .rsq ∧ one .ex2 .ex2 ∧ one .lg2 .lg2 ∧ one .sqrt .sqrt ∧ one .sin .sin ∧ one .cos .cos ∧ one .tanh .tanh ∧
  (∀ (m : BitVec 2) k a n d e, Lane (.cvt m k a n d e) fun th =>
    let wideSrc := k.toNat = 6 ∨ k.toNat = 7 ∨ k.toNat = 0x1A ∨ k.toNat = 0x1B
    let wideDst := k.toNat = 2 ∨ k.toNat = 3
    let mode : RMode := if m = 0 then .rne else if m = 1 then .rz else if m = 2 then .rd else .ru
    let r := cvt k.toNat mode (if wideSrc then th.pair a.toNat else (th.word a.toNat).setWidth 64)
    if wideDst then res2 n d.toNat r.1 r.2 else res1 n d.toNat (r.1.setWidth 32) r.2) ∧
  GivesRR .pkbf
    (fun A B => BitVec.ofNat 32 ((narrowF BF16 .rne (decodeF FP32 A.toNat)).1 + (narrowF BF16 .rne (decodeF FP32 B.toNat)).1 * 2 ^ 16))
    (fun A B => (narrowF BF16 .rne (decodeF FP32 A.toNat)).2 ||| (narrowF BF16 .rne (decodeF FP32 B.toNat)).2) ∧
  (let q (v : Nat) := narrowF FH8 .rne (decodeF BF16 v)
   let lo (A : Word) := q (A.toNat % 65536)
   let hi (A : Word) := q (A.toNat / 65536)
   GivesRR .pkh8 (fun A B => BitVec.ofNat 32 ((lo A).1 + (hi A).1 * 2 ^ 8 + (lo B).1 * 2 ^ 16 + (hi B).1 * 2 ^ 24))
     fun A B => (lo A).2 ||| (hi A).2 ||| (lo B).2 ||| (hi B).2) ∧
  (∀ a n d e, Lane (.upkbf a n d e) fun th =>
    let A := (th.word a.toNat).toNat
    let x := widenF BF16 FP32 (A % 65536)
    let y := widenF BF16 FP32 (A / 65536)
    res2 n d.toNat (BitVec.ofNat 64 (x.1 + y.1 * 2 ^ 32)) (x.2 ||| y.2)) ∧
  (∀ a n d e, Lane (.upkh8 a n d e) fun th =>
    let A := (th.word a.toNat).toNat
    let q (i : Nat) := widenF FH8 BF16 (A / 256 ^ i % 256)
    res2 n d.toNat (BitVec.ofNat 64 ((q 0).1 + (q 1).1 * 2 ^ 16 + (q 2).1 * 2 ^ 32 + (q 3).1 * 2 ^ 48)) ((q 0).2 ||| (q 1).2 ||| (q 2).2 ||| (q 3).2)) ∧
  -- narrowing: the nearest magnitude that the mode allows, saturated, and its flags
  (∀ f ∈ [FP32, FP16, BF16, FH8, FH6], ∀ (mode : RMode) (neg : Bool),
    (∀ sig, narrowF f mode (.nan sig) = (f.cnan, if sig then INV else 0)) ∧ narrowF f mode (.inf neg) = (maxF f neg, OVF ||| INX) ∧
    (∀ den, narrowF f mode (.fin neg 0 den) = (zeroF f neg, 0)) ∧
    (∀ num den, 0 < num → 0 < den → let r := narrowF f mode (.fin neg num den)
      let x : ℚ := num / den
      let mag (c : Nat) : ℚ := |(decodeF f c).rat|
      let cand (m : ℚ) : Prop := ∃ c < 2 ^ f.width, (decodeF f c).isFin = true ∧ mag c = m
      let toward := mode = .rz ∨ (mode = .rd ∧ neg = false) ∨ (mode = .ru ∧ neg = true)
      let away := (mode = .rd ∧ neg = true) ∨ (mode = .ru ∧ neg = false)
      let top := mag (maxF f false)
      let step := top - mag (maxF f false - 1)
      let over_ : Prop := (mode = .rne ∧ top + step / 2 ≤ x) ∨ (toward ∧ top + step ≤ x) ∨ (away ∧ top < x)
      let least := mag (2 ^ f.mb)
      let tiny : Prop := (mode = .rne ∧ x < least - mag 1 / 4) ∨ (toward ∧ x < least) ∨ (away ∧ x ≤ least - mag 1 / 2)
      (over_ → r = (maxF f neg, OVF ||| INX)) ∧
      (¬over_ → r.1 < 2 ^ f.width ∧ (decodeF f r.1).isFin = true ∧ (mag r.1 = 0 → r.1 = zeroF f neg) ∧ (mag r.1 ≠ 0 → (decodeF f r.1).sign = neg) ∧
        (toward → mag r.1 ≤ x ∧ ∀ m, cand m → m ≤ x → m ≤ mag r.1) ∧ (away → x ≤ mag r.1 ∧ ∀ m, cand m → x ≤ m → mag r.1 ≤ m) ∧
        (mode = .rne → ∀ m, cand m → |mag r.1 - x| ≤ |m - x| ∧ (|mag r.1 - x| = |m - x| → m = mag r.1 ∨ r.1 % 2 = 0)) ∧
        (mag r.1 = x → r.2 = 0) ∧ (mag r.1 ≠ x → tiny → r.2 = UNF ||| INX) ∧ (mag r.1 ≠ x → ¬tiny → r.2 = INX)))) ∧
  -- widening is exact
  (∀ p ∈ [(BF16, FP32), (FP16, FP32), (FH8, FP32), (FH6, FP32), (FH8, BF16)], ∀ c < 2 ^ p.1.width,
    let x := decodeF p.1 c
    let r := widenF p.1 p.2 c
    (x.isNan = true → r = nanResult p.2 [x]) ∧ (∀ b, x = .inf b → r = (infF p.2 b, 0)) ∧
    (x.isFin = true → (decodeF p.2 r.1).isFin = true ∧ (decodeF p.2 r.1).rat = x.rat ∧ (decodeF p.2 r.1).sign = x.sign ∧ r.2 = 0)) ∧
  -- the table of conversions
  (∀ (mode : RMode) (v : Dword),
    let a := v.toNat % 2 ^ 32
    let x := decodeF FP32 a
    let ints (lo hi : ℤ) : ℤ × Flags := match x with
      | .nan _ => (0, INV)
      | .inf neg => (if neg then lo else hi, OVF ||| INX)
      | y => let z := roundRat mode y.rat
        if z < lo then (lo, OVF ||| INX) else if hi < z then (hi, OVF ||| INX) else (z, if (z : ℚ) = y.rat then 0 else INX)
    let clamp (lo hi z : ℤ) : ℤ × Flags := if z < lo then (lo, OVF ||| INX) else if hi < z then (hi, OVF ||| INX) else (z, 0)
    let int (r : ℤ × Flags) : Dword × Flags := (BitVec.ofInt 64 r.1, r.2)
    let nat (r : Nat × Flags) : Dword × Flags := (BitVec.ofNat 64 r.1, r.2)
    let i32 : ℤ := if a < 2 ^ 31 then a else (a : ℤ) - 2 ^ 32
    (∀ y ∈ [(0x00, (-(2 ^ 31) : ℤ), (2 ^ 31 - 1 : ℤ)), (0x01, 0, 2 ^ 32 - 1), (0x02, -(2 ^ 63), 2 ^ 63 - 1), (0x03, 0, 2 ^ 64 - 1), (0x10, -(2 ^ 15), 2 ^ 15 - 1),
      (0x11, 0, 2 ^ 16 - 1), (0x12, -(2 ^ 7), 2 ^ 7 - 1), (0x13, 0, 2 ^ 8 - 1)], cvt y.1 mode v = int (ints y.2.1 y.2.2)) ∧
    (∀ y ∈ [(0x04, i32), (0x05, (a : ℤ)), (0x06, v.toInt), (0x07, (v.toNat : ℤ))],
      cvt y.1 mode v = nat (narrowF FP32 mode (.fin (decide (y.2 < 0)) y.2.natAbs 1))) ∧
    (∀ y ∈ [(0x08, FP16), (0x09, BF16), (0x0A, FH8), (0x0B, FH6)], cvt y.1 mode v = nat (narrowF y.2 mode x)) ∧
    (∀ y ∈ [(0x0C, FP16), (0x0D, BF16), (0x0E, FH8), (0x0F, FH6)], cvt y.1 mode v = nat (widenF y.2 FP32 (a % 2 ^ y.2.width))) ∧
    (∀ y ∈ [(0x14, (-(2 ^ 15) : ℤ), (2 ^ 15 - 1 : ℤ), i32), (0x15, 0, 2 ^ 16 - 1, i32), (0x16, -(2 ^ 7), 2 ^ 7 - 1, i32), (0x17, 0, 2 ^ 8 - 1, i32),
      (0x18, 0, 2 ^ 16 - 1, (a : ℤ)), (0x19, 0, 2 ^ 8 - 1, (a : ℤ)), (0x1A, -(2 ^ 31), 2 ^ 31 - 1, v.toInt), (0x1B, 0, 2 ^ 32 - 1, (v.toNat : ℤ))],
      cvt y.1 mode v = int (clamp y.2.1 y.2.2.1 y.2.2.2)) ∧
    (let r := cvt 0x1C mode v
     (x.isNan = true → r = nat (nanResult FP32 [x])) ∧ (x.isInf = true → r = nat (a, 0)) ∧
     (x.isFin = true → let y := decodeF FP32 r.1.toNat
       y.isFin = true ∧ y.rat = roundRat mode x.rat ∧ y.sign = x.sign ∧ r.2 = if y.rat = x.rat then 0 else INX))) ∧
  -- the special functions
  (∀ a < 2 ^ 32, let x := decodeF FP32 a
    let inf (neg : Bool) := infF FP32 neg
    let bad : Nat × Flags := (0x7FC0_0000, INV)
    let flip := a ^^^ 0x8000_0000
    let mag (c : Nat) : ℚ := (decodeF FP32 c).rat
    (x.isNan = true → ∀ g, sfun g a = nanResult FP32 [x]) ∧
    (∀ neg, x = .inf neg → sfun .rcp a = (zeroF FP32 neg, 0) ∧ sfun .sin a = bad ∧ sfun .cos a = bad ∧ sfun .tanh a = (if neg then 0xBF80_0000 else 0x3F80_0000, 0) ∧
      (neg = true → sfun .rsq a = bad ∧ sfun .sqrt a = bad ∧ sfun .lg2 a = bad ∧ sfun .ex2 a = (0, 0)) ∧
      (neg = false → sfun .rsq a = (0, 0) ∧ sfun .sqrt a = (inf false, 0) ∧ sfun .lg2 a = (inf false, 0) ∧ sfun .ex2 a = (inf false, 0))) ∧
    (x.isZero = true → sfun .rcp a = (inf x.sign, DZ) ∧ sfun .rsq a = (inf x.sign, DZ) ∧ sfun .sqrt a = (a, 0) ∧ sfun .lg2 a = (inf true, DZ) ∧ sfun .tanh a = (a, 0)) ∧
    (x.isFin = true → x.rat < 0 → sfun .rsq a = bad ∧ sfun .sqrt a = bad ∧ sfun .lg2 a = bad) ∧
    (x.isFin = true → x.rat ≠ 0 → Rounds FP32 (1 / x.rat) (sfun .rcp a)) ∧
    -- correctly rounded roots: the exact one lies between the midpoints beside the result
    (x.isFin = true → 0 < x.rat → let r := (sfun .sqrt a).1
      let q := (sfun .rsq a).1
      ((mag (r - 1) + mag r) ^ 2 ≤ 4 * x.rat ∧ 4 * x.rat ≤ (mag r + mag (r + 1)) ^ 2 ∧ ((sfun .sqrt a).2 = if mag r ^ 2 = x.rat then 0 else INX)) ∧
      ((mag (q - 1) + mag q) ^ 2 * x.rat ≤ 4 ∧ 4 ≤ (mag q + mag (q + 1)) ^ 2 * x.rat ∧ ((sfun .rsq a).2 = if mag q ^ 2 * x.rat = 1 then 0 else INX))) ∧
    (x.isFin = true → 128 ≤ x.rat → sfun .ex2 a = (inf false, OVF ||| INX)) ∧ (x.isFin = true → x.rat < -150 → sfun .ex2 a = (0, UNF ||| INX)) ∧
    (∀ z : ℤ, x.isFin = true → x.rat = z → -149 ≤ z → z ≤ 127 → mag (sfun .ex2 a).1 = 2 ^ z ∧ (sfun .ex2 a).2 = 0) ∧
    (∀ z : ℤ, x.isFin = true → x.rat = 2 ^ z → mag (sfun .lg2 a).1 = z ∧ (sfun .lg2 a).2 = 0) ∧ (x.rat = 1 → (sfun .lg2 a).1 = 0) ∧
    (∀ z : ℤ, x.isFin = true → x.rat = z → sfun .sin a = (zeroF FP32 x.sign, 0)) ∧ (x.isFin = true → x.rat = 1 / 2 → sfun .sin a = (0x3F80_0000, 0)) ∧
    (∀ z : ℤ, x.isFin = true → x.rat + 1 / 2 = z → sfun .cos a = (0, 0)) ∧
    (x.isFin = true → sfun .sin flip = ((sfun .sin a).1 ^^^ 0x8000_0000, (sfun .sin a).2) ∧ sfun .cos flip = sfun .cos a ∧
      sfun .tanh flip = ((sfun .tanh a).1 ^^^ 0x8000_0000, (sfun .tanh a).2)))

/-- R71 to R75, R101, R106: BF16 pairs and codebooks. -/
def Obligations.PairsAndCodebooks : Prop :=
  let halves2 (f : Nat → Nat → Nat × Flags) (A B : Word) : (Nat × Flags) × (Nat × Flags) :=
    (f (A.toNat % 65536) (B.toNat % 65536), f (A.toNat / 65536) (B.toNat / 65536))
  let halves3 (f : Nat → Nat → Nat → Nat × Flags) (A B C : Word) : (Nat × Flags) × (Nat × Flags) :=
    (f (A.toNat % 65536) (B.toNat % 65536) (C.toNat % 65536), f (A.toNat / 65536) (B.toNat / 65536) (C.toNat / 65536))
  let join (r : (Nat × Flags) × (Nat × Flags)) : Word := BitVec.ofNat 32 (r.1.1 + r.2.1 * 65536)
  let flags (r : (Nat × Flags) × (Nat × Flags)) : Flags := r.1.2 ||| r.2.2
  let two (i : Code → Code → Bool → Code → Bool → Instr) (f : Nat → Nat → Nat × Flags) : Prop :=
    GivesRR i (fun A B => join (halves2 f A B)) fun A B => flags (halves2 f A B)
  let three (i : BitVec 2 → Code5 → Code → Bool → Code → Bool → Instr) (f : Nat → Nat → Nat → Nat × Flags) : Prop :=
    GivesRC i (fun A B C => join (halves3 f A B C)) fun A B C => flags (halves3 f A B C)
  let code (A B : Word) (k : Nat) : Nat := A.toNat / 2 ^ (8 * (B.toNat % 4) + 4 * k) % 16
  let table (s : State) (t : TRef) : List Word := (List.range 8).map fun i => ((s.warp t.core t.slot).k[48 + i]?).getD 0
  let quant (q : FVal → Nat × Flags) (A B : Word) : Word × Flags :=
    let u := decodeF FP32 A.toNat
    let v := decodeF FP32 B.toNat
    (BitVec.ofNat 32 ((q v).1 * 16 + (q u).1), (q u).2 ||| (q v).2 ||| if u.isSig || v.isSig then INV else 0)
  two .hadd2 (addF BF16) ∧ two .hsub2 (subF BF16) ∧ two .hmul2 (mulF BF16) ∧ two .hmax2 (maxNum BF16) ∧
  three .hfma2 (fmaF BF16) ∧ three .hfms2 (fmsF BF16) ∧
  (∀ b a n d e, LaneAt (.cbx b a n d e) fun s t th =>
    let A := th.word a.toNat
    let B := th.word b.toNat
    res1 n d.toNat (BitVec.ofNat 32 (cb4Expand (table s t) (code A B 1) * 65536 + cb4Expand (table s t) (code A B 0)))) ∧
  (∀ b a n d e, LaneAt (.cbq b a n d e) fun s t th =>
    let r := quant (cb4Quant ((cb4Entries (table s t)).map (decodeF BF16))) (th.word a.toNat) (th.word b.toNat)
    res1 n d.toNat r.1 r.2) ∧
  GivesRR .nqx (fun A B => BitVec.ofNat 32 (nq4Table.getD (code A B 1) 0 * 65536 + nq4Table.getD (code A B 0) 0)) ∧
  GivesRR .nqq (fun A B => (quant nq4Quant A B).1) (fun A B => (quant nq4Quant A B).2) ∧
  nq4Table = [0xBF80, 0xBF32, 0xBF06, 0xBECA, 0xBE94, 0xBE3C, 0xBDB8, 0x0000, 0x3DA0, 0x3E24, 0x3E7C, 0x3EAC, 0x3EE2, 0x3F10, 0x3F39, 0x3F80] ∧
  (∀ (ks : List Word) c, let e := (ks.getD (c / 2) 0).toNat / 65536 ^ (c % 2) % 65536
    cb4Expand ks c = if 0x7F80 < e % 0x8000 then 0x7FC0 else e) ∧
  -- quantising takes the nearest entry, the lowest of equals
  (∀ sig neg, nq4Quant (.nan sig) = (7, INV) ∧ nq4Quant (.inf neg) = (if neg then 0 else 15, OVF ||| INX)) ∧
  (∀ neg n d, 0 < d → let x := (FVal.fin neg n d).rat
    let T (j : Nat) : ℚ := (decodeF BF16 (nq4Table.getD j 0)).rat
    let r := nq4Quant (.fin neg n d)
    (1 < x → r = (15, OVF ||| INX)) ∧ (x < -1 → r = (0, OVF ||| INX)) ∧
    (-1 ≤ x → x ≤ 1 → r.1 < 16 ∧ (∀ j < 16, |x - T r.1| ≤ |x - T j| ∧ (|x - T r.1| = |x - T j| → r.1 ≤ j)) ∧ r.2 = if T r.1 = x then 0 else INX)) ∧
  (∀ (es : List Nat) a, es.length = 16 → let x := decodeF FP32 a
    let E (j : Nat) : FVal := decodeF BF16 (es.getD j 0)
    let T (j : Nat) : ℚ := (E j).rat
    let fin (j : Nat) : Prop := j < 16 ∧ (E j).isFin = true
    let r := cb4Quant (es.map (decodeF BF16)) x
    let first (p : Nat → Prop) : Prop := p r.1 ∧ ∀ j < r.1, ¬p j
    (x.isNan = true → (∃ j < 16, (E j).isNan = true) → first (fun j => (E j).isNan = true) ∧ r.2 = 0) ∧
    (x.isNan = true → (∀ j < 16, (E j).isNan = false) → r = (0, INV)) ∧
    (∀ neg, x = .inf neg → (∃ j < 16, E j = .inf neg) → first (fun j => E j = .inf neg) ∧ r.2 = 0) ∧
    (x.isNan = false → (x.isFin = true ∨ ∀ j < 16, E j ≠ x) → (∀ j, ¬fin j) → r = (0, INV)) ∧
    (x.isNan = false → (x.isFin = true ∨ ∀ j < 16, E j ≠ x) → (∃ j, fin j) → fin r.1 ∧
      ((∀ j, fin j → T j < x.rank) → (∀ j, fin j → T j ≤ T r.1 ∧ (T j = T r.1 → r.1 ≤ j)) ∧ r.2 = OVF ||| INX) ∧
      ((∀ j, fin j → x.rank < T j) → (∀ j, fin j → T r.1 ≤ T j ∧ (T j = T r.1 → r.1 ≤ j)) ∧ r.2 = OVF ||| INX) ∧
      ((∃ j, fin j ∧ T j ≤ x.rank) → (∃ j, fin j ∧ x.rank ≤ T j) →
        (∀ j, fin j → |x.rat - T r.1| ≤ |x.rat - T j| ∧ (|x.rat - T r.1| = |x.rat - T j| → r.1 ≤ j)) ∧ r.2 = if T r.1 = x.rat then 0 else INX)))

/-- R36: the 16-bit instructions. -/
def Obligations.SixteenBitForms : Prop :=
  let fl (f : Nat → Nat → Nat × Flags) (i : Code5 → Code5 → Bool → Instr) : Prop :=
    GivesHalf i (fun D B => BitVec.ofNat 32 (f D.toNat B.toNat).1) fun D B => (f D.toNat B.toNat).2
  GivesHalf .mov (fun _ B => B) ∧
  GivesHalf .add16 (fun D B => BitVec.ofNat 32 (D.toNat + B.toNat)) ∧
  GivesHalf .sub16 (fun D B => BitVec.ofInt 32 ((D.toNat : Int) - B.toNat)) ∧
  GivesHalf .mullo16 (fun D B => BitVec.ofNat 32 (D.toNat * B.toNat)) ∧
  GivesHalf .and16 (fun D B => D &&& B) ∧
  GivesHalf .or16 (fun D B => D ||| B) ∧
  GivesHalf .xor16 (fun D B => D ^^^ B) ∧
  GivesHalf .shl16 (fun D B => BitVec.ofNat 32 (D.toNat * 2 ^ (B.toNat % 256))) ∧
  GivesHalf .shrU16 (fun D B => BitVec.ofNat 32 (D.toNat / 2 ^ (B.toNat % 256))) ∧
  GivesHalf .shrS16 (fun D B => BitVec.ofInt 32 (D.toInt / 2 ^ (B.toNat % 256))) ∧
  GivesHalf .minS16 (fun D B => if D.toInt < B.toInt then D else B) ∧
  GivesHalf .maxS16 (fun D B => if D.toInt < B.toInt then B else D) ∧
  fl (addF FP32) .fadd16 ∧ fl (subF FP32) .fsub16 ∧ fl (mulF FP32) .fmul16 ∧ fl (maxNum FP32) .fmax16

/-- R77, R121, R131, R135, R136, R309, R312, R313, R316: the lane instructions of geometry and of the matrix engine's operands. With EMPTY set the k of
REFIT is that of the computed cells, the model's choice (log 69). -/
def Obligations.GeometryAndMatrixLanes : Prop :=
  (∀ b a n d e, Lane (.tcmp b a n d e) fun th => res1 n d.toNat (tcmp (rayOf (th.group a.toNat 16)) (rayOf (th.group b.toNat 16)))) ∧
  (∀ a n d e, Lane (.tcvt a n d e) fun th =>
    let y := rayOf (th.group a.toNat 16)
    res1 n d.toNat (BitVec.ofNat 32 (tcvt y.num y.den (y.fw / 256 % 256)).1) (tcvt y.num y.den (y.fw / 256 % 256)).2) ∧
  (∀ b a n d e, Lane (.refit b a n d e) fun th =>
    res1 n d.toNat (refit (loWord (th.pair a.toNat)) (hiWord (th.pair a.toNat)) (th.word b.toNat))) ∧
  (∀ b a n d e, Lane (.vtxq b a n d e) fun th =>
    res1 n d.toNat (vtxq (loWord (th.pair a.toNat)) (hiWord (th.pair a.toNat)) (th.word b.toNat))) ∧
  (∀ (t k : BitVec 2) a n d e, Lane (.spcmp t k a n d e) fun th =>
    let size := if t.toNat = 2 then 8 else 4
    let bits := if t.toNat = 2 then 16 else 8
    let es := groupElems bits (th.group a.toNat size)
    let kept := spKept t.toNat (2 ^ (k.toNat + 1)) es
    let index := BitVec.ofNat 32 (kept.zipIdx.foldl (fun w x => w + x.1 * 16 ^ x.2) 0)
    { base := d.toNat, regs := if n then [] else index :: packElems bits (size - 1) (kept.map fun i => es.getD i 0) }) ∧
  (∀ (t k : BitVec 2) a n d e, Lane (.spexp t k a n d e) fun th =>
    let size := if t.toNat = 2 then 8 else 4
    let bits := if t.toNat = 2 then 16 else 8
    let src := th.group a.toNat size
    match spIndices (2 ^ (k.toNat + 1)) (src.headD 0).toNat with
    | none => { base := d.toNat, regs := if n then [] else List.replicate size 0, flags := INV }
    | some ks =>
      { base := d.toNat,
        regs := if n then [] else packElems bits size ((List.range 16).map fun i =>
          match ks.findIdx? fun x => decide (x = i) with
          | none => 0
          | some j => (groupElems bits (src.drop 1)).getD j 0) }) ∧
  (∀ c b a n d e, Lane (.scac c b a n d e) fun th =>
    let v := th.pair (code5 b)
    let C := th.word (if c = 0 then d.toNat else 123 + c.toNat)
    let r := scaleAdd C.toNat (th.word a.toNat).toNat (v.toNat % 256) (hiWord v).toNat
    res1 n d.toNat (BitVec.ofNat 32 r.1) r.2) ∧
  (∀ b a n d e, LaneAt (.bsq b a n d e) fun s t th =>
    let r := bsqValue ((th.word d.toNat).toNat % 4) (th.word a.toNat).toNat (th.word (code5 b)).toNat
      (((s.warp t.core t.slot).k.toList.drop 48).take 8)
    res1 n d.toNat (BitVec.ofNat 32 r.1) r.2) ∧
  -- t-values and hits compare by (t, primitive id)
  (∀ x y : Ray,
    let tv (r : Ray) : ℚ := r.num / (r.den * 2 ^ r.Eh)
    let before (a b : Ray) : Prop := (a.den ≠ 0 ∧ (b.den = 0 ∨ tv a < tv b ∨ (tv a = tv b ∧ a.id < b.id))) ∨ (a.den = 0 ∧ b.den = 0 ∧ a.id < b.id)
    (before x y → tcmp x y = 0xFFFF_FFFF) ∧ (before y x → tcmp x y = 1) ∧ (¬before x y → ¬before y x → tcmp x y = 0)) ∧
  (∀ num den eh, (den = 0 → tcvt num den eh = (0x7F80_0000, 0)) ∧ (den ≠ 0 → num = 0 → tcvt num den eh = (0, 0)) ∧
    (den ≠ 0 → num ≠ 0 → Rounds FP32 (num / (den * 2 ^ eh)) (tcvt num den eh) ∧ (num < 2 ^ 96 → (tcvt num den eh).2 &&& OVF = 0))) ∧
  (∀ x y z : Word,
    let lo (w : Word) : ℤ := (w.setWidth 16).toInt
    let hi (w : Word) : ℤ := ((w >>> 16).setWidth 16).toInt
    let cl (v : ℤ) : ℤ := max 0 (min v 4096)
    let mn (w : Word) : ℤ := min (cl (lo w) / 256) 15
    let mx (w : Word) : ℤ := max (mn w) (⌈(cl (hi w) : ℚ) / 256⌉ - 1)
    let ext : ℤ := max (mx x - mn x + 1) (max (mx y - mn y + 1) (mx z - mn z + 1))
    let ovf : Prop := ∃ w ∈ [x, y, z], cl (lo w) ≠ lo w ∨ cl (hi w) ≠ hi w
    let empty : Prop := ∃ w ∈ [x, y, z], hi w < lo w
    let r : ℤ := (refit x y z).toNat
    (∃ k : Nat, k ≤ 4 ∧ ext ≤ 2 ^ k ∧ (∀ j < k, (2 ^ j : ℤ) < ext) ∧ r / 2 ^ 24 % 16 = k) ∧ (r / 2 ^ 28 % 2 = 1 ↔ ovf) ∧ (r / 2 ^ 29 % 2 = 1 ↔ empty) ∧ r < 2 ^ 30 ∧
    (empty → r % 2 ^ 24 = 1) ∧ (¬empty → r % 2 ^ 24 = mn x + 16 * mx x + 2 ^ 8 * mn y + 2 ^ 12 * mx y + 2 ^ 16 * mn z + 2 ^ 20 * mx z)) ∧
  (∀ x y z : Word,
    let q (w : Word) : ℤ := roundRat .rne ((w.toInt : ℚ) / 4096)
    let c (w : Word) : ℤ := max 0 (min (q w) 255)
    let r : ℤ := (vtxq x y z).toNat
    r % 2 ^ 24 = c x + 2 ^ 8 * c y + 2 ^ 16 * c z ∧ (r / 2 ^ 24 % 2 = 1 ↔ ∃ w ∈ [x, y, z], w.toInt % 4096 ≠ 0) ∧
    (r / 2 ^ 25 % 2 = 1 ↔ ∃ w ∈ [x, y, z], c w ≠ q w) ∧ r < 2 ^ 26) ∧
  -- the elements kept are those of the greatest magnitude, the lower index first among equals
  (∀ (t n : Nat) (es : List Nat), t ≤ 2 → n ≤ 16 → es.length = 16 → (∀ v ∈ es, v < 2 ^ (if t = 2 then 16 else 8)) →
    let v (i : Nat) : Nat := es.getD i 0
    let mag (i : Nat) : ℚ :=
      if t = 0 then |((BitVec.ofNat 8 (v i)).toInt : ℚ)|
      else let y := decodeF (if t = 1 then FH8 else BF16) (v i)
        if y.isNan then 2 ^ 300 else |y.rank|
    let ks := spKept t n es
    ks.length = n ∧ ks.Pairwise (· < ·) ∧ (∀ i ∈ ks, i < 16) ∧ ∀ i ∈ ks, ∀ j < 16, j ∉ ks → mag j < mag i ∨ (mag j = mag i ∧ i < j)) ∧
  (∀ n m ks, spIndices n m = some ks ↔ ks = (List.range n).map (fun i => m / 16 ^ i % 16) ∧ ks.Pairwise (· < ·) ∧ m < 16 ^ n) ∧
  -- ScaleAdd
  (∀ d p s sup, d < 2 ^ 32 → p < 2 ^ 32 → s < 256 → sup < 2 ^ 32 →
    let D := decodeF FP32 d
    let P := decodeF FP32 p
    let S := decodeF FP32 sup
    let r := scaleAdd d p s sup
    let neg : Bool := P.sign != S.sign
    (D.isNan = true ∨ P.isNan = true ∨ S.isNan = true → r = nanResult FP32 [D, P, S]) ∧
    (D.isNan = false → P.isNan = false → S.isNan = false →
      (s = 0 ∨ S.isZero = true → (P.isInf = true → r = (FP32.cnan, INV)) ∧ (P.isInf = false → Sums FP32 D (.fin neg 0 1) r)) ∧
      (s ≠ 0 → S.isZero = false →
        (P.isZero = true → S.isInf = true → r = (FP32.cnan, INV)) ∧
        (P.isZero = false → P.isInf = true ∨ S.isInf = true → (D = .inf !neg → r = (FP32.cnan, INV)) ∧ (D ≠ .inf !neg → r = (infF FP32 neg, 0))) ∧
        (P.isFin = true → S.isFin = true → (∀ b, D = .inf b → r = (infF FP32 b, 0)) ∧
          (D.isFin = true → let x := D.rat + P.rat * (s / 255) * S.rat
            (x ≠ 0 → Rounds FP32 x r) ∧ (x = 0 → r = (zeroF FP32 (D.sign && neg), 0))))))) ∧
  -- Scale
  (∀ ctl a sup (tbl : List Word), ctl < 4 → a < 2 ^ 32 → sup < 2 ^ 32 → tbl.length = 8 →
    let A := decodeF FP32 a
    let S := decodeF FP32 sup
    let E (j : Nat) : FVal := decodeF BF16 ((tbl.getD (j / 2) 0).toNat / 65536 ^ (j % 2) % 65536)
    let good : Prop := ctl ≠ 3 ∧ A.isNan = false ∧ S.isFin = true ∧ 0 < S.rat
    let r := bsqValue ctl a sup tbl
    (¬good ∨ (ctl = 2 ∧ ∀ j < 16, (E j).isFin = true → (E j).rat = 0) → r = (0, INV)) ∧
    (∀ fmax : ℚ, good → fmax ≠ 0 → (ctl = 0 → fmax = 1) → (ctl = 1 → fmax = 14) →
      (ctl = 2 → (∃ j < 16, (E j).isFin = true ∧ |(E j).rat| = fmax) ∧ ∀ j < 16, (E j).isFin = true → |(E j).rat| ≤ fmax) →
      let q := 255 * |A.rat| / (S.rat * fmax)
      (A.isInf = true → r = (255, OVF)) ∧ (A.isFin = true → 255 < q → r = (255, OVF)) ∧ (A.isFin = true → q ≤ 255 → r = (⌈q⌉.toNat, 0))))

/-- R162, R175, R188, R273, R332, R362: reads of the state around a thread. R175 gives KSTAT's WAITB the range 0 to 8: that it reads as the number of
waiting bins modulo 16, with more than eight too, is the model's choice (log 64). -/
def Obligations.StatusReads : Prop :=
  (∀ (k : BitVec 6) n d e, LaneAt (.rdk k n d e) fun s t _ => res1 n d.toNat (((s.warp t.core t.slot).k[k.toNat]?).getD 0)) ∧
  (∀ n d e, LaneAt (.kstat n d e) fun s t _ =>
    let b := s.blkOf t
    let held := (((s.core t.core).bins.filter fun x => x.blk = b).map fun x => x.threads.length).sum
    let waiting := ((s.core t.core).released.filter fun x => x.blk = b).length
    res1 n d.toNat (BitVec.ofNat 32 (held % 512 + (s.core t.core).bins.length * 2 ^ 16 + waiting % 16 * 2 ^ 20))) ∧
  (∀ n d e, LaneAt (.genstat n d e) fun s t _ =>
    res1 n d.toNat (match (s.warp t.core t.slot).gen with
      | none => 0
      | some g =>
        let bit (v : Bool) (k : Nat) : Nat := if v then 2 ^ k else 0
        let frame := if g.consume then g.cf else g.fill
        BitVec.ofNat 32 (bit true 31 + bit g.consume 30 + bit g.pend 29 + frame * 2 ^ 28 + (g.w - 1) * 2 ^ 26 +
          bit (g.ended.contains t.lane) 24 + s.remaining t.core t.slot g * 2 ^ 18 + g.cnt1 * 2 ^ 12 + g.cnt0 * 2 ^ 6))) ∧
  (∀ (q : BitVec 4) n d e, LaneAt (.qstat q n d e) fun s t _ =>
    let b := s.block (s.blkOf t)
    let waiters := ((b.qwait.filter fun w => w.q = q.toNat).map fun w => w.who.length).sum
    res1 n d.toNat (BitVec.ofNat 32 (b.qCount q.toNat % 256 + qDepth q.toNat * 2 ^ 8 + min waiters 255 * 2 ^ 16))) ∧
  (∀ n d e, LaneAt (.clkrd n d e) fun s t _ =>
    let b := s.block (s.blkOf t)
    res2 n d.toNat (BitVec.ofNat 64 ((tget (s.core t.core).clkrd (b.part, b.tenant)).getD 0))) ∧
  (∀ (x : BitVec 2) n d e, LaneAt (.rstat x n d e) fun s t _ =>
    let r := (s.block (s.blkOf t)).rstat
    res1 n d.toNat (if x.toNat = 0 then r.word else if x.toNat = 1 then r.mask.setWidth 32 else (r.mask >>> 32).setWidth 32))

/-- R107 to R109: the control transfers whose targets are in order. -/
def Obligations.ControlTransfers : Prop :=
  let far (pc : Dword) (o : BitVec 20) : Int := pc.toNat + 4 + 2 * o.toInt
  let inSpace (x : Int) : Prop := 0 ≤ x ∧ x ≤ 0xFFFF_FFFF_FFFE
  let good (x : Dword) : Prop := x.toNat < 2 ^ 48 ∧ x.toNat % 2 = 0
  let linked (th : Thread) : Res :=
    let r := BitVec.ofNat 64 ((th.pc.toNat + 4) % 2 ^ 48)
    { base := 2, regs := [loWord r, hiWord r] }
  (∀ o sense p s, Clean (.br o sense p) s → (∀ t ∈ s.group, (s.thread t).pred p.toNat ≠ sense → inSpace (far (s.thread t).pc o)) →
    Gives (.br o sense p) s (fun _ _ => {}) fun th => if th.pred p.toNat ≠ sense then BitVec.ofInt 64 (far th.pc o) else th.pc + 4) ∧
  (∀ o s, Clean (.jmp o) s → (∀ t ∈ s.group, inSpace (far (s.thread t).pc o)) →
    Gives (.jmp o) s (fun _ _ => {}) fun th => BitVec.ofInt 64 (far th.pc o)) ∧
  (∀ o s, Clean (.call o) s → (∀ t ∈ s.group, inSpace (far (s.thread t).pc o)) →
    Gives (.call o) s (fun _ th => linked th) fun th => BitVec.ofInt 64 (far th.pc o)) ∧
  (∀ a s, Clean (.jr a) s → (∀ t ∈ s.group, good ((s.thread t).pair a.toNat)) →
    Gives (.jr a) s (fun _ _ => {}) fun th => th.pair a.toNat) ∧
  (∀ a s, Clean (.callr a) s → (∀ t ∈ s.group, good ((s.thread t).pair a.toNat)) →
    Gives (.callr a) s (fun _ th => linked th) fun th => th.pair a.toNat) ∧
  (∀ s, Clean .ret s → (∀ t ∈ s.group, good ((s.thread t).pair 2)) →
    Gives .ret s (fun _ _ => {}) fun th => th.pair 2)

/-- R109: the faults of the control transfers. -/
def Obligations.TransferFaults : Prop :=
  let far (pc : Dword) (o : BitVec 20) : Int := pc.toNat + 4 + 2 * o.toInt
  let outside (x : Int) : Prop := x < 0 ∨ 0xFFFF_FFFF_FFFE < x
  let trans (x : Dword) : TrapInfo := { code := 0x01, addr := x, acc := 3 }
  let odd (x : Dword) : TrapInfo := { code := 0x04, addr := x, acc := 3 }
  (∀ o sense p s t, Alone (.br o sense p) s t → MayTrap s t → (s.thread t).pred p.toNat ≠ sense → outside (far (s.thread t).pc o) →
    Faults (.br o sense p) s t (trans (BitVec.ofInt 64 (far (s.thread t).pc o)))) ∧
  (∀ o s t, Alone (.jmp o) s t → MayTrap s t → outside (far (s.thread t).pc o) →
    Faults (.jmp o) s t (trans (BitVec.ofInt 64 (far (s.thread t).pc o)))) ∧
  (∀ o s t, Alone (.call o) s t → MayTrap s t → outside (far (s.thread t).pc o) →
    Faults (.call o) s t (trans (BitVec.ofInt 64 (far (s.thread t).pc o)))) ∧
  (∀ a s t, Alone (.jr a) s t → MayTrap s t →
    let x := (s.thread t).pair a.toNat
    (2 ^ 48 ≤ x.toNat → Faults (.jr a) s t (trans x)) ∧ (x.toNat < 2 ^ 48 → x.toNat % 2 = 1 → Faults (.jr a) s t (odd x))) ∧
  (∀ a s t, Alone (.callr a) s t → MayTrap s t →
    let x := (s.thread t).pair a.toNat
    (2 ^ 48 ≤ x.toNat → Faults (.callr a) s t (trans x)) ∧ (x.toNat < 2 ^ 48 → x.toNat % 2 = 1 → Faults (.callr a) s t (odd x))) ∧
  (∀ s t, Alone .ret s t → MayTrap s t →
    let x := (s.thread t).pair 2
    (2 ^ 48 ≤ x.toNat → Faults .ret s t (trans x)) ∧ (x.toNat < 2 ^ 48 → x.toNat % 2 = 1 → Faults .ret s t (odd x)))

/-- R112: JTAB. -/
def Obligations.JumpTable : Prop :=
  ∀ off a n s t, Alone (.jtab off a n) s t →
    let th := s.thread t
    let idx := (th.word a.toNat).toNat
    let T := 4 * ((th.pc.toNat + 4 + 3) / 4) + 4 * off.toNat
    let entry := s.fetchPart t.core (s.ownOf t) (BitVec.ofNat 64 (T + 4 * idx)) 4 4
    (n.toNat ≤ idx → MayTrap s t → Faults (.jtab off a n) s t { code := 0x05, addr := BitVec.ofNat 64 idx }) ∧
    (idx < n.toNat → MayTrap s t → ∀ inf, entry = .error inf → Faults (.jtab off a n) s t inf) ∧
    (idx < n.toNat → ∀ s1 bs, entry = .ok (s1, bs) →
      let x : Int := T + (BitVec.ofNat 32 (leValue bs)).toInt
      let trapped (code : Nat) : Prop :=
        Makes (.jtab off a n) s t (fun th' => Trapped th th' { code := code, addr := BitVec.ofInt 64 x, acc := 3 } false) (Calm s1)
      (0 ≤ x → x ≤ 0xFFFF_FFFF_FFFE → x % 2 = 0 →
        Makes (.jtab off a n) s t (fun th' => Delivered (.jtab off a n) th th' {} (BitVec.ofInt 64 x)) (Calm s1)) ∧
      (MayTrap s t → x < 0 ∨ 0xFFFF_FFFF_FFFE < x → trapped 0x01) ∧
      (MayTrap s t → 0 ≤ x → x ≤ 0xFFFF_FFFF_FFFE → x % 2 = 1 → trapped 0x04))

/-- R33, R49, R50, R110, R111, R156: the instructions that end a loaf or nothing. A HEEL leaves pending each group that holds a register it
names; its thread is Ready unless a write has not landed that is unnamed, or that is older than the newest six of the pending groups. -/
def Obligations.PlainLoafEnds : Prop :=
  (∀ e, Lane (.nop e) fun _ => {}) ∧ (∀ e, Lane (.lvend e) fun _ => {}) ∧ (∀ b a d, Lane (.heel b a d) fun _ => {}) ∧
  (∀ b a d s t, Alone (.heel b a d) s t →
    let th := s.thread t
    let names (o : Out) : Prop := ∃ r ∈ [d.toNat, a.toNat, b.toNat], r ≠ 0 ∧ o.base ≤ r ∧ r < o.base + o.n
    Makes (.heel b a d) s t (fun th' => th'.outs.length = th.outs.length ∧
      (∀ k (h : k < th.outs.length) (h' : k < th'.outs.length),
        let o := th.outs[k]
        let o' := th'.outs[k]
        (o'.base, o'.n, o'.src, o'.past, o'.exempt) = (o.base, o.n, o.src, true, o.exempt) ∧
        (o'.named = true ↔ if o.past then o.named = true else names o) ∧
        (o'.must = true ↔ o.must = true ∨ (o'.named = true ∧ o'.exempt = false ∧
          6 ≤ ((th'.outs.drop (k + 1)).filter fun x => x.named && !x.exempt).length))) ∧
      (th'.st = .ready ∨ th'.st = .waiting .outs) ∧
      (th'.st = .ready ↔ ∀ o ∈ th'.outs, o.named = true ∧ o.must = false)) (Calm s)) ∧
  (∀ s t, Alone .join s t → Makes .join s t (fun th' => Rested .join (s.thread t) th' (.join (s.thread t).pc)) (Calm s)) ∧
  (∀ s t, Alone .exit s t → (s.warp t.core t.slot).gen = none → s.defer = false → (s.thread t).sc = none →
    (s.warps.all fun w => !w.2.leaven.any fun l => decide (l.2 = t)) = true →
    ∃ s', exec .exit s = .next s' ∧ (s'.thread? t).map Thread.st = some .exited ∧ (s'.thread? t).map Thread.outs = some [] ∧ t ∉ s'.group ∧
      s'.mem = s.mem ∧ s'.l2 = s.l2 ∧ s'.rdc = s.rdc ∧ s'.parts = s.parts ∧ s'.launches = s.launches) ∧
  (∀ s t, Alone .exit s t → (s.warp t.core t.slot).gen = none → s.defer = true ∨ (s.thread t).sc ≠ none →
    Makes .exit s t (fun th' => th' = { s.thread t with st := .waiting (.access .exit) }) (Calm s)) ∧
  (∀ s t, Alone .exit s t → MayTrap s t → (s.warp t.core t.slot).gen ≠ none →
    Faults .exit s t { code := 0x06, addr := (((s.warp t.core t.slot).k[63]?).getD 0).setWidth 64 })

/-- R328 to R330: the instructions that trap and the one that returns. TFENCE is stated for a thread whose reads by RASTT, the one
kind of load that sets flags, have all delivered them; its other loads it leaves as they are. -/
def Obligations.TrapsAndReturns : Prop :=
  (∀ a s t, Alone (.trap a) s t → MayTrap s t →
    Makes (.trap a) s t (fun th' => Trapped (s.thread t) th' { code := 0x09, addr := ((s.thread t).word a.toNat).setWidth 64 } true) (Calm s)) ∧
  (∀ s t, Alone .bkpt s t → MayTrap s t → Makes .bkpt s t (fun th' => Trapped (s.thread t) th' { code := 0x0A, addr := 0 } true) (Calm s)) ∧
  (∀ a s t, Alone (.tfence a) s t → (∀ o ∈ (s.thread t).outs, ∀ ps x y l r, o.src ≠ .load ps (.rastt x y l r)) →
    let f := (s.thread t).aflags &&& ((s.thread t).word a.toNat).setWidth 5
    (f = 0 → Makes (.tfence a) s t (fun th' => Delivered (.tfence a) (s.thread t) th' {}) (Calm s)) ∧
    (f ≠ 0 → MayTrap s t → Makes (.tfence a) s t (fun th' => Trapped (s.thread t) th' { code := 0x08, addr := 0, afl := f } true) (Calm s))) ∧
  (∀ (f : Bool) s t l, Alone (.xret f) s t → (s.thread t).trap = some l →
    Makes (.xret f) s t (fun th' => th'.pc = (s.thread t).xpc ∧ th'.loaf = (if f then {} else l) ∧ th'.trap = none ∧
      th'.outs = heelOuts [] (s.thread t).outs ∧
      th'.st = (if th'.outs.all (fun o => o.named && !o.must) then .ready else .waiting .outs) ∧
      th' = { s.thread t with pc := th'.pc, loaf := th'.loaf, trap := none, st := th'.st, outs := th'.outs, bad := th'.bad, heeled := true }) (Calm s)) ∧
  (∀ f s t, Alone (.xret f) s t → MayTrap s t → Faults (.xret f) s t { code := 0x06, addr := 0 })

/-- R324, R26: what a trap does when no handler can run. -/
def Obligations.TrapInsideHandler : Prop :=
  ∀ a s t, Alone (.trap a) s t → (s.thread t).leaven = false →
    let halted (w : Word) : Prop := ∃ s', exec (.trap a) s = .next s' ∧ (s'.thread? t).map Thread.st = some .halted ∧ t ∉ s'.group ∧
      (s'.thread? t).map (fun th => (th.xpc, th.xcause, th.xaddr, th.trap)) =
        some ((s.thread t).xpc, (s.thread t).xcause, (s.thread t).xaddr, (s.thread t).trap) ∧
      (s'.err (s.ownOf t)).word = (s.err (s.ownOf t)).word ||| w ∧ (∀ o, o ≠ s.ownOf t → s'.err o = s.err o) ∧ s'.mem = s.mem
    ((s.thread t).trap ≠ none → halted 2) ∧ ((s.thread t).trap = none → (s.thread t).xvec = 0 → halted 8)

/-- R22 to R25, R325: reading and writing the special registers. The word of %err is that of `State.err`, stated by `ErrorWord`. -/
def Obligations.SpecialRegisters : Prop :=
  let settled (s : State) (t : TRef) (sr : BitVec 7) : Prop :=
    sr = 17 → ∀ o ∈ (s.thread t).outs, ∀ ps x y l r, o.src ≠ .load ps (.rastt x y l r)
  let wide (sr : BitVec 7) : Prop := sr = 8 ∨ sr = 9 ∨ sr = 11 ∨ sr = 13 ∨ sr = 15
  let reads (s : State) (t : TRef) (sr : BitVec 7) (v : Nat) : Prop :=
    let th := s.thread t
    let b := s.block (s.blkOf t)
    match sr.toNat with
    | 0 => v = t.lane
    | 1 => v = t.slot
    | 2 => v = th.tid
    | 3 => v = b.cx
    | 4 => v = b.cy
    | 5 => v = b.rw
    | 6 => v = b.rh
    | 7 => v = b.cy * b.rw + b.cx
    | 8 => s.clock ≤ v ∧ v ≤ s.clock + 16
    | 9 => v = th.scClock.toNat + th.scCore.toNat * 2 ^ 48
    | 10 => v = (s.err (s.ownOf t)).word.toNat
    | 11 => v = th.xpc.toNat
    | 12 => v = th.xcause.toNat
    | 13 => v = th.xaddr.toNat
    | 14 => v = match th.trap with
        | none => 0
        | some l => 1 + (if l.j = 0 ∧ l.cnt = 0 then 0 else 4) + l.j * 16 + l.cnt * 256
    | 15 => v = th.xvec.toNat
    | 16 => v = b.tenant % 64 + b.part % 8 * 256
    | _ => v = th.aflags.toNat
  (∀ sr n d e s t, Alone (.rdsp sr n d e) s t → settled s t sr → ∃ v, reads s t sr v ∧
    (wide sr → Makes (.rdsp sr n d e) s t (fun th' => Delivered (.rdsp sr n d e) (s.thread t) th' (res2 n d.toNat (BitVec.ofNat 64 v))) (Calm s)) ∧
    (¬wide sr → Makes (.rdsp sr n d e) s t (fun th' => Delivered (.rdsp sr n d e) (s.thread t) th' (res1 n d.toNat (BitVec.ofNat 32 v))) (Calm s))) ∧
  (∀ sr a e s t, Alone (.wrsp sr a e) s t → settled s t sr →
    let th := s.thread t
    let even (v : Dword) : Dword := BitVec.ofNat 64 (v.toNat / 2 * 2)
    let written (th1 : Thread) : Prop := Makes (.wrsp sr a e) s t (fun th' => Delivered (.wrsp sr a e) th1 th' {}) (Calm s)
    (sr = 11 → written { th with xpc := even (th.pair a.toNat) }) ∧
    (sr = 12 → written { th with xcause := th.word a.toNat &&& 0xFF1F_F3FF }) ∧
    (sr = 13 → written { th with xaddr := th.pair a.toNat }) ∧
    (sr = 15 → written { th with xvec := even (th.pair a.toNat) }) ∧
    (sr = 17 → written { th with aflags := (th.word a.toNat).extractLsb' 0 5 }))

/-- R26, R27, R331: the error word of a context. ERRRD and ERRCLR act on the word as it was before the events of their own cycle; those stay. -/
def Obligations.ErrorWord : Prop :=
  let only (s s' : State) (o : Own) : Prop :=
    (∀ x, x ≠ o → s'.err x = s.err x) ∧ (∀ p, s'.partn p = { s.partn p with errs := (s'.partn p).errs }) ∧ Calm { s with parts := s'.parts } s'
  let before (s : State) (o : Own) : Word := if (s.errRec o).cyc = s.clock then (s.errRec o).old.word else (s.err o).word
  let events (s : State) (o : Own) : Word := if (s.errRec o).cyc = s.clock then (s.errRec o).recent.word else 0
  let joined (v w : Word) : Word := if v.getLsbD 15 then v ||| (w &&& 0xF) else v ||| w
  (∀ s o, (s.err o).word = joined (before s o) (events s o)) ∧
  (∀ n d e s t, Alone (.errrd n d e) s t →
    let o := s.ownOf t
    Makes (.errrd n d e) s t (fun th' => Delivered (.errrd n d e) (s.thread t) th' (res1 n d.toNat (before s o)))
      fun s' => (s'.err o).word = events s o ∧ only s s' o) ∧
  (∀ a e s t, Alone (.errclr a e) s t →
    let o := s.ownOf t
    let m := (s.thread t).word a.toNat
    let kept := before s o &&& ~~~(m &&& 0xF) &&& (if m.getLsbD 0 then 0xFFFF_00FF else 0xFFFF_FFFF)
    Makes (.errclr a e) s t (fun th' => Delivered (.errclr a e) (s.thread t) th' {})
      fun s' => (s'.err o).word = joined kept (events s o) ∧ only s s' o)

/-- R247 to R250, R255, R266: the plain loads up to the landing of their groups, with the checks of an access in their order (R29, R30, R192,
R212, R217, R219, R248) and what the fields of a cause hold (R323). A walk that fails is stated in `Obligations.TranslationInvalidation`. -/
def Obligations.LoadsLeaveTheirGroups : Prop :=
  let needs (z : Nat) (noDev cmpOk : Bool) : Need := { acc := 0, r := true, w := false, align := z, noDev := noDev, cmpOk := cmpOk }
  let split (z : Nat) (l : Loc) : List Part := if z = 32 then [⟨l, 16⟩, ⟨l.shift 16, 16⟩] else [⟨l, z⟩]
  let regs (sz : BitVec 3) : Nat := if sz = 3 then 2 else if sz = 4 then 4 else if sz = 5 then 8 else 1
  (∀ (o : BitVec 6) (sz : BitVec 3) a n d e s t, Alone (.ldG o sz a n d e) s t →
    let z : Nat := 2 ^ sz.toNat
    Loads (.ldG o sz a n d e) s t d.toNat (regs sz) n
      ((s.globalOf t ((s.thread t).pair a.toNat + BitVec.ofInt 64 (o.toInt * z)) z (needs z (decide (8 < z)) false)).map fun r => (r.1, split z r.2)) .raw true) ∧
  (∀ (o : BitVec 6) (sz : BitVec 3) a n d e s t, Alone (.ldS o sz a n d e) s t →
    let z : Nat := 2 ^ sz.toNat
    Loads (.ldS o sz a n d e) s t d.toNat (regs sz) n
      ((s.scratchOf t ((s.thread t).word a.toNat + BitVec.ofInt 32 (o.toInt * z)) z z 0).map fun r => (r.1, split z r.2)) .raw true) ∧
  (∀ b a n d e s t, Alone (.gath b a n d e) s t →
    Loads (.gath b a n d e) s t d.toNat 4 n (s.globalAll t (needs 4 true false)
      (((s.thread t).group b.toNat 4).map fun x => (s.thread t).pair a.toNat + BitVec.ofInt 64 (4 * x.toInt))) .raw true) ∧
  (∀ b a n d e s t, Alone (.gathS b a n d e) s t →
    Loads (.gathS b a n d e) s t d.toNat 4 n (s.scratchAll t 0
      (((s.thread t).group b.toNat 4).map fun x => (s.thread t).word a.toNat + BitVec.ofInt 32 (4 * x.toInt))) .raw true) ∧
  (∀ (sz : BitVec 3) a n d e s t, Alone (.ldraw sz a n d e) s t →
    let z : Nat := 2 ^ sz.toNat
    Loads (.ldraw sz a n d e) s t d.toNat (regs sz) n
      ((s.globalOf t ((s.thread t).pair a.toNat) z (needs z true true)).map fun r => (r.1, [⟨r.2.atHome, z⟩])) .home) ∧
  -- R248: the checks of one access to global memory
  (∀ (s : State) (t : TRef) (ea : Dword) n (q : Need), let o := s.ownOf t
    let chk := s.globalOf t ea n q
    let bad (code : Nat) : TrapInfo := { code := code, addr := ea, acc := q.acc }
    (2 ^ 48 ≤ ea.toNat → chk = .error (bad 1)) ∧
    (ea.toNat < 2 ^ 48 → ea.toNat % q.align ≠ 0 → chk = .error (bad 4)) ∧
    (ea.toNat < 2 ^ 48 → ea.toNat % q.align = 0 → ∀ stage level, translate s t.core o ea.toNat = .error (stage, level) →
      chk = .error { bad 1 with walk := true, stage := stage, level := level }) ∧
    (ea.toNat < 2 ^ 48 → ea.toNat % q.align = 0 → ∀ e, translate s t.core o ea.toNat = .ok e → let pa := e.pbase + (ea.toNat - e.vbase)
      let here : Prop := present s o.part pa = true ∧ present s o.part (pa + n - 1) = true
      let lacks (r w x : Bool) : Bool := (q.r && !r) || (q.w && !w) || (q.x && !x)
      let denied : Bool := lacks e.r1 e.w1 e.x1 || lacks e.r2 e.w2 e.x2
      let attr : Prop := (e.mt = 2 ∧ q.noDev = true) ∨ (e.cmp = true ∧ q.cmpOk = false)
      (¬here → chk = .error (bad 1)) ∧
      (here → denied = true → chk = .error { bad 2 with stage := if lacks e.r2 e.w2 e.x2 then 1 else 0 }) ∧
      (here → denied = false → attr → chk = .error (bad 3)) ∧
      (here → denied = false → ¬attr → ∃ s1, chk = .ok (s1, .glob pa e.mt e.cmp) ∧ Calm s s1))) ∧
  -- R192: the check of one access to scratchpad; the peers of a core are those of its 4 x 4 cluster (R30)
  (∀ (s : State) (t : TRef) (addr : Word) n align acc, s.loading = false → (s.blocks.map Prod.fst).Nodup → let br := s.blkOf t
    let chk := s.scratchOf t addr n align acc
    let bad (code : Nat) : TrapInfo := { code := code, addr := addr.setWidth 64, acc := acc }
    let off := addr.toNat % 2 ^ 20
    let peer (c d : Nat) : Prop := d % 64 / 4 = c % 64 / 4 ∧ d / 64 / 4 = c / 64 / 4 ∧ 4 * (d / 64 % 4) + d % 4 = addr.toNat / 2 ^ 20 % 16
    let target (b : BRef) : Prop := if addr.getLsbD 24 then b ∈ s.blocks.map Prod.fst ∧ b.launch = br.launch ∧ peer (s.block br).core (s.block b).core else b = br
    let fits (b : Block) : Prop := off + n ≤ b.scratch ∨ (16384 * b.pways.length ≤ off ∧ off + n ≤ 16384 * (b.pways.length + b.cways.length))
    (addr.toNat % align ≠ 0 → chk = .error (bad 4)) ∧
    (addr.toNat % align = 0 → 2 ^ 25 ≤ addr.toNat ∨ (∀ b, ¬target b) → chk = .error (bad 5)) ∧
    (addr.toNat % align = 0 → addr.toNat < 2 ^ 25 → ∀ b, target b → (∀ b', target b' → b' = b) →
      (¬fits (s.block b) → chk = .error (bad 5)) ∧ (fits (s.block b) → chk = .ok (s, .scr b off)))) ∧
  -- R248: all elements are checked, in element order, and the first failure is reported
  (∀ (s : State) (t : TRef) q, s.globalAll t q [] = .ok (s, []) ∧ ∀ l ea, (∀ inf r, s.globalAll t q l = .error inf → s.globalAll t q (l ++ r) = .error inf) ∧
    ∀ s1 ps, s.globalAll t q l = .ok (s1, ps) → (∀ inf r, s1.globalOf t ea 4 q = .error inf → s.globalAll t q (l ++ ea :: r) = .error inf) ∧
      ∀ s2 x, s1.globalOf t ea 4 q = .ok (s2, x) → s.globalAll t q (l ++ [ea]) = .ok (s2, ps ++ [⟨x, 4⟩])) ∧
  (∀ (s : State) (t : TRef) acc, s.scratchAll t acc [] = .ok (s, []) ∧ ∀ l a, (∀ inf r, s.scratchAll t acc l = .error inf → s.scratchAll t acc (l ++ r) = .error inf) ∧
    ∀ s1 ps, s.scratchAll t acc l = .ok (s1, ps) → (∀ inf r, s1.scratchOf t a 4 4 acc = .error inf → s.scratchAll t acc (l ++ a :: r) = .error inf) ∧
      ∀ s2 x, s1.scratchOf t a 4 4 acc = .ok (s2, x) → s.scratchAll t acc (l ++ [a]) = .ok (s2, ps ++ [⟨x, 4⟩])) ∧
  -- R323: the word of %xcause
  (∀ inf : TrapInfo, inf.code < 2 ^ 8 → inf.acc < 4 → inf.level < 4 → inf.stage < 2 → let w := inf.word.toNat
    w % 2 ^ 8 = inf.code ∧ w / 2 ^ 8 % 4 = inf.acc ∧ w / 2 ^ 10 % 4 = 0 ∧ w.testBit 12 = inf.walk ∧ w / 2 ^ 13 % 4 = inf.level ∧ w / 2 ^ 15 % 2 = inf.stage ∧
    w / 2 ^ 16 % 32 = inf.afl.toNat ∧ w / 2 ^ 21 % 8 = 0 ∧ w / 2 ^ 24 = inf.ecode.toNat)

/-- R124 to R133, R265: the geometry reads and PREF. A record that no RASTS has made leaves RASTT values that no rule states (log 22). -/
def Obligations.GeometryReads : Prop :=
  let needs (z : Nat) : Need := { acc := 0, r := true, w := false, align := z, noDev := true, cmpOk := false }
  let record (s : State) (t : TRef) (z : Nat) (ea : Dword) : Except TrapInfo (State × List Part) :=
    (s.globalOf t ea z (needs z)).map fun r => (r.1, (List.range (z / 16)).map fun i => ⟨r.2.shift (16 * i), 16⟩)
  (∀ a n d e s t, Alone (.rayld a n d e) s t →
    Loads (.rayld a n d e) s t d.toNat 16 n (record s t 64 ((s.thread t).pair a.toNat)) .rayld) ∧
  (∀ b a n d e s t, Alone (.boxt b a n d e) s t →
    let node := (s.thread t).pair b.toNat
    Loads (.boxt b a n d e) s t d.toNat 4 n (record s t 32 node) (.boxt ((s.thread t).group a.toNat 16) node)) ∧
  (∀ b a n d e s t, Alone (.desc b a n d e) s t →
    Loads (.desc b a n d e) s t d.toNat 16 n (record s t 32 ((s.thread t).pair a.toNat))
      (.desc ((s.thread t).group d.toNat 16) ((s.thread t).word b.toNat))) ∧
  (∀ b a n d e s t, Alone (.asc b a n d e) s t →
    Loads (.asc b a n d e) s t d.toNat 16 n (record s t 32 ((s.thread t).pair a.toNat))
      (.asc ((s.thread t).group d.toNat 16) ((s.thread t).word b.toNat))) ∧
  (∀ a n d e s t, Alone (.trit a n d e) s t →
    Loads (.trit a n d e) s t d.toNat 16 n (record s t 128 ((s.thread t).pair a.toNat)) (.trit ((s.thread t).group d.toNat 16))) ∧
  (∀ b a n d e s t, Alone (.rastt b a n d e) s t →
    let at_ := (s.thread t).word b.toNat
    let fin (aux : Rast) : Finish := .rastt (at_.toNat % 65536) (at_.toNat / 65536) t.lane aux
    (∀ inf, s.recordOf t ((s.thread t).word a.toNat) 0 = .error inf → MayTrap s t → Faults (.rastt b a n d e) s t inf) ∧
    ∀ ps br off, s.recordOf t ((s.thread t).word a.toNat) 0 = .ok ps → recordHome ps = some (br, off) →
      (∀ aux, tget (s.block br).rast off = some aux → Loads (.rastt b a n d e) s t d.toNat 2 n (.ok (s, ps)) (fin aux)) ∧
      (tget (s.block br).rast off = none → n = false → (∀ p ∈ ps, p.loc.loose = true) → (s.thread t).stores = [] → (s.thread t).sc = none →
        Makes (.rastt b a n d e) s t (fun th' => ∃ aux, Delivered (.rastt b a n d e)
          { s.thread t with outs := (s.thread t).outs ++ [{ base := d.toNat, n := 2, named := false, past := false, exempt := false, src := .load ps (fin aux) }] }
          th' {}) (Calm { s with freeCtr := s.freeCtr + 12 }))) ∧
  (∀ far a e s t, Alone (.pref far a e) s t →
    let ea := (s.thread t).pair a.toNat
    let need : Need := { acc := 0, r := true, w := false, align := 1, noDev := true, cmpOk := false }
    (∃ s', exec (.pref far a e) s = .next s' ∧
      (s'.thread? t).map (fun th' => (th'.g, th'.pc)) = some ((s.thread t).g, (s.thread t).pc + 4)) ∧
    ((∃ inf, s.globalOf t ea 1 need = .error inf) →
      Makes (.pref far a e) s t (fun th' => Delivered (.pref far a e) (s.thread t) th' {}) (Calm s))) ∧
  -- R120: a ray block as registers
  (∀ y : List Word, y.length = 16 → let r := rayOf y
    let w (k : Nat) : Nat := (y.getD k 0).toNat
    r.block = y ∧ (∀ a < 3, vec r.o a = (pairOf (y.getD (2 * a) 0) (y.getD (2 * a + 1) 0)).toInt ∧ vec r.d a = (y.getD (6 + a) 0).toInt) ∧
    r.E = w 9 % 256 ∧ r.Eh = w 9 / 256 % 256 ∧ (r.dead = true ↔ w 9 / 2 ^ 17 % 4 ≠ 0) ∧ r.num = w 10 + 2 ^ 32 * w 11 + 2 ^ 64 * w 12 ∧ r.id = w 13 ∧ r.den = w 14 + 2 ^ 32 * w 15) ∧
  -- the words of the loaded bytes, and RAYLD (R125)
  (∀ n (bs : List Byte), bs.length = 4 * n → let raw := (Finish.raw.run n bs).1
    raw.length = n ∧ ∀ k < n, raw.getD k 0 = ((bs.getD (4 * k + 3) 0 ++ bs.getD (4 * k + 2) 0 : BitVec 16) ++ (bs.getD (4 * k + 1) 0 ++ bs.getD (4 * k) 0 : BitVec 16) : BitVec 32)) ∧
  (∀ bs : List Byte, bs.length = 64 → let w (k : Nat) : Word := (Finish.raw.run 16 bs).1.getD k 0
    let fw : Nat := (bs.getD 37 0).toNat * 256 + if w 6 = 0 ∧ w 7 = 0 ∧ w 8 = 0 then 2 ^ 18 else 0
    Finish.rayld.run 16 bs = ((List.range 16).map fun k => if k = 9 then BitVec.ofNat 32 fw else if k = 13 then 0xFFFF_FFFF else w k, 0)) ∧
  -- BOXT (R126): a child is hit when some parameter of the ray lies in its box; the key is the least such parameter
  (∀ (y : List Word) node (bs : List Byte), y.length = 16 → bs.length = 32 →
    let r := rayOf y
    let b (k : Nat) : Nat := (bs.getD k 0).toNat
    let cnt := b 1 % 16
    let bad : Prop := b 0 % 16 ≠ 1 ∨ cnt = 0 ∨ 8 < cnt ∨ 2 ^ cnt ≤ b 2
    let mn (i a : Nat) : Nat := b (8 + 3 * i + a) % 16
    let mx (i a : Nat) : Nat := b (8 + 3 * i + a) / 16
    let inBox (i : Nat) (x : ℚ) : Prop := 0 ≤ x ∧ (r.den ≠ 0 → x ≤ r.num * 2 ^ r.E / (r.den * 2 ^ r.Eh)) ∧
      ∀ a < 3, 256 * (mn i a : ℚ) ≤ vec r.o a / 2 ^ 20 + x * vec r.d a ∧ (vec r.o a : ℚ) / 2 ^ 20 + x * vec r.d a ≤ 256 * (mx i a + 1)
    let hit (i : Nat) : Prop := ¬bad ∧ r.dead = false ∧ i < cnt ∧ (∀ a < 3, mn i a ≤ mx i a) ∧ ∃ x, inBox i x
    ∃ (l : List Nat) (key : Nat → Nat), l.Nodup ∧ (∀ i, i ∈ l ↔ hit i) ∧
      (∀ i ∈ l, ∃ x, inBox i x ∧ (∀ x', inBox i x' → x ≤ x') ∧ ∃ n d : Nat, 0 < d ∧ x = (n : ℚ) / d ∧ key i = (arithF FP32 .rz false n d).1) ∧
      l.Pairwise (fun i j => key i < key j ∨ (key i = key j ∧ i < j)) ∧
      (Finish.boxt y node).run 4 bs =
        ([BitVec.ofNat 32 ((l.map fun i => 2 ^ i).sum + ((List.range l.length).map fun j => l.getD j 0 * 2 ^ (8 + 3 * j)).sum),
          BitVec.ofNat 32 (b 2 + 256 * cnt + 2 ^ 12 * (b 0 % 16)) ||| (if b 0 % 16 ≠ 1 ∨ cnt = 0 ∨ 8 < cnt ∨ 2 ^ cnt ≤ b 2 then 0x8000_0000 else 0),
          loWord (node + 32 * ((Finish.raw.run 8 bs).1.getD 1 0).signExtend 64), hiWord (node + 32 * ((Finish.raw.run 8 bs).1.getD 1 0).signExtend 64)], 0)) ∧
  -- DESC and ASC (R127, R117)
  (∀ (down : Bool) (y : List Word) (i : Word) (bs : List Byte), y.length = 16 → bs.length = 32 →
    let r := rayOf y
    let b (k : Nat) : Nat := (bs.getD k 0).toNat
    let cnt := b 1 % 16
    let mn (a : Nat) : Nat := b (8 + 3 * i.toNat + a) % 16
    let mx (a : Nat) : Nat := b (8 + 3 * i.toNat + a) / 16
    let bad : Prop := b 0 % 16 ≠ 1 ∨ cnt = 0 ∨ 8 < cnt ∨ 2 ^ cnt ≤ b 2 ∨ cnt ≤ i.toNat ∨ ∃ a < 3, mx a < mn a
    let out : List Word × Flags := (if down then Finish.desc y i else Finish.asc y i).run 16 bs
    let fw := y.getD 9 0
    (r.dead = true → out = (y, 0)) ∧ (r.dead = false → bad → out = (y.set 9 (fw ||| 0x8_0000), 0)) ∧
    ∀ k ≤ 4, r.dead = false → ¬bad → (∀ a < 3, mx a - mn a + 1 ≤ 2 ^ k) → (∀ j < k, ∃ a < 3, 2 ^ j < mx a - mn a + 1) →
      let o (a : Nat) : ℤ := if down then (vec r.o a - 256 * mn a * 2 ^ 20) * 2 ^ (4 - k) else ⌊(vec r.o a : ℚ) / 2 ^ (4 - k)⌋ + 256 * mn a * 2 ^ 20
      let fits : Prop := (∀ a < 3, -2 ^ 63 ≤ o a ∧ o a ≤ 2 ^ 63 - 1) ∧ (if down then r.E + (4 - k) ≤ 235 else 4 - k ≤ r.E)
      (¬fits → out = (y.set 9 (fw ||| 0x2_0000), 0)) ∧
      (fits → ∃ y', out = (y', 0) ∧ y'.length = 16 ∧ (∀ a < 3, vec (rayOf y').o a = o a) ∧
        y'.getD 9 0 = (if down then fw + BitVec.ofNat 32 (4 - k) else fw - BitVec.ofNat 32 (4 - k)) ∧ ∀ j, 6 ≤ j → j ≠ 9 → y'.getD j 0 = y.getD j 0)) ∧
  -- TRIT (R128, R119): of the hits that precede the stored one, the first in the order of R121 is recorded. An E above 235 is log entry 66
  (∀ (y : List Word) (bs : List Byte), y.length = 16 → bs.length = 128 →
    let r := rayOf y
    let b (k : Nat) : Nat := (bs.getD k 0).toNat
    let bad : Prop := b 0 % 16 ≠ 2 ∨ b 1 = 0 ∨ 24 < b 1 ∨ 16 < b 2
    let id (t : Nat) : Nat := (((Finish.raw.run 32 bs).1.getD 1 0).toNat + t) % 2 ^ 32
    let named (t : Nat) : Prop := ∀ k < 3, leafCorner bs t k < b 1
    let hit (t num den : Nat) : Prop := t < b 2 ∧ named t ∧ TriHit (vec r.o) (vec r.d) (leafPoint bs t) num den ∧
      Precedes num den (r.E + 20) (id t) r.num r.den r.Eh r.id
    let out := (Finish.trit y).run 16 bs
    let fw := y.getD 9 0
    (r.dead = true → out = (y, 0)) ∧ (r.dead = false → bad → out = (y.set 9 (fw ||| 0x8_0000), 0)) ∧
    (r.dead = false → ¬bad → b 3 % 2 = 1 → out = (y, 0)) ∧
    ∀ fw', r.dead = false → ¬bad → b 3 % 2 = 0 → ((∃ t < b 2, ¬named t) → fw' = fw ||| 0x8_0000) → ((∀ t < b 2, named t) → fw' = fw) →
      ((∀ t num den, ¬hit t num den) → out = (y.set 9 fw', 0)) ∧
      (r.E ≤ 235 → ∀ t num den, hit t num den → (∀ t' num' den', hit t' num' den' → ¬Precedes num' den' (r.E + 20) (id t') num den (r.E + 20) (id t)) →
        out = (y.take 9 ++ [(fw' &&& 0xFFFF_00FF) ||| 0x1_0000 ||| BitVec.ofNat 32 ((r.E + 20) * 256), BitVec.ofNat 32 num, BitVec.ofNat 32 (num / 2 ^ 32),
          BitVec.ofNat 32 (num / 2 ^ 64), BitVec.ofNat 32 (id t), BitVec.ofNat 32 den, BitVec.ofNat 32 (den / 2 ^ 32)], 0))) ∧
  -- RASTT (R133) of a record as RASTS leaves it: a pixel is covered when TRIT with its direction would record this triangle
  (∀ (y : List Word) (leaf rec_ : List Byte) px0 py0 lane, y.length = 16 → leaf.length = 128 → rec_.length = 256 → lane < 32 →
    let r := rayOf y
    let q := rastSetup y leaf rec_
    let bs := rec_.take 12 ++ q.2.1 ++ (rec_.drop 16).take 24 ++ q.2.2.1
    let out := (Finish.rastt px0 py0 lane q.2.2.2).run 2 bs
    let tri := field rec_ 8 4 % 16
    let id : Nat := (((Finish.raw.run 32 leaf).1.getD 1 0).toNat + tri) % 2 ^ 32
    let dir (i a : Nat) : ℤ := vec r.d a + (px0 + i % 8 : ℕ) * sfield rec_ (16 + 4 * a) 4 + (py0 + i / 8 : ℕ) * sfield rec_ (28 + 4 * a) 4
    let hit (i num den : Nat) : Prop := (∀ a < 3, -2 ^ 31 ≤ dir i a ∧ dir i a < 2 ^ 31) ∧ (∃ a < 3, dir i a ≠ 0) ∧
      TriHit (vec r.o) (dir i) (leafPoint leaf tri) num den ∧ Precedes num den (r.E + 20) id r.num r.den r.Eh 0xFFFF_FFFF
    (q.1 ≠ 0 → out = ([0, 0x7F80_0000], 0)) ∧
    (q.1 = 0 → ∃ mask v fl, out = ([mask, v], fl) ∧ (∀ i < 32, mask.getLsbD i = true ↔ ∃ num den, hit i num den) ∧
      ((∀ num den, ¬hit lane num den) → v = 0x7F80_0000 ∧ fl = 0) ∧
      (r.E ≤ 235 → ∀ num den, hit lane num den → (num = 0 → v = 0 ∧ fl = 0) ∧
        (0 < num → ∃ c, v = BitVec.ofNat 32 c ∧ Rounds FP32 ((num : ℚ) / (den * 2 ^ (r.E + 20))) (c, fl)))))

/-- R250, R255: the stores to scratchpad. The scratchpads are in their canonical form (`MemInv`). -/
def Obligations.ScratchpadStores : Prop :=
  let fits (s : State) : Prop := ∀ b, Memory.wf (s.block b).cells = true
  (∀ (o : BitVec 6) (sz : BitVec 3) a d e s t, Alone (.stS o sz a d e) s t → fits s → Quiet s t →
    let th := s.thread t
    let z : Nat := 2 ^ sz.toNat
    let v : Nat := if sz.toNat < 3 then (th.word d.toNat).toNat else if sz = 3 then (th.pair d.toNat).toNat
      else ((th.group d.toNat (z / 4)).zipIdx.map fun x => x.1.toNat * 2 ^ (32 * x.2)).sum
    let chk := s.scratchOf t (th.word a.toNat + BitVec.ofInt 32 (o.toInt * z)) z z 1
    (∀ inf, chk = .error inf → MayTrap s t → Faults (.stS o sz a d e) s t inf) ∧
    (∀ s1 br off, chk = .ok (s1, .scr br off) →
      Makes (.stS o sz a d e) s t (fun th' => Delivered (.stS o sz a d e) th th' {})
        fun s' => ScratchWritten s s' br off ((List.range z).map fun j => BitVec.ofNat 8 (v / 256 ^ j)))) ∧
  -- R252: of several lanes that store to one byte, the highest lane's byte remains
  (∀ (o : BitVec 6) (sz : BitVec 3) a d e s (to_ : TRef → BRef × Nat), Clean (.stS o sz a d e) s → fits s → InLanes s →
    let z : Nat := 2 ^ sz.toNat
    let v (th : Thread) : Nat := if sz.toNat < 3 then (th.word d.toNat).toNat else if sz = 3 then (th.pair d.toNat).toNat
      else ((th.group d.toNat (z / 4)).zipIdx.map fun x => x.1.toNat * 2 ^ (32 * x.2)).sum
    let hit (t : TRef) (c : BRef) (x : Nat) : Prop := c = (to_ t).1 ∧ (to_ t).2 ≤ x ∧ x < (to_ t).2 + z
    (∀ t ∈ s.group, s.scratchOf t ((s.thread t).word a.toNat + BitVec.ofInt 32 (o.toInt * z)) z z 1 = .ok (s, .scr (to_ t).1 (to_ t).2)) →
    ∃ s', exec (.stS o sz a d e) s = .next s' ∧ ∀ c x,
      (∀ t ∈ s.group, hit t c x → (∀ u ∈ s.group, hit u c x → u.lane ≤ t.lane) →
        cellGet (s'.block c).cells x = BitVec.ofNat 8 (v (s.thread t) / 256 ^ (x - (to_ t).2))) ∧
      ((∀ t ∈ s.group, ¬hit t c x) → cellGet (s'.block c).cells x = cellGet (s.block c).cells x)) ∧
  (∀ b a d e s t, Alone (.scatS b a d e) s t → fits s → Quiet s t →
    let th := s.thread t
    let chk := s.scratchAll t 1 ((th.group b.toNat 4).map fun x => th.word a.toNat + BitVec.ofInt 32 (4 * x.toInt))
    (∀ inf, chk = .error inf → MayTrap s t → Faults (.scatS b a d e) s t inf) ∧
    (∀ s1 b0 o0 b1 o1 b2 o2 b3 o3, chk = .ok (s1, [⟨.scr b0 o0, 4⟩, ⟨.scr b1 o1, 4⟩, ⟨.scr b2 o2, 4⟩, ⟨.scr b3 o3, 4⟩]) →
      let w (i : Nat) : List Byte := (List.range 4).map fun j => BitVec.ofNat 8 (((th.group d.toNat 4).getD i 0).toNat / 256 ^ j)
      let hit (br : BRef) (off : Nat) (c : BRef) (x : Nat) : Prop := c = br ∧ off ≤ x ∧ x < off + 4
      Makes (.scatS b a d e) s t (fun th' => Delivered (.scatS b a d e) th th' {}) fun s' =>
        (∀ c x,
          (hit b3 o3 c x → cellGet (s'.block c).cells x = (w 3).getD (x - o3) 0) ∧
          (¬hit b3 o3 c x → hit b2 o2 c x → cellGet (s'.block c).cells x = (w 2).getD (x - o2) 0) ∧
          (¬hit b3 o3 c x → ¬hit b2 o2 c x → hit b1 o1 c x → cellGet (s'.block c).cells x = (w 1).getD (x - o1) 0) ∧
          (¬hit b3 o3 c x → ¬hit b2 o2 c x → ¬hit b1 o1 c x → hit b0 o0 c x → cellGet (s'.block c).cells x = (w 0).getD (x - o0) 0) ∧
          (¬hit b3 o3 c x → ¬hit b2 o2 c x → ¬hit b1 o1 c x → ¬hit b0 o0 c x →
            cellGet (s'.block c).cells x = cellGet (s.block c).cells x)) ∧
        (∀ c, s'.block c = { s.block c with cells := (s'.block c).cells, poison := (s'.block c).poison }) ∧
        Calm { s with blocks := s'.blocks } s'))

/-- R212, R250, R255, R131, R351: the stores to global memory, normal, uncached and of the device type. A store to normal memory whose home is
another partition's die, when the map names no guest way, is one to uncached memory (`typeAt`). HITW and SCAT are stated for normal memory; an
access lies within its line. -/
def Obligations.GlobalStores : Prop :=
  let needs (z : Nat) (noDev : Bool) : Need := { acc := 1, r := false, w := true, align := z, noDev := noDev, cmpOk := false }
  let le (n v : Nat) : List Byte := (List.range n).map fun j => BitVec.ofNat 8 (v / 256 ^ j)
  (∀ (o : BitVec 6) (sz : BitVec 3) a d e s t, Alone (.stG o sz a d e) s t → Quiet s t →
    let th := s.thread t
    let z : Nat := 2 ^ sz.toNat
    let v : Nat := if sz.toNat < 3 then (th.word d.toNat).toNat else if sz = 3 then (th.pair d.toNat).toNat
      else ((th.group d.toNat (z / 4)).zipIdx.map fun x => x.1.toNat * 2 ^ (32 * x.2)).sum
    let chk := s.globalOf t (th.pair a.toNat + BitVec.ofInt 64 (o.toInt * z)) z (needs z (decide (8 < z)))
    let own := s.ownOf t
    let to_ (F : State → Prop) (was : TRef → Option Thread) (th1 : Thread) : Prop :=
      Makes (.stG o sz a d e) s t (fun th' => Delivered (.stG o sz a d e) th1 th' {}) F was
    (∀ inf, chk = .error inf → MayTrap s t → Faults (.stG o sz a d e) s t inf) ∧
    (∀ s1 pa cmp, chk = .ok (s1, .glob pa 0 cmp) → (s.guestWays ≠ [] ∨ (s.partn own.part).dies.contains (homeOf pa) = true) →
      inDevice (pa + z) = false → pa % 128 + z ≤ 128 → L1Room s t.core pa cmp →
      to_ (fun s' => CoreWritten s s' t.core pa (le z v)) s.thread? th) ∧
    (∀ s1 pa mt cmp, chk = .ok (s1, .glob pa mt cmp) →
      mt = 1 ∨ (mt = 0 ∧ s.guestWays = [] ∧ (s.partn own.part).dies.contains (homeOf pa) = false) → inDevice (pa + z) = false → pa % 128 + z ≤ 128 → MemInv s →
      NoCopies s t.core pa → HomeRoom s own pa cmp ∨ (l2find s (pa / 128) = none ∧ l2Ways s own (pa / 128) = []) →
      to_ (fun s' => HomeWritten s s' pa (le z v)) (fireLine s (pa / 128) false).thread? (th.fire (pa / 128) false)) ∧
    (∀ s1 pa cmp, chk = .ok (s1, .glob pa 2 cmp) → inDevice (pa + z) = false → pa % 128 + z ≤ 128 → MemInv s →
      NoCopies s t.core pa → LineClean s (pa / 128) →
      to_ (fun s' => (∀ a, homeByte s' a = if pa ≤ a ∧ a < pa + z then (le z v).getD (a - pa) 0 else homeByte s a) ∧
        l2find s' (pa / 128) = none ∧
        Calm (fireLine { s with l2 := s'.l2, mem := s'.mem, poison := s'.poison, floors := s'.floors } (pa / 128) false) s')
        (fireLine s (pa / 128) false).thread? (th.fire (pa / 128) false)) ∧
    (∀ s1 pa mt cmp, chk = .ok (s1, .glob pa mt cmp) → inDevice pa = true → z ≤ 8 →
      let x := regEvent own.part (some own.tenant) (pa - regBlock own.part) (BitVec.ofNat 64 v)
      (z = 8 ∧ regBlock own.part ≤ pa ∧ pa < regBlock own.part + 0x10_0000 → to_ (Calm { s with hubq := s.hubq ++ [x] }) s.thread? th) ∧
      (¬(z = 8 ∧ regBlock own.part ≤ pa ∧ pa < regBlock own.part + 0x10_0000) → to_ (Calm s) s.thread? th))) ∧
  -- R252: of several lanes that store to one byte, the highest lane's byte remains (lines present, translations cached)
  (∀ (o : BitVec 6) (sz : BitVec 3) a d e s (to_ : TRef → Nat) cmp, Clean (.stG o sz a d e) s → InLanes s →
    let z : Nat := 2 ^ sz.toNat
    let v (th : Thread) : Nat := if sz.toNat < 3 then (th.word d.toNat).toNat else if sz = 3 then (th.pair d.toNat).toNat
      else ((th.group d.toNat (z / 4)).zipIdx.map fun x => x.1.toNat * 2 ^ (32 * x.2)).sum
    let hit (t : TRef) (x : Nat) : Prop := to_ t ≤ x ∧ x < to_ t + z
    (∀ t ∈ s.group, t.core = s.curCore ∧ s.globalOf t ((s.thread t).pair a.toNat + BitVec.ofInt 64 (o.toInt * z)) z (needs z (decide (8 < z))) = .ok (s, .glob (to_ t) 0 cmp) ∧
      typeAt s (s.ownOf t) (to_ t) 0 = 0 ∧ inDevice (to_ t + z) = false ∧ to_ t % 128 + z ≤ 128 ∧ ∃ l, l1find s s.curCore (to_ t / 128) = some l ∧ l.cmp = cmp) →
    ∃ s', exec (.stG o sz a d e) s = .next s' ∧ (∀ x, homeByte s' x = homeByte s x) ∧ ∀ c x,
      (∀ t ∈ s.group, c = s.curCore → hit t x → (∀ u ∈ s.group, hit u x → u.lane ≤ t.lane) → s'.seen c x = BitVec.ofNat 8 (v (s.thread t) / 256 ^ (x - to_ t))) ∧
      ((c = s.curCore → ∀ t ∈ s.group, ¬hit t x) → s'.seen c x = s.seen c x)) ∧
  (∀ a d e s t, Alone (.hitw a d e) s t → Quiet s t →
    let th := s.thread t
    let chk := s.globalOf t (th.pair a.toNat) 32 (needs 32 true)
    let y (i : Nat) : Nat := ((th.group d.toNat 16).getD i 0).toNat
    let time := tcvtRay (rayOf (th.group d.toNat 16))
    (∀ inf, chk = .error inf → MayTrap s t → Faults (.hitw a d e) s t inf) ∧
    (∀ s1 pa cmp, chk = .ok (s1, .glob pa 0 cmp) → typeAt s (s.ownOf t) pa 0 = 0 → inDevice (pa + 32) = false → pa % 128 + 32 ≤ 128 → L1Room s t.core pa cmp →
      Makes (.hitw a d e) s t (fun th' => Delivered (.hitw a d e) th th' { flags := time.2 }) fun s' => CoreWritten s s' t.core pa
        (le 4 (y 10) ++ le 4 (y 11) ++ le 4 (y 12) ++ le 4 (y 13) ++ le 4 (y 14) ++ le 4 (y 15) ++ le 4 (y 9) ++ le 4 time.1))) ∧
  (∀ b a d e s t, Alone (.scat b a d e) s t → Quiet s t →
    let th := s.thread t
    let chk := s.globalAll t (needs 4 true) ((th.group b.toNat 4).map fun x => th.pair a.toNat + BitVec.ofInt 64 (4 * x.toInt))
    let w (i : Nat) : List Byte := le 4 ((th.group d.toNat 4).getD i 0).toNat
    (∀ inf, chk = .error inf → MayTrap s t → Faults (.scat b a d e) s t inf) ∧
    (∀ s1 p0 c0 p1 c1 p2 c2 p3 c3,
      chk = .ok (s1, [⟨.glob p0 0 c0, 4⟩, ⟨.glob p1 0 c1, 4⟩, ⟨.glob p2 0 c2, 4⟩, ⟨.glob p3 0 c3, 4⟩]) →
      (∀ p ∈ [p0, p1, p2, p3], typeAt s (s.ownOf t) p 0 = 0 ∧ inDevice p = false ∧ p % 128 ≤ 124 ∧ ∃ l, l1find s t.core (p / 128) = some l ∧ l.cmp = c0 ∧ l.cmp = c1 ∧ l.cmp = c2 ∧ l.cmp = c3) →
      Makes (.scat b a d e) s t (fun th' => Delivered (.scat b a d e) th th' {}) fun s' => ∃ x0 x1 x2,
        CoreWritten s x0 t.core p0 (w 0) ∧ CoreWritten x0 x1 t.core p1 (w 1) ∧ CoreWritten x1 x2 t.core p2 (w 2) ∧
        CoreWritten x2 s' t.core p3 (w 3)))

/-- R256: the atomics. The word is not poisoned, and it lies in a line of normal or uncached memory. -/
def Obligations.Atomics : Prop :=
  let needs : Need := { acc := 2, r := true, w := true, align := 4, noDev := true, cmpOk := false }
  let atomic (i : Instr) (a : Code) (n : Bool) (d : Code) (f : Thread → Word → Option Word) : Prop :=
    -- R257: the atomics of one group on one word are applied in increasing lane order, and each lane is given the word as it found it
    (∀ s pa mt cmp, Clean i s → InLanes s → MemInv s → n = false → inDevice pa = false → pa % 128 ≤ 124 → homePoison s pa 4 = false →
      (∀ t ∈ s.group, s.globalOf t ((s.thread t).pair a.toNat) 4 needs = .ok (s, .glob pa mt cmp) ∧ NoCopies s t.core pa ∧ HomeRoom s (s.ownOf t) pa cmp) →
      let found (k : Nat) : Word := (s.group.take k).foldl (fun w t => (f (s.thread t) w).getD w) (BitVec.ofNat 32 (leValue (homeBytes s pa 4)))
      ∃ s', exec i s = .next s' ∧
        (∀ k t, s.group[k]? = some t → (s'.thread? t).map (fun th' => th'.outs.map fun o => (o.base, o.src)) = some [(d.toNat, .val [found k])]) ∧
        ∀ x, homeByte s' x = if pa ≤ x ∧ x < pa + 4 then (leBytes 4 (found s.group.length).toNat).getD (x - pa) 0 else homeByte s x) ∧
    ∀ s t, Alone i s t → Quiet s t → MemInv s →
      let th := s.thread t
      let chk := s.globalOf t (th.pair a.toNat) 4 needs
      (∀ inf, chk = .error inf → MayTrap s t → Faults i s t inf) ∧
      (∀ s1 pa mt cmp, chk = .ok (s1, .glob pa mt cmp) → inDevice pa = false → pa % 128 ≤ 124 → NoCopies s t.core pa →
        HomeRoom s (s.ownOf t) pa cmp → homePoison s pa 4 = false →
        let old := BitVec.ofNat 32 (leValue (homeBytes s pa 4))
        let outs : List Out := if n then [] else [{ base := d.toNat, n := 1, named := false, past := false, exempt := false, src := .val [old] }]
        match f th old with
        | none => Makes i s t (fun th' => Delivered i { th with outs := outs } th' {}) fun s' =>
            (∀ x, homeByte s' x = homeByte s x) ∧ Calm { s with l2 := s'.l2 } s'
        | some v =>
          let fired := th.fire (pa / 128) false
          Makes i s t (fun th' => Delivered i { fired with outs := outs } th' {}) (fun s' => HomeWritten s s' pa (leBytes 4 v.toNat))
            (fireLine s (pa / 128) false).thread?)
  let rr (i : Code → Code → Bool → Code → Bool → Instr) (f : Word → Word → Word) : Prop :=
    ∀ b a n d e, atomic (i b a n d e) a n d fun th old => some (f old (th.word b.toNat))
  let rc (i : Code5 → Code → Bool → Code → Bool → Instr) (f : Word → Word → Word) : Prop :=
    ∀ b a n d e, atomic (i b a n d e) a n d fun th old => some (f old (th.word (code5 b)))
  rr .aadd (fun old B => BitVec.ofNat 32 (old.toNat + B.toNat)) ∧
  rr .amin (fun old B => if B.toInt < old.toInt then B else old) ∧
  rr .amax (fun old B => if old.toInt < B.toInt then B else old) ∧
  rr .aexch (fun _ B => B) ∧
  rc .aand (fun old B => old &&& B) ∧ rc .aor (fun old B => old ||| B) ∧ rc .axor (fun old B => old ^^^ B) ∧
  (∀ (c : BitVec 2) b a n d e, atomic (.acas c b a n d e) a n d fun th old =>
    if old = th.word (if c = 0 then d.toNat else 123 + c.toNat) then some (th.word (code5 b)) else none)

/-- R200 to R202, R254: full-empty loads and stores. -/
def Obligations.FullEmpty : Prop :=
  let full (s : State) (br : BRef) (off : Nat) : Bool := (s.block br).full.contains (off / 16)
  let free (s : State) (br : BRef) : Prop := (s.block br).gwait = [] ∧ Memory.wf (s.block br).cells = true
  let same (s s' : State) (br : BRef) : Prop :=
    (∀ c, c ≠ br → s'.block c = s.block c) ∧ (∀ g, (s'.block br).full.contains g = (s.block br).full.contains g) ∧
      Calm { s with blocks := s'.blocks } s'
  let waits (i : Instr) (s : State) (t : TRef) (br : BRef) : Prop :=
    Makes i s t (fun th' => th' = { s.thread t with st := .waiting .granule }) fun s' =>
      (s'.block br).cells = (s.block br).cells ∧ ((s'.block br).gwait.map GWait.who = [t]) ∧ same s s' br
  (∀ (o : BitVec 6) (sz : BitVec 3) a d s t, Alone (.stfe o sz a d) s t → Quiet s t →
    let th := s.thread t
    let z : Nat := 2 ^ sz.toNat
    let v : Nat := if sz.toNat < 3 then (th.word d.toNat).toNat else if sz = 3 then (th.pair d.toNat).toNat
      else ((th.group d.toNat (z / 4)).zipIdx.map fun x => x.1.toNat * 2 ^ (32 * x.2)).sum
    let addr := th.word a.toNat + BitVec.ofInt 32 (o.toInt * z)
    let chk := s.scratchOf t addr z z 1
    let i : Instr := .stfe o sz a d
    (16 < z → MayTrap s t → Faults i s t { code := 0x04, addr := addr.setWidth 64, acc := 1 }) ∧
    (z ≤ 16 → ∀ inf, chk = .error inf → MayTrap s t → Faults i s t inf) ∧
    (z ≤ 16 → ∀ s1 br off, chk = .ok (s1, .scr br off) → free s br →
      (full s br off = true → waits i s t br) ∧
      (full s br off = false →
        Makes i s t (fun th' => Delivered i th th' {}) fun s' =>
          (∀ x, cellGet (s'.block br).cells x = if off ≤ x ∧ x < off + z then BitVec.ofNat 8 (v / 256 ^ (x - off)) else cellGet (s.block br).cells x) ∧
          (∀ g, (s'.block br).full.contains g = (decide (g = off / 16) || (s.block br).full.contains g)) ∧
          s'.block br = { s.block br with cells := (s'.block br).cells, full := (s'.block br).full, poison := (s'.block br).poison } ∧
          (∀ c, c ≠ br → s'.block c = s.block c) ∧ Calm { s with blocks := s'.blocks } s'))) ∧
  (∀ (tk : Bool) (o : BitVec 5) (sz : BitVec 3) a n d s t, Alone (.ldfe tk o sz a n d) s t → Quiet s t →
    let th := s.thread t
    let z : Nat := 2 ^ sz.toNat
    let addr := th.word a.toNat + BitVec.ofInt 32 (o.toInt * z)
    let chk := s.scratchOf t addr z z 0
    let i : Instr := .ldfe tk o sz a n d
    (16 < z → MayTrap s t → Faults i s t { code := 0x04, addr := addr.setWidth 64 }) ∧
    (z ≤ 16 → ∀ inf, chk = .error inf → MayTrap s t → Faults i s t inf) ∧
    (z ≤ 16 → ∀ s1 br off, chk = .ok (s1, .scr br off) → free s br →
      (full s br off = false → waits i s t br) ∧
      (full s br off = true → scrPoison s br off z = false →
        let v := leValue ((List.range z).map fun j => cellGet (s.block br).cells (off + j))
        let n4 := if sz = 3 then 2 else if sz = 4 then 4 else 1
        let outs : List Out := if n then [] else
          [{ base := d.toNat, n := n4, named := false, past := false, exempt := false, src := .val ((List.range n4).map fun k => BitVec.ofNat 32 (v / 2 ^ (32 * k))) }]
        Makes i s t (fun th' => Delivered i { th with outs := outs } th' {}) fun s' =>
          s'.block br = { s.block br with full := (s'.block br).full } ∧
          (∀ g, (s'.block br).full.contains g = ((s.block br).full.contains g && !(tk && decide (g = off / 16)))) ∧
          (∀ c, c ≠ br → s'.block c = s.block c) ∧ Calm { s with blocks := s'.blocks } s')))

/-- R239, R240, R258, R259: SC operations and SCTIME. -/
def Obligations.ScOperations : Prop :=
  let needs (w : Bool) : Need := { acc := if w then 2 else 0, r := true, w := w, align := 4, noDev := true, cmpOk := false }
  let scop (i : Instr) (k : ScKind) (a : Code) (n : Bool) (d : Nat) (f : Thread → Word → Option Word) : Prop :=
    ∀ s t, Alone i s t → Quiet s t → MemInv s → (s.core t.core).scK < 2 ^ 48 - 1 → t.core < 2048 → (s.partn (s.ownOf t).part).epochGo = false →
      let th := s.thread t
      let chk := s.globalOf t (th.pair a.toNat) 4 (needs (decide (k ≠ .ld)))
      let ts : Stamp := ⟨(s.core t.core).scK + 1, t.core⟩
      let after (th : Thread) (outs : List Out) : Thread :=
        { th with scClock := BitVec.ofNat 48 ts.clk, scCore := BitVec.ofNat 11 t.core, outs := outs, sc := none }
      (∀ inf, chk = .error inf → MayTrap s t → Faults i s t inf) ∧
      (∀ s1 pa mt cmp, chk = .ok (s1, .glob pa mt cmp) → inDevice pa = false → pa % 128 ≤ 124 → NoCopies s t.core pa →
        HomeRoom s (s.ownOf t) pa cmp → homePoison s pa 4 = false →
        let old := BitVec.ofNat 32 (leValue (homeBytes s pa 4))
        let p := (s.ownOf t).part
        let st := stampAt s p (pa / 128)
        let later := st.clk < ts.clk ∨ (st.clk = ts.clk ∧ st.core < ts.core)
        let out (src : OutSrc) : List Out :=
          if k = .st ∨ n then [] else [{ base := d, n := 1, named := false, past := false, exempt := false, src := src }]
        (later → ∃ s', exec i s = .next s' ∧ stampAt s' p (pa / 128) = ts ∧ (s'.core t.core).scK = max ts.clk st.clk ∧
          (∃ th', s'.thread? t = some th' ∧ ∃ th0, (th0 = th ∨ th0 = th.fire (pa / 128) false) ∧ Delivered i (after th0 (out (.val [old]))) th' {}) ∧
          ∀ x, homeByte s' x = match f th old with
            | none => homeByte s x
            | some v => if pa ≤ x ∧ x < pa + 4 then BitVec.ofNat 8 (v.toNat / 256 ^ (x - pa)) else homeByte s x) ∧
        (¬later → ∃ s', exec i s = .next s' ∧ stampAt s' p (pa / 128) = st ∧ (s'.core t.core).scK = max ts.clk st.clk ∧
          (∃ th' op, s'.thread? t = some th' ∧ th'.sc = some op ∧ op.ts = ts ∧ op.pa = pa ∧ th'.g = th.g ∧
            th'.outs.map (fun o => (o.base, o.src)) = (out .sc).map fun o => (o.base, o.src)) ∧
          ∀ x, homeByte s' x = homeByte s x))
  (∀ a n d e, scop (.ldSc a n d e) .ld a n d.toNat fun _ _ => none) ∧
  (∀ b a e, scop (.stSc b a e) .st a false 0 fun th _ => some (th.word b.toNat)) ∧
  (∀ b a n d e, scop (.aaddSc b a n d e) .add a n d.toNat fun th old => some (BitVec.ofNat 32 (old.toNat + (th.word b.toNat).toNat))) ∧
  (∀ b a n d e, scop (.aexchSc b a n d e) .exch a n d.toNat fun th _ => some (th.word b.toNat)) ∧
  (∀ (c : BitVec 2) b a n d e, scop (.acasSc c b a n d e) .cas a n d.toNat fun th old =>
    if old = th.word (if c = 0 then d.toNat else 123 + c.toNat) then some (th.word (code5 b)) else none) ∧
  (∀ a n d e s t, Alone (.sctime a n d e) s t →
    let th := s.thread t
    let c := ((th.pair a.toNat).toNat) % 2 ^ 48
    let clk := max th.scClock.toNat c
    Makes (.sctime a n d e) s t (fun th' => Delivered (.sctime a n d e) { th with scClock := BitVec.ofNat 48 clk } th'
      (res2 n d.toNat (BitVec.ofNat 64 (clk + th.scCore.toNat * 2 ^ 48))))
      (Calm (s.modCore t.core fun x => { x with scK := max x.scK c })))

/-- R227 to R233, R260, R261, R334: the synchronisation objects and FENCE. The region's pages are in the core's TLB. An act on an object without
a region touches no line of L1 and RDC; a thread that reads a poisoned object is Halted with PAR. -/
def Obligations.SynchronisationActs : Prop :=
  let needs (acc : Nat) : Need := { acc := acc, r := decide (acc ≠ 1), w := decide (acc ≠ 0), align := 16, noDev := true, cmpOk := false }
  let addr (s : State) (t : TRef) (k : Bool) (a : Code) (acc : Nat) : Except TrapInfo Loc :=
    if k then (s.scratchOf t ((s.thread t).word a.toNat) 16 16 acc).map Prod.snd
    else (s.globalOf t ((s.thread t).pair a.toNat) 16 (needs acc)).map Prod.snd
  let bytes (s : State) : Loc → List Byte
    | .scr b off => scrRead s b off 16
    | .glob pa _ _ => homeBytes s pa 16
  let reached (s : State) (t : TRef) : Loc → Prop
    | .scr b _ => Memory.wf (s.block b).cells = true
    | .glob pa _ cmp => inDevice pa = false ∧ pa % 128 ≤ 112 ∧ HomeRoom s (s.ownOf t) pa cmp ∧ MemInv s
  let obj (s : State) (t : TRef) (k : Bool) (a : Code) (acc : Nat) (l : Loc) : SyncObj :=
    ⟨l, if k then ((s.thread t).word a.toNat).setWidth 64 else (s.thread t).pair a.toNat, acc, 2 * s.clock + s.curPort⟩
  let sound (s : State) : Loc → Prop
    | .scr b off => scrPoison s b off 16 = false
    | .glob pa _ _ => homePoison s pa 16 = false
  let struck (i : Instr) (s : State) (t : TRef) (l : Loc) : Prop := ¬sound s l → (s.thread t).leaven = false → ∃ s', exec i s = .next s' ∧
    (s'.thread? t).map Thread.st = some .halted ∧ (s'.err (s.ownOf t)).word = (s.err (s.ownOf t)).word ||| 4 ∧ bytes s' l = bytes s l
  let kept (s s' : State) (t : TRef) : Prop := (s'.core t.core).l1 = (s.core t.core).l1 ∧ s'.rdc = s.rdc
  let lineAt (s : State) (t : TRef) (va : Nat) (ln : Nat) : Prop := ∃ e, (s.core t.core).tlb.find? (fun e => e.covers (s.ownOf t) va) = some e ∧
    ln = (e.pbase + (va - e.vbase)) / 128
  let cached (s : State) (t : TRef) (base lines : Nat) : Prop := ∀ i < lines, ∃ ln, lineAt s t (base + 128 * i) ln
  let ends (i : Instr) (s : State) (t : TRef) (F : State → Prop) : Prop := ∃ s', exec i s = .next s' ∧
    (∃ th' w, s'.thread? t = some th' ∧ Delivered i { s.thread t with watch := w } th' {}) ∧
    (∀ u, u ≠ t → (s'.thread? u).map (fun x => { x with watch := {} }) = (s.thread? u).map fun x => { x with watch := {} }) ∧ F s'
  let waits (i : Instr) (s : State) (t : TRef) (op : SyncOp) : Prop :=
    Makes i s t (fun th' => th' = { s.thread t with st := .waiting (.access op) }) (Calm s)
  (∀ (k : Bool) a (sc : BitVec 3) s t, Alone (.rel k a sc) s t →
    (∀ inf, addr s t k a 2 = .error inf → MayTrap s t → Faults (.rel k a sc) s t inf) ∧
    (∀ l, addr s t k a 2 = .ok l →
      (s.defer = true → waits (.rel k a sc) s t (.rel sc.toNat (obj s t k a 2 l))) ∧
      (Quiet s t → reached s t l → struck (.rel k a sc) s t l) ∧
      (Quiet s t → reached s t l → sound s l → sc.toNat < 3 ∨ regionOf (bytes s l) = .none →
        ends (.rel k a sc) s t fun s' => field (bytes s' l) 12 4 = (field (bytes s l) 12 4 + 1) % 2 ^ 32 ∧
          (bytes s' l).take 12 = (bytes s l).take 12 ∧ kept s s' t) ∧
      (Quiet s t → reached s t l → sound s l → ∀ base lines, regionOf (bytes s l) = .glob base lines → cached s t base lines →
        ends (.rel k a sc) s t fun s' => ∀ i < lines, ∀ ln, lineAt s t (base + 128 * i) ln →
          (3 ≤ sc.toNat → ∀ x, l1find s' t.core ln = some x → x.bytes.any LByte.dirty = false) ∧
          (5 ≤ sc.toNat → ∀ x, rdcfind s' (dieOf t.core) ln = some x → x.bytes.any LByte.dirty = false)))) ∧
  (∀ (k : Bool) a (sc : BitVec 3) s t, Alone (.acq k a sc) s t →
    (∀ inf, addr s t k a 0 = .error inf → MayTrap s t → Faults (.acq k a sc) s t inf) ∧
    (∀ l, addr s t k a 0 = .ok l →
      (s.defer = true → waits (.acq k a sc) s t (.acq sc.toNat (obj s t k a 0 l))) ∧
      (Quiet s t → reached s t l → struck (.acq k a sc) s t l) ∧
      (Quiet s t → reached s t l → sound s l → sc.toNat < 3 ∨ regionOf (bytes s l) = .none →
        ends (.acq k a sc) s t fun s' => bytes s' l = bytes s l ∧ kept s s' t) ∧
      (Quiet s t → reached s t l → sound s l → ∀ base lines, regionOf (bytes s l) = .glob base lines → cached s t base lines →
        ends (.acq k a sc) s t fun s' => ∀ i < lines, ∀ ln, lineAt s t (base + 128 * i) ln →
          (3 ≤ sc.toNat → l1find s' t.core ln = none) ∧ (5 ≤ sc.toNat → rdcfind s' (dieOf t.core) ln = none)))) ∧
  (∀ (sc : BitVec 3) s t, Alone (.fence sc) s t →
    (s.defer = true → waits (.fence sc) s t (.fence sc.toNat)) ∧
    (Quiet s t → ends (.fence sc) s t fun s' =>
      (3 ≤ sc.toNat → ∀ ln, l1find s' t.core ln = none) ∧ (5 ≤ sc.toNat → ∀ ln, rdcfind s' (dieOf t.core) ln = none))) ∧
  (∀ b a (k : Bool) e s t, Alone (.bind b a k e) s t →
    let th := s.thread t
    let w := (List.range 12).map fun j => BitVec.ofNat 8 (((th.group b.toNat 4).getD (j / 4) 0).toNat / 256 ^ (j % 4))
    (∀ inf, addr s t k a 1 = .error inf → MayTrap s t → Faults (.bind b a k e) s t inf) ∧
    (∀ l, addr s t k a 1 = .ok l → Quiet s t → reached s t l →
      ends (.bind b a k e) s t fun s' => bytes s' l = w ++ (bytes s l).drop 12))

/-- R213 to R217: a translation that no cache holds, over table entries in memory; a table that stands where its partition holds no memory is the
model's choice (log 78). R222, R223: the invalidation of translations by threads, and of the stage-1 table entries that clusters cache. TLBIB
retires at once here because no SC operation of its partition is outstanding. -/
def Obligations.TranslationInvalidation : Prop :=
  let hits (o : Own) (k : BitVec 2) (va : Dword) (e : TlbEnt) : Prop :=
    e.part = o.part ∧ e.tenant = o.tenant ∧ (k = 0 → e.vbase ≤ va.toNat ∧ va.toNat < e.vbase + e.size)
  let table (o : Own) (k : BitVec 2) (va : Dword) (w : WalkEnt) : Prop :=
    w.stage = 0 ∧ w.part = o.part ∧ w.tenant = o.tenant ∧ (k = 0 → w.high = va.toNat / 2 ^ (39 - 9 * w.level))
  let bad (va : Dword) (k : BitVec 2) : Prop := k = 0 ∧ 2 ^ 48 ≤ va.toNat
  (∀ s c (o : Own) va ctx, (∀ x ∈ (s.core c).tlb, x.covers o va = false) → (∀ x ∈ s.ctlb, x.1 = clusterOf c → x.2.covers o va = false) →
    (∀ x ∈ s.cwalk, x.1 ≠ clusterOf c) → (s.partn o.part).ctx o.tenant = some ctx →
    let size (level e : Nat) : Nat := if level = 1 then 2 ^ 30 else if level = 2 then 2 ^ 21 else if e.testBit 11 then 2 ^ 16 else 2 ^ 12
    let page (level e a : Nat) : Nat := e / 2 ^ 12 % 2 ^ 36 * 2 ^ 12 + a % size level e
    let word (stage level pa : Nat) : Except (Nat × Nat) Nat :=
      if present s o.part pa = true ∧ inDevice pa = false then .ok (leValue (homeBytes s pa 8)) else .error (stage, level)
    let root := (s.partn o.part).s2root
    let host (ipa : Nat) (x : Except (Nat × Nat) (Nat × Nat)) : Prop :=
      if root.getLsbD 0 then Walked 1 (fun level pa y => y = word 1 level pa) (root.toNat / 2 ^ 12 % 2 ^ 36 * 2 ^ 12) ipa x else x = .error (1, 0)
    let guest : Except (Nat × Nat) (Nat × Nat) → Prop := Walked 0 (fun level ipa y => (∃ z, host ipa (.error z) ∧ y = .error z) ∨
      ∃ n e, host ipa (.ok (n, e)) ∧ y = word 0 level (page n e ipa)) ctx.s1root va
    (∀ x, guest (.error x) → translate s c o va = .error x) ∧
    (∀ n e, guest (.ok (n, e)) → let ipa := page n e va
      (∀ x, host ipa (.error x) → translate s c o va = .error x) ∧
      (∀ m f, host ipa (.ok (m, f)) → ∃ r, translate s c o va = .ok r ∧ r.covers o va = true ∧ r.pbase + (va - r.vbase) = page m f ipa ∧
        r.size = min (size n e) (size m f) ∧ r.vbase % r.size = 0 ∧ r.r1 = e.testBit 2 ∧ r.w1 = e.testBit 3 ∧ r.x1 = e.testBit 4 ∧
        r.r2 = f.testBit 2 ∧ r.w2 = f.testBit 3 ∧ r.x2 = f.testBit 4 ∧ r.mt = max (e / 2 ^ 5 % 4) (f / 2 ^ 5 % 4) ∧ r.cmp = e.testBit 56 ∧ r.layout = e / 2 ^ 57 % 8))) ∧
  (∀ a k s t, Alone (.tlbib a k) s t →
    let va := (s.thread t).pair a.toNat
    let o := s.ownOf t
    (bad va k → MayTrap s t → Faults (.tlbib a k) s t { code := 0x01, addr := va }) ∧
    (¬bad va k → s.defer = true →
      Makes (.tlbib a k) s t (fun th' => th' = { s.thread t with st := .waiting (.access (.tlbib (k != 0) va)) }) (Calm s)) ∧
    (¬bad va k → Quiet s t → (∀ x ∈ s.threads, (s.ownOf x.1).part = o.part → x.2.sc = none) → ∃ s', exec (.tlbib a k) s = .next s' ∧
      (s'.thread? t).map (fun x => (x.g, x.pc, x.aflags)) = some ((s.thread t).g, (s.thread t).pc + 4, (s.thread t).aflags) ∧
      ∀ c ∈ s.coresOf o.part, (∀ e ∈ (s'.core c).tlb, ¬hits o k va e) ∧ (∀ x ∈ s'.ctlb, x.1 = clusterOf c → ¬hits o k va x.2) ∧
        ∀ x ∈ s'.cwalk, x.1 = clusterOf c → ¬table o k va x.2)) ∧
  (∀ a k e s t, Alone (.tlbil a k e) s t →
    let va := (s.thread t).pair a.toNat
    let o := s.ownOf t
    (bad va k → MayTrap s t → Faults (.tlbil a k e) s t { code := 0x01, addr := va }) ∧
    (¬bad va k → Makes (.tlbil a k e) s t (fun th' => Delivered (.tlbil a k e) (s.thread t) th' {}) fun s' =>
      Calm s s' ∧ (∀ x ∈ (s'.core t.core).tlb, ¬hits o k va x) ∧ (∀ x ∈ s'.ctlb, x.1 = clusterOf t.core → ¬hits o k va x.2) ∧
      (∀ x ∈ s'.cwalk, x.1 = clusterOf t.core → ¬table o k va x.2) ∧
      (∀ x ∈ s.cwalk, x.1 ≠ clusterOf t.core ∨ ¬table o k va x.2 → x ∈ s'.cwalk) ∧
      (∀ c, c ≠ t.core → (s'.core c).tlb = (s.core c).tlb) ∧
      ∀ x ∈ s.ctlb, x.1 ≠ clusterOf t.core → x ∈ s'.ctlb))

/-- R262, R263: watches. -/
def Obligations.WatchAndDoze : Prop :=
  let needs : Need := { acc := 0, r := true, w := false, align := 1, noDev := true, cmpOk := true }
  (∀ a e s t, Alone (.watch a e) s t →
    let th := s.thread t
    let chk := s.globalOf t (th.pair a.toNat) 1 needs
    (∀ inf, chk = .error inf → MayTrap s t → Faults (.watch a e) s t inf) ∧
    (∀ s1 pa mt cmp, chk = .ok (s1, .glob pa mt cmp) →
      let used := ((s.modThread t fun x => { x with watch := {} }).tracked (pa / 128))
      Makes (.watch a e) s t (fun th' => Delivered (.watch a e)
        { th with watch := { line := pa / 128, armed := true, fired := false, lost := false,
                             spur := !used.contains (pa / 128) && decide (256 ≤ used.length),
                             tracked := used.contains (pa / 128) || decide (used.length < 256) } } th' {}) (Calm s))) ∧
  (∀ a n d s t, Alone (.doze a n d) s t →
    let th := s.thread t
    let w := th.watch
    let gives (v : Word) : Prop :=
      Makes (.doze a n d) s t (fun th' => Delivered (.doze a n d) { th with watch := {} } th' (res1 n d.toNat v)) (Calm s)
    (w.lost = true → gives 4) ∧
    (w.lost = false → w.armed = false → gives 8) ∧
    (w.lost = false → w.armed = true → w.fired = true → gives 1) ∧
    (w.lost = false → w.armed = true → w.fired = false → w.spur = true → gives 16) ∧
    (w.lost = false → w.armed = true → w.fired = false → w.spur = false →
      Makes (.doze a n d) s t (fun th' => th' = { th with st := .waiting (.doze s.clock (th.word a.toNat).toNat d.toNat n) }) (Calm s))) ∧
  (∀ s t th since limit d n, s.arg.t = t → s.thread? t = some th → th.st = .waiting (.doze since limit d n) →
    (limit ≠ 0 → since + limit ≤ s.clock → th.watch.fired = false → th.watch.spur = false →
      ∃ s' th', exec .dozeTimeout s = .next s' ∧ s'.thread? t = some th' ∧ (∀ u, u ≠ t → s'.thread? u = s.thread? u) ∧
        Delivered (.doze 0 n (BitVec.ofNat 7 d)) { th with watch := {} } th' (res1 n d 2) ∧ Calm s s') ∧
    (limit = 0 ∨ s.clock < since + limit → exec .dozeTimeout s = .next s))

/-- R191, R196 to R198, R203: the carve-out. The ways taken are the lowest of the cache: the model's choice (log 59); R196 names none. A
growth zeroes them and leaves every granule of theirs empty; a shrink is stated where no thread waits at a range or an object. -/
def Obligations.CarveWays : Prop :=
  ∀ a n d s t, Alone (.carve a n d) s t →
    let th := s.thread t
    let want := (th.word a.toNat).toNat
    let br := s.blkOf t
    let b := s.block br
    let cur := b.cways.length
    let free := (cacheWays s b.core).length
    let word (s' : State) (fail : Bool) : Word := BitVec.ofNat 32 ((if fail then 2 ^ 31 else 0) +
      (cacheWays s' b.core).length * 2 ^ 16 + b.pways.length * 2 ^ 8 + (s'.block br).cways.length)
    let done (fail : Bool) (F : State → Prop) : Prop := ∃ s', exec (.carve a n d) s = .next s' ∧
      (∃ th' w, s'.thread? t = some th' ∧ Delivered (.carve a n d) { th with watch := w } th' (res1 n d.toNat (word s' fail))) ∧
      (∀ c, c ≠ br → s'.block c = s.block c) ∧ F s'
    (20 < want + b.pways.length → MayTrap s t → Faults (.carve a n d) s t { code := 0x05, addr := BitVec.ofNat 64 want }) ∧
    (want + b.pways.length ≤ 20 → Quiet s t → s.block? br = some b → t.core = b.core → s.carveOrders t.core = [] → b.q0 = [] → b.q4 = [] →
      (s.core b.core).copies = [] → (s.core b.core).runs = [] → (s.core b.core).swapped = false → Memory.wf b.cells = true →
      let kept (s' : State) (lo hi : Nat) : Prop :=
        s'.block br = { b with cways := (s'.block br).cways, cells := (s'.block br).cells, full := (s'.block br).full,
                               poison := (s'.block br).poison, acq := (s'.block br).acq, rast := (s'.block br).rast } ∧
        (∀ x, cellGet (s'.block br).cells x = if lo ≤ x ∧ x < hi then 0 else cellGet b.cells x) ∧
        (∀ g, g ∈ (s'.block br).full ↔ g ∈ b.full ∧ ¬(lo ≤ 16 * g ∧ 16 * g < hi)) ∧
        ∀ w, w ∈ (s'.block br).poison ↔ w ∈ b.poison ∧ ¬(lo ≤ 8 * w ∧ 8 * w < hi)
      (cur < want → free < want - cur + 4 → done true fun s' => s'.block br = b ∧ s'.mem = s.mem ∧ s'.l2 = s.l2) ∧
      (cur < want → want - cur + 4 ≤ free → done false fun s' =>
        (s'.block br).cways = b.cways ++ (cacheWays s b.core).take (want - cur) ∧
        kept s' (b.carveBase + 16384 * cur) (b.carveBase + 16384 * want) ∧ ∀ l ∈ (s'.core b.core).l1, l.way ∉ (cacheWays s b.core).take (want - cur)) ∧
      (want = cur → done false fun s' => s'.block br = b ∧ s'.mem = s.mem ∧ s'.l2 = s.l2) ∧
      (want < cur → b.gwait = [] →
        (∀ x ∈ s.threads, x.2.outs = [] ∧ x.2.stores = [] ∧
          match x.2.st with | .waiting (.access _) => False | .waiting .granule => False | .waiting (.object ..) => False | .waiting (.queue _) => False | _ => True) →
        done false fun s' => (s'.block br).cways = b.cways.take want ∧
          kept s' (b.carveBase + 16384 * want) (b.carveBase + 16384 * cur)))

/-- R271, R272: QPUSH, QPOP and QPOLL, on the queues of 8-byte entries. An entry that is taken is not poisoned (R334). -/
def Obligations.QueueInstructions : Prop :=
  let depth (q : Nat) : Nat := if q = 3 ∨ q = 5 then 16 else 64
  let holds (s s' : State) (br : BRef) (q : Nat) (l : List Dword) (waiters : List TRef) (taken : Nat := 0) : Prop :=
    (∀ p i, (p, i) ∈ (s'.block br).qbad ↔ (p, if p = q then i + taken else i) ∈ (s.block br).qbad) ∧
    (s'.block br).q8of q = l ∧ (∀ p, p ≠ q → (s'.block br).q8of p = (s.block br).q8of p) ∧ (s'.block br).qwait.map QWait.who = waiters.map (fun t => [t]) ∧
      s'.block br = { s.block br with q2 := (s'.block br).q2, q3 := (s'.block br).q3, q5 := (s'.block br).q5, q8 := (s'.block br).q8, q9 := (s'.block br).q9, q10 := (s'.block br).q10, q11 := (s'.block br).q11, qwait := (s'.block br).qwait,
                                      qbad := (s'.block br).qbad } ∧
      (∀ c, c ≠ br → s'.block c = s.block c) ∧ Calm { s with blocks := s'.blocks } s'
  let idle (s : State) (br : BRef) : Prop := (s.block? br).isSome = true ∧ (s.block br).qwait = []
  (∀ q a s t, Alone (.qpush q a) s t → Quiet s t → idle s (s.blkOf t) →
    let th := s.thread t
    let br := s.blkOf t
    let l := (s.block br).q8of q.toNat
    (l.length < depth q.toNat → Makes (.qpush q a) s t (fun th' => Delivered (.qpush q a) th th' {})
      fun s' => holds s s' br q.toNat (l ++ [th.pair a.toNat]) []) ∧
    (depth q.toNat ≤ l.length → Makes (.qpush q a) s t (fun th' => th' = { th with st := .waiting (.queue q.toNat) })
      fun s' => holds s s' br q.toNat l [t])) ∧
  (∀ q n d s t, Alone (.qpop q n d) s t → idle s (s.blkOf t) →
    let th := s.thread t
    let br := s.blkOf t
    ((s.block br).q8of q.toNat = [] → Makes (.qpop q n d) s t (fun th' => th' = { th with st := .waiting (.queue q.toNat) })
      fun s' => holds s s' br q.toNat [] [t]) ∧
    (∀ v rest, (s.block br).q8of q.toNat = v :: rest → (q.toNat, 0) ∉ (s.block br).qbad →
      let outs : List Out := if n then th.outs else
        th.outs ++ [{ base := d.toNat, n := 2, named := false, past := false, exempt := false, src := .val [v.setWidth 32, (v >>> 32).setWidth 32] }]
      Makes (.qpop q n d) s t (fun th' => Delivered (.qpop q n d) { th with outs := outs } th' {}) fun s' => holds s s' br q.toNat rest [] 1)) ∧
  (∀ q p n d e s t, Alone (.qpoll q p n d e) s t → idle s (s.blkOf t) →
    let th := s.thread t
    let br := s.blkOf t
    let gives (v : Dword) (ok : Bool) (l : List Dword) (taken : Nat) : Prop :=
      Makes (.qpoll q p n d e) s t (fun th' => Delivered (.qpoll q p n d e) th th' { res2 n d.toNat v with preds := [(p.toNat, ok)] })
        fun s' => holds s s' br q.toNat l [] taken
    ((s.block br).q8of q.toNat = [] → gives 0 false [] 0) ∧
    (∀ v rest, (s.block br).q8of q.toNat = v :: rest → (q.toNat, 0) ∉ (s.block br).qbad → gives v true rest 1))

/-- R279, R297, R304: the pushes of engine commands, and the chains. -/
def Obligations.EngineCommandPushes : Prop :=
  let idle (s : State) (br : BRef) : Prop := (s.block? br).isSome = true ∧ (s.block br).qwait = []
  let calm (s s' : State) (br : BRef) : Prop := (∀ c, c ≠ br → s'.block c = s.block c) ∧ Calm { s with blocks := s'.blocks } s'
  (∀ a s t, Alone (.cpiss a) s t →
    let th := s.thread t
    let br := s.blkOf t
    let chk := s.scratchOf t (th.word a.toNat) 64 64 0
    (∀ inf, chk = .error inf → MayTrap s t → Faults (.cpiss a) s t inf) ∧
    (∀ s1 db off, chk = .ok (s1, .scr db off) → Quiet s t → idle s br → scrPoison s db off 64 = false →
      ((s.block br).q4.length < 8 → Makes (.cpiss a) s t (fun th' => Delivered (.cpiss a) th th' {}) fun s' =>
        s'.block br = { s.block br with q4 := (s.block br).q4 ++ [(List.range 64).map fun j => cellGet (s.block db).cells (off + j)] } ∧ calm s s' br) ∧
      (8 ≤ (s.block br).q4.length → Makes (.cpiss a) s t (fun th' => th' = { th with st := .waiting (.queue 4) }) fun s' =>
        (s'.block br).q4 = (s.block br).q4 ∧ (s'.block br).qwait.map QWait.who = [[t]] ∧ calm s s' br))) ∧
  (∀ a s t, Alone (.mxiss a) s t →
    let th := s.thread t
    let br := s.blkOf t
    let addr := th.word a.toNat
    let b := s.block br
    let chk := s.scratchOf t addr 64 64 0
    let entry : MxEntry := {
      addr := addr, tbl := (List.range 8).map fun j => ((s.warp t.core t.slot).k[48 + j]?).getD 0,
      tag0 := if b.open0 then some (b.chain0 % 2 ^ 31) else none, tag1 := if b.open1 then some (b.chain1 % 2 ^ 31) else none }
    (∀ inf, chk = .error inf → MayTrap s t → Faults (.mxiss a) s t inf) ∧
    (∀ r, chk = .ok r → Quiet s t → idle s br →
      (b.q0.length < 8 → Makes (.mxiss a) s t (fun th' => Delivered (.mxiss a) th th' {}) fun s' =>
        s'.block br = { b with q0 := b.q0 ++ [entry] } ∧ calm s s' br) ∧
      (8 ≤ b.q0.length → Makes (.mxiss a) s t (fun th' => th' = { th with st := .waiting (.queue 0) }) fun s' =>
        (s'.block br).q0 = b.q0 ∧ (s'.block br).qwait = [⟨0, [t], .entry entry⟩] ∧ calm s s' br))) ∧
  (∀ (x : Bool) e s t, Alone (.chbeg x e) s t → (s.block? (s.blkOf t)).isSome = true →
    let br := s.blkOf t
    let b := s.block br
    Makes (.chbeg x e) s t (fun th' => Delivered (.chbeg x e) (s.thread t) th' {}) fun s' =>
      s'.block br = (if x then { b with chain1 := b.chain1 + 1, open1 := true } else { b with chain0 := b.chain0 + 1, open0 := true }) ∧ calm s s' br) ∧
  (∀ (x : Bool) e s t, Alone (.chend x e) s t → (s.block? (s.blkOf t)).isSome = true →
    let br := s.blkOf t
    let b := s.block br
    Makes (.chend x e) s t (fun th' => Delivered (.chend x e) (s.thread t) th' {}) fun s' =>
      s'.block br = (if x then { b with open1 := false } else { b with open0 := false }) ∧ calm s s' br)

/-- R274 to R277, R334: barrier objects; a thread that reads a poisoned one is Halted with PAR. -/
def Obligations.BarrierObjects : Prop :=
  let at_ (s : State) (br : BRef) (off : Nat) : Obj :=
    let f (i n : Nat) : Nat := leValue ((List.range n).map fun j => cellGet (s.block br).cells (off + i + j))
    { expect := f 0 4, count := f 4 4, arrx := f 8 2, arrived := f 10 2, phase := f 12 1 % 2 = 1, err := f 12 1 / 2 % 2 = 1, rest := f 12 1 / 4,
      ecode := f 13 1, phcnt := f 14 2 }
  let checked (o : Obj) : Obj :=
    if o.err = false ∧ o.arrx ≤ o.arrived ∧ o.expect ≤ o.count then
      if o.expect < o.count then { o with err := true, ecode := 1 }
      else { o with phcnt := (o.phcnt + 1) % 65536, phase := (o.phcnt + 1) % 2 = 1, expect := 0, count := 0, arrived := 0 }
    else o
  let alone (s : State) (br : BRef) (off : Nat) : Prop :=
    Memory.wf (s.block br).cells = true ∧ (∀ x ∈ s.cores, x.2.runs = []) ∧
      ∀ x ∈ s.threads, match x.2.st with | .waiting (.object b o _ _ _) => ¬(b = br ∧ o = off) | _ => True
  let becomes (i : Instr) (s : State) (t : TRef) (br : BRef) (off : Nat) (o : Obj) : Prop :=
    Makes i s t (fun th' => Delivered i (s.thread t) th' {}) fun s' => at_ s' br off = o ∧
      (∀ c x, c ≠ br ∨ x < off ∨ off + 16 ≤ x → cellGet (s'.block c).cells x = cellGet (s.block c).cells x) ∧
      (∀ c, s'.block c = { s.block c with cells := (s'.block c).cells, poison := (s'.block c).poison, acq := (s'.block c).acq }) ∧
      Calm { s with blocks := s'.blocks } s'
  let struck (i : Instr) (s : State) (t : TRef) (br : BRef) (off : Nat) : Prop := scrPoison s br off 16 = true → (s.thread t).leaven = false → ∃ s', exec i s = .next s' ∧
    (s'.thread? t).map Thread.st = some .halted ∧ (s'.err (s.ownOf t)).word = (s.err (s.ownOf t)).word ||| 4 ∧ at_ s' br off = at_ s br off
  (∀ b a e s t, Alone (.boinit b a e) s t → Quiet s t →
    let x := ((s.thread t).word b.toNat).toNat
    let chk := s.scratchOf t ((s.thread t).word a.toNat) 16 16 2
    (∀ inf, chk = .error inf → MayTrap s t → Faults (.boinit b a e) s t inf) ∧
    (∀ s1 br off, chk = .ok (s1, .scr br off) →
      (x = 0 ∨ 65535 < x → MayTrap s t → Faults (.boinit b a e) s t { code := 0x05, addr := BitVec.ofNat 64 x }) ∧
      (0 < x → x ≤ 65535 → alone s br off → becomes (.boinit b a e) s t br off
        { expect := 0, count := 0, arrx := x, arrived := 0, phase := false, err := false, rest := 0, ecode := 0, phcnt := 0 }))) ∧
  (∀ b a e s t, Alone (.boexp b a e) s t → Quiet s t →
    let x := ((s.thread t).word b.toNat).toNat
    let chk := s.scratchOf t ((s.thread t).word a.toNat) 16 16 2
    (∀ inf, chk = .error inf → MayTrap s t → Faults (.boexp b a e) s t inf) ∧
    (∀ s1 br off, chk = .ok (s1, .scr br off) → struck (.boexp b a e) s t br off) ∧
    (∀ s1 br off, chk = .ok (s1, .scr br off) → scrPoison s br off 16 = false → alone s br off →
      let o := at_ s br off
      becomes (.boexp b a e) s t br off (checked { o with expect := (o.expect + x) % 2 ^ 32 }))) ∧
  (∀ a e s t, Alone (.boarr a e) s t → Quiet s t →
    let chk := s.scratchOf t ((s.thread t).word a.toNat) 16 16 2
    (∀ inf, chk = .error inf → MayTrap s t → Faults (.boarr a e) s t inf) ∧
    (∀ s1 br off, chk = .ok (s1, .scr br off) → struck (.boarr a e) s t br off) ∧
    (∀ s1 br off, chk = .ok (s1, .scr br off) → scrPoison s br off 16 = false → alone s br off →
      let o := at_ s br off
      becomes (.boarr a e) s t br off (checked { o with arrived := (o.arrived + 1) % 65536 }))) ∧
  (∀ (i : Instr) a s t (par : Bool) (pd : Option (BitVec 2)),
    (∃ b, i = .waitph b a ∧ par = ((s.thread t).word b.toNat).getLsbD 0 ∧ pd = none) ∨ (∃ p, i = .waitphSt a par p ∧ pd = some p) →
    Alone i s t → Quiet s t →
    let th := s.thread t
    let addr := th.word a.toNat
    let chk := s.scratchOf t addr 16 16 0
    (∀ inf, chk = .error inf → MayTrap s t → Faults i s t inf) ∧
    (∀ s1 br off, chk = .ok (s1, .scr br off) → struck i s t br off) ∧
    (∀ s1 br off, chk = .ok (s1, .scr br off) → scrPoison s br off 16 = false → tget (s.block br).acq off = none →
      let o := at_ s br off
      (o.err = true → pd = none → MayTrap s t →
        Makes i s t (fun th' => Trapped th th' { code := 0x07, addr := addr.setWidth 64, ecode := BitVec.ofNat 8 o.ecode } false) (Calm s)) ∧
      (o.err = true → ∀ p, pd = some p → Makes i s t (fun th' => Delivered i th th' { preds := [(p.toNat, false)] }) (Calm s)) ∧
      (o.err = false → o.phase ≠ par →
        Makes i s t (fun th' => Delivered i th th' { preds := (match pd with | none => [] | some p => [(p.toNat, true)]) }) (Calm s)) ∧
      (o.err = false → o.phase = par → Makes i s t (fun th' => th' = { th with st := .waiting (.object br off addr par pd) }) (Calm s))))

/-- R167 to R170: the workgroup barriers. The block's slots all hold live threads, so that no slot counts as vacated. What the arrival of a warp in a
slot that the block took only by kneading marks, which R168 does not give, is the model's choice (log 63). -/
def Obligations.WorkgroupBarriers : Prop :=
  let ready (s : State) (t : TRef) (b : Nat) (x : Bar) : Prop :=
    (s.warp? t.core t.slot).isSome = true ∧ (s.block? (s.blkOf t)).isSome = true ∧ (s.block (s.blkOf t)).bars[b]? = some x ∧
      ∀ sl ∈ (s.block (s.blkOf t)).slots, s.slotLive (s.block (s.blkOf t)).core sl = true
  let bars (s s' : State) (br : BRef) (b : Nat) (x : Bar) : Prop :=
    (∀ k, (s'.block br).bars[k]? = if k = b then some x else (s.block br).bars[k]?) ∧
      s'.block br = { s.block br with bars := (s'.block br).bars } ∧ (∀ c, c ≠ br → s'.block c = s.block c) ∧ s'.mem = s.mem ∧ s'.l2 = s.l2
  let arrives (i : Instr) (b : Nat) (waits : Bool) : Prop :=
    ∀ s t x, Alone i s t → Quiet s t → ready s t b x → t.slot ∉ x.bits →
      let th := s.thread t
      let br := s.blkOf t
      let held : Thread := { th with tokens := tput th.tokens b x.phase }
      (x.arrived + 1 < x.x →
        Makes i s t (fun th' => if waits then th' = { held with st := .waiting (.barrier b) } else Delivered i held th' {})
          fun s' => bars s s' br b { x with bits := x.bits ++ [t.slot], arrived := x.arrived + 1 }) ∧
      (x.x ≤ x.arrived + 1 → ∃ s', exec i s = .next s' ∧
        (∃ th', s'.thread? t = some th' ∧ Delivered i { held with tokens := held.tokens.filter fun y => y.1 ≠ b } th' {}) ∧
        (∀ u, u ≠ t → s'.thread? u = (s.thread? u).map fun y => if s.blkOf u = br ∧ (s.warp? u.core u.slot).isSome = true then y.flipped b else y) ∧
        bars s s' br b { x with bits := [], arrived := 0, phase := !x.phase })
  (∀ b : BitVec 4, arrives (.barSync b) b.toNat true) ∧
  (∀ (b : BitVec 4) e, arrives (.barArrive b e) b.toNat false) ∧
  (∀ (b : BitVec 4) s t, Alone (.barWait b) s t →
    let th := s.thread t
    let now := ∃ ph x, tget th.tokens b.toNat = some ph ∧ (s.block (s.blkOf t)).bars[b.toNat]? = some x ∧ x.phase = ph
    (now → Makes (.barWait b) s t (fun th' => th' = { th with st := .waiting (.barrier b.toNat) }) (Calm s)) ∧
    (¬now → Makes (.barWait b) s t (fun th' => Delivered (.barWait b) th th' {}) (Calm s))) ∧
  (∀ (b : BitVec 4) a e s t, Alone (.barInit b a e) s t →
    let th := s.thread t
    let n := (th.word a.toNat).toNat
    let br := s.blkOf t
    (n = 0 ∨ (s.block br).nwarps < n → MayTrap s t → Faults (.barInit b a e) s t { code := 0x05, addr := (th.word a.toNat).setWidth 64 }) ∧
    (0 < n → n ≤ (s.block br).nwarps → ∀ x, (s.block? br).isSome = true → (s.block br).bars[b.toNat]? = some x →
      Makes (.barInit b a e) s t (fun th' => Delivered (.barInit b a e) th th' {})
        fun s' => bars s s' br b.toNat { x with x := n, arrived := 0, bits := [] }))

/-- R157 to R159, R164, R165: the cross-lane instructions that complete in place. The tree sum of R78 is `treeSum`; its first
clause says what that is: level by level the sums of adjacent values, with the flags of all 31 additions. -/
def Obligations.CrossLaneInstructions : Prop :=
  let meet (i : Instr) (f : State → (need : List Nat) → (Nat → Thread) → (absent : Word) → (l : Nat) → Thread → Res) : Prop :=
    ∀ s c sl, Clean i s → (match (s.warp c sl).gen with | none => True | some g => g.consume = true) →
      (WholeNeed s c sl → Gives i s fun t th =>
        f s (groupLanes s) (fun l => s.thread (laneRef c sl l)) (laneMask ((List.range 32).filter fun l => (s.members c sl).getLsbD l && !s.laneLive c sl l)) t.lane th) ∧
      (∀ t, s.group = [t] → t.core = c → t.slot = sl → t.lane < 32 → (s.thread t).trap.isSome = true → (s.warp c sl).arrs = [] →
        Gives i s fun t th => f s [t.lane] (fun _ => th) 0 t.lane th)
  let one (n : Bool) (d : Code) (v : Word) : Res := res1 n d.toNat v
  let two (n : Bool) (d : Code) (lo hi : Word) : Res := res2 n d.toNat (pairOf lo hi)
  let bit (b : Bool) : Word := if b then 1 else 0
  (∀ leaf : Nat → Word, ∃ (v : Nat → Nat → Nat) (fl : Nat → Nat → Flags),
    (∀ k < 32, v 0 k = (leaf k).toNat) ∧
    (∀ w < 5, ∀ i < 2 ^ (4 - w), Sums FP32 (decodeF FP32 (v w (2 * i))) (decodeF FP32 (v w (2 * i + 1))) (v (w + 1) i, fl w i)) ∧
    treeSum 5 ((List.range 32).map fun k => (leaf k).toNat) 0 =
      (v 5 0, ((List.range 5).flatMap fun w => (List.range (2 ^ (4 - w))).map (fl w)).foldl (· ||| ·) 0)) ∧
  let total (l : List Word) : Word := l.sum
  let shuffle (i : Code → Code → Bool → Code → Bool → Instr) (src : Nat → Nat → Option Nat) : Prop :=
    ∀ b a n d e, meet (i b a n d e) fun _ need at_ _ l th =>
      one n d (match src l ((th.word b.toNat).toNat % 32) with
        | some k => if k ∈ need then (at_ k).word a.toNat else th.word a.toNat
        | none => th.word a.toNat)
  shuffle .shflIdx (fun _ b => some b) ∧
  shuffle .shflUp (fun l b => if b ≤ l then some (l - b) else none) ∧
  shuffle .shflDown (fun l b => if l + b ≤ 31 then some (l + b) else none) ∧
  shuffle .shflXor (fun l b => some (l ^^^ b)) ∧
  (∀ p n d e, meet (.voteAny p n d e) fun _ need at_ _ _ _ => one n d (bit (need.any fun k => (at_ k).pred p.toNat))) ∧
  (∀ p n d e, meet (.voteAll p n d e) fun _ need at_ _ _ _ => one n d (bit (need.all fun k => (at_ k).pred p.toNat))) ∧
  (∀ p n d e, meet (.voteBallot p n d e) fun _ need at_ absent _ _ => two n d (laneMask (need.filter fun k => (at_ k).pred p.toNat)) absent) ∧
  (∀ a n d e, meet (.voteUni a n d e) fun _ need at_ _ _ th => one n d (bit (need.all fun k => decide ((at_ k).word a.toNat = th.word a.toNat)))) ∧
  (∀ a n d e, meet (.redaddI a n d e) fun _ need at_ _ _ _ => one n d (total (need.map fun k => (at_ k).word a.toNat))) ∧
  (∀ a n d e, meet (.redaddF a n d e) fun _ need at_ _ _ _ =>
    let r := treeSum 5 ((List.range 32).map fun k => if k ∈ need then ((at_ k).word a.toNat).toNat else 0x8000_0000) 0
    res1 n d.toNat (BitVec.ofNat 32 r.1) r.2) ∧
  (∀ a n d e, meet (.redminS a n d e) fun _ need at_ _ _ _ =>
    one n d (BitVec.ofInt 32 ((need.map fun k => ((at_ k).word a.toNat).toInt).foldl min 0x7FFF_FFFF))) ∧
  (∀ a n d e, meet (.redmaxS a n d e) fun _ need at_ _ _ _ =>
    one n d (BitVec.ofInt 32 ((need.map fun k => ((at_ k).word a.toNat).toInt).foldl max (-0x8000_0000)))) ∧
  (∀ a n d e, meet (.matchLanes a n d e) fun _ need at_ absent _ th =>
    two n d (laneMask (need.filter fun k => decide ((at_ k).word a.toNat = th.word a.toNat))) absent) ∧
  (∀ p n d e, meet (.compact p n d e) fun _ need at_ _ l th =>
    let t := need.countP fun k => (at_ k).pred p.toNat
    one n d (BitVec.ofNat 32 (if th.pred p.toNat then need.countP fun k => decide (k < l) && (at_ k).pred p.toNat
      else t + need.countP fun k => decide (k < l) && !(at_ k).pred p.toNat))) ∧
  (∀ a n d e, meet (.scanadd a n d e) fun _ need at_ _ l _ =>
    two n d (total ((need.filter fun k => decide (k < l)).map fun k => (at_ k).word a.toNat)) (total (need.map fun k => (at_ k).word a.toNat))) ∧
  (∀ n d e, meet (.elect n d e) fun _ need _ _ l _ =>
    let low := need.foldl min 31
    one n d (BitVec.ofNat 32 (if l = low then low + 2 ^ 31 else low)))

/-- R158 to R160, R179, R187: arrivals that do not complete. -/
def Obligations.RendezvousWaitsAndFaults : Prop :=
  ∀ i s t, Alone i s t → i.isCross = true ∨ i = .gennext ∨ (∃ b a, i = .genbeg b a) → (s.thread t).trap = none → t.lane < 32 →
    (s.warp? t.core t.slot).isSome = true → (s.warp t.core t.slot).arrs = [] →
    let k63 := ((s.warp t.core t.slot).k[63]?).getD 0
    let mask : TrapInfo := { code := 0x06, addr := k63.setWidth 64 }
    let gen := (s.warp t.core t.slot).gen
    let barred := match gen with
      | none => i = .gennext
      | some g => (∃ b a, i = .genbeg b a) ∨ g.consume = false
    (barred → MayTrap s t → Faults i s t mask) ∧
    (¬barred → k63.getLsbD t.lane = false → MayTrap s t → Faults i s t mask) ∧
    (¬barred → k63.getLsbD t.lane = true → (∃ l < 32, l ≠ t.lane ∧ k63.getLsbD l = true ∧ s.laneLive t.core t.slot l = true) →
      Makes i s t (fun th' => th' = { s.thread t with st := .waiting .rendezvous }) fun s' =>
        (s'.warp t.core t.slot).arrs.map (fun a => (a.lane, a.addr, a.mask)) = [(t.lane, (s.thread t).pc, k63)] ∧
        s'.mem = s.mem ∧ s'.l2 = s.l2 ∧ s'.blocks = s.blocks ∧ (s'.warp t.core t.slot).k = (s.warp t.core t.slot).k)

/-- R178, R186, R307, R361: the rendezvous of a warp that act on its block or its generator. ACC = 3 for a target of GENBEG that fails is the model's
choice (log 78). -/
def Obligations.WarpRendezvousWithEngines : Prop :=
  let idle (s : State) (br : BRef) : Prop := (s.block? br).isSome = true ∧ (s.block br).qwait = []
  let words (s : State) (c sl : Nat) (a : Code) (absent : Word) : List Word :=
    (List.range 32).map fun l => if l ∈ groupLanes s then (s.thread (laneRef c sl l)).word a.toNat else absent
  let only (s s' : State) (br : BRef) (b : Block) : Prop :=
    s'.block br = b ∧ (∀ x, x ≠ br → s'.block x = s.block x) ∧ s'.mem = s.mem ∧ s'.l2 = s.l2
  let open_ (s : State) (c sl : Nat) : Prop := match (s.warp c sl).gen with | none => True | some g => g.consume = true
  let quiet (s : State) : Prop := ∀ t ∈ s.group, Quiet s t
  (∀ (n : BitVec 2) a s c sl, Clean (.mxmeta n a) s → WholeNeed s c sl → open_ s c sl → quiet s →
    let br := (s.warp c sl).blk
    let b := s.block br
    idle s br → (b.q1.map fun m => m.words.length).sum ≤ 96 →
      Meets (.mxmeta n a) s s.thread fun s' => only s s' br { b with q1 := b.q1 ++ [⟨n.toNat, words s c sl a 0x7654_3210⟩] }) ∧
  (∀ a s c sl, Clean (.rsend a) s → WholeNeed s c sl → open_ s c sl → quiet s →
    let br := (s.warp c sl).blk
    let b := s.block br
    idle s br → b.q6.length < 2 → (∀ l, s.launch? br.launch = some l → ∀ r ∈ l.reds, r.seq = b.rsends → r.out = none) →
      Meets (.rsend a) s s.thread fun s' => only s s' br
        { b with q6 := b.q6 ++ [words s c sl a 0x8000_0000], rsends := b.rsends + 1, rstat := { seq := b.rsends % 65536, pend := true } }) ∧
  (∀ (n : Bool) d s c sl, Clean (.rrecv n d) s → WholeNeed s c sl → open_ s c sl →
    let br := (s.warp c sl).blk
    let b := s.block br
    idle s br → (∀ x ∈ b.qbad, x.1 ≠ 7) → ∀ p rest, b.q7 = p :: rest →
      Meets (.rrecv n d) s (fun t => { s.thread t with outs := (s.thread t).outs ++ (if n then [] else
          [{ base := d.toNat, n := 1, named := false, past := false, exempt := false, src := .val [p.getD t.lane 0] }]) })
        fun s' => only s s' br { b with q7 := rest }) ∧
  (∀ b a s c sl, Clean (.genbeg b a) s → WholeNeed s c sl → (s.warp c sl).gen = none → groupLanes s = List.range 32 →
    let br := (s.warp c sl).blk
    let lead := s.thread (laneRef c sl 0)
    let cfg := lead.word a.toNat
    let f (lo n : Nat) : Nat := cfg.toNat / 2 ^ lo % 2 ^ n
    let target : Int := lead.pc.toNat + (lead.word b.toNat).toInt
    f 22 10 = 0 → f 14 2 = 0 → f 2 6 = 0 → 8 ≤ f 8 6 → f 8 6 ≤ 32 → f 16 6 ≤ 32 → 0 ≤ target → target ≤ 0xFFFF_FFFF_FFFE → target % 2 = 0 →
    ∀ j < (s.block br).reserve, j ∉ s.areasUsed br → (∀ k < j, k ∈ s.areasUsed br) →
      Meets (.genbeg b a) s s.thread fun s' => only s s' br (s.block br) ∧ (s'.warp c sl).gen =
        some { consume := false, pend := false, w := f 0 2 + 1, h := f 8 6, p := f 16 6, consumer := BitVec.ofInt 64 target, area := j, cnt0 := 0,
               cnt1 := 0, fill := 0, cf := 0, ended := [], saved := [] }) ∧
  -- the checks of GENBEG in order: each failing one is an exact fault of every thread of the warp
  (∀ b a s c sl, Clean (.genbeg b a) s → WholeNeed s c sl → (s.warp c sl).gen = none → (∀ t ∈ s.group, MayTrap s t) →
    let br := (s.warp c sl).blk
    let k63 := s.members c sl
    let lead := s.thread (laneRef c sl 0)
    let cfg := lead.word a.toNat
    let f (lo n : Nat) : Nat := cfg.toNat / 2 ^ lo % 2 ^ n
    let target : Int := lead.pc.toNat + (lead.word b.toNat).toInt
    let all := groupLanes s = List.range 32
    let badCfg := f 22 10 ≠ 0 ∨ f 14 2 ≠ 0 ∨ f 2 6 ≠ 0 ∨ f 8 6 < 8 ∨ 32 < f 8 6 ∨ 32 < f 16 6
    let free := ∃ j < (s.block br).reserve, j ∉ s.areasUsed br
    let far := target < 0 ∨ 0xFFFF_FFFF_FFFE < target
    let fails (inf : TrapInfo) : Prop := ∃ s', exec (.genbeg b a) s = .next s' ∧
      (∀ t ∈ s.group, ∃ th', s'.thread? t = some th' ∧ Trapped (s.thread t) th' inf false) ∧ (∀ t, t ∉ s.group → s'.thread? t = s.thread? t) ∧
      s'.group = [] ∧ (s'.warp c sl).gen = none ∧ (∀ x, s'.block x = s.block x) ∧ s'.mem = s.mem ∧ s'.l2 = s.l2
    (¬all → fails { code := 0x06, addr := pairOf k63 (laneMask ((List.range 32).filter fun l => k63.getLsbD l && !s.laneLive c sl l)) }) ∧
    (all → badCfg → fails { code := 0x05, addr := cfg.setWidth 64 }) ∧ (all → ¬badCfg → ¬free → fails { code := 0x05, addr := 0 }) ∧
    (all → ¬badCfg → free → far → fails { code := 0x01, addr := BitVec.ofInt 64 target, acc := 3 }) ∧
    (all → ¬badCfg → free → ¬far → target % 2 = 1 → fails { code := 0x04, addr := BitVec.ofInt 64 target, acc := 3 })) ∧
  (∀ s c sl g, Clean .gennext s → WholeNeed s c sl → (s.warp c sl).gen = some g → g.consume = true → g.cf < 2 → s.remaining c sl g = 0 →
    (∀ x ∈ s.threads, x.1.core = c → x.1.slot = sl → x.2.live = true → x.1 ∈ s.group) → (s.threads.map Prod.fst).Nodup →
    let other := if g.cf = 0 then g.cnt1 else g.cnt0
    (other = 0 → Meets .gennext s s.thread fun s' => (s'.warp c sl).gen = none) ∧
    (0 < other → ∃ s', exec .gennext s = .next s' ∧
      (∀ t ∈ s.group, ∃ th', s'.thread? t = some th' ∧ Delivered .gennext (s.thread t) th' {} g.consumer) ∧
      (s'.warp c sl).gen = some { (g.setCnt g.cf 0) with cf := 1 - g.cf, now := none })) ∧
  (∀ s c sl g, Clean .gennext s → WholeNeed s c sl → (s.warp c sl).gen = some g → g.consume = true → g.cf < 2 → 0 < s.remaining c sl g →
    (s.threads.map Prod.fst).Nodup →
    ∃ s', exec .gennext s = .next s' ∧
      (∀ t ∈ s.group, ∃ th', s'.thread? t = some th' ∧ th'.g = (s.thread t).g ∧ th'.loaf = {} ∧
        (t.lane ∈ g.ended → th'.st = .waiting .ended) ∧
        (t.lane ∉ g.ended → (th'.st = .ready ∨ th'.st = .waiting .outs) ∧ ∀ pc, tget g.saved t.lane = some pc → th'.pc = pc)) ∧
      ∃ g', (s'.warp c sl).gen = some g' ∧ g'.consume = false ∧ g'.fill = 1 - g.cf ∧ (if g.cf = 0 then g'.cnt0 else g'.cnt1) = 0)

/-- R176, R179 to R181, R183, R185: the instructions within a generator loop, and the switch. A YIELD is stated as the first of its warp in
its cycle, and as one that follows a YIELD of a higher lane from the other port (R180). -/
def Obligations.GeneratorLoop : Prop :=
  let maskOf (s : State) (t : TRef) : TrapInfo := { code := 0x06, addr := (((s.warp t.core t.slot).k[63]?).getD 0).setWidth 64 }
  let up (w : Nat) : Nat := if w = 3 then 4 else w
  let place (s : State) (br : BRef) (area f e : Nat) : Nat := (s.block br).scratch + 1024 * area + 512 * f + 16 * e
  let count (g : Gen) (f : Nat) : Nat := if f = 0 then g.cnt0 else g.cnt1
  (∀ a e s t, Alone (.yield a e) s t →
    let th := s.thread t
    let i : Instr := .yield a e
    ((s.warp t.core t.slot).gen = none → MayTrap s t → Faults i s t (maskOf s t)) ∧
    (∀ g, (s.warp t.core t.slot).gen = some g → MayTrap s t → g.consume = true ∨ t.lane ∈ g.ended → Faults i s t (maskOf s t)) ∧
    (∀ g, (s.warp t.core t.slot).gen = some g → g.consume = false → th.trap = none → t.lane ∉ g.ended →
      (a.toNat % up g.w ≠ 0 → MayTrap s t → Faults i s t { code := 0x04, addr := BitVec.ofNat 64 a.toNat }) ∧
      (a.toNat % up g.w = 0 → th.budget ≤ a.toNat + g.w - 1 → MayTrap s t → Faults i s t { code := 0x05, addr := BitVec.ofNat 64 (a.toNat + g.w - 1) }) ∧
      (a.toNat % up g.w = 0 → a.toNat + g.w - 1 < th.budget → g.fill < 2 → (∀ y, g.now = some y → y.cyc ≠ s.clock) →
        (s.block? (s.warp t.core t.slot).blk).isSome = true →
        Memory.wf (s.block (s.warp t.core t.slot).blk).cells = true →
        let br := (s.warp t.core t.slot).blk
        let n := count g g.fill
        let off := place s br g.area g.fill n
        ∃ s', exec i s = .next s' ∧
          (∃ th', s'.thread? t = some th' ∧ th'.g = th.g ∧ th'.pc = th.pc + 4 ∧ th'.aflags = th.aflags ∧ (e = false → th'.loaf.yielded = true ∧ th'.st = .running)) ∧
          (∀ u, u ≠ t → s'.thread? u = s.thread? u) ∧
          (∀ c x, cellGet (s'.block c).cells x =
            if c = br ∧ off ≤ x ∧ x < off + 4 * g.w then
              BitVec.ofNat 8 (((th.group a.toNat g.w).getD ((x - off) / 4) 0).toNat / 256 ^ ((x - off) % 4))
            else cellGet (s.block c).cells x) ∧
          ∃ g', (s'.warp t.core t.slot).gen = some g' ∧ count g' g.fill = n + 1 ∧ count g' (1 - g.fill) = count g (1 - g.fill) ∧
            g'.fill = (if n + 1 = 32 then 1 - g.fill else g.fill) ∧ g'.ended = g.ended ∧ g'.w = g.w ∧ g'.consume = false) ∧
      (a.toNat % up g.w = 0 → a.toNat + g.w - 1 < th.budget → g.w ≤ 4 → (s.block? (s.warp t.core t.slot).blk).isSome = true →
        Memory.wf (s.block (s.warp t.core t.slot).blk).cells = true →
        ∀ y l ws, g.now = some y → y.cyc = s.clock → y.list = [(l, ws)] → ws.length = g.w → t.lane < l → y.fill = 0 → y.cnt0 < 30 →
        let br := (s.warp t.core t.slot).blk
        let byte (v : List Word) (x : Nat) : Byte := BitVec.ofNat 8 ((v.getD (x / 4) 0).toNat / 256 ^ (x % 4))
        let off := place s br g.area 0 y.cnt0
        ∃ s' g', exec i s = .next s' ∧ (s'.warp t.core t.slot).gen = some g' ∧ g'.fill = 0 ∧ g'.cnt0 = y.cnt0 + 2 ∧ g'.cnt1 = y.cnt1 ∧
          ∀ x < 4 * g.w, cellGet (s'.block br).cells (off + x) = byte (th.group a.toNat g.w) x ∧
            cellGet (s'.block br).cells (off + 16 + x) = byte ws x))) ∧
  (∀ p n d e s t, Alone (.take p n d e) s t →
    let th := s.thread t
    let i : Instr := .take p n d e
    ((s.warp t.core t.slot).gen = none → MayTrap s t → Faults i s t (maskOf s t)) ∧
    (∀ g, (s.warp t.core t.slot).gen = some g → g.consume = false → MayTrap s t → Faults i s t (maskOf s t)) ∧
    (∀ g, (s.warp t.core t.slot).gen = some g → g.consume = true → MayTrap s t →
      (d.toNat % up g.w ≠ 0 → Faults i s t { code := 0x04, addr := BitVec.ofNat 64 d.toNat }) ∧
      (d.toNat % up g.w = 0 → th.budget ≤ d.toNat + g.w - 1 → Faults i s t { code := 0x05, addr := BitVec.ofNat 64 (d.toNat + g.w - 1) })) ∧
    (∀ g, (s.warp t.core t.slot).gen = some g → g.consume = true → th.trap = none → d.toNat % up g.w = 0 → d.toNat + g.w - 1 < th.budget →
      let br := (s.warp t.core t.slot).blk
      let off := place s br g.area g.cf t.lane
      let valid := decide (t.lane < count g g.cf)
      let word (j : Nat) : Word :=
        if valid then BitVec.ofNat 32 (leValue ((List.range 4).map fun k => cellGet (s.block br).cells (off + 4 * j + k))) else 0
      let ws := (List.range g.w).map word
      let pushed : Option Dword := if n = true ∨ 2 < g.w then none else some (pairOf (ws.getD 0 0) (ws.getD 1 0))
      let r : Res := { base := d.toNat, regs := if n then [] else ws, push := pushed, preds := [(p.toNat, valid)] }
      (valid = true → scrPoison s br off (4 * g.w) = false) → Makes i s t (fun th' => Delivered i th th' r) (Calm s))) ∧
  (∀ s t, Alone .genend s t →
    ((s.warp t.core t.slot).gen = none → MayTrap s t → Faults .genend s t (maskOf s t)) ∧
    (∀ g, (s.warp t.core t.slot).gen = some g → MayTrap s t → g.consume = true ∨ t.lane ∈ g.ended → Faults .genend s t (maskOf s t)) ∧
    (∀ g, (s.warp t.core t.slot).gen = some g → g.consume = false → (s.thread t).trap = none → t.lane ∉ g.ended →
      Makes .genend s t (fun th' => Rested .genend (s.thread t) th' .ended) fun s' =>
        ∃ g', (s'.warp t.core t.slot).gen = some g' ∧ (∀ l, l ∈ g'.ended ↔ l = t.lane ∨ l ∈ g.ended) ∧ g'.consume = false)) ∧
  (∀ s g, let c := s.arg.core; let sl := s.arg.slot
    (s.warp c sl).gen = some g → g.consume = false → g.pend = true → (s.threads.map Prod.fst).Nodup →
    let producers := (s.warpThreads c sl).filter fun x => x.2.live && !g.ended.contains x.1.lane
    (∀ x ∈ producers, x.2.trap = none ∧ x.2.loaf.cnt = 0 ∧ (x.2.st = .ready ∨ x.2.st = .listed ∨ x.2.st = .waiting .withheld ∨
      (x.2.st = .waiting .outs ∧ ∀ o ∈ x.2.outs, o.named = true))) →
    ∃ s', exec .generatorSwitch s = .next s' ∧
      (s'.warp c sl).gen = some { g with consume := true, pend := false, saved := producers.map fun x => (x.1.lane, x.2.pc), now := none } ∧
      (∀ x ∈ s.threads, x.1.core = c → x.1.slot = sl → x.2.live = true → ∃ th', s'.thread? x.1 = some th' ∧ th'.pc = g.consumer ∧ th'.loaf = {} ∧
        th'.g = x.2.g ∧ (th'.st = .ready ∨ th'.st = .waiting .outs) ∧ (x ∈ producers → th'.st = .ready)) ∧
      (∀ u, u.core ≠ c ∨ u.slot ≠ sl → s'.thread? u = s.thread? u) ∧ s'.mem = s.mem ∧ s'.l2 = s.l2)

/-- R171 to R175: the kneading table. A KNEAD takes effect at once when no other thread of its core can enter the table in the same cycle, else at
the end of the cycle, in order of warp slot and lane. That the warp formed from a bin keeps the SC clocks and core numbers of its threads, which
R171 does not list, is the model's choice (log 37). -/
def Obligations.Kneading : Prop :=
  (∀ b a c s t, Alone (.knead b a c) s t →
    let th := s.thread t
    let i : Instr := .knead b a c
    let w := s.warp t.core t.slot
    let key := th.word a.toNat
    let mine (x : Bin) : Prop := x.blk = w.blk ∧ x.role = w.role ∧ x.key = key
    let only : Prop := (∀ u ∈ (s.core s.curCore).p0 ++ (s.core s.curCore).p1, u = t) ∧
      ∀ x ∈ s.threads, x.1.core = s.curCore → x.1 ≠ t → ∀ k b n, x.2.st ≠ .waiting (.kneadOuts k b n)
    (th.trap.isSome = true → Makes i s t (fun th' => Delivered i th th' {}) (Calm s)) ∧
    (MayTrap s t → w.gen ≠ none → Faults i s t { code := 0x06, addr := ((w.k[63]?).getD 0).setWidth 64 }) ∧
    (th.trap = none → w.gen = none → th.outs ≠ [] ∨ ¬only →
      Makes i s t (fun th' => th' = { th with st := .waiting (.kneadOuts key b.toNat c.toNat) }) (Calm s)) ∧
    (th.trap = none → w.gen = none → Quiet s t → only → (s.core t.core).bins.length < 8 → (∀ x ∈ (s.core t.core).bins, mine x → x.threads.length < 31) →
      ∃ s', exec i s = .next s' ∧ s'.thread? t = none ∧ s'.group = [] ∧
        ∃ x ∈ (s'.core t.core).bins, mine x ∧ ∃ y ∈ x.threads, y.from_ = t ∧ y.regs = (List.range' b.toNat c.toNat).map (fun r => (r, th.rd r)) ∧
          y.th.pc = th.pc + 4 ∧ y.th.loaf = {})) ∧
  -- R173: of the threads that enter in one cycle the bin holds that of the lower slot and lane first
  (∀ (s : State) (t u : TRef) k key b n b' n', let c := t.core
    let w := s.warp c t.slot
    let mine (x : Bin) : Prop := x.blk = w.blk ∧ x.role = w.role ∧ x.key = key
    let waits (v : TRef) (b n : Nat) : Prop := ∃ th, s.thread? v = some th ∧ th.st = .waiting (.kneadOuts key b n) ∧ th.outs = [] ∧ th.stores = [] ∧ th.sc = none
    waits t b n → waits u b' n' → u.core = c → t.slot < 64 → u.slot < 64 → t.lane < 32 → u.lane < 32 → t.slot * 32 + t.lane < u.slot * 32 + u.lane →
    (s.threads.map Prod.fst).Nodup → (∀ x ∈ s.threads, x.1 ≠ t → x.1 ≠ u → ∀ k b n, x.2.st ≠ .waiting (.kneadOuts k b n)) →
    (s.warp c u.slot).blk = w.blk → (s.warp c u.slot).role = w.role → (tget s.cores c) = some k → k.bins.length < 8 → (∀ x ∈ k.bins, ¬mine x) →
    let s' := s.kneadCycle
    s'.thread? t = none ∧ s'.thread? u = none ∧ ∃ x ∈ (s'.core c).bins, mine x ∧ x.threads.map BinThread.from_ = [t, u]) ∧
  (∀ s t, Alone .kflush s t → (s.warp? t.core t.slot).isSome = true → (s.core t.core).bins.length ≤ 8 →
    ∃ s', exec .kflush s = .next s' ∧ (∃ th', s'.thread? t = some th' ∧ Delivered .kflush (s.thread t) th' {}) ∧
      ∀ x ∈ (s'.core t.core).bins, x.blk ≠ s.blkOf t) ∧
  (∀ s b, let c := s.arg.core
    (s.core c).bins[s.arg.k]? = some b →
    (b.entered + 2048 ≤ s.clock → ∃ s', exec .binTimeout s = .next s' ∧ (s'.core c).bins = ldrop (s.core c).bins s.arg.k) ∧
    (s.clock < b.entered + 2048 → exec .binTimeout s = .next s)) ∧
  (∀ s b rest sl, let c := s.arg.core
    (s.core c).released = b :: rest → s.slotFor c b = some sl → b.threads.length ≤ 32 →
    ∃ s', exec .binWarpTakesSlot s = .next s' ∧ (s'.core c).released = rest ∧
      (∃ w, s'.warp? c sl = some w ∧ w.blk = b.blk ∧ w.role = b.role ∧ w.k[63]? = some (BitVec.ofNat 32 (2 ^ b.threads.length - 1)) ∧
        ∀ x, b.threads.head? = some x → ∀ j < 63, w.k[j]? = x.k[j]?) ∧
      (∀ i x, b.threads[i]? = some x → ∃ th', s'.thread? ⟨c, sl, i⟩ = some th' ∧ th'.pc = x.th.pc ∧ th'.tid = x.th.tid ∧ th'.st = .ready ∧ th'.loaf = {} ∧
        th'.budget = (s.block b.blk).budgets.getD b.role 0 ∧
        (th'.p1, th'.p2, th'.p3, th'.aflags, th'.scClock, th'.scCore, th'.xvec) = (x.th.p1, x.th.p2, x.th.p3, x.th.aflags, x.th.scClock, x.th.scCore, x.th.xvec) ∧
        ∀ k, 0 < k → k < 124 → th'.rd k = match x.regs.reverse.find? fun r => decide (r.1 = k) with | none => 0 | some r => r.2) ∧
      (∀ i, b.threads.length ≤ i → s'.thread? ⟨c, sl, i⟩ = none) ∧ (∀ u, u.core ≠ c ∨ u.slot ≠ sl → s'.thread? u = s.thread? u)) ∧
  (∀ s, (∀ b ∈ (s.core s.arg.core).released, s.slotFor s.arg.core b = none) → exec .binWarpTakesSlot s = .next s)

/-- R162, R163: the writes of k registers. -/
def Obligations.WarpRegisterWrites : Prop :=
  let writes (i : Instr) (base n : Nat) (f : Thread → Nat → Word) : Prop :=
    ∀ s, Clean i s → (∀ t ∈ s.group, (s.warp? t.core t.slot).isSome = true) →
      ∃ s', exec i s = .next s' ∧
        (∀ t ∈ s.group, ∃ th', s'.thread? t = some th' ∧ Delivered i (s.thread t) th' {}) ∧
        (∀ t, t ∉ s.group → s'.thread? t = s.thread? t) ∧
        (∀ t ∈ s.group, (∀ u ∈ s.group, u.core = t.core → u.slot = t.slot → t.lane ≤ u.lane) →
          ∀ j < 64, (s'.warp t.core t.slot).k[j]? =
            if base ≤ j ∧ j < base + n then some (f (s.thread t) (j - base)) else (s.warp t.core t.slot).k[j]?) ∧
        (∀ c sl, (∀ t ∈ s.group, t.core ≠ c ∨ t.slot ≠ sl) → (s'.warp c sl).k = (s.warp c sl).k) ∧
        s'.mem = s.mem ∧ s'.l2 = s.l2 ∧ s'.blocks = s.blocks
  (∀ (k : BitVec 6) a e, writes (.wrk k a e) k.toNat 1 fun th _ => th.word a.toNat) ∧
  (∀ a e, writes (.cbset a e) 48 8 fun th j => (th.group a.toNat 8).getD j 0)

/-- R48, R49, R110, R158, R207 to R212, R225, R226, R231, R237 to R240: the events that threads wait for, and what a load finds where it takes its
bytes. An access lies within its line. That a thread
which runs and whose next instruction is the JOIN still stands at the instruction before it, and so holds the JOIN, is the model's reading
(log entry 33). -/
def Obligations.PendingEvents : Prop :=
  let only (s s' : State) : Prop := s' = { s with threads := s'.threads }
  let landed (th th' : Thread) (base : Nat) (ws : List Word) (fl : BitVec 5) : Prop :=
    (∀ k < 124, th'.rd k = if th.live = true ∧ base ≤ k ∧ k < base + ws.length ∧ k ≠ 0 ∧ ¬(base = 0 ∧ k = 1) then ws.getD (k - base) 0 else th.rd k) ∧
    th'.outs = (th.outs.filter fun x => decide (x.base ≠ base)) ∧ th'.aflags = th.aflags ||| fl ∧
    th'.st = (if th.st = .waiting .outs then (if outsReady th'.outs then .ready else .waiting .outs) else th.st) ∧
    th' = { th with g := th'.g, outs := th'.outs, aflags := th'.aflags, st := th'.st, bad := th'.bad }
  let others (s s' : State) (t : TRef) : Prop := ∀ u, u ≠ t → s'.thread? u = s.thread? u
  (∀ s o, let t := s.arg.t
    let th := s.thread t
    (s.thread? t).isSome = true → (th.outs.find? fun x => decide (x.base = s.arg.k)) = some o → (∀ k b n, th.st ≠ .waiting (.kneadOuts k b n)) →
    (∀ ws, o.src = .val ws → ∃ s', exec .pendingWriteLands s = .next s' ∧ only s s' ∧ others s s' t ∧
      ∃ th', s'.thread? t = some th' ∧ landed th th' o.base ws 0) ∧
    (∀ parts fin, o.src = .load parts fin →
      let r := s.readRest (s.ownOf t) t.core o.got 0 parts
      let v := fin.run o.n r.2.1
      (∀ x ∈ th.outs, x.base ≠ o.base → x.parts = []) →
      r.2.2 = false → (r.1.thread? t).isSome = true → ∃ s', exec .pendingWriteLands s = .next s' ∧ only r.1 s' ∧ others r.1 s' t ∧
        ∃ th', s'.thread? t = some th' ∧ landed (r.1.thread t) th' o.base v.1 v.2)) ∧
  -- R225: one part of a load takes its bytes before the others, and keeps them
  (∀ (s : State) (t : TRef) base k (o : Out) ps f p, let th := s.thread t
    let r := s.readParts (s.ownOf t) t.core [p]
    (s.thread? t).isSome = true → (r.1.thread? t).isSome = true → (th.outs.find? fun x => decide (x.base = base)) = some o → o.src = .load ps f → ps[k]? = some p →
    tget o.got k = none → (∀ x ∈ th.outs, x.base ≠ base → x.parts = []) → ∃ s', s.perform1 (.takePart t base k) = .next s' ∧ only r.1 s' ∧ others r.1 s' t ∧
      s'.thread? t = some { r.1.thread t with outs := (r.1.thread t).outs.map fun x => if x.base = base then { x with got := tput x.got k r.2 } else x }) ∧
  (∀ (s : State) o c got k, s.readRest o c got k [] = (s, [], false) ∧ ∀ p ps,
    let r := match tget got k with | some x => (s, x) | none => s.readParts o c [p]
    let q := r.1.readRest o c got (k + 1) ps
    s.readRest o c got k (p :: ps) = (q.1, r.2.1 ++ q.2.1, r.2.2 || q.2.2)) ∧
  (∀ (s : State) o c ps, s.readParts o c ps = s.readRest o c [] 0 ps) ∧
  -- what a part finds: the scratchpad's byte; of normal memory what the core's threads see (R207, R208); of uncached memory the home's byte (R212)
  (∀ (s : State) o c b off n, s.readParts o c [⟨.scr b off, n⟩] = (s, (List.range n).map fun j => cellGet (s.block b).cells (off + j), scrPoison s b off n)) ∧
  (∀ s o c pa mt cmp n, inDevice pa = false → 0 < n → pa % 128 + n ≤ 128 → MemInv s → LineClean s (pa / 128) →
    let r := s.readParts o c [⟨.glob pa mt cmp, n⟩]
    let foreign : Prop := s.guestWays = [] ∧ (s.partn o.part).dies.contains (homeOf pa) = false
    (mt = 0 → ¬foreign → L1Room s c pa cmp → (∀ l, rdcfind s (dieOf c) (pa / 128) = some l → l.cmp = cmp) → (∀ l, l2find s (pa / 128) = some l → l.cmp = cmp) →
      r.2.1 = (List.range n).map (fun j => s.seen c (pa + j)) ∧ ∀ x, x / 128 = pa / 128 → r.1.seen c x = s.seen c x) ∧
    (mt = 1 ∨ mt = 2 ∨ (mt = 0 ∧ foreign) → NoCopies s c pa →
      r.2.1 = (List.range n).map (fun j => homeByte s (pa + j)) ∧ ∀ x, x / 128 = pa / 128 → homeByte r.1 x = homeByte s x)) ∧
  (∀ s o c pa mt cmp n, inDevice pa = true → s.readParts o c [⟨.glob pa mt cmp, n⟩] =
    (s, if n = 8 ∧ regBlock o.part ≤ pa ∧ pa < regBlock o.part + 0x10_0000 then leBytes 8 (regRead s o.part (pa - regBlock o.part)) else List.replicate n 0, false)) ∧
  (∀ s o1 o2 ps1 ps2 f1 f2, let t := s.arg.t
    let th := s.thread t
    (s.thread? t).isSome = true → th.leaven = false → (∀ k b n, th.st ≠ .waiting (.kneadOuts k b n)) → th.outs = [o1, o2] → o1.base ≠ o2.base →
    s.arg.k = o2.base → o1.src = .load ps1 f1 → o2.src = .load ps2 f2 → o1.got = [] → o2.got = [] →
    (∃ p ∈ ps1, ∃ q ∈ ps2, p.loc.meets p.n q.loc q.n = true) →
    ∃ s' th' ws, exec .pendingWriteLands s = .next s' ∧ s'.thread? t = some th' ∧ th'.outs = [{ o1 with src := .val ws }]) ∧
  let lone (s : State) : Prop := (s.threads.map Prod.fst).Nodup ∧ ∀ x ∈ s.threads, x.1 ≠ s.arg.t → x.2.stores = []
  (∀ s b off bs grp due, let t := s.arg.t
    (s.thread? t).isSome = true → s.arg.flag = true → s.arg.k = 0 → bs ≠ [] → (s.thread t).stores = [⟨.scr b off, bs, none, grp, due⟩] → lone s → Memory.wf (s.block b).cells = true →
    (s.block? b).isSome = true → ∃ s', exec .accessPerformed s = .next s' ∧ ScratchWritten s s' b off bs ∧
      s'.thread? t = some { s.thread t with stores := [] } ∧ others s s' t) ∧
  (∀ s pa cmp bs grp due, let t := s.arg.t
    (s.thread? t).isSome = true → s.arg.flag = true → s.arg.k = 0 → bs ≠ [] → (s.thread t).stores = [⟨.glob pa 0 cmp, bs, none, grp, due⟩] → lone s → typeAt s (s.ownOf t) pa 0 = 0 → inDevice pa = false →
    pa % 128 + bs.length ≤ 128 → L1Room s t.core pa cmp → ∃ s', exec .accessPerformed s = .next s' ∧ CoreWritten s s' t.core pa bs ∧
      s'.thread? t = some { s.thread t with stores := [] } ∧ others s s' t) ∧
  (∀ s pa mt cmp bs a grp due, let t := s.arg.t
    let th := s.thread t
    (s.thread? t).isSome = true → s.arg.flag = true → s.arg.k = 0 → th.stores = [⟨.glob pa mt cmp, bs, some a, grp, due⟩] → lone s →
    inDevice pa = false → pa % 128 ≤ 124 → NoCopies s t.core pa → HomeRoom s (s.ownOf t) pa cmp → homePoison s pa 4 = false → MemInv s →
    let old := BitVec.ofNat 32 (leValue (homeBytes s pa 4))
    ∃ s' w, exec .accessPerformed s = .next s' ∧
      s'.thread? t = some { th with stores := [], watch := w, outs := th.outs.map fun o => if o.src = .atom ∧ a.dst = some o.base then { o with src := .val [old] } else o } ∧
      ∀ x, homeByte s' x = match a.kind.newWord a.b a.expect old with
        | none => homeByte s x
        | some v => if pa ≤ x ∧ x < pa + 4 then BitVec.ofNat 8 (v.toNat / 256 ^ (x - pa)) else homeByte s x) ∧
  -- R252: an accepted store of one instruction that a higher lane's meets is performed before it
  (∀ s u b off bs off' bs' grp due due', let t := s.arg.t
    s.arg.flag = true → s.arg.k = 0 → (s.threads.map Prod.fst).Nodup → (s.thread? t).isSome = true → (s.thread? u).isSome = true → u.core = t.core → u.lane < t.lane → t.lane < 32 →
    (s.thread t).stores = [⟨.scr b off, bs, none, grp, due⟩] → (s.thread u).stores = [⟨.scr b off', bs', none, grp, due'⟩] →
    (∀ x ∈ s.threads, x.1 ≠ t → x.1 ≠ u → x.2.stores = []) → off < off' + bs'.length → off' < off + bs.length → (s.block? b).isSome = true → Memory.wf (s.block b).cells = true →
    ∃ s', exec .accessPerformed s = .next s' ∧ (∀ c x, cellGet (s'.block c).cells x =
        if c = b ∧ off ≤ x ∧ x < off + bs.length then bs.getD (x - off) 0 else if c = b ∧ off' ≤ x ∧ x < off' + bs'.length then bs'.getD (x - off') 0 else cellGet (s.block c).cells x) ∧
      ∀ x, s'.thread? x = (s.thread? x).map fun th => if x = t ∨ x = u then { th with stores := [] } else th) ∧
  (∀ s sc, let t := s.arg.t
    let th := s.thread t
    (s.thread? t).isSome = true → s.arg.flag = false → th.st = .waiting (.access (.fence sc)) → th.outs = [] → th.stores = [] →
    ∃ s' w, exec .accessPerformed s = .next s' ∧ (3 ≤ sc → ∀ ln, l1find s' t.core ln = none) ∧ (5 ≤ sc → ∀ ln, rdcfind s' (dieOf t.core) ln = none) ∧
      ∃ th', s'.thread? t = some th' ∧ th' = { th with watch := w, pc := th.pc + 4, loaf := {}, st := .ready, bad := th'.bad, heeled := true }) ∧
  (∀ s, let t := s.arg.t
    let th := s.thread t
    (s.thread? t).isSome = true → s.arg.flag = false → th.st = .waiting (.access .exit) → th.sc = none →
    (s.warps.all fun w => !w.2.leaven.any fun l => decide (l.2 = t)) = true →
    ∃ s', exec .accessPerformed s = .next s' ∧ (s'.thread? t).map Thread.st = some .exited ∧ s'.mem = s.mem ∧ s'.l2 = s.l2 ∧ s'.parts = s.parts) ∧
  (∀ i s op, i = .accessPerformed ∨ i = .scRetry →
    let t := s.arg.t
    let th := s.thread t
    let k := (s.core t.core).scK
    (s.thread? t).isSome = true → s.arg.flag = false → (∀ x, th.st ≠ .waiting (.access x)) → (∀ k b n, th.st ≠ .waiting (.kneadOuts k b n)) → s.partOf t.core = (s.ownOf t).part → th.sc = some op → inDevice op.pa = false → op.pa % 128 ≤ 124 →
    NoCopies s t.core op.pa → HomeRoom s (s.ownOf t) op.pa op.cmp → homePoison s op.pa 4 = false → MemInv s → t.core < 2048 →
    let old := BitVec.ofNat 32 (leValue (homeBytes s op.pa 4))
    let p := (s.ownOf t).part
    let st := stampAt s p (op.pa / 128)
    let later := st.clk < op.ts.clk ∨ (st.clk = op.ts.clk ∧ st.core < op.ts.core)
    let applied (ts : Stamp) (f : Thread → Thread) : Prop := ∃ s' w, exec i s = .next s' ∧ stampAt s' p (op.pa / 128) = ts ∧
      s'.thread? t = some { f th with watch := w, sc := none, st := if th.st = .waiting .scHeld then .running else th.st, outs := th.outs.map fun o => if o.src = .sc then { o with src := .val [old] } else o } ∧
      ∀ x, homeByte s' x = match op.newWord old with
        | none => homeByte s x
        | some v => if op.pa ≤ x ∧ x < op.pa + 4 then BitVec.ofNat 8 (v.toNat / 256 ^ (x - op.pa)) else homeByte s x
    (i = .accessPerformed → later → applied op.ts id) ∧
    (i = .scRetry → later → exec i s = .next s) ∧
    (i = .scRetry → ¬later → max k st.clk + 1 < 2 ^ 48 →
      applied ⟨max k st.clk + 1, t.core⟩ fun x => { x with scClock := BitVec.ofNat 48 (max k st.clk + 1), scCore := BitVec.ofNat 11 t.core })) ∧
  (∀ s, let c := s.arg.core
    let sl := s.arg.slot
    let j := s.arg.v
    let issued (u : TRef) : Prop := let k := s.core u.core; (u ∈ k.p0 ∧ k.last0.isSome = true) ∨ (u ∈ k.p1 ∧ k.last1.isSome = true)
    let held (t : TRef) (th : Thread) : Prop := ∃ x ∈ s.threads, x.1.core = c ∧ x.1.slot = sl ∧ x.1 ≠ t ∧ (s.members c sl).getLsbD x.1.lane = true ∧
      x.2.live = true ∧ x.2.trap.isSome = th.trap.isSome ∧ (x.2.pc.toNat < j.toNat ∨ (x.2.pc = j ∧ x.2.st = .running ∧ issued x.1)) ∧
      (match (s.warp c sl).gen with | none => True | some g => g.consume = true ∨ x.1.lane ∉ g.ended)
    (s.threads.map Prod.fst).Nodup → ∃ s', exec .joinRelease s = .next s' ∧ only s s' ∧ ∀ t th, s.thread? t = some th →
      (t.core = c ∧ t.slot = sl ∧ th.st = .waiting (.join j) ∧ ¬held t th →
        s'.thread? t = some { th with st := if outsReady th.outs then .ready else .waiting .outs }) ∧
      (¬(t.core = c ∧ t.slot = sl ∧ th.st = .waiting (.join j) ∧ ¬held t th) → s'.thread? t = some th)) ∧
  (∀ s, let c := s.arg.core
    let sl := s.arg.slot
    let as := (s.warp c sl).arrs
    let live (l : Nat) : Bool := s.laneLive c sl l
    ((∀ a ∈ as, ∃ l < 32, a.mask.getLsbD l = true ∧ live l = true ∧ ∀ x ∈ as, x.lane ≠ l) → exec .rendezvousComplete s = .next s) ∧
    (∀ pc m, (s.warp? c sl).isSome = true → as ≠ [] →
      (∀ a ∈ as, a.addr = pc ∧ a.mask = m ∧ (a.op = .elect ∨ a.op = .voteBallot ∨ a.op = .redaddI) ∧ (s.thread (laneRef c sl a.lane)).outs = []) →
      as.map Arrival.lane = ((List.range 32).filter fun l => m.getLsbD l && live l) →
      ∃ s', exec .rendezvousComplete s = .next s' ∧ (s'.warp c sl).arrs = [] ∧ ∀ a ∈ as, ∃ th', s'.thread? (laneRef c sl a.lane) = some th' ∧
        th'.pc = (s.thread (laneRef c sl a.lane)).pc + 4 ∧ th'.st = .ready ∧
        (a.op = .redaddI → a.n = false → a.d ≠ 0 → a.d < 124 → th'.rd a.d = (as.map Arrival.a).sum)))

/-- R113, R114, R149 to R152, R154, R155: which group issues, fused groups, leaven contexts. The model's own readings are these: when an entry
might see more than 1024 loaves begin before its own, the entry that has waited longest comes first, and a single free port waits for it (log entry 70); a leaven context is spawned on a stall for a pending group
of LD.G, LD.S, GATH or GATH.S that must land, or that holds the thread's next loaf back (log entry 43). -/
def Obligations.GrouperFusionAndLeaven : Prop :=
  let members (s' : State) (g : List TRef) (e : Entry) : Prop :=
    (∀ t, t ∈ g ↔ t ∈ e.members) ∧ ∀ t ∈ e.members, (s'.thread? t).map Thread.st = some .running
  let settled (s : State) (c : Nat) : Prop := (s.core c).fillAt = s.clock ∧ (s.partn (s.partOf c)).halted = false ∧ (s.core c).overflow = [] ∧
    (∀ x ∈ s.threads, x.1.core = c → x.2.st ≠ .ready) ∧ (∀ e ∈ (s.core c).table, ∀ t ∈ e.members, (s.thread? t).isSome = true) ∧
    (s.core c).table.Pairwise fun x y => x.created ≤ y.created
  let apart (e : Entry) (g : List TRef) : Prop := ∀ t ∈ e.members, ∀ u ∈ g, t.lane ≠ u.lane
  (∀ s, let c := s.arg.core
    ((s.core c).fillAt ≠ s.clock ∨ (s.partn (s.partOf c)).halted = true) → exec .grouperFill s = .next s) ∧
  (∀ s, let c := s.arg.core
    let k := s.core c
    let aged (e : Entry) : Prop := e.aged = true ∨ e.created + 256 ≤ s.clock
    let earlier (e x : Entry) : Prop := (aged e ∧ (aged x → e.created ≤ x.created)) ∨
      (¬aged e ∧ ¬aged x ∧ (e.pc.toNat < x.pc.toNat ∨ (e.pc = x.pc ∧ e.created ≤ x.created)))
    let first (fits : Entry → Prop) (e : Entry) : Prop := e ∈ k.table ∧ fits e ∧ ∀ x ∈ k.table, fits x → earlier e x
    -- R152: loaves that may begin before those of the entries Ready as long as one of them would pass 1024
    let urgent : Prop := ∃ e ∈ k.table, e.born + 1022 ≤ k.loaves + 2 * k.table.countP fun x => decide (x.born ≤ e.born)
    let longest (e : Entry) : Prop := e ∈ k.table ∧ ∀ x ∈ k.table, e.born < x.born ∨ (e.born = x.born ∧ e.created ≤ x.created)
    settled s c → ∃ s', exec .grouperFill s = .next s' ∧ (s'.core c).fillAt = s.clock + 1 ∧
        (k.p0 = [] → k.p1 = [] → k.table ≠ [] → ∃ e, (urgent → longest e) ∧ (¬urgent → first (fun _ => True) e) ∧ members s' (s'.core c).p0 e ∧
          let fits (x : Entry) : Prop := x.pc ≠ e.pc ∧ apart x e.members
          (3 ≤ s.powerStep → (s'.core c).p1 = [] ∧ (s'.core c).table = (k.table.filter fun x => decide (x ≠ e))) ∧
          (s.powerStep < 3 → (∀ x ∈ k.table, ¬fits x) → (s'.core c).p1 = []) ∧
          (s.powerStep < 3 → (∃ x ∈ k.table, fits x) → ∃ f, first fits f ∧ members s' (s'.core c).p1 f ∧
            (s'.core c).table = (k.table.filter fun x => decide (x ≠ e) && decide (x ≠ f)))) ∧
        (urgent → k.p0 = [] → k.p1 ≠ [] → (s'.core c).p1 = k.p1 ∧ ∃ e, longest e ∧ (¬apart e k.p1 → (s'.core c).p0 = []) ∧
          (apart e k.p1 → members s' (s'.core c).p0 e ∧ (s'.core c).table = (k.table.filter fun x => decide (x ≠ e)))) ∧
        (urgent → k.p0 ≠ [] → k.p1 = [] → (s'.core c).p0 = k.p0 ∧ ∃ e, longest e ∧ (3 ≤ s.powerStep ∨ ¬apart e k.p0 → (s'.core c).p1 = []) ∧
          (s.powerStep < 3 → apart e k.p0 → members s' (s'.core c).p1 e ∧ (s'.core c).table = (k.table.filter fun x => decide (x ≠ e)))) ∧
        (¬urgent → k.p0 = [] → k.p1 ≠ [] → (s'.core c).p1 = k.p1 ∧
          ((∀ x ∈ k.table, ¬apart x k.p1) → (s'.core c).p0 = []) ∧
          ((∃ x ∈ k.table, apart x k.p1) → ∃ e, first (fun x => apart x k.p1) e ∧ members s' (s'.core c).p0 e ∧
            (s'.core c).table = (k.table.filter fun x => decide (x ≠ e)))) ∧
        (¬urgent → k.p0 ≠ [] → k.p1 = [] → (s'.core c).p0 = k.p0 ∧
          (3 ≤ s.powerStep ∨ (∀ x ∈ k.table, ¬apart x k.p0) → (s'.core c).p1 = []) ∧
          (s.powerStep < 3 → (∃ x ∈ k.table, apart x k.p0) → ∃ e, first (fun x => apart x k.p0) e ∧ members s' (s'.core c).p1 e ∧
            (s'.core c).table = (k.table.filter fun x => decide (x ≠ e)))) ∧
        (k.p0 ≠ [] → k.p1 ≠ [] → (s'.core c).p0 = k.p0 ∧ (s'.core c).p1 = k.p1 ∧ (s'.core c).table = k.table)) ∧
  (∀ s t th, let c := s.arg.core
    let k := s.core c
    let fits (e : Entry) : Prop := e.pc = th.pc ∧ e.j = th.loaf.j ∧ e.cnt = th.loaf.cnt ∧ e.trapMode = th.trap.isSome ∧ e.leaven = th.leaven ∧
      ∀ u ∈ e.members, u.lane ≠ t.lane
    k.fillAt = s.clock → (s.partn (s.partOf c)).halted = false → k.overflow = [] → k.p0 ≠ [] → k.p1 ≠ [] → (s.threads.map Prod.fst).Nodup →
    (∀ x ∈ s.threads, x.1.core = c → x.1 ≠ t → x.2.st ≠ .ready) → s.thread? t = some th → t.core = c → t.slot < 64 → th.st = .ready → th.outs = [] →
    (s.warp c t.slot).gen = none → ∃ s', exec .grouperFill s = .next s' ∧ (s'.thread? t).map Thread.st = some .listed ∧
      (∀ i e, k.table[i]? = some e → fits e → (∀ m < i, ∀ x, k.table[m]? = some x → ¬fits x) →
        ∀ m : Nat, (s'.core c).table[m]? = if m = i then some { e with members := e.members ++ [t] } else k.table[m]?) ∧
      ((∀ e ∈ k.table, ¬fits e) → k.table.length < 256 → (s'.core c).table = k.table ++
        [{ pc := th.pc, j := th.loaf.j, cnt := th.loaf.cnt, trapMode := th.trap.isSome, leaven := th.leaven, members := [t], created := s.clock,
           born := k.loaves }]) ∧
      ((∀ e ∈ k.table, ¬fits e) → 256 ≤ k.table.length → (s'.core c).table = k.table ∧ (s'.core c).overflow = [(t, k.loaves)])) ∧
  (∀ s, let c := s.arg.core
    ∃ s', exec .entryAged s = .next s' ∧ s' = s.setCore c { s.core c with table := (s'.core c).table } ∧
      ∀ j : Nat, (s'.core c).table[j]? = ((s.core c).table[j]?).map fun e =>
        if j = s.arg.k ∧ (e.aged = true ∨ e.created + 256 ≤ s.clock) then { e with aged := true } else e) ∧
  (let after (i : Instr) (th : Thread) : Prop := i.wf = true ∧ (∀ x ∈ i.shape.latches, x < th.loaf.j + 1) ∧ th.loaf.cnt < 23 ∧
      overBudget i th = false ∧ th.outs = [] ∧ th.bad = [] ∧ th.leaven = false
   let pair (m k : Fusable) (fm fk : Thread → Res) (dst : Thread → Dword := fun th => th.pc + BitVec.ofNat 64 (fusedInstr k).len) : Prop :=
    ∀ s, s.arg.fused = [m, k] → fusedQualifies [m, k] = true → Clean (fusedInstr m) s → (∀ t ∈ s.group, after (fusedInstr k) (s.thread t)) →
      (∀ t ∈ s.group, ∀ th1, Delivered (fusedInstr m) (s.thread t) th1 (fm (s.thread t)) →
        ∀ o x p, k = .br o x p → th1.pred p.toNat ≠ x → 0 ≤ (th1.pc.toNat : Int) + 4 + 2 * o.toInt ∧
          (th1.pc.toNat : Int) + 4 + 2 * o.toInt ≤ 0xFFFF_FFFF_FFFE) →
      ∃ s', exec .fusedGroup s = .next s' ∧
        (∀ t ∈ s.group, ∃ th1 th2, s'.thread? t = some th2 ∧ Delivered (fusedInstr m) (s.thread t) th1 (fm (s.thread t)) ∧
          Delivered (fusedInstr k) th1 th2 (fk th1) (dst th1)) ∧
        (∀ t, t ∉ s.group → s'.thread? t = s.thread? t) ∧ OnlyThreads (fusedInstr k) s s'
   (∀ b a n d b2 a2 n2 d2 e2, pair (.mullo b a n d false) (.add b2 a2 n2 d2 e2)
      (fun th => res1 n d.toNat (BitVec.ofNat 32 ((th.word a.toNat).toNat * (th.word b.toNat).toNat)))
      (fun th => res1 n2 d2.toNat (BitVec.ofNat 32 ((th.word a2.toNat).toNat + (th.word b2.toNat).toNat)))) ∧
   (∀ (k : BitVec 5) a n d b2 a2 n2 d2 e2, pair (.shli k a n d false) (.add b2 a2 n2 d2 e2)
      (fun th => res1 n d.toNat (BitVec.ofNat 32 ((th.word a.toNat).toNat * 2 ^ k.toNat)))
      (fun th => res1 n2 d2.toNat (BitVec.ofNat 32 ((th.word a2.toNat).toNat + (th.word b2.toNat).toNat)))) ∧
   (∀ m n d m2 n2 d2 e2, pair (.movh m n d false) (.orl m2 n2 d2 e2)
      (fun _ => res1 n d.toNat (BitVec.ofNat 32 (m.toNat * 2 ^ 16)))
      (fun th => res1 n2 d2.toNat (th.word d2.toNat ||| BitVec.ofNat 32 m2.toNat))) ∧
   (∀ b a (c : BitVec 4) (p : BitVec 2) o x (q : BitVec 2), pair (.icmp 0 b a c p false) (.br o x q)
      (fun th => { preds := [(p.toNat, intCond c.toNat (th.word a.toNat) (th.word b.toNat))] }) (fun _ => {})
      fun th => if th.pred q.toNat ≠ x then BitVec.ofInt 64 (th.pc.toNat + 4 + 2 * o.toInt) else th.pc + 4)) ∧
  (∀ s m k, s.group ≠ [] → s.arg.fused = [m, k] → fusedQualifies [m, k] = true → ∀ s1, exec (fusedInstr m) s = .next s1 →
    (fusedGoesOn m s s1 = true → exec .fusedGroup s = exec (fusedInstr k) s1) ∧ (fusedGoesOn m s s1 = false → exec .fusedGroup s = .next s1)) ∧
  (∀ s m k l, s.group ≠ [] → s.arg.fused = [m, k, l] → fusedQualifies [m, k, l] = true →
    ∀ s1 s2, exec (fusedInstr m) s = .next s1 → fusedGoesOn m s s1 = true → exec (fusedInstr k) s1 = .next s2 → fusedGoesOn k s1 s2 = true →
    exec .fusedGroup s = exec (fusedInstr l) s2) ∧
  (∀ s, s.group ≠ [] → fusedQualifies s.arg.fused = false → exec .fusedGroup s = .next s) ∧
  (∀ s since sl, let t := s.arg.t
    let th := s.thread t
    let blk := s.block (s.blkOf t)
    let loads := th.st = .waiting .outs ∧ ∃ o ∈ th.outs, o.ld = true ∧ o.named = true ∧
      (o.must = true ∨ ((∀ x ∈ th.outs, x.named = true ∧ x.must = false) ∧ s.heldBack t { th with outs := [o] } = true))
    let has := ∃ w ∈ s.warps, w.2.leaven.isSome = true ∧ w.2.blk = s.blkOf t
    (s.thread? t).isSome = true → th.leaven = false → th.stall = some since →
    ((blk.leavenBudget = 0 ∨ has ∨ s.freeSlots t.core = [] ∨ s.clock < since + 256 ∨ ¬loads) → exec .leavenSpawn s = .next s) ∧
    (loads → since + 256 ≤ s.clock → blk.leavenBudget ≠ 0 → blk.leavenBudget ≤ 124 → ¬has → (s.warp? t.core t.slot).isSome = true →
      blk.benched = false → (s.freeSlots t.core).head? = some sl → (s.threads.map Prod.fst).Nodup →
      ∃ s', exec .leavenSpawn s = .next s' ∧
        (∃ w, s'.warp? t.core sl = some w ∧ w.blk = s.blkOf t ∧ w.k = (s.warp t.core t.slot).k ∧ w.leaven = some (s.clock, t)) ∧
        (∀ l x, s.thread? ⟨t.core, t.slot, l⟩ = some x → x.live = true → ∃ y, s'.thread? ⟨t.core, sl, l⟩ = some y ∧
          y.pc = blk.leavenEntry ∧ y.leaven = true ∧ y.budget = blk.leavenBudget ∧ y.loaf = {} ∧ y.trap = none ∧ y.aflags = 0 ∧ y.st = .ready ∧
          y.p1 = x.p1 ∧ y.p2 = x.p2 ∧ y.p3 = x.p3 ∧
          ∀ r < blk.leavenBudget, y.rd r = if ∃ o ∈ x.outs, o.base ≤ r ∧ r < o.base + o.n then 0 else x.rd r) ∧
        (∀ u, u.core ≠ t.core ∨ u.slot ≠ sl → s'.thread? u = s.thread? u) ∧ s'.mem = s.mem ∧ s'.blocks = s.blocks ∧ s'.parts = s.parts)) ∧
  (∀ s since t, let c := s.arg.core
    let sl := s.arg.slot
    (s.warp c sl).leaven = some (since, t) → (s.warp? c sl).isSome = true →
    (s.clock < since + 4096 → exec .leavenContextEnd s = .next s) ∧
    (since + 4096 ≤ s.clock → ∃ s', exec .leavenContextEnd s = .next s' ∧ s'.warp? c sl = none ∧ (∀ l, s'.thread? ⟨c, sl, l⟩ = none) ∧
      (∀ u, u.core ≠ c ∨ u.slot ≠ sl → s'.thread? u = s.thread? u) ∧ s'.mem = s.mem ∧ s'.blocks = s.blocks ∧ s'.parts = s.parts))

/-- R139 to R147 and R344: notifies, queues, records and their placement, and R148: migration. Where the round robin of a priority
stands is log 54, which cycles count as starving and the reserved bits of a record's bytes, unreadable records and trees are log 28, the
failures of the scheduler's accesses are log 61, an object that fails at the end is log 62, bit 0 of a handler is log 65, and that a
migration keeps the place within a cluster is log 30: these are the model's. -/
def Obligations.LaunchQueuesAndRecords : Prop :=
  let same (o : Own) (hdr : Nat) (x : QSlot) : Prop := x.part = o.part ∧ x.tenant = o.tenant ∧ x.hdr = hdr
  -- a queue is stopped: QERR, its slot is free, notice 1
  let stopped (i : Instr) (s a : State) (o : Own) (hdr : Nat) : Prop := ∃ u : State, exec i s = .next (u.notice o.part 1 o.tenant hdr 0) ∧
    (∀ x, x ∈ u.slots ↔ x ∈ s.slots ∧ ¬same o hdr x.2) ∧ u.launches = s.launches ∧ u.blocks = s.blocks ∧
    ∀ pa, hubXlate a o (hdr + 11) 1 true = some pa → MemInv a → LineClean a (pa / 128) →
      (∀ l, l2find a (pa / 128) = some l → l.cmp = false) → homeByte u pa = homeByte a pa ||| 1
  let mapped (s : State) (q : PendQ) (h : Header) (rs : List (List Byte)) : QSlot :=
    { part := q.part, tenant := q.tenant, hdr := q.hdr, base := h.base, lsize := h.size, prio := h.prio, nopre := h.nopre, serial := h.serial,
      head := h.head, tail := h.tail, mappedAt := s.clock, recs := rs }
  let placedOf (s : State) (q : QSlot) : Prop := ∃ x ∈ s.launches, x.2.placed = true ∧ x.2.part = q.part ∧ x.2.tenant = q.tenant ∧ x.2.hdr = q.hdr
  -- the acquire of R140, and a write of the scheduler
  (∀ s p, let a := s.acquireHost p
    a = { s with mem := a.mem, l2 := a.l2, floors := a.floors } ∧ (∀ l ∈ a.l2, hostLine l.line = true → present s p (l.line * 128) = false) ∧
    ((∀ l ∈ s.l2, hostLine l.line = true → present s p (l.line * 128) = false) → a = s) ∧
    (MemInv s → (∀ l ∈ s.l2, ∀ b ∈ l.bytes, b.off < 128) → ∀ pa, hostLine (pa / 128) = false → homeByte a pa = homeByte s pa)) ∧
  (∀ s o va bs, let u := hubWriteVa s o va bs
    (hubXlate s o va bs.length true = none → u = s) ∧
    ∀ pa, hubXlate s o va bs.length true = some pa → u.slots = s.slots ∧ u.launches = s.launches ∧ u.blocks = s.blocks ∧
      (MemInv s → (∀ ln, LineClean s ln) → (∀ l ∈ s.l2, l.cmp = false) →
        ∀ x, homeByte u x = if pa ≤ x ∧ x < pa + bs.length then bs.getD (x - pa) 0 else homeByte s x)) ∧
  -- notifies
  (∀ s, let p := s.arg.part
    let tenant : Nat := s.arg.writer.getD (s.arg.v.toNat % 64)
    let hdr := s.arg.v.toNat / 64 % 2 ^ 42 * 64
    let o : Own := ⟨p, tenant⟩
    let q : PendQ := ⟨p, tenant, hdr⟩
    let a := s.acquireHost p
    let un : State := { a with pending := s.pending.filter fun x => decide (x ≠ q) }
    let current := ∃ c, (s.partn p).cur = some c ∧ c.tenant = tenant
    (s.regsAnswer p = false → exec .lqn s = .next s) ∧
    (s.regsAnswer p = true → ¬current →
      (q ∈ s.pending → exec .lqn s = .next s) ∧
      (q ∉ s.pending → s.pending.length < 4096 → exec .lqn s = .next { s with pending := s.pending ++ [q] }) ∧
      (q ∉ s.pending → 4096 ≤ s.pending.length → exec .lqn s = .next (s.notice p 5 tenant hdr 0))) ∧
    (s.regsAnswer p = true → current → hubXlate a o hdr 64 true = none → exec .lqn s = .next (un.notice p 1 tenant hdr 0)) ∧
    (∀ pa, s.regsAnswer p = true → current → hubXlate a o hdr 64 true = some pa →
      let b := hubRead a pa 64
      let size := field b 8 1 % 32
      let excess (n head : Nat) : Prop := 2 ^ n < (field b 20 4 + 2 ^ 32 - head) % 2 ^ 32
      let bad := 16 < size ∨ field b 0 8 % 256 ≠ 0 ∨ 32 ≤ field b 8 1 ∨ 8 ≤ field b 9 1 ∨ 4 ≤ field b 10 1 ∨ excess size (field b 16 4)
      let slot : QSlot := { part := p, tenant := tenant, hdr := hdr, base := field b 0 8, lsize := size, prio := field b 9 1 % 8,
                            nopre := (field b 10 1).testBit 0, serial := (field b 10 1).testBit 1, head := field b 16 4, tail := field b 20 4, mappedAt := s.clock }
      (field b 11 1 % 2 = 1 → exec .lqn s = .next un) ∧
      (field b 11 1 % 2 = 0 → ∀ k x, s.slotOf o hdr = some k → tget s.slots k = some x →
        let all := (field b 20 4 + 2 ^ 32 - x.head) % 2 ^ 32
        let known := x.recs.take all
        let rest := a.readRecords o x.base x.lsize (x.head + known.length) (all - known.length)
        (∀ rs, ¬excess x.lsize x.head → rest = some rs → ∃ s', exec .lqn s = .next s' ∧ s' = { un with slots := s'.slots } ∧
          ∀ j, tget s'.slots j = if j = k then some { x with tail := field b 20 4, recs := known ++ rs } else tget s.slots j) ∧
        (excess x.lsize x.head ∨ rest = none → stopped .lqn s a o hdr)) ∧
      (field b 11 1 % 2 = 0 → s.slotOf o hdr = none →
        let all := a.readRecords o (field b 0 8) size (field b 16 4) ((field b 20 4 + 2 ^ 32 - field b 16 4) % 2 ^ 32)
        (bad ∨ all = none → stopped .lqn s a o hdr) ∧
        (∀ rs, ¬bad → all = some rs → ∀ k < 256, tget s.slots k = none → (∀ j < k, (tget s.slots j).isSome = true) →
          ∃ s', exec .lqn s = .next s' ∧ s' = { un with slots := s'.slots } ∧ ∀ j, tget s'.slots j = if j = k then some { slot with recs := rs } else tget s.slots j) ∧
        -- no slot is free: the lowest priority not above the new one, mapped longest, gives way
        (∀ rs k x, ¬bad → all = some rs → (∀ j < 256, (tget s.slots j).isSome = true) → (s.slots.map Prod.fst).Nodup → (k, x) ∈ s.slots →
          x.nopre = false → x.prio ≤ slot.prio →
          (∀ y ∈ s.slots, y.2.nopre = false → y.2.prio ≤ slot.prio → y = (k, x) ∨ x.prio < y.2.prio ∨ (x.prio = y.2.prio ∧ x.mappedAt < y.2.mappedAt)) →
          un.pending.length < 4096 → (⟨x.part, x.tenant, x.hdr⟩ : PendQ) ∉ un.pending →
          ∃ s', exec .lqn s = .next s' ∧ s' = { un with slots := s'.slots, pending := s'.pending, launches := s'.launches } ∧
            s'.pending = un.pending ++ [⟨x.part, x.tenant, x.hdr⟩] ∧ (∀ j, tget s'.slots j = if j = k then some { slot with recs := rs } else tget s.slots j) ∧
            s'.launches = match x.cand with | none => s.launches | some l => tdel s.launches l) ∧
        (¬bad → all.isSome = true → (∀ j < 256, (tget s.slots j).isSome = true) → (∀ x ∈ s.slots, x.2.nopre = true) → q ∉ s.pending → s.pending.length < 4096 →
          exec .lqn s = .next (({ a with pending := s.pending ++ [q] } : State).notice p 4 tenant hdr 0)) ∧
        (¬bad → all.isSome = true → (∀ j < 256, (tget s.slots j).isSome = true) → (∀ x ∈ s.slots, x.2.nopre = true ∨ slot.prio < x.2.prio) →
          (∃ x ∈ s.slots, x.2.nopre = false) → q ∉ s.pending → s.pending.length < 4096 → exec .lqn s = .next { a with pending := s.pending ++ [q] })))) ∧
  -- taking a record
  (∀ s q, let k := s.arg.k
    let o : Own := ⟨q.part, q.tenant⟩
    let va := q.base + 256 * (q.head % 2 ^ q.lsize)
    let taken := ∃ x ∈ s.launches, x.2.placed = false ∧ x.2.part = q.part ∧ x.2.tenant = q.tenant ∧ x.2.hdr = q.hdr
    tget s.slots k = some q →
    ((taken ∨ q.recs = [] ∨ s.isCurrent o = false) → exec .takeRecord s = .next s) ∧
    (∀ b rest, ¬taken → s.isCurrent o = true → q.recs = b :: rest →
      ((checkRecord s o b).1 = 0 → ∃ s' l, exec .takeRecord s = .next s' ∧ s'.launch? s.nextLaunch = some l ∧ l.part = q.part ∧ l.tenant = q.tenant ∧
        l.recVa = va ∧ l.prio = q.prio ∧ l.serial = q.serial ∧ l.placed = false ∧ l.lrec = LRec.of b ∧
        tget s'.slots k = some { q with cand := some s.nextLaunch } ∧ s'.nextLaunch = s.nextLaunch + 1 ∧
        s' = { s with launches := s'.launches, nextLaunch := s'.nextLaunch, slots := s'.slots }) ∧
      -- rejected: status 3 and the reason, the head goes on, notice 2
      (∀ r, (checkRecord s o b).1 = r → r ≠ 0 → s.slotOf o q.hdr = some k →
        let u := hubWriteVa (hubWriteVa s o (va + 248) [3, BitVec.ofNat 8 r]) o (q.hdr + 16) (leBytes 4 ((q.head + 1) % 2 ^ 32))
        exec .takeRecord s = .next (({ u with slots := tput s.slots k { q with head := (q.head + 1) % 2 ^ 32, cand := none, recs := rest } } : State).notice
          q.part 2 q.tenant va r)))) ∧
  (∀ s o b, let n (off k : Nat) := field b off k
    let w := 2 ^ (n 24 1 % 8)
    let h := 2 ^ (n 25 1 % 8)
    let cnt (i : Nat) := n (32 + i) 1
    let bud (i : Nat) := n (36 + i) 1
    let total := cnt 0 + cnt 1 + cnt 2 + cnt 3
    let addr (i : Nat) : Prop := n i 8 % 16 ≠ 0 ∨ 2 ^ 48 ≤ n i 8 ∨ (n i 8 ≠ 0 ∧ hubXlate s o (n i 8) 16 (decide (i = 104)) = none)
    let tree := hubReadVa s o 4 (n 96 8) (16 + 2 * (w * h))
    -- R358: no tree with one root
    let par (t : List Byte) (i : Nat) := field t (16 + 2 * i) 2
    let malformed (t : List Byte) (m : Nat) : Prop := field t 0 2 ≠ m ∨ 2 ≤ field t 2 1 ∨ field t 3 1 ≠ 0 ∨ field t 8 8 ≠ 0 ∨
      ((List.range m).filter fun i => decide (par t i = 0xFFFF)).length ≠ 1 ∨ (∃ i < m, par t i ≠ 0xFFFF ∧ m ≤ par t i) ∨ ∃ i < m, ∀ k ≤ m, par t ((par t)^[k] i) ≠ 0xFFFF
    let why : Nat → Prop
      | 1 => n 0 8 % 2 = 1 ∨ 2 ^ 48 ≤ n 0 8 ∨ n 40 4 % 2 = 1 ∨ n 44 4 % 2 = 1 ∨ n 48 4 % 2 = 1 ∨ n 60 4 % 2 = 1
      | 2 => 6 < n 24 1 % 8 ∨ 5 < n 25 1 % 8 ∨ (if n 26 1 % 2 = 1 then n 28 1 % w ≠ 0 ∨ n 29 1 % h ≠ 0 ∨ s.onPart o.part w h (n 28 1) (n 29 1) = false
          else ∀ x y, x % w = 0 → y % h = 0 → s.onPart o.part w h x y = false)
      | 3 => total = 0 ∨ 48 < total
      | 4 => (∃ i < 4, cnt i ≠ 0 ∧ (bud i % 4 ≠ 0 ∨ bud i < 8 ∨ 124 < bud i)) ∨
          2048 < cnt 0 * bud 0 + cnt 1 * bud 1 + cnt 2 * bud 2 + cnt 3 * bud 3 + n 57 1
      | 5 => n 52 4 % 1024 ≠ 0 ∨ 327680 < n 52 4 + 1024 * n 56 1 ∨ total < n 56 1
      | 6 => (n 57 1 ≠ 0 ∧ (n 57 1 % 4 ≠ 0 ∨ n 57 1 < 8 ∨ 32 < n 57 1)) ∨ (n 57 1 = 0 ∧ n 60 4 ≠ 0)
      | 7 => addr 96 ∨ addr 104 ∨ addr 112 ∨ addr 128 ∨ addr 144 ∨ addr 160 ∨ (n 96 8 ≠ 0 ∧ tree = none)
      | 8 => ∃ i, (i = 27 ∨ i = 30 ∨ i = 31 ∨ i = 58 ∨ i = 59 ∨ (176 ≤ i ∧ i < 248) ∨ (250 ≤ i ∧ i < 256)) ∧ n i 1 ≠ 0
      | 9 => n 96 8 ≠ 0 ∧ ∀ t, tree = some t → malformed t (w * h)
      | _ => False
    b.length = 256 → ∀ r, (checkRecord s o b).1 = r ↔ (r = 0 ∧ ∀ j, ¬why j) ∨ (why r ∧ ∀ j < r, ¬why j)) ∧
  -- a slot frees, and a free slot takes a pending queue
  (∀ s : State, s.arg.k < 256 → let k := s.arg.k
    let held (q : QSlot) := q.head ≠ q.tail ∨ q.cand ≠ none ∨ placedOf s q
    let f : State := { s with slots := tdel s.slots k }
    let cur (q : PendQ) : Prop := s.isCurrent ⟨q.part, q.tenant⟩ = true
    (∀ q, tget s.slots k = some q → held q → exec .slotFree s = .next s) ∧
    ((∀ q, tget s.slots k = some q → ¬held q) →
      ((∀ q ∈ s.pending, ¬cur q) → ∃ s', exec .slotFree s = .next s' ∧ s' = { s with slots := s'.slots } ∧ ∀ j, tget s'.slots j = if j = k then none else tget s.slots j) ∧
      (∀ before q behind h rs, s.pending = before ++ q :: behind → cur q → (∀ l ∈ s.l2, hostLine l.line = false) →
        (∀ x ∈ s.pending, cur x → ∃ hx, f.header ⟨x.part, x.tenant⟩ x.hdr = some hx ∧ hx.qerr = false ∧ hx.malformed = false ∧
          (hx.tail + 2 ^ 32 - hx.head) % 2 ^ 32 ≤ 2 ^ hx.size ∧ f.slotOf ⟨x.part, x.tenant⟩ x.hdr = none ∧ (f.headerRecords ⟨x.part, x.tenant⟩ hx).isSome = true) →
        f.header ⟨q.part, q.tenant⟩ q.hdr = some h → f.headerRecords ⟨q.part, q.tenant⟩ h = some rs →
        (∀ x ∈ before, cur x → ∀ hx, f.header ⟨x.part, x.tenant⟩ x.hdr = some hx → hx.prio < h.prio) →
        (∀ x ∈ behind, cur x → ∀ hx, f.header ⟨x.part, x.tenant⟩ x.hdr = some hx → hx.prio ≤ h.prio) →
        ∃ s', exec .slotFree s = .next s' ∧ s' = { s with slots := s'.slots, pending := s'.pending } ∧ s'.pending = s.pending.filter (fun x => decide (x ≠ q)) ∧
          ∀ j, tget s'.slots j = if j = k then some (mapped s q h rs) else tget s.slots j))) ∧
  -- the candidates and their order
  (∀ s : State, let old (l : Launch) := l.starving = true ∨ ∃ t, l.offeredAt = some t ∧ t + 65536 ≤ s.clock
    let from_ (l : Launch) := (l.slot + 256 - (tget s.rr l.prio).getD 0) % 256
    (∀ l, s.eligible l = true ↔ l.placed = false ∧ s.placing ⟨l.part, l.tenant⟩ = true ∧
      (∀ w ∈ l.lrec.waits, w.1 = 0 ∨ ∃ bs, hubReadVa s ⟨l.part, l.tenant⟩ 2 w.1.toNat 8 = some bs ∧ w.2.toNat ≤ field bs 0 8) ∧
      (l.serial = true → ∀ x ∈ s.launches, ¬(x.2.placed = true ∧ x.2.part = l.part ∧ x.2.tenant = l.tenant ∧ x.2.hdr = l.hdr))) ∧
    (∀ o, s.placing o = true ↔ s.isCurrent o = true ∧ (s.partn o.part).halted = false ∧ (s.partn o.part).switch = .idle ∧ s.powerStep < 4) ∧
    (∀ x, x ∈ s.candidates ↔ x ∈ s.launches ∧ s.eligible x.2 = true ∧ ∀ y ∈ s.launches, y.2.placed = false → old y.2 → y.2.prio ≤ x.2.prio) ∧
    ((∀ x ∈ s.launches, x.2.prio ≤ 7) →
      s.candidates.Pairwise fun x y => y.2.prio < x.2.prio ∨ (x.2.prio = y.2.prio ∧ from_ x.2 ≤ from_ y.2))) ∧
  -- the first rectangle that fits
  (∀ (s : State) (l : Launch), let r := l.lrec
    let w := 2 ^ r.lw
    let h := 2 ^ r.lh
    let core (x y i : Nat) := 64 * (y + i / w) + x + i % w
    let fits (x y : Nat) : Prop := ∀ i < w * h, r.warps.foldl (· + ·) 0 ≤ (s.freeSlots (core x y i)).length ∧
      s.regsUsed (core x y i) + ((r.warps.zip r.budgets).foldl (fun n x => n + x.1 * x.2) 0 + r.lbudget) ≤ 2048 ∧
      (scrWays s (core x y i)).length + (r.scratch + 1024 * r.reserve + 16383) / 16384 ≤ 20
    let may (x y : Nat) : Prop := if r.fixed = true then x = r.ox ∧ y = r.oy else x % w = 0 ∧ y % h = 0 ∧ s.onPart l.part w h x y = true
    (s.originFor l = none ↔ ∀ x y, may x y → ¬fits x y) ∧
    ∀ x y, s.originFor l = some (x, y) ↔ may x y ∧ fits x y ∧ ∀ x' y', may x' y' → y' < y ∨ (y' = y ∧ x' < x) → ¬fits x' y') ∧
  -- offering and placing
  (∀ s : State, (∀ x ∈ s.candidates, s.originFor x.2 = none) → (s.launches.map Prod.fst).Nodup → ∃ s', exec .offerCandidate s = .next s' ∧ s' = { s with launches := s'.launches } ∧
    ∀ x ∈ s.launches, s'.launch? x.1 = some (if x ∈ s.candidates then { x.2 with offeredAt := some (x.2.offeredAt.getD s.clock) } else x.2)) ∧
  (∀ (s : State) id (l : Launch) before rest x y, s.candidates = before ++ (id, l) :: rest → (∀ z ∈ before, s.originFor z.2 = none) →
    let r := l.lrec
    let w := 2 ^ r.lw
    let h := 2 ^ r.lh
    let core (i : Nat) := 64 * (y + i / w) + x + i % w
    let role (j : Nat) : Nat := if j < r.warps.getD 0 0 then 0 else if j < r.warps.getD 0 0 + r.warps.getD 1 0 then 1
      else if j < r.warps.getD 0 0 + r.warps.getD 1 0 + r.warps.getD 2 0 then 2 else 3
    s.originFor l = some (x, y) → x + w ≤ 64 → y + h ≤ 32 → r.warps.length = 4 →
      ∃ s', exec .offerCandidate s = .next s' ∧
        (∃ l', s'.launch? id = some l' ∧ l'.placed = true ∧ l'.x0 = x ∧ l'.y0 = y ∧ l'.blocksLeft = w * h ∧ l'.lrec = r) ∧
        (∀ i < w * h, ∃ b, s'.block? ⟨id, i⟩ = some b ∧ b.core = core i ∧ b.cx = i % w ∧ b.cy = i / w ∧ b.rw = w ∧ b.rh = h ∧ b.cells = [] ∧
          b.nwarps = r.total ∧ b.slots = (s.freeSlots (core i)).take r.total ∧
          ∀ j sl, b.slots[j]? = some sl → j < r.total →
            (∃ k, s'.warp? (core i) sl = some { blk := ⟨id, i⟩, role := role j, k := k } ∧ k[0]? = some (r.args.setWidth 32) ∧
              k[1]? = some ((r.args >>> 32).setWidth 32) ∧ k[63]? = some 0xFFFF_FFFF ∧ ∀ m, 2 ≤ m → m < 63 → k[m]? = some 0) ∧
            ∀ lane < 32, s'.thread? ⟨core i, sl, lane⟩ = some {
              tid := 32 * j + lane, budget := r.budgets.getD (role j) 0, xvec := r.handler &&& ~~~1#64,
              pc := if role j = 0 then r.entry else r.entry + (r.roles.getD (role j - 1) 0).signExtend 64,
              st := if ((List.range 4).all fun m => decide (r.transforms.getD m 0 = 0)) = true then .ready else .waiting .sifter }) ∧
        -- status 1, the head and the round robin; nothing else of memory or of the hub
        (∀ k q, s.slotOf ⟨l.part, l.tenant⟩ l.hdr = some k → tget s.slots k = some q → (∀ z ∈ r.waits, z.1 = 0) → (∀ i < w * h, (s.core (core i)).l1 = []) →
          ∃ P : State, P = { s with threads := P.threads, warps := P.warps, blocks := P.blocks, cores := P.cores, launches := P.launches } ∧
            let u := hubWriteVa (hubWriteVa P ⟨l.part, l.tenant⟩ (l.recVa + 248) [1]) ⟨l.part, l.tenant⟩ (l.hdr + 16) (leBytes 4 ((q.head + 1) % 2 ^ 32))
            s' = { u with slots := tput s.slots k { q with head := (q.head + 1) % 2 ^ 32, cand := none, recs := q.recs.drop 1 },
                          rr := tput s.rr l.prio ((l.slot + 1) % 256) })) ∧
  (∀ s l, s.launch? s.arg.k = some l → ∃ s', exec .recordStarvation s = .next s' ∧
    s'.launch? s.arg.k = some (if l.placed = false ∧ (l.starving = true ∨ ∃ t, l.offeredAt = some t ∧ t + 65536 ≤ s.clock) then { l with starving := true } else l) ∧
    s' = { s with launches := s'.launches }) ∧
  -- migration
  (∀ s wait l, s.launch? s.arg.slot = some wait → s.launch? s.arg.n = some l →
    let w := 2 ^ l.lrec.lw
    let h := 2 ^ l.lrec.lh
    let x := s.arg.k
    let y := s.arg.off
    let due := (∃ t, wait.offeredAt = some t ∧ t + 4096 ≤ s.clock) ∧ s.eligible wait = true ∧ s.originFor wait = none
    let may := l.placed = true ∧ l.lrec.nomig = false ∧ l.prio ≤ wait.prio ∧ l.part = wait.part ∧ x % w = 0 ∧ y % h = 0 ∧ s.onPart l.part w h x y = true
    let near := s.isCurrent ⟨l.part, l.tenant⟩ = true ∧ x % 4 = l.x0 % 4 ∧ y % 4 = l.y0 % 4 ∧ (x, y) ≠ (l.x0, l.y0)
    (¬due ∨ ¬may ∨ ¬near → exec .migration s = .next s) ∧
    (due → may → near → s.migrate s.arg.n l x y = none → exec .migration s = .next s) ∧
    (due → may → near → (s.migrate s.arg.n l x y).isSome = true → l.x0 % w = 0 → l.y0 % h = 0 → (∀ z ∈ s.threads, z.1.slot < 64) →
      ∃ s', exec .migration s = .next s' ∧ (∃ l', s'.launch? s.arg.n = some l' ∧ l'.x0 = x ∧ l'.y0 = y ∧ l'.lrec = l.lrec) ∧ s'.clock = s.clock + 64 ∧
        -- a thread with nothing outstanding goes on as it was
        ∀ i < w * h, ∀ sl lane th, s.thread? ⟨64 * (l.y0 + i / w) + l.x0 + i % w, sl, lane⟩ = some th → (s.blkOf ⟨64 * (l.y0 + i / w) + l.x0 + i % w, sl, lane⟩).launch = s.arg.n →
          th.leaven = false → th.st = .ready → th.outs = [] → th.stores = [] → th.sc = none →
          ∃ th', s'.thread? ⟨64 * (y + i / w) + x + i % w, sl, lane⟩ = some th' ∧ th'.st = .ready ∧ th'.g = th.g ∧ th'.p1 = th.p1 ∧ th'.p2 = th.p2 ∧ th'.p3 = th.p3 ∧
            th'.pc = th.pc ∧ th'.loaf = th.loaf ∧ th'.tid = th.tid ∧ th'.aflags = th.aflags ∧ th'.trap = th.trap))

/-- R269, R274, R282 to R294, R34: copy commands, the sifter and the end of a block. A command is walked element by element, dimension 0 fastest
(log 23: the order, and that an error stops it there, are the model's), and the swizzle acts on each byte's own offset (log 24): both are
the model's readings. -/
def Obligations.CopyCommandsAndBlockEnd : Prop :=
  let at_ (s : State) (br : BRef) (off : Nat) : Obj := Obj.of (scrRead s br off 16)
  let checked (o : Obj) : Obj :=
    if o.err = false ∧ o.arrx ≤ o.arrived ∧ o.expect ≤ o.count then
      if o.expect < o.count then { o with err := true, ecode := 1 }
      else { o with phcnt := (o.phcnt + 1) % 65536, phase := (o.phcnt + 1) % 2 = 1, expect := 0, count := 0, arrived := 0 }
    else o
  let alone (s : State) (br : BRef) (off : Nat) : Prop :=
    Memory.wf (s.block br).cells = true ∧ (∀ x ∈ s.cores, x.2.runs = []) ∧
      ∀ x ∈ s.threads, match x.2.st with | .waiting (.object b o _ _ _) => ¬(b = br ∧ o = off) | _ => True
  let isOk (r : Except Nat (List Byte × Bool)) : Bool := match r with | .ok _ => true | .error _ => false
  -- the tensor index of element k of a box, whether it is in bounds, and the places of its bytes in the scratchpad
  let idx (d : Copy) (k : Nat) := d.index (boxIndex d.dims k)
  let inb (d : Copy) (k : Nat) : Bool := d.inBounds (idx d k)
  let off (d : Copy) (k : Nat) : Nat := (d.offset (idx d k)).toNat
  let places (d : Copy) (l : Nat) : List Nat := (List.range d.zd).map fun j => swizzle d.swz (d.dest + d.zd * l + j)
  let place (d : Copy) (k : Nat) := places d (d.rank (boxIndex d.dims k))
  -- a dequantised element (R65, R287): code and block scale, with the state its reads leave
  let deq (d : Copy) (o : Own) (c : Nat) (u : State) (i : List Int) : State × Except Nat (List Byte × Bool) :=
    let x (n : Nat) : Nat := (i.getD n 0).toNat
    let row : Nat := d.base + 16 * (x 1 * (d.dim 1).stride + x 2 * (d.dim 2).stride + x 3 * (d.dim 3).stride + x 4 * (d.dim 4).stride)
    let b := x 0 / 64 + (d.dim 0).size / 64 * (x 1 + (d.dim 1).size * (x 2 + (d.dim 2).size * (x 3 + (d.dim 3).size * x 4)))
    let rec_ := d.aux % 2 ^ 48 + 260 * (b / 256)
    let r0 := if d.srcf = 0 then engineRead u o c false (row + x 0 / 2 : Nat) 1 else engineRead u o c false (row + x 0 / 64 * 48 : Nat) 48
    let r1 := engineRead r0.1 o c false (rec_ + b % 256 : Nat) 1
    let r2 := engineRead r1.1 o c false (rec_ + 256 : Nat) 4
    match r0.2, r1.2, r2.2 with
    | .error e, _, _ => (r0.1, .error e)
    | .ok _, .error e, _ => (r2.1, .error e)
    | .ok _, .ok _, .error e => (r2.1, .error e)
    | .ok p, .ok sc, .ok ss =>
      let code := if d.srcf = 0 then leValue p / 16 ^ (x 0 % 2) % 16 else leValue p / 2 ^ (6 * (x 0 % 64)) % 64
      let v := if d.srcf = 0 then (widenF BF16 FP32 (nq4Table.getD code 0)).1 else (widenF FH6 FP32 code).1
      let y := scaleAdd 0 v (leValue sc) (leValue ss)
      (r2.1, .ok (leBytes 4 y.1, decide (y.2 &&& INV ≠ 0)))
  -- the first m elements of a load: σ the states before each, ρ what each reads, χ the chunks of a decompress
  let walked (d : Copy) (o : Own) (c : Nat) (dests : List BRef) (σ τ : Nat → State) (ρ : Nat → Except Nat (List Byte × Bool))
      (χ : Nat → Except Nat (List Byte)) (m : Nat) : Prop := ∀ k < m,
    (if inb d k = false then τ k = σ k ∧ ρ k = .ok (d.fillBytes, false)
     else if d.xform = 1 then
       (if ∃ j < k, inb d j = true ∧ off d j / 4096 = off d k / 4096 then τ k = σ k else readChunk (σ k) o c d.base (off d k / 4096) = (τ k, χ (off d k / 4096))) ∧
       ρ k = (χ (off d k / 4096)).map fun x => ((x.drop (off d k % 4096)).take d.z, false)
     else if d.xform = 2 then deq d o c (σ k) (idx d k) = (τ k, ρ k)
     else ∃ r, engineRead (σ k) o c false (d.base + d.offset (idx d k)) d.z = (τ k, r) ∧ ρ k = r.map fun x => (x, false)) ∧
    σ (k + 1) = match ρ k with | .ok x => scrWriteAll (τ k) dests (place d k) x.1 | .error _ => τ k
  let moved (d : Copy) (ρ : Nat → Except Nat (List Byte × Bool)) (m : Nat) : Moved := (List.range m).foldl (fun μ k =>
    match ρ k with | .ok x => if inb d k = true then μ.add (off d k) x.1 else μ | .error _ => μ) {}
  -- what a load has left in the scratchpads and caches after m elements
  let loaded (d : Copy) (dests : List BRef) (s0 u s' : State) (ρ : Nat → Except Nat (List Byte × Bool)) (m : Nat) : Prop :=
    s' = { u with blocks := s'.blocks, cores := s'.cores, threads := s'.threads } ∧
    (∀ k < m, ∀ x, ρ k = .ok x → ∀ b ∈ dests, ∀ j < d.zd, let p := (place d k).getD j 0
      cellGet (s'.block b).cells p = x.1.getD j 0 ∧ p / 16 ∈ (s'.block b).full) ∧
    (∀ b a, b ∉ dests ∨ (∀ k < m, isOk (ρ k) = true → a ∉ place d k) → cellGet (s'.block b).cells a = cellGet (s0.block b).cells a) ∧
    (∀ b g, b ∉ dests ∨ (∀ k < m, isOk (ρ k) = true → ∀ p ∈ place d k, p / 16 ≠ g) → (g ∈ (s'.block b).full ↔ g ∈ (s0.block b).full))
  let ready (d : Copy) (s0 : State) (br : BRef) (dests : List BRef) : Prop :=
    copyDests s0 br d.mcast = dests.map some ∧ ∀ b ∈ dests, d.fits s0 b = true ∧ Memory.wf (s0.block b).cells = true ∧ (s0.block b).gwait = []
  -- the swizzle, the sum, the checks of a descriptor and of a global access, the destinations
  (∀ o : Nat, swizzle 0 o = o ∧ swizzle 1 o = o ^^^ (o / 128 % 8 * 16) ∧ swizzle 2 o = o ^^^ (o / 128 % 32 * 4)) ∧
  (let mix (a w : Nat) := ((w ^^^ (a * 0xB5AD_4ECE_DA1C_E2A9 % 2 ^ 64)) * 0x9FB2_1C65_1E98_DF25) % 2 ^ 64
   ({} : Moved).sum = 0 ∧
   (∀ (m : Moved) w v, v < 2 ^ 64 → m.words.Nodup → Memory.wf m.cells = true → w ∉ m.words → (m.add (8 * w) (leBytes 8 v)).sum = (m.sum + mix (8 * w) v) % 2 ^ 64) ∧
   (∀ w j (b : Byte), j < 8 → (({} : Moved).add (8 * w + j) [b]).sum = mix (8 * w) (b.toNat * 256 ^ j)) ∧
   (({} : Moved).add 0 (leBytes 8 2)).sum = 0x3F64_38CA_3D31_BE4A) ∧
  (∀ d : Copy, d.malformed = true ↔ 3 ≤ d.swz ∨ 5 ≤ d.rop ∨ d.ctl.testBit 15 = true ∨ (d.store = true ∧ (d.mcast ≠ 0 ∨ d.xform = 1 ∨ d.xform = 2)) ∨
    (d.store = false ∧ d.rop ≠ 0) ∨ ((d.rop = 1 ∨ d.rop = 3 ∨ d.rop = 4) ∧ d.z ≠ 4) ∨ (d.rop = 2 ∧ d.z ≠ 2) ∨ (d.rop ≠ 0 ∧ 2 ^ 20 < d.z * d.count) ∨
    (d.xform = 2 ∧ (d.z ≠ 4 ∨ 2 ≤ d.srcf ∨ (d.dim 0).stride ≠ 0 ∨ (d.dim 0).start % 64 ≠ 0 ∨ (d.dim 0).ext % 64 ≠ 0 ∨ (d.dim 0).size % 64 ≠ 0 ∨ d.aux % 4 ≠ 0 ∨
      2 ^ 48 ≤ d.aux ∨ d.sumx = true)) ∨ (d.aux ≠ 0 ∧ d.sumx = false ∧ d.xform ≠ 2) ∨ (d.dim 0).stride % d.z ≠ 0 ∨ 2 ^ 20 < d.dest + d.zd * d.count) ∧
  (∀ s o c r w cmp va n, engineLoc s o c r w cmp va n = none ↔ 2 ^ 48 ≤ va ∨ ∀ e, translate s c o va = .ok e → let pa := e.pbase + (va - e.vbase)
    present s o.part pa = false ∨ present s o.part (pa + n - 1) = false ∨ (r = true ∧ (e.r1 && e.r2) = false) ∨ (w = true ∧ (e.w1 && e.w2) = false) ∨
      e.mt = 2 ∨ e.cmp ≠ cmp ∨ inDevice pa = true) ∧
  (∀ s o c cmp va n, va % 128 + n ≤ 128 → 0 < n →
    (engineLoc s o c true false cmp va n = none → engineRead s o c cmp va n = (s, .error 4)) ∧
    ∀ pa mt l, engineLoc s o c true false cmp va n = some (pa, mt, l) → let r := readLoc s o c (.glob pa mt cmp) n
      engineRead s o c cmp va n = (r.1, if r.2.2 = true then .error 7 else .ok r.2.1)) ∧
  (∀ (s : State) br m, copyDests s br m = if m = 0 then [some br] else ((List.range 16).filter fun i => m.testBit i).map fun i =>
    (s.blocks.find? fun x => decide (x.1.launch = br.launch ∧ x.2.core = peerCore (s.block br).core i)).map Prod.fst) ∧
  -- whose queue the peel serves: the blocks in turn, but not one whose finished command waits for room in q5
  (∀ (s : State) c, let order := (s.blocks.filter fun x => decide (x.2.core = c)).map Prod.fst
    let done (r : CopyRun) : Prop := (r.stopped = true ∨ r.total ≤ r.next) ∧ r.left = 0 ∧ r.errDone = true
    let able (br : BRef) : Prop := (s.block br).benched = false ∧ (∀ x ∈ s.blocks, x.1.launch = br.launch → x.2.unloaded = []) ∧ (s.block br).q4 ≠ [] ∧
      ∀ r ∈ (s.core c).copies, r.blk = br → done r → (s.block br).q5.length + (if (Copy.of r.desc).sumr = true then 2 else 1) ≤ 16
    let first (l : List BRef) (br : BRef) : Prop := ∃ x y, l = x ++ br :: y ∧ able br ∧ ∀ z ∈ x, ¬able z
    ((s.partn (s.partOf c)).halted = true → s.nextCopy c = none) ∧
    ((s.partn (s.partOf c)).halted = false → ∀ br, s.nextCopy c = some br ↔
      ((∀ b, (s.core c).turnC = some b → b ∉ order) ∧ first order br) ∨ ∃ x b y, (s.core c).turnC = some b ∧ order = x ++ b :: y ∧ b ∉ x ∧ first (y ++ x ++ [b]) br)) ∧
  -- taking a command
  (∀ s e rest, let c := s.arg.core
    let br := s.arg.blk
    let blk := s.block br
    let o := s.ownBlk br
    let d := (Copy.of e).placed blk.cx blk.cy
    let s0 := s.setBlock br { blk with q4 := rest }
    let begun (u s' : State) (f : CopyRun) : Prop := s'.core c = { u.core c with copies := (u.core c).copies ++ [f], turnC := some br } ∧
      f.blk = br ∧ f.desc = e ∧ f.counted = 0 ∧ f.tag = d.tag ∧ f.nobar = d.nobar ∧ f.errDone = (decide (f.code = 0) || d.nobar)
    (blk.q4 = [] ∨ s.nextCopy c ≠ some br ∨ 4 ≤ (s.core c).copies.length → exec .copyTakeEntry s = .next s) ∧
    ((s.block? br).isSome = true → blk.core = c → blk.q4 = e :: rest → s.nextCopy c = some br → (s.core c).copies.length < 4 → blk.qwait = [] → blk.qbad = [] →
      (d.malformed = true → ∃ s' f, exec .copyTakeEntry s = .next s' ∧ begun s0 s' f ∧ f.code = 6 ∧ f.left = 0 ∧ f.bytes = 0 ∧ f.stopped = true ∧
        s' = { s0 with cores := s'.cores }) ∧
      (d.malformed = false → ((∃ b ∈ copyDests s0 br d.mcast, b = none) ∨ ∃ b, some b ∈ copyDests s0 br d.mcast ∧ d.fits s0 b = false) →
        ∃ s' f, exec .copyTakeEntry s = .next s' ∧ begun s0 s' f ∧ f.code = 4 ∧ f.left = 0 ∧ f.bytes = 0 ∧ f.stopped = true ∧
          f.dests = (copyDests s0 br d.mcast).filterMap id ∧ s' = { s0 with cores := s'.cores }) ∧
      (∀ dests, d.malformed = false → ready d s0 br dests → s.arg.flag = true → ∃ s' f, exec .copyTakeEntry s = .next s' ∧ begun s0 s' f ∧ f.code = 0 ∧ f.left = 0 ∧
        f.next = 0 ∧ f.total = d.count ∧ f.dests = dests ∧ f.stopped = false ∧ s' = { s0 with cores := s'.cores }) ∧
      -- a load
      (∀ dests σ τ ρ χ, d.malformed = false → d.store = false → ready d s0 br dests → (∀ b ∈ dests, (s.block? b).isSome = true) → s.arg.flag = false → σ 0 = s0 →
        (walked d o c dests σ τ ρ χ d.count → (∀ k < d.count, ∀ n, ρ k = .error n → n = 2) →
          let bad := d.sumx = true ∧ (moved d ρ d.count).sum ≠ d.aux
          ∃ s' f, exec .copyTakeEntry s = .next s' ∧ begun (σ d.count) s' f ∧ loaded d dests s0 (σ d.count) s' ρ d.count ∧ f.stopped = false ∧ f.next = d.count ∧
            f.code = (if (List.range d.count).all fun k => isOk (ρ k) then (if bad then 5 else 0) else 2) ∧
            f.bytes = (if bad then 0 else d.zd * ((List.range d.count).filter fun k => isOk (ρ k)).length) ∧ f.left = (if d.nobar = true then 0 else f.bytes) ∧
            f.inv = ((List.range d.count).filter fun k => match ρ k with | .ok x => x.2 | .error _ => false).length ∧
            (d.xform ≠ 2 → f.moved = moved d ρ d.count)) ∧
        (∀ m n, m < d.count → walked d o c dests σ τ ρ χ (m + 1) → (∀ k < m, ∀ n, ρ k = .error n → n = 2) → ρ m = .error n → n ≠ 2 → n ≠ 0 →
          ∃ s' f, exec .copyTakeEntry s = .next s' ∧ begun (σ (m + 1)) s' f ∧ loaded d dests s0 (σ (m + 1)) s' ρ m ∧ f.stopped = true ∧
            f.code = (if (List.range m).all fun k => isOk (ρ k) then n else 2) ∧
            f.left = (if d.nobar = true ∨ d.sumx = true then 0 else d.zd * ((List.range m).filter fun k => isOk (ρ k)).length))) ∧
      -- a store, and a reduction at the home (R285)
      (∀ σ : Nat → State, ∀ m ≤ d.count, d.malformed = false → d.store = true → ready d s0 br [br] → d.sumx = false → s.arg.flag = false → blk.poison = [] → σ 0 = s0 →
        let val (l : Nat) : List Byte := (places d l).map fun p => cellGet blk.cells p
        let new (l old : Nat) : Nat := match d.rop with
          | 1 => (addF FP32 old (leValue (val l))).1
          | 2 => (addF BF16 old (leValue (val l))).1
          | 3 => (minNum FP32 old (leValue (val l))).1
          | _ => (maxNum FP32 old (leValue (val l))).1
        let acts (l k : Nat) (u : State) (r : Except Nat (List Nat)) : Prop :=
          if inb d k = false then u = σ l ∧ r = .ok []
          else if d.rop = 0 then ∃ x, engineWrite (σ l) o c false (d.base + d.offset (idx d k)) (val l) = (u, x) ∧ r = (match x with | none => .error 4 | some ls => .ok ls)
          else engineAtomic (σ l) o c (d.base + d.offset (idx d k)) d.z (new l) = (u, r)
        ∀ κ : Nat → Nat, (∀ l < d.count, κ l < d.count ∧ d.rank (boxIndex d.dims (κ l)) = l) → (∀ l < m, ∃ r, acts l (κ l) (σ (l + 1)) (.ok r)) →
        let n := d.z * ((List.range m).filter fun l => inb d (κ l)).length
        (m = d.count → ∃ s' f, exec .copyTakeEntry s = .next s' ∧ begun (σ m) s' f ∧ s' = { σ m with cores := s'.cores } ∧
          f.code = 0 ∧ f.stopped = false ∧ f.bytes = n ∧ f.left = (if d.nobar = true then 0 else n) ∧ f.reduce = decide (d.rop ≠ 0)) ∧
        (∀ u e, m < d.count → acts m (κ m) u (.error e) → e ≠ 0 → e ≠ 2 → ∃ s' f, exec .copyTakeEntry s = .next s' ∧ begun u s' f ∧ s' = { u with cores := s'.cores } ∧
          f.code = e ∧ f.stopped = true ∧ f.left = (if d.nobar = true then 0 else n))))) ∧
  -- counts and errors
  (∀ s r, let c := s.arg.core
    let k := s.arg.k
    s.arg.flag = false → (s.core c).copies[k]? = some r → r.dests.Nodup →
      (∀ b ∈ r.dests, (s.block? b).isSome = true → (s.block b).holds r.bobj 16 = true ∧ alone s b r.bobj) →
    let gone := ∃ b ∈ r.dests, s.block? b = none
    let n := min s.arg.n r.left
    -- R334: the engine that reads a poisoned object stops, with code 7 in the object and in its status
    (∀ b, r.dests = [b] → (s.block? b).isSome = true → scrPoison s b r.bobj 16 = true → ∃ s', exec .engineByteCount s = .next s' ∧
      at_ s' b r.bobj = { at_ s b r.bobj with err := true, ecode := 7 } ∧
      ∃ r', (s'.core c).copies = lset (s.core c).copies k r' ∧ r'.stopped = true ∧ r'.left = 0 ∧ (r.code = 0 → r'.code = 7) ∧ (r.code ≠ 0 → r'.code = r.code)) ∧
    ((∀ b ∈ r.dests, scrPoison s b r.bobj 16 = false) →
    (∃ s', exec .engineByteCount s = .next s' ∧
      (∀ b ∈ r.dests, (s.block? b).isSome = true → at_ s' b r.bobj = checked { at_ s b r.bobj with count := ((at_ s b r.bobj).count + n) % 2 ^ 32 }) ∧
      (∃ r', (s'.core c).copies = lset (s.core c).copies k r' ∧ r' = { r with left := r.left - n, counted := r.counted + n, code := r'.code, errDone := r'.errDone } ∧
        (gone → r.code = 0 → r'.code = 4 ∧ r'.errDone = r.nobar) ∧ (¬gone ∨ r.code ≠ 0 → r'.code = r.code ∧ r'.errDone = r.errDone)) ∧
      s'.threads = s.threads ∧ s'.mem = s.mem) ∧
    (r.errDone = false → ∃ s', exec .engineError s = .next s' ∧
      (∀ b ∈ r.dests, (s.block? b).isSome = true →
        at_ s' b r.bobj = { at_ s b r.bobj with err := true, ecode := if (at_ s b r.bobj).ecode = 0 then r.code % 256 else (at_ s b r.bobj).ecode }) ∧
      (s'.core c).copies = lset (s.core c).copies k { r with errDone := true, left := if r.stopped = true then 0 else r.left } ∧
      s'.threads = s.threads ∧ s'.mem = s.mem)) ∧
    (r.errDone = true → exec .engineError s = .next s)) ∧
  (∀ s r, let c := s.arg.core
    let k := s.arg.k
    let q5 := (s.block r.blk).q5
    let sumr := (Copy.of r.desc).sumr
    let word := BitVec.ofNat 64 ((if r.nobar then r.bytes else r.counted) % 2 ^ 32 * 2 ^ 32 + min r.inv 255 * 2 ^ 24 + r.code * 2 ^ 16 + (if sumr then 2 ^ 12 else 0) + r.tag)
    let walking := r.stopped = false ∧ r.next < r.total
    (s.core c).copies[k]? = some r →
    (walking ∨ 0 < r.left ∨ r.errDone = false ∨ 16 < q5.length + (if sumr then 2 else 1) → exec .copyStatus s = .next s) ∧
    (¬walking → r.left = 0 → r.errDone = true → q5.length + (if sumr then 2 else 1) ≤ 16 → (s.block? r.blk).isSome = true → (s.block r.blk).qwait = [] →
      exec .copyStatus s = .next ((s.setCore c { s.core c with copies := ldrop (s.core c).copies k }).setBlock r.blk
        { s.block r.blk with q5 := q5 ++ word :: (if sumr then [BitVec.ofNat 64 r.moved.sum] else []) }))) ∧
  -- the sifter
  (∀ s slot rest l, let br := s.arg.blk
    let b := s.block br
    let addr := (l.lrec.transforms.getD slot 0).toNat
    let o := s.ownBlk br
    let s1 := s.setBlock br { b with sift := rest }
    let woken (s' : State) : Prop := ∀ t th, s.thread? t = some th → s'.thread? t = some (if rest = [] ∧ s.blkOf t = br ∧ th.st = .waiting .sifter then { th with st := .ready } else th)
    let status (code n inv : Nat) (sum : List Dword) (tag : Nat) : List Dword :=
      BitVec.ofNat 64 (n % 2 ^ 32 * 2 ^ 32 + min inv 255 * 2 ^ 24 + code * 2 ^ 16 + (if sum = [] then 0 else 2 ^ 12) + tag) :: sum
    (b.sift = [] → exec .sifter s = .next s) ∧
    (b.sift = slot :: rest → (s.block? br).isSome = true → b.qwait = [] → s.launch? br.launch = some l →
      (addr % 64 ≠ 0 ∨ (∃ u, engineRead s1 o b.core false addr 64 = (u, .error 4)) →
        ∃ s', exec .sifter s = .next s' ∧ s'.block br = { b with sift := rest, q5 := b.q5 ++ [0x6_0000] } ∧ s'.mem = s.mem ∧ woken s') ∧
      (∀ u e dests σ τ ρ χ, addr % 64 = 0 → engineRead s1 o b.core false addr 64 = (u, .ok e) →
        let d := (Copy.of e).placed b.cx b.cy
        (d.malformed = true ∨ d.store = true ∨ d.mcast ≠ 0 ∨ d.rop ≠ 0 → d.sumr = false →
          ∃ s', exec .sifter s = .next s' ∧ s'.block br = { b with sift := rest, q5 := b.q5 ++ status 6 0 0 [] d.tag } ∧ s'.mem = u.mem ∧ woken s') ∧
        (d.malformed = false → d.store = false → d.mcast = 0 → ready d u br dests → σ 0 = u → walked d o b.core dests σ τ ρ χ d.count →
          (∀ k < d.count, ∀ n, ρ k = .error n → n = 2) →
          let bad := d.sumx = true ∧ (moved d ρ d.count).sum ≠ d.aux
          (d.sumr = true → d.xform ≠ 2) →
          ∃ s', exec .sifter s = .next s' ∧ loaded d dests u (σ d.count) s' ρ d.count ∧ woken s' ∧ (s'.block br).sift = rest ∧
            (s'.block br).q5 = b.q5 ++ status (if (List.range d.count).all fun k => isOk (ρ k) then (if bad then 5 else 0) else 2)
              (if bad then 0 else d.zd * ((List.range d.count).filter fun k => isOk (ρ k)).length)
              ((List.range d.count).filter fun k => match ρ k with | .ok x => x.2 | .error _ => false).length
              (if d.sumr = true then [BitVec.ofNat 64 (moved d ρ d.count).sum] else []) d.tag)))) ∧
  -- the end of a block
  (∀ s b l, let br := s.arg.blk
    s.block? br = some b → s.launch? br.launch = some l →
    let mine (x : Bin) : Prop := x.blk = br
    let done := (∀ x ∈ s.threads, x.2.leaven = false → s.blkOf x.1 = br → x.2.st = .exited ∨ x.2.st = .halted) ∧
      (∀ x ∈ (s.core b.core).bins, ¬mine x) ∧ (∀ x ∈ (s.core b.core).released, ¬mine x) ∧ (∀ r ∈ (s.core b.core).copies, r.blk ≠ br) ∧
      (∀ r ∈ (s.core b.core).runs, r.blk ≠ br) ∧ b.q0 = [] ∧ b.q4 = [] ∧ b.q6 = [] ∧ b.sift = [] ∧ b.benched = false
    (¬done → exec .blockEnd s = .next s) ∧
    (done → ∃ s', exec .blockEnd s = .next s' ∧ s'.block? br = none ∧ (∀ x ∈ s'.warps, x.2.blk ≠ br) ∧
      (∀ t, (s.warp? t.core t.slot).isSome = true → s.blkOf t = br → s'.thread? t = none) ∧
      (∀ t th, t.core ≠ b.core → s.blkOf t ≠ br → s.thread? t = some th → th.st = .ready ∨ th.st = .running → th.outs = [] → th.stores = [] →
        (s'.thread? t).map Thread.g = some th.g) ∧
      -- R269: where the engines of the core serve the blocks in turn, the turn goes on behind the block that has ended
      (∀ x y, (s.blocks.filter fun z => decide (z.2.core = b.core)).map Prod.fst = x ++ br :: y → br ∉ x →
        let next (l : Option BRef) : Option BRef := if l = some br then (y ++ x).getLast? else l
        (s'.core b.core).turnC = next (s.core b.core).turnC ∧ (s'.core b.core).turnM = next (s.core b.core).turnM ∧ (s'.core b.core).turnR = next (s.core b.core).turnR) ∧
      (1 < l.blocksLeft → s'.launch? br.launch = some { l with blocksLeft := l.blocksLeft - 1 }) ∧
      (l.blocksLeft ≤ 1 → s'.launch? br.launch = none)))

/-- R79, R80, R296 to R319, R269: the life of a matrix command, one event at a time. That a drain writes its tile in one move is log 25, that a
rectangle's members are reserved at once in the order of requests is log 26, that a command of many events is taken apart into moves is
log 1, that a quiet NaN counts no INVC event is log 60, that in an exact sum a zero times an infinity, or infinite products of both signs, set INV
whatever stands beside them is log 48, and which layout's slot counts where several would fit a chunk is log 78: these are the model's choices. -/
def Obligations.MatrixCommands : Prop :=
  let runs (s : State) (c : Nat) : List MxRun := (s.core c).runs
  let val (x : FVal) : ℚ := match x with | .fin neg n d => (if neg then -1 else 1) * (n : ℚ) / d | _ => 0
  let isFin (x : FVal) : Prop := ∃ neg n d, x = .fin neg n d ∧ d ≠ 0
  -- the parameter block
  (∀ bs, let p := MxPar.of bs
    p.asrc = BitVec.ofNat 32 (field bs 0 4) ∧ p.bsrc = BitVec.ofNat 32 (field bs 4 4) ∧ p.klen = field bs 16 2 ∧ p.apitch = field bs 18 2 ∧
    p.bpitch = field bs 20 2 ∧ p.opitch = field bs 22 2 ∧ p.tile = field bs 52 4 ∧ p.opf = field bs 60 2 % 8 ∧ p.sp = field bs 60 2 / 64 % 4 ∧
    p.ddest = field bs 60 2 / 256 % 4 ∧ p.dfmt = field bs 60 2 / 1024 % 8 ∧ p.tag = field bs 56 4 % 4096 ∧ p.buf = (field bs 56 4).testBit 19 ∧
    p.keep = (field bs 56 4).testBit 20 ∧ p.drain = (field bs 56 4).testBit 21 ∧ p.zero = (field bs 56 4).testBit 22 ∧ p.pdest = (field bs 56 4).testBit 23 ∧
    p.rm = (field bs 60 4).testBit 31) ∧
  -- the exact sum of the products of a k-step (R79)
  (∀ ps : List (FVal × FVal), let d := dotV ps
    let zero (x : FVal) : Prop := x.isZero = true
    let bad := ∃ p ∈ ps, (p.1.isInf = true ∧ zero p.2) ∨ (zero p.1 ∧ p.2.isInf = true)
    let isInf (neg : Bool) := ∃ p ∈ ps, (mulV p.1 p.2).1 = .inf neg
    (d.1.isNan = true ↔ (∃ p ∈ ps, p.1.isNan = true ∨ p.2.isNan = true) ∨ bad ∨ (isInf true ∧ isInf false)) ∧
    (d.2 = if (∃ p ∈ ps, p.1.isSig = true ∨ p.2.isSig = true) ∨ bad ∨ (isInf true ∧ isInf false) then INV else 0) ∧
    (∀ neg, d.1.isNan = false → isInf neg → d.1 = .inf neg) ∧
    ((∀ p ∈ ps, isFin p.1 ∧ isFin p.2) → ∃ neg n m, d.1 = .fin neg n m ∧ m ≠ 0 ∧ val d.1 = (ps.map fun p => val p.1 * val p.2).sum ∧
      (n = 0 → (neg = true ↔ ps ≠ [] ∧ ∀ p ∈ ps, val p.1 * val p.2 = 0 ∧ p.1.sign ≠ p.2.sign)))) ∧
  -- which block's queue the engine serves, and when a command may act on its buffer
  (∀ (s : State) c, let order := (s.blocks.filter fun x => decide (x.2.core = c)).map Prod.fst
    let able (br : BRef) : Prop := (s.block br).benched = false ∧ (∀ x ∈ s.blocks, x.1.launch = br.launch → x.2.unloaded = []) ∧
      (s.partn (s.block br).part).halted = false ∧ (s.block br).q0 ≠ [] ∧
      ∀ r ∈ runs s c, r.blk = br → r.needRect = false ∧ (r.par.scaled = true → r.par.pdest = false → r.pieces ≤ r.delivered) ∧
        (r.buffered = true → r.needBuf = true → ∀ b, ((s.core c).acc r.par.buf).held = some b → b = br) ∧
        (r.finished = true → (s.block br).q3.length + (if r.frec.isSome then 2 else 1) ≤ 16)
    let first (l : List BRef) (br : BRef) : Prop := ∃ x y, l = x ++ br :: y ∧ able br ∧ ∀ z ∈ x, ¬able z
    ∀ br, s.nextMatrix c = some br ↔
      ((∀ b, (s.core c).turnM = some b → b ∉ order) ∧ first order br) ∨ ∃ x b y, (s.core c).turnM = some b ∧ order = x ++ b :: y ∧ b ∉ x ∧ first (y ++ x ++ [b]) br) ∧
  (∀ (r : MxRun) (x : Core), let earlier (e : MxRun) : Prop := e ∈ x.runs ∧ e.blk = r.blk ∧ e.buffered = true ∧ e.par.buf = r.par.buf ∧ e.serial < r.serial ∧ e.acted = false
    (r.mayEnd x = true ↔ (r.buffered = true → ∀ e, ¬earlier e)) ∧
    (r.mayAct x = true ↔ (r.buffered = true → ∀ e, earlier e → e.chain = r.chain ∧ ¬(e.par.zero = true ∧ e.done = [])))) ∧
  (∀ last tag zero drain serial, let join : Option Nat := match tag, last with | some t, some l => if l.1 = t ∧ zero = false then some l.2 else none | _, _ => none
    chainOf last tag zero drain serial = (join.getD serial, if drain = true then none else tag.map fun t => (t, join.getD serial))) ∧
  -- taking a command
  (∀ s e rest, let c := s.arg.core
    let br := s.arg.blk
    let blk := s.block br
    (blk.q0 = [] ∨ s.nextMatrix c ≠ some br ∨ s.reserved c = true → exec .matrixTakeEntry s = .next s) ∧
    ((s.block? br).isSome = true → blk.q0 = e :: rest → s.nextMatrix c = some br → runs s c = [] → s.rectHeld = [] → (s.core c).stops = [] → blk.qwait = [] → blk.qbad = [] →
      let s0 := s.setBlock br { blk with q0 := rest }
      let starts (F : MxRun → Prop) : Prop := ∃ s' r, exec .matrixTakeEntry s = .next s' ∧ runs s' c = [r] ∧ (s'.block br).q0 = rest ∧ s'.mem = s.mem ∧
        (s'.core c).turnM = some br ∧ r.blk = br ∧ r.entry = e ∧ r.done = [] ∧ r.ended = false ∧ F r
      (∀ code, scrOperand s0 br e.addr.toNat 64 = .error code → starts fun r => r.inert = true ∧ r.code = code ∧ r.errDone = true) ∧
      (∀ bs, scrOperand s0 br e.addr.toNat 64 = .ok bs →
        let p := MxPar.of bs
        (p.malformed blk = true → starts fun r => r.inert = true ∧ r.code = 6 ∧ r.errDone = false) ∧
        (p.malformed blk = false → p.waita.getLsbD 1 = false →
          starts fun r => r.inert = false ∧ r.par = p ∧ r.code = 0 ∧ r.wait = .met ∧ r.needRect = p.rm ∧ r.needBuf = !p.scaled) ∧
        (p.malformed blk = false → p.waita.getLsbD 1 = true →
          (∀ b off, checkScratch s0 br (p.waita &&& 0xFFFF_FFF0#32) 16 16 0 = .ok (.scr b off) → scrPoison s0 b off 16 = false →
            let w := s0.objAt b off
            starts fun r => r.inert = false ∧ r.code = 0 ∧ r.wait = if w.err = true then .failed else if w.phase = p.waita.getLsbD 0 then .on b off (p.waita.getLsbD 0) else .met) ∧
          (∀ inf, checkScratch s0 br (p.waita &&& 0xFFFF_FFF0#32) 16 16 0 = .error inf → starts fun r => r.inert = false ∧ r.code = 4))))) ∧
  (∀ s b addr n, (∀ bs, scrOperand s b addr n = .ok bs ↔ addr < 2 ^ 32 ∧ ∃ t off, checkScratch s b (BitVec.ofNat 32 addr) n 1 0 = .ok (.scr t off) ∧
      scrPoison s t off n = false ∧ bs = scrRead s t off n) ∧
    (∀ e, scrOperand s b addr n = .error e → e = 7 ∨ e = 4) ∧
    (scrOperand s b addr n = .error 7 ↔ addr < 2 ^ 32 ∧ ∃ t off, checkScratch s b (BitVec.ofNat 32 addr) n 1 0 = .ok (.scr t off) ∧ scrPoison s t off n = true)) ∧
  -- claiming a buffer
  (∀ s r, let c := s.arg.core
    let k := s.arg.k
    (runs s c)[k]? = some r → r.buffered = true → r.needBuf = true → r.needRect = false → r.mayAct (s.core c) = true → s.halted r = false →
    let held := ((s.core c).acc r.par.buf).held
    (held = none → ∃ s', exec .bufferClaim s = .next s' ∧ (s'.core c).acc r.par.buf = { held := some r.blk, words := [] } ∧
      runs s' c = lset (runs s c) k { r with needBuf := false } ∧ (s'.core c).acc (!r.par.buf) = (s.core c).acc (!r.par.buf) ∧ s'.blocks = s.blocks) ∧
    (held = some r.blk → ∃ s', exec .bufferClaim s = .next s' ∧ (s'.core c).acc r.par.buf = (s.core c).acc r.par.buf ∧
      runs s' c = lset (runs s c) k { r with needBuf := false }) ∧
    (∀ b, held = some b → b ≠ r.blk → exec .bufferClaim s = .next s)) ∧
  -- a k-step, of any format, dense or pruned, from plain or compressed operands
  (∀ s r (abytes bbytes : Nat → List Byte) (stored : Nat → List (Nat × Nat)) (bcode : Nat → Nat → Nat), let c := s.arg.core
    let k := s.arg.k
    let j := s.arg.n
    let p := r.par
    let x := s.core c
    let bits := p.ebits
    let k0 := p.width * j
    let n := min (p.width * (j + 1)) p.klen - k0
    let m := p.kept
    let e0 := if p.sp = 0 then k0 else m * (k0 / 16)
    let en := if p.sp = 0 then n else m * (n / 16)
    let plain (cmp : Bool) (b : BRef) (base off len : Nat) (bs : List Byte) : Prop :=
      if cmp = false then scrOperand s b (base + off) len = .ok bs
      else ∃ X Y, scrChunk s b (base + p.slot * (off / 4096)) p.slot = .ok X ∧ scrChunk s b (base + p.slot * ((off + len - 1) / 4096)) p.slot = .ok Y ∧
        bs = (X.drop (off % 4096)).take len ++ Y.take (len - ((X.drop (off % 4096)).take len).length)
    let code (bs : List Byte) (e y : Nat) : Nat := leValue bs / 2 ^ (bits * e % 8) / 2 ^ (bits * y) % 2 ^ bits
    let rowsRead : Prop := (∀ i < 32, plain p.acmp r.ablk p.asrc.toNat (16 * p.apitch * i + bits * e0 / 8) ((bits * (e0 + en) + 7) / 8 - bits * e0 / 8) (abytes i)) ∧
      (∀ i < 32, plain p.bcmp r.bblk p.bsrc.toNat (16 * p.bpitch * i + bits * k0 / 8) ((bits * (k0 + n) + 7) / 8 - bits * k0 / 8) (bbytes i)) ∧
      (∀ i < 32, stored i = (List.range en).map fun y => (if p.sp = 0 then y else
        let g := k0 / 16 + y / m
        let w := ((r.cols.getD (g / (32 / (4 * m))) []).getD i 0).toNat
        16 * (y / m) + w / 2 ^ (4 * m * (g % (32 / (4 * m))) + 4 * (y % m)) % 16, code (abytes i) e0 y)) ∧
      (∀ i < 32, ∀ y < n, bcode i y = code (bbytes i) k0 y)
    let value (v : Nat) : FVal := match p.opf with
      | 0 => decodeF BF16 v
      | 1 => decodeF FH8 v
      | 2 => decodeF FH6 v
      | 3 => ofInt (signed 8 v)
      | 4 => decodeF BF16 (nq4Table.getD v 0)
      | _ => decodeF BF16 (cb4Expand r.entry.tbl v)
    let prods (i y : Nat) : List (FVal × FVal) := (stored i).map fun z => (value z.2, value (bcode y z.1))
    let old (w : Nat) : Nat := if p.zero = true ∧ r.done = [] then 0 else ((tget (x.acc p.buf).words w).getD 0).toNat
    let el (i y : Nat) : Nat × Flags :=
      if p.scaled = true then finishF FP32 .rne (dotV (prods i y))
      else if p.opf = 3 then ((BitVec.ofInt 32 ((old (32 * i + y) : Int) + ((stored i).map fun z => signed 8 z.2 * signed 8 (bcode y z.1)).sum)).toNat, 0)
      else let d := dotV (prods i y)
        let a := addV .rne (decodeF FP32 (old (32 * i + y))) d.1
        finishF FP32 .rne (a.1, d.2 ||| a.2)
    let events (f : Flags) : Nat := ((List.range 1024).filter fun w => decide ((el (w / 32) (w % 32)).2 &&& f ≠ 0)).length
    x.runs[k]? = some r → s.halted r = false → r.reads x = true → p.malformed (s.block r.blk) = false → j < p.steps → j ∉ r.done → r.metaHere j = true →
    (s.arg.flag = true → (∀ f ∈ r.fetched, f.step ≠ j) → rowsRead → ∃ s' f, exec .kStep s = .next s' ∧ runs s' c = lset x.runs k { r with fetched := r.fetched ++ [f] } ∧
      f.step = j ∧ (∀ i < 32, f.a[i]? = some (stored i) ∧ f.b[i]? = some ((List.range n).map fun y => (y, bcode i y))) ∧ f.a.length = 32 ∧ f.b.length = 32 ∧
      s' = { s with cores := s'.cores }) ∧
    -- the operands are read now, or were fetched before
    (s.arg.flag = false → (j = r.done.length ∨ (r.tag.isSome = true ∧ p.scaled = false)) → r.needBuf = false → r.mayAct x = true → x.stopOf r.chain = none →
      (p.scaled = false → ¬(p.zero = true ∧ r.done = []) → (x.acc p.buf).poison = []) →
      ((∀ f ∈ r.fetched, f.step ≠ j) ∧ rowsRead) ∨ (∃ f, r.fetched.find? (fun f => decide (f.step = j)) = some f ∧ f.a.length = 32 ∧ f.b.length = 32 ∧
        (∀ i < 32, f.a[i]? = some (stored i) ∧ f.b[i]? = some ((List.range n).map fun y => (y, bcode i y)) ∧ (∀ z ∈ stored i, z.1 < n ∧ z.2 < 2 ^ bits) ∧ ∀ y < n, bcode i y < 2 ^ bits)) →
      ∃ s' r', exec .kStep s = .next s' ∧ runs s' c = lset x.runs k r' ∧ r'.done = r.done ++ [j] ∧ r'.code = 0 ∧ r'.blk = r.blk ∧ r'.par = p ∧
        r'.ovfc = min 255 (r.ovfc + events OVF) ∧ r'.invc = min 255 (r.invc + events INV) ∧ s' = { s with cores := s'.cores } ∧
        (s'.core c).acc (!p.buf) = x.acc (!p.buf) ∧
        (p.scaled = true → (s'.core c).acc p.buf = x.acc p.buf ∧ r'.partials = r.partials ++ [(List.range 1024).map fun w => BitVec.ofNat 32 (el (w / 32) (w % 32)).1]) ∧
        (p.scaled = false → r'.partials = r.partials ∧ ((s'.core c).acc p.buf).held = (x.acc p.buf).held ∧
          ∀ i < 32, ∀ y < 32, (tget ((s'.core c).acc p.buf).words (32 * i + y)).getD 0 = BitVec.ofNat 32 (el i y).1))) ∧
  -- an operand that cannot be read stops the command, and skips the later ones of its chain
  (∀ s r e, let c := s.arg.core
    let k := s.arg.k
    let x := s.core c
    x.runs[k]? = some r → s.halted r = false → s.arg.n < r.par.steps → s.arg.n ∉ r.done → r.metaHere s.arg.n = true → (∀ f ∈ r.fetched, f.step ≠ s.arg.n) →
    r.code = 0 → ((r.reads x = true ∧ (s.arg.flag = true ∨ (r.mayStep s.arg.n = true ∧ r.needBuf = false ∧ r.mayAct x = true)) ∧ r.fetch s s.arg.n = .error e) ∨
      (r.wait = .failed ∧ e = 9) ∨ (r.wait = .gone ∧ e = 4)) →
    ∃ s', exec .kStep s = .next s' ∧ s' = { s with cores := s'.cores } ∧
      runs s' c = x.runs.map (fun y => if y.serial = r.serial then { y with code := e, frec := none, partials := [] }
        else if r.buffered = true ∧ y.buffered = true ∧ y.chain = r.chain ∧ r.serial < y.serial ∧ y.code = 0 then { y with code := e, chab := true, partials := [] } else y) ∧
      (r.buffered = true → (s'.core c).stopOf r.chain = some ((x.stopOf r.chain).getD e))) ∧
  -- a command that has stopped
  (∀ s r, let c := s.arg.core
    let k := s.arg.k
    let x := s.core c
    x.runs[k]? = some r → s.halted r = false → r.code ≠ 0 → r.inert = false → r.ended = false → r.buffered = true → r.mayEnd x = true → r.needBuf = false → r.needRect = false →
    ∃ s', exec .kStep s = .next s' ∧ runs s' c = lset x.runs k { r with ended := true } ∧
      (s'.core c).acc r.par.buf = { held := if r.par.drain && !r.par.keep then none else some r.blk, words := [] }) ∧
  -- metadata
  (∀ s r m rest, let c := s.arg.core
    let k := s.arg.k
    let x := s.core c
    let blk := s.block r.blk
    x.runs = [r] → k = 0 → s.halted r = false → (s.block? r.blk).isSome = true → blk.qwait = [] → blk.qbad = [] → r.code = 0 → r.inert = false → r.par.msrc = false →
    r.colsTaken < r.par.columns → r.reads x = true → r.colsHeld < 32 →
    (blk.q1 = [] → exec .metadataTake s = .next s) ∧
    (blk.q1 = m :: rest → ∃ s' r', exec .metadataTake s = .next s' ∧ runs s' c = [r'] ∧ (s'.block r.blk).q1 = rest ∧ r'.colsTaken = r.colsTaken + 1 ∧
      r'.cols = r.cols ++ [m.words] ∧
      (m.code + 1 ≠ r.par.sp → r'.code = 3 ∧ r'.frec.isSome = true) ∧
      (m.code + 1 = r.par.sp → (∀ w ∈ m.words, metaFault r.par.kept w.toNat = none) → r'.code = 0) ∧
      (m.code + 1 = r.par.sp → (∃ w ∈ m.words, metaFault r.par.kept w.toNat ≠ none) → r'.code = 3 ∧ r'.frec.isSome = true))) ∧
  (∀ kept w, kept = 2 ∨ kept = 4 ∨ kept = 8 → (metaFault kept w = none ↔ ∀ q i, q < 8 / kept → i + 1 < kept →
    w / 2 ^ (4 * kept * q + 4 * i) % 16 < w / 2 ^ (4 * kept * q + 4 * i + 4) % 16)) ∧
  -- partials, and the entries of a drain to q2; a stopped command delivers canonical NaNs
  (∀ s r ws, let c := s.arg.core
    let k := s.arg.k
    let p := r.par
    let blk := s.block r.blk
    let words : List Word := if r.code ≠ 0 ∧ p.scaled = true then List.replicate 1024 0x7FC0_0000 else ws
    (runs s c)[k]? = some r → s.halted r = false → r.needRect = false → r.delivered < r.pieces → ws.length = 1024 → ((r.code = 0 ∨ p.scaled = false) → ∃ rest, r.partials = ws :: rest) →
    (s.block? r.blk).isSome = true →
    (¬(p.scaled = true ∧ p.pdest = true) →
      (64 ≤ blk.q2.length ∨ (r.delivered = 0 ∧ ∃ e ∈ runs s c, e.blk = r.blk ∧ e.midQ2 = true) → exec .partialDelivery s = .next s) ∧
      (blk.qwait = [] → blk.q2.length < 64 → (0 < r.delivered ∨ ∀ e ∈ runs s c, e.blk = r.blk → e.midQ2 = false) →
        ∃ s' r', exec .partialDelivery s = .next s' ∧ runs s' c = lset (runs s c) k r' ∧ r'.delivered = r.delivered + 1 ∧ r'.bytes = r.bytes ∧
          s'.block r.blk = { blk with q2 := blk.q2 ++ [pairOf (words.getD (r.delivered % 512 * 2) 0) (words.getD (r.delivered % 512 * 2 + 1) 0)] })) ∧
    (p.scaled = true → p.pdest = true → ∀ t off, p.part.toNat + 128 * r.delivered < 2 ^ 32 →
      checkScratch s r.blk (BitVec.ofNat 32 (p.part.toNat + 128 * r.delivered)) 128 1 1 = .ok (.scr t off) → (∀ b ∈ s.blocks, b.2.gwait = []) → (s.block? t).isSome = true →
        Memory.wf (s.block t).cells = true →
      ∃ s' r', exec .partialDelivery s = .next s' ∧ runs s' c = lset (runs s c) k r' ∧ r'.delivered = r.delivered + 1 ∧ r'.bytes = r.bytes + 128 ∧ s'.mem = s.mem ∧
        (∀ y < 128, cellGet (s'.block t).cells (off + y) = BitVec.ofNat 8 ((words.getD (r.delivered % 32 * 32 + y / 4) 0).toNat / 256 ^ (y % 4))) ∧
        (∀ b a, b ≠ t ∨ a < off ∨ off + 128 ≤ a → cellGet (s'.block b).cells a = cellGet (s.block b).cells a))) ∧
  -- the records of COMP, and the scales of a block-scaled drain
  (∀ fmt bytes, fmt ≤ 7 → bytes.length = 4096 → let rec_ := chunkRecord fmt bytes
    let map := field rec_ 16 8
    field rec_ 0 2 = rec_.length ∧ field rec_ 2 1 = fmt ∧ field rec_ 3 1 = 1 ∧ field rec_ 4 4 = 0 ∧ field rec_ 8 8 = crc64 bytes ∧
    chunkExpand map (List.range 32) (rec_.drop 24) = bytes ∧ chunkOk 8192 rec_ = true ∧
    ∀ i < 32, let sec := (bytes.drop (128 * i)).take 128
      (map / 4 ^ i % 4 = 0 ↔ ∀ b ∈ sec, b = 0) ∧ (map / 4 ^ i % 4 = 1 ↔ (∃ b ∈ sec, b ≠ 0) ∧ ∀ y < 128, sec.getD y 0 = sec.getD (y % 4) 0) ∧ map / 4 ^ i % 4 < 3) ∧
  (∀ (x sup : FVal) (fn fd : Nat), isFin x → isFin sup → 0 ≤ val x → 0 < val sup → 0 < fd →
    let q : ℚ := 255 * val x / (val sup * ((fn : ℚ) / fd))
    scaleCode x sup (fn, fd) = if fn = 0 then (0, INV) else if 255 < q then (255, OVF) else (⌈q⌉.toNat, 0)) ∧
  (∀ sup fn fd, isFin sup → 0 < fn → scaleCode (.inf false) sup (fn, fd) = (255, OVF)) ∧
  (∀ (e sup : FVal) sc, isFin e → isFin sup → 0 < val sup → isFin (unscale e sc sup) ∧ val (unscale e sc sup) = if sc = 0 then 0 else val e * 255 / (sc * val sup)) ∧
  (∀ vs : List FVal, (∀ v ∈ vs, v.isNan = true ∨ isFin v) → isFin (maxMag vs) ∧ (∀ v ∈ vs, isFin v → |val v| ≤ val (maxMag vs)) ∧
    (val (maxMag vs) = 0 ∨ ∃ v ∈ vs, isFin v ∧ val (maxMag vs) = |val v|)) ∧
  -- a drain, of any format and to any destination
  (∀ s r, let c := s.arg.core
    let k := s.arg.k
    let p := r.par
    let x := s.core c
    let o := s.ownBlk r.blk
    let tbl := r.entry.tbl
    let word (m : Nat) : Nat := ((tget (x.acc p.buf).words m).getD 0).toNat
    let v (m : Nat) : FVal := if p.opf = 3 then ofInt (signed 32 (word m)) else decodeF FP32 (word m)
    let block := 3 ≤ p.dfmt ∧ p.dfmt ≤ 5
    let sup := decodeF FP32 p.super.toNat
    let fmax : Nat × Nat := if p.dfmt = 4 then (1, 1) else if p.dfmt = 3 then (14, 1) else cb4Max (cb4Values tbl)
    let sc (b : Nat) : Nat × Flags := scaleCode (maxMag ((List.range 64).map fun y => v (64 * b + y))) sup fmax
    let quant (y : FVal) : Nat × Flags := if p.dfmt = 3 then narrowF FH6 .rne y else if p.dfmt = 4 then nq4Quant y else cb4Quant (cb4Values tbl) y
    let el (m : Nat) : Nat × Flags :=
      if block then quant (if (v m).isNan = true then v m else unscale (v m) (sc (m / 64)).1 sup)
      else if p.dfmt = 0 then (word m, 0) else if p.dfmt = 1 then narrowF BF16 .rne (v m) else if p.dfmt = 2 then narrowF FH8 .rne (v m)
      else let y := narrowInt (-128) 127 .rne (v m)
        ((y.1 % 256).toNat, y.2)
    let bits := match p.dfmt with | 0 => 32 | 1 => 16 | 2 => 8 | 3 => 6 | 4 => 4 | 5 => 4 | _ => 8
    let row (i : Nat) : List Byte := leBytes (4 * bits) ((List.range 32).map fun y => (el (32 * i + y)).1 * 2 ^ (bits * y)).sum
    let events (f : Flags) : Nat := ((List.range 1024).filter fun m => decide ((el m).2 &&& f ≠ 0)).length +
      (if block then ((List.range 16).filter fun b => decide ((sc b).2 &&& f ≠ 0)).length else 0)
    let scAt := p.scout.toNat + 260 * (16 * p.tile / 256)
    let scales : List (Nat × List Byte) := if block then [(scAt + 16 * p.tile % 256, (List.range 16).map fun b => BitVec.ofNat 8 (sc b).1), (scAt + 256, wordBytes p.super)] else []
    let rows : List (Nat × List Byte) := (List.range 32).map fun i => (p.out.toNat + 16 * p.opitch * i, row i)
    let record := chunkRecord (if p.dfmt = 0 then (if p.opf = 3 then 1 else 0) else p.dfmt + 1)
      (((List.range 32).map row).flatten ++ List.replicate (4096 - 128 * bits) 0)
    let ended (s' : State) (n code : Nat) : Prop := (s'.core c).acc p.buf = (if p.keep then x.acc p.buf else {}) ∧ (s'.core c).acc (!p.buf) = x.acc (!p.buf) ∧
      ∃ r', runs s' c = lset x.runs k r' ∧ r'.ended = true ∧ r'.code = code ∧ r'.bytes = n ∧ (p.ddest = 3 → r'.partials = [(List.range 1024).map fun m => BitVec.ofNat 32 (word m)]) ∧
        (r'.nanf = true ↔ p.opf ≠ 3 ∧ ∃ m < 1024, (v m).isNan = true) ∧ r'.ovfc = min 255 (r.ovfc + events OVF) ∧ r'.invc = min 255 (r.invc + events INV)
    let fails : Prop := ∃ s', exec .drain s = .next s' ∧ s' = { s with cores := s'.cores } ∧
      (∃ r', (runs s' c)[k]? = some r' ∧ r'.code = 4 ∧ r'.ended = true ∧ r'.bytes = 0) ∧
      (s'.core c).acc p.buf = { held := if p.keep then some r.blk else none, words := [] }
    let size := 128 * bits + (if block then 20 else 0)
    x.runs[k]? = some r → s.halted r = false → r.inert = false → r.code = 0 → r.ended = false → p.drain = true → r.stepped = true → r.needBuf = false → r.needRect = false →
    r.mayEnd x = true → p.malformed (s.block r.blk) = false → p.scaled = false → (x.acc p.buf).poison = [] → r.bytes = 0 → (x.runs.map MxRun.serial).Nodup →
    (p.ddest = 0 ∨ p.ddest = 3 → ∃ s', exec .drain s = .next s' ∧ ended s' 0 0 ∧ s' = { s with cores := s'.cores }) ∧
    -- to a scratchpad
    (p.ddest = 1 →
      ((∃ z ∈ rows ++ scales, 2 ^ 32 ≤ z.1 ∨ ∃ inf, checkScratch s r.blk (BitVec.ofNat 32 z.1) z.2.length 1 1 = .error inf) → fails) ∧
      (∀ (at_ : Nat × List Byte → BRef × Nat), (∀ z ∈ rows ++ scales, z.1 < 2 ^ 32 ∧ checkScratch s r.blk (BitVec.ofNat 32 z.1) z.2.length 1 1 = .ok (.scr (at_ z).1 (at_ z).2)) →
        (∀ b ∈ s.blocks, b.2.gwait = [] ∧ Memory.wf b.2.cells = true) →
        ∃ s', exec .drain s = .next s' ∧ ended s' size 0 ∧ s'.mem = s.mem ∧ s'.threads = s.threads ∧
          (∀ b, (s'.block b).cells = (((rows ++ scales).foldl (fun u z => scrWrite u (at_ z).1 (at_ z).2 z.2) s).block b).cells) ∧
          (∀ z ∈ rows ++ scales, ∀ y < z.2.length, ((at_ z).2 + y) / 16 ∈ (s'.block (at_ z).1).full))) ∧
    -- the rows apart: every byte
    (p.ddest = 1 → ¬block → 4 * bits ≤ 16 * p.opitch → (∀ b ∈ s.blocks, b.2.gwait = [] ∧ Memory.wf b.2.cells = true) →
      (∀ i < 32, p.out.toNat + 16 * p.opitch * i < 2 ^ 32 ∧ checkScratch s r.blk (BitVec.ofNat 32 (p.out.toNat + 16 * p.opitch * i)) (4 * bits) 1 1 =
        .ok (.scr r.blk (p.out.toNat + 16 * p.opitch * i))) → (s.block? r.blk).isSome = true →
      ∃ s', exec .drain s = .next s' ∧ ended s' (128 * bits) 0 ∧ s'.mem = s.mem ∧
        ∀ i < 32, ∀ y < 4 * bits, cellGet (s'.block r.blk).cells (p.out.toNat + 16 * p.opitch * i + y) = (row i).getD y 0) ∧
    -- to global memory, in plain form or as a record
    (p.ddest = 2 → ∀ σ : Nat → State, σ 0 = s →
      let V : List (Bool × Nat × List Byte) → (State → Prop) → Prop := fun l P =>
        (∀ i, ∀ z, l[i]? = some z → ∃ ls, engineWrite (σ i) o c z.1 z.2.1 z.2.2 = (σ (i + 1), some ls)) → P (σ l.length)
      let to_ (n code : Nat) (u : State) : Prop := ∃ s', exec .drain s = .next s' ∧ ended s' n code ∧ s' = { u with cores := s'.cores }
      let plain : List (Bool × Nat × List Byte) := (rows ++ scales).map fun z => (false, z)
      (p.comp = false → V plain (to_ size 0)) ∧
      (p.comp = true → ∀ at_ slot, chunkSpot s o c false true p.out.toNat p.tile = some (at_, slot) →
        (record.length ≤ slot → V ((true, at_, record) :: scales.map fun z => (false, z)) (to_ (4096 + (if block then 20 else 0)) 0)) ∧
        (slot < record.length → V (scales.map fun z => (false, z)) (to_ (if block then 20 else 0) 8))) ∧
      (p.comp = true → chunkSpot s o c false true p.out.toNat p.tile = none → fails) ∧
      (p.comp = false → ∀ i z, plain[i]? = some z → (∀ i' < i, ∀ z', plain[i']? = some z' → ∃ ls, engineWrite (σ i') o c z'.1 z'.2.1 z'.2.2 = (σ (i' + 1), some ls)) →
        (engineWrite (σ i) o c z.1 z.2.1 z.2.2).2 = none → fails))) ∧
  -- bytes and errors at the object of a command (R317, R319)
  (∀ s r, let c := s.arg.core
    let k := s.arg.k
    let p := r.par
    let off := p.obj.toNat / 16 % 65536 * 16
    let here := p.obj.getLsbD 1 = true ∧ p.obj.toNat < 2 ^ 25 ∧ (s.block r.blk).holds off 16 = true
    s.arg.flag = true → (runs s c)[k]? = some r →
    (r.counted = true ∨ (r.code ≠ 0 ∧ r.code ≠ 8 ∧ ¬(p.scaled = true ∧ p.pdest = true ∧ r.inert = false)) ∨ r.acted = false ∨ r.delivered < r.pieces →
      exec .engineByteCount s = .next s) ∧
    (r.counted = false → (r.code = 0 ∨ r.code = 8 ∨ (p.scaled = true ∧ p.pdest = true ∧ r.inert = false)) → r.acted = true → r.mayEnd (s.core c) = true → r.pieces ≤ r.delivered →
      -- R334: a poisoned object stops the engine with code 7
      let s1 := s.setCore c { s.core c with runs := lset (runs s c) k { r with counted := true, code := if here ∧ scrPoison s r.blk off 16 = true ∧ r.code = 0 then 7 else r.code } }
      (¬here → exec .engineByteCount s = .next s1) ∧ (here → exec .engineByteCount s = .next (s1.objCount r.blk off r.bytes r.lines))) ∧
    (r.errDone = true ∨ r.code = 0 → exec .engineError s = .next s) ∧
    (r.errDone = false → r.code ≠ 0 →
      let s1 := s.setCore c { s.core c with runs := lset (runs s c) k { r with errDone := true } }
      (¬here → exec .engineError s = .next s1) ∧ (here → exec .engineError s = .next (s1.objError r.blk off r.code)))) ∧
  -- status
  (∀ s r, let c := s.arg.core
    let blk := s.block r.blk
    let word := BitVec.ofNat 64 (min r.ovfc 255 * 2 ^ 56 + min r.invc 255 * 2 ^ 48 + (if r.frec.isSome then 2 ^ 24 else 0) + r.code * 2 ^ 16 +
      (if r.nanf then 2 ^ 13 else 0) + (if r.chab then 2 ^ 12 else 0) + r.par.tag)
    s.cores = [(c, s.core c)] → runs s c = [r] → s.arg.k = 0 → r.origin = c → r.oserial = r.serial →
    (r.finished = false → exec .matrixStatus s = .next s) ∧
    (16 < blk.q3.length + (if r.frec.isSome then 2 else 1) → exec .matrixStatus s = .next s) ∧
    (r.finished = true → blk.q3.length + (if r.frec.isSome then 2 else 1) ≤ 16 → (s.block? r.blk).isSome = true → blk.qwait = [] →
      ∃ s', exec .matrixStatus s = .next s' ∧ runs s' c = [] ∧ s'.block r.blk = { blk with q3 := blk.q3 ++ word :: r.frec.toList } ∧ s'.mem = s.mem)) ∧
  -- rectangles
  (∀ s r c serial rest, let p := r.par
    let cores := p.members.map fun m => c + m.1 + 64 * m.2
    p.members = ((List.range (2 ^ p.lh)).flatMap fun b => (List.range (2 ^ p.lw)).map fun a => (a, b)) ∧
    ((∀ x ∈ s.rectReqs, s.partOf x.1 ≠ s.arg.part) → exec .rectReserve s = .next s) ∧
    (s.rectReqs = (c, serial) :: rest → (∀ x ∈ rest, x ≠ (c, serial)) → s.partOf c = s.arg.part → runs s c = [r] → r.serial = serial → r.needRect = true → s.halted r = false →
      ((∃ m ∈ cores, s.reserved m = true) → exec .rectReserve s = .next s) ∧
      ((∀ m ∈ cores, s.reserved m = false) → (∃ m ∈ cores, s.blockAt r.blk.launch m = none) → r.code = 0 →
        ∃ s' r', exec .rectReserve s = .next s' ∧ s'.rectReqs = rest ∧ runs s' c = [r'] ∧ r'.code = 4) ∧
      ((∀ m ∈ cores, s.reserved m = false) → (∀ m ∈ cores, (s.blockAt r.blk.launch m).isSome = true) →
        ∃ s', exec .rectReserve s = .next s' ∧ s'.rectReqs = rest ∧ s'.rectHeld = s.rectHeld ++ [(c, serial, cores)] ∧
          ∀ m ∈ p.members, ∃ y ∈ runs s' (c + m.1 + 64 * m.2), y.mx = m.1 ∧ y.my = m.2 ∧ y.origin = r.origin ∧ y.oserial = r.oserial ∧ y.needRect = false ∧
            y.par.tile = p.tile + m.2 * 2 ^ p.lw + m.1 ∧ s.blockAt r.blk.launch (c + m.1 + 64 * m.2) = some y.blk ∧
            s.blockAt r.blk.launch (c + 64 * m.2) = some y.ablk ∧ s.blockAt r.blk.launch (c + m.1) = some y.bblk ∧ y.mblk = y.ablk ∧
            y.par.out = (if p.ddest = 2 then p.out + BitVec.ofNat 64 (32 * m.2 * 16 * p.opitch + 32 * m.1 * p.dbits / 8) else p.out))))

/-- R269, R358 to R360, R362, R392: reductions in the mesh. That a reduction's number is the full count of RSENDs, and that NANF, OVFF and TMO gather
over the combines of a reduction, is log 38: the model's reading. -/
def Obligations.MeshReductions : Prop :=
  let want (t : Tree) (m : Nat) : List Nat := (List.range t.parents.length).filter fun i => decide (i = m) || decide (t.parents.getD i none = some m)
  let lacks (t : Tree) (m : Nat) (k : RNode) : List Nat := (want t m).filter fun x => !k.items.any fun y => decide (y.idx = x)
  let due (t : Tree) (m : Nat) (k : RNode) (now : Nat) : Prop := t.timeout ≠ 0 ∧ ∃ t0, k.first = some t0 ∧
    ∀ x ∈ lacks t m k, t0 + t.timeout * (1 + if x = m then 0 else t.height t.parents.length x) ≤ now
  -- a node that still takes items: it has not combined, and its latest open deadline has not passed
  let waiting (s : State) (id n m : Nat) : Prop := ∀ l, s.launch? id = some l → let k := ((l.red? n).getD { seq := n }).node m
    k.combined = false ∧ ¬due l.tree m k (s.clock - 1)
  let added (s s' : State) (id n m : Nat) (x : RItem) : Prop := ∃ l l' r', s.launch? id = some l ∧ s'.launch? id = some l' ∧ l'.red? n = some r' ∧
    let k := ((l.red? n).getD { seq := n }).node m
    (r'.node m).items = k.items ++ [x] ∧ (r'.node m).first = some (k.first.getD s.clock) ∧ (r'.node m).combined = false
  -- the sum of the first items of a node, in the order of R359
  let item (k : RNode) (e x : Nat) : Nat := match k.items.find? fun y => decide (y.idx = x) with | some y => (y.vec.getD e 0).toNat | none => 0x8000_0000
  let sum (t : Tree) (m : Nat) (k : RNode) (e j : Nat) : Nat := match (want t m).take (j + 1) with
    | [] => 0
    | x :: rest => rest.foldl (fun v y => (addF FP32 v (item k e y)).1) (item k e x)
  let record (p : Nat) (r' : Reduction) (x : RItem) (w : RStat) : Prop := w.res = true ∧ w.pend = false ∧ w.missn = min 255 x.missing.length ∧ w.tmo = r'.tmo ∧
    w.nanf = r'.nan ∧ w.ovff = r'.ovf ∧ ∀ b < 64, (w.mask.getLsbD b = true ↔ ∃ c ∈ x.missing, c / max 1 (p / 64) = b)
  (∀ i s, i = .reductionItemArrival ∨ i = .routerCombine ∨ i = .reductionDeadline →
    s.redsRun (if i = .reductionItemArrival ∧ s.arg.flag = true then s.arg.blk.launch else s.arg.k) = false → exec i s = .next s) ∧
  -- whose q6 the router of a core serves: the blocks in turn (R269), but not one with a fifth incomplete reduction
  (∀ (s : State) c, let order := (s.blocks.filter fun x => decide (x.2.core = c)).map Prod.fst
    let able (br : BRef) : Prop := s.redsRun br.launch = true ∧ (s.block br).q6 ≠ [] ∧ ∃ l, s.launch? br.launch = some l ∧
      ((l.red? ((s.block br).rsends - (s.block br).q6.length)).isSome = true ∨ (l.reds.filter fun r => r.out.isNone).length < 4)
    let first (l : List BRef) (br : BRef) : Prop := ∃ x y, l = x ++ br :: y ∧ able br ∧ ∀ z ∈ x, ¬able z
    ∀ br, s.nextPacket c = some br ↔
      ((∀ b, (s.core c).turnR = some b → b ∉ order) ∧ first order br) ∨ ∃ x b y, (s.core c).turnR = some b ∧ order = x ++ b :: y ∧ b ∉ x ∧ first (y ++ x ++ [b]) br) ∧
  -- a packet of a block reaches its router
  (∀ s l p rest, let br := s.arg.blk
    let b := s.block br
    let n := b.rsends - b.q6.length
    s.arg.flag = true → (s.block? br).isSome = true → s.launch? br.launch = some l → s.redsRun br.launch = true → b.q6 = p :: rest → b.qwait = [] → b.qbad = [] →
    let turn := s.nextPacket b.core = some br
    (¬turn → exec .reductionItemArrival s = .next s) ∧
    (turn → waiting s br.launch n br.idx → ∃ s', exec .reductionItemArrival s = .next s' ∧ s'.block br = { b with q6 := rest } ∧ (s'.core b.core).turnR = some br ∧
      added s s' br.launch n br.idx { idx := br.idx, vec := p, missing := [], carried := [br.idx] }) ∧
    (turn → (∃ r, l.red? n = some r ∧ (r.node br.idx).combined = true ∧ ¬due l.tree br.idx (r.node br.idx) (s.clock - 1)) → b.rsends = n + 1 →
      ∃ s', exec .reductionItemArrival s = .next s' ∧ s'.block br = { b with q6 := rest, rstat := { b.rstat with drop := true, pend := false } } ∧ s'.launches = s.launches)) ∧
  -- a subtree's sum reaches its router
  (∀ s l r m x, s.arg.flag = false → s.redsRun s.arg.k = true → s.launch? s.arg.k = some l → l.red? s.arg.n = some r → r.flying[s.arg.off]? = some (m, x) →
    (waiting s s.arg.k s.arg.n m → ∃ s', exec .reductionItemArrival s = .next s' ∧ added s s' s.arg.k s.arg.n m x ∧ s'.blocks = s.blocks ∧
      ∃ l' r', s'.launch? s.arg.k = some l' ∧ l'.red? s.arg.n = some r' ∧ r'.flying = ldrop r.flying s.arg.off) ∧
    -- after its latest open deadline the node combines without it, and it is dropped
    ((r.node m).combined = false → due l.tree m (r.node m) (s.clock - 1) → r.owed = [] → m < l.tree.parents.length → (l.tree.parents.getD m none).isSome = true →
      ∃ s' l' r', exec .reductionItemArrival s = .next s' ∧ s'.launch? s.arg.k = some l' ∧ l'.red? s.arg.n = some r' ∧ (r'.node m).combined = true ∧
        (r'.node m).items = (r.node m).items ∧ ∀ i ∈ x.carried, ∀ b, s.block? ⟨s.arg.k, i⟩ = some b → b.rsends = s.arg.n + 1 →
          s'.block ⟨s.arg.k, i⟩ = { b with rstat := { b.rstat with drop := true, pend := false } })) ∧
  -- a node combines
  (∀ i s l r, i = .routerCombine ∨ i = .reductionDeadline →
    let id := s.arg.k
    let n := s.arg.n
    let m := s.arg.off
    let t := l.tree
    let k := r.node m
    s.redsRun id = true → s.launch? id = some l → l.red? n = some r → r.owed = [] → k.combined = false → k.first.isSome = true → m < t.parents.length →
    (∀ y ∈ k.items, y.vec.length = 32) → (∀ y ∈ k.items, y.idx ∈ want t m) → (k.items.map RItem.idx).Nodup →
    let now := if i = .routerCombine then lacks t m k = [] else due t m k s.clock
    let missing (x : Nat) : Prop := (∃ y ∈ k.items, x ∈ y.missing) ∨ ∃ y ∈ lacks t m k, x ∈ (if y = m then [m] else t.subtree t.parents.length y)
    let last := (want t m).length - 1
    let gathers (r' : Reduction) : Prop := (r'.node m).combined = true ∧ r'.tmo = (r.tmo || decide (lacks t m k ≠ [])) ∧
      (r'.nan = true ↔ r.nan = true ∨ ∃ e < 32, ∃ j < last, (decodeF FP32 (sum t m k e (j + 1))).isNan = true) ∧
      (r'.ovf = true ↔ r.ovf = true ∨ ∃ e < 32, ∃ j < last, (addF FP32 (sum t m k e j) (item k e ((want t m).getD (j + 1) 0))).2 &&& OVF ≠ 0)
    let sums (x : RItem) : Prop := x.vec = (List.range 32).map (fun e => BitVec.ofNat 32 (sum t m k e last)) ∧ ∀ c, c ∈ x.missing ↔ missing c
    (¬now → ∃ s' l', exec i s = .next s' ∧ s'.blocks = s.blocks ∧ s'.launch? id = some l' ∧ (l'.red? n).map (fun r => (r.node m).combined) = some false) ∧
    (now → ∀ p, t.parents.getD m none = some p → ∃ s' l' r' x, exec i s = .next s' ∧ s'.launch? id = some l' ∧ l'.red? n = some r' ∧ gathers r' ∧
      r'.flying = r.flying ++ [(p, x)] ∧ x.idx = m ∧ sums x ∧ r'.out = r.out ∧ s'.blocks = s.blocks) ∧
    -- the root: its result reaches q7 of its own block, and with DELIV of every contributor that is not missing
    (now → t.parents.getD m none = none → ∃ s' l' r' x, exec i s = .next s' ∧ s'.launch? id = some l' ∧ l'.red? n = some r' ∧ gathers r' ∧ r'.out = some x ∧ sums x ∧
      let gets (y : Nat) : Prop := y = m ∨ (t.deliv = true ∧ y < t.parents.length ∧ ¬missing y)
      ∀ y b, s.block? ⟨id, y⟩ = some b → b.qwait = [] → let b' := s'.block ⟨id, y⟩
        let sent := b.rstat.sent || decide (∃ z ∈ k.items, y ∈ z.carried)
        (gets y → b.q7.length < 2 → b'.q7 = b.q7 ++ [x.vec] ∧ y ∉ r'.owed ∧ (b.rsends = n + 1 → record t.parents.length r' x b'.rstat ∧ b'.rstat.sent = sent ∧ b'.rstat.seq = b.rstat.seq)) ∧
        (gets y → 2 ≤ b.q7.length → b'.q7 = b.q7 ∧ y ∈ r'.owed) ∧
        (¬gets y → b'.q7 = b.q7 ∧ y ∉ r'.owed ∧ (b.rsends = n + 1 → b'.rstat.sent = sent ∧ b'.rstat.res = b.rstat.res)))) ∧
  -- the record that an RSEND begins; the root's block may have had its result before it sent
  (∀ (s : State) br n, let w := s.freshRec br n
    (w.seq = n % 65536 ∧ w.sent = false ∧ w.drop = false) ∧
    ((∀ l, s.launch? br.launch = some l → ∀ r, (l.reds.find? fun r => decide (r.seq = n)) = some r → r.out = none) →
      w = { seq := n % 65536, pend := true }) ∧
    (∀ l r x, s.launch? br.launch = some l → (l.reds.find? fun r => decide (r.seq = n)) = some r → r.out = some x → l.tree.parents.getD br.idx none = none → br.idx ∉ r.owed →
      record l.tree.parents.length r x w))

/-- R242, R348, R366 to R369, R379: the registers of the hub. An SC operation that waits for a clock above 2^48 - 1 lets the epoch change go
on, and takes its timestamp after it; contexts that are switched out lose their clocks too (DEDUCED, log 73); the floor of a slice is one for
each partition (DEDUCED, log 75). -/
def Obligations.HubRegisters : Prop :=
  let quiet (s : State) (p : Nat) : Prop := ∀ x ∈ s.threads, (s.ownOf x.1).part = p → x.2.outs = [] ∧ x.2.stores = [] ∧ x.2.sc = none ∧ ∀ w, x.2.st ≠ .waiting (.access w)
  (∀ i s, i ∈ [Instr.s2root, .hubinvVa, .hubinvTenant, .hubinvIpa, .hubinvPartition, .nqbase, .scepoch, .registerWrite, .smaddr, .lqn, .ctxnext] →
    s.regsAnswer s.arg.part = false → exec i s = .next s) ∧
  (∀ s : State, (s.sec.powered = false ∨ s.sec.recovery = true ∨ tget s.parts s.arg.part = none) ↔ s.regsAnswer s.arg.part = false) ∧
  (∀ s, let p := s.arg.part
    let q := s.partn p
    let v := s.arg.v
    s.regsAnswer p = true →
    let begins (i : Instr) (k : HubInv) (q1 : Partition) : Prop :=
      (q.busy ≠ none → exec i s = .next (s.setPart p { q with ign := true })) ∧
      (q.busy = none → exec i s = .next (s.setPart p { q1 with busy := some k, ign := false }))
    begins .s2root .all { q with s2root := v &&& 0x0000_FFFF_FFFF_F001#64 } ∧
    begins .hubinvVa (.va v.toNat s.arg.tenant) q ∧ begins .hubinvTenant (.tenant s.arg.tenant) q ∧
    begins .hubinvIpa (.ipa v.toNat) q ∧ begins .hubinvPartition .all q ∧
    (v.getLsbD 0 = true → exec .nqbase s = .next (s.setPart p { q with nqbase := v &&& 0x0000_FFFF_FFFF_F00F#64, nqprod := 0, nqcons := 0 })) ∧
    (v.getLsbD 0 = false → exec .nqbase s = .next (s.setPart p { q with nqbase := v &&& 0x0000_FFFF_FFFF_F00F#64 })) ∧
    (s.arg.off = 0x4010 → exec .registerWrite s = .next (s.setPart p { q with nqcons := v.setWidth 32 })) ∧
    (s.arg.off = 0x3008 → exec .registerWrite s = .next (s.setPart p { q with ign := true })) ∧
    (s.arg.off ≠ 0x4010 → s.arg.off ≠ 0x3008 → exec .registerWrite s = .next s) ∧
    (v.getLsbD 0 = true → exec .scepoch s = .next (s.setPart p { q with epochGo := true })) ∧
    (v.getLsbD 0 = false → exec .scepoch s = .next s) ∧
    (q.smbusy = true → exec .smaddr s = .next (s.setPart p { q with smign := true })) ∧
    (q.smbusy = false → exec .smaddr s = .next { s.setPart p { q with smign := false, smbusy := true, smaddr := v.toNat / 64 % 2 ^ 42 * 64 } with
      sec := { s.sec with queue := s.sec.queue ++ [p] } })) ∧
  (∀ (s : State) p code tenant a0 a1, let q := s.partn p
    let cap := 2 ^ (q.nqbase.toNat / 2 % 8 + 7)
    let pa := q.nqbase.toNat / 4096 % 2 ^ 36 * 4096 + 32 * (q.nqprod.toNat % cap)
    let le (n v : Nat) : List Byte := (List.range n).map fun j => BitVec.ofNat 8 (v / 256 ^ j)
    let s' := s.notice p code tenant a0 a1
    let room := q.nqbase.getLsbD 0 = true ∧ (q.nqprod - q.nqcons).toNat < cap
    (¬room → s' = s.setPart p { q with irqs := q.irqs + 1, nqlost := if 65535 < q.nqlost + 1 then 65535 else q.nqlost + 1 }) ∧
    (room → s'.partn p = { q with irqs := q.irqs + 1, nqprod := q.nqprod + 1 } ∧
      (MemInv s → presentRange s p pa 32 = true → (∀ l, l2find s (pa / 128) = some l → l.cmp = false) → ∀ x, homeByte s' x =
        if pa ≤ x ∧ x < pa + 32 then (le 2 code ++ le 1 p ++ le 1 tenant ++ le 4 q.nqprod.toNat ++ le 8 a0 ++ le 8 a1 ++ le 8 s.clock).getD (x - pa) 0
        else homeByte s x))) ∧
  (∀ s, let p := s.arg.part
    let mine (c : Nat) : Prop := c ∈ s.coresOf p
    ((s.partn p).busy = none → exec .invalidationComplete s = .next s) ∧
    (∀ k, (s.partn p).busy = some k → quiet s p → ∃ s', exec .invalidationComplete s = .next s' ∧ s'.partn p = { s.partn p with busy := none } ∧
      s'.mem = s.mem ∧ s'.l2 = s.l2 ∧ s'.threads = s.threads ∧ s'.blocks = s.blocks ∧
      (let named (e : TlbEnt) : Prop := e.part = p ∧ match k with
          | .va va t => e.tenant = t ∧ e.vbase ≤ va ∧ va < e.vbase + e.size
          | .tenant t => e.tenant = t
          | .ipa ipa => ∃ x ∈ e.s2used, x.1 ≤ ipa ∧ ipa < x.1 + x.2
          | .all => True
        (∀ c, mine c → ∀ e, e ∈ (s'.core c).tlb ↔ e ∈ (s.core c).tlb ∧ ¬named e) ∧ (∀ c, ¬mine c → (s'.core c).tlb = (s.core c).tlb) ∧
        ∀ cl e, (cl, e) ∈ s'.ctlb ↔ (cl, e) ∈ s.ctlb ∧ ¬((∃ c, mine c ∧ clusterOf c = cl) ∧ named e)) ∧
      (let named (w : WalkEnt) : Prop := w.part = p ∧ match k with
          | .va va t => w.tenant = t ∧ w.stage = 0 ∧ w.high = levelHigh w.level va
          | .tenant t => w.tenant = t ∧ w.stage = 0
          | .ipa ipa => w.stage = 1 ∧ w.high = levelHigh w.level ipa
          | .all => True
        ∀ cl w, (cl, w) ∈ s'.cwalk ↔ (cl, w) ∈ s.cwalk ∧ ¬((∃ c, mine c ∧ clusterOf c = cl) ∧ named w)))) ∧
  (∀ s, let p := s.arg.part
    let mine (t : TRef) : Prop := s.partOf t.core = p
    let held (t : TRef) : Prop := ((s.scForce t).thread t).sc ≠ none
    let open_ (x : TRef × Thread) : Prop := mine x.1 ∧ x.2.sc ≠ none
    (s.threads.map Prod.fst).Nodup →
    ((s.partn p).epochGo = false ∨ (∃ x ∈ s.threads, open_ x ∧ ¬held x.1) → exec .epochChangeComplete s = .next s) ∧
    ((s.partn p).epochGo = true → (∀ x ∈ s.threads, open_ x → held x.1) → ∃ s', exec .epochChangeComplete s = .next s' ∧
      (s'.partn p).epochGo = false ∧ (s'.partn p).epochs = (s.partn p).epochs + 1 ∧ (s'.partn p).irqs = (s.partn p).irqs + 1 ∧
      (∀ c, (s'.core c).scK = if s.partOf c = p then (s.threads.filter fun x => decide (x.1.core = c) && x.2.sc.isSome).length else (s.core c).scK) ∧
      (∀ t th, s.thread? t = some th → ∃ th', s'.thread? t = some th' ∧ th'.g = th.g ∧ th'.pc = th.pc ∧ th'.st = th.st ∧
        (¬mine t → th'.scClock = th.scClock ∧ th'.sc = th.sc) ∧ (mine t → th.sc = none → th'.scClock = 0 ∧ th'.sc = none) ∧
        (mine t → ∀ op, th.sc = some op → ∃ k, 1 ≤ k ∧ k ≤ (s'.core t.core).scK ∧ th'.sc = some { op with ts := ⟨k, t.core⟩ } ∧ th'.scClock = BitVec.ofNat 48 k) ∧
        (mine t → th.watch.armed = true → th'.watch.spur = true ∧ th'.watch.tracked = false)) ∧
      (∀ y ∈ s'.parked ++ s'.shadow, y.part = p → ∀ z ∈ y.threads, z.2.scClock = 0) ∧
      (∀ l ∈ s'.l2, l.part = p → l.stamp = {}) ∧ (∀ ln, (∀ l, l2find s' ln = some l → l.part = p) → stampAt s' p ln = {}))) ∧
  -- R350: what other partitions hold keeps its stamps
  (∀ (s : State) p q ln, q ≠ p → (∀ l, l2find s ln = some l → l.part ≠ p) → stampAt (s.zeroEpoch p) q ln = stampAt s q ln) ∧
  -- the clock notice, once in an epoch
  (∀ (s : State) p, let q := s.partn p
    let high (k : Stamp) : Prop := 2 ^ 47 ≤ k.clk ∧ ((∃ x ∈ s.cores, s.partOf x.1 = p ∧ k = ⟨x.2.scK, x.1⟩) ∨ ∃ l ∈ s.l2, l.part = p ∧ k = l.stamp)
    (q.scNotice = true ∨ (∀ k, ¬high k) → s.clockNotice p = s) ∧
    (q.scNotice = false → (∃ k, high k) → ∃ k, high k ∧ s.clockNotice p = (s.setPart p { q with scNotice := true }).notice p 3 noTenant k.clk k.core)) ∧
  (∀ s, let e := s.arg.k
    let l := s.arg.n
    let run := if s.arg.flag then (tget s.sec.retryRun (e, l)).getD 0 + 1 else 0
    (10 ≤ e ∨ 16 ≤ l ∨ (e, l) ∈ s.sec.deadLinks → exec .flitCrcFailure s = .next s) ∧
    (e < 10 → l < 16 → (e, l) ∉ s.sec.deadLinks → s.sec.life.retries.length = 10 → s.sec.life.outOfService.length = 10 →
      ∃ s', exec .flitCrcFailure s = .next s' ∧ tget s'.sec.retryRun (e, l) = some run ∧
        (s'.sec.life.retries.getD e 0) = (if 0xFFFF_FFFF < s.sec.life.retries.getD e 0 + 1 then 0xFFFF_FFFF else s.sec.life.retries.getD e 0 + 1) ∧
        (run < 16 → s'.sec.deadLinks = s.sec.deadLinks ∧ s'.parts = s.parts) ∧
        (16 ≤ run → s'.sec.deadLinks = s.sec.deadLinks ++ [(e, l)] ∧
          ((s.sec.deadLinks.filter fun d => decide (d.1 = e)).length < 15 → s'.parts = s.parts ∧ s'.mgmt = s.mgmt) ∧
          (15 ≤ (s.sec.deadLinks.filter fun d => decide (d.1 = e)).length → (s.parts.map Prod.fst).Nodup →
            let d := if e < 6 then (e / 3 * 4 + e % 3, e / 3 * 4 + e % 3 + 1) else (e - 6, e - 2)
            let hit (q : Partition) : Bool := q.dies.contains d.1 || q.dies.contains d.2
            s'.mgmt = s.mgmt ++ (s.parts.filter fun x => hit x.2).map (fun x => (e, x.1)) ∧
            ∀ p q, tget s.parts p = some q → (s'.partn p).halted = (q.halted || hit q) ∧ (s'.partn p).fatal = (q.fatal || hit q) ∧
              (s'.partn p).irqs = q.irqs + (if hit q then 1 else 0)))))

/-- R262, R335 to R343, R352 to R354, R356, R394: contexts and load shedding. The model's readings (DEDUCED): the exchange of a core's banks, the end of
its stop and the spill of each core are moves of their own, and a spill may take every core in one (log 27); what a body of an image stands for
(log 21); a descriptor with VALID clear is refused, and after any refusal the next context named before stays (log 34); step 4 drops a named
next context, and no context comes in while the step is 4 or more (log 35); which commands return to q0 (log 36). -/
def Obligations.ContextSwitching : Prop :=
  (∀ s, let p := s.arg.part
    let v := s.arg.v
    let q := s.partn p
    let desc := v.toNat / 128 % 2 ^ 41 * 128
    let b := hubRead s desc 128
    let named (x : Option Ctx) : State :=
      ({ s with shadow := if q.switch = .idle then s.shadow.filter fun y => decide (y.part ≠ p) else s.shadow } : State).setPart p
        { q with next := some (x, v.getLsbD 1), preloaded := false }
    let zeros (a n : Nat) : Prop := ∀ k, a ≤ k → k < a + n → field b k 1 = 0
    let good : Prop := presentRange s p desc 128 = true ∧ field b 21 1 % 2 = 1 ∧ field b 32 2 ≠ 0 ∧ field b 34 2 ≠ 0 ∧
      (∀ w ∈ s.guestWays, (field b 32 2).testBit w = false) ∧ zeros 22 2 ∧ zeros 40 24 ∧ zeros 64 64
    let x : Ctx := {
      desc := desc, s1root := field b 0 8 / 4096 * 4096 % 2 ^ 48, save := field b 8 8 / 2 ^ 20 * 2 ^ 20, slice := field b 16 4,
      tenant := field b 20 1 % 64, savecnt := field b 24 8, waymask := field b 32 2, rdcmask := field b 34 2, quota := field b 36 4, since := 0 }
    s.regsAnswer p = true →
    (v.getLsbD 0 = true → exec .ctxnext s = .next (named none)) ∧
    (v.getLsbD 0 = false → good → exec .ctxnext s = .next (named (some x))) ∧
    (v.getLsbD 0 = false → ¬good → exec .ctxnext s = .next (s.notice p 6 255 desc 0xFFFF_FFFF))) ∧
  -- the end of the preload
  (∀ s, let p := s.arg.part
    let q := s.partn p
    let cores := s.coresOf p
    let img (x : Ctx) (i : Nat) : List Byte := hubRead s (x.save + 2 ^ 20 * i) (2 ^ 20)
    let imageOk (x : Ctx) (i : Nat) : Prop :=
      let b := img x i
      field b 0 4 = 1 ∧ field b 4 1 = x.tenant ∧ field b 5 1 = p ∧ field b 8 8 + 1 = x.savecnt ∧
      (if field b 16 4 = 0 then 0 else crc64 (b.drop 64)) = field b 32 8
    let allOk (x : Ctx) : Prop := x.savecnt = 0 ∨ ∀ i < cores.length, imageOk x i
    let loaded (x : Ctx) : List SavedCore := if x.savecnt = 0 then [] else
      (List.range cores.length).filterMap fun i => s.decodeImage (img x i) ⟨p, x.tenant⟩ i
    let stop (into : Option Ctx) : Partition := { q with switch := .stopping into, next := none, preloaded := false }
    (q.next = none ∨ q.switch ≠ .idle → exec .preloadComplete s = .next s) ∧
    (q.switch = .idle → q.preloaded = false →
      (∀ now, q.next = some (none, now) → q.cur ≠ none →
        exec .preloadComplete s = .next (s.setPart p (if now && !q.halted then stop none else { q with preloaded := true }))) ∧
      (∀ x now, q.next = some (some x, now) → q.cur ≠ none ∨ q.halted = true ∨ 4 ≤ s.powerStep → allOk x → ∃ s', exec .preloadComplete s = .next s' ∧
        s'.partn p = (if now && !q.halted && decide (s.powerStep < 4) && q.cur.isSome then stop (some x) else { q with preloaded := true }) ∧
        s'.threads = s.threads ∧ s'.warps = s.warps ∧ s'.blocks = s.blocks ∧ s'.cores = s.cores ∧ s'.mem = s.mem ∧
        s'.shadow.filter (fun y => decide (y.part ≠ p)) = s.shadow.filter (fun y => decide (y.part ≠ p)) ∧
        (let held := s'.shadow.filter fun y => decide (y.part = p)
         held.map (fun y => (y.idx, y.tenant, y.threads, y.warps, y.clkrd)) = (loaded x).map (fun y => (y.idx, y.tenant, y.threads, y.warps, y.clkrd)) ∧
         (((loaded x).map SavedCore.core).Nodup → ∀ y ∈ held, cores[y.idx]? = some y.core))) ∧
      (∀ x now, q.next = some (some x, now) → q.cur = none → q.halted = false → allOk x → s.powerStep < 4 → ∃ s', exec .preloadComplete s = .next s' ∧
        (s'.partn p).cur = some { x with since := s.clock } ∧ (s'.partn p).next = none ∧ (s'.partn p).preloaded = false ∧ (s'.partn p).switch = .idle ∧
        (⟨x.tenant, x.waymask, x.rdcmask, x.quota⟩ : Masks) ∈ (s'.partn p).masks ∧ (∀ c ∈ cores, (s'.core c).stopped = false ∧ (s'.core c).swapped = false) ∧
        (∀ y ∈ s'.shadow, y.part ≠ p)) ∧
      (∀ now, q.next = some (none, now) → q.cur = none → q.halted = false → ∃ s', exec .preloadComplete s = .next s' ∧
        (s'.partn p).cur = none ∧ (s'.partn p).next = none ∧ (s'.partn p).switch = .idle ∧ s'.blocks = s.blocks ∧ s'.warps = s.warps) ∧
      (∀ x now i, q.next = some (some x, now) → x.savecnt ≠ 0 → i < cores.length → ¬imageOk x i → (∀ j < i, imageOk x j) →
        exec .preloadComplete s = .next ((s.setPart p { q with next := none, preloaded := false }).notice p 6 255 x.desc i)))) ∧
  (∀ s, let p := s.arg.part
    let q := s.partn p
    (q.cur = none → exec .sliceEnd s = .next s) ∧
    (∀ c, q.cur = some c → let over_ : Prop := c.slice ≠ 0 ∧ c.since + 1024 * c.slice ≤ s.clock ∧ q.switch = .idle ∧ q.halted = false
      let ready (x : Option Ctx) : Prop := q.preloaded = true ∧ (x = none ∨ s.powerStep < 4)
      (¬over_ → exec .sliceEnd s = .next s) ∧
      (∀ x now, over_ → q.next = some (x, now) → ready x →
        exec .sliceEnd s = .next (s.setPart p { q with switch := .stopping x, next := none, preloaded := false })) ∧
      (over_ → (∀ x now, q.next = some (x, now) → ¬ready x) →
        exec .sliceEnd s = .next (s.setPart p { q with cur := some { c with since := c.since + 1024 * c.slice } })))) ∧
  -- a core stops: its banks are exchanged, and it reports when nothing of the outgoing context is outstanding
  (∀ s, let c := s.arg.core
    let p := s.partOf c
    let q := s.partn p
    let own (b : Block) : Prop := b.core = c ∧ b.benched = false
    let plain : Prop := (∀ x ∈ s.threads, x.1.core = c → x.1.slot < 64) ∧ (∀ x ∈ s.warps, x.1.1 = c → x.1.2 < 64) ∧ (s.threads.map Prod.fst).Nodup ∧
      (s.warps.map Prod.fst).Nodup ∧ (s.blocks.map Prod.fst).Nodup
    let quiet (th : Thread) : Prop := th.outs = [] ∧ th.stores = [] ∧ th.sc = none ∧ ∀ w, th.st ≠ .waiting (.access w)
    (q.switch = .idle ∨ q.cur = none ∨ (s.core c).stopped = true ∨ q.halted = true ∨ c ∉ s.coresOf p → exec .coreStopped s = .next s) ∧
    (∀ x into, q.switch = .stopping into → q.cur = some x → (s.core c).stopped = false → q.halted = false → c ∈ s.coresOf p →
      (s.arg.flag = true → (s.core c).swapped = true → exec .coreStopped s = .next s) ∧
      (∃ s', exec .coreStopped s = .next s' ∧ (s'.core c).swapped = true ∧ ((s'.core c).stopped = true → s.arg.flag = false ∧
        ∀ t th b, s'.thread? t = some th → t.core = c → th.leaven = false → s'.block? (s'.warp c t.slot).blk = some b → b.core = c → b.part = p →
          b.benched = true → th.outs = [] ∧ th.stores = [] ∧ th.sc = none)) ∧
      (s.arg.flag = true → (s.core c).swapped = false → (∀ y ∈ s.shadow, y.part ≠ p) → plain → ∃ s', exec .coreStopped s = .next s' ∧
        (s'.core c).p0 = [] ∧ (s'.core c).p1 = [] ∧ (s'.core c).table = [] ∧ (s'.core c).overflow = [] ∧ (s'.core c).bins = [] ∧
        (∀ br b, s.block? br = some b → own b → (s'.block br).benched = true ∧ (s'.block br).pways = b.pways ∧ (s'.block br).cways = b.cways ∧
          (s'.block br).slots = b.slots.map (· + 64)) ∧
        (∀ t th b, s.thread? t = some th → t.core = c → th.leaven = false → s.block? (s.warp c t.slot).blk = some b → own b →
          ∃ th', s'.thread? { t with slot := t.slot + 64 } = some th' ∧ th'.g = th.g ∧ th'.pc = th.pc ∧ th'.loaf = th.loaf ∧ th'.trap = th.trap ∧ th'.outs = th.outs ∧
            th'.stores = th.stores ∧ th'.st = if th.st = .running ∨ th.st = .listed ∨ th.st = .waiting .scHeld then .ready else th.st)) ∧
      (s.arg.flag = false → (∀ y ∈ s.shadow, y.part ≠ p) → plain → (∀ x ∈ s.threads, x.1.core = c → quiet x.2) →
        ∃ s', exec .coreStopped s = .next s' ∧ (s'.core c).stopped = true) ∧
      (∀ y r, into = some y → y.tenant ≠ x.tenant → (∀ k ∈ s.coresOf p, (s.core k).swapped = false) → s.shadow.filter (fun z => decide (z.part = p)) = [r] →
        r.core = c → s.blocks = [] → s.warps = [] → s.threads = [] → (r.threads.map Prod.fst).Nodup → (r.warps.map Prod.fst).Nodup →
        (∀ b ∈ r.blocks, b.2.qwait = [] ∧ b.2.gwait = []) → (∀ z ∈ r.threads, z.2.st = .ready) → ∃ s', exec .coreStopped s = .next s' ∧
          (∀ sl ln th, ((sl, ln), th) ∈ r.threads → s'.thread? ⟨c, sl, ln⟩ = some th) ∧
          (∀ sl w, (sl, w) ∈ r.warps → s'.warp? c sl = some w) ∧ (∀ br ∈ r.blocks.map Prod.fst, (s'.block br).benched = false ∧
            (s'.block br).unloaded = (s'.block br).pways ++ (s'.block br).cways) ∧
          ∀ z ∈ r.threads, z.2.scClock.toNat ≤ (s'.core c).scK))) ∧
  (∀ s, let p := s.arg.part
    let q := s.partn p
    let l := s.coresOf p
    let ready : Prop := q.halted = false ∧ ∀ c ∈ l, (s.core c).stopped = true
    let fresh : Prop := ∀ c ∈ l, (s.core c).spilled = false ∧ (s.core c).waysDone = 0
    let calm : Prop := q.nqbase.getLsbD 0 = false ∧ q.preloaded = false ∧ (∀ c, (s.core c).copies = [] ∧ (s.core c).runs = []) ∧
      (∀ b ∈ s.blocks, b.2.sift = []) ∧ ∀ x ∈ s.launches, x.2.reds = []
    let count : Prop := s.arg.flag = false ∧ fresh
    ((q.cur = none ∨ q.switch = .idle ∨ ¬ready) → exec .spill s = .next s) ∧
    -- R340: the spill deals with the scratchpad ways of a core one by one; the incoming blocks' contents of a way are there from then on
    (∀ c n, s.partOf c = p → n = (s.core c).waysDone → q.cur = none ∨ q.switch = .idle ∨ ¬ready ∨ (s.core c).spilled = true ∨ 24 ≤ n →
      s.perform1 (.spillWay c) = .next s) ∧
    (∀ c n x into, s.partOf c = p → n = (s.core c).waysDone → c ∈ l → q.cur = some x → q.switch = .stopping into → ready → (s.core c).spilled = false → n < 24 →
      (s.blocks.map Prod.fst).Nodup → ∃ s', s.perform1 (.spillWay c) = .next s' ∧ (s'.core c).waysDone = n + 1 ∧ (s'.core c).spilled = false ∧
        ∀ br b, s.block? br = some b → b.core = c → b.benched = false → ∀ w, w ∈ (s'.block br).unloaded ↔ w ∈ b.unloaded ∧ w ≠ n) ∧
    (∀ x into, q.cur = some x → q.switch = .stopping into → ready → s.arg.flag = false →
      ∃ s', exec .spill s = .next s' ∧ (q.preloaded = false → (s'.partn p).switch = .idle ∧ (s'.partn p).next = q.next ∧
        (s'.partn p).cur = into.map fun y => { y with since := s.clock }) ∧
      (q.preloaded = true → q.next = some (none, true) → (s'.partn p).next = none ∧
        (∀ y, into = some y → (s'.partn p).cur = some { y with since := s.clock } ∧ (s'.partn p).switch = .stopping none) ∧
        (into = none → (s'.partn p).cur = none ∧ (s'.partn p).switch = .idle))) ∧
    (∀ x into, q.cur = some x → q.switch = .stopping into → ready → s.arg.flag = true → s.arg.core ∈ l →
      (∃ c ∈ l, c ≠ s.arg.core ∧ (s.core c).spilled = false) → ∃ s', exec .spill s = .next s' ∧ (s'.partn p).switch = .stopping into ∧
        ∀ c ∈ l, (s'.core c).spilled = ((s.core c).spilled || decide (c = s.arg.core))) ∧
    (∀ x, q.cur = some x → q.switch = .stopping none → ready → calm → count → (s.blocks.map Prod.fst).Nodup → (s.threads.map Prod.fst).Nodup →
      (∀ b ∈ s.blocks, b.2.core ∈ l → b.2.part = p ∧ b.2.benched = true) →
      (∀ y ∈ s.threads, y.1.core ∈ l → ∃ b, s.block? (s.warp y.1.core y.1.slot).blk = some b ∧ b.core = y.1.core) → ∃ s' saved, exec .spill s = .next s' ∧
      (∀ t th, s'.thread? t = some th → t.core ∈ l → th.leaven = true) ∧ (∀ b ∈ s'.blocks, b.2.core ∉ l) ∧ (∀ c ∈ l, (s'.core c).stopped = false) ∧
      s'.parked = s.parked ++ saved ∧ saved.map SavedCore.core = l ∧
      (∀ t th, s.thread? t = some th → t.core ∈ l → th.leaven = false → ∃ y ∈ saved, y.core = t.core ∧ ∃ z ∈ y.threads, z.1 = (t.slot % 64, t.lane) ∧
        z.2.g = th.g ∧ z.2.pc = th.pc ∧ z.2.loaf = th.loaf ∧ z.2.trap = th.trap ∧ z.2.xpc = th.xpc ∧ z.2.scClock = th.scClock ∧
        (th.watch.armed = true → z.2.watch = { lost := true }))) ∧
    (∀ x, q.cur = some x → q.switch = .stopping none → ready → calm → count → MemInv s → s.blocks = [] → s.rdc = [] → (∀ c, (s.core c).l1 = []) →
      (∀ y ∈ s.l2, y.cmp = false) → presentRange s p (x.desc + 24) 8 = true →
      (∀ i < l.length, presentRange s p (x.save + 2 ^ 20 * i) 64 = true ∧ (x.desc + 32 ≤ x.save + 2 ^ 20 * i ∨ x.save + 2 ^ 20 * i + 64 ≤ x.desc + 24)) →
      let n := field (hubRead s (x.desc + 24) 8) 0 8
      ∃ s' saved, exec .spill s = .next s' ∧ field (hubRead s' (x.desc + 24) 8) 0 8 = (n + 1) % 2 ^ 64 ∧
        (∀ i c, l[i]? = some c → let h := hubRead s' (x.save + 2 ^ 20 * i) 64
          field h 0 4 = 1 ∧ field h 4 1 = x.tenant % 256 ∧ field h 5 1 = p % 256 ∧ field h 6 2 = c ∧ field h 8 8 = n ∧
          ∀ k, 16 ≤ k → k < 64 → field h k 1 = 0) ∧
        s'.parked = s.parked ++ saved ∧ saved.map SavedCore.core = l ∧
        ∀ y ∈ saved, y.part = p ∧ y.tenant = x.tenant ∧ y.idx = l.idxOf y.core ∧ y.savecnt = n ∧ y.blocks = [] ∧
          y.clkrd = (tget (s.core y.core).clkrd (p, x.tenant)).getD 0)) ∧
  -- an access to a way that is still to be loaded waits, own or peer (R340)
  (∀ (o : BitVec 6) (sz : BitVec 3) a n d e s t b off, let i : Instr := .ldS o sz a n d e
    let th := s.thread t
    let z : Nat := 2 ^ sz.toNat
    s.group = [t] → (s.thread? t).isSome = true → th.st = .running → illegalFor i th = false → overBudget i th = false → parityHit i (s.warp t.core t.slot) th = false →
    waitsInPlace i (s.warp t.core t.slot) th = false → th.leaven = false →
    checkScratch s (s.blkOf t) (th.word a.toNat + BitVec.ofInt 32 (o.toInt * z)) z z 0 = .ok (.scr b off) →
    (∃ j < z, ∃ w, ((s.block b).pways ++ (s.block b).cways)[(off + j) / 16384]? = some w ∧ w ∈ (s.block b).unloaded) → (s.block? b).isSome = true → exec i s = .next s) ∧
  -- R352 to R354, R262: the hub keeps a tenant's masks and quota; the trackers of lines in ways that a new mask changes are given up
  (∀ (s : State) p (x : Ctx) l t th, let q := s.partn p
    let m : Masks := ⟨x.tenant, x.waymask, x.rdcmask, x.quota⟩
    let old := (q.masks.find? fun m => decide (m.tenant = x.tenant)).getD { tenant := x.tenant }
    let s' := s.setMasks p x
    ((s'.partn p).masks.find? fun m => decide (m.tenant = x.tenant)) = some m ∧
    (s.rdc = [] → l ∈ s.l2 → homeOf (l.line * 128) ∈ q.dies → l.way < 16 → old.l2.testBit l.way ≠ x.waymask.testBit l.way → s.thread? t = some th → th.watch.armed = true →
      th.watch.tracked = true → th.watch.line = l.line → (s'.thread? t).map (fun y => (y.watch.spur, y.watch.tracked)) = some (true, false))) ∧
  (∀ s : State, let n := s.powerStep
    let paused (q : Partition) : Partition :=
      if q.cur = none then { q with next := none, preloaded := false }
      else if q.switch = .idle then { q with switch := .stopping none, next := none, preloaded := false }
      else { q with next := some (none, true), preloaded := true }
    (5 ≤ n → exec .powerLimit s = .next s) ∧
    (n < 3 → exec .powerLimit s = .next { s with powerStep := n + 1 }) ∧
    (n = 3 → exec .powerLimit s = .next (({ s with powerStep := 4, parts := s.parts.map fun x => (x.1, paused x.2) } : State).noticeAll 8 4 0)) ∧
    (n = 4 → exec .powerLimit s = .next (({ s with powerStep := 5 } : State).noticeAll 8 5 0)) ∧
    exec .shedReturn s = .next { s with powerStep := n - 1 })

/-- R374 to R387: the commands of the security engine. The cryptographic functions are free functions of Config (log 20). The order of the
checks, STATE for a missing binding, for another ID, for no key and for an incomplete save, and MALFORMED for an unknown code are the model's
reading (DEDUCED, log 40); so is what becomes of a counter that has reached 2^63 - 1 (log 2), and the compaction of the counter area (log 72). -/
def Obligations.SecurityCommands : Prop :=
  let le (n v : Nat) : List Byte := (List.range n).map fun j => BitVec.ofNat 8 (v / 256 ^ j)
  let zero (n : Nat) : List Byte := List.replicate n 0
  let text (x : String) : List Byte := x.toList.map fun c => BitVec.ofNat 8 c.toNat
  let blk (s : State) : List Byte := hubRead s (s.partn s.arg.part).smaddr 64
  let arg (s : State) (k n : Nat) : Nat := field (blk s) (32 + k) n
  let input (s : State) : List Byte := hubRead s (field (blk s) 8 8) (field (blk s) 4 4)
  let answers (i : Instr) (s t : State) (status : Nat) (out : List Byte) : Prop :=
    exec i s = .next (t.finish s.arg.part (Cmb.of (s.partn s.arg.part).smaddr (blk s)) status out)
  let cmd (i : Instr) (code : Nat) (used inOk : Nat → Prop) (out : Nat) (s : State) (ok : Prop) : Prop :=
    let p := s.arg.part
    let addr := (s.partn p).smaddr
    let b := blk s
    let bad : Prop := field b 2 2 ≠ 0 ∨ (∃ j < 32, ¬used j ∧ field b (32 + j) 1 ≠ 0) ∨ ¬inOk (field b 4 4) ∨ field b 16 4 < out ∨
      presentRange s p (field b 8 8) (field b 4 4) = false ∨ presentRange s p (field b 24 8) out = false
    (s.sec.queue.head? ≠ some p → exec i s = .next s) ∧
    (s.sec.queue.head? = some p →
      (s.sec.keysErased = true → answers i s s 7 []) ∧
      (presentRange s p addr 64 = false → s.sec.keysErased = false → answers i s s 6 []) ∧
      (presentRange s p addr 64 = true → s.sec.keysErased = false →
        (field b 0 1 = 0 ∨ 9 < field b 0 1 → answers i s s 6 []) ∧
        (1 ≤ field b 0 1 → field b 0 1 ≤ 9 → field b 0 1 ≠ code → exec i s = .next s) ∧
        (field b 0 1 = code → (bad → answers i s s 6 []) ∧ (¬bad → ok))))
  let none' : Nat → Prop := fun _ => False
  let key (k : BitVec 256) : List Byte := le 32 k.toNat
  let dig (d : BitVec 384) : List Byte := le 48 d.toNat
  let sealing (id : List Byte) (c : Nat) (tm : List Byte) : BitVec 256 :=
    Config.hkdf (key (Config.hkdf (key Config.uds) [] (text "FJ-SEAL0"))) tm (text "FJ-SEAL" ++ id ++ le 8 c)
  -- a record is in force in `y` and no other has changed
  let recorded (x y : Secure) (id : List Byte) (c : Nat) (op : Bool) : Prop := (x.counters.map CtrEnt.seq).Nodup →
    y.counter id = c ∧ y.open? id = op ∧ ∀ k, k ≠ id → y.counter k = x.counter k ∧ y.open? k = x.open? k
  let busy (s : State) (tenant : Nat) : Prop := let q := s.partn s.arg.part
    (∃ c, q.cur = some c ∧ c.tenant = tenant) ∨ (∃ c now, q.next = some (some c, now) ∧ c.tenant = tenant) ∨
      ∃ c, q.switch = .stopping (some c) ∧ c.tenant = tenant
  let fullFor (x : Secure) (id : List Byte) : Prop := (∀ e ∈ x.counters, e.good = true → e.id ≠ id) ∧
    4096 ≤ (((x.counters.filter fun e => e.good).map fun e => e.id).eraseDups).length
  let destOk (s : State) : Prop := let p := s.arg.part
    let d := hubRead s (arg s 8 8) 128
    arg s 0 1 < 64 ∧ arg s 8 8 % 128 = 0 ∧ presentRange s p (arg s 8 8) 128 = true ∧ field d 20 1 % 64 = arg s 0 1 ∧
      ∀ i < (s.coresOf p).length, presentRange s p (field d 8 8 / 2 ^ 20 * 2 ^ 20 + 2 ^ 20 * i) (2 ^ 20) = true
  (∀ (s : State) p b status (out : List Byte), let s' := s.finish p b status out
    ((s'.partn p).smbusy = false ∧ (s'.partn p).smdone = (s.partn p).smdone + 1 ∧ (s'.partn p).smlast = BitVec.ofNat 8 status ∧
      (s'.partn p).irqs = (s.partn p).irqs + 1 ∧ s'.sec = { s.sec with queue := s.sec.queue.drop 1 }) ∧
    (MemInv s → (s.partn p).nqbase.getLsbD 0 = false → (∀ l ∈ s.l2, l.cmp = false) → presentRange s p b.addr 64 = true →
      (b.outaddr + out.length ≤ b.addr ∨ b.addr + 64 ≤ b.outaddr) → ∀ a, homeByte s' a =
        if b.outaddr ≤ a ∧ a < b.outaddr + out.length then out.getD (a - b.outaddr) 0
        else if b.addr + 20 ≤ a ∧ a < b.addr + 24 then (le 4 out.length).getD (a - b.addr - 20) 0
        else if a = b.addr + 1 then BitVec.ofNat 8 status else homeByte s a)) ∧
  (∀ a bs, (Cmb.of a bs).addr = a ∧ (Cmb.of a bs).outaddr = field bs 24 8) ∧
  (∀ (x : Secure) id, ((∀ e ∈ x.counters, e.good = true → e.id ≠ id) → x.counter id = 0 ∧ x.open? id = false) ∧
    ∀ e ∈ x.counters, e.good = true → e.id = id → (∀ y ∈ x.counters, y.good = true → y.id = id → y = e ∨ y.seq < e.seq) →
      x.counter id = e.count.toNat ∧ x.open? id = e.open_) ∧
  (∀ e : CtrEnt, e.good = true ↔ e.whole = true ∧ e.tag = Config.hmac (key (Config.hkdf (key Config.uds) [] (text "FJ-CTR")))
    (e.id ++ le 8 (e.count.toNat + if e.open_ = true then 2 ^ 63 else 0) ++ le 8 e.seq)) ∧
  (∀ s, let p := s.arg.part
    let t := arg s 0 1
    let n := s.sec.kemNext
    let report (tm id crec : List Byte) : Prop :=
      let msg := le 4 1 ++ le 1 p ++ le 1 t ++ zero 2 ++ input s ++ s.sec.mr.flatMap dig ++ tm ++ id ++ crec ++ le 1 s.sec.fsvn ++ zero 7 ++
        le 1568 (Config.kemPublic n).toNat
      let seed := Config.hkdf (key Config.uds) (dig (s.sec.mr.getD 0 0)) (text "FJ-CDI0")
      answers .attest s { s with sec := { s.sec with kemNext := n + 1, kemKeys := tput s.sec.kemKeys p (n, input s) } } 0
        (msg ++ le 384 (Config.rsaSign seed msg).toNat ++ le 16224 (Config.slhSign seed msg).toNat)
    cmd .attest 1 (fun j => j = 0) (fun n => n = 32) 18680 s
      ((t = 255 → report (zero 48) (zero 16) (zero 8)) ∧ (64 ≤ t → t ≠ 255 → answers .attest s s 6 []) ∧
      (t < 64 → s.sec.binding? p t = none → answers .attest s s 5 []) ∧
      ∀ y, t < 64 → s.sec.binding? p t = some y →
        report (dig y.tm) y.id (le 8 (s.sec.counter y.id % 2 ^ 63 + if s.sec.open? y.id = true then 2 ^ 63 else 0)))) ∧
  (∀ s, let p := s.arg.part
    let t := arg s 0 1
    let elsewhere := ∃ y ∈ s.sec.bindings, y.id = input s ∧ ¬(y.part = p ∧ y.tenant = t)
    let others := s.sec.bindings.filter fun y => decide (¬(y.part = p ∧ y.tenant = t))
    cmd .tbind 2 (fun j => j = 0) (fun n => n = 16) 0 s
      ((64 ≤ t → answers .tbind s s 6 []) ∧ (t < 64 → elsewhere → answers .tbind s s 5 []) ∧
      (t < 64 → ¬elsewhere → answers .tbind s { s with sec := { s.sec with bindings := others ++ [{ part := p, tenant := t, id := input s, tm := 0 }] } } 0 []))) ∧
  (∀ s, let p := s.arg.part
    let t := arg s 0 1
    cmd .tmext 3 (fun j => j = 0) (fun n => n = 48) 48 s
      ((64 ≤ t → answers .tmext s s 6 []) ∧ (t < 64 → s.sec.binding? p t = none → answers .tmext s s 5 []) ∧
      ∀ y, t < 64 → s.sec.binding? p t = some y →
        let tm := Config.sha384 (dig y.tm ++ input s)
        let others := s.sec.bindings.filter fun y => decide (¬(y.part = p ∧ y.tenant = t))
        answers .tmext s { s with sec := { s.sec with bindings := others ++ [{ y with tm := tm }] } } 0 (dig tm))) ∧
  (∀ s, let v := if s.sec.fsvn < s.sec.svn then s.sec.svn else s.sec.fsvn
    cmd .svncommit 7 none' (fun n => n = 0) 1 s (answers .svncommit s { s with sec := { s.sec with fsvn := v } } 0 (le 1 v))) ∧
  (∀ s, let k := arg s 0 1
    let v := Config.sha384 (dig (s.sec.mr.getD k 0) ++ input s)
    cmd .mrext 8 (fun j => j = 0) (fun n => n = 48) 48 s
      ((k < 2 ∨ 7 < k → answers .mrext s s 6 []) ∧
      (2 ≤ k → k ≤ 7 → answers .mrext s { s with sec := { s.sec with mr := s.sec.mr.set k v } } 0 (dig v)))) ∧
  (∀ s, let off := arg s 0 8
    cmd .logread 9 (fun j => j < 8) (fun n => n = 0) 4096 s
      ((off % 4096 ≠ 0 ∨ 2 ^ 22 ≤ off → answers .logread s s 6 []) ∧
      (off % 4096 = 0 → off < 2 ^ 22 → ∃ out, answers .logread s s 0 out ∧ out.length = 4096 ∧
        ∀ y ∈ s.sec.log, (∀ z ∈ s.sec.log, z.seq % 512 = y.seq % 512 → z = y) → ∀ k < 4096, (off + k) / 8192 = y.seq % 512 →
          (y.cut = none ∨ ∃ m, y.cut = some m ∧ (off + k) % 8192 < m) → out.getD k 0 = Config.snapByte y.bytes ((off + k) % 8192)))) ∧
  (∀ s, let p := s.arg.part
    let n := (s.coresOf p).length
    let t := arg s 0 1
    let d := hubRead s (arg s 8 8) 128
    cmd .sealTenant 4 (fun j => j = 0 ∨ (8 ≤ j ∧ j < 16)) (fun n => n = 0) (96 + n * (2 ^ 20 + 16)) s
      ((¬destOk s → answers .sealTenant s s 6 []) ∧
      (destOk s → s.sec.binding? p t = none → answers .sealTenant s s 5 []) ∧
      ∀ y, destOk s → s.sec.binding? p t = some y →
        let image (i : Nat) : List Byte := hubRead s (field d 8 8 / 2 ^ 20 * 2 ^ 20 + 2 ^ 20 * i) (2 ^ 20)
        let imageOk (i : Nat) : Prop :=
          let b := image i
          field b 0 4 = 1 ∧ field b 4 1 = t ∧ field b 5 1 = p ∧ field b 8 8 + 1 = field d 24 8 ∧ (if field b 16 4 = 0 then 0 else crc64 (b.drop 64)) = field b 32 8
        let saved : Prop := field d 24 8 ≠ 0 ∧ ∀ i < n, imageOk i
        (busy s t ∨ ¬saved → answers .sealTenant s s 5 []) ∧
        (¬busy s t → saved → fullFor s.sec y.id → answers .sealTenant s s 8 []) ∧
        (¬busy s t → saved → ¬fullFor s.sec y.id → ∃ c x', c < 2 ^ 63 ∧ (s.sec.counter y.id + 1 < 2 ^ 63 → c = s.sec.counter y.id + 1) ∧
          let hdr := le 4 1 ++ y.id ++ zero 4 ++ le 8 c ++ dig y.tm ++ le 2 n ++ zero 6 ++ le 8 (field d 24 8 - 1)
          let k := sealing y.id c (dig y.tm)
          let nonce (i : Nat) : List Byte := le 4 i ++ zero 8
          recorded s.sec x' y.id c true ∧ answers .sealTenant s { s with freeCtr := s.freeCtr + 1, sec := { s.sec with counters := x'.counters, ctrSec := x'.ctrSec } } 0
            (hdr ++ (List.range n).flatMap fun i =>
              (List.range (2 ^ 20)).map (Config.gcmByte k (nonce i) hdr (image i)) ++ le 16 (Config.gcmTag k (nonce i) hdr (image i)).toNat)))) ∧
  (∀ s, let x := input s
    let part (a n : Nat) : List Byte := (x.drop a).take n
    let hdr := part 0 96
    let rep (a n : Nat) : List Byte := part (512 + a) n
    let id := (hdr.drop 4).take 16
    let c := field hdr 24 8
    let formed := field hdr 0 4 = 1 ∧ field hdr 20 4 = 0 ∧ field hdr 82 6 = 0 ∧ c < 2 ^ 63
    let signed := ∃ k1 k2, Config.chainKeys (x.drop 19192) = some (k1, k2) ∧ Config.rsaVerify k1 (rep 0 2072) (rep 2072 384) = true ∧
      Config.slhVerify k2 (rep 0 2072) (rep 2456 16224) = true
    let policy := ∀ k < 8, part (128 + 48 * k) 48 = zero 48 ∨ part (128 + 48 * k) 48 = rep (40 + 48 * k) 48
    let matching := rep 8 32 = part 96 32 ∧ rep 472 16 = id ∧ field (rep 0 4) 0 4 = field hdr 0 4 ∧ policy
    let fresh := s.sec.counter id = c ∧ s.sec.open? id = true ∧ field (rep 488 8) 0 8 % 2 ^ 63 < c
    cmd .releaseKey 5 none' (fun n => 19192 ≤ n) 1616 s
      ((¬formed → answers .releaseKey s s 6 []) ∧ (formed → ¬signed → answers .releaseKey s s 2 []) ∧
      (formed → signed → ¬matching → answers .releaseKey s s 3 []) ∧ (formed → signed → matching → ¬fresh → answers .releaseKey s s 1 []) ∧
      (formed → signed → matching → fresh →
        let e := Config.kemEncaps (rep 504 1568) s.freeCtr
        let kw := Config.hkdf (key e.2) (part 96 32) (text "FJ-WRAP")
        let k := key (sealing id c ((hdr.drop 32).take 48))
        ∃ x', recorded s.sec x' id c false ∧
          answers .releaseKey s { s with freeCtr := s.freeCtr + 1, sec := { s.sec with counters := x'.counters, ctrSec := x'.ctrSec } } 0
          (le 1568 e.1.toNat ++ (List.range 32).map (Config.gcmByte kw (zero 12) hdr k) ++ le 16 (Config.gcmTag kw (zero 12) hdr k).toNat)))) ∧
  (∀ s, let p := s.arg.part
    let n := (s.coresOf p).length
    let t := arg s 0 1
    let blob := arg s 16 8
    let d := hubRead s (arg s 8 8) 128
    let save := field d 8 8 / 2 ^ 20 * 2 ^ 20
    let pack := input s
    let hdr := pack.take 96
    let id := (hdr.drop 4).take 16
    let c := field hdr 24 8
    let tm := (hdr.drop 32).take 48
    let formed := destOk s ∧ field hdr 0 4 = 1 ∧ field hdr 20 4 = 0 ∧ field hdr 82 6 = 0 ∧ c < 2 ^ 63 ∧ field hdr 80 2 = n ∧ (blob = 0 ∨ presentRange s p blob 1616 = true)
    let image (k : BitVec 256) (i : Nat) : Option (List Byte) :=
      let w := (pack.drop (96 + (2 ^ 20 + 16) * i)).take (2 ^ 20 + 16)
      Config.gcmOpen k (le 4 i ++ zero 8) hdr (w.take (2 ^ 20)) (BitVec.ofNat 128 (leValue (w.drop (2 ^ 20))))
    let unwrapped (kn : Nat) (nonce : List Byte) : Option (List Byte) :=
      let bs := hubRead s blob 1616
      Config.gcmOpen (Config.hkdf (key (Config.kemDecaps kn (bs.take 1568))) nonce (text "FJ-WRAP")) (zero 12) hdr ((bs.drop 1568).take 32)
        (BitVec.ofNat 128 (leValue ((bs.drop 1600).take 16)))
    let restores (k : BitVec 256) : Prop :=
      ((∃ i < n, image k i = none) → answers .unsealTenant s s 4 []) ∧
      (∀ img : Nat → List Byte, (∀ i < n, image k i = some (img i) ∧ (img i).length = 2 ^ 20) → ∃ u x', answers .unsealTenant s u 0 [] ∧ recorded s.sec x' id c false ∧
        u.sec = { s.sec with
          counters := x'.counters, ctrSec := x'.ctrSec,
          bindings := s.sec.bindings.filter (fun y => decide (¬(y.part = p ∧ y.tenant = t))) ++ [{ part := p, tenant := t, id := id, tm := BitVec.ofNat 384 (leValue tm) }],
          kemKeys := if blob = 0 then s.sec.kemKeys else tdel s.sec.kemKeys p } ∧
        (MemInv s → (∀ l ∈ s.l2, l.cmp = false) → (arg s 8 8 + 32 ≤ save ∨ save + 2 ^ 20 * n ≤ arg s 8 8 + 24) →
          (∀ i < n, ∀ k < 2 ^ 20, homeByte u (save + 2 ^ 20 * i + k) =
            if k = 4 then BitVec.ofNat 8 t else if k = 5 then BitVec.ofNat 8 p else (img i).getD k 0) ∧
          field (hubRead u (arg s 8 8 + 24) 8) 0 8 = (field hdr 88 8 + 1) % 2 ^ 64))
    cmd .unsealTenant 6 (fun j => j = 0 ∨ (8 ≤ j ∧ j < 24)) (fun k => k = 96 + n * (2 ^ 20 + 16)) 0 s
      ((¬formed → answers .unsealTenant s s 6 []) ∧
      (formed → s.sec.binding? p t = none → answers .unsealTenant s s 5 []) ∧
      ∀ y, formed → s.sec.binding? p t = some y →
        (busy s t ∨ y.id ≠ id → answers .unsealTenant s s 5 []) ∧
        (¬busy s t → y.id = id → fullFor s.sec id → answers .unsealTenant s s 8 []) ∧
        (¬busy s t → y.id = id → ¬fullFor s.sec id →
          (blob = 0 → ¬(s.sec.counter id = c ∧ s.sec.open? id = true) → answers .unsealTenant s s 1 []) ∧
          (blob = 0 → s.sec.counter id = c → s.sec.open? id = true → restores (sealing id c tm)) ∧
          (blob ≠ 0 → tget s.sec.kemKeys p = none → answers .unsealTenant s s 5 []) ∧
          (∀ kn nonce, blob ≠ 0 → tget s.sec.kemKeys p = some (kn, nonce) →
            (unwrapped kn nonce = none → answers .unsealTenant s s 4 []) ∧
            ∀ k, unwrapped kn nonce = some k →
              (c ≤ s.sec.counter id → answers .unsealTenant s s 1 []) ∧
              (s.sec.counter id < c → restores (BitVec.ofNat 256 (leValue k)))))))

/-- R373 to R376, R382, R388 to R391, R394: resets, recovery, alarms and lifetime records. What a reset keeps beyond what the rules name (log 15,
29, 39), the power cycles that count (log 17), the return codes of the mailbox (log 20), the bytes of a snapshot and the powered minutes that time it
(log 41) and a map that is not permitted (log 14) are the model's. -/
def Obligations.Lifecycle : Prop :=
  let sat (max n : Nat) : Nat := if max < n + 1 then max else n + 1
  let raised (max : Nat) (l : List Nat) (k : Nat) : List Nat := l.set k (sat max (l.getD k 0))
  let le (n v : Nat) : List Byte := (List.range n).map fun j => BitVec.ofNat 8 (v / 256 ^ j)
  let snap (x y : Secure) (cut : Option Nat) : Prop := ∃ n, (∀ z ∈ x.log, z.seq < n) ∧ (n = 0 ∨ ∃ z ∈ x.log, z.seq + 1 = n) ∧
    y = { x with log := (if n % 8 = 0 then x.log.filter fun z => decide (z.seq % 512 / 8 ≠ n % 512 / 8) else x.log) ++
      [{ seq := n, counters := x.life, crc := crc64 (le 8 n ++ x.life.bytes), cut := cut }] }
  let out (s : State) (bs : List Byte) : State := { s with hostOut := bs }
  let maps (img : Option (List Byte)) (parts : List (Nat × Partition)) (guests : List Nat) : Prop :=
    let m : PartMap := match img with | none => { shares := [{ dies := [0, 1, 2, 3, 4, 5, 6, 7] }] } | some b => Config.mapOf b
    (∀ b, img = some b → mapLegal m = false → parts = [] ∧ guests = []) ∧
    ((∀ b, img = some b → mapLegal m = true) → guests = m.guestWays ∧ parts.length = m.shares.length ∧
      ∀ p y, m.shares[p]? = some y → tget parts p = some
        { dies := y.dies, expBase := y.expBase, expGiB := y.expGiB, hostBase := y.hostBase, hostGiB := y.hostGiB, nspace := y.nspace })
  (∀ y : Snapshot, y.good = true ↔ y.cut = none ∧ y.crc = crc64 (le 8 y.seq ++ y.counters.bytes)) ∧
  (∀ s : State, let x := s.sec
    let svn := match x.image with | none => Config.bootSvn | some b => field b 8 4
    let mr := match x.image with
      | none => Config.bootMr0 :: Config.bootMr1 :: List.replicate 6 0
      | some b => extend 0 (digestBytes (Config.sha384 (b.take 64))) :: extend 0 (digestBytes (Config.mapDigest b)) :: List.replicate 6 0
    ∃ s', exec .packageReset s = .next s' ∧ s' = { State.reset with
        agenda := s.agenda, arg := s.arg, freeCtr := s.freeCtr, mem := s.mem, poison := s.poison, parked := s.parked, saveSerial := s.saveSerial,
        hw := s.hw, mgmt := s.mgmt, hostOut := s.hostOut, parts := s'.parts, guestWays := s'.guestWays, sec := s'.sec } ∧
      (s'.sec.recovery = false → maps x.image s'.parts s'.guestWays ∧ s'.sec.certs = aliasCerts (s'.sec.mr.getD 0 0)) ∧
      (s'.sec.recovery = true → s'.parts = [] ∧ s'.guestWays = [] ∧ s'.sec.certs = []) ∧ s'.sec.writing = false ∧
      s'.sec.counters = x.counters ∧ s'.sec.fsvn = x.fsvn ∧ s'.sec.svn = svn ∧ s'.sec.bindings = [] ∧ s'.sec.kemKeys = [] ∧ s'.sec.queue = [] ∧
      s'.sec.raised = 0 ∧ s'.sec.haltedBy = 0 ∧ s'.sec.erased = false ∧ s'.sec.keysErased = false ∧ s'.sec.powered = true ∧
      (∀ life, ((∀ y ∈ x.log, y.good = false) ∧ life = {} ∨
          ∃ y ∈ x.log, y.good = true ∧ life = y.counters ∧ ∀ z ∈ x.log, z.good = true → z = y ∨ z.seq < y.seq) →
        let torn := (x.counters.filter fun e => !e.good).length
        let run : Lifetime := { life with
          powerCycles := if x.powered = true then life.powerCycles else sat 0xFFFF_FFFF life.powerCycles,
          badTags := if 65535 < life.badTags + torn then 65535 else life.badTags + torn }
        (x.imageGood = true → x.fsvn ≤ svn → s'.sec.recovery = false ∧ s'.sec.mr = mr ∧ s'.sec.life = run ∧ s'.sec.log = x.log) ∧
        (x.imageGood = false ∨ svn < x.fsvn → s'.sec.recovery = true ∧ s'.sec.mr = List.replicate 8 0 ∧
          s'.sec.life = { run with imageFailures := sat 65535 run.imageFailures } ∧ ∃ y : Secure, y.log = x.log ∧ y.life = s'.sec.life ∧ snap y s'.sec none))) ∧
  (∀ s : State, let p := s.arg.part
    let q := s.partn p
    (s.regsAnswer p = false → exec .partitionReset s = .next s) ∧
    (s.regsAnswer p = true → ∃ s', exec .partitionReset s = .next s' ∧
      (∀ x ∈ s'.threads, x.1.core ∉ s.coresOf p) ∧ (∀ x ∈ s'.warps, x.1.1 ∉ s.coresOf p) ∧ (∀ x ∈ s'.blocks, x.2.part ≠ p) ∧
      (∀ x ∈ s'.slots, x.2.part ≠ p) ∧ (∀ x ∈ s'.pending, x.part ≠ p) ∧ (∀ x ∈ s'.launches, x.2.part ≠ p) ∧ (∀ x ∈ s'.shadow, x.part ≠ p) ∧
      (let r := s'.partn p;
        r.dies = q.dies ∧ r.cur = none ∧ r.next = none ∧ r.switch = .idle ∧ r.s2root = 0 ∧ r.busy = none ∧ r.nqbase = 0 ∧ r.nqprod = 0 ∧ r.nqcons = 0 ∧
        r.epochs = 0 ∧ r.errs = []) ∧
      (s.threads = [] → s.rdc = [] → (∀ c, (s.core c).l1 = []) → s'.mem = s.mem ∧ s'.l2 = s.l2 ∧ s'.sec = s.sec ∧
        ∀ r, r ≠ p → tget s'.parts r = tget s.parts r))) ∧
  (∀ s : State, ∀ i ∈ [Instr.getFwInfo, .transferFwInitiate, .transferFwContinue, .transferFwEnd, .transferFwAbort],
    (s.sec.powered = false ∨ s.sec.writing = true → exec i s = .next s) ∧ (s.sec.powered = true → s.sec.writing = false → s.sec.recovery = false → exec i s = .next (out s [3, 0]))) ∧
  (∀ s : State, let x := s.sec
    let got := x.received ++ s.arg.bytes
    let put (y : Secure) : State := { s with sec := y }
    let at_ (off n : Nat) : List Byte := (got.drop off).take n
    let len := field got 12 4
    let passes := field got 0 4 = 0x4A43_4657 ∧ field got 4 4 = 1 ∧ 1 ≤ len ∧ len ≤ 33536000 ∧ 17408 + len ≤ got.length ∧
      at_ 17104 304 = List.replicate 304 0 ∧ Config.sha384 (at_ 16672 384) = Config.kh1 ∧ Config.sha384 (at_ 17056 48) = Config.kh2 ∧
      digestBytes (Config.sha384 (at_ 17408 len)) = at_ 16 48 ∧ Config.rsaVerify (at_ 16672 384) (at_ 0 64) (at_ 64 384) = true ∧
      Config.slhVerify (at_ 17056 48) (at_ 0 64) (at_ 448 16224) = true ∧ x.fsvn ≤ field got 8 4
    x.powered = true → x.recovery = true → x.writing = false →
    (∃ bs, bs.length = 80 ∧ exec .getFwInfo s = .next { out s ([0, 0] ++ bs) with freeCtr := s.freeCtr + 1 }) ∧
    (s.arg.slot ≠ 1 → ∀ i ∈ [Instr.transferFwInitiate, .transferFwContinue, .transferFwEnd, .transferFwAbort], exec i s = .next (out s [3, 0])) ∧
    (s.arg.slot = 1 → exec .transferFwInitiate s = .next (out (put { x with transfer := true, received := s.arg.bytes }) [0, 0]) ∧
    (x.transfer = true → exec .transferFwContinue s = .next (out (put { x with received := got }) [0, 0])) ∧
    (x.transfer = false → exec .transferFwContinue s = .next (out s [3, 0]) ∧ exec .transferFwEnd s = .next (out s [3, 0])) ∧
    exec .transferFwAbort s = .next (out (put { x with transfer := false, received := [] }) [0, 0]) ∧
    (x.transfer = true → passes → s.arg.flag = true →
      exec .transferFwEnd s = .next (put { x with received := got, imageGood := false, image := some got, writing := true })) ∧
    (x.transfer = true → passes → s.arg.flag = false → ∃ y ps gw, exec .transferFwEnd s = .next { out (put y) [0, 0] with parts := ps, guestWays := gw } ∧
      maps (some got) ps gw ∧ snap { x with
        imageGood := true, image := some got, svn := field got 8 4, recovery := false, transfer := false, received := [],
        certs := aliasCerts (extend 0 (digestBytes (Config.sha384 (got.take 64)))), mr := extend 0 (digestBytes (Config.sha384 (got.take 64))) :: extend 0 (digestBytes (Config.mapDigest got)) :: List.replicate 6 0,
        life := { x.life with recoveries := sat 65535 x.life.recoveries } } y none) ∧
    (x.transfer = true → ¬passes → ∃ y, exec .transferFwEnd s = .next (out (put y) [0x16, 0]) ∧ snap { x with
        transfer := false, received := [], life := { x.life with imageFailures := sat 65535 x.life.imageFailures } } y none))) ∧
  -- an alarm, or two in one cycle
  (∀ s : State, let policy (k : Nat) : Nat := Config.almpol.toNat / 4 ^ k % 4
    let k := s.arg.k
    let j := s.arg.off - 1
    let two : Prop := 1 ≤ s.arg.off ∧ s.arg.off ≤ 4 ∧ j ≠ k
    let counted (x : Secure) (k : Nat) : Secure :=
      { x with raised := x.raised ||| BitVec.ofNat 4 (2 ^ k), life := { x.life with alarms := raised 65535 x.life.alarms k } }
    let acts (x : Secure) (k pol : Nat) : Prop :=
      (pol = 0 → exec .alarm s = .next { s with sec := x }) ∧
      (pol = 1 → ∃ s', exec .alarm s = .next s' ∧ s'.sec = { x with haltedBy := x.haltedBy ||| BitVec.ofNat 4 (2 ^ k) } ∧ s'.parked = s.parked ∧
        (∀ p q, tget s.parts p = some q → (s'.partn p).halted = true ∧ (s'.partn p).irqs = q.irqs + 1) ∧
        (∀ t th, s'.thread? t = some th → t.core ∈ s.cores.map Prod.fst → th.leaven = false → th.st ≠ .running ∧ th.st ≠ .listed) ∧
        (∀ c ∈ s.cores.map Prod.fst, ∀ r ∈ (s'.core c).copies, r.reduce = true ∨ r.counted ≠ 0 ∨ r.sifter = true)) ∧
      (pol = 2 → ∃ s', exec .alarm s = .next s' ∧ s'.sec = { x with kemKeys := [], bindings := [], keysErased := true, udsLocked := true, erased := true } ∧
        s'.cores = [] ∧ s'.warps = [] ∧ s'.threads = [] ∧ s'.blocks = [] ∧ s'.rdc = [] ∧ s'.l2 = [] ∧ s'.floors = [] ∧ s'.ctlb = [] ∧ s'.cwalk = [] ∧ s'.slots = [] ∧
        s'.pending = [] ∧ s'.launches = [] ∧ s'.shadow = [] ∧ (∀ p q, tget s.parts p = some q → (s'.partn p).halted = true ∧ (s'.partn p).fatal = true) ∧
        ((∀ y ∈ s.parts, y.2.nqbase.getLsbD 0 = false) → s'.mem = s.mem))
    let class_ (k : Nat) : Nat := if 2 < policy k then 2 else policy k
    (4 ≤ k ∨ s.sec.powered = false → exec .alarm s = .next s) ∧
    (k < 4 → s.sec.powered = true → s.sec.alarmAt = some s.clock → exec .alarm s = exec .alarm (s.advance 1)) ∧
    (k < 4 → s.sec.powered = true → s.sec.alarmAt ≠ some s.clock → (s.parts.map Prod.fst).Nodup →
      (s.arg.flag = false → ¬two → ∃ x : Secure, snap (counted { s.sec with alarmAt := some s.clock } k) x none ∧ acts x k (class_ k)) ∧
      (s.arg.flag = false → two → ∃ x y : Secure, snap (counted { s.sec with alarmAt := some s.clock } k) x none ∧ snap (counted x j) y none ∧
        acts y (if class_ k < class_ j then j else k) (if class_ k < class_ j then class_ j else class_ k)) ∧
      -- a command in progress ends; the record that it had appended stays
      (s.arg.flag = true → s.sec.queue = [] → ∃ t, exec .alarm { s with arg := { s.arg with flag := false } } = .next t ∧ exec .alarm s = .next { t with arg := s.arg }) ∧
      (∀ p r (x : Secure), s.arg.flag = true → s.sec.queue = p :: r →
        (s.arg.n ≠ 1 → x = s.sec) →
        (s.arg.n = 1 → ∃ i c t, (i, c) ∈ [(Instr.sealTenant, 4), (.releaseKey, 5), (.unsealTenant, 6)] ∧ field (hubRead s (s.partn p).smaddr 1) 0 1 = c ∧
          exec i { s with arg := { part := p } } = .next t ∧ (∃ e ∈ t.sec.counters, ∀ z ∈ s.sec.counters, z.seq < e.seq) ∧
          x = { s.sec with counters := t.sec.counters, ctrSec := t.sec.ctrSec }) →
        let addr := (s.partn p).smaddr
        ∃ t, exec .alarm { ({ s with sec := x } : State).finish p (Cmb.of addr (hubRead s addr 64)) 7 [] with arg := { s.arg with flag := false } } = .next t ∧
          exec .alarm s = .next { t with arg := s.arg }))) ∧
  (∀ s : State, let x := s.sec
    let l := x.life
    let t := s.arg.temp
    let bin := if t < 0 then 0 else if 130 ≤ t then 14 else t.toNat / 10 + 1
    (x.powered = false → exec .poweredMinute s = .next s ∧ exec .droopEvent s = .next s ∧ exec .logSnapshot s = .next s ∧ exec .mctpMessage s = .next s) ∧
    (x.powered = true →
      exec .poweredMinute s = .next { s with sec := { x with life := { l with minutes := sat 0xFFFF_FFFF l.minutes, tempBins := raised 0xFFFF_FFFF l.tempBins bin } } } ∧
      exec .droopEvent s = .next { s with sec := { x with life := { l with droops := raised 0xFFFF_FFFF l.droops s.arg.k } } } ∧
      (l.minutes < x.snapAt + 10 → exec .logSnapshot s = .next s) ∧
      (x.snapAt + 10 ≤ l.minutes → ∃ y, exec .logSnapshot s = .next { s with sec := y } ∧ snap { x with snapAt := l.minutes } y none) ∧
      (s.arg.req = .almpol → exec .mctpMessage s = .next (out s [BitVec.ofNat 8 Config.almpol.toNat, 0, 0, 0])) ∧
      (s.arg.req = .almstat → exec .mctpMessage s = .next (out s [x.haltedBy ++ x.raised, if x.erased = true then 1 else 0, 0, 0])) ∧
      (∀ off, s.arg.req = .log off → off < 2 ^ 22 → ∃ bs, exec .mctpMessage s = .next (out s bs) ∧ bs.length = (if off + 4096 ≤ 2 ^ 22 then 4096 else 2 ^ 22 - off) ∧
        ∀ y ∈ x.log, (∀ z ∈ x.log, z.seq % 512 = y.seq % 512 → z = y) → ∀ k < bs.length, (off + k) / 8192 = y.seq % 512 →
          (y.cut = none ∨ ∃ m, y.cut = some m ∧ (off + k) % 8192 < m) → bs.getD k 0 = Config.snapByte y.bytes ((off + k) % 8192)))) ∧
  (∀ s : State, let x := s.sec
    ∃ s' y, exec .powerLoss s = .next s' ∧ s' = { State.reset with
        agenda := s.agenda, arg := s.arg, freeCtr := s.freeCtr, mem := s.mem.filter (fun c => decide (0x80_0000_0000 ≤ c.1)), parked := s.parked,
        saveSerial := s.saveSerial, hw := s.hw, mgmt := s.mgmt, hostOut := s.hostOut, parts := [],
        sec := { y with powered := false, recovery := true, writing := false, certs := [], bindings := [], kemKeys := [], queue := [], transfer := false, received := [], mr := List.replicate 8 0 } } ∧
      (s.arg.k = 0 ∨ 4 < s.arg.k → y = x) ∧ (s.arg.k = 3 → snap x y (some (if s.arg.n < 8191 then s.arg.n else 8191))) ∧
      (s.arg.k = 4 → x.recovery = true → x.transfer = true → imagePasses x.received x.fsvn = true → y = { x with imageGood := false }) ∧
      (s.arg.k ∈ [1, 2] → x.queue = [] → y = x) ∧
      (∀ p r i c t, s.arg.k ∈ [1, 2] → x.queue = p :: r → (i, c) ∈ [(Instr.sealTenant, 4), (.releaseKey, 5), (.unsealTenant, 6)] →
        field (hubRead s (s.partn p).smaddr 1) 0 1 = c → exec i { s with arg := { part := p } } = .next t →
        (t.sec.counters = x.counters → y = x) ∧
        (∀ l e, t.sec.counters = l ++ [e] → (∀ z ∈ x.counters, z.seq < e.seq) →
          y = { x with counters := l ++ [if s.arg.k = 1 then { e with whole := false } else e], ctrSec := t.sec.ctrSec })))

/-- R363 to R366: the host, RoCEv2 and NVMe. What lies outside the partition's memory has no effect (log 18), and BAR 4 holds the 16 bytes of
one MSI-X entry, outside which a read gives nothing and a write has no effect (log 76): the model's choices. -/
def Obligations.HostLinks : Prop :=
  let written (s s' : State) (pa : Nat) (bs : List Byte) : Prop :=
    s' = { s with threads := s'.threads, cores := s'.cores, l2 := s'.l2, mem := s'.mem, poison := s'.poison } ∧
    (MemInv s → (∀ l ∈ s.l2, l.cmp = false) → ∀ a, homeByte s' a = if pa ≤ a ∧ a < pa + bs.length then bs.getD (a - pa) 0 else homeByte s a)
  (∀ s, s.regsAnswer s.arg.part = false → ∀ i ∈ [Instr.hostBar2Read, .hostBar2Write, .roceRead, .roceWrite, .nvmeCommand], exec i s = .next s) ∧
  -- BAR 0: the register block in words of 8 bytes, and the mailbox page, which the spec does not describe; BAR 4: the MSI-X table
  (∀ (s : State) p off n,
    let eight (v : Nat) : List Byte := (List.range 8).map fun j => BitVec.ofNat 8 (v / 256 ^ j)
    (s.sec.powered = false → s.perform1 (.bar0Read p off n) = .next s) ∧
    (s.sec.powered = true → n ≠ 8 → s.perform1 (.bar0Read p off n) = .next { s with hostOut := List.replicate n 0 }) ∧
    (s.sec.powered = true → 0x8000 ≤ off → off < 0x9000 → off % 8 = 0 →
      ∃ bs, bs.length = 8 ∧ s.perform1 (.bar0Read p off 8) = .next { s with hostOut := bs, freeCtr := s.freeCtr + 1 }) ∧
    (s.sec.powered = true → ¬(0x8000 ≤ off ∧ off < 0x9000) →
      s.perform1 (.bar0Read p off 8) = .next { s with hostOut := eight (regRead s p off) } ∧
      (off % 8 ≠ 0 ∨ 0x8000 ≤ off → regRead s p off = 0)) ∧
    (s.regsAnswer p = false → ∀ bs, s.perform1 (.bar4Read p off n) = .next s ∧ s.perform1 (.bar4Write p off bs) = .next s) ∧
    (s.regsAnswer p = true → s.perform1 (.bar4Read p off n) = .next { s with hostOut := ((s.partn p).msix.drop off).take n }) ∧
    (∀ bs, s.regsAnswer p = true → (s.partn p).msix.length = 16 → off + bs.length ≤ 16 →
      ∃ t : List Byte, s.perform1 (.bar4Write p off bs) = .next (s.setPart p { s.partn p with msix := t }) ∧ t.length = 16 ∧
        ∀ k < 16, t.getD k 0 = if off ≤ k ∧ k < off + bs.length then bs.getD (k - off) 0 else (s.partn p).msix.getD k 0) ∧
    (∀ bs, 16 < off + bs.length → s.perform1 (.bar4Write p off bs) = .next s)) ∧
  (∀ s, let a := s.arg
    let off := a.off
    s.regsAnswer a.part = true →
    ((s.partn a.part).dies[off / 2 ^ 36]? = none → exec .hostBar2Read s = .next s ∧ exec .hostBar2Write s = .next s) ∧
    (∀ d, (s.partn a.part).dies[off / 2 ^ 36]? = some d →
      let pa := d * 2 ^ 36 + off % 2 ^ 36
      (presentRange s a.part pa a.n = false → exec .hostBar2Read s = .next s) ∧
      (presentRange s a.part pa a.n = true →
        ∃ bs, exec .hostBar2Read s = .next { s with hostOut := bs } ∧ bs.length = a.n ∧ ∀ k < a.n, bs.getD k 0 = homeByte s (pa + k)) ∧
      (presentRange s a.part pa a.bytes.length = false → exec .hostBar2Write s = .next s) ∧
      (presentRange s a.part pa a.bytes.length = true → ∃ s', exec .hostBar2Write s = .next s' ∧ written s s' pa a.bytes))) ∧
  (∀ s, let a := s.arg
    let n := a.bytes.length
    let open_ := (∃ r ∈ (s.partn a.part).registered, r.1 ≤ a.off ∧ a.off + n ≤ r.1 + r.2) ∧ presentRange s a.part a.off n = true
    s.regsAnswer a.part = true →
    (presentRange s a.part a.off a.n = false → exec .roceRead s = .next s) ∧
    (presentRange s a.part a.off a.n = true →
      ∃ bs, exec .roceRead s = .next { s with hostOut := bs } ∧ bs.length = a.n ∧ ∀ k < a.n, bs.getD k 0 = homeByte s (a.off + k)) ∧
    (¬open_ → exec .roceWrite s = .next s) ∧ (open_ → ∃ s', exec .roceWrite s = .next s' ∧ written s s' a.off a.bytes) ∧
    (a.n ≠ (s.partn a.part).nspace → exec .nvmeCommand s = .next s) ∧
    (a.n = (s.partn a.part).nspace →
      exec .nvmeCommand s = .next (s.setPart a.part { s.partn a.part with nvme := (s.partn a.part).nvme ++ [a.bytes] })))

/-- R132: RASTS. With a dead ray block only DEAD is set (log 22); a malformed leaf sets DEGT (log 67); the leaf is read at the issue, and all 256
bytes of the record are read (log 68): the model's choices. -/
def Obligations.RasterSetup : Prop :=
  ∀ b a n d e s t, Alone (.rasts b a n d e) s t → Quiet s t →
    let i : Instr := .rasts b a n d e
    let th := s.thread t
    let le (n v : Nat) : List Byte := (List.range n).map fun j => BitVec.ofNat 8 (v / 256 ^ j)
    let two (n : Nat) (x : Int) : List Byte := le n (x % 256 ^ n).toNat
    (∀ inf, s.recordOf t (th.word b.toNat) 2 = .error inf → MayTrap s t → Faults i s t inf) ∧
    ∀ ps, s.recordOf t (th.word b.toNat) 2 = .ok ps →
      let bytes := (s.readParts (s.ownOf t) t.core ps).2.1
      let chk := s.globalOf t (BitVec.ofNat 64 (field bytes 0 8)) 128 { acc := 0, r := true, w := false, align := 128, noDev := true, cmpOk := false }
      (∀ inf, chk = .error inf → MayTrap s t → Faults i s t inf) ∧
      ∀ s1 l br off, chk = .ok (s1, l) → ps = (List.range 16).map (fun k => ⟨.scr br (off + 16 * k), 16⟩) → (s.block? br).isSome = true → MemInv s →
        let q := s1.readParts (s.ownOf t) t.core ((List.range 8).map fun k => ⟨l.shift (16 * k), 16⟩)
        let leaf := q.2.1
        let y := rayOf (th.group a.toNat 16)
        let tri := field bytes 8 4 % 16
        let v (k : Nat) : List Int := (triVerts leaf tri).getD k []
        let nn := vcross (vsub (v 1) (v 0)) (vsub (v 2) (v 0))
        let idx := leafTris leaf ≤ tri ∨ leafSkip leaf = true
        let degt := leafBad leaf = true ∨ (tri < leafTris leaf ∧
          (triNamed leaf tri = false ∨ v 0 = v 1 ∨ v 1 = v 2 ∨ v 2 = v 0 ∨ nn = [0, 0, 0]))
        let status : Nat → Prop := fun x => (y.dead = true → x = 2) ∧ (y.dead = false →
          (degt → idx → x = 5) ∧ (degt → ¬idx → x = 1) ∧ (¬degt → idx → x = 4) ∧ (¬degt → ¬idx → x = 0))
        let dX := [sfield bytes 16 4, sfield bytes 20 4, sfield bytes 24 4]
        let dY := [sfield bytes 28 4, sfield bytes 32 4, sfield bytes 36 4]
        let kk (p r : Nat) : List Int := vsub (vscale (2 ^ 20) (vcross (v p) (v r))) (vcross y.o (vsub (v r) (v p)))
        (scrPoison s br off 256 = false) → q.2.2 = false → (∀ k < 16, scrPoison s br (off + 16 * k) 16 = false) →
        ∃ x, status x ∧
          let dots (m : Nat) (k : List Int) : List Byte :=
            if x = 0 then two m (vdot y.d k) ++ two m (vdot dX k) ++ two m (vdot dY k) else List.replicate (3 * m) 0
          let late := le 4 ((field leaf 4 4 + tri) % 2 ^ 32) ++ le 4 y.fw ++ le 8 y.den ++ dots 8 nn ++ dots 16 (kk 0 1) ++ dots 16 (kk 1 2) ++
            dots 16 (kk 2 0) ++ le 16 y.num ++ (if x = 0 then two 16 (vdot nn (vsub (vscale (2 ^ 20) (v 0)) y.o)) else List.replicate 16 0)
          let out : List Out := if n then [] else [{ base := d.toNat, n := 1, named := false, past := false, exempt := false, src := .val [BitVec.ofNat 32 x] }]
          Makes i s t (fun th' => Delivered i { q.1.thread t with outs := (q.1.thread t).outs ++ out } th' {}) (fun s' =>
            (∀ c k, cellGet (s'.block c).cells k =
              if c = br ∧ off + 12 ≤ k ∧ k < off + 16 then (le 4 x).getD (k - off - 12) 0
              else if c = br ∧ off + 40 ≤ k ∧ k < off + 256 then late.getD (k - off - 40) 0
              else cellGet (s.block c).cells k) ∧
            tget (s'.block br).rast off = some ⟨y.d, dX, dY, [lexLt (v 0) (v 1), lexLt (v 1) (v 2), lexLt (v 2) (v 0)]⟩ ∧
            Calm { q.1 with blocks := s'.blocks } s') q.1.thread?

/-- R28, R35, R113, R334: what a step runs. The agenda and the order of moves are the model's own (log 1). -/
def Obligations.StepRunsDecoded : Prop :=
  let behind (a : Answer) : Answer := match a with | .next t => .next t.after | x => x
  (∀ (s : State) dt c p fuse defer rest t g, s.hubq = [] → s.agenda = ⟨dt, .issue c p fuse defer⟩ :: rest →
    let w : State := ({ s with agenda := rest } : State).advance dt
    let last (w : State) (p : Nat) : Option Nat := if p = 0 then (w.core c).last0 else (w.core c).last1
    -- a port issues once in a cycle, and port 0 before port 1
    let w1 : State := if last w p = some w.clock ∨ (p = 0 ∧ last w 1 = some w.clock) then w.advance 1 else w
    let k := if p = 0 then { w1.core c with last0 := some w1.clock } else { w1.core c with last1 := some w1.clock }
    let s0 : State := { w1.setCore c k with curCore := c, curPort := p, defer := defer }
    s0.group = t :: g → (s0.partn (s0.partOf c)).halted = false →
    let o := s0.ownOf t
    let pc := (s0.thread t).pc
    (∀ inf, s0.fetch c o pc = .error inf → step s = behind (.next (s0.group.foldl (fun s t => s.takeTrap t inf false) s0))) ∧
    -- code read from a poisoned word halts the group
    (∀ s1 bs, s0.fetch c o pc = .ok (s1, bs) → s1.codeBad c o pc bs.length = true → step s = behind (.next (s1.group.foldl (fun s t => s.halt t haltPAR) s1))) ∧
    (∀ s1 bs, s0.fetch c o pc = .ok (s1, bs) → s1.codeBad c o pc bs.length = false →
      (∀ i r, decode bs = some (i, r) → fuse = false ∨ s1.fusedAt c o pc = [] → step s = behind (exec i s1)) ∧
      (∀ i r, decode bs = some (i, r) → fuse = true → s1.fusedAt c o pc ≠ [] →
        step s = behind (exec .fusedGroup { s1 with arg := { fused := s1.fusedAt c o pc } })) ∧
      (∀ b0 b1, decode bs = none → bs = [b0, b1] →
        step s = behind (exec .illegalWord { s1 with arg := { maj := if b0.getLsbD 0 then b0.extractLsb' 2 6 else (b0.extractLsb' 2 4).setWidth 6, flag := true } })) ∧
      (∀ b0 b1 b2 b3, decode bs = none → bs = [b0, b1, b2, b3] →
        step s = behind (exec .illegalWord { s1 with arg := { maj := if b0.getLsbD 0 then b0.extractLsb' 2 6 else (b0.extractLsb' 2 4).setWidth 6, flag := false } })))) ∧
  (∀ (s : State) x rest, s.hubq = x :: rest → step s = behind (exec x.1 { s with hubq := rest, arg := x.2 })) ∧
  (∀ (s : State) dt i a rest, s.hubq = [] → s.agenda = ⟨dt, .ev i a⟩ :: rest → Instr.isEvent i = true →
    step s = behind (exec i { ({ s with agenda := rest } : State).advance dt with arg := a })) ∧
  (∀ (s : State) c o (va : Dword) n al pa mt cmp,
    checkGlobal s c o va n { acc := 3, r := false, w := false, x := true, align := al, noDev := true, cmpOk := false } = .ok (.glob pa mt cmp) →
    pa % 128 + n ≤ 128 → s.l2 = [] → (∀ l ∈ (s.core c).icache, l.line ≠ pa / 128) →
    ∃ s1, s.fetchPart c o va n al = .ok (s1, (List.range n).map fun k => cellGet s.mem (pa + k)) ∧
      ∃ l ∈ (s1.core c).icache, l.line = pa / 128 ∧ ∀ w, w ∈ l.poison ↔ w ∈ s.poison ∧ w / 16 = pa / 128) ∧
  (∀ (s : State) c o (pc : Dword) pa mt cmp l,
    checkGlobal s c o pc 2 { acc := 3, r := false, w := false, x := true, align := 2, noDev := true, cmpOk := false } = .ok (.glob pa mt cmp) →
    (s.core c).icache.find? (fun y => decide (y.line = pa / 128)) = some l → (s.codeBad c o pc 2 = true ↔ pa / 8 ∈ l.poison)) ∧
  (∀ s : State, (∀ x ∈ s.threads, x.2.st = .running ∧ x.2.stall = none ∧ x.2.heeled = false) → (∀ w ∈ s.warps, w.2.gen = none) →
    (∀ c ∈ s.cores, c.2.scK < 2 ^ 47) → (∀ l ∈ s.l2, l.stamp.clk < 2 ^ 47) → s.after = s) ∧
  -- cycles pass one by one: KNEADs that are due take effect at the end of one (R173), and the clock counts
  (∀ s : State, s.advance 0 = s ∧ s.advance 1 = (s.kneadCycle.pass 1).newCycle ∧ ∀ n < 5, s.advance (n + 1) = (s.advance 1).advance n)

/-- R35 to R42: words of the encoding tables. -/
def Obligations.SpecWordsDecode : Prop :=
  let le (n v : Nat) : List Byte := (List.range n).map fun j => BitVec.ofNat 8 (v / 256 ^ j)
  let w (v : Nat) (i : Instr) : Prop := decode (le 4 v ++ [0x55]) = some (i, [0x55])
  w 0x01820145 (.pand 3 2 1 false) ∧ w 0x01040729 (.shli 2 4 false 7 false) ∧ w 0x3F80092D (.movh 0x3F80 false 9 false) ∧
  w 0x00010931 (.orl 1 false 9 false) ∧ w 0x0284113D (.icmp 0 5 4 2 1 false) ∧ w 0x42840741 (.sel 1 5 4 false 7 false) ∧
  w 0x05060559 (.cvt 0 10 6 false 5 false) ∧ w 0x0008027B (.jr 8) ∧ w 0x0000047B .ret ∧ w 0x0007E17B (.call 0x7E) ∧ w 0x0000067B .join ∧
  w 0x00000779 (.nop false) ∧ w 0x09030CB5 (.ldS 2 2 3 false 12 false) ∧ w 0x030805CD (.aadd 6 8 false 5 false) ∧ w 0x040400E3 (.qpush 8 4) ∧
  w 0x040006F9 (.rdsp 8 false 6 false) ∧ w 0x401400F3 (.rsend 20) ∧ w 0x800014F3 (.rrecv false 20) ∧ w 0xC08005F1 (.rstat 1 false 5 false) ∧
  decode (le 2 0x2946 ++ [0x55]) = some (.add16 5 5 true, [0x55]) ∧ decode (le 2 0x1040 ++ [0x55]) = some (.mov 2 1 false, [0x55]) ∧
  decode (le 2 0) = none ∧ decode (le 4 0x20000071) = none ∧ decode (le 4 0x068000FD) = none

/-- R35 to R43, R52: the encoder and the decoder are each other's inverse. -/
def Obligations.DecodeAndEncodeAgree : Prop :=
  (∀ i rest, i.WellFormed → i.isEncoded = true → decode (encode i ++ rest) = some (i, rest)) ∧
  (∀ bs i rest, decode bs = some (i, rest) → i.WellFormed ∧ i.isEncoded = true ∧ encode i ++ rest = bs)

/-- R205, R191: memory is one value for each address. The canonical form is the model's own (log 3). -/
def Obligations.MemoryStaysCanonical : Prop :=
  ∀ s s', MemInv s → step s = .next s' → MemInv s'

/-- R394: the machine after package reset. Memory that nothing has written (log 3), the clocks and floors at 0 (log 12), one partition of eight
dies (log 14) and a good image in flash (log 15) are the model's choices. -/
def Obligations.ResetState : Prop :=
  let s := State.reset
  s.threads = [] ∧ s.warps = [] ∧ s.blocks = [] ∧ s.launches = [] ∧ s.slots = [] ∧ s.pending = [] ∧ s.l2 = [] ∧ s.rdc = [] ∧ s.floors = [] ∧
  s.ctlb = [] ∧ s.cwalk = [] ∧ s.shadow = [] ∧ s.clock = 0 ∧ s.powerStep = 0 ∧ s.mem = [] ∧ MemInv s ∧
  (∀ c, s.core c = {}) ∧ (∀ p, (s.partn p).cur = none ∧ (s.partn p).next = none ∧ (s.partn p).switch = .idle ∧ (s.partn p).s2root = 0 ∧
    (s.partn p).busy = none ∧ (s.partn p).nqbase = 0 ∧ (s.partn p).nqprod = 0 ∧ (s.partn p).nqcons = 0 ∧ (s.partn p).nqlost = 0 ∧
    (s.partn p).epochs = 0 ∧ (s.partn p).errs = [] ∧ (s.partn p).smbusy = false ∧ (s.partn p).smdone = 0 ∧ (s.partn p).smlast = 0 ∧
    (s.partn p).halted = false) ∧
  (s.partn 0).dies = [0, 1, 2, 3, 4, 5, 6, 7] ∧ s.sec.raised = 0 ∧ s.sec.haltedBy = 0 ∧ s.sec.erased = false ∧ s.sec.recovery = false ∧
  s.sec.bindings = [] ∧ s.sec.queue = [] ∧
  (∀ t r, ({} : Thread).rd r = 0 ∧ (s.thread t).rd r = 0 ∧ (s.thread t).aflags = 0 ∧ (s.thread t).xvec = 0 ∧ (s.thread t).trap = none)

/-- R149, R150: who executes an instruction. No instruction and no event stops the machine. That `exec` of an instruction with no group to execute
it answers the fault noIssueGroup, which no step meets, and that it answers also for an `Instr` that no word encodes, is the model's choice
(log 47). -/
def Obligations.EveryInstructionAnswers : Prop :=
  (∀ i s, Instr.isEvent i = true → ∃ t, exec i s = .next t) ∧
  (∀ i s, Instr.isEvent i = false → s.group ≠ [] → ∃ t, exec i s = .next t) ∧
  (∀ i s, Instr.isEvent i = false → s.group = [] → exec i s = .fault .noIssueGroup) ∧
  (∀ i : Instr, Instr.isEvent i = false ↔ i.isEncoded = true ∨ i = .illegalWord ∨ i = .fusedGroup) ∧
  (∀ (s : State), (∀ x ∈ s.hubq, Instr.isEvent x.1 = true) → ∃ t, step s = .next t) ∧
  (∀ p w off v, Instr.isEvent (regEvent p w off v).1 = true)

/-- R19, R26, R27, R47, R52, R53, R179: illegal words. Halted threads keep their registers while their warp slot holds a live thread; a slot
without one is vacated, and its registers are zeroed (R32, R203). That a group's first thread is that of the lowest slot is the model's choice
(log 56), and so is that an `Instr` which no word encodes halts as an illegal word does (log 47). The entries of a YIELD and of a TAKE are not among
what R19 checks: R179 and R185 name BOUND for a register of theirs at or above the budget, which is the model's reading (log 45). -/
def Obligations.IllegalWords : Prop :=
  let liveIn (s : State) (t : TRef) : Prop := ∃ x ∈ s.threads, x.1.core = t.core ∧ x.1.slot = t.slot ∧ x.2.st ≠ .exited ∧ x.2.st ≠ .halted
  let plain (s : State) (o : Own) (sl : Nat) : Prop := s.group.Nodup ∧ (s.threads.map Prod.fst).Nodup ∧
    (∀ t ∈ s.group, (s.thread? t).isSome = true ∧ (s.thread t).st = .running ∧ (s.thread t).leaven = false ∧ s.ownOf t = o ∧ t.core = s.curCore ∧
      sl ≤ t.slot ∧ t.slot < 48 ∧ (s.warp? t.core t.slot).isSome = true ∧ (s.block? (s.blkOf t)).isSome = true) ∧ ∃ t ∈ s.group, t.slot = sl
  -- the first illegal word of the context is recorded; of those of one cycle the one of the lowest core and slot
  let noted (s : State) (o : Own) (sl : Nat) (is16 : Bool) (maj : BitVec 6) (e' : ErrWord) : Prop :=
    let r := s.errRec o
    let e := s.err o
    let first : Prop := e.firstv = false ∨ (r.cyc = s.clock ∧ r.old.firstv = false ∧ s.curCore * 64 + sl < r.who)
    (first → e' = { e with ill := true, firstv := true, first16 := is16, firstmaj := maj }) ∧ (¬first → e' = { e with ill := true })
  let stopped (s s' : State) (t : TRef) : Prop := ∃ th', s'.thread? t = some th' ∧
    th' = { s.thread t with st := .halted, g := th'.g, tokens := th'.tokens } ∧ (liveIn s' t → th'.g = (s.thread t).g) ∧ (¬liveIn s' t → th'.g = Vector.replicate 124 0)
  let halts (i : Instr) (s : State) (o : Own) (sl : Nat) (is16 : Bool) (maj : BitVec 6) : Prop := ∃ s', exec i s = .next s' ∧ s'.group = [] ∧
    noted s o sl is16 maj (s'.err o) ∧ s'.mem = s.mem ∧ s'.l2 = s.l2 ∧ ∀ t ∈ s.group, stopped s s' t
  let illegal (i : Instr) (th : Thread) : Prop :=
    (∃ k ∈ i.shape.latches, th.loaf.j ≤ k) ∨ 24 ≤ th.loaf.cnt ∨ (th.loaf.yielded = true ∧ ∃ a e, i = .yield a e)
  let beyond (i : Instr) (th : Thread) : Prop := ∃ r ∈ i.shape.regs, th.budget ≤ r
  (∀ s o sl, plain s o sl → halts .illegalWord s o sl s.arg.flag s.arg.maj) ∧
  (∀ i s o sl, i.isEncoded = true → plain s o sl → (i.WellFormed → ∃ t ∈ s.group, illegal i (s.thread t)) → halts i s o sl (decide (i.len = 2)) i.maj) ∧
  -- a register at or above the budget halts the threads whose budget it passes, and the others execute the word in full
  (∀ i s o sl, i.isEncoded = true → plain s o sl → i.WellFormed → (∀ t ∈ s.group, ¬illegal i (s.thread t)) → (∃ t ∈ s.group, beyond i (s.thread t)) →
    ∃ s1 : State, noted s o sl (decide (i.len = 2)) i.maj (s1.err o) ∧ s1.mem = s.mem ∧ s1.l2 = s.l2 ∧
      (∀ t, t ∈ s1.group ↔ t ∈ s.group ∧ ¬beyond i (s.thread t)) ∧ List.Sublist s1.group s.group ∧
      (∀ t ∈ s.group, (beyond i (s.thread t) → stopped s s1 t) ∧
        (¬beyond i (s.thread t) → ∃ th', s1.thread? t = some th' ∧ th' = { s.thread t with tokens := th'.tokens })) ∧
      (s1.group = [] → exec i s = .next s1) ∧ (s1.group ≠ [] → exec i s = exec i s1)) ∧
  -- what an instruction names: a register, a pair, a ray block, a destination group, the registers of a HEEL; not the entry of YIELD or TAKE
  (∀ (th : Thread) (b a d : Code) (p : BitVec 2) n e, let over_ (l : List Nat) : Prop := ∃ r ∈ l, th.budget ≤ r
    let word (c : Code) : List Nat := if c.toNat < 124 then [c.toNat] else []
    let pair (c : Code) : List Nat := if c.toNat < 124 then [c.toNat, c.toNat + 1] else []
    (beyond (.add b a n d e) th ↔ over_ (word a ++ word b ++ [d.toNat])) ∧ (beyond (.mulwS b a n d e) th ↔ over_ (word a ++ word b ++ [d.toNat, d.toNat + 1])) ∧
    (beyond (.boxt b a n d e) th ↔ over_ ((List.range 16).map (a.toNat + ·) ++ pair b ++ (List.range 4).map (d.toNat + ·))) ∧
    ((Instr.heel b a d).WellFormed → (beyond (.heel b a d) th ↔ over_ ([d.toNat, a.toNat, b.toNat].filter (· ≠ 0)))) ∧ ¬beyond (.yield a e) th ∧ ¬beyond (.take p n d e) th)

/-- R61, R63, R64: the value of a code; R62, R67, R70: rounding of arithmetic results and their flags. Magnitudes are compared by cross
multiplication: code 1 is the least magnitude, 2^mb times which is the least normal one. -/
def Obligations.RoundingIsAsModeSays : Prop :=
  (∀ f ∈ [FP32, BF16, FP16, FH8, FH6], ∀ c < 2 ^ f.width, let e := c / 2 ^ f.mb % 2 ^ f.eb
    e ≤ f.emax → (f = FH8 → c ≠ 0x80) → (decodeF f c).isFin = true ∧ (decodeF f c).rat =
      (if c / 2 ^ (f.eb + f.mb) = 1 then -1 else 1) * ((c % 2 ^ f.mb + if e = 0 then 0 else 2 ^ f.mb : ℕ) : ℚ) * (2 : ℚ) ^ ((max e 1 : ℤ) - f.bias - f.mb)) ∧
  ∀ f ∈ [FP32, BF16, FP16], ∀ (mode : RMode) (neg : Bool) (num den : Nat), 0 < num → 0 < den →
    let c := (arithF f mode neg num den).1
    let value (d a b : Nat) : Prop := d < 2 ^ (1 + f.eb + f.mb) ∧ decodeF f d = .fin neg a b
    let off (a b : Nat) : Nat := ((a : Int) * den - (num : Int) * b).natAbs
    let toward := mode = .rz ∨ (mode = .rd ∧ neg = false) ∨ (mode = .ru ∧ neg = true)
    let away := (mode = .rd ∧ neg = true) ∨ (mode = .ru ∧ neg = false)
    (toward → ∃ a b, value c a b ∧ a * den ≤ num * b ∧ ∀ d a' b', value d a' b' → a' * den ≤ num * b' → a' * b ≤ a * b') ∧
    (away → (decodeF f c = .inf neg ∧ ∀ d a' b', value d a' b' → a' * den < num * b') ∨
      ∃ a b, value c a b ∧ num * b ≤ a * den ∧ ∀ d a' b', value d a' b' → num * b' ≤ a' * den → a * b' ≤ a' * b) ∧
    (mode = .rne → ∀ m bm m' bm', value (maxF f neg) m bm → value (maxF f neg - 1) m' bm' →
      let far := 3 * m * bm' * den ≤ 2 * num * bm * bm' + m' * bm * den
      (far → decodeF f c = .inf neg) ∧
      (¬far → ∃ a b, value c a b ∧ ∀ d a' b', value d a' b' →
        off a b * b' ≤ off a' b' * b ∧ (off a b * b' = off a' b' * b → a' * b = a * b' ∨ c % 2 = 0))) ∧
    ((arithF f mode neg num den).2.getLsbD 0 = false ↔ ∃ a b, value c a b ∧ a * den = num * b) ∧
    -- tiny after rounding with no lower end to the exponents, and inexact
    (∀ a b, decodeF f 1 = .fin false a b → let tiny : Prop :=
        (mode = .rne → 4 * num * b < (4 * 2 ^ f.mb - 1) * a * den) ∧ (toward → num * b < 2 ^ f.mb * a * den) ∧ (away → 2 * num * b ≤ (2 * 2 ^ f.mb - 1) * a * den)
      ((arithF f mode neg num den).2.getLsbD 1 = true ↔ tiny ∧ (arithF f mode neg num den).2.getLsbD 0 = true)) ∧
    (∀ m bm m' bm', value (maxF f neg) m bm → value (maxF f neg - 1) m' bm' →
      ((arithF f mode neg num den).2.getLsbD 2 = true ↔
        (mode = .rne ∧ 3 * m * bm' * den ≤ 2 * num * bm * bm' + m' * bm * den) ∨ (toward ∧ 2 * m * bm' * den ≤ num * bm * bm' + m' * bm * den) ∨ (away ∧ m * den < num * bm))) ∧
    (arithF f mode neg num den).2.getLsbD 3 = false ∧ (arithF f mode neg num den).2.getLsbD 4 = false
end

