-- ==== Sys2Proof/Laws/Keyed.lean ====
section
/-! SUPPORT. Laws of keyed lists and of the accessors of the state. -/

namespace Sys2Proof.Machine

section Keyed
variable {κ α : Type} [DecidableEq κ]

@[simp] theorem tget_nil (k : κ) : tget ([] : List (κ × α)) k = none := rfl

theorem tget_tput (l : List (κ × α)) (k x : κ) (v : α) : tget (tput l k v) x = if k = x then some v else tget l x := by
  induction l with
  | nil => simp [tput, tget]
  | cons p r ih =>
    obtain ⟨a, w⟩ := p
    by_cases h : a = k
    · subst h; by_cases hx : a = x <;> simp [tput, tget, hx]
    · by_cases hx : a = x
      · subst hx; simp [tput, tget, h, Ne.symm h]
      · simp [tput, tget, h, hx, ih]

@[simp] theorem tget_tput_self (l : List (κ × α)) (k : κ) (v : α) : tget (tput l k v) k = some v := by simp [tget_tput]

theorem tget_tput_ne (l : List (κ × α)) {k x : κ} (v : α) (h : k ≠ x) : tget (tput l k v) x = tget l x := by simp [tget_tput, h]

theorem tget_tdel (l : List (κ × α)) (k x : κ) : tget (tdel l k) x = if k = x then none else tget l x := by
  induction l with
  | nil => simp [tdel]
  | cons p r ih =>
    obtain ⟨a, w⟩ := p
    by_cases h : a = k
    · subst h; by_cases hx : a = x
      · subst hx; simp [tdel, ih]
      · simp [tdel, tget, ih, hx]
    · by_cases hx : a = x
      · subst hx; simp [tdel, tget, h, Ne.symm h]
      · simp [tdel, tget, h, hx, ih]

theorem tget_map (l : List (κ × α)) (f : κ → α → α) (k : κ) : tget (l.map fun x => (x.1, f x.1 x.2)) k = (tget l k).map (f k) := by
  induction l with
  | nil => rfl
  | cons p r ih =>
    obtain ⟨a, w⟩ := p
    by_cases h : a = k
    · subst h; simp [tget]
    · simp [tget, h, ih]

end Keyed

/-! ## Accessors -/

section Accessors
variable (s : State) (t u : TRef) (c d sl : Nat)

theorem thread?_setThread (x : Thread) : (s.setThread t x).thread? u = if t = u then some x else s.thread? u := tget_tput _ _ _ _

@[simp] theorem thread?_setThread_self (x : Thread) : (s.setThread t x).thread? t = some x := by simp [thread?_setThread]

theorem thread_of_some {x : Thread} (h : s.thread? t = some x) : s.thread t = x := by simp only [State.thread?] at h; simp [State.thread, h]

theorem thread_congr {s s' : State} (h : s'.thread? t = s.thread? t) : s'.thread t = s.thread t := by
  simp only [State.thread?] at h; simp [State.thread, h]

@[simp] theorem thread_setThread_self (x : Thread) : (s.setThread t x).thread t = x := thread_of_some _ _ (thread?_setThread_self _ _ _)

theorem thread_setThread_ne (x : Thread) (h : t ≠ u) : (s.setThread t x).thread u = s.thread u :=
  thread_congr _ (by simp [thread?_setThread, h])

theorem modThread_of_some (f : Thread → Thread) {x : Thread} (h : s.thread? t = some x) : s.modThread t f = s.setThread t (f x) := by
  simp [State.modThread, h]

theorem modThread_of_none (f : Thread → Thread) (h : s.thread? t = none) : s.modThread t f = s := by
  simp [State.modThread, h]

theorem thread?_modThread (f : Thread → Thread) : (s.modThread t f).thread? u = if t = u then (s.thread? u).map f else s.thread? u := by
  cases h : s.thread? t with
  | none => rw [modThread_of_none _ _ _ h]; by_cases e : t = u <;> simp_all
  | some x => rw [modThread_of_some _ _ _ h, thread?_setThread]; by_cases e : t = u <;> simp_all

@[simp] theorem core_setCore_self (x : Core) : (s.setCore c x).core c = x := by simp [State.core, State.setCore]

theorem core_setCore (x : Core) : (s.setCore c x).core d = if c = d then x else s.core d := by
  by_cases h : c = d <;> simp [State.core, State.setCore, tget_tput, h]

theorem core_modCore (f : Core → Core) : (s.modCore c f).core d = if c = d then f (s.core d) else s.core d := by
  by_cases h : c = d
  · subst h; simp [State.modCore]
  · simp [State.modCore, core_setCore, h]

theorem warp?_setWarp (x : Warp) : (s.setWarp c sl x).warp? d u.slot = if (c, sl) = (d, u.slot) then some x else s.warp? d u.slot := tget_tput _ _ _ _

end Accessors

end Sys2Proof.Machine
end

