-- ==== Sys2Proof/Laws/State.lean ====
section
/-! SUPPORT. One law for each field of the state under each named update: the update changes its own field alone. -/

namespace Sys2Proof.Machine

variable (s : State)

/-! ## setCore -/

@[simp] theorem setCore_clock (c : Nat) (x : Core) : (s.setCore c x).clock = s.clock := rfl
@[simp] theorem setCore_agenda (c : Nat) (x : Core) : (s.setCore c x).agenda = s.agenda := rfl
@[simp] theorem setCore_curCore (c : Nat) (x : Core) : (s.setCore c x).curCore = s.curCore := rfl
@[simp] theorem setCore_curPort (c : Nat) (x : Core) : (s.setCore c x).curPort = s.curPort := rfl
@[simp] theorem setCore_defer (c : Nat) (x : Core) : (s.setCore c x).defer = s.defer := rfl
@[simp] theorem setCore_hubq (c : Nat) (x : Core) : (s.setCore c x).hubq = s.hubq := rfl
@[simp] theorem setCore_arg (c : Nat) (x : Core) : (s.setCore c x).arg = s.arg := rfl
@[simp] theorem setCore_freeCtr (c : Nat) (x : Core) : (s.setCore c x).freeCtr = s.freeCtr := rfl
@[simp] theorem setCore_warps (c : Nat) (x : Core) : (s.setCore c x).warps = s.warps := rfl
@[simp] theorem setCore_threads (c : Nat) (x : Core) : (s.setCore c x).threads = s.threads := rfl
@[simp] theorem setCore_blocks (c : Nat) (x : Core) : (s.setCore c x).blocks = s.blocks := rfl
@[simp] theorem setCore_rdc (c : Nat) (x : Core) : (s.setCore c x).rdc = s.rdc := rfl
@[simp] theorem setCore_l2 (c : Nat) (x : Core) : (s.setCore c x).l2 = s.l2 := rfl
@[simp] theorem setCore_floors (c : Nat) (x : Core) : (s.setCore c x).floors = s.floors := rfl
@[simp] theorem setCore_ctlb (c : Nat) (x : Core) : (s.setCore c x).ctlb = s.ctlb := rfl
@[simp] theorem setCore_cwalk (c : Nat) (x : Core) : (s.setCore c x).cwalk = s.cwalk := rfl
@[simp] theorem setCore_mem (c : Nat) (x : Core) : (s.setCore c x).mem = s.mem := rfl
@[simp] theorem setCore_poison (c : Nat) (x : Core) : (s.setCore c x).poison = s.poison := rfl
@[simp] theorem setCore_parts (c : Nat) (x : Core) : (s.setCore c x).parts = s.parts := rfl
@[simp] theorem setCore_slots (c : Nat) (x : Core) : (s.setCore c x).slots = s.slots := rfl
@[simp] theorem setCore_pending (c : Nat) (x : Core) : (s.setCore c x).pending = s.pending := rfl
@[simp] theorem setCore_launches (c : Nat) (x : Core) : (s.setCore c x).launches = s.launches := rfl
@[simp] theorem setCore_nextLaunch (c : Nat) (x : Core) : (s.setCore c x).nextLaunch = s.nextLaunch := rfl
@[simp] theorem setCore_rr (c : Nat) (x : Core) : (s.setCore c x).rr = s.rr := rfl
@[simp] theorem setCore_rectHeld (c : Nat) (x : Core) : (s.setCore c x).rectHeld = s.rectHeld := rfl
@[simp] theorem setCore_rectReqs (c : Nat) (x : Core) : (s.setCore c x).rectReqs = s.rectReqs := rfl
@[simp] theorem setCore_shadow (c : Nat) (x : Core) : (s.setCore c x).shadow = s.shadow := rfl
@[simp] theorem setCore_parked (c : Nat) (x : Core) : (s.setCore c x).parked = s.parked := rfl
@[simp] theorem setCore_saveSerial (c : Nat) (x : Core) : (s.setCore c x).saveSerial = s.saveSerial := rfl
@[simp] theorem setCore_mxSerial (c : Nat) (x : Core) : (s.setCore c x).mxSerial = s.mxSerial := rfl
@[simp] theorem setCore_guestWays (c : Nat) (x : Core) : (s.setCore c x).guestWays = s.guestWays := rfl
@[simp] theorem setCore_hw (c : Nat) (x : Core) : (s.setCore c x).hw = s.hw := rfl
@[simp] theorem setCore_mgmt (c : Nat) (x : Core) : (s.setCore c x).mgmt = s.mgmt := rfl
@[simp] theorem setCore_powerStep (c : Nat) (x : Core) : (s.setCore c x).powerStep = s.powerStep := rfl
@[simp] theorem setCore_sec (c : Nat) (x : Core) : (s.setCore c x).sec = s.sec := rfl
@[simp] theorem setCore_hostOut (c : Nat) (x : Core) : (s.setCore c x).hostOut = s.hostOut := rfl

/-! ## modCore -/

@[simp] theorem modCore_clock (c : Nat) (f : Core → Core) : (s.modCore c f).clock = s.clock := rfl
@[simp] theorem modCore_agenda (c : Nat) (f : Core → Core) : (s.modCore c f).agenda = s.agenda := rfl
@[simp] theorem modCore_curCore (c : Nat) (f : Core → Core) : (s.modCore c f).curCore = s.curCore := rfl
@[simp] theorem modCore_curPort (c : Nat) (f : Core → Core) : (s.modCore c f).curPort = s.curPort := rfl
@[simp] theorem modCore_defer (c : Nat) (f : Core → Core) : (s.modCore c f).defer = s.defer := rfl
@[simp] theorem modCore_hubq (c : Nat) (f : Core → Core) : (s.modCore c f).hubq = s.hubq := rfl
@[simp] theorem modCore_arg (c : Nat) (f : Core → Core) : (s.modCore c f).arg = s.arg := rfl
@[simp] theorem modCore_freeCtr (c : Nat) (f : Core → Core) : (s.modCore c f).freeCtr = s.freeCtr := rfl
@[simp] theorem modCore_warps (c : Nat) (f : Core → Core) : (s.modCore c f).warps = s.warps := rfl
@[simp] theorem modCore_threads (c : Nat) (f : Core → Core) : (s.modCore c f).threads = s.threads := rfl
@[simp] theorem modCore_blocks (c : Nat) (f : Core → Core) : (s.modCore c f).blocks = s.blocks := rfl
@[simp] theorem modCore_rdc (c : Nat) (f : Core → Core) : (s.modCore c f).rdc = s.rdc := rfl
@[simp] theorem modCore_l2 (c : Nat) (f : Core → Core) : (s.modCore c f).l2 = s.l2 := rfl
@[simp] theorem modCore_floors (c : Nat) (f : Core → Core) : (s.modCore c f).floors = s.floors := rfl
@[simp] theorem modCore_ctlb (c : Nat) (f : Core → Core) : (s.modCore c f).ctlb = s.ctlb := rfl
@[simp] theorem modCore_cwalk (c : Nat) (f : Core → Core) : (s.modCore c f).cwalk = s.cwalk := rfl
@[simp] theorem modCore_mem (c : Nat) (f : Core → Core) : (s.modCore c f).mem = s.mem := rfl
@[simp] theorem modCore_poison (c : Nat) (f : Core → Core) : (s.modCore c f).poison = s.poison := rfl
@[simp] theorem modCore_parts (c : Nat) (f : Core → Core) : (s.modCore c f).parts = s.parts := rfl
@[simp] theorem modCore_slots (c : Nat) (f : Core → Core) : (s.modCore c f).slots = s.slots := rfl
@[simp] theorem modCore_pending (c : Nat) (f : Core → Core) : (s.modCore c f).pending = s.pending := rfl
@[simp] theorem modCore_launches (c : Nat) (f : Core → Core) : (s.modCore c f).launches = s.launches := rfl
@[simp] theorem modCore_nextLaunch (c : Nat) (f : Core → Core) : (s.modCore c f).nextLaunch = s.nextLaunch := rfl
@[simp] theorem modCore_rr (c : Nat) (f : Core → Core) : (s.modCore c f).rr = s.rr := rfl
@[simp] theorem modCore_rectHeld (c : Nat) (f : Core → Core) : (s.modCore c f).rectHeld = s.rectHeld := rfl
@[simp] theorem modCore_rectReqs (c : Nat) (f : Core → Core) : (s.modCore c f).rectReqs = s.rectReqs := rfl
@[simp] theorem modCore_shadow (c : Nat) (f : Core → Core) : (s.modCore c f).shadow = s.shadow := rfl
@[simp] theorem modCore_parked (c : Nat) (f : Core → Core) : (s.modCore c f).parked = s.parked := rfl
@[simp] theorem modCore_saveSerial (c : Nat) (f : Core → Core) : (s.modCore c f).saveSerial = s.saveSerial := rfl
@[simp] theorem modCore_mxSerial (c : Nat) (f : Core → Core) : (s.modCore c f).mxSerial = s.mxSerial := rfl
@[simp] theorem modCore_guestWays (c : Nat) (f : Core → Core) : (s.modCore c f).guestWays = s.guestWays := rfl
@[simp] theorem modCore_hw (c : Nat) (f : Core → Core) : (s.modCore c f).hw = s.hw := rfl
@[simp] theorem modCore_mgmt (c : Nat) (f : Core → Core) : (s.modCore c f).mgmt = s.mgmt := rfl
@[simp] theorem modCore_powerStep (c : Nat) (f : Core → Core) : (s.modCore c f).powerStep = s.powerStep := rfl
@[simp] theorem modCore_sec (c : Nat) (f : Core → Core) : (s.modCore c f).sec = s.sec := rfl
@[simp] theorem modCore_hostOut (c : Nat) (f : Core → Core) : (s.modCore c f).hostOut = s.hostOut := rfl

/-! ## setThread -/

@[simp] theorem setThread_clock (t : TRef) (x : Thread) : (s.setThread t x).clock = s.clock := rfl
@[simp] theorem setThread_agenda (t : TRef) (x : Thread) : (s.setThread t x).agenda = s.agenda := rfl
@[simp] theorem setThread_curCore (t : TRef) (x : Thread) : (s.setThread t x).curCore = s.curCore := rfl
@[simp] theorem setThread_curPort (t : TRef) (x : Thread) : (s.setThread t x).curPort = s.curPort := rfl
@[simp] theorem setThread_defer (t : TRef) (x : Thread) : (s.setThread t x).defer = s.defer := rfl
@[simp] theorem setThread_hubq (t : TRef) (x : Thread) : (s.setThread t x).hubq = s.hubq := rfl
@[simp] theorem setThread_arg (t : TRef) (x : Thread) : (s.setThread t x).arg = s.arg := rfl
@[simp] theorem setThread_freeCtr (t : TRef) (x : Thread) : (s.setThread t x).freeCtr = s.freeCtr := rfl
@[simp] theorem setThread_cores (t : TRef) (x : Thread) : (s.setThread t x).cores = s.cores := rfl
@[simp] theorem setThread_warps (t : TRef) (x : Thread) : (s.setThread t x).warps = s.warps := rfl
@[simp] theorem setThread_blocks (t : TRef) (x : Thread) : (s.setThread t x).blocks = s.blocks := rfl
@[simp] theorem setThread_rdc (t : TRef) (x : Thread) : (s.setThread t x).rdc = s.rdc := rfl
@[simp] theorem setThread_l2 (t : TRef) (x : Thread) : (s.setThread t x).l2 = s.l2 := rfl
@[simp] theorem setThread_floors (t : TRef) (x : Thread) : (s.setThread t x).floors = s.floors := rfl
@[simp] theorem setThread_ctlb (t : TRef) (x : Thread) : (s.setThread t x).ctlb = s.ctlb := rfl
@[simp] theorem setThread_cwalk (t : TRef) (x : Thread) : (s.setThread t x).cwalk = s.cwalk := rfl
@[simp] theorem setThread_mem (t : TRef) (x : Thread) : (s.setThread t x).mem = s.mem := rfl
@[simp] theorem setThread_poison (t : TRef) (x : Thread) : (s.setThread t x).poison = s.poison := rfl
@[simp] theorem setThread_parts (t : TRef) (x : Thread) : (s.setThread t x).parts = s.parts := rfl
@[simp] theorem setThread_slots (t : TRef) (x : Thread) : (s.setThread t x).slots = s.slots := rfl
@[simp] theorem setThread_pending (t : TRef) (x : Thread) : (s.setThread t x).pending = s.pending := rfl
@[simp] theorem setThread_launches (t : TRef) (x : Thread) : (s.setThread t x).launches = s.launches := rfl
@[simp] theorem setThread_nextLaunch (t : TRef) (x : Thread) : (s.setThread t x).nextLaunch = s.nextLaunch := rfl
@[simp] theorem setThread_rr (t : TRef) (x : Thread) : (s.setThread t x).rr = s.rr := rfl
@[simp] theorem setThread_rectHeld (t : TRef) (x : Thread) : (s.setThread t x).rectHeld = s.rectHeld := rfl
@[simp] theorem setThread_rectReqs (t : TRef) (x : Thread) : (s.setThread t x).rectReqs = s.rectReqs := rfl
@[simp] theorem setThread_shadow (t : TRef) (x : Thread) : (s.setThread t x).shadow = s.shadow := rfl
@[simp] theorem setThread_parked (t : TRef) (x : Thread) : (s.setThread t x).parked = s.parked := rfl
@[simp] theorem setThread_saveSerial (t : TRef) (x : Thread) : (s.setThread t x).saveSerial = s.saveSerial := rfl
@[simp] theorem setThread_mxSerial (t : TRef) (x : Thread) : (s.setThread t x).mxSerial = s.mxSerial := rfl
@[simp] theorem setThread_guestWays (t : TRef) (x : Thread) : (s.setThread t x).guestWays = s.guestWays := rfl
@[simp] theorem setThread_hw (t : TRef) (x : Thread) : (s.setThread t x).hw = s.hw := rfl
@[simp] theorem setThread_mgmt (t : TRef) (x : Thread) : (s.setThread t x).mgmt = s.mgmt := rfl
@[simp] theorem setThread_powerStep (t : TRef) (x : Thread) : (s.setThread t x).powerStep = s.powerStep := rfl
@[simp] theorem setThread_sec (t : TRef) (x : Thread) : (s.setThread t x).sec = s.sec := rfl
@[simp] theorem setThread_hostOut (t : TRef) (x : Thread) : (s.setThread t x).hostOut = s.hostOut := rfl

/-! ## modThread -/

@[simp] theorem modThread_clock (t : TRef) (f : Thread → Thread) : (s.modThread t f).clock = s.clock := by unfold State.modThread; split <;> rfl
@[simp] theorem modThread_agenda (t : TRef) (f : Thread → Thread) : (s.modThread t f).agenda = s.agenda := by unfold State.modThread; split <;> rfl
@[simp] theorem modThread_curCore (t : TRef) (f : Thread → Thread) : (s.modThread t f).curCore = s.curCore := by unfold State.modThread; split <;> rfl
@[simp] theorem modThread_curPort (t : TRef) (f : Thread → Thread) : (s.modThread t f).curPort = s.curPort := by unfold State.modThread; split <;> rfl
@[simp] theorem modThread_defer (t : TRef) (f : Thread → Thread) : (s.modThread t f).defer = s.defer := by unfold State.modThread; split <;> rfl
@[simp] theorem modThread_hubq (t : TRef) (f : Thread → Thread) : (s.modThread t f).hubq = s.hubq := by unfold State.modThread; split <;> rfl
@[simp] theorem modThread_arg (t : TRef) (f : Thread → Thread) : (s.modThread t f).arg = s.arg := by unfold State.modThread; split <;> rfl
@[simp] theorem modThread_freeCtr (t : TRef) (f : Thread → Thread) : (s.modThread t f).freeCtr = s.freeCtr := by unfold State.modThread; split <;> rfl
@[simp] theorem modThread_cores (t : TRef) (f : Thread → Thread) : (s.modThread t f).cores = s.cores := by unfold State.modThread; split <;> rfl
@[simp] theorem modThread_warps (t : TRef) (f : Thread → Thread) : (s.modThread t f).warps = s.warps := by unfold State.modThread; split <;> rfl
@[simp] theorem modThread_blocks (t : TRef) (f : Thread → Thread) : (s.modThread t f).blocks = s.blocks := by unfold State.modThread; split <;> rfl
@[simp] theorem modThread_rdc (t : TRef) (f : Thread → Thread) : (s.modThread t f).rdc = s.rdc := by unfold State.modThread; split <;> rfl
@[simp] theorem modThread_l2 (t : TRef) (f : Thread → Thread) : (s.modThread t f).l2 = s.l2 := by unfold State.modThread; split <;> rfl
@[simp] theorem modThread_floors (t : TRef) (f : Thread → Thread) : (s.modThread t f).floors = s.floors := by unfold State.modThread; split <;> rfl
@[simp] theorem modThread_ctlb (t : TRef) (f : Thread → Thread) : (s.modThread t f).ctlb = s.ctlb := by unfold State.modThread; split <;> rfl
@[simp] theorem modThread_cwalk (t : TRef) (f : Thread → Thread) : (s.modThread t f).cwalk = s.cwalk := by unfold State.modThread; split <;> rfl
@[simp] theorem modThread_mem (t : TRef) (f : Thread → Thread) : (s.modThread t f).mem = s.mem := by unfold State.modThread; split <;> rfl
@[simp] theorem modThread_poison (t : TRef) (f : Thread → Thread) : (s.modThread t f).poison = s.poison := by unfold State.modThread; split <;> rfl
@[simp] theorem modThread_parts (t : TRef) (f : Thread → Thread) : (s.modThread t f).parts = s.parts := by unfold State.modThread; split <;> rfl
@[simp] theorem modThread_slots (t : TRef) (f : Thread → Thread) : (s.modThread t f).slots = s.slots := by unfold State.modThread; split <;> rfl
@[simp] theorem modThread_pending (t : TRef) (f : Thread → Thread) : (s.modThread t f).pending = s.pending := by unfold State.modThread; split <;> rfl
@[simp] theorem modThread_launches (t : TRef) (f : Thread → Thread) : (s.modThread t f).launches = s.launches := by unfold State.modThread; split <;> rfl
@[simp] theorem modThread_nextLaunch (t : TRef) (f : Thread → Thread) : (s.modThread t f).nextLaunch = s.nextLaunch := by unfold State.modThread; split <;> rfl
@[simp] theorem modThread_rr (t : TRef) (f : Thread → Thread) : (s.modThread t f).rr = s.rr := by unfold State.modThread; split <;> rfl
@[simp] theorem modThread_rectHeld (t : TRef) (f : Thread → Thread) : (s.modThread t f).rectHeld = s.rectHeld := by unfold State.modThread; split <;> rfl
@[simp] theorem modThread_rectReqs (t : TRef) (f : Thread → Thread) : (s.modThread t f).rectReqs = s.rectReqs := by unfold State.modThread; split <;> rfl
@[simp] theorem modThread_shadow (t : TRef) (f : Thread → Thread) : (s.modThread t f).shadow = s.shadow := by unfold State.modThread; split <;> rfl
@[simp] theorem modThread_parked (t : TRef) (f : Thread → Thread) : (s.modThread t f).parked = s.parked := by unfold State.modThread; split <;> rfl
@[simp] theorem modThread_saveSerial (t : TRef) (f : Thread → Thread) : (s.modThread t f).saveSerial = s.saveSerial := by unfold State.modThread; split <;> rfl
@[simp] theorem modThread_mxSerial (t : TRef) (f : Thread → Thread) : (s.modThread t f).mxSerial = s.mxSerial := by unfold State.modThread; split <;> rfl
@[simp] theorem modThread_guestWays (t : TRef) (f : Thread → Thread) : (s.modThread t f).guestWays = s.guestWays := by unfold State.modThread; split <;> rfl
@[simp] theorem modThread_hw (t : TRef) (f : Thread → Thread) : (s.modThread t f).hw = s.hw := by unfold State.modThread; split <;> rfl
@[simp] theorem modThread_mgmt (t : TRef) (f : Thread → Thread) : (s.modThread t f).mgmt = s.mgmt := by unfold State.modThread; split <;> rfl
@[simp] theorem modThread_powerStep (t : TRef) (f : Thread → Thread) : (s.modThread t f).powerStep = s.powerStep := by unfold State.modThread; split <;> rfl
@[simp] theorem modThread_sec (t : TRef) (f : Thread → Thread) : (s.modThread t f).sec = s.sec := by unfold State.modThread; split <;> rfl
@[simp] theorem modThread_hostOut (t : TRef) (f : Thread → Thread) : (s.modThread t f).hostOut = s.hostOut := by unfold State.modThread; split <;> rfl

/-! ## dropThread -/

@[simp] theorem dropThread_clock (t : TRef) : (s.dropThread t).clock = s.clock := rfl
@[simp] theorem dropThread_agenda (t : TRef) : (s.dropThread t).agenda = s.agenda := rfl
@[simp] theorem dropThread_curCore (t : TRef) : (s.dropThread t).curCore = s.curCore := rfl
@[simp] theorem dropThread_curPort (t : TRef) : (s.dropThread t).curPort = s.curPort := rfl
@[simp] theorem dropThread_defer (t : TRef) : (s.dropThread t).defer = s.defer := rfl
@[simp] theorem dropThread_hubq (t : TRef) : (s.dropThread t).hubq = s.hubq := rfl
@[simp] theorem dropThread_arg (t : TRef) : (s.dropThread t).arg = s.arg := rfl
@[simp] theorem dropThread_freeCtr (t : TRef) : (s.dropThread t).freeCtr = s.freeCtr := rfl
@[simp] theorem dropThread_cores (t : TRef) : (s.dropThread t).cores = s.cores := rfl
@[simp] theorem dropThread_warps (t : TRef) : (s.dropThread t).warps = s.warps := rfl
@[simp] theorem dropThread_blocks (t : TRef) : (s.dropThread t).blocks = s.blocks := rfl
@[simp] theorem dropThread_rdc (t : TRef) : (s.dropThread t).rdc = s.rdc := rfl
@[simp] theorem dropThread_l2 (t : TRef) : (s.dropThread t).l2 = s.l2 := rfl
@[simp] theorem dropThread_floors (t : TRef) : (s.dropThread t).floors = s.floors := rfl
@[simp] theorem dropThread_ctlb (t : TRef) : (s.dropThread t).ctlb = s.ctlb := rfl
@[simp] theorem dropThread_cwalk (t : TRef) : (s.dropThread t).cwalk = s.cwalk := rfl
@[simp] theorem dropThread_mem (t : TRef) : (s.dropThread t).mem = s.mem := rfl
@[simp] theorem dropThread_poison (t : TRef) : (s.dropThread t).poison = s.poison := rfl
@[simp] theorem dropThread_parts (t : TRef) : (s.dropThread t).parts = s.parts := rfl
@[simp] theorem dropThread_slots (t : TRef) : (s.dropThread t).slots = s.slots := rfl
@[simp] theorem dropThread_pending (t : TRef) : (s.dropThread t).pending = s.pending := rfl
@[simp] theorem dropThread_launches (t : TRef) : (s.dropThread t).launches = s.launches := rfl
@[simp] theorem dropThread_nextLaunch (t : TRef) : (s.dropThread t).nextLaunch = s.nextLaunch := rfl
@[simp] theorem dropThread_rr (t : TRef) : (s.dropThread t).rr = s.rr := rfl
@[simp] theorem dropThread_rectHeld (t : TRef) : (s.dropThread t).rectHeld = s.rectHeld := rfl
@[simp] theorem dropThread_rectReqs (t : TRef) : (s.dropThread t).rectReqs = s.rectReqs := rfl
@[simp] theorem dropThread_shadow (t : TRef) : (s.dropThread t).shadow = s.shadow := rfl
@[simp] theorem dropThread_parked (t : TRef) : (s.dropThread t).parked = s.parked := rfl
@[simp] theorem dropThread_saveSerial (t : TRef) : (s.dropThread t).saveSerial = s.saveSerial := rfl
@[simp] theorem dropThread_mxSerial (t : TRef) : (s.dropThread t).mxSerial = s.mxSerial := rfl
@[simp] theorem dropThread_guestWays (t : TRef) : (s.dropThread t).guestWays = s.guestWays := rfl
@[simp] theorem dropThread_hw (t : TRef) : (s.dropThread t).hw = s.hw := rfl
@[simp] theorem dropThread_mgmt (t : TRef) : (s.dropThread t).mgmt = s.mgmt := rfl
@[simp] theorem dropThread_powerStep (t : TRef) : (s.dropThread t).powerStep = s.powerStep := rfl
@[simp] theorem dropThread_sec (t : TRef) : (s.dropThread t).sec = s.sec := rfl
@[simp] theorem dropThread_hostOut (t : TRef) : (s.dropThread t).hostOut = s.hostOut := rfl

/-! ## mapThreads -/

@[simp] theorem mapThreads_clock (f : TRef → Thread → Thread) : (s.mapThreads f).clock = s.clock := rfl
@[simp] theorem mapThreads_agenda (f : TRef → Thread → Thread) : (s.mapThreads f).agenda = s.agenda := rfl
@[simp] theorem mapThreads_curCore (f : TRef → Thread → Thread) : (s.mapThreads f).curCore = s.curCore := rfl
@[simp] theorem mapThreads_curPort (f : TRef → Thread → Thread) : (s.mapThreads f).curPort = s.curPort := rfl
@[simp] theorem mapThreads_defer (f : TRef → Thread → Thread) : (s.mapThreads f).defer = s.defer := rfl
@[simp] theorem mapThreads_hubq (f : TRef → Thread → Thread) : (s.mapThreads f).hubq = s.hubq := rfl
@[simp] theorem mapThreads_arg (f : TRef → Thread → Thread) : (s.mapThreads f).arg = s.arg := rfl
@[simp] theorem mapThreads_freeCtr (f : TRef → Thread → Thread) : (s.mapThreads f).freeCtr = s.freeCtr := rfl
@[simp] theorem mapThreads_cores (f : TRef → Thread → Thread) : (s.mapThreads f).cores = s.cores := rfl
@[simp] theorem mapThreads_warps (f : TRef → Thread → Thread) : (s.mapThreads f).warps = s.warps := rfl
@[simp] theorem mapThreads_blocks (f : TRef → Thread → Thread) : (s.mapThreads f).blocks = s.blocks := rfl
@[simp] theorem mapThreads_rdc (f : TRef → Thread → Thread) : (s.mapThreads f).rdc = s.rdc := rfl
@[simp] theorem mapThreads_l2 (f : TRef → Thread → Thread) : (s.mapThreads f).l2 = s.l2 := rfl
@[simp] theorem mapThreads_floors (f : TRef → Thread → Thread) : (s.mapThreads f).floors = s.floors := rfl
@[simp] theorem mapThreads_ctlb (f : TRef → Thread → Thread) : (s.mapThreads f).ctlb = s.ctlb := rfl
@[simp] theorem mapThreads_cwalk (f : TRef → Thread → Thread) : (s.mapThreads f).cwalk = s.cwalk := rfl
@[simp] theorem mapThreads_mem (f : TRef → Thread → Thread) : (s.mapThreads f).mem = s.mem := rfl
@[simp] theorem mapThreads_poison (f : TRef → Thread → Thread) : (s.mapThreads f).poison = s.poison := rfl
@[simp] theorem mapThreads_parts (f : TRef → Thread → Thread) : (s.mapThreads f).parts = s.parts := rfl
@[simp] theorem mapThreads_slots (f : TRef → Thread → Thread) : (s.mapThreads f).slots = s.slots := rfl
@[simp] theorem mapThreads_pending (f : TRef → Thread → Thread) : (s.mapThreads f).pending = s.pending := rfl
@[simp] theorem mapThreads_launches (f : TRef → Thread → Thread) : (s.mapThreads f).launches = s.launches := rfl
@[simp] theorem mapThreads_nextLaunch (f : TRef → Thread → Thread) : (s.mapThreads f).nextLaunch = s.nextLaunch := rfl
@[simp] theorem mapThreads_rr (f : TRef → Thread → Thread) : (s.mapThreads f).rr = s.rr := rfl
@[simp] theorem mapThreads_rectHeld (f : TRef → Thread → Thread) : (s.mapThreads f).rectHeld = s.rectHeld := rfl
@[simp] theorem mapThreads_rectReqs (f : TRef → Thread → Thread) : (s.mapThreads f).rectReqs = s.rectReqs := rfl
@[simp] theorem mapThreads_shadow (f : TRef → Thread → Thread) : (s.mapThreads f).shadow = s.shadow := rfl
@[simp] theorem mapThreads_parked (f : TRef → Thread → Thread) : (s.mapThreads f).parked = s.parked := rfl
@[simp] theorem mapThreads_saveSerial (f : TRef → Thread → Thread) : (s.mapThreads f).saveSerial = s.saveSerial := rfl
@[simp] theorem mapThreads_mxSerial (f : TRef → Thread → Thread) : (s.mapThreads f).mxSerial = s.mxSerial := rfl
@[simp] theorem mapThreads_guestWays (f : TRef → Thread → Thread) : (s.mapThreads f).guestWays = s.guestWays := rfl
@[simp] theorem mapThreads_hw (f : TRef → Thread → Thread) : (s.mapThreads f).hw = s.hw := rfl
@[simp] theorem mapThreads_mgmt (f : TRef → Thread → Thread) : (s.mapThreads f).mgmt = s.mgmt := rfl
@[simp] theorem mapThreads_powerStep (f : TRef → Thread → Thread) : (s.mapThreads f).powerStep = s.powerStep := rfl
@[simp] theorem mapThreads_sec (f : TRef → Thread → Thread) : (s.mapThreads f).sec = s.sec := rfl
@[simp] theorem mapThreads_hostOut (f : TRef → Thread → Thread) : (s.mapThreads f).hostOut = s.hostOut := rfl

/-! ## setWarp -/

@[simp] theorem setWarp_clock (c sl : Nat) (x : Warp) : (s.setWarp c sl x).clock = s.clock := rfl
@[simp] theorem setWarp_agenda (c sl : Nat) (x : Warp) : (s.setWarp c sl x).agenda = s.agenda := rfl
@[simp] theorem setWarp_curCore (c sl : Nat) (x : Warp) : (s.setWarp c sl x).curCore = s.curCore := rfl
@[simp] theorem setWarp_curPort (c sl : Nat) (x : Warp) : (s.setWarp c sl x).curPort = s.curPort := rfl
@[simp] theorem setWarp_defer (c sl : Nat) (x : Warp) : (s.setWarp c sl x).defer = s.defer := rfl
@[simp] theorem setWarp_hubq (c sl : Nat) (x : Warp) : (s.setWarp c sl x).hubq = s.hubq := rfl
@[simp] theorem setWarp_arg (c sl : Nat) (x : Warp) : (s.setWarp c sl x).arg = s.arg := rfl
@[simp] theorem setWarp_freeCtr (c sl : Nat) (x : Warp) : (s.setWarp c sl x).freeCtr = s.freeCtr := rfl
@[simp] theorem setWarp_cores (c sl : Nat) (x : Warp) : (s.setWarp c sl x).cores = s.cores := rfl
@[simp] theorem setWarp_threads (c sl : Nat) (x : Warp) : (s.setWarp c sl x).threads = s.threads := rfl
@[simp] theorem setWarp_blocks (c sl : Nat) (x : Warp) : (s.setWarp c sl x).blocks = s.blocks := rfl
@[simp] theorem setWarp_rdc (c sl : Nat) (x : Warp) : (s.setWarp c sl x).rdc = s.rdc := rfl
@[simp] theorem setWarp_l2 (c sl : Nat) (x : Warp) : (s.setWarp c sl x).l2 = s.l2 := rfl
@[simp] theorem setWarp_floors (c sl : Nat) (x : Warp) : (s.setWarp c sl x).floors = s.floors := rfl
@[simp] theorem setWarp_ctlb (c sl : Nat) (x : Warp) : (s.setWarp c sl x).ctlb = s.ctlb := rfl
@[simp] theorem setWarp_cwalk (c sl : Nat) (x : Warp) : (s.setWarp c sl x).cwalk = s.cwalk := rfl
@[simp] theorem setWarp_mem (c sl : Nat) (x : Warp) : (s.setWarp c sl x).mem = s.mem := rfl
@[simp] theorem setWarp_poison (c sl : Nat) (x : Warp) : (s.setWarp c sl x).poison = s.poison := rfl
@[simp] theorem setWarp_parts (c sl : Nat) (x : Warp) : (s.setWarp c sl x).parts = s.parts := rfl
@[simp] theorem setWarp_slots (c sl : Nat) (x : Warp) : (s.setWarp c sl x).slots = s.slots := rfl
@[simp] theorem setWarp_pending (c sl : Nat) (x : Warp) : (s.setWarp c sl x).pending = s.pending := rfl
@[simp] theorem setWarp_launches (c sl : Nat) (x : Warp) : (s.setWarp c sl x).launches = s.launches := rfl
@[simp] theorem setWarp_nextLaunch (c sl : Nat) (x : Warp) : (s.setWarp c sl x).nextLaunch = s.nextLaunch := rfl
@[simp] theorem setWarp_rr (c sl : Nat) (x : Warp) : (s.setWarp c sl x).rr = s.rr := rfl
@[simp] theorem setWarp_rectHeld (c sl : Nat) (x : Warp) : (s.setWarp c sl x).rectHeld = s.rectHeld := rfl
@[simp] theorem setWarp_rectReqs (c sl : Nat) (x : Warp) : (s.setWarp c sl x).rectReqs = s.rectReqs := rfl
@[simp] theorem setWarp_shadow (c sl : Nat) (x : Warp) : (s.setWarp c sl x).shadow = s.shadow := rfl
@[simp] theorem setWarp_parked (c sl : Nat) (x : Warp) : (s.setWarp c sl x).parked = s.parked := rfl
@[simp] theorem setWarp_saveSerial (c sl : Nat) (x : Warp) : (s.setWarp c sl x).saveSerial = s.saveSerial := rfl
@[simp] theorem setWarp_mxSerial (c sl : Nat) (x : Warp) : (s.setWarp c sl x).mxSerial = s.mxSerial := rfl
@[simp] theorem setWarp_guestWays (c sl : Nat) (x : Warp) : (s.setWarp c sl x).guestWays = s.guestWays := rfl
@[simp] theorem setWarp_hw (c sl : Nat) (x : Warp) : (s.setWarp c sl x).hw = s.hw := rfl
@[simp] theorem setWarp_mgmt (c sl : Nat) (x : Warp) : (s.setWarp c sl x).mgmt = s.mgmt := rfl
@[simp] theorem setWarp_powerStep (c sl : Nat) (x : Warp) : (s.setWarp c sl x).powerStep = s.powerStep := rfl
@[simp] theorem setWarp_sec (c sl : Nat) (x : Warp) : (s.setWarp c sl x).sec = s.sec := rfl
@[simp] theorem setWarp_hostOut (c sl : Nat) (x : Warp) : (s.setWarp c sl x).hostOut = s.hostOut := rfl

/-! ## modWarp -/

@[simp] theorem modWarp_clock (c sl : Nat) (f : Warp → Warp) : (s.modWarp c sl f).clock = s.clock := by unfold State.modWarp; split <;> rfl
@[simp] theorem modWarp_agenda (c sl : Nat) (f : Warp → Warp) : (s.modWarp c sl f).agenda = s.agenda := by unfold State.modWarp; split <;> rfl
@[simp] theorem modWarp_curCore (c sl : Nat) (f : Warp → Warp) : (s.modWarp c sl f).curCore = s.curCore := by unfold State.modWarp; split <;> rfl
@[simp] theorem modWarp_curPort (c sl : Nat) (f : Warp → Warp) : (s.modWarp c sl f).curPort = s.curPort := by unfold State.modWarp; split <;> rfl
@[simp] theorem modWarp_defer (c sl : Nat) (f : Warp → Warp) : (s.modWarp c sl f).defer = s.defer := by unfold State.modWarp; split <;> rfl
@[simp] theorem modWarp_hubq (c sl : Nat) (f : Warp → Warp) : (s.modWarp c sl f).hubq = s.hubq := by unfold State.modWarp; split <;> rfl
@[simp] theorem modWarp_arg (c sl : Nat) (f : Warp → Warp) : (s.modWarp c sl f).arg = s.arg := by unfold State.modWarp; split <;> rfl
@[simp] theorem modWarp_freeCtr (c sl : Nat) (f : Warp → Warp) : (s.modWarp c sl f).freeCtr = s.freeCtr := by unfold State.modWarp; split <;> rfl
@[simp] theorem modWarp_cores (c sl : Nat) (f : Warp → Warp) : (s.modWarp c sl f).cores = s.cores := by unfold State.modWarp; split <;> rfl
@[simp] theorem modWarp_threads (c sl : Nat) (f : Warp → Warp) : (s.modWarp c sl f).threads = s.threads := by unfold State.modWarp; split <;> rfl
@[simp] theorem modWarp_blocks (c sl : Nat) (f : Warp → Warp) : (s.modWarp c sl f).blocks = s.blocks := by unfold State.modWarp; split <;> rfl
@[simp] theorem modWarp_rdc (c sl : Nat) (f : Warp → Warp) : (s.modWarp c sl f).rdc = s.rdc := by unfold State.modWarp; split <;> rfl
@[simp] theorem modWarp_l2 (c sl : Nat) (f : Warp → Warp) : (s.modWarp c sl f).l2 = s.l2 := by unfold State.modWarp; split <;> rfl
@[simp] theorem modWarp_floors (c sl : Nat) (f : Warp → Warp) : (s.modWarp c sl f).floors = s.floors := by unfold State.modWarp; split <;> rfl
@[simp] theorem modWarp_ctlb (c sl : Nat) (f : Warp → Warp) : (s.modWarp c sl f).ctlb = s.ctlb := by unfold State.modWarp; split <;> rfl
@[simp] theorem modWarp_cwalk (c sl : Nat) (f : Warp → Warp) : (s.modWarp c sl f).cwalk = s.cwalk := by unfold State.modWarp; split <;> rfl
@[simp] theorem modWarp_mem (c sl : Nat) (f : Warp → Warp) : (s.modWarp c sl f).mem = s.mem := by unfold State.modWarp; split <;> rfl
@[simp] theorem modWarp_poison (c sl : Nat) (f : Warp → Warp) : (s.modWarp c sl f).poison = s.poison := by unfold State.modWarp; split <;> rfl
@[simp] theorem modWarp_parts (c sl : Nat) (f : Warp → Warp) : (s.modWarp c sl f).parts = s.parts := by unfold State.modWarp; split <;> rfl
@[simp] theorem modWarp_slots (c sl : Nat) (f : Warp → Warp) : (s.modWarp c sl f).slots = s.slots := by unfold State.modWarp; split <;> rfl
@[simp] theorem modWarp_pending (c sl : Nat) (f : Warp → Warp) : (s.modWarp c sl f).pending = s.pending := by unfold State.modWarp; split <;> rfl
@[simp] theorem modWarp_launches (c sl : Nat) (f : Warp → Warp) : (s.modWarp c sl f).launches = s.launches := by unfold State.modWarp; split <;> rfl
@[simp] theorem modWarp_nextLaunch (c sl : Nat) (f : Warp → Warp) : (s.modWarp c sl f).nextLaunch = s.nextLaunch := by unfold State.modWarp; split <;> rfl
@[simp] theorem modWarp_rr (c sl : Nat) (f : Warp → Warp) : (s.modWarp c sl f).rr = s.rr := by unfold State.modWarp; split <;> rfl
@[simp] theorem modWarp_rectHeld (c sl : Nat) (f : Warp → Warp) : (s.modWarp c sl f).rectHeld = s.rectHeld := by unfold State.modWarp; split <;> rfl
@[simp] theorem modWarp_rectReqs (c sl : Nat) (f : Warp → Warp) : (s.modWarp c sl f).rectReqs = s.rectReqs := by unfold State.modWarp; split <;> rfl
@[simp] theorem modWarp_shadow (c sl : Nat) (f : Warp → Warp) : (s.modWarp c sl f).shadow = s.shadow := by unfold State.modWarp; split <;> rfl
@[simp] theorem modWarp_parked (c sl : Nat) (f : Warp → Warp) : (s.modWarp c sl f).parked = s.parked := by unfold State.modWarp; split <;> rfl
@[simp] theorem modWarp_saveSerial (c sl : Nat) (f : Warp → Warp) : (s.modWarp c sl f).saveSerial = s.saveSerial := by unfold State.modWarp; split <;> rfl
@[simp] theorem modWarp_mxSerial (c sl : Nat) (f : Warp → Warp) : (s.modWarp c sl f).mxSerial = s.mxSerial := by unfold State.modWarp; split <;> rfl
@[simp] theorem modWarp_guestWays (c sl : Nat) (f : Warp → Warp) : (s.modWarp c sl f).guestWays = s.guestWays := by unfold State.modWarp; split <;> rfl
@[simp] theorem modWarp_hw (c sl : Nat) (f : Warp → Warp) : (s.modWarp c sl f).hw = s.hw := by unfold State.modWarp; split <;> rfl
@[simp] theorem modWarp_mgmt (c sl : Nat) (f : Warp → Warp) : (s.modWarp c sl f).mgmt = s.mgmt := by unfold State.modWarp; split <;> rfl
@[simp] theorem modWarp_powerStep (c sl : Nat) (f : Warp → Warp) : (s.modWarp c sl f).powerStep = s.powerStep := by unfold State.modWarp; split <;> rfl
@[simp] theorem modWarp_sec (c sl : Nat) (f : Warp → Warp) : (s.modWarp c sl f).sec = s.sec := by unfold State.modWarp; split <;> rfl
@[simp] theorem modWarp_hostOut (c sl : Nat) (f : Warp → Warp) : (s.modWarp c sl f).hostOut = s.hostOut := by unfold State.modWarp; split <;> rfl

/-! ## setBlock -/

@[simp] theorem setBlock_clock (b : BRef) (x : Block) : (s.setBlock b x).clock = s.clock := rfl
@[simp] theorem setBlock_agenda (b : BRef) (x : Block) : (s.setBlock b x).agenda = s.agenda := rfl
@[simp] theorem setBlock_curCore (b : BRef) (x : Block) : (s.setBlock b x).curCore = s.curCore := rfl
@[simp] theorem setBlock_curPort (b : BRef) (x : Block) : (s.setBlock b x).curPort = s.curPort := rfl
@[simp] theorem setBlock_defer (b : BRef) (x : Block) : (s.setBlock b x).defer = s.defer := rfl
@[simp] theorem setBlock_hubq (b : BRef) (x : Block) : (s.setBlock b x).hubq = s.hubq := rfl
@[simp] theorem setBlock_arg (b : BRef) (x : Block) : (s.setBlock b x).arg = s.arg := rfl
@[simp] theorem setBlock_freeCtr (b : BRef) (x : Block) : (s.setBlock b x).freeCtr = s.freeCtr := rfl
@[simp] theorem setBlock_cores (b : BRef) (x : Block) : (s.setBlock b x).cores = s.cores := rfl
@[simp] theorem setBlock_warps (b : BRef) (x : Block) : (s.setBlock b x).warps = s.warps := rfl
@[simp] theorem setBlock_threads (b : BRef) (x : Block) : (s.setBlock b x).threads = s.threads := rfl
@[simp] theorem setBlock_rdc (b : BRef) (x : Block) : (s.setBlock b x).rdc = s.rdc := rfl
@[simp] theorem setBlock_l2 (b : BRef) (x : Block) : (s.setBlock b x).l2 = s.l2 := rfl
@[simp] theorem setBlock_floors (b : BRef) (x : Block) : (s.setBlock b x).floors = s.floors := rfl
@[simp] theorem setBlock_ctlb (b : BRef) (x : Block) : (s.setBlock b x).ctlb = s.ctlb := rfl
@[simp] theorem setBlock_cwalk (b : BRef) (x : Block) : (s.setBlock b x).cwalk = s.cwalk := rfl
@[simp] theorem setBlock_mem (b : BRef) (x : Block) : (s.setBlock b x).mem = s.mem := rfl
@[simp] theorem setBlock_poison (b : BRef) (x : Block) : (s.setBlock b x).poison = s.poison := rfl
@[simp] theorem setBlock_parts (b : BRef) (x : Block) : (s.setBlock b x).parts = s.parts := rfl
@[simp] theorem setBlock_slots (b : BRef) (x : Block) : (s.setBlock b x).slots = s.slots := rfl
@[simp] theorem setBlock_pending (b : BRef) (x : Block) : (s.setBlock b x).pending = s.pending := rfl
@[simp] theorem setBlock_launches (b : BRef) (x : Block) : (s.setBlock b x).launches = s.launches := rfl
@[simp] theorem setBlock_nextLaunch (b : BRef) (x : Block) : (s.setBlock b x).nextLaunch = s.nextLaunch := rfl
@[simp] theorem setBlock_rr (b : BRef) (x : Block) : (s.setBlock b x).rr = s.rr := rfl
@[simp] theorem setBlock_rectHeld (b : BRef) (x : Block) : (s.setBlock b x).rectHeld = s.rectHeld := rfl
@[simp] theorem setBlock_rectReqs (b : BRef) (x : Block) : (s.setBlock b x).rectReqs = s.rectReqs := rfl
@[simp] theorem setBlock_shadow (b : BRef) (x : Block) : (s.setBlock b x).shadow = s.shadow := rfl
@[simp] theorem setBlock_parked (b : BRef) (x : Block) : (s.setBlock b x).parked = s.parked := rfl
@[simp] theorem setBlock_saveSerial (b : BRef) (x : Block) : (s.setBlock b x).saveSerial = s.saveSerial := rfl
@[simp] theorem setBlock_mxSerial (b : BRef) (x : Block) : (s.setBlock b x).mxSerial = s.mxSerial := rfl
@[simp] theorem setBlock_guestWays (b : BRef) (x : Block) : (s.setBlock b x).guestWays = s.guestWays := rfl
@[simp] theorem setBlock_hw (b : BRef) (x : Block) : (s.setBlock b x).hw = s.hw := rfl
@[simp] theorem setBlock_mgmt (b : BRef) (x : Block) : (s.setBlock b x).mgmt = s.mgmt := rfl
@[simp] theorem setBlock_powerStep (b : BRef) (x : Block) : (s.setBlock b x).powerStep = s.powerStep := rfl
@[simp] theorem setBlock_sec (b : BRef) (x : Block) : (s.setBlock b x).sec = s.sec := rfl
@[simp] theorem setBlock_hostOut (b : BRef) (x : Block) : (s.setBlock b x).hostOut = s.hostOut := rfl

/-! ## modBlock -/

@[simp] theorem modBlock_clock (b : BRef) (f : Block → Block) : (s.modBlock b f).clock = s.clock := by unfold State.modBlock; split <;> rfl
@[simp] theorem modBlock_agenda (b : BRef) (f : Block → Block) : (s.modBlock b f).agenda = s.agenda := by unfold State.modBlock; split <;> rfl
@[simp] theorem modBlock_curCore (b : BRef) (f : Block → Block) : (s.modBlock b f).curCore = s.curCore := by unfold State.modBlock; split <;> rfl
@[simp] theorem modBlock_curPort (b : BRef) (f : Block → Block) : (s.modBlock b f).curPort = s.curPort := by unfold State.modBlock; split <;> rfl
@[simp] theorem modBlock_defer (b : BRef) (f : Block → Block) : (s.modBlock b f).defer = s.defer := by unfold State.modBlock; split <;> rfl
@[simp] theorem modBlock_hubq (b : BRef) (f : Block → Block) : (s.modBlock b f).hubq = s.hubq := by unfold State.modBlock; split <;> rfl
@[simp] theorem modBlock_arg (b : BRef) (f : Block → Block) : (s.modBlock b f).arg = s.arg := by unfold State.modBlock; split <;> rfl
@[simp] theorem modBlock_freeCtr (b : BRef) (f : Block → Block) : (s.modBlock b f).freeCtr = s.freeCtr := by unfold State.modBlock; split <;> rfl
@[simp] theorem modBlock_cores (b : BRef) (f : Block → Block) : (s.modBlock b f).cores = s.cores := by unfold State.modBlock; split <;> rfl
@[simp] theorem modBlock_warps (b : BRef) (f : Block → Block) : (s.modBlock b f).warps = s.warps := by unfold State.modBlock; split <;> rfl
@[simp] theorem modBlock_threads (b : BRef) (f : Block → Block) : (s.modBlock b f).threads = s.threads := by unfold State.modBlock; split <;> rfl
@[simp] theorem modBlock_rdc (b : BRef) (f : Block → Block) : (s.modBlock b f).rdc = s.rdc := by unfold State.modBlock; split <;> rfl
@[simp] theorem modBlock_l2 (b : BRef) (f : Block → Block) : (s.modBlock b f).l2 = s.l2 := by unfold State.modBlock; split <;> rfl
@[simp] theorem modBlock_floors (b : BRef) (f : Block → Block) : (s.modBlock b f).floors = s.floors := by unfold State.modBlock; split <;> rfl
@[simp] theorem modBlock_ctlb (b : BRef) (f : Block → Block) : (s.modBlock b f).ctlb = s.ctlb := by unfold State.modBlock; split <;> rfl
@[simp] theorem modBlock_cwalk (b : BRef) (f : Block → Block) : (s.modBlock b f).cwalk = s.cwalk := by unfold State.modBlock; split <;> rfl
@[simp] theorem modBlock_mem (b : BRef) (f : Block → Block) : (s.modBlock b f).mem = s.mem := by unfold State.modBlock; split <;> rfl
@[simp] theorem modBlock_poison (b : BRef) (f : Block → Block) : (s.modBlock b f).poison = s.poison := by unfold State.modBlock; split <;> rfl
@[simp] theorem modBlock_parts (b : BRef) (f : Block → Block) : (s.modBlock b f).parts = s.parts := by unfold State.modBlock; split <;> rfl
@[simp] theorem modBlock_slots (b : BRef) (f : Block → Block) : (s.modBlock b f).slots = s.slots := by unfold State.modBlock; split <;> rfl
@[simp] theorem modBlock_pending (b : BRef) (f : Block → Block) : (s.modBlock b f).pending = s.pending := by unfold State.modBlock; split <;> rfl
@[simp] theorem modBlock_launches (b : BRef) (f : Block → Block) : (s.modBlock b f).launches = s.launches := by unfold State.modBlock; split <;> rfl
@[simp] theorem modBlock_nextLaunch (b : BRef) (f : Block → Block) : (s.modBlock b f).nextLaunch = s.nextLaunch := by unfold State.modBlock; split <;> rfl
@[simp] theorem modBlock_rr (b : BRef) (f : Block → Block) : (s.modBlock b f).rr = s.rr := by unfold State.modBlock; split <;> rfl
@[simp] theorem modBlock_rectHeld (b : BRef) (f : Block → Block) : (s.modBlock b f).rectHeld = s.rectHeld := by unfold State.modBlock; split <;> rfl
@[simp] theorem modBlock_rectReqs (b : BRef) (f : Block → Block) : (s.modBlock b f).rectReqs = s.rectReqs := by unfold State.modBlock; split <;> rfl
@[simp] theorem modBlock_shadow (b : BRef) (f : Block → Block) : (s.modBlock b f).shadow = s.shadow := by unfold State.modBlock; split <;> rfl
@[simp] theorem modBlock_parked (b : BRef) (f : Block → Block) : (s.modBlock b f).parked = s.parked := by unfold State.modBlock; split <;> rfl
@[simp] theorem modBlock_saveSerial (b : BRef) (f : Block → Block) : (s.modBlock b f).saveSerial = s.saveSerial := by unfold State.modBlock; split <;> rfl
@[simp] theorem modBlock_mxSerial (b : BRef) (f : Block → Block) : (s.modBlock b f).mxSerial = s.mxSerial := by unfold State.modBlock; split <;> rfl
@[simp] theorem modBlock_guestWays (b : BRef) (f : Block → Block) : (s.modBlock b f).guestWays = s.guestWays := by unfold State.modBlock; split <;> rfl
@[simp] theorem modBlock_hw (b : BRef) (f : Block → Block) : (s.modBlock b f).hw = s.hw := by unfold State.modBlock; split <;> rfl
@[simp] theorem modBlock_mgmt (b : BRef) (f : Block → Block) : (s.modBlock b f).mgmt = s.mgmt := by unfold State.modBlock; split <;> rfl
@[simp] theorem modBlock_powerStep (b : BRef) (f : Block → Block) : (s.modBlock b f).powerStep = s.powerStep := by unfold State.modBlock; split <;> rfl
@[simp] theorem modBlock_sec (b : BRef) (f : Block → Block) : (s.modBlock b f).sec = s.sec := by unfold State.modBlock; split <;> rfl
@[simp] theorem modBlock_hostOut (b : BRef) (f : Block → Block) : (s.modBlock b f).hostOut = s.hostOut := by unfold State.modBlock; split <;> rfl

/-! ## setPart -/

@[simp] theorem setPart_clock (p : Nat) (x : Partition) : (s.setPart p x).clock = s.clock := rfl
@[simp] theorem setPart_agenda (p : Nat) (x : Partition) : (s.setPart p x).agenda = s.agenda := rfl
@[simp] theorem setPart_curCore (p : Nat) (x : Partition) : (s.setPart p x).curCore = s.curCore := rfl
@[simp] theorem setPart_curPort (p : Nat) (x : Partition) : (s.setPart p x).curPort = s.curPort := rfl
@[simp] theorem setPart_defer (p : Nat) (x : Partition) : (s.setPart p x).defer = s.defer := rfl
@[simp] theorem setPart_hubq (p : Nat) (x : Partition) : (s.setPart p x).hubq = s.hubq := rfl
@[simp] theorem setPart_arg (p : Nat) (x : Partition) : (s.setPart p x).arg = s.arg := rfl
@[simp] theorem setPart_freeCtr (p : Nat) (x : Partition) : (s.setPart p x).freeCtr = s.freeCtr := rfl
@[simp] theorem setPart_cores (p : Nat) (x : Partition) : (s.setPart p x).cores = s.cores := rfl
@[simp] theorem setPart_warps (p : Nat) (x : Partition) : (s.setPart p x).warps = s.warps := rfl
@[simp] theorem setPart_threads (p : Nat) (x : Partition) : (s.setPart p x).threads = s.threads := rfl
@[simp] theorem setPart_blocks (p : Nat) (x : Partition) : (s.setPart p x).blocks = s.blocks := rfl
@[simp] theorem setPart_rdc (p : Nat) (x : Partition) : (s.setPart p x).rdc = s.rdc := rfl
@[simp] theorem setPart_l2 (p : Nat) (x : Partition) : (s.setPart p x).l2 = s.l2 := rfl
@[simp] theorem setPart_floors (p : Nat) (x : Partition) : (s.setPart p x).floors = s.floors := rfl
@[simp] theorem setPart_ctlb (p : Nat) (x : Partition) : (s.setPart p x).ctlb = s.ctlb := rfl
@[simp] theorem setPart_cwalk (p : Nat) (x : Partition) : (s.setPart p x).cwalk = s.cwalk := rfl
@[simp] theorem setPart_mem (p : Nat) (x : Partition) : (s.setPart p x).mem = s.mem := rfl
@[simp] theorem setPart_poison (p : Nat) (x : Partition) : (s.setPart p x).poison = s.poison := rfl
@[simp] theorem setPart_slots (p : Nat) (x : Partition) : (s.setPart p x).slots = s.slots := rfl
@[simp] theorem setPart_pending (p : Nat) (x : Partition) : (s.setPart p x).pending = s.pending := rfl
@[simp] theorem setPart_launches (p : Nat) (x : Partition) : (s.setPart p x).launches = s.launches := rfl
@[simp] theorem setPart_nextLaunch (p : Nat) (x : Partition) : (s.setPart p x).nextLaunch = s.nextLaunch := rfl
@[simp] theorem setPart_rr (p : Nat) (x : Partition) : (s.setPart p x).rr = s.rr := rfl
@[simp] theorem setPart_rectHeld (p : Nat) (x : Partition) : (s.setPart p x).rectHeld = s.rectHeld := rfl
@[simp] theorem setPart_rectReqs (p : Nat) (x : Partition) : (s.setPart p x).rectReqs = s.rectReqs := rfl
@[simp] theorem setPart_shadow (p : Nat) (x : Partition) : (s.setPart p x).shadow = s.shadow := rfl
@[simp] theorem setPart_parked (p : Nat) (x : Partition) : (s.setPart p x).parked = s.parked := rfl
@[simp] theorem setPart_saveSerial (p : Nat) (x : Partition) : (s.setPart p x).saveSerial = s.saveSerial := rfl
@[simp] theorem setPart_mxSerial (p : Nat) (x : Partition) : (s.setPart p x).mxSerial = s.mxSerial := rfl
@[simp] theorem setPart_guestWays (p : Nat) (x : Partition) : (s.setPart p x).guestWays = s.guestWays := rfl
@[simp] theorem setPart_hw (p : Nat) (x : Partition) : (s.setPart p x).hw = s.hw := rfl
@[simp] theorem setPart_mgmt (p : Nat) (x : Partition) : (s.setPart p x).mgmt = s.mgmt := rfl
@[simp] theorem setPart_powerStep (p : Nat) (x : Partition) : (s.setPart p x).powerStep = s.powerStep := rfl
@[simp] theorem setPart_sec (p : Nat) (x : Partition) : (s.setPart p x).sec = s.sec := rfl
@[simp] theorem setPart_hostOut (p : Nat) (x : Partition) : (s.setPart p x).hostOut = s.hostOut := rfl

/-! ## modPart -/

@[simp] theorem modPart_clock (p : Nat) (f : Partition → Partition) : (s.modPart p f).clock = s.clock := rfl
@[simp] theorem modPart_agenda (p : Nat) (f : Partition → Partition) : (s.modPart p f).agenda = s.agenda := rfl
@[simp] theorem modPart_curCore (p : Nat) (f : Partition → Partition) : (s.modPart p f).curCore = s.curCore := rfl
@[simp] theorem modPart_curPort (p : Nat) (f : Partition → Partition) : (s.modPart p f).curPort = s.curPort := rfl
@[simp] theorem modPart_defer (p : Nat) (f : Partition → Partition) : (s.modPart p f).defer = s.defer := rfl
@[simp] theorem modPart_hubq (p : Nat) (f : Partition → Partition) : (s.modPart p f).hubq = s.hubq := rfl
@[simp] theorem modPart_arg (p : Nat) (f : Partition → Partition) : (s.modPart p f).arg = s.arg := rfl
@[simp] theorem modPart_freeCtr (p : Nat) (f : Partition → Partition) : (s.modPart p f).freeCtr = s.freeCtr := rfl
@[simp] theorem modPart_cores (p : Nat) (f : Partition → Partition) : (s.modPart p f).cores = s.cores := rfl
@[simp] theorem modPart_warps (p : Nat) (f : Partition → Partition) : (s.modPart p f).warps = s.warps := rfl
@[simp] theorem modPart_threads (p : Nat) (f : Partition → Partition) : (s.modPart p f).threads = s.threads := rfl
@[simp] theorem modPart_blocks (p : Nat) (f : Partition → Partition) : (s.modPart p f).blocks = s.blocks := rfl
@[simp] theorem modPart_rdc (p : Nat) (f : Partition → Partition) : (s.modPart p f).rdc = s.rdc := rfl
@[simp] theorem modPart_l2 (p : Nat) (f : Partition → Partition) : (s.modPart p f).l2 = s.l2 := rfl
@[simp] theorem modPart_floors (p : Nat) (f : Partition → Partition) : (s.modPart p f).floors = s.floors := rfl
@[simp] theorem modPart_ctlb (p : Nat) (f : Partition → Partition) : (s.modPart p f).ctlb = s.ctlb := rfl
@[simp] theorem modPart_cwalk (p : Nat) (f : Partition → Partition) : (s.modPart p f).cwalk = s.cwalk := rfl
@[simp] theorem modPart_mem (p : Nat) (f : Partition → Partition) : (s.modPart p f).mem = s.mem := rfl
@[simp] theorem modPart_poison (p : Nat) (f : Partition → Partition) : (s.modPart p f).poison = s.poison := rfl
@[simp] theorem modPart_slots (p : Nat) (f : Partition → Partition) : (s.modPart p f).slots = s.slots := rfl
@[simp] theorem modPart_pending (p : Nat) (f : Partition → Partition) : (s.modPart p f).pending = s.pending := rfl
@[simp] theorem modPart_launches (p : Nat) (f : Partition → Partition) : (s.modPart p f).launches = s.launches := rfl
@[simp] theorem modPart_nextLaunch (p : Nat) (f : Partition → Partition) : (s.modPart p f).nextLaunch = s.nextLaunch := rfl
@[simp] theorem modPart_rr (p : Nat) (f : Partition → Partition) : (s.modPart p f).rr = s.rr := rfl
@[simp] theorem modPart_rectHeld (p : Nat) (f : Partition → Partition) : (s.modPart p f).rectHeld = s.rectHeld := rfl
@[simp] theorem modPart_rectReqs (p : Nat) (f : Partition → Partition) : (s.modPart p f).rectReqs = s.rectReqs := rfl
@[simp] theorem modPart_shadow (p : Nat) (f : Partition → Partition) : (s.modPart p f).shadow = s.shadow := rfl
@[simp] theorem modPart_parked (p : Nat) (f : Partition → Partition) : (s.modPart p f).parked = s.parked := rfl
@[simp] theorem modPart_saveSerial (p : Nat) (f : Partition → Partition) : (s.modPart p f).saveSerial = s.saveSerial := rfl
@[simp] theorem modPart_mxSerial (p : Nat) (f : Partition → Partition) : (s.modPart p f).mxSerial = s.mxSerial := rfl
@[simp] theorem modPart_guestWays (p : Nat) (f : Partition → Partition) : (s.modPart p f).guestWays = s.guestWays := rfl
@[simp] theorem modPart_hw (p : Nat) (f : Partition → Partition) : (s.modPart p f).hw = s.hw := rfl
@[simp] theorem modPart_mgmt (p : Nat) (f : Partition → Partition) : (s.modPart p f).mgmt = s.mgmt := rfl
@[simp] theorem modPart_powerStep (p : Nat) (f : Partition → Partition) : (s.modPart p f).powerStep = s.powerStep := rfl
@[simp] theorem modPart_sec (p : Nat) (f : Partition → Partition) : (s.modPart p f).sec = s.sec := rfl
@[simp] theorem modPart_hostOut (p : Nat) (f : Partition → Partition) : (s.modPart p f).hostOut = s.hostOut := rfl

/-! ## setLaunch -/

@[simp] theorem setLaunch_clock (l : Nat) (x : Launch) : (s.setLaunch l x).clock = s.clock := rfl
@[simp] theorem setLaunch_agenda (l : Nat) (x : Launch) : (s.setLaunch l x).agenda = s.agenda := rfl
@[simp] theorem setLaunch_curCore (l : Nat) (x : Launch) : (s.setLaunch l x).curCore = s.curCore := rfl
@[simp] theorem setLaunch_curPort (l : Nat) (x : Launch) : (s.setLaunch l x).curPort = s.curPort := rfl
@[simp] theorem setLaunch_defer (l : Nat) (x : Launch) : (s.setLaunch l x).defer = s.defer := rfl
@[simp] theorem setLaunch_hubq (l : Nat) (x : Launch) : (s.setLaunch l x).hubq = s.hubq := rfl
@[simp] theorem setLaunch_arg (l : Nat) (x : Launch) : (s.setLaunch l x).arg = s.arg := rfl
@[simp] theorem setLaunch_freeCtr (l : Nat) (x : Launch) : (s.setLaunch l x).freeCtr = s.freeCtr := rfl
@[simp] theorem setLaunch_cores (l : Nat) (x : Launch) : (s.setLaunch l x).cores = s.cores := rfl
@[simp] theorem setLaunch_warps (l : Nat) (x : Launch) : (s.setLaunch l x).warps = s.warps := rfl
@[simp] theorem setLaunch_threads (l : Nat) (x : Launch) : (s.setLaunch l x).threads = s.threads := rfl
@[simp] theorem setLaunch_blocks (l : Nat) (x : Launch) : (s.setLaunch l x).blocks = s.blocks := rfl
@[simp] theorem setLaunch_rdc (l : Nat) (x : Launch) : (s.setLaunch l x).rdc = s.rdc := rfl
@[simp] theorem setLaunch_l2 (l : Nat) (x : Launch) : (s.setLaunch l x).l2 = s.l2 := rfl
@[simp] theorem setLaunch_floors (l : Nat) (x : Launch) : (s.setLaunch l x).floors = s.floors := rfl
@[simp] theorem setLaunch_ctlb (l : Nat) (x : Launch) : (s.setLaunch l x).ctlb = s.ctlb := rfl
@[simp] theorem setLaunch_cwalk (l : Nat) (x : Launch) : (s.setLaunch l x).cwalk = s.cwalk := rfl
@[simp] theorem setLaunch_mem (l : Nat) (x : Launch) : (s.setLaunch l x).mem = s.mem := rfl
@[simp] theorem setLaunch_poison (l : Nat) (x : Launch) : (s.setLaunch l x).poison = s.poison := rfl
@[simp] theorem setLaunch_parts (l : Nat) (x : Launch) : (s.setLaunch l x).parts = s.parts := rfl
@[simp] theorem setLaunch_slots (l : Nat) (x : Launch) : (s.setLaunch l x).slots = s.slots := rfl
@[simp] theorem setLaunch_pending (l : Nat) (x : Launch) : (s.setLaunch l x).pending = s.pending := rfl
@[simp] theorem setLaunch_nextLaunch (l : Nat) (x : Launch) : (s.setLaunch l x).nextLaunch = s.nextLaunch := rfl
@[simp] theorem setLaunch_rr (l : Nat) (x : Launch) : (s.setLaunch l x).rr = s.rr := rfl
@[simp] theorem setLaunch_rectHeld (l : Nat) (x : Launch) : (s.setLaunch l x).rectHeld = s.rectHeld := rfl
@[simp] theorem setLaunch_rectReqs (l : Nat) (x : Launch) : (s.setLaunch l x).rectReqs = s.rectReqs := rfl
@[simp] theorem setLaunch_shadow (l : Nat) (x : Launch) : (s.setLaunch l x).shadow = s.shadow := rfl
@[simp] theorem setLaunch_parked (l : Nat) (x : Launch) : (s.setLaunch l x).parked = s.parked := rfl
@[simp] theorem setLaunch_saveSerial (l : Nat) (x : Launch) : (s.setLaunch l x).saveSerial = s.saveSerial := rfl
@[simp] theorem setLaunch_mxSerial (l : Nat) (x : Launch) : (s.setLaunch l x).mxSerial = s.mxSerial := rfl
@[simp] theorem setLaunch_guestWays (l : Nat) (x : Launch) : (s.setLaunch l x).guestWays = s.guestWays := rfl
@[simp] theorem setLaunch_hw (l : Nat) (x : Launch) : (s.setLaunch l x).hw = s.hw := rfl
@[simp] theorem setLaunch_mgmt (l : Nat) (x : Launch) : (s.setLaunch l x).mgmt = s.mgmt := rfl
@[simp] theorem setLaunch_powerStep (l : Nat) (x : Launch) : (s.setLaunch l x).powerStep = s.powerStep := rfl
@[simp] theorem setLaunch_sec (l : Nat) (x : Launch) : (s.setLaunch l x).sec = s.sec := rfl
@[simp] theorem setLaunch_hostOut (l : Nat) (x : Launch) : (s.setLaunch l x).hostOut = s.hostOut := rfl

/-! ## modLaunch -/

@[simp] theorem modLaunch_clock (l : Nat) (f : Launch → Launch) : (s.modLaunch l f).clock = s.clock := by unfold State.modLaunch; split <;> rfl
@[simp] theorem modLaunch_agenda (l : Nat) (f : Launch → Launch) : (s.modLaunch l f).agenda = s.agenda := by unfold State.modLaunch; split <;> rfl
@[simp] theorem modLaunch_curCore (l : Nat) (f : Launch → Launch) : (s.modLaunch l f).curCore = s.curCore := by unfold State.modLaunch; split <;> rfl
@[simp] theorem modLaunch_curPort (l : Nat) (f : Launch → Launch) : (s.modLaunch l f).curPort = s.curPort := by unfold State.modLaunch; split <;> rfl
@[simp] theorem modLaunch_defer (l : Nat) (f : Launch → Launch) : (s.modLaunch l f).defer = s.defer := by unfold State.modLaunch; split <;> rfl
@[simp] theorem modLaunch_hubq (l : Nat) (f : Launch → Launch) : (s.modLaunch l f).hubq = s.hubq := by unfold State.modLaunch; split <;> rfl
@[simp] theorem modLaunch_arg (l : Nat) (f : Launch → Launch) : (s.modLaunch l f).arg = s.arg := by unfold State.modLaunch; split <;> rfl
@[simp] theorem modLaunch_freeCtr (l : Nat) (f : Launch → Launch) : (s.modLaunch l f).freeCtr = s.freeCtr := by unfold State.modLaunch; split <;> rfl
@[simp] theorem modLaunch_cores (l : Nat) (f : Launch → Launch) : (s.modLaunch l f).cores = s.cores := by unfold State.modLaunch; split <;> rfl
@[simp] theorem modLaunch_warps (l : Nat) (f : Launch → Launch) : (s.modLaunch l f).warps = s.warps := by unfold State.modLaunch; split <;> rfl
@[simp] theorem modLaunch_threads (l : Nat) (f : Launch → Launch) : (s.modLaunch l f).threads = s.threads := by unfold State.modLaunch; split <;> rfl
@[simp] theorem modLaunch_blocks (l : Nat) (f : Launch → Launch) : (s.modLaunch l f).blocks = s.blocks := by unfold State.modLaunch; split <;> rfl
@[simp] theorem modLaunch_rdc (l : Nat) (f : Launch → Launch) : (s.modLaunch l f).rdc = s.rdc := by unfold State.modLaunch; split <;> rfl
@[simp] theorem modLaunch_l2 (l : Nat) (f : Launch → Launch) : (s.modLaunch l f).l2 = s.l2 := by unfold State.modLaunch; split <;> rfl
@[simp] theorem modLaunch_floors (l : Nat) (f : Launch → Launch) : (s.modLaunch l f).floors = s.floors := by unfold State.modLaunch; split <;> rfl
@[simp] theorem modLaunch_ctlb (l : Nat) (f : Launch → Launch) : (s.modLaunch l f).ctlb = s.ctlb := by unfold State.modLaunch; split <;> rfl
@[simp] theorem modLaunch_cwalk (l : Nat) (f : Launch → Launch) : (s.modLaunch l f).cwalk = s.cwalk := by unfold State.modLaunch; split <;> rfl
@[simp] theorem modLaunch_mem (l : Nat) (f : Launch → Launch) : (s.modLaunch l f).mem = s.mem := by unfold State.modLaunch; split <;> rfl
@[simp] theorem modLaunch_poison (l : Nat) (f : Launch → Launch) : (s.modLaunch l f).poison = s.poison := by unfold State.modLaunch; split <;> rfl
@[simp] theorem modLaunch_parts (l : Nat) (f : Launch → Launch) : (s.modLaunch l f).parts = s.parts := by unfold State.modLaunch; split <;> rfl
@[simp] theorem modLaunch_slots (l : Nat) (f : Launch → Launch) : (s.modLaunch l f).slots = s.slots := by unfold State.modLaunch; split <;> rfl
@[simp] theorem modLaunch_pending (l : Nat) (f : Launch → Launch) : (s.modLaunch l f).pending = s.pending := by unfold State.modLaunch; split <;> rfl
@[simp] theorem modLaunch_nextLaunch (l : Nat) (f : Launch → Launch) : (s.modLaunch l f).nextLaunch = s.nextLaunch := by unfold State.modLaunch; split <;> rfl
@[simp] theorem modLaunch_rr (l : Nat) (f : Launch → Launch) : (s.modLaunch l f).rr = s.rr := by unfold State.modLaunch; split <;> rfl
@[simp] theorem modLaunch_rectHeld (l : Nat) (f : Launch → Launch) : (s.modLaunch l f).rectHeld = s.rectHeld := by unfold State.modLaunch; split <;> rfl
@[simp] theorem modLaunch_rectReqs (l : Nat) (f : Launch → Launch) : (s.modLaunch l f).rectReqs = s.rectReqs := by unfold State.modLaunch; split <;> rfl
@[simp] theorem modLaunch_shadow (l : Nat) (f : Launch → Launch) : (s.modLaunch l f).shadow = s.shadow := by unfold State.modLaunch; split <;> rfl
@[simp] theorem modLaunch_parked (l : Nat) (f : Launch → Launch) : (s.modLaunch l f).parked = s.parked := by unfold State.modLaunch; split <;> rfl
@[simp] theorem modLaunch_saveSerial (l : Nat) (f : Launch → Launch) : (s.modLaunch l f).saveSerial = s.saveSerial := by unfold State.modLaunch; split <;> rfl
@[simp] theorem modLaunch_mxSerial (l : Nat) (f : Launch → Launch) : (s.modLaunch l f).mxSerial = s.mxSerial := by unfold State.modLaunch; split <;> rfl
@[simp] theorem modLaunch_guestWays (l : Nat) (f : Launch → Launch) : (s.modLaunch l f).guestWays = s.guestWays := by unfold State.modLaunch; split <;> rfl
@[simp] theorem modLaunch_hw (l : Nat) (f : Launch → Launch) : (s.modLaunch l f).hw = s.hw := by unfold State.modLaunch; split <;> rfl
@[simp] theorem modLaunch_mgmt (l : Nat) (f : Launch → Launch) : (s.modLaunch l f).mgmt = s.mgmt := by unfold State.modLaunch; split <;> rfl
@[simp] theorem modLaunch_powerStep (l : Nat) (f : Launch → Launch) : (s.modLaunch l f).powerStep = s.powerStep := by unfold State.modLaunch; split <;> rfl
@[simp] theorem modLaunch_sec (l : Nat) (f : Launch → Launch) : (s.modLaunch l f).sec = s.sec := by unfold State.modLaunch; split <;> rfl
@[simp] theorem modLaunch_hostOut (l : Nat) (f : Launch → Launch) : (s.modLaunch l f).hostOut = s.hostOut := by unfold State.modLaunch; split <;> rfl

/-! ## modSec -/

@[simp] theorem modSec_clock (f : Secure → Secure) : (s.modSec f).clock = s.clock := rfl
@[simp] theorem modSec_agenda (f : Secure → Secure) : (s.modSec f).agenda = s.agenda := rfl
@[simp] theorem modSec_curCore (f : Secure → Secure) : (s.modSec f).curCore = s.curCore := rfl
@[simp] theorem modSec_curPort (f : Secure → Secure) : (s.modSec f).curPort = s.curPort := rfl
@[simp] theorem modSec_defer (f : Secure → Secure) : (s.modSec f).defer = s.defer := rfl
@[simp] theorem modSec_hubq (f : Secure → Secure) : (s.modSec f).hubq = s.hubq := rfl
@[simp] theorem modSec_arg (f : Secure → Secure) : (s.modSec f).arg = s.arg := rfl
@[simp] theorem modSec_freeCtr (f : Secure → Secure) : (s.modSec f).freeCtr = s.freeCtr := rfl
@[simp] theorem modSec_cores (f : Secure → Secure) : (s.modSec f).cores = s.cores := rfl
@[simp] theorem modSec_warps (f : Secure → Secure) : (s.modSec f).warps = s.warps := rfl
@[simp] theorem modSec_threads (f : Secure → Secure) : (s.modSec f).threads = s.threads := rfl
@[simp] theorem modSec_blocks (f : Secure → Secure) : (s.modSec f).blocks = s.blocks := rfl
@[simp] theorem modSec_rdc (f : Secure → Secure) : (s.modSec f).rdc = s.rdc := rfl
@[simp] theorem modSec_l2 (f : Secure → Secure) : (s.modSec f).l2 = s.l2 := rfl
@[simp] theorem modSec_floors (f : Secure → Secure) : (s.modSec f).floors = s.floors := rfl
@[simp] theorem modSec_ctlb (f : Secure → Secure) : (s.modSec f).ctlb = s.ctlb := rfl
@[simp] theorem modSec_cwalk (f : Secure → Secure) : (s.modSec f).cwalk = s.cwalk := rfl
@[simp] theorem modSec_mem (f : Secure → Secure) : (s.modSec f).mem = s.mem := rfl
@[simp] theorem modSec_poison (f : Secure → Secure) : (s.modSec f).poison = s.poison := rfl
@[simp] theorem modSec_parts (f : Secure → Secure) : (s.modSec f).parts = s.parts := rfl
@[simp] theorem modSec_slots (f : Secure → Secure) : (s.modSec f).slots = s.slots := rfl
@[simp] theorem modSec_pending (f : Secure → Secure) : (s.modSec f).pending = s.pending := rfl
@[simp] theorem modSec_launches (f : Secure → Secure) : (s.modSec f).launches = s.launches := rfl
@[simp] theorem modSec_nextLaunch (f : Secure → Secure) : (s.modSec f).nextLaunch = s.nextLaunch := rfl
@[simp] theorem modSec_rr (f : Secure → Secure) : (s.modSec f).rr = s.rr := rfl
@[simp] theorem modSec_rectHeld (f : Secure → Secure) : (s.modSec f).rectHeld = s.rectHeld := rfl
@[simp] theorem modSec_rectReqs (f : Secure → Secure) : (s.modSec f).rectReqs = s.rectReqs := rfl
@[simp] theorem modSec_shadow (f : Secure → Secure) : (s.modSec f).shadow = s.shadow := rfl
@[simp] theorem modSec_parked (f : Secure → Secure) : (s.modSec f).parked = s.parked := rfl
@[simp] theorem modSec_saveSerial (f : Secure → Secure) : (s.modSec f).saveSerial = s.saveSerial := rfl
@[simp] theorem modSec_mxSerial (f : Secure → Secure) : (s.modSec f).mxSerial = s.mxSerial := rfl
@[simp] theorem modSec_guestWays (f : Secure → Secure) : (s.modSec f).guestWays = s.guestWays := rfl
@[simp] theorem modSec_hw (f : Secure → Secure) : (s.modSec f).hw = s.hw := rfl
@[simp] theorem modSec_mgmt (f : Secure → Secure) : (s.modSec f).mgmt = s.mgmt := rfl
@[simp] theorem modSec_powerStep (f : Secure → Secure) : (s.modSec f).powerStep = s.powerStep := rfl
@[simp] theorem modSec_hostOut (f : Secure → Secure) : (s.modSec f).hostOut = s.hostOut := rfl

end Sys2Proof.Machine
end

