-- ==== Sys2Proof/Laws/Issue.lean ====
section
/-! SUPPORT. What the shared operations of issuing do: a group that is ready executes the body of its instruction whole. -/

namespace Sys2Proof.Machine

theorem filter_none {α : Type} (l : List α) (p : α → Bool) (h : ∀ x ∈ l, p x = false) : l.filter p = [] := by
  rw [List.filter_eq_nil_iff]; intro x hx; simp [h x hx]

theorem filter_all {α : Type} (l : List α) (p : α → Bool) (h : ∀ x ∈ l, p x = true) : l.filter p = l :=
  List.filter_eq_self.2 h

/-- What readiness says, part by part. -/
theorem ready_parts {i : Instr} {s : State} {t : TRef} (h : ReadyFor i s t = true) :
    (∃ th, s.thread? t = some th) ∧ (s.thread t).st = .running ∧ illegalFor i (s.thread t) = false ∧ overBudget i (s.thread t) = false ∧
      parityHit i (s.warp t.core t.slot) (s.thread t) = false ∧ waitsInPlace i (s.warp t.core t.slot) (s.thread t) = false ∧
      ((s.thread t).leaven = true → i.leavenRuns = true) ∧ s.loading = false := by
  simp only [ReadyFor, Bool.and_eq_true, decide_eq_true_eq, Bool.not_eq_true', Bool.or_eq_true] at h
  obtain ⟨⟨⟨⟨⟨⟨⟨h1, h2⟩, h3⟩, h4⟩, h5⟩, h6⟩, h7⟩, h8⟩ := h
  refine ⟨Option.isSome_iff_exists.1 h1, h2, h3, h4, h5, h6, fun hl => ?_, h8⟩
  rcases h7 with h7 | h7
  · rw [hl] at h7; cases h7
  · exact h7

theorem Alone.clean {i : Instr} {s : State} {t : TRef} (h : Alone i s t) : Clean i s := by
  refine ⟨by simp [h.1], by simp [h.1], ?_⟩
  intro u hu
  rw [h.1, List.mem_singleton] at hu
  subst hu
  exact h.2

/-- A clean group that nothing holds executes the body. -/
theorem issueWith_clean {i : Instr} {s : State} (h : Clean i s) (held : State → List TRef → Option State) (hh : held s s.group = none)
    (body : State → List TRef → State) :
    issueWith i s held body = .next ((body s s.group).keepPort i s.group) := by
  obtain ⟨hne, -, hr⟩ := h
  have hp := fun t (ht : t ∈ s.group) => ready_parts (hr t ht)
  unfold issueWith
  split
  · rename_i hg; exact absurd hg hne
  · rename_i t0 rest hg
    have h0 : t0 ∈ s.group := by simp [hg]
    rw [← hg]
    have e0 : (s.group.any fun t => decide ((s.thread t).st = .waiting .scHeld)) = false := by
      rw [List.any_eq_false]; intro t ht; simp [(hp t ht).2.1]
    have e1 : ((s.thread t0).leaven && !i.leavenRuns) = false := by
      cases hl : (s.thread t0).leaven
      · rfl
      · simp [(hp t0 h0).2.2.2.2.2.2.1 hl]
    have e2 : (s.group.any fun t => illegalFor i (s.thread t)) = false := by
      rw [List.any_eq_false]; intro t ht; simp [(hp t ht).2.2.1]
    have e3 : (s.group.filter fun t => overBudget i (s.thread t)) = [] := filter_none _ _ fun t ht => (hp t ht).2.2.2.1
    have e4 : (s.group.filter fun t => decide ((s.thread t).st = .running)) = s.group :=
      filter_all _ _ fun t ht => by simp [(hp t ht).2.1]
    have e5 : (s.group.filter fun t => parityHit i (s.warp t.core t.slot) (s.thread t)) = [] :=
      filter_none _ _ fun t ht => (hp t ht).2.2.2.2.1
    have e6 : (s.group.any fun t => waitsInPlace i (s.warp t.core t.slot) (s.thread t)) = false := by
      rw [List.any_eq_false]; intro t ht; simp [(hp t ht).2.2.2.2.2.1]
    have e7 : s.loading = false := (hp t0 h0).2.2.2.2.2.2.2
    simp only [e0, e1, e2, e3, State.illegal, List.foldl_nil, e4, e5, e6, State.loadHold, e7, Bool.false_and, Bool.or_self, hh, if_false, Bool.false_eq_true]

/-- A clean group executes an instruction of each thread's own, in lane order. -/
theorem issueEach_clean {i : Instr} {s : State} (h : Clean i s) (f : State → TRef → State × Fate) :
    issueEach i s f = .next ((s.group.foldl (turn i f) s).keepPort i s.group) :=
  issueWith_clean h _ rfl _

/-- One thread alone. -/
theorem issueEach_alone {i : Instr} {s : State} {t : TRef} (h : Alone i s t) (f : State → TRef → State × Fate) :
    issueEach i s f = .next ((turn i f s t).keepPort i [t]) := by
  rw [issueEach_clean h.clean, h.1]; rfl

/-! ## The port after an instruction -/

theorem keepPort_threads (s : State) (i : Instr) (g : List TRef) : (s.keepPort i g).threads = s.threads := by simp [State.keepPort]

end Sys2Proof.Machine
end

