-- ==== Sys2Proof/Laws/Lane.lean ====
section
/-! SUPPORT. What delivering a result and retiring do to a thread, and what every lane instruction does to a clean group. -/

namespace Sys2Proof.Machine

/-! ## Registers -/

theorem rd_setG (th : Thread) (r k : Nat) (v : Word) (hk : k < 124) :
    (th.setG r v).rd k = if r = k ∧ k ≠ 0 then v else th.rd k := by
  unfold Thread.setG Thread.rd
  by_cases hr : r = 0
  · subst hr
    by_cases h : k = 0
    · simp [h]
    · simp [h, Ne.symm h]
  · simp only [hr, if_false]
    by_cases h0 : k = 0
    · simp [h0]
    · simp only [h0, if_false]
      by_cases h : r = k
      · subst h; simp [hk, h0]
      · simp [h]

theorem setG_rest (th : Thread) (r : Nat) (v : Word) : th.setG r v = { th with g := (th.setG r v).g, bad := (th.setG r v).bad } := by
  unfold Thread.setG; split <;> rfl

theorem rd_setFrom (ws : List Word) (th : Thread) (base i k : Nat) (hk : k < 124) :
    (th.setFrom base i ws).rd k =
      if base + i ≤ k ∧ k < base + i + ws.length ∧ k ≠ 0 ∧ ¬(base = 0 ∧ k < 2) then ws.getD (k - (base + i)) 0 else th.rd k := by
  induction ws generalizing th i with
  | nil => unfold Thread.setFrom; rw [if_neg]; simp; omega
  | cons w ws ih =>
    unfold Thread.setFrom
    rw [ih]
    have hl : (w :: ws).length = ws.length + 1 := rfl
    rw [hl]
    by_cases h1 : base + (i + 1) ≤ k ∧ k < base + (i + 1) + ws.length ∧ k ≠ 0 ∧ ¬(base = 0 ∧ k < 2)
    · rw [if_pos h1, if_pos (by omega)]
      obtain ⟨j, hj⟩ : ∃ j, k - (base + i) = j + 1 := ⟨k - (base + i) - 1, by omega⟩
      rw [hj, List.getD_cons_succ]; congr 1; omega
    · rw [if_neg h1]
      by_cases hb : base = 0 ∧ i < 2
      · rw [if_pos hb]
        by_cases h2 : base + i ≤ k ∧ k < base + i + (ws.length + 1) ∧ k ≠ 0 ∧ ¬(base = 0 ∧ k < 2)
        · omega
        · rw [if_neg h2]
      · rw [if_neg hb, rd_setG _ _ _ _ hk]
        by_cases h2 : base + i = k ∧ k ≠ 0
        · rw [if_pos h2, if_pos (by omega)]
          have : k - (base + i) = 0 := by omega
          rw [this]; rfl
        · rw [if_neg h2, if_neg (by omega)]

theorem setFrom_rest (ws : List Word) (th : Thread) (base i : Nat) :
    th.setFrom base i ws = { th with g := (th.setFrom base i ws).g, bad := (th.setFrom base i ws).bad } := by
  induction ws generalizing th i with
  | nil => rfl
  | cons w ws ih =>
    unfold Thread.setFrom
    rw [ih]
    split
    · rfl
    · conv_lhs => rw [setG_rest]
      conv_rhs => rw [setG_rest]

/-! ## Predicates -/

theorem pred_setPred (th : Thread) (p q : Nat) (v : Bool) (hp : p < 4) (hq : q < 4) :
    (th.setPred p v).pred q = if q = 0 then true else if p = q then v else th.pred q := by
  rcases p with _ | _ | _ | _ | p <;> rcases q with _ | _ | _ | _ | q <;> first | rfl | omega

theorem setPred_rest (th : Thread) (p : Nat) (v : Bool) :
    th.setPred p v = { th with p1 := (th.setPred p v).p1, p2 := (th.setPred p v).p2, p3 := (th.setPred p v).p3, bad := (th.setPred p v).bad } := by
  unfold Thread.setPred; split <;> rfl

/-- Predicates given in order. -/
def Thread.setPreds (th : Thread) (l : List (Nat × Bool)) : Thread := l.foldl (fun th p => th.setPred p.1 p.2) th

theorem pred_setPreds (l : List (Nat × Bool)) (th : Thread) (hl : ∀ x ∈ l, x.1 < 4) (q : Nat) (hq : q < 4) :
    (th.setPreds l).pred q = if q = 0 then true else (((l.reverse.find? fun x => decide (x.1 = q)).map Prod.snd).getD (th.pred q)) := by
  induction l generalizing th with
  | nil =>
    by_cases h : q = 0
    · subst h; rfl
    · simp [Thread.setPreds, h]
  | cons x l ih =>
    have := ih (th.setPred x.1 x.2) fun y hy => hl y (List.mem_cons_of_mem _ hy)
    have e : th.setPreds (x :: l) = (th.setPred x.1 x.2).setPreds l := rfl
    rw [e, this, List.reverse_cons, List.find?_append, pred_setPred _ _ _ _ (hl x (by simp)) hq]
    by_cases h : q = 0
    · simp [h]
    · simp only [h, if_false]
      cases hf : l.reverse.find? fun x => decide (x.1 = q) with
      | some y => simp
      | none => by_cases hx : x.1 = q <;> simp [hx]

theorem setPreds_rest (l : List (Nat × Bool)) (th : Thread) :
    th.setPreds l = { th with p1 := (th.setPreds l).p1, p2 := (th.setPreds l).p2, p3 := (th.setPreds l).p3, bad := (th.setPreds l).bad } := by
  induction l generalizing th with
  | nil => rfl
  | cons x l ih =>
    have e : th.setPreds (x :: l) = (th.setPred x.1 x.2).setPreds l := rfl
    rw [e, ih]
    conv_lhs => rw [setPred_rest]
    conv_rhs => rw [setPred_rest]

/-! ## A result delivered -/

theorem deliver_eq (th : Thread) (r : Res) :
    th.deliver r = (((match r.push with | none => th.setGroup r.base r.regs | some v => (th.setGroup r.base r.regs).push v) : Thread).setPreds
      r.preds).flag r.flags := by
  unfold Thread.deliver Thread.setPreds; cases r.push <;> rfl

theorem heel_rest (th : Thread) (names : List Nat) :
    th.heel names = { th with loaf := {}, outs := (th.heel names).outs, bad := (th.heel names).bad, st := (th.heel names).st, heeled := true } := rfl

theorem heel_st (th : Thread) (names : List Nat) :
    (th.heel names).st = if (th.heel names).outs.all (fun o => o.named && !o.must) then .ready else .waiting .outs := rfl

theorem awaitOld_few (l : List Out) (h : l.countP Out.counts ≤ 6) : awaitOld l = l := by
  induction l with
  | nil => rfl
  | cons o r ih =>
    rw [List.countP_cons] at h
    have e : (o.counts && decide (6 ≤ r.countP Out.counts)) = false := by
      cases hc : o.counts
      · rfl
      · simp [hc] at h ⊢; omega
    rw [awaitOld, ih (by omega), e, Bool.or_false]

/-- The heel awaits the oldest of the pending groups, so many as there are beyond six. -/
theorem mustLand_awaitOld (l : List Out) : mustLand (l.countP Out.counts - 6) l = awaitOld l := by
  induction l with
  | nil => cases h : ([].countP Out.counts - 6) <;> rfl
  | cons o r ih =>
    by_cases hs : (o :: r).countP Out.counts ≤ 6
    · rw [awaitOld_few _ hs, show (o :: r).countP Out.counts - 6 = 0 by omega]; rfl
    · rw [List.countP_cons] at hs ⊢
      by_cases hc : o.counts = true
      · simp only [hc, if_true] at hs ⊢
        rw [show r.countP Out.counts + 1 - 6 = (r.countP Out.counts - 6) + 1 by omega, mustLand, if_pos hc, ih, awaitOld, hc]
        have : decide (6 ≤ r.countP Out.counts) = true := by simp; omega
        rw [this]; simp
      · simp only [hc, Bool.false_eq_true, if_false] at hs ⊢
        rw [show r.countP Out.counts + 0 - 6 = (r.countP Out.counts - 6 - 1) + 1 by omega, mustLand, if_neg hc,
          show r.countP Out.counts - 6 - 1 + 1 = r.countP Out.counts - 6 by omega, ih, awaitOld]
        simp [hc]

theorem heel_outs (th : Thread) (names : List Nat) : (th.heel names).outs = heelOuts names th.outs := mustLand_awaitOld _

/-- A result delivered to a thread that then stands behind the instruction. -/
theorem delivered (i : Instr) (th : Thread) (r : Res) (hp : ∀ x ∈ r.preds, x.1 < 4) :
    Delivered i th ((th.deliver r).behind i (th.pc + BitVec.ofNat 64 i.len)) r := by
  have base : ∀ k < 124, (th.setGroup r.base r.regs).rd k = if r.writes k then r.regs.getD (k - r.base) 0 else th.rd k := by
    intro k hk
    rw [Thread.setGroup, rd_setFrom _ _ _ _ _ hk]
    by_cases h : r.writes k = true
    · rw [if_pos h, if_pos]
      · rfl
      · simp [Res.writes] at h; omega
    · rw [if_neg h, if_neg]
      simp [Res.writes] at h; omega
  have hrest := setFrom_rest r.regs th r.base 0
  generalize hg : th.setGroup r.base r.regs = a at base
  have ha : a = { th with g := a.g, bad := a.bad } := by rw [← hg]; exact hrest
  generalize hb : (match r.push with | none => a | some v => a.push v : Thread) = b
  have hb1 : b = { th with g := a.g, bad := b.bad, loaf := match r.push with | none => th.loaf | some v => th.loaf.push v } := by
    rw [← hb, ha]; cases r.push <;> rfl
  have hpr : ∀ q < 4, (b.setPreds r.preds).pred q = if q = 0 then true else (r.predOf q).getD (th.pred q) := by
    intro q hq
    have e : b.pred q = th.pred q := by
      rw [hb1]; rcases q with _ | _ | _ | q <;> rfl
    rw [pred_setPreds _ _ hp _ hq, e]; rfl
  have hs := setPreds_rest r.preds b
  generalize hc : b.setPreds r.preds = c at hpr hs
  have hd : th.deliver r = c.flag r.flags := by rw [deliver_eq, hg, ← hc, ← hb]
  have hc1 : c = { th with g := a.g, bad := c.bad, loaf := (match r.push with | none => th.loaf | some v => th.loaf.push v), p1 := c.p1, p2 := c.p2, p3 := c.p3 } := by
    rw [hs, hb1]
  rw [hd]
  unfold Thread.behind
  cases hh : i.isHeel
  · simp only [Bool.false_eq_true, if_false]
    constructor
    · intro k hk; rw [← base k hk]; show Thread.rd _ k = _; unfold Thread.rd; rw [hc1]; rfl
    · intro p hp4; rw [← hpr p hp4]; rcases p with _ | _ | _ | p <;> rfl
    · rw [hc1]; rfl
    · rfl
    · rw [hc1]; simp only [hh]; cases hq : r.push
      · rfl
      · simp only [Thread.flag, Thread.retire, Loaf.push]
        have : ∀ j : Nat, (if j < 4 then j + 1 else 4) = min 4 (j + 1) := by intro j; split <;> omega
        simp [this]
    · intro _; rw [hc1]; exact ⟨rfl, rfl⟩
    · intro h; rw [hh] at h; cases h
    · rw [hc1]; rfl
  · simp only [if_true]
    constructor
    · intro k hk; rw [← base k hk]; show Thread.rd _ k = _; unfold Thread.rd; rw [heel_rest, hc1]; rfl
    · intro p hp4; rw [← hpr p hp4]; rcases p with _ | _ | _ | p <;> rfl
    · rw [heel_rest, hc1]; rfl
    · rfl
    · simp only [hh, if_true]; rfl
    · intro h; rw [hh] at h; cases h
    · intro _; refine ⟨?_, heel_st _ _⟩; rw [heel_outs, hc1]; rfl
    · rw [heel_rest, hc1]; rfl

/-- The empty result changes nothing. -/
theorem deliver_none (th : Thread) : th.deliver {} = th := by
  have : th.deliver {} = { th with aflags := th.aflags ||| 0 } := rfl
  have h : th.aflags ||| 0 = th.aflags := BitVec.or_zero
  rw [this, h]

/-- A thread that retires without a result. -/
theorem delivered_none (i : Instr) (th : Thread) : Delivered i th (th.behind i (th.pc + BitVec.ofNat 64 i.len)) {} := by
  have := delivered i th {} (by simp)
  rwa [deliver_none] at this

/-! ## A lane instruction -/

/-- What the instruction makes of each thread, in lane order. -/
theorem foldl_lane (i : Instr) (f : State → TRef → Thread → Res) (hf : ∀ s s' t th, s' = { s with threads := s'.threads } → f s' t th = f s t th)
    (g : List TRef) (s : State) (hn : g.Nodup) (hp : ∀ t ∈ g, ∃ th, s.thread? t = some th ∧ th.st = .running) :
    let step (s : State) (t : TRef) : State := turn i (fun s t => (s.modThread t fun th => th.deliver (f s t th), .go)) s t
    let s' := g.foldl step s
    s' = { s with threads := s'.threads } ∧
      (∀ t ∈ g, s'.thread? t = some (((s.thread t).deliver (f s t (s.thread t))).behind i ((s.thread t).pc + BitVec.ofNat 64 i.len))) ∧
      ∀ t, t ∉ g → s'.thread? t = s.thread? t := by
  intro step
  induction g generalizing s with
  | nil => exact ⟨rfl, by simp, fun _ _ => rfl⟩
  | cons t g ih =>
    obtain ⟨th, hth, hrun⟩ := hp t (by simp)
    have e0 : s.thread t = th := thread_of_some _ _ hth
    have hst : (th.deliver (f s t th)).st = .running := by
      rw [deliver_eq]
      have h1 := setFrom_rest (f s t th).regs th (f s t th).base 0
      rw [show ((Thread.setPreds _ (f s t th).preds).flag (f s t th).flags).st = (Thread.setPreds _ (f s t th).preds).st from rfl, setPreds_rest]
      cases (f s t th).push
      · simp only; rw [show th.setGroup _ _ = _ from h1]; exact hrun
      · simp only [Thread.push]; rw [show th.setGroup _ _ = _ from h1]; exact hrun
    have hpc : (th.deliver (f s t th)).pc = th.pc := by
      rw [deliver_eq]
      have h1 := setFrom_rest (f s t th).regs th (f s t th).base 0
      rw [show ((Thread.setPreds _ (f s t th).preds).flag (f s t th).flags).pc = (Thread.setPreds _ (f s t th).preds).pc from rfl, setPreds_rest]
      cases (f s t th).push
      · simp only; rw [show th.setGroup _ _ = _ from h1]
      · simp only [Thread.push]; rw [show th.setGroup _ _ = _ from h1]
    have e1 : step s t = s.setThread t ((th.deliver (f s t th)).behind i (th.pc + BitVec.ofNat 64 i.len)) := by
      show (s.modThread t _).settleFate i t .go = _
      rw [modThread_of_some _ _ _ hth]
      unfold State.settleFate
      rw [thread_setThread_self, if_pos hst]
      show (s.setThread t _).modThread t _ = _
      rw [modThread_of_some _ _ _ (thread?_setThread_self _ _ _), hpc]
      simp only [State.setThread]
      congr 1
      clear ih hp
      generalize s.threads = l
      induction l with
      | nil => simp [tput]
      | cons p r ih => obtain ⟨k, w⟩ := p; by_cases h : k = t <;> simp [tput, h, ih]
    rw [List.nodup_cons] at hn
    have ih' := ih (step s t) hn.2 (by
      intro u hu
      have hne : t ≠ u := by rintro rfl; exact hn.1 hu
      rw [e1, thread?_setThread, if_neg hne]
      exact hp u (List.mem_cons_of_mem _ hu))
    have hfr : step s t = { s with threads := (step s t).threads } := by rw [e1]; rfl
    obtain ⟨ih1, ih2, ih3⟩ := ih'
    refine ⟨?_, ?_, ?_⟩
    · have h2 : ∀ x, { step s t with threads := x } = { s with threads := x } := by intro x; rw [hfr]
      exact ih1.trans (h2 _)
    · intro u hu
      rw [List.foldl_cons]
      by_cases hut : u = t
      · subst hut
        rw [ih3 u hn.1, e1, thread?_setThread_self, e0]
      · have hu' : u ∈ g := by simpa [hut] using hu
        have e2 : (step s t).thread u = s.thread u := by rw [e1]; exact thread_setThread_ne _ _ _ _ (Ne.symm hut)
        rw [ih2 u hu', e2, hf s (step s t) u _ hfr]
    · intro u hu
      rw [List.foldl_cons]
      simp only [List.mem_cons, not_or] at hu
      rw [ih3 u hu.2, e1, thread?_setThread, if_neg (Ne.symm hu.1)]

/-- What follows the body of a clean issue that changed nothing but threads. -/
theorem onlyThreads_of (i : Instr) (s s1 : State) (h : s1 = { s with threads := s1.threads }) (hrun : i.isHeel = false → ∀ t ∈ s.group, (s1.thread t).st = .running) :
    OnlyThreads i s (s1.keepPort i s.group) ∧ (s1.keepPort i s.group).threads = s1.threads := by
  obtain ⟨T, rfl⟩ : ∃ T, s1 = { s with threads := T } := ⟨_, h⟩
  generalize hs1 : ({ s with threads := T } : State) = s1 at h hrun ⊢
  have hc : s1.curCore = s.curCore ∧ s1.curPort = s.curPort ∧ s1.cores = s.cores := by subst hs1; exact ⟨rfl, rfl, rfl⟩
  have hk : s1.keepPort i s.group = s1.modCore s.curCore fun c => c.setPort s.curPort (if i.isHeel then [] else s.group) := by
    unfold State.keepPort
    rw [hc.1, hc.2.1]
    cases hh : i.isHeel
    · simp only [Bool.false_eq_true, if_false]
      rw [filter_all _ _ fun t ht => by simp [hrun hh t ht]]
    · rfl
  rw [hk]
  refine ⟨⟨?_, ?_⟩, modCore_threads _ _ _⟩
  · subst hs1; rfl
  · intro c
    rw [core_modCore]
    have e : s1.core c = s.core c := by unfold State.core; rw [hc.2.2]
    by_cases hcc : s.curCore = c
    · subst hcc; simp [e]
    · rw [if_neg hcc, if_neg (Ne.symm hcc), e]

/-- A lane instruction of any kind, over a clean group. -/
theorem gives_laneAt {i : Instr} {s : State} (h : Clean i s) (f : State → TRef → Thread → Res)
    (hf : ∀ s s' t th, s' = { s with threads := s'.threads } → f s' t th = f s t th) (hp : ∀ s t th, ∀ x ∈ (f s t th).preds, x.1 < 4)
    (he : exec i s = issueLaneAt i s f) : Gives i s (f s) := by
  have hr := fun t (ht : t ∈ s.group) => ready_parts (h.2.2 t ht)
  obtain ⟨h1, h2, h3⟩ := foldl_lane i f hf s.group s h.2.1 fun t ht => by
    obtain ⟨⟨th, e⟩, hs, -⟩ := hr t ht
    exact ⟨th, e, by rw [← thread_of_some _ _ e]; exact hs⟩
  generalize hs1 : s.group.foldl (fun s t => turn i (fun s t => (s.modThread t fun th => th.deliver (f s t th), .go)) s t) s = s1 at h1 h2 h3
  have hd := fun t => delivered i (s.thread t) (f s t (s.thread t)) (hp s t _)
  have ht := fun t (ht : t ∈ s.group) => thread_of_some _ _ (h2 t ht)
  obtain ⟨ho, hth⟩ := onlyThreads_of i s s1 h1 fun hh t hm => by rw [ht t hm]; rw [((hd t).st hh).1]; exact (hr t hm).2.1
  refine ⟨_, ?_, ?_, ?_, ho⟩
  · rw [he]; unfold issueLaneAt; rw [issueEach_clean h]; rw [← hs1]
  · intro t hm
    refine ⟨_, ?_, hd t⟩
    rw [← h2 t hm]; unfold State.thread?; rw [hth]
  · intro t hm
    rw [← h3 t hm]; unfold State.thread?; rw [hth]

/-- A lane instruction that reads its thread alone. -/
theorem gives_lane {i : Instr} {s : State} (h : Clean i s) (f : Thread → Res) (hp : ∀ th, ∀ x ∈ (f th).preds, x.1 < 4)
    (he : exec i s = issueLane i s f) : Gives i s fun _ th => f th :=
  gives_laneAt h (fun _ _ th => f th) (fun _ _ _ _ _ => rfl) (fun _ _ th => hp th) he

end Sys2Proof.Machine
end

