-- ==== Sys2Proof/Laws/Alone.lean ====
section
/-! SUPPORT. What an instruction does that one thread alone in its group executes, fate by fate. -/

namespace Sys2Proof.Machine

/-! ## What `Calm` leaves open -/

theorem Calm.refl (s : State) : Calm s s := ⟨rfl, fun _ => rfl⟩

theorem Calm.trans {a b c : State} (h : Calm a b) (k : Calm b c) : Calm a c := by
  refine ⟨?_, fun n => ?_⟩
  · rw [k.rest, h.rest]
  · have h1 := h.cores n; have h2 := k.cores n
    unfold Core.still at h1 h2 ⊢; rw [h2, h1]

theorem calm_threads (s : State) (l : List (TRef × Thread)) : Calm s { s with threads := l } :=
  ⟨rfl, fun _ => rfl⟩

theorem calm_setThread (s : State) (t : TRef) (x : Thread) : Calm s (s.setThread t x) := calm_threads _ _

theorem calm_modThread (s : State) (t : TRef) (f : Thread → Thread) : Calm s (s.modThread t f) := by
  unfold State.modThread; split
  · exact Calm.refl _
  · exact calm_setThread _ _ _

theorem calm_modCore (s : State) (c : Nat) (f : Core → Core) (hf : (s.core c).still (f (s.core c))) : Calm s (s.modCore c f) := by
  refine ⟨rfl, fun d => ?_⟩
  rw [core_modCore]
  by_cases h : c = d
  · subst h; rw [if_pos rfl]; exact hf
  · rw [if_neg h]

theorem still_setPort (c : Core) (p : Nat) (g : List TRef) : c.still (c.setPort p g) := by
  unfold Core.setPort; split <;> rfl

theorem calm_keepPort (s : State) (i : Instr) (g : List TRef) : Calm s (s.keepPort i g) :=
  calm_modCore s s.curCore (fun c => c.setPort s.curPort (if i.isHeel then [] else g.filter fun t => (s.thread t).st = .running))
    (still_setPort _ _ _)

theorem calm_unplace (s : State) (t : TRef) : Calm s (s.unplace t) := calm_modCore _ _ _ rfl

@[simp] theorem unplace_threads (s : State) (t : TRef) : (s.unplace t).threads = s.threads := rfl
@[simp] theorem thread?_unplace (s : State) (t u : TRef) : (s.unplace t).thread? u = s.thread? u := rfl
@[simp] theorem thread_unplace (s : State) (t u : TRef) : (s.unplace t).thread u = s.thread u := rfl

theorem Makes.mono {i : Instr} {s : State} {t : TRef} {P Q : Thread → Prop} {F G : State → Prop} {was was' : TRef → Option Thread}
    (h : Makes i s t P F was) (hP : ∀ x, P x → Q x) (hF : ∀ x, F x → G x) (hw : ∀ u, u ≠ t → was u = was' u) : Makes i s t Q G was' := by
  obtain ⟨s', h1, ⟨th', h2, h3, h4⟩, h5, h6⟩ := h
  exact ⟨s', h1, ⟨th', h2, hP _ h3, h4⟩, fun u hu => (h5 u hu).trans (hw u hu), hF _ h6⟩

/-- What one thread's turn leaves is what the instruction leaves, but for the port. -/
theorem makes_of_turn {i : Instr} {s : State} {t : TRef} (h : Alone i s t) {f : State → TRef → State × Fate} (he : exec i s = issueEach i s f)
    {x : Thread} (hx : (turn i f s t).thread? t = some x) :
    Makes i s t (fun th' => th' = x) (Calm (turn i f s t)) (turn i f s t).thread? := by
  generalize hs1 : turn i f s t = s1 at *
  have hth : ∀ u, (s1.keepPort i [t]).thread? u = s1.thread? u := by
    intro u; exact congrArg (fun l => tget l u) (keepPort_threads s1 i [t])
  refine ⟨s1.keepPort i [t], ?_, ⟨x, by rw [hth, hx], rfl, ?_⟩, fun u _ => hth u,
    calm_keepPort _ _ _⟩
  · rw [he, issueEach_alone h, hs1]
  · unfold State.keepPort State.group
    have e : (s1.thread t).st = x.st := by rw [thread_of_some _ _ hx]
    simp only [modCore_curCore, modCore_curPort, core_modCore, if_true]
    have hp : ∀ (c : Core) p g, (c.setPort p g).port p = g := by
      intro c p g; unfold Core.setPort Core.port; by_cases h : p = 0 <;> simp [h]
    rw [hp]
    cases hh : i.isHeel
    · by_cases hr : x.st = .running
      · rw [← e] at hr; simp [hr, ← e]
      · have hr' := hr; rw [← e] at hr; simp [hr, hr']
    · simp

/-- The instruction retires. -/
theorem makes_go {i : Instr} {s : State} {t : TRef} (h : Alone i s t) {f : State → TRef → State × Fate} (he : exec i s = issueEach i s f)
    {s1 : State} (hf : f s t = (s1, .go)) {x : Thread} (hx : s1.thread? t = some x) (hr : x.st = .running) :
    Makes i s t (fun th' => th' = x.behind i (x.pc + BitVec.ofNat 64 i.len)) (Calm s1) s1.thread? := by
  have e : turn i f s t = s1.setThread t (x.behind i (x.pc + BitVec.ofNat 64 i.len)) := by
    unfold turn; rw [hf]; simp only [State.settleFate]
    rw [thread_of_some _ _ hx, if_pos hr]
    exact modThread_of_some _ _ _ hx
  have := makes_of_turn h he (x := x.behind i (x.pc + BitVec.ofNat 64 i.len)) (by rw [e, thread?_setThread_self])
  refine this.mono (fun _ => id) (fun y hy => ?_) (fun u hu => ?_)
  · rw [e] at hy; exact (calm_setThread _ _ _).trans hy
  · rw [e, thread?_setThread, if_neg (Ne.symm hu)]

/-- The instruction transfers control. -/
theorem makes_goto {i : Instr} {s : State} {t : TRef} (h : Alone i s t) {f : State → TRef → State × Fate} (he : exec i s = issueEach i s f)
    {s1 : State} {pc : Dword} (hf : f s t = (s1, .goto pc)) {x : Thread} (hx : s1.thread? t = some x) (hr : x.st = .running) :
    Makes i s t (fun th' => th' = x.behind i pc) (Calm s1) s1.thread? := by
  have e : turn i f s t = s1.setThread t (x.behind i pc) := by
    unfold turn; rw [hf]; simp only [State.settleFate]
    rw [thread_of_some _ _ hx, if_pos hr]
    exact modThread_of_some _ _ _ hx
  have := makes_of_turn h he (x := x.behind i pc) (by rw [e, thread?_setThread_self])
  refine this.mono (fun _ => id) (fun y hy => ?_) (fun u hu => ?_)
  · rw [e] at hy; exact (calm_setThread _ _ _).trans hy
  · rw [e, thread?_setThread, if_neg (Ne.symm hu)]

/-- The instruction waits where it stands. -/
theorem makes_wait {i : Instr} {s : State} {t : TRef} (h : Alone i s t) {f : State → TRef → State × Fate} (he : exec i s = issueEach i s f)
    {s1 : State} {w : Wait} (hf : f s t = (s1, .wait w)) {x : Thread} (hx : s1.thread? t = some x) (hr : x.st = .running) :
    Makes i s t (fun th' => th' = { x with st := .waiting w }) (Calm s1) s1.thread? := by
  have e : turn i f s t = s1.setThread t { x with st := .waiting w } := by
    unfold turn; rw [hf]; simp only [State.settleFate]
    rw [thread_of_some _ _ hx, if_pos hr]
    exact modThread_of_some _ _ _ hx
  have := makes_of_turn h he (x := { x with st := .waiting w }) (by rw [e, thread?_setThread_self])
  refine this.mono (fun _ => id) (fun y hy => ?_) (fun u hu => ?_)
  · rw [e] at hy; exact (calm_setThread _ _ _).trans hy
  · rw [e, thread?_setThread, if_neg (Ne.symm hu)]

/-- The instruction retires and its thread waits behind it. -/
theorem makes_rest {i : Instr} {s : State} {t : TRef} (h : Alone i s t) {f : State → TRef → State × Fate} (he : exec i s = issueEach i s f)
    {s1 : State} {w : Wait} (hf : f s t = (s1, .rest w)) {x : Thread} (hx : s1.thread? t = some x) (hr : x.st = .running) :
    Makes i s t (fun th' => th' = { x.behind i (x.pc + BitVec.ofNat 64 i.len) with st := .waiting w }) (Calm s1) s1.thread? := by
  have e : turn i f s t = s1.setThread t { x.behind i (x.pc + BitVec.ofNat 64 i.len) with st := .waiting w } := by
    unfold turn; rw [hf]; simp only [State.settleFate]
    rw [thread_of_some _ _ hx, if_pos hr]
    exact modThread_of_some _ _ _ hx
  have := makes_of_turn h he (x := { x.behind i (x.pc + BitVec.ofNat 64 i.len) with st := .waiting w })
    (by rw [e, thread?_setThread_self])
  refine this.mono (fun _ => id) (fun y hy => ?_) (fun u hu => ?_)
  · rw [e] at hy; exact (calm_setThread _ _ _).trans hy
  · rw [e, thread?_setThread, if_neg (Ne.symm hu)]

/-! ## Traps -/

theorem trapEntry_trapped (th : Thread) (inf : TrapInfo) (after : Bool) : Trapped th (th.trapEntry inf after) inf after := by
  refine ⟨rfl, rfl, rfl, rfl, ⟨rfl, rfl, rfl⟩, ⟨?_, ?_⟩, rfl⟩
  · intro o ho
    simp only [Thread.trapEntry, List.mem_map] at ho
    obtain ⟨a, -, rfl⟩ := ho
    split
    · assumption
    · rfl
  · simp only [Thread.trapEntry, List.map_map]
    apply List.map_congr_left
    intro o _
    simp only [Function.comp]
    split <;> rfl

/-- The instruction traps: an exact fault, or TRAP, BKPT or TFENCE. -/
theorem makes_trap {i : Instr} {s : State} {t : TRef} (h : Alone i s t) {f : State → TRef → State × Fate} (he : exec i s = issueEach i s f)
    {s1 : State} {inf : TrapInfo} {after : Bool} (hf : f s t = (s1, if after then .trapNext inf else .trap inf)) {x : Thread}
    (hx : s1.thread? t = some x) (hr : x.st = .running) (hm : x.trap = none ∧ x.xvec ≠ 0 ∧ x.leaven = false) :
    Makes i s t (fun th' => Trapped x th' inf after) (Calm s1) s1.thread? := by
  have e : turn i f s t = (s1.unplace t).setThread t (x.trapEntry inf after) := by
    unfold turn; rw [hf]; simp only [State.settleFate]
    rw [thread_of_some _ _ hx, if_pos hr]
    have : s1.takeTrap t inf after = (s1.unplace t).setThread t (x.trapEntry inf after) := by
      have h0 : ¬ x.xvec = 0 := hm.2.1
      unfold State.takeTrap; rw [thread_of_some _ _ hx]; simp only [hm.1, hm.2.2, if_neg h0]; rfl
    cases after <;> exact this
  have := makes_of_turn h he (x := x.trapEntry inf after) (by rw [e, thread?_setThread_self])
  refine this.mono (fun y hy => by rw [hy]; exact trapEntry_trapped _ _ _) (fun y hy => ?_) (fun u hu => ?_)
  · rw [e] at hy; exact ((calm_unplace s1 t).trans (calm_setThread _ _ _)).trans hy
  · rw [e, thread?_setThread, if_neg (Ne.symm hu)]; rfl

/-- An exact fault before any effect. -/
theorem faults_of {i : Instr} {s : State} {t : TRef} (h : Alone i s t) (hm : MayTrap s t) {f : State → TRef → State × Fate}
    (he : exec i s = issueEach i s f) {inf : TrapInfo} (hf : f s t = (s, .trap inf)) : Faults i s t inf := by
  obtain ⟨⟨th, hth⟩, hr, -⟩ := ready_parts h.2
  have e := thread_of_some _ _ hth
  unfold MayTrap at hm
  rw [e] at hm hr
  have := makes_trap h he (after := false) (by rw [hf]; rfl) hth hr hm
  unfold Faults
  rw [e]
  exact this

/-! ## Loads -/

/-- The thread of a lone group. -/
theorem alone_thread {i : Instr} {s : State} {t : TRef} (h : Alone i s t) : ∃ th, s.thread? t = some th ∧ s.thread t = th ∧ th.st = .running := by
  obtain ⟨⟨th, hth⟩, hr, -⟩ := ready_parts h.2
  have e := thread_of_some _ _ hth
  exact ⟨th, hth, e, e ▸ hr⟩

/-- A translation that is kept changes nothing but what is cached of translations. -/
theorem noteXlate_calm (s : State) c o va : Calm s (noteXlate s c o va) ∧ (noteXlate s c o va).threads = s.threads := by
  unfold noteXlate
  split
  · exact ⟨Calm.refl _, rfl⟩
  · split
    · exact ⟨Calm.refl _, rfl⟩
    · simp only
      refine ⟨Calm.trans ?_ (calm_modCore _ _ _ rfl), ?_⟩
      · split
        · exact Calm.refl _
        · exact ⟨rfl, fun _ => rfl⟩
      · rw [modCore_threads]; split <;> rfl

/-- A memory instruction of a thread alone whose SC operation does not have to wait. -/
theorem issueMem_alone {i : Instr} {s : State} {t : TRef} (h : Alone i s t) (hs : s.scStuck t = false)
    (g : State → TRef → Thread → Except TrapInfo State) : issueMem i s g = issueEach i s (memTurn g) := by
  unfold issueMem
  rw [issueEach_clean h.clean, issueWith_clean h.clean]
  simp [State.stuckHold, h.1, hs]

/-- A load whose value is taken when it lands leaves its group outstanding and changes nothing else. -/
theorem makes_load {i s t} (h : Alone i s t) {g : State → TRef → Thread → Except TrapInfo State} (he : exec i s = issueMem i s g)
   {s1 : State} {d n parts fin ld} (hg : g s t (s.thread t) = .ok (s1.loadAt t d n false parts fin ld)) (hc : Calm s s1) (ht : s1.threads = s.threads)
   (hb : ∀ p ∈ parts, p.loc.loose = true) (hs : (s.thread t).stores = []) (hsc : (s.thread t).sc = none) :
   Makes i s t (fun th' => Delivered i { s.thread t with outs := (s.thread t).outs ++ [{ base := d, n := n, named := false, past := false, exempt := false, ld := ld, src := .load parts fin }] } th' {}) (Calm s) := by
  obtain ⟨th, h1, h2, h3⟩ := alone_thread h
  rw [h2] at hs hsc
  have h1' : s1.thread? t = some th := by unfold State.thread?; rw [ht]; exact h1
  have h2' := thread_of_some _ _ h1'
  have f1 : ∀ l n, s1.flushMeeting t l n = s1 := by intro l n; unfold State.flushMeeting; rw [h2', hs]; rfl
  have f2 : ∀ l n, s1.scMeeting t l n = s1 := by intro l n; unfold State.scMeeting; rw [h2', hsc]
  have f3 : parts.foldl (fun s p => (s.flushMeeting t p.loc p.n).scMeeting t p.loc p.n) s1 = s1 := by
    generalize parts = l
    induction l with
    | nil => rfl
    | cons a l ih => rw [List.foldl_cons, f1, f2, ih]
  have hload : s1.loadAt t d n false parts fin ld = s1.setThread t { th with outs := th.outs ++ [{ base := d, n := n, named := false, past := false, exempt := false, ld := ld, src := .load parts fin }] } := by
    unfold State.loadAt
    rw [f3]
    simp only [Bool.false_eq_true, if_false]
    rw [modThread_of_some _ _ _ h1', if_pos]
    rw [List.all_eq_true]
    exact hb
  have e : memTurn g s t = (s1.setThread t { th with outs := th.outs ++ [{ base := d, n := n, named := false, past := false, exempt := false, ld := ld, src := .load parts fin }] }, .go) := by
    unfold memTurn; rw [hg, hload]
  have := makes_go h (f := memTurn g) (he.trans (issueMem_alone h (by unfold State.scStuck; rw [h2, hsc]; rfl) g)) e (thread?_setThread_self _ _ _) h3
  refine this.mono ?_ ?_ ?_
  · rintro y rfl
    rw [h2]
    exact delivered_none i { th with outs := th.outs ++ [{ base := d, n := n, named := false, past := false, exempt := false, ld := ld, src := .load parts fin }] }
  · intro y hy; exact (hc.trans (calm_setThread _ _ _)).trans hy
  · intro u hu; rw [thread?_setThread, if_neg (Ne.symm hu)]; unfold State.thread?; rw [ht]

end Sys2Proof.Machine
end

