-- ==== Sys2Proof/Laws/Memory.lean ====
section
/-! SUPPORT. Laws of memory: a byte written is the byte read, other bytes stay, equal memories are equal lists, and every operation that
writes bytes keeps the canonical form. -/

namespace Sys2Proof.Machine

/-! ## The list of cells -/

theorem cellsAbove_weaken {m : List Host.Cell} {a b : Nat} (h : cellsAbove (some b) m = true) (hab : a ≤ b) : cellsAbove (some a) m = true := by
  cases m with
  | nil => rfl
  | cons c r =>
    obtain ⟨k, v⟩ := c
    simp only [cellsAbove, Bool.and_eq_true, decide_eq_true_eq] at h ⊢
    exact ⟨⟨by omega, h.1.2⟩, h.2⟩

theorem cellsAbove_none {m : List Host.Cell} {b : Nat} (h : cellsAbove (some b) m = true) : Memory.wf m = true := by
  cases m with
  | nil => rfl
  | cons c r =>
    obtain ⟨k, v⟩ := c
    simp only [Memory.wf, cellsAbove, Bool.and_eq_true, decide_eq_true_eq] at h ⊢
    exact ⟨⟨trivial, h.1.2⟩, h.2⟩

theorem cellGet_below {m : List Host.Cell} {b a : Nat} (h : cellsAbove (some b) m = true) (hab : a ≤ b) : cellGet m a = 0 := by
  cases m with
  | nil => rfl
  | cons c r =>
    obtain ⟨k, v⟩ := c
    simp only [cellsAbove, Bool.and_eq_true, decide_eq_true_eq] at h
    have h1 : a ≠ k := by omega
    have h2 : a < k := by omega
    simp [cellGet, h1, h2]

theorem cellsAbove_cellSet {m : List Host.Cell} {b a : Nat} {v : Byte} (h : cellsAbove (some b) m = true) (hab : b < a) :
    cellsAbove (some b) (cellSet m a v) = true := by
  induction m generalizing b with
  | nil => by_cases hv : v = 0#8 <;> simp [cellSet, cellsAbove, hv, hab]
  | cons c r ih =>
    obtain ⟨k, w⟩ := c
    simp only [cellsAbove, Bool.and_eq_true, decide_eq_true_eq] at h
    obtain ⟨⟨hk, hw⟩, hr⟩ := h
    replace hw : ¬w = 0#8 := hw
    by_cases h1 : a < k
    · by_cases hv : v = 0#8 <;> simp [cellSet, cellsAbove, h1, hv, hk, hw, hr, hab]
    · by_cases h2 : a = k
      · subst h2
        by_cases hv : v = 0#8
        · simpa [cellSet, hv] using cellsAbove_weaken hr (Nat.le_of_lt hk)
        · simp [cellSet, cellsAbove, hv, hk, hr]
      · have h3 : k < a := by omega
        simp [cellSet, cellsAbove, h1, h2, hk, hw, ih hr h3]

/-- Writing a byte keeps the canonical form. -/
theorem wf_cellSet {m : List Host.Cell} (h : Memory.wf m = true) (a : Nat) (v : Byte) : Memory.wf (cellSet m a v) = true := by
  cases m with
  | nil => by_cases hv : v = 0#8 <;> simp [cellSet, Memory.wf, cellsAbove, hv]
  | cons c r =>
    obtain ⟨k, w⟩ := c
    simp only [Memory.wf, cellsAbove, Bool.and_eq_true, decide_eq_true_eq] at h
    obtain ⟨⟨-, hw⟩, hr⟩ := h
    replace hw : ¬w = 0#8 := hw
    by_cases h1 : a < k
    · by_cases hv : v = 0#8 <;> simp [cellSet, Memory.wf, cellsAbove, h1, hv, hw, hr]
    · by_cases h2 : a = k
      · subst h2
        by_cases hv : v = 0#8
        · simpa [cellSet, hv] using cellsAbove_none hr
        · simp [cellSet, Memory.wf, cellsAbove, hv, hr]
      · have h3 : k < a := by omega
        simp [cellSet, Memory.wf, cellsAbove, h1, h2, hw, cellsAbove_cellSet hr h3]

/-- A byte written is read back, and every other byte is as before. -/
theorem cellGet_cellSet {m : List Host.Cell} (h : Memory.wf m = true) (a : Nat) (v : Byte) (x : Nat) :
    cellGet (cellSet m a v) x = if x = a then v else cellGet m x := by
  induction m with
  | nil => by_cases hv : v = 0#8 <;> by_cases hx : x = a <;> simp [cellSet, cellGet, hv, hx]
  | cons c r ih =>
    obtain ⟨k, w⟩ := c
    simp only [Memory.wf, cellsAbove, Bool.and_eq_true, decide_eq_true_eq] at h
    obtain ⟨⟨-, hw⟩, hr⟩ := h
    replace hw : ¬w = 0#8 := hw
    by_cases h1 : a < k
    · have h2 : a ≠ k := by omega
      by_cases hx : x = a
      · subst hx; by_cases hv : v = 0#8 <;> simp [cellSet, cellGet, h1, h2, hv]
      · by_cases hv : v = 0#8
        · simp [cellSet, cellGet, h1, hv, hx]
        · by_cases hxa : x < a
          · have h3 : x ≠ k := by omega
            have h4 : x < k := by omega
            simp [cellSet, cellGet, h1, hv, hx, hxa, h3, h4]
          · simp [cellSet, cellGet, h1, hv, hx, hxa]
    · by_cases h2 : a = k
      · subst h2
        by_cases hv : v = 0#8
        · by_cases hx : x = a
          · subst hx; simp [cellSet, hv, cellGet_below hr (Nat.le_refl _)]
          · by_cases hxa : x < a
            · simp [cellSet, cellGet, hv, hx, hxa, cellGet_below hr (Nat.le_of_lt hxa)]
            · simp [cellSet, cellGet, hv, hx, hxa]
        · by_cases hx : x = a <;> simp [cellSet, cellGet, hv, hx]
      · by_cases hxk : x = k
        · subst hxk; simp [cellSet, cellGet, h1, h2, Ne.symm h2]
        · by_cases hx : x < k
          · have h3 : x ≠ a := by omega
            simp [cellSet, cellGet, h1, h2, hxk, hx, h3]
          · simp [cellSet, cellGet, h1, h2, hxk, hx, ih (cellsAbove_none hr)]

/-- Two memories in canonical form that read the same everywhere are the same list. -/
theorem wf_ext {m n : List Host.Cell} (hm : Memory.wf m = true) (hn : Memory.wf n = true) (h : ∀ a, cellGet m a = cellGet n a) : m = n := by
  induction m generalizing n with
  | nil =>
    cases n with
    | nil => rfl
    | cons c r =>
      obtain ⟨k, v⟩ := c
      simp only [Memory.wf, cellsAbove, Bool.and_eq_true, decide_eq_true_eq] at hn
      exact absurd (by simpa [cellGet] using (h k).symm) hn.1.2
  | cons c r ih =>
    obtain ⟨k, v⟩ := c
    simp only [Memory.wf, cellsAbove, Bool.and_eq_true, decide_eq_true_eq] at hm
    obtain ⟨⟨-, hv⟩, hr⟩ := hm
    cases n with
    | nil => exact absurd (by simpa [cellGet] using h k) hv
    | cons d q =>
      obtain ⟨j, w⟩ := d
      simp only [Memory.wf, cellsAbove, Bool.and_eq_true, decide_eq_true_eq] at hn
      obtain ⟨⟨-, hw⟩, hq⟩ := hn
      have hkj : k = j := by
        rcases Nat.lt_trichotomy k j with hlt | heq | hgt
        · have hne : k ≠ j := by omega
          exact absurd (by simpa [cellGet, hne, hlt] using h k) hv
        · exact heq
        · have hne : j ≠ k := by omega
          exact absurd (by simpa [cellGet, hne, hgt] using (h j).symm) hw
      subst hkj
      have hvw : v = w := by simpa [cellGet] using h k
      subst hvw
      have : r = q := by
        apply ih (cellsAbove_none hr) (cellsAbove_none hq)
        intro a
        by_cases ha : a ≤ k
        · rw [cellGet_below hr ha, cellGet_below hq ha]
        · have h1 : a ≠ k := by omega
          have h2 : ¬a < k := by omega
          simpa [cellGet, h1, h2] using h a
      rw [this]

theorem wf_cellWrite {m : List Host.Cell} (h : Memory.wf m = true) (a : Nat) (bs : List Byte) : Memory.wf (cellWrite m a bs) = true := by
  induction bs generalizing m a with
  | nil => exact h
  | cons b bs ih => exact ih (wf_cellSet h a b) (a + 1)

/-- Bytes written are read back, and every other byte is as before. -/
theorem cellGet_cellWrite {m : List Host.Cell} (h : Memory.wf m = true) (a : Nat) (bs : List Byte) (x : Nat) :
    cellGet (cellWrite m a bs) x = if a ≤ x ∧ x < a + bs.length then bs.getD (x - a) 0 else cellGet m x := by
  induction bs generalizing m a with
  | nil => simp [cellWrite]
  | cons b bs ih =>
    rw [cellWrite, ih (wf_cellSet h a b), cellGet_cellSet h]
    by_cases h1 : x = a
    · subst h1
      have h2 : ¬(x + 1 ≤ x ∧ x < x + 1 + bs.length) := by omega
      have h3 : x ≤ x ∧ x < x + (b :: bs).length := by simp
      simp
    · by_cases h2 : a + 1 ≤ x ∧ x < a + 1 + bs.length
      · have h3 : a ≤ x ∧ x < a + (b :: bs).length := by simp only [List.length_cons]; omega
        have h4 : x - a = (x - (a + 1)) + 1 := by omega
        rw [if_pos h2, if_pos h3, h4]; rfl
      · have h3 : ¬(a ≤ x ∧ x < a + (b :: bs).length) := by simp only [List.length_cons]; omega
        rw [if_neg h2, if_neg h3, if_neg h1]

theorem wf_norm_go {l m : List Host.Cell} (h : Memory.wf m = true) : Memory.wf (l.foldl (fun m x => cellSet m x.1 x.2) m) = true := by
  induction l generalizing m with
  | nil => exact h
  | cons c r ih => exact ih (wf_cellSet h c.1 c.2)

/-- Normalised cells are in canonical form. -/
theorem wf_norm (l : List Host.Cell) : Memory.wf (Memory.norm l) = true := wf_norm_go rfl

theorem cellsAbove_filter (p : Host.Cell → Bool) {m : List Host.Cell} {b : Nat} (h : cellsAbove (some b) m = true) :
    cellsAbove (some b) (m.filter p) = true := by
  induction m generalizing b with
  | nil => rfl
  | cons c r ih =>
    obtain ⟨k, v⟩ := c
    simp only [cellsAbove, Bool.and_eq_true, decide_eq_true_eq] at h
    obtain ⟨⟨hk, hv⟩, hr⟩ := h
    replace hv : ¬v = 0#8 := hv
    by_cases hp : p (k, v) = true
    · simp [List.filter, hp, cellsAbove, hk, hv, ih hr]
    · simpa [List.filter, hp] using cellsAbove_weaken (ih hr) (Nat.le_of_lt hk)

/-- Dropping cells keeps the canonical form. -/
theorem wf_filter (p : Host.Cell → Bool) {m : List Host.Cell} (h : Memory.wf m = true) : Memory.wf (m.filter p) = true := by
  cases m with
  | nil => rfl
  | cons c r =>
    obtain ⟨k, v⟩ := c
    simp only [Memory.wf, cellsAbove, Bool.and_eq_true, decide_eq_true_eq] at h
    obtain ⟨⟨-, hv⟩, hr⟩ := h
    replace hv : ¬v = 0#8 := hv
    by_cases hp : p (k, v) = true
    · simp [List.filter, hp, Memory.wf, cellsAbove, hv, cellsAbove_filter p hr]
    · simpa [List.filter, hp] using cellsAbove_none (cellsAbove_filter p hr)

theorem wf_memMerge {m : List Host.Cell} (h : Memory.wf m = true) (base : Nat) (bs : List LByte) : Memory.wf (memMerge m base bs) = true := by
  induction bs generalizing m with
  | nil => exact h
  | cons b bs ih =>
    rw [memMerge]
    by_cases hd : b.dirty = true
    · rw [if_pos hd]; exact ih (wf_cellSet h _ _)
    · rw [if_neg hd]; exact ih h

/-! ## The invariant over the operations of the machine -/

/-- Nothing that the invariant speaks of differs. -/
theorem MemInv.unchanged {s s' : State} (hi : MemInv s) (hm : s'.mem = s.mem := by rfl) (hb : s'.blocks = s.blocks := by rfl)
    (hs : s'.shadow = s.shadow := by rfl) (hp : s'.parked = s.parked := by rfl) : MemInv s' where
  mem := hm ▸ hi.mem
  scratch := hb ▸ hi.scratch
  saved := by rw [hs, hp]; exact hi.saved

/-- Only memory differs, and it is in canonical form. -/
theorem MemInv.withMem {s : State} (hi : MemInv s) {s' : State} (hm : Memory.wf s'.mem = true) (hb : s'.blocks = s.blocks)
    (hs : s'.shadow = s.shadow) (hp : s'.parked = s.parked) : MemInv s' where
  mem := hm
  scratch := hb ▸ hi.scratch
  saved := by rw [hs, hp]; exact hi.saved

theorem MemInv.foldl {α : Type} {f : State → α → State} (hf : ∀ s x, MemInv s → MemInv (f s x)) (l : List α) {s : State} (hi : MemInv s) :
    MemInv (l.foldl f s) := by
  induction l generalizing s with
  | nil => exact hi
  | cons x r ih => exact ih (hf s x hi)

theorem memInv_fireLine {s : State} (hi : MemInv s) (ln : Nat) (spur : Bool) : MemInv (fireLine s ln spur) :=
  MemInv.unchanged hi

theorem memInv_modCore {s : State} (hi : MemInv s) (c : Nat) (f : Core → Core) : MemInv (s.modCore c f) :=
  MemInv.unchanged hi

theorem memInv_l2Evict {s : State} (hi : MemInv s) (ln : Nat) : MemInv (l2Evict s ln) := by
  unfold l2Evict
  split
  · exact hi
  · exact hi.withMem (wf_memMerge hi.mem _ _) rfl rfl rfl

theorem memInv_l2Clean {s : State} (hi : MemInv s) (ln : Nat) : MemInv (l2Clean s ln) := by
  unfold l2Clean
  split
  · exact hi
  · exact hi.withMem (wf_memMerge hi.mem _ _) rfl rfl rfl

theorem memInv_l2CmpDrop {s : State} (hi : MemInv s) (ln : Nat) (cmp : Bool) : MemInv (l2CmpDrop s ln cmp) := by
  unfold l2CmpDrop
  split
  · split
    · exact hi
    · exact memInv_l2Evict hi ln
  · exact hi

theorem memInv_l2Alloc {s : State} (hi : MemInv s) (o : Own) (ln : Nat) (cmp : Bool) : MemInv (l2Alloc s o ln cmp) := by
  unfold l2Alloc
  split
  · split
    · exact MemInv.unchanged hi
    · exact hi
  · have key : ∀ place : Option (Nat × Option CLine), MemInv (match place with
        | none => s
        | some (w, v) =>
          let s := match v with | none => s | some v => l2Evict s v.line
          { s with l2 := linePut s.l2 (CLine.fresh o ln w s.clock cmp (floorOf s o.part ln)) }) := by
      intro place
      match place with
      | none => exact hi
      | some (w, none) => exact MemInv.unchanged hi
      | some (w, some v) => exact MemInv.unchanged (memInv_l2Evict hi v.line)
    exact key _

theorem memInv_homeFill {s : State} (hi : MemInv s) (o : Own) (ln : Nat) (cmp : Bool) : MemInv (homeFill s o ln cmp) := by
  have h := memInv_l2Alloc (memInv_l2CmpDrop hi ln cmp) o ln cmp
  unfold homeFill
  simp only
  split
  · exact h
  · exact MemInv.unchanged h

theorem memInv_homeStore1 {s : State} (hi : MemInv s) (o : Own) (pa : Nat) (cmp : Bool) (v : Byte) : MemInv (homeStore1 s o pa cmp v) := by
  have h := memInv_l2Alloc (memInv_l2CmpDrop hi (pa / 128) cmp) o (pa / 128) cmp
  unfold homeStore1
  simp only
  split
  · exact MemInv.unchanged h
  · exact h.withMem (wf_cellSet h.mem _ _) rfl rfl rfl

theorem memInv_homeStoreAll {s : State} (hi : MemInv s) (o : Own) (cmp : Bool) (pa : Nat) (bs : List Byte) :
    MemInv (homeStoreAll s o cmp pa bs) := by
  induction bs generalizing s pa with
  | nil => exact hi
  | cons b bs ih => exact ih (memInv_homeStore1 hi o pa cmp b) (pa + 1)

theorem memInv_homeStore {s : State} (hi : MemInv s) (o : Own) (pa : Nat) (cmp : Bool) (bs : List Byte) : MemInv (homeStore s o pa cmp bs) :=
  MemInv.unchanged
    (MemInv.foldl (fun _ ln h => memInv_fireLine h ln false) (linesOf pa bs.length) (memInv_homeStoreAll hi o cmp pa bs))

theorem memInv_mergeHome {s : State} (hi : MemInv s) (o : Own) (cmp : Bool) (base : Nat) (bs : List LByte) : MemInv (mergeHome s o cmp base bs) := by
  induction bs generalizing s with
  | nil => exact hi
  | cons b bs ih =>
    rw [mergeHome]
    by_cases hd : b.dirty = true
    · rw [if_pos hd]; exact ih (memInv_homeStore1 hi o _ cmp b.val)
    · rw [if_neg hd]; exact ih hi

theorem memInv_writeHome {s : State} (hi : MemInv s) (o : Own) (l : CLine) : MemInv (writeHome s o l) := by
  unfold writeHome
  split
  · exact MemInv.unchanged (memInv_fireLine (memInv_mergeHome hi o l.cmp _ _) l.line false)
  · exact hi

theorem memInv_rdcClean {s : State} (hi : MemInv s) (d ln : Nat) : MemInv (rdcClean s d ln) := by
  unfold rdcClean
  split
  · exact hi
  · exact MemInv.unchanged (memInv_writeHome hi _ _)

theorem memInv_rdcDrop {s : State} (hi : MemInv s) (d ln : Nat) : MemInv (rdcDrop s d ln) :=
  MemInv.unchanged (memInv_rdcClean hi d ln)

theorem memInv_rdcAlloc {s : State} (hi : MemInv s) (o : Own) (d ln : Nat) (cmp : Bool) : MemInv (rdcAlloc s o d ln cmp) := by
  have h : MemInv (match rdcfind s d ln with | some l => if l.cmp = cmp then s else rdcDrop s d ln | none => s) := by
    split
    · split
      · exact hi
      · exact memInv_rdcDrop hi d ln
    · exact hi
  have key : ∀ s1 : State, MemInv s1 → MemInv (match rdcfind s1 d ln with
      | some l => if (rdcWays s1 o).contains l.way then { s1 with rdc := tput s1.rdc (d, ln) { l with age := s1.clock } } else s1
      | none =>
        match placeIn ((s1.rdc.filter fun x => x.1.1 = d ∧ x.1.2 % 16384 = ln % 16384).map Prod.snd) (rdcWays s1 o) with
        | none => s1
        | some (w, v) =>
          let s2 := match v with | none => s1 | some v => rdcDrop s1 d v.line
          { s2 with rdc := tput s2.rdc (d, ln) (CLine.fresh o ln w s2.clock cmp {}) }) := by
    intro s1 h1
    split
    · split
      · exact MemInv.unchanged h1
      · exact h1
    · split
      · exact h1
      · rename_i w v _
        cases v with
        | none => exact MemInv.unchanged h1
        | some v => exact MemInv.unchanged (memInv_rdcDrop h1 d v.line)
  exact key _ h

theorem memInv_belowLine {s : State} (hi : MemInv s) (o : Own) (d ln : Nat) (cmp : Bool) : MemInv (belowLine s o d ln cmp).1 := by
  unfold belowLine
  split
  · exact memInv_homeFill hi o ln cmp
  · have h := memInv_rdcAlloc hi o d ln cmp
    simp only
    split
    · exact memInv_homeFill h o ln cmp
    · split
      · exact MemInv.unchanged h
      · exact MemInv.unchanged (memInv_homeFill h o ln cmp)

theorem memInv_writeBelow {s : State} (hi : MemInv s) (o : Own) (d : Nat) (l : CLine) : MemInv (writeBelow s o d l) := by
  unfold writeBelow
  split
  · exact hi
  · split
    · exact memInv_writeHome hi o l
    · have h := memInv_rdcAlloc hi o d l.line l.cmp
      simp only
      split
      · exact memInv_writeHome h o l
      · exact MemInv.unchanged h

theorem memInv_l1Clean {s : State} (hi : MemInv s) (c ln : Nat) : MemInv (l1Clean s c ln) := by
  unfold l1Clean
  split
  · exact hi
  · exact memInv_modCore (memInv_writeBelow hi _ _ _) c _

theorem memInv_l1Drop {s : State} (hi : MemInv s) (c ln : Nat) : MemInv (l1Drop s c ln) := by
  unfold l1Drop; exact memInv_modCore (memInv_l1Clean hi c ln) c _

theorem memInv_l1Alloc {s : State} (hi : MemInv s) (o : Own) (c ln : Nat) (cmp : Bool) : MemInv (l1Alloc s o c ln cmp) := by
  have h : MemInv (match l1find s c ln with | some l => if l.cmp = cmp then s else l1Drop s c ln | none => s) := by
    split
    · split
      · exact hi
      · exact memInv_l1Drop hi c ln
    · exact hi
  have key : ∀ s1 : State, MemInv s1 → MemInv (match l1find s1 c ln with
      | some l => s1.modCore c fun x => { x with l1 := linePut x.l1 { l with age := s1.clock } }
      | none =>
        match placeIn ((s1.core c).l1.filter fun l => l.line % 128 = ln % 128) (cacheWays s1 c) with
        | none => s1
        | some (w, v) =>
          let s2 := match v with | none => s1 | some v => l1Drop s1 c v.line
          s2.modCore c fun x => { x with l1 := linePut x.l1 (CLine.fresh o ln w s2.clock cmp {}) }) := by
    intro s1 h1
    split
    · exact memInv_modCore h1 c _
    · split
      · exact h1
      · rename_i w v _
        cases v with
        | none => exact memInv_modCore h1 c _
        | some v => exact memInv_modCore (memInv_l1Drop h1 c v.line) c _
  exact key _ h

theorem memInv_l1Store {s : State} (hi : MemInv s) (o : Own) (c pa : Nat) (cmp : Bool) (bs : List Byte) : MemInv (l1Store s o c pa cmp bs) := by
  have h := memInv_l1Alloc hi o c (pa / 128) cmp
  unfold l1Store
  simp only
  split
  · exact memInv_homeStore h o pa cmp bs
  · exact memInv_modCore h c _

theorem memInv_l1Load {s : State} (hi : MemInv s) (o : Own) (c pa n : Nat) (cmp : Bool) : MemInv (l1Load s o c pa n cmp).1 := by
  have h := memInv_l1Alloc hi o c (pa / 128) cmp
  unfold l1Load
  simp only
  split
  · exact memInv_homeFill h o _ cmp
  · split
    · exact MemInv.unchanged h
    · exact MemInv.unchanged (memInv_belowLine h o (dieOf c) (pa / 128) cmp)

theorem memInv_dropCopies {s : State} (hi : MemInv s) (c ln : Nat) : MemInv (dropCopies s c ln) := memInv_rdcDrop (memInv_l1Drop hi c ln) _ ln

theorem mem_tput {κ α : Type} [DecidableEq κ] {l : List (κ × α)} {k : κ} {v : α} {x : κ × α} (h : x ∈ tput l k v) : x ∈ l ∨ x = (k, v) := by
  induction l with
  | nil => simpa [tput] using h
  | cons p r ih =>
    obtain ⟨a, w⟩ := p
    by_cases hk : a = k
    · subst hk
      simp only [tput, if_true, List.mem_cons] at h ⊢
      rcases h with h | h
      · exact Or.inr h
      · exact Or.inl (Or.inr h)
    · simp only [tput, hk, if_false, List.mem_cons] at h ⊢
      rcases h with h | h
      · exact Or.inl (Or.inl h)
      · rcases ih h with h' | h'
        · exact Or.inl (Or.inr h')
        · exact Or.inr h'

theorem mem_of_tget {κ α : Type} [DecidableEq κ] {l : List (κ × α)} {k : κ} {v : α} (h : tget l k = some v) : (k, v) ∈ l := by
  induction l with
  | nil => simp at h
  | cons p r ih =>
    obtain ⟨a, w⟩ := p
    by_cases hk : a = k
    · subst hk; simp [tget] at h; simp [h]
    · simp [tget, hk] at h; exact List.mem_cons_of_mem _ (ih h)

/-- A block that is changed keeps the invariant when its cells stay canonical. -/
theorem memInv_modBlock {s : State} (hi : MemInv s) (b : BRef) (f : Block → Block)
    (hf : ∀ x : Block, Memory.wf x.cells = true → Memory.wf (f x).cells = true) : MemInv (s.modBlock b f) := by
  unfold State.modBlock
  split
  · exact hi
  · rename_i x hx
    refine ⟨hi.mem, ?_, hi.saved⟩
    intro y hy
    rcases mem_tput hy with h | h
    · exact hi.scratch y h
    · rw [h]; exact hf x (hi.scratch (b, x) (mem_of_tget hx))

theorem memInv_scrWrite {s : State} (hi : MemInv s) (b : BRef) (off : Nat) (bs : List Byte) : MemInv (scrWrite s b off bs) :=
  memInv_modBlock hi b _ fun _ h => wf_cellWrite h off bs

theorem memInv_devWrite {s : State} (hi : MemInv s) (o : Own) (pa : Nat) (bs : List Byte) : MemInv (devWrite s o pa bs) := by
  unfold devWrite
  split
  · exact MemInv.unchanged hi
  · exact hi

theorem memInv_uncache {s : State} (hi : MemInv s) (c ln : Nat) : MemInv (uncache s c ln) := memInv_l2Evict (memInv_dropCopies hi c ln) ln

theorem memInv_memStore {s : State} (hi : MemInv s) (pa : Nat) (bs : List Byte) : MemInv (memStore s pa bs) :=
  have h : MemInv { s with mem := cellWrite s.mem pa bs } := hi.withMem (wf_cellWrite hi.mem pa bs) rfl rfl rfl
  MemInv.unchanged (MemInv.foldl (fun _ ln h => memInv_fireLine h ln false) (linesOf pa bs.length) h)

/-- A store of a thread at a location keeps the invariant. -/
theorem memInv_writeLoc {s : State} (hi : MemInv s) (o : Own) (c : Nat) (l : Loc) (bs : List Byte) : MemInv (writeLoc s o c l bs) := by
  unfold writeLoc
  split
  · exact memInv_scrWrite hi _ _ bs
  · split
    · exact memInv_devWrite hi o _ bs
    · split
      · exact memInv_l1Store hi o c _ _ bs
      · split
        · exact memInv_homeStore (memInv_dropCopies hi c _) o _ _ bs
        · exact memInv_memStore (memInv_uncache hi c _) _ bs

/-- A read of a thread at a location keeps the invariant. -/
theorem memInv_readLoc {s : State} (hi : MemInv s) (o : Own) (c : Nat) (l : Loc) (n : Nat) : MemInv (readLoc s o c l n).1 := by
  unfold readLoc
  split
  · exact hi
  · split
    · exact hi
    · split
      · exact memInv_l1Load hi o c _ n _
      · split
        · exact memInv_homeFill (memInv_dropCopies hi c _) o _ _
        · exact memInv_uncache hi c _

theorem memInv_hubByte {s : State} (hi : MemInv s) (pa : Nat) (v : Byte) : MemInv (hubByte s pa v) := by
  have h := memInv_l2CmpDrop hi (pa / 128) false
  unfold hubByte
  simp only
  split
  · exact MemInv.unchanged h
  · exact h.withMem (wf_cellSet h.mem _ _) rfl rfl rfl

theorem memInv_hubBytes {s : State} (hi : MemInv s) (pa : Nat) (bs : List Byte) : MemInv (hubBytes s pa bs) := by
  induction bs generalizing s pa with
  | nil => exact hi
  | cons b bs ih => exact ih (memInv_hubByte hi pa b) (pa + 1)

/-- A write of the hub keeps the invariant. -/
theorem memInv_hubStore {s : State} (hi : MemInv s) (pa : Nat) (bs : List Byte) : MemInv (hubStore s pa bs) :=
  MemInv.unchanged
    (MemInv.foldl (fun _ ln h => memInv_fireLine h ln false) (linesOf pa bs.length) (memInv_hubBytes hi pa bs))

/-- A notice keeps the invariant. -/
theorem memInv_notice {s : State} (hi : MemInv s) (p code tenant a0 a1 : Nat) : MemInv (s.notice p code tenant a0 a1) := by
  unfold State.notice
  simp only
  split
  · split
    · exact memInv_hubStore (MemInv.unchanged hi) _ _
    · exact MemInv.unchanged hi
  · exact MemInv.unchanged hi

theorem memInv_carveLess {s : State} (hi : MemInv s) (b : BRef) (want : Nat) : MemInv (s.carveLess b want) :=
  memInv_modBlock hi b _ fun _ h => wf_filter _ h

/-- The memory of the machine after reset is in canonical form. -/
theorem reset_memInv : MemInv State.reset where
  mem := rfl
  scratch := by simp [State.reset]
  saved := by simp [State.reset]

end Sys2Proof.Machine
end

