-- ==== Sys2Proof/Laws/PerInstr.lean ====
section
/-! SUPPORT. The family of statements about every constructor: the encoding of an instruction has the length that its L bit says (R35). -/

namespace Sys2Proof.Laws

/-- Bit 0 of the first byte. -/
def firstBit : List Byte → Bool
  | b :: _ => b.getLsbD 0
  | [] => false

theorem leBytes_length (k n : Nat) : (leBytes k n).length = k := by
  induction k generalizing n with
  | zero => rfl
  | succ k ih => simp [leBytes, ih]

theorem firstBit_leBytes (k n : Nat) : firstBit (leBytes (k + 1) n) = n.testBit 0 := by
  simp only [firstBit, leBytes, BitVec.getLsbD_ofNat]; simp

/-- The bytes of an encoding are as many as the length says, and bit 0 of the first says which length it is; an event has none (R35). -/
def ByteLength.Statement (i : Instr) : Prop :=
  (encode i).length = i.len ∧ firstBit (encode i) = decide (i.len = 4)

theorem ByteLength.of_none (i : Instr) (h : encodeWord i = .none) : ByteLength.Statement i := by
  simp [ByteLength.Statement, encode, Instr.len, h, EncWord.bytes, firstBit]

theorem ByteLength.of_short (i : Instr) (w : BitVec 16) (h : encodeWord i = .short w) (hw : w.getLsbD 0 = false) : ByteLength.Statement i := by
  simp only [ByteLength.Statement, encode, Instr.len, h, EncWord.bytes, leBytes_length, firstBit_leBytes, BitVec.testBit_toNat, hw]; simp

theorem ByteLength.of_long (i : Instr) (w : BitVec 32) (h : encodeWord i = .long w) (hw : w.getLsbD 0 = true) : ByteLength.Statement i := by
  simp only [ByteLength.Statement, encode, Instr.len, h, EncWord.bytes, leBytes_length, firstBit_leBytes, BitVec.testBit_toNat, hw]; simp

theorem ByteLength.add (b : BitVec 7) (a : BitVec 7) (n : Bool) (d : BitVec 7) (e : Bool) : ByteLength.Statement (.add b a n d e) :=
  ByteLength.of_long _ _ rfl (by rw [BitVec.getLsbD_append]; simp)

theorem ByteLength.sub (b : BitVec 7) (a : BitVec 7) (n : Bool) (d : BitVec 7) (e : Bool) : ByteLength.Statement (.sub b a n d e) :=
  ByteLength.of_long _ _ rfl (by rw [BitVec.getLsbD_append]; simp)

theorem ByteLength.and (b : BitVec 7) (a : BitVec 7) (n : Bool) (d : BitVec 7) (e : Bool) : ByteLength.Statement (.and b a n d e) :=
  ByteLength.of_long _ _ rfl (by rw [BitVec.getLsbD_append]; simp)

theorem ByteLength.or (b : BitVec 7) (a : BitVec 7) (n : Bool) (d : BitVec 7) (e : Bool) : ByteLength.Statement (.or b a n d e) :=
  ByteLength.of_long _ _ rfl (by rw [BitVec.getLsbD_append]; simp)

theorem ByteLength.xor (b : BitVec 7) (a : BitVec 7) (n : Bool) (d : BitVec 7) (e : Bool) : ByteLength.Statement (.xor b a n d e) :=
  ByteLength.of_long _ _ rfl (by rw [BitVec.getLsbD_append]; simp)

theorem ByteLength.andn (b : BitVec 7) (a : BitVec 7) (n : Bool) (d : BitVec 7) (e : Bool) : ByteLength.Statement (.andn b a n d e) :=
  ByteLength.of_long _ _ rfl (by rw [BitVec.getLsbD_append]; simp)

theorem ByteLength.minS (b : BitVec 7) (a : BitVec 7) (n : Bool) (d : BitVec 7) (e : Bool) : ByteLength.Statement (.minS b a n d e) :=
  ByteLength.of_long _ _ rfl (by rw [BitVec.getLsbD_append]; simp)

theorem ByteLength.maxS (b : BitVec 7) (a : BitVec 7) (n : Bool) (d : BitVec 7) (e : Bool) : ByteLength.Statement (.maxS b a n d e) :=
  ByteLength.of_long _ _ rfl (by rw [BitVec.getLsbD_append]; simp)

theorem ByteLength.minU (b : BitVec 7) (a : BitVec 7) (n : Bool) (d : BitVec 7) (e : Bool) : ByteLength.Statement (.minU b a n d e) :=
  ByteLength.of_long _ _ rfl (by rw [BitVec.getLsbD_append]; simp)

theorem ByteLength.maxU (b : BitVec 7) (a : BitVec 7) (n : Bool) (d : BitVec 7) (e : Bool) : ByteLength.Statement (.maxU b a n d e) :=
  ByteLength.of_long _ _ rfl (by rw [BitVec.getLsbD_append]; simp)

theorem ByteLength.absdS (b : BitVec 7) (a : BitVec 7) (n : Bool) (d : BitVec 7) (e : Bool) : ByteLength.Statement (.absdS b a n d e) :=
  ByteLength.of_long _ _ rfl (by rw [BitVec.getLsbD_append]; simp)

theorem ByteLength.addsatS (b : BitVec 7) (a : BitVec 7) (n : Bool) (d : BitVec 7) (e : Bool) : ByteLength.Statement (.addsatS b a n d e) :=
  ByteLength.of_long _ _ rfl (by rw [BitVec.getLsbD_append]; simp)

theorem ByteLength.shl (b : BitVec 7) (a : BitVec 7) (n : Bool) (d : BitVec 7) (e : Bool) : ByteLength.Statement (.shl b a n d e) :=
  ByteLength.of_long _ _ rfl (by rw [BitVec.getLsbD_append]; simp)

theorem ByteLength.shrU (b : BitVec 7) (a : BitVec 7) (n : Bool) (d : BitVec 7) (e : Bool) : ByteLength.Statement (.shrU b a n d e) :=
  ByteLength.of_long _ _ rfl (by rw [BitVec.getLsbD_append]; simp)

theorem ByteLength.shrS (b : BitVec 7) (a : BitVec 7) (n : Bool) (d : BitVec 7) (e : Bool) : ByteLength.Statement (.shrS b a n d e) :=
  ByteLength.of_long _ _ rfl (by rw [BitVec.getLsbD_append]; simp)

theorem ByteLength.rotl (b : BitVec 7) (a : BitVec 7) (n : Bool) (d : BitVec 7) (e : Bool) : ByteLength.Statement (.rotl b a n d e) :=
  ByteLength.of_long _ _ rfl (by rw [BitVec.getLsbD_append]; simp)

theorem ByteLength.mullo (b : BitVec 7) (a : BitVec 7) (n : Bool) (d : BitVec 7) (e : Bool) : ByteLength.Statement (.mullo b a n d e) :=
  ByteLength.of_long _ _ rfl (by rw [BitVec.getLsbD_append]; simp)

theorem ByteLength.mulhiS (b : BitVec 7) (a : BitVec 7) (n : Bool) (d : BitVec 7) (e : Bool) : ByteLength.Statement (.mulhiS b a n d e) :=
  ByteLength.of_long _ _ rfl (by rw [BitVec.getLsbD_append]; simp)

theorem ByteLength.mulhiU (b : BitVec 7) (a : BitVec 7) (n : Bool) (d : BitVec 7) (e : Bool) : ByteLength.Statement (.mulhiU b a n d e) :=
  ByteLength.of_long _ _ rfl (by rw [BitVec.getLsbD_append]; simp)

theorem ByteLength.mulwS (b : BitVec 7) (a : BitVec 7) (n : Bool) (d : BitVec 7) (e : Bool) : ByteLength.Statement (.mulwS b a n d e) :=
  ByteLength.of_long _ _ rfl (by rw [BitVec.getLsbD_append]; simp)

theorem ByteLength.mad (c : BitVec 2) (b : BitVec 5) (a : BitVec 7) (n : Bool) (d : BitVec 7) (e : Bool) : ByteLength.Statement (.mad c b a n d e) :=
  ByteLength.of_long _ _ rfl (by rw [BitVec.getLsbD_append]; simp)

theorem ByteLength.madwS (c : BitVec 2) (b : BitVec 5) (a : BitVec 7) (n : Bool) (d : BitVec 7) (e : Bool) : ByteLength.Statement (.madwS c b a n d e) :=
  ByteLength.of_long _ _ rfl (by rw [BitVec.getLsbD_append]; simp)

theorem ByteLength.dot4I8 (c : BitVec 2) (b : BitVec 5) (a : BitVec 7) (n : Bool) (d : BitVec 7) (e : Bool) : ByteLength.Statement (.dot4I8 c b a n d e) :=
  ByteLength.of_long _ _ rfl (by rw [BitVec.getLsbD_append]; simp)

theorem ByteLength.dot4N8 (c : BitVec 2) (b : BitVec 5) (a : BitVec 7) (n : Bool) (d : BitVec 7) (e : Bool) : ByteLength.Statement (.dot4N8 c b a n d e) :=
  ByteLength.of_long _ _ rfl (by rw [BitVec.getLsbD_append]; simp)

theorem ByteLength.addi (i : BitVec 9) (a : BitVec 7) (n : Bool) (d : BitVec 7) (e : Bool) : ByteLength.Statement (.addi i a n d e) :=
  ByteLength.of_long _ _ rfl (by rw [BitVec.getLsbD_append]; simp)

theorem ByteLength.andi (i : BitVec 9) (a : BitVec 7) (n : Bool) (d : BitVec 7) (e : Bool) : ByteLength.Statement (.andi i a n d e) :=
  ByteLength.of_long _ _ rfl (by rw [BitVec.getLsbD_append]; simp)

theorem ByteLength.ori (i : BitVec 9) (a : BitVec 7) (n : Bool) (d : BitVec 7) (e : Bool) : ByteLength.Statement (.ori i a n d e) :=
  ByteLength.of_long _ _ rfl (by rw [BitVec.getLsbD_append]; simp)

theorem ByteLength.xori (i : BitVec 9) (a : BitVec 7) (n : Bool) (d : BitVec 7) (e : Bool) : ByteLength.Statement (.xori i a n d e) :=
  ByteLength.of_long _ _ rfl (by rw [BitVec.getLsbD_append]; simp)

theorem ByteLength.shli (s : BitVec 5) (a : BitVec 7) (n : Bool) (d : BitVec 7) (e : Bool) : ByteLength.Statement (.shli s a n d e) :=
  ByteLength.of_long _ _ rfl (by rw [BitVec.getLsbD_append]; simp)

theorem ByteLength.shriU (s : BitVec 5) (a : BitVec 7) (n : Bool) (d : BitVec 7) (e : Bool) : ByteLength.Statement (.shriU s a n d e) :=
  ByteLength.of_long _ _ rfl (by rw [BitVec.getLsbD_append]; simp)

theorem ByteLength.shriS (s : BitVec 5) (a : BitVec 7) (n : Bool) (d : BitVec 7) (e : Bool) : ByteLength.Statement (.shriS s a n d e) :=
  ByteLength.of_long _ _ rfl (by rw [BitVec.getLsbD_append]; simp)

theorem ByteLength.rotli (s : BitVec 5) (a : BitVec 7) (n : Bool) (d : BitVec 7) (e : Bool) : ByteLength.Statement (.rotli s a n d e) :=
  ByteLength.of_long _ _ rfl (by rw [BitVec.getLsbD_append]; simp)

theorem ByteLength.movh (i : BitVec 16) (n : Bool) (d : BitVec 7) (e : Bool) : ByteLength.Statement (.movh i n d e) :=
  ByteLength.of_long _ _ rfl (by rw [BitVec.getLsbD_append]; simp)

theorem ByteLength.orl (i : BitVec 16) (n : Bool) (d : BitVec 7) (e : Bool) : ByteLength.Statement (.orl i n d e) :=
  ByteLength.of_long _ _ rfl (by rw [BitVec.getLsbD_append]; simp)

theorem ByteLength.bfeU (b : BitVec 7) (a : BitVec 7) (n : Bool) (d : BitVec 7) (e : Bool) : ByteLength.Statement (.bfeU b a n d e) :=
  ByteLength.of_long _ _ rfl (by rw [BitVec.getLsbD_append]; simp)

theorem ByteLength.bfeS (b : BitVec 7) (a : BitVec 7) (n : Bool) (d : BitVec 7) (e : Bool) : ByteLength.Statement (.bfeS b a n d e) :=
  ByteLength.of_long _ _ rfl (by rw [BitVec.getLsbD_append]; simp)

theorem ByteLength.bfi (b : BitVec 7) (a : BitVec 7) (n : Bool) (d : BitVec 7) (e : Bool) : ByteLength.Statement (.bfi b a n d e) :=
  ByteLength.of_long _ _ rfl (by rw [BitVec.getLsbD_append]; simp)

theorem ByteLength.permb (b : BitVec 7) (a : BitVec 7) (n : Bool) (d : BitVec 7) (e : Bool) : ByteLength.Statement (.permb b a n d e) :=
  ByteLength.of_long _ _ rfl (by rw [BitVec.getLsbD_append]; simp)

theorem ByteLength.popc (a : BitVec 7) (n : Bool) (d : BitVec 7) (e : Bool) : ByteLength.Statement (.popc a n d e) :=
  ByteLength.of_long _ _ rfl (by rw [BitVec.getLsbD_append]; simp)

theorem ByteLength.clz (a : BitVec 7) (n : Bool) (d : BitVec 7) (e : Bool) : ByteLength.Statement (.clz a n d e) :=
  ByteLength.of_long _ _ rfl (by rw [BitVec.getLsbD_append]; simp)

theorem ByteLength.brev (a : BitVec 7) (n : Bool) (d : BitVec 7) (e : Bool) : ByteLength.Statement (.brev a n d e) :=
  ByteLength.of_long _ _ rfl (by rw [BitVec.getLsbD_append]; simp)

theorem ByteLength.neg (a : BitVec 7) (n : Bool) (d : BitVec 7) (e : Bool) : ByteLength.Statement (.neg a n d e) :=
  ByteLength.of_long _ _ rfl (by rw [BitVec.getLsbD_append]; simp)

theorem ByteLength.icmp (w : BitVec 2) (b : BitVec 7) (a : BitVec 7) (c : BitVec 4) (p : BitVec 2) (e : Bool) : ByteLength.Statement (.icmp w b a c p e) :=
  ByteLength.of_long _ _ rfl (by rw [BitVec.getLsbD_append]; simp)

theorem ByteLength.sel (p : BitVec 2) (b : BitVec 7) (a : BitVec 7) (n : Bool) (d : BitVec 7) (e : Bool) : ByteLength.Statement (.sel p b a n d e) :=
  ByteLength.of_long _ _ rfl (by rw [BitVec.getLsbD_append]; simp)

theorem ByteLength.pand (b : BitVec 2) (a : BitVec 2) (d : BitVec 2) (e : Bool) : ByteLength.Statement (.pand b a d e) :=
  ByteLength.of_long _ _ rfl (by rw [BitVec.getLsbD_append]; simp)

theorem ByteLength.por (b : BitVec 2) (a : BitVec 2) (d : BitVec 2) (e : Bool) : ByteLength.Statement (.por b a d e) :=
  ByteLength.of_long _ _ rfl (by rw [BitVec.getLsbD_append]; simp)

theorem ByteLength.pxor (b : BitVec 2) (a : BitVec 2) (d : BitVec 2) (e : Bool) : ByteLength.Statement (.pxor b a d e) :=
  ByteLength.of_long _ _ rfl (by rw [BitVec.getLsbD_append]; simp)

theorem ByteLength.pnot (a : BitVec 2) (d : BitVec 2) (e : Bool) : ByteLength.Statement (.pnot a d e) :=
  ByteLength.of_long _ _ rfl (by rw [BitVec.getLsbD_append]; simp)

theorem ByteLength.fadd (b : BitVec 7) (a : BitVec 7) (n : Bool) (d : BitVec 7) (e : Bool) : ByteLength.Statement (.fadd b a n d e) :=
  ByteLength.of_long _ _ rfl (by rw [BitVec.getLsbD_append]; simp)

theorem ByteLength.fsub (b : BitVec 7) (a : BitVec 7) (n : Bool) (d : BitVec 7) (e : Bool) : ByteLength.Statement (.fsub b a n d e) :=
  ByteLength.of_long _ _ rfl (by rw [BitVec.getLsbD_append]; simp)

theorem ByteLength.fmul (b : BitVec 7) (a : BitVec 7) (n : Bool) (d : BitVec 7) (e : Bool) : ByteLength.Statement (.fmul b a n d e) :=
  ByteLength.of_long _ _ rfl (by rw [BitVec.getLsbD_append]; simp)

theorem ByteLength.fmax (b : BitVec 7) (a : BitVec 7) (n : Bool) (d : BitVec 7) (e : Bool) : ByteLength.Statement (.fmax b a n d e) :=
  ByteLength.of_long _ _ rfl (by rw [BitVec.getLsbD_append]; simp)

theorem ByteLength.ffma (c : BitVec 2) (b : BitVec 5) (a : BitVec 7) (n : Bool) (d : BitVec 7) (e : Bool) : ByteLength.Statement (.ffma c b a n d e) :=
  ByteLength.of_long _ _ rfl (by rw [BitVec.getLsbD_append]; simp)

theorem ByteLength.ffms (c : BitVec 2) (b : BitVec 5) (a : BitVec 7) (n : Bool) (d : BitVec 7) (e : Bool) : ByteLength.Statement (.ffms c b a n d e) :=
  ByteLength.of_long _ _ rfl (by rw [BitVec.getLsbD_append]; simp)

theorem ByteLength.fnfma (c : BitVec 2) (b : BitVec 5) (a : BitVec 7) (n : Bool) (d : BitVec 7) (e : Bool) : ByteLength.Statement (.fnfma c b a n d e) :=
  ByteLength.of_long _ _ rfl (by rw [BitVec.getLsbD_append]; simp)

theorem ByteLength.fmad2 (c : BitVec 2) (b : BitVec 5) (a : BitVec 7) (n : Bool) (d : BitVec 7) (e : Bool) : ByteLength.Statement (.fmad2 c b a n d e) :=
  ByteLength.of_long _ _ rfl (by rw [BitVec.getLsbD_append]; simp)

theorem ByteLength.fmin (b : BitVec 7) (a : BitVec 7) (n : Bool) (d : BitVec 7) (e : Bool) : ByteLength.Statement (.fmin b a n d e) :=
  ByteLength.of_long _ _ rfl (by rw [BitVec.getLsbD_append]; simp)

theorem ByteLength.fcopysign (b : BitVec 7) (a : BitVec 7) (n : Bool) (d : BitVec 7) (e : Bool) : ByteLength.Statement (.fcopysign b a n d e) :=
  ByteLength.of_long _ _ rfl (by rw [BitVec.getLsbD_append]; simp)

theorem ByteLength.fabs (a : BitVec 7) (n : Bool) (d : BitVec 7) (e : Bool) : ByteLength.Statement (.fabs a n d e) :=
  ByteLength.of_long _ _ rfl (by rw [BitVec.getLsbD_append]; simp)

theorem ByteLength.fneg (a : BitVec 7) (n : Bool) (d : BitVec 7) (e : Bool) : ByteLength.Statement (.fneg a n d e) :=
  ByteLength.of_long _ _ rfl (by rw [BitVec.getLsbD_append]; simp)

theorem ByteLength.fcmp (t : BitVec 2) (b : BitVec 7) (a : BitVec 7) (c : BitVec 4) (p : BitVec 2) (e : Bool) : ByteLength.Statement (.fcmp t b a c p e) :=
  ByteLength.of_long _ _ rfl (by rw [BitVec.getLsbD_append]; simp)

theorem ByteLength.cvt (m : BitVec 2) (k : BitVec 7) (a : BitVec 7) (n : Bool) (d : BitVec 7) (e : Bool) : ByteLength.Statement (.cvt m k a n d e) :=
  ByteLength.of_long _ _ rfl (by rw [BitVec.getLsbD_append]; simp)

theorem ByteLength.pkbf (b : BitVec 7) (a : BitVec 7) (n : Bool) (d : BitVec 7) (e : Bool) : ByteLength.Statement (.pkbf b a n d e) :=
  ByteLength.of_long _ _ rfl (by rw [BitVec.getLsbD_append]; simp)

theorem ByteLength.pkh8 (b : BitVec 7) (a : BitVec 7) (n : Bool) (d : BitVec 7) (e : Bool) : ByteLength.Statement (.pkh8 b a n d e) :=
  ByteLength.of_long _ _ rfl (by rw [BitVec.getLsbD_append]; simp)

theorem ByteLength.upkbf (a : BitVec 7) (n : Bool) (d : BitVec 7) (e : Bool) : ByteLength.Statement (.upkbf a n d e) :=
  ByteLength.of_long _ _ rfl (by rw [BitVec.getLsbD_append]; simp)

theorem ByteLength.upkh8 (a : BitVec 7) (n : Bool) (d : BitVec 7) (e : Bool) : ByteLength.Statement (.upkh8 a n d e) :=
  ByteLength.of_long _ _ rfl (by rw [BitVec.getLsbD_append]; simp)

theorem ByteLength.rcp (a : BitVec 7) (n : Bool) (d : BitVec 7) (e : Bool) : ByteLength.Statement (.rcp a n d e) :=
  ByteLength.of_long _ _ rfl (by rw [BitVec.getLsbD_append]; simp)

theorem ByteLength.rsq (a : BitVec 7) (n : Bool) (d : BitVec 7) (e : Bool) : ByteLength.Statement (.rsq a n d e) :=
  ByteLength.of_long _ _ rfl (by rw [BitVec.getLsbD_append]; simp)

theorem ByteLength.ex2 (a : BitVec 7) (n : Bool) (d : BitVec 7) (e : Bool) : ByteLength.Statement (.ex2 a n d e) :=
  ByteLength.of_long _ _ rfl (by rw [BitVec.getLsbD_append]; simp)

theorem ByteLength.lg2 (a : BitVec 7) (n : Bool) (d : BitVec 7) (e : Bool) : ByteLength.Statement (.lg2 a n d e) :=
  ByteLength.of_long _ _ rfl (by rw [BitVec.getLsbD_append]; simp)

theorem ByteLength.sqrt (a : BitVec 7) (n : Bool) (d : BitVec 7) (e : Bool) : ByteLength.Statement (.sqrt a n d e) :=
  ByteLength.of_long _ _ rfl (by rw [BitVec.getLsbD_append]; simp)

theorem ByteLength.sin (a : BitVec 7) (n : Bool) (d : BitVec 7) (e : Bool) : ByteLength.Statement (.sin a n d e) :=
  ByteLength.of_long _ _ rfl (by rw [BitVec.getLsbD_append]; simp)

theorem ByteLength.cos (a : BitVec 7) (n : Bool) (d : BitVec 7) (e : Bool) : ByteLength.Statement (.cos a n d e) :=
  ByteLength.of_long _ _ rfl (by rw [BitVec.getLsbD_append]; simp)

theorem ByteLength.tanh (a : BitVec 7) (n : Bool) (d : BitVec 7) (e : Bool) : ByteLength.Statement (.tanh a n d e) :=
  ByteLength.of_long _ _ rfl (by rw [BitVec.getLsbD_append]; simp)

theorem ByteLength.hadd2 (b : BitVec 7) (a : BitVec 7) (n : Bool) (d : BitVec 7) (e : Bool) : ByteLength.Statement (.hadd2 b a n d e) :=
  ByteLength.of_long _ _ rfl (by rw [BitVec.getLsbD_append]; simp)

theorem ByteLength.hsub2 (b : BitVec 7) (a : BitVec 7) (n : Bool) (d : BitVec 7) (e : Bool) : ByteLength.Statement (.hsub2 b a n d e) :=
  ByteLength.of_long _ _ rfl (by rw [BitVec.getLsbD_append]; simp)

theorem ByteLength.hmul2 (b : BitVec 7) (a : BitVec 7) (n : Bool) (d : BitVec 7) (e : Bool) : ByteLength.Statement (.hmul2 b a n d e) :=
  ByteLength.of_long _ _ rfl (by rw [BitVec.getLsbD_append]; simp)

theorem ByteLength.hmax2 (b : BitVec 7) (a : BitVec 7) (n : Bool) (d : BitVec 7) (e : Bool) : ByteLength.Statement (.hmax2 b a n d e) :=
  ByteLength.of_long _ _ rfl (by rw [BitVec.getLsbD_append]; simp)

theorem ByteLength.cbx (b : BitVec 7) (a : BitVec 7) (n : Bool) (d : BitVec 7) (e : Bool) : ByteLength.Statement (.cbx b a n d e) :=
  ByteLength.of_long _ _ rfl (by rw [BitVec.getLsbD_append]; simp)

theorem ByteLength.cbq (b : BitVec 7) (a : BitVec 7) (n : Bool) (d : BitVec 7) (e : Bool) : ByteLength.Statement (.cbq b a n d e) :=
  ByteLength.of_long _ _ rfl (by rw [BitVec.getLsbD_append]; simp)

theorem ByteLength.nqx (b : BitVec 7) (a : BitVec 7) (n : Bool) (d : BitVec 7) (e : Bool) : ByteLength.Statement (.nqx b a n d e) :=
  ByteLength.of_long _ _ rfl (by rw [BitVec.getLsbD_append]; simp)

theorem ByteLength.nqq (b : BitVec 7) (a : BitVec 7) (n : Bool) (d : BitVec 7) (e : Bool) : ByteLength.Statement (.nqq b a n d e) :=
  ByteLength.of_long _ _ rfl (by rw [BitVec.getLsbD_append]; simp)

theorem ByteLength.hfma2 (c : BitVec 2) (b : BitVec 5) (a : BitVec 7) (n : Bool) (d : BitVec 7) (e : Bool) : ByteLength.Statement (.hfma2 c b a n d e) :=
  ByteLength.of_long _ _ rfl (by rw [BitVec.getLsbD_append]; simp)

theorem ByteLength.hfms2 (c : BitVec 2) (b : BitVec 5) (a : BitVec 7) (n : Bool) (d : BitVec 7) (e : Bool) : ByteLength.Statement (.hfms2 c b a n d e) :=
  ByteLength.of_long _ _ rfl (by rw [BitVec.getLsbD_append]; simp)

theorem ByteLength.br (o : BitVec 20) (s : Bool) (p : BitVec 2) : ByteLength.Statement (.br o s p) :=
  ByteLength.of_long _ _ rfl (by rw [BitVec.getLsbD_append]; simp)

theorem ByteLength.jmp (o : BitVec 20) : ByteLength.Statement (.jmp o) :=
  ByteLength.of_long _ _ rfl (by rw [BitVec.getLsbD_append]; simp)

theorem ByteLength.call (o : BitVec 20) : ByteLength.Statement (.call o) :=
  ByteLength.of_long _ _ rfl (by rw [BitVec.getLsbD_append]; simp)

theorem ByteLength.jr (a : BitVec 7) : ByteLength.Statement (.jr a) :=
  ByteLength.of_long _ _ rfl (by rw [BitVec.getLsbD_append]; simp)

theorem ByteLength.callr (a : BitVec 7) : ByteLength.Statement (.callr a) :=
  ByteLength.of_long _ _ rfl (by rw [BitVec.getLsbD_append]; simp)

theorem ByteLength.ret : ByteLength.Statement .ret :=
  ByteLength.of_long _ _ rfl (by rw [BitVec.getLsbD_append]; simp)

theorem ByteLength.exit : ByteLength.Statement .exit :=
  ByteLength.of_long _ _ rfl (by rw [BitVec.getLsbD_append]; simp)

theorem ByteLength.join : ByteLength.Statement .join :=
  ByteLength.of_long _ _ rfl (by rw [BitVec.getLsbD_append]; simp)

theorem ByteLength.nop (e : Bool) : ByteLength.Statement (.nop e) :=
  ByteLength.of_long _ _ rfl (by rw [BitVec.getLsbD_append]; simp)

theorem ByteLength.jtab (o : BitVec 9) (a : BitVec 7) (n : BitVec 7) : ByteLength.Statement (.jtab o a n) :=
  ByteLength.of_long _ _ rfl (by rw [BitVec.getLsbD_append]; simp)

theorem ByteLength.heel (b : BitVec 7) (a : BitVec 7) (d : BitVec 7) : ByteLength.Statement (.heel b a d) :=
  ByteLength.of_long _ _ rfl (by rw [BitVec.getLsbD_append]; simp)

theorem ByteLength.rayld (a : BitVec 7) (n : Bool) (d : BitVec 7) (e : Bool) : ByteLength.Statement (.rayld a n d e) :=
  ByteLength.of_long _ _ rfl (by rw [BitVec.getLsbD_append]; simp)

theorem ByteLength.boxt (b : BitVec 7) (a : BitVec 7) (n : Bool) (d : BitVec 7) (e : Bool) : ByteLength.Statement (.boxt b a n d e) :=
  ByteLength.of_long _ _ rfl (by rw [BitVec.getLsbD_append]; simp)

theorem ByteLength.desc (b : BitVec 7) (a : BitVec 7) (n : Bool) (d : BitVec 7) (e : Bool) : ByteLength.Statement (.desc b a n d e) :=
  ByteLength.of_long _ _ rfl (by rw [BitVec.getLsbD_append]; simp)

theorem ByteLength.asc (b : BitVec 7) (a : BitVec 7) (n : Bool) (d : BitVec 7) (e : Bool) : ByteLength.Statement (.asc b a n d e) :=
  ByteLength.of_long _ _ rfl (by rw [BitVec.getLsbD_append]; simp)

theorem ByteLength.trit (a : BitVec 7) (n : Bool) (d : BitVec 7) (e : Bool) : ByteLength.Statement (.trit a n d e) :=
  ByteLength.of_long _ _ rfl (by rw [BitVec.getLsbD_append]; simp)

theorem ByteLength.tcmp (b : BitVec 7) (a : BitVec 7) (n : Bool) (d : BitVec 7) (e : Bool) : ByteLength.Statement (.tcmp b a n d e) :=
  ByteLength.of_long _ _ rfl (by rw [BitVec.getLsbD_append]; simp)

theorem ByteLength.tcvt (a : BitVec 7) (n : Bool) (d : BitVec 7) (e : Bool) : ByteLength.Statement (.tcvt a n d e) :=
  ByteLength.of_long _ _ rfl (by rw [BitVec.getLsbD_append]; simp)

theorem ByteLength.hitw (a : BitVec 7) (d : BitVec 7) (e : Bool) : ByteLength.Statement (.hitw a d e) :=
  ByteLength.of_long _ _ rfl (by rw [BitVec.getLsbD_append]; simp)

theorem ByteLength.rasts (b : BitVec 7) (a : BitVec 7) (n : Bool) (d : BitVec 7) (e : Bool) : ByteLength.Statement (.rasts b a n d e) :=
  ByteLength.of_long _ _ rfl (by rw [BitVec.getLsbD_append]; simp)

theorem ByteLength.rastt (b : BitVec 7) (a : BitVec 7) (n : Bool) (d : BitVec 7) (e : Bool) : ByteLength.Statement (.rastt b a n d e) :=
  ByteLength.of_long _ _ rfl (by rw [BitVec.getLsbD_append]; simp)

theorem ByteLength.refit (b : BitVec 7) (a : BitVec 7) (n : Bool) (d : BitVec 7) (e : Bool) : ByteLength.Statement (.refit b a n d e) :=
  ByteLength.of_long _ _ rfl (by rw [BitVec.getLsbD_append]; simp)

theorem ByteLength.vtxq (b : BitVec 7) (a : BitVec 7) (n : Bool) (d : BitVec 7) (e : Bool) : ByteLength.Statement (.vtxq b a n d e) :=
  ByteLength.of_long _ _ rfl (by rw [BitVec.getLsbD_append]; simp)

theorem ByteLength.shflIdx (b : BitVec 7) (a : BitVec 7) (n : Bool) (d : BitVec 7) (e : Bool) : ByteLength.Statement (.shflIdx b a n d e) :=
  ByteLength.of_long _ _ rfl (by rw [BitVec.getLsbD_append]; simp)

theorem ByteLength.shflUp (b : BitVec 7) (a : BitVec 7) (n : Bool) (d : BitVec 7) (e : Bool) : ByteLength.Statement (.shflUp b a n d e) :=
  ByteLength.of_long _ _ rfl (by rw [BitVec.getLsbD_append]; simp)

theorem ByteLength.shflDown (b : BitVec 7) (a : BitVec 7) (n : Bool) (d : BitVec 7) (e : Bool) : ByteLength.Statement (.shflDown b a n d e) :=
  ByteLength.of_long _ _ rfl (by rw [BitVec.getLsbD_append]; simp)

theorem ByteLength.shflXor (b : BitVec 7) (a : BitVec 7) (n : Bool) (d : BitVec 7) (e : Bool) : ByteLength.Statement (.shflXor b a n d e) :=
  ByteLength.of_long _ _ rfl (by rw [BitVec.getLsbD_append]; simp)

theorem ByteLength.voteAny (p : BitVec 2) (n : Bool) (d : BitVec 7) (e : Bool) : ByteLength.Statement (.voteAny p n d e) :=
  ByteLength.of_long _ _ rfl (by rw [BitVec.getLsbD_append]; simp)

theorem ByteLength.voteAll (p : BitVec 2) (n : Bool) (d : BitVec 7) (e : Bool) : ByteLength.Statement (.voteAll p n d e) :=
  ByteLength.of_long _ _ rfl (by rw [BitVec.getLsbD_append]; simp)

theorem ByteLength.voteBallot (p : BitVec 2) (n : Bool) (d : BitVec 7) (e : Bool) : ByteLength.Statement (.voteBallot p n d e) :=
  ByteLength.of_long _ _ rfl (by rw [BitVec.getLsbD_append]; simp)

theorem ByteLength.voteUni (a : BitVec 7) (n : Bool) (d : BitVec 7) (e : Bool) : ByteLength.Statement (.voteUni a n d e) :=
  ByteLength.of_long _ _ rfl (by rw [BitVec.getLsbD_append]; simp)

theorem ByteLength.redaddI (a : BitVec 7) (n : Bool) (d : BitVec 7) (e : Bool) : ByteLength.Statement (.redaddI a n d e) :=
  ByteLength.of_long _ _ rfl (by rw [BitVec.getLsbD_append]; simp)

theorem ByteLength.redaddF (a : BitVec 7) (n : Bool) (d : BitVec 7) (e : Bool) : ByteLength.Statement (.redaddF a n d e) :=
  ByteLength.of_long _ _ rfl (by rw [BitVec.getLsbD_append]; simp)

theorem ByteLength.redminS (a : BitVec 7) (n : Bool) (d : BitVec 7) (e : Bool) : ByteLength.Statement (.redminS a n d e) :=
  ByteLength.of_long _ _ rfl (by rw [BitVec.getLsbD_append]; simp)

theorem ByteLength.redmaxS (a : BitVec 7) (n : Bool) (d : BitVec 7) (e : Bool) : ByteLength.Statement (.redmaxS a n d e) :=
  ByteLength.of_long _ _ rfl (by rw [BitVec.getLsbD_append]; simp)

theorem ByteLength.matchLanes (a : BitVec 7) (n : Bool) (d : BitVec 7) (e : Bool) : ByteLength.Statement (.matchLanes a n d e) :=
  ByteLength.of_long _ _ rfl (by rw [BitVec.getLsbD_append]; simp)

theorem ByteLength.compact (p : BitVec 2) (n : Bool) (d : BitVec 7) (e : Bool) : ByteLength.Statement (.compact p n d e) :=
  ByteLength.of_long _ _ rfl (by rw [BitVec.getLsbD_append]; simp)

theorem ByteLength.scanadd (a : BitVec 7) (n : Bool) (d : BitVec 7) (e : Bool) : ByteLength.Statement (.scanadd a n d e) :=
  ByteLength.of_long _ _ rfl (by rw [BitVec.getLsbD_append]; simp)

theorem ByteLength.elect (n : Bool) (d : BitVec 7) (e : Bool) : ByteLength.Statement (.elect n d e) :=
  ByteLength.of_long _ _ rfl (by rw [BitVec.getLsbD_append]; simp)

theorem ByteLength.knead (b : BitVec 7) (a : BitVec 7) (c : BitVec 4) : ByteLength.Statement (.knead b a c) :=
  ByteLength.of_long _ _ rfl (by rw [BitVec.getLsbD_append]; simp)

theorem ByteLength.kflush : ByteLength.Statement .kflush :=
  ByteLength.of_long _ _ rfl (by rw [BitVec.getLsbD_append]; simp)

theorem ByteLength.wrk (k : BitVec 6) (a : BitVec 7) (e : Bool) : ByteLength.Statement (.wrk k a e) :=
  ByteLength.of_long _ _ rfl (by rw [BitVec.getLsbD_append]; simp)

theorem ByteLength.rdk (k : BitVec 6) (n : Bool) (d : BitVec 7) (e : Bool) : ByteLength.Statement (.rdk k n d e) :=
  ByteLength.of_long _ _ rfl (by rw [BitVec.getLsbD_append]; simp)

theorem ByteLength.barSync (b : BitVec 4) : ByteLength.Statement (.barSync b) :=
  ByteLength.of_long _ _ rfl (by rw [BitVec.getLsbD_append]; simp)

theorem ByteLength.barArrive (b : BitVec 4) (e : Bool) : ByteLength.Statement (.barArrive b e) :=
  ByteLength.of_long _ _ rfl (by rw [BitVec.getLsbD_append]; simp)

theorem ByteLength.barWait (b : BitVec 4) : ByteLength.Statement (.barWait b) :=
  ByteLength.of_long _ _ rfl (by rw [BitVec.getLsbD_append]; simp)

theorem ByteLength.barInit (b : BitVec 4) (a : BitVec 7) (e : Bool) : ByteLength.Statement (.barInit b a e) :=
  ByteLength.of_long _ _ rfl (by rw [BitVec.getLsbD_append]; simp)

theorem ByteLength.genbeg (b : BitVec 7) (a : BitVec 7) : ByteLength.Statement (.genbeg b a) :=
  ByteLength.of_long _ _ rfl (by rw [BitVec.getLsbD_append]; simp)

theorem ByteLength.yield (a : BitVec 7) (e : Bool) : ByteLength.Statement (.yield a e) :=
  ByteLength.of_long _ _ rfl (by rw [BitVec.getLsbD_append]; simp)

theorem ByteLength.take (p : BitVec 2) (n : Bool) (d : BitVec 7) (e : Bool) : ByteLength.Statement (.take p n d e) :=
  ByteLength.of_long _ _ rfl (by rw [BitVec.getLsbD_append]; simp)

theorem ByteLength.gennext : ByteLength.Statement .gennext :=
  ByteLength.of_long _ _ rfl (by rw [BitVec.getLsbD_append]; simp)

theorem ByteLength.ldG (o : BitVec 6) (s : BitVec 3) (a : BitVec 7) (n : Bool) (d : BitVec 7) (e : Bool) : ByteLength.Statement (.ldG o s a n d e) :=
  ByteLength.of_long _ _ rfl (by rw [BitVec.getLsbD_append]; simp)

theorem ByteLength.stG (o : BitVec 6) (s : BitVec 3) (a : BitVec 7) (d : BitVec 7) (e : Bool) : ByteLength.Statement (.stG o s a d e) :=
  ByteLength.of_long _ _ rfl (by rw [BitVec.getLsbD_append]; simp)

theorem ByteLength.ldS (o : BitVec 6) (s : BitVec 3) (a : BitVec 7) (n : Bool) (d : BitVec 7) (e : Bool) : ByteLength.Statement (.ldS o s a n d e) :=
  ByteLength.of_long _ _ rfl (by rw [BitVec.getLsbD_append]; simp)

theorem ByteLength.stS (o : BitVec 6) (s : BitVec 3) (a : BitVec 7) (d : BitVec 7) (e : Bool) : ByteLength.Statement (.stS o s a d e) :=
  ByteLength.of_long _ _ rfl (by rw [BitVec.getLsbD_append]; simp)

theorem ByteLength.ldSc (a : BitVec 7) (n : Bool) (d : BitVec 7) (e : Bool) : ByteLength.Statement (.ldSc a n d e) :=
  ByteLength.of_long _ _ rfl (by rw [BitVec.getLsbD_append]; simp)

theorem ByteLength.stSc (b : BitVec 7) (a : BitVec 7) (e : Bool) : ByteLength.Statement (.stSc b a e) :=
  ByteLength.of_long _ _ rfl (by rw [BitVec.getLsbD_append]; simp)

theorem ByteLength.aaddSc (b : BitVec 7) (a : BitVec 7) (n : Bool) (d : BitVec 7) (e : Bool) : ByteLength.Statement (.aaddSc b a n d e) :=
  ByteLength.of_long _ _ rfl (by rw [BitVec.getLsbD_append]; simp)

theorem ByteLength.aexchSc (b : BitVec 7) (a : BitVec 7) (n : Bool) (d : BitVec 7) (e : Bool) : ByteLength.Statement (.aexchSc b a n d e) :=
  ByteLength.of_long _ _ rfl (by rw [BitVec.getLsbD_append]; simp)

theorem ByteLength.acasSc (c : BitVec 2) (b : BitVec 5) (a : BitVec 7) (n : Bool) (d : BitVec 7) (e : Bool) : ByteLength.Statement (.acasSc c b a n d e) :=
  ByteLength.of_long _ _ rfl (by rw [BitVec.getLsbD_append]; simp)

theorem ByteLength.ldfe (t : Bool) (o : BitVec 5) (s : BitVec 3) (a : BitVec 7) (n : Bool) (d : BitVec 7) : ByteLength.Statement (.ldfe t o s a n d) :=
  ByteLength.of_long _ _ rfl (by rw [BitVec.getLsbD_append]; simp)

theorem ByteLength.stfe (o : BitVec 6) (s : BitVec 3) (a : BitVec 7) (d : BitVec 7) : ByteLength.Statement (.stfe o s a d) :=
  ByteLength.of_long _ _ rfl (by rw [BitVec.getLsbD_append]; simp)

theorem ByteLength.aadd (b : BitVec 7) (a : BitVec 7) (n : Bool) (d : BitVec 7) (e : Bool) : ByteLength.Statement (.aadd b a n d e) :=
  ByteLength.of_long _ _ rfl (by rw [BitVec.getLsbD_append]; simp)

theorem ByteLength.amin (b : BitVec 7) (a : BitVec 7) (n : Bool) (d : BitVec 7) (e : Bool) : ByteLength.Statement (.amin b a n d e) :=
  ByteLength.of_long _ _ rfl (by rw [BitVec.getLsbD_append]; simp)

theorem ByteLength.amax (b : BitVec 7) (a : BitVec 7) (n : Bool) (d : BitVec 7) (e : Bool) : ByteLength.Statement (.amax b a n d e) :=
  ByteLength.of_long _ _ rfl (by rw [BitVec.getLsbD_append]; simp)

theorem ByteLength.aexch (b : BitVec 7) (a : BitVec 7) (n : Bool) (d : BitVec 7) (e : Bool) : ByteLength.Statement (.aexch b a n d e) :=
  ByteLength.of_long _ _ rfl (by rw [BitVec.getLsbD_append]; simp)

theorem ByteLength.acas (c : BitVec 2) (b : BitVec 5) (a : BitVec 7) (n : Bool) (d : BitVec 7) (e : Bool) : ByteLength.Statement (.acas c b a n d e) :=
  ByteLength.of_long _ _ rfl (by rw [BitVec.getLsbD_append]; simp)

theorem ByteLength.aand (b : BitVec 5) (a : BitVec 7) (n : Bool) (d : BitVec 7) (e : Bool) : ByteLength.Statement (.aand b a n d e) :=
  ByteLength.of_long _ _ rfl (by rw [BitVec.getLsbD_append]; simp)

theorem ByteLength.aor (b : BitVec 5) (a : BitVec 7) (n : Bool) (d : BitVec 7) (e : Bool) : ByteLength.Statement (.aor b a n d e) :=
  ByteLength.of_long _ _ rfl (by rw [BitVec.getLsbD_append]; simp)

theorem ByteLength.axor (b : BitVec 5) (a : BitVec 7) (n : Bool) (d : BitVec 7) (e : Bool) : ByteLength.Statement (.axor b a n d e) :=
  ByteLength.of_long _ _ rfl (by rw [BitVec.getLsbD_append]; simp)

theorem ByteLength.gath (b : BitVec 7) (a : BitVec 7) (n : Bool) (d : BitVec 7) (e : Bool) : ByteLength.Statement (.gath b a n d e) :=
  ByteLength.of_long _ _ rfl (by rw [BitVec.getLsbD_append]; simp)

theorem ByteLength.scat (b : BitVec 7) (a : BitVec 7) (d : BitVec 7) (e : Bool) : ByteLength.Statement (.scat b a d e) :=
  ByteLength.of_long _ _ rfl (by rw [BitVec.getLsbD_append]; simp)

theorem ByteLength.gathS (b : BitVec 7) (a : BitVec 7) (n : Bool) (d : BitVec 7) (e : Bool) : ByteLength.Statement (.gathS b a n d e) :=
  ByteLength.of_long _ _ rfl (by rw [BitVec.getLsbD_append]; simp)

theorem ByteLength.scatS (b : BitVec 7) (a : BitVec 7) (d : BitVec 7) (e : Bool) : ByteLength.Statement (.scatS b a d e) :=
  ByteLength.of_long _ _ rfl (by rw [BitVec.getLsbD_append]; simp)

theorem ByteLength.acq (k : Bool) (a : BitVec 7) (s : BitVec 3) : ByteLength.Statement (.acq k a s) :=
  ByteLength.of_long _ _ rfl (by rw [BitVec.getLsbD_append]; simp)

theorem ByteLength.rel (k : Bool) (a : BitVec 7) (s : BitVec 3) : ByteLength.Statement (.rel k a s) :=
  ByteLength.of_long _ _ rfl (by rw [BitVec.getLsbD_append]; simp)

theorem ByteLength.bind (b : BitVec 7) (a : BitVec 7) (k : Bool) (e : Bool) : ByteLength.Statement (.bind b a k e) :=
  ByteLength.of_long _ _ rfl (by rw [BitVec.getLsbD_append]; simp)

theorem ByteLength.fence (s : BitVec 3) : ByteLength.Statement (.fence s) :=
  ByteLength.of_long _ _ rfl (by rw [BitVec.getLsbD_append]; simp)

theorem ByteLength.watch (a : BitVec 7) (e : Bool) : ByteLength.Statement (.watch a e) :=
  ByteLength.of_long _ _ rfl (by rw [BitVec.getLsbD_append]; simp)

theorem ByteLength.doze (a : BitVec 7) (n : Bool) (d : BitVec 7) : ByteLength.Statement (.doze a n d) :=
  ByteLength.of_long _ _ rfl (by rw [BitVec.getLsbD_append]; simp)

theorem ByteLength.pref (h : Bool) (a : BitVec 7) (e : Bool) : ByteLength.Statement (.pref h a e) :=
  ByteLength.of_long _ _ rfl (by rw [BitVec.getLsbD_append]; simp)

theorem ByteLength.ldraw (s : BitVec 3) (a : BitVec 7) (n : Bool) (d : BitVec 7) (e : Bool) : ByteLength.Statement (.ldraw s a n d e) :=
  ByteLength.of_long _ _ rfl (by rw [BitVec.getLsbD_append]; simp)

theorem ByteLength.qpush (q : BitVec 4) (a : BitVec 7) : ByteLength.Statement (.qpush q a) :=
  ByteLength.of_long _ _ rfl (by rw [BitVec.getLsbD_append]; simp)

theorem ByteLength.qpop (q : BitVec 4) (n : Bool) (d : BitVec 7) : ByteLength.Statement (.qpop q n d) :=
  ByteLength.of_long _ _ rfl (by rw [BitVec.getLsbD_append]; simp)

theorem ByteLength.qpoll (q : BitVec 4) (p : BitVec 2) (n : Bool) (d : BitVec 7) (e : Bool) : ByteLength.Statement (.qpoll q p n d e) :=
  ByteLength.of_long _ _ rfl (by rw [BitVec.getLsbD_append]; simp)

theorem ByteLength.qstat (q : BitVec 4) (n : Bool) (d : BitVec 7) (e : Bool) : ByteLength.Statement (.qstat q n d e) :=
  ByteLength.of_long _ _ rfl (by rw [BitVec.getLsbD_append]; simp)

theorem ByteLength.mxiss (a : BitVec 7) : ByteLength.Statement (.mxiss a) :=
  ByteLength.of_long _ _ rfl (by rw [BitVec.getLsbD_append]; simp)

theorem ByteLength.mxmeta (c : BitVec 2) (a : BitVec 7) : ByteLength.Statement (.mxmeta c a) :=
  ByteLength.of_long _ _ rfl (by rw [BitVec.getLsbD_append]; simp)

theorem ByteLength.chbeg (b : Bool) (e : Bool) : ByteLength.Statement (.chbeg b e) :=
  ByteLength.of_long _ _ rfl (by rw [BitVec.getLsbD_append]; simp)

theorem ByteLength.chend (b : Bool) (e : Bool) : ByteLength.Statement (.chend b e) :=
  ByteLength.of_long _ _ rfl (by rw [BitVec.getLsbD_append]; simp)

theorem ByteLength.spcmp (t : BitVec 2) (k : BitVec 2) (a : BitVec 7) (n : Bool) (d : BitVec 7) (e : Bool) : ByteLength.Statement (.spcmp t k a n d e) :=
  ByteLength.of_long _ _ rfl (by rw [BitVec.getLsbD_append]; simp)

theorem ByteLength.spexp (t : BitVec 2) (k : BitVec 2) (a : BitVec 7) (n : Bool) (d : BitVec 7) (e : Bool) : ByteLength.Statement (.spexp t k a n d e) :=
  ByteLength.of_long _ _ rfl (by rw [BitVec.getLsbD_append]; simp)

theorem ByteLength.scac (c : BitVec 2) (b : BitVec 5) (a : BitVec 7) (n : Bool) (d : BitVec 7) (e : Bool) : ByteLength.Statement (.scac c b a n d e) :=
  ByteLength.of_long _ _ rfl (by rw [BitVec.getLsbD_append]; simp)

theorem ByteLength.bsq (b : BitVec 5) (a : BitVec 7) (n : Bool) (d : BitVec 7) (e : Bool) : ByteLength.Statement (.bsq b a n d e) :=
  ByteLength.of_long _ _ rfl (by rw [BitVec.getLsbD_append]; simp)

theorem ByteLength.boinit (b : BitVec 7) (a : BitVec 7) (e : Bool) : ByteLength.Statement (.boinit b a e) :=
  ByteLength.of_long _ _ rfl (by rw [BitVec.getLsbD_append]; simp)

theorem ByteLength.boexp (b : BitVec 7) (a : BitVec 7) (e : Bool) : ByteLength.Statement (.boexp b a e) :=
  ByteLength.of_long _ _ rfl (by rw [BitVec.getLsbD_append]; simp)

theorem ByteLength.boarr (a : BitVec 7) (e : Bool) : ByteLength.Statement (.boarr a e) :=
  ByteLength.of_long _ _ rfl (by rw [BitVec.getLsbD_append]; simp)

theorem ByteLength.waitph (b : BitVec 7) (a : BitVec 7) : ByteLength.Statement (.waitph b a) :=
  ByteLength.of_long _ _ rfl (by rw [BitVec.getLsbD_append]; simp)

theorem ByteLength.cpiss (a : BitVec 7) : ByteLength.Statement (.cpiss a) :=
  ByteLength.of_long _ _ rfl (by rw [BitVec.getLsbD_append]; simp)

theorem ByteLength.rsend (a : BitVec 7) : ByteLength.Statement (.rsend a) :=
  ByteLength.of_long _ _ rfl (by rw [BitVec.getLsbD_append]; simp)

theorem ByteLength.rrecv (n : Bool) (d : BitVec 7) : ByteLength.Statement (.rrecv n d) :=
  ByteLength.of_long _ _ rfl (by rw [BitVec.getLsbD_append]; simp)

theorem ByteLength.rstat (s : BitVec 2) (n : Bool) (d : BitVec 7) (e : Bool) : ByteLength.Statement (.rstat s n d e) :=
  ByteLength.of_long _ _ rfl (by rw [BitVec.getLsbD_append]; simp)

theorem ByteLength.trap (a : BitVec 7) : ByteLength.Statement (.trap a) :=
  ByteLength.of_long _ _ rfl (by rw [BitVec.getLsbD_append]; simp)

theorem ByteLength.tfence (a : BitVec 7) : ByteLength.Statement (.tfence a) :=
  ByteLength.of_long _ _ rfl (by rw [BitVec.getLsbD_append]; simp)

theorem ByteLength.xret (f : Bool) : ByteLength.Statement (.xret f) :=
  ByteLength.of_long _ _ rfl (by rw [BitVec.getLsbD_append]; simp)

theorem ByteLength.errclr (a : BitVec 7) (e : Bool) : ByteLength.Statement (.errclr a e) :=
  ByteLength.of_long _ _ rfl (by rw [BitVec.getLsbD_append]; simp)

theorem ByteLength.rdsp (s : BitVec 7) (n : Bool) (d : BitVec 7) (e : Bool) : ByteLength.Statement (.rdsp s n d e) :=
  ByteLength.of_long _ _ rfl (by rw [BitVec.getLsbD_append]; simp)

theorem ByteLength.wrsp (s : BitVec 7) (a : BitVec 7) (e : Bool) : ByteLength.Statement (.wrsp s a e) :=
  ByteLength.of_long _ _ rfl (by rw [BitVec.getLsbD_append]; simp)

theorem ByteLength.cbset (a : BitVec 7) (e : Bool) : ByteLength.Statement (.cbset a e) :=
  ByteLength.of_long _ _ rfl (by rw [BitVec.getLsbD_append]; simp)

theorem ByteLength.carve (a : BitVec 7) (n : Bool) (d : BitVec 7) : ByteLength.Statement (.carve a n d) :=
  ByteLength.of_long _ _ rfl (by rw [BitVec.getLsbD_append]; simp)

theorem ByteLength.ptog (n : Bool) (d : BitVec 7) (e : Bool) : ByteLength.Statement (.ptog n d e) :=
  ByteLength.of_long _ _ rfl (by rw [BitVec.getLsbD_append]; simp)

theorem ByteLength.gtop (a : BitVec 7) (e : Bool) : ByteLength.Statement (.gtop a e) :=
  ByteLength.of_long _ _ rfl (by rw [BitVec.getLsbD_append]; simp)

theorem ByteLength.sctime (a : BitVec 7) (n : Bool) (d : BitVec 7) (e : Bool) : ByteLength.Statement (.sctime a n d e) :=
  ByteLength.of_long _ _ rfl (by rw [BitVec.getLsbD_append]; simp)

theorem ByteLength.genend : ByteLength.Statement .genend :=
  ByteLength.of_long _ _ rfl (by rw [BitVec.getLsbD_append]; simp)

theorem ByteLength.genstat (n : Bool) (d : BitVec 7) (e : Bool) : ByteLength.Statement (.genstat n d e) :=
  ByteLength.of_long _ _ rfl (by rw [BitVec.getLsbD_append]; simp)

theorem ByteLength.tlbib (a : BitVec 7) (k : BitVec 2) : ByteLength.Statement (.tlbib a k) :=
  ByteLength.of_long _ _ rfl (by rw [BitVec.getLsbD_append]; simp)

theorem ByteLength.tlbil (a : BitVec 7) (k : BitVec 2) (e : Bool) : ByteLength.Statement (.tlbil a k e) :=
  ByteLength.of_long _ _ rfl (by rw [BitVec.getLsbD_append]; simp)

theorem ByteLength.lvend (e : Bool) : ByteLength.Statement (.lvend e) :=
  ByteLength.of_long _ _ rfl (by rw [BitVec.getLsbD_append]; simp)

theorem ByteLength.kstat (n : Bool) (d : BitVec 7) (e : Bool) : ByteLength.Statement (.kstat n d e) :=
  ByteLength.of_long _ _ rfl (by rw [BitVec.getLsbD_append]; simp)

theorem ByteLength.bkpt : ByteLength.Statement .bkpt :=
  ByteLength.of_long _ _ rfl (by rw [BitVec.getLsbD_append]; simp)

theorem ByteLength.waitphSt (a : BitVec 7) (r : Bool) (p : BitVec 2) : ByteLength.Statement (.waitphSt a r p) :=
  ByteLength.of_long _ _ rfl (by rw [BitVec.getLsbD_append]; simp)

theorem ByteLength.errrd (n : Bool) (d : BitVec 7) (e : Bool) : ByteLength.Statement (.errrd n d e) :=
  ByteLength.of_long _ _ rfl (by rw [BitVec.getLsbD_append]; simp)

theorem ByteLength.clkrd (n : Bool) (d : BitVec 7) (e : Bool) : ByteLength.Statement (.clkrd n d e) :=
  ByteLength.of_long _ _ rfl (by rw [BitVec.getLsbD_append]; simp)

theorem ByteLength.mov (b : BitVec 5) (d : BitVec 5) (e : Bool) : ByteLength.Statement (.mov b d e) :=
  ByteLength.of_short _ _ rfl (by rw [enc16, BitVec.getLsbD_append]; simp)

theorem ByteLength.add16 (b : BitVec 5) (d : BitVec 5) (e : Bool) : ByteLength.Statement (.add16 b d e) :=
  ByteLength.of_short _ _ rfl (by rw [enc16, BitVec.getLsbD_append]; simp)

theorem ByteLength.sub16 (b : BitVec 5) (d : BitVec 5) (e : Bool) : ByteLength.Statement (.sub16 b d e) :=
  ByteLength.of_short _ _ rfl (by rw [enc16, BitVec.getLsbD_append]; simp)

theorem ByteLength.mullo16 (b : BitVec 5) (d : BitVec 5) (e : Bool) : ByteLength.Statement (.mullo16 b d e) :=
  ByteLength.of_short _ _ rfl (by rw [enc16, BitVec.getLsbD_append]; simp)

theorem ByteLength.and16 (b : BitVec 5) (d : BitVec 5) (e : Bool) : ByteLength.Statement (.and16 b d e) :=
  ByteLength.of_short _ _ rfl (by rw [enc16, BitVec.getLsbD_append]; simp)

theorem ByteLength.or16 (b : BitVec 5) (d : BitVec 5) (e : Bool) : ByteLength.Statement (.or16 b d e) :=
  ByteLength.of_short _ _ rfl (by rw [enc16, BitVec.getLsbD_append]; simp)

theorem ByteLength.xor16 (b : BitVec 5) (d : BitVec 5) (e : Bool) : ByteLength.Statement (.xor16 b d e) :=
  ByteLength.of_short _ _ rfl (by rw [enc16, BitVec.getLsbD_append]; simp)

theorem ByteLength.shl16 (b : BitVec 5) (d : BitVec 5) (e : Bool) : ByteLength.Statement (.shl16 b d e) :=
  ByteLength.of_short _ _ rfl (by rw [enc16, BitVec.getLsbD_append]; simp)

theorem ByteLength.shrU16 (b : BitVec 5) (d : BitVec 5) (e : Bool) : ByteLength.Statement (.shrU16 b d e) :=
  ByteLength.of_short _ _ rfl (by rw [enc16, BitVec.getLsbD_append]; simp)

theorem ByteLength.shrS16 (b : BitVec 5) (d : BitVec 5) (e : Bool) : ByteLength.Statement (.shrS16 b d e) :=
  ByteLength.of_short _ _ rfl (by rw [enc16, BitVec.getLsbD_append]; simp)

theorem ByteLength.minS16 (b : BitVec 5) (d : BitVec 5) (e : Bool) : ByteLength.Statement (.minS16 b d e) :=
  ByteLength.of_short _ _ rfl (by rw [enc16, BitVec.getLsbD_append]; simp)

theorem ByteLength.maxS16 (b : BitVec 5) (d : BitVec 5) (e : Bool) : ByteLength.Statement (.maxS16 b d e) :=
  ByteLength.of_short _ _ rfl (by rw [enc16, BitVec.getLsbD_append]; simp)

theorem ByteLength.fadd16 (b : BitVec 5) (d : BitVec 5) (e : Bool) : ByteLength.Statement (.fadd16 b d e) :=
  ByteLength.of_short _ _ rfl (by rw [enc16, BitVec.getLsbD_append]; simp)

theorem ByteLength.fsub16 (b : BitVec 5) (d : BitVec 5) (e : Bool) : ByteLength.Statement (.fsub16 b d e) :=
  ByteLength.of_short _ _ rfl (by rw [enc16, BitVec.getLsbD_append]; simp)

theorem ByteLength.fmul16 (b : BitVec 5) (d : BitVec 5) (e : Bool) : ByteLength.Statement (.fmul16 b d e) :=
  ByteLength.of_short _ _ rfl (by rw [enc16, BitVec.getLsbD_append]; simp)

theorem ByteLength.fmax16 (b : BitVec 5) (d : BitVec 5) (e : Bool) : ByteLength.Statement (.fmax16 b d e) :=
  ByteLength.of_short _ _ rfl (by rw [enc16, BitVec.getLsbD_append]; simp)

theorem ByteLength.fusedGroup : ByteLength.Statement .fusedGroup :=
  ByteLength.of_none _ rfl

theorem ByteLength.illegalWord : ByteLength.Statement .illegalWord :=
  ByteLength.of_none _ rfl

theorem ByteLength.pendingWriteLands : ByteLength.Statement .pendingWriteLands :=
  ByteLength.of_none _ rfl

theorem ByteLength.grouperFill : ByteLength.Statement .grouperFill :=
  ByteLength.of_none _ rfl

theorem ByteLength.entryAged : ByteLength.Statement .entryAged :=
  ByteLength.of_none _ rfl

theorem ByteLength.rendezvousComplete : ByteLength.Statement .rendezvousComplete :=
  ByteLength.of_none _ rfl

theorem ByteLength.joinRelease : ByteLength.Statement .joinRelease :=
  ByteLength.of_none _ rfl

theorem ByteLength.binTimeout : ByteLength.Statement .binTimeout :=
  ByteLength.of_none _ rfl

theorem ByteLength.binWarpTakesSlot : ByteLength.Statement .binWarpTakesSlot :=
  ByteLength.of_none _ rfl

theorem ByteLength.leavenSpawn : ByteLength.Statement .leavenSpawn :=
  ByteLength.of_none _ rfl

theorem ByteLength.leavenContextEnd : ByteLength.Statement .leavenContextEnd :=
  ByteLength.of_none _ rfl

theorem ByteLength.generatorSwitch : ByteLength.Statement .generatorSwitch :=
  ByteLength.of_none _ rfl

theorem ByteLength.dozeTimeout : ByteLength.Statement .dozeTimeout :=
  ByteLength.of_none _ rfl

theorem ByteLength.scRetry : ByteLength.Statement .scRetry :=
  ByteLength.of_none _ rfl

theorem ByteLength.lqn : ByteLength.Statement .lqn :=
  ByteLength.of_none _ rfl

theorem ByteLength.slotFree : ByteLength.Statement .slotFree :=
  ByteLength.of_none _ rfl

theorem ByteLength.takeRecord : ByteLength.Statement .takeRecord :=
  ByteLength.of_none _ rfl

theorem ByteLength.offerCandidate : ByteLength.Statement .offerCandidate :=
  ByteLength.of_none _ rfl

theorem ByteLength.recordStarvation : ByteLength.Statement .recordStarvation :=
  ByteLength.of_none _ rfl

theorem ByteLength.migration : ByteLength.Statement .migration :=
  ByteLength.of_none _ rfl

theorem ByteLength.sifter : ByteLength.Statement .sifter :=
  ByteLength.of_none _ rfl

theorem ByteLength.blockEnd : ByteLength.Statement .blockEnd :=
  ByteLength.of_none _ rfl

theorem ByteLength.copyTakeEntry : ByteLength.Statement .copyTakeEntry :=
  ByteLength.of_none _ rfl

theorem ByteLength.engineByteCount : ByteLength.Statement .engineByteCount :=
  ByteLength.of_none _ rfl

theorem ByteLength.engineError : ByteLength.Statement .engineError :=
  ByteLength.of_none _ rfl

theorem ByteLength.copyStatus : ByteLength.Statement .copyStatus :=
  ByteLength.of_none _ rfl

theorem ByteLength.matrixTakeEntry : ByteLength.Statement .matrixTakeEntry :=
  ByteLength.of_none _ rfl

theorem ByteLength.bufferClaim : ByteLength.Statement .bufferClaim :=
  ByteLength.of_none _ rfl

theorem ByteLength.rectReserve : ByteLength.Statement .rectReserve :=
  ByteLength.of_none _ rfl

theorem ByteLength.metadataTake : ByteLength.Statement .metadataTake :=
  ByteLength.of_none _ rfl

theorem ByteLength.kStep : ByteLength.Statement .kStep :=
  ByteLength.of_none _ rfl

theorem ByteLength.partialDelivery : ByteLength.Statement .partialDelivery :=
  ByteLength.of_none _ rfl

theorem ByteLength.drain : ByteLength.Statement .drain :=
  ByteLength.of_none _ rfl

theorem ByteLength.matrixStatus : ByteLength.Statement .matrixStatus :=
  ByteLength.of_none _ rfl

theorem ByteLength.reductionItemArrival : ByteLength.Statement .reductionItemArrival :=
  ByteLength.of_none _ rfl

theorem ByteLength.routerCombine : ByteLength.Statement .routerCombine :=
  ByteLength.of_none _ rfl

theorem ByteLength.reductionDeadline : ByteLength.Statement .reductionDeadline :=
  ByteLength.of_none _ rfl

theorem ByteLength.flitCrcFailure : ByteLength.Statement .flitCrcFailure :=
  ByteLength.of_none _ rfl

theorem ByteLength.packageReset : ByteLength.Statement .packageReset :=
  ByteLength.of_none _ rfl

theorem ByteLength.partitionReset : ByteLength.Statement .partitionReset :=
  ByteLength.of_none _ rfl

theorem ByteLength.ctxnext : ByteLength.Statement .ctxnext :=
  ByteLength.of_none _ rfl

theorem ByteLength.preloadComplete : ByteLength.Statement .preloadComplete :=
  ByteLength.of_none _ rfl

theorem ByteLength.sliceEnd : ByteLength.Statement .sliceEnd :=
  ByteLength.of_none _ rfl

theorem ByteLength.coreStopped : ByteLength.Statement .coreStopped :=
  ByteLength.of_none _ rfl

theorem ByteLength.spill : ByteLength.Statement .spill :=
  ByteLength.of_none _ rfl

theorem ByteLength.powerLimit : ByteLength.Statement .powerLimit :=
  ByteLength.of_none _ rfl

theorem ByteLength.shedReturn : ByteLength.Statement .shedReturn :=
  ByteLength.of_none _ rfl

theorem ByteLength.s2root : ByteLength.Statement .s2root :=
  ByteLength.of_none _ rfl

theorem ByteLength.hubinvVa : ByteLength.Statement .hubinvVa :=
  ByteLength.of_none _ rfl

theorem ByteLength.hubinvTenant : ByteLength.Statement .hubinvTenant :=
  ByteLength.of_none _ rfl

theorem ByteLength.hubinvIpa : ByteLength.Statement .hubinvIpa :=
  ByteLength.of_none _ rfl

theorem ByteLength.hubinvPartition : ByteLength.Statement .hubinvPartition :=
  ByteLength.of_none _ rfl

theorem ByteLength.invalidationComplete : ByteLength.Statement .invalidationComplete :=
  ByteLength.of_none _ rfl

theorem ByteLength.nqbase : ByteLength.Statement .nqbase :=
  ByteLength.of_none _ rfl

theorem ByteLength.scepoch : ByteLength.Statement .scepoch :=
  ByteLength.of_none _ rfl

theorem ByteLength.epochChangeComplete : ByteLength.Statement .epochChangeComplete :=
  ByteLength.of_none _ rfl

theorem ByteLength.registerWrite : ByteLength.Statement .registerWrite :=
  ByteLength.of_none _ rfl

theorem ByteLength.attest : ByteLength.Statement .attest :=
  ByteLength.of_none _ rfl

theorem ByteLength.tbind : ByteLength.Statement .tbind :=
  ByteLength.of_none _ rfl

theorem ByteLength.tmext : ByteLength.Statement .tmext :=
  ByteLength.of_none _ rfl

theorem ByteLength.sealTenant : ByteLength.Statement .sealTenant :=
  ByteLength.of_none _ rfl

theorem ByteLength.releaseKey : ByteLength.Statement .releaseKey :=
  ByteLength.of_none _ rfl

theorem ByteLength.unsealTenant : ByteLength.Statement .unsealTenant :=
  ByteLength.of_none _ rfl

theorem ByteLength.svncommit : ByteLength.Statement .svncommit :=
  ByteLength.of_none _ rfl

theorem ByteLength.mrext : ByteLength.Statement .mrext :=
  ByteLength.of_none _ rfl

theorem ByteLength.logread : ByteLength.Statement .logread :=
  ByteLength.of_none _ rfl

theorem ByteLength.getFwInfo : ByteLength.Statement .getFwInfo :=
  ByteLength.of_none _ rfl

theorem ByteLength.transferFwInitiate : ByteLength.Statement .transferFwInitiate :=
  ByteLength.of_none _ rfl

theorem ByteLength.transferFwContinue : ByteLength.Statement .transferFwContinue :=
  ByteLength.of_none _ rfl

theorem ByteLength.transferFwEnd : ByteLength.Statement .transferFwEnd :=
  ByteLength.of_none _ rfl

theorem ByteLength.transferFwAbort : ByteLength.Statement .transferFwAbort :=
  ByteLength.of_none _ rfl

theorem ByteLength.alarm : ByteLength.Statement .alarm :=
  ByteLength.of_none _ rfl

theorem ByteLength.logSnapshot : ByteLength.Statement .logSnapshot :=
  ByteLength.of_none _ rfl

theorem ByteLength.poweredMinute : ByteLength.Statement .poweredMinute :=
  ByteLength.of_none _ rfl

theorem ByteLength.hostBar2Read : ByteLength.Statement .hostBar2Read :=
  ByteLength.of_none _ rfl

theorem ByteLength.hostBar2Write : ByteLength.Statement .hostBar2Write :=
  ByteLength.of_none _ rfl

theorem ByteLength.roceRead : ByteLength.Statement .roceRead :=
  ByteLength.of_none _ rfl

theorem ByteLength.roceWrite : ByteLength.Statement .roceWrite :=
  ByteLength.of_none _ rfl

theorem ByteLength.nvmeCommand : ByteLength.Statement .nvmeCommand :=
  ByteLength.of_none _ rfl

theorem ByteLength.smaddr : ByteLength.Statement .smaddr :=
  ByteLength.of_none _ rfl

theorem ByteLength.accessPerformed : ByteLength.Statement .accessPerformed :=
  ByteLength.of_none _ rfl

theorem ByteLength.droopEvent : ByteLength.Statement .droopEvent :=
  ByteLength.of_none _ rfl

theorem ByteLength.powerLoss : ByteLength.Statement .powerLoss :=
  ByteLength.of_none _ rfl

theorem ByteLength.mctpMessage : ByteLength.Statement .mctpMessage :=
  ByteLength.of_none _ rfl

end Sys2Proof.Laws
end

