-- ==== Sys2Proof/Tests/Slice0.lean ====
section
/-! SUPPORT. Tests. The words of the decoding tests are laid out from R35–R43 and R50 and the rows of the opcode table; the
expected values of the other tests are worked by hand from the rules each cites. -/

namespace Sys2Proof.Tests

set_option Elab.async false

open Sys2Proof Sys2Proof.Machine

/-! ## Words (R35–R43, R50) -/

theorem test_decode_integer_words : ([
    (0x10103003, .add 32 16 false 48 true), (0x50103003, .sub 32 16 false 48 true), (0x90103003, .and 32 16 false 48 true),
    (0xD0103003, .or 32 16 false 48 true), (0x10103007, .xor 32 16 false 48 true), (0x50103007, .andn 32 16 false 48 true),
    (0x90103007, .minS 32 16 false 48 true), (0xD0103007, .maxS 32 16 false 48 true), (0x1010300B, .minU 32 16 false 48 true),
    (0x5010300B, .maxU 32 16 false 48 true), (0x9010300B, .absdS 32 16 false 48 true), (0xD010300B, .addsatS 32 16 false 48 true),
    (0x1010300F, .shl 32 16 false 48 true), (0x5010300F, .shrU 32 16 false 48 true), (0x9010300F, .shrS 32 16 false 48 true),
    (0xD010300F, .rotl 32 16 false 48 true), (0x10103013, .mullo 32 16 false 48 true), (0x50103013, .mulhiS 32 16 false 48 true),
    (0x90103013, .mulhiU 32 16 false 48 true), (0xD0103013, .mulwS 32 16 false 48 true), (0x84903017, .mad 2 9 16 false 48 true),
    (0x94903017, .madwS 2 9 16 false 48 true), (0xA4903017, .dot4I8 2 9 16 false 48 true), (0xB4903017, .dot4N8 2 9 16 false 48 true)] : List (Nat × Instr)).all (fun x => decide (decode (leBytes 4 x.1) = some (x.2, []))) = true := by
  decide +kernel

theorem test_decode_immediate_words : ([
    (0xAA90301B, .addi 341 16 false 48 true), (0xAA90301F, .andi 341 16 false 48 true), (0xAA903023, .ori 341 16 false 48 true),
    (0xAA903027, .xori 341 16 false 48 true), (0x0110302B, .shli 2 16 false 48 true), (0x4110302B, .shriU 2 16 false 48 true),
    (0x8110302B, .shriS 2 16 false 48 true), (0xC110302B, .rotli 2 16 false 48 true), (0x0155302F, .movh 341 false 48 true),
    (0x01553033, .orl 341 false 48 true)] : List (Nat × Instr)).all (fun x => decide (decode (leBytes 4 x.1) = some (x.2, []))) = true := by
  decide +kernel

theorem test_decode_bit_and_compare_words : ([
    (0x10103037, .bfeU 32 16 false 48 true), (0x50103037, .bfeS 32 16 false 48 true), (0x90103037, .bfi 32 16 false 48 true),
    (0xD0103037, .permb 32 16 false 48 true), (0x0010303B, .popc 16 false 48 true), (0x4010303B, .clz 16 false 48 true),
    (0x8010303B, .brev 16 false 48 true), (0xC010303B, .neg 16 false 48 true), (0x5010123F, .icmp 1 32 16 2 2 true),
    (0x90103043, .sel 2 32 16 false 48 true), (0x01010347, .pand 2 1 3 true), (0x41010347, .por 2 1 3 true), (0x81010347, .pxor 2 1 3 true),
    (0xC0010347, .pnot 1 3 true)] : List (Nat × Instr)).all (fun x => decide (decode (leBytes 4 x.1) = some (x.2, []))) = true := by
  decide +kernel

theorem test_decode_float_words : ([
    (0x1010304B, .fadd 32 16 false 48 true), (0x5010304B, .fsub 32 16 false 48 true), (0x9010304B, .fmul 32 16 false 48 true),
    (0xD010304B, .fmax 32 16 false 48 true), (0x8490304F, .ffma 2 9 16 false 48 true), (0x9490304F, .ffms 2 9 16 false 48 true),
    (0xA490304F, .fnfma 2 9 16 false 48 true), (0xB490304F, .fmad2 2 9 16 false 48 true), (0x10103053, .fmin 32 16 false 48 true),
    (0x50103053, .fcopysign 32 16 false 48 true), (0x80103053, .fabs 16 false 48 true), (0xC0103053, .fneg 16 false 48 true),
    (0x50101257, .fcmp 1 32 16 2 2 true), (0x8090305B, .cvt 2 1 16 false 48 true), (0x1010305F, .pkbf 32 16 false 48 true),
    (0x5010305F, .pkh8 32 16 false 48 true), (0x8010305F, .upkbf 16 false 48 true), (0xC010305F, .upkh8 16 false 48 true)] : List (Nat × Instr)).all (fun x => decide (decode (leBytes 4 x.1) = some (x.2, []))) = true := by
  decide +kernel

theorem test_decode_special_and_pair_words : ([
    (0x00103063, .rcp 16 false 48 true), (0x40103063, .rsq 16 false 48 true), (0x80103063, .ex2 16 false 48 true),
    (0xC0103063, .lg2 16 false 48 true), (0x00103067, .sqrt 16 false 48 true), (0x40103067, .sin 16 false 48 true),
    (0x80103067, .cos 16 false 48 true), (0xC0103067, .tanh 16 false 48 true), (0x1010306B, .hadd2 32 16 false 48 true),
    (0x5010306B, .hsub2 32 16 false 48 true), (0x9010306B, .hmul2 32 16 false 48 true), (0xD010306B, .hmax2 32 16 false 48 true),
    (0x1010306F, .cbx 32 16 false 48 true), (0x5010306F, .cbq 32 16 false 48 true), (0x9010306F, .nqx 32 16 false 48 true),
    (0xD010306F, .nqq 32 16 false 48 true), (0x84903073, .hfma2 2 9 16 false 48 true), (0x94903073, .hfms2 2 9 16 false 48 true)] : List (Nat × Instr)).all (fun x => decide (decode (leBytes 4 x.1) = some (x.2, []))) = true := by
  decide +kernel

theorem test_decode_control_words : ([
    (0x00005277, .br 5 false 2), (0x0000507B, .jmp 5), (0x0000517B, .call 5), (0x0010027B, .jr 16), (0x0010037B, .callr 16), (0x0000047B, .ret),
    (0x0000057B, .exit), (0x0000067B, .join), (0x0000077B, .nop true), (0x0290057F, .jtab 5 16 5), (0x10103083, .heel 32 16 48)] : List (Nat × Instr)).all (fun x => decide (decode (leBytes 4 x.1) = some (x.2, []))) = true := by
  decide +kernel

theorem test_decode_geometry_words : ([
    (0x00103087, .rayld 16 false 48 true), (0x50103087, .boxt 32 16 false 48 true), (0x90103087, .desc 32 16 false 48 true),
    (0xD0103087, .asc 32 16 false 48 true), (0x0010308B, .trit 16 false 48 true), (0x5010308B, .tcmp 32 16 false 48 true),
    (0x8010308B, .tcvt 16 false 48 true), (0xC010308B, .hitw 16 48 true), (0x1010308F, .rasts 32 16 false 48 true),
    (0x5010308F, .rastt 32 16 false 48 true), (0x9010308F, .refit 32 16 false 48 true), (0xD010308F, .vtxq 32 16 false 48 true)] : List (Nat × Instr)).all (fun x => decide (decode (leBytes 4 x.1) = some (x.2, []))) = true := by
  decide +kernel

theorem test_decode_warp_words : ([
    (0x10103093, .shflIdx 32 16 false 48 true), (0x50103093, .shflUp 32 16 false 48 true), (0x90103093, .shflDown 32 16 false 48 true),
    (0xD0103093, .shflXor 32 16 false 48 true), (0x00023097, .voteAny 2 false 48 true), (0x40023097, .voteAll 2 false 48 true),
    (0x80023097, .voteBallot 2 false 48 true), (0xC0103097, .voteUni 16 false 48 true), (0x0010309B, .redaddI 16 false 48 true),
    (0x4010309B, .redaddF 16 false 48 true), (0x8010309B, .redminS 16 false 48 true), (0xC010309B, .redmaxS 16 false 48 true),
    (0x0010309F, .matchLanes 16 false 48 true), (0x4002309F, .compact 2 false 48 true), (0x8010309F, .scanadd 16 false 48 true),
    (0xC000309F, .elect false 48 true), (0x101002A3, .knead 32 16 2), (0x400000A3, .kflush), (0x809000A3, .wrk 1 16 true),
    (0xC08030A3, .rdk 1 false 48 true)] : List (Nat × Instr)).all (fun x => decide (decode (leBytes 4 x.1) = some (x.2, []))) = true := by
  decide +kernel

theorem test_decode_barrier_and_generator_words : ([
    (0x000000A7, .barSync 0), (0x400000A7, .barArrive 0 true), (0x800000A7, .barWait 0), (0xC01000A7, .barInit 0 16 true),
    (0x101000AB, .genbeg 32 16), (0x401000AB, .yield 16 true), (0x810030AB, .take 2 false 48 true), (0xC00000AB, .gennext)] : List (Nat × Instr)).all (fun x => decide (decode (leBytes 4 x.1) = some (x.2, []))) = true := by
  decide +kernel

theorem test_decode_memory_words : ([
    (0x151030AF, .ldG 5 2 16 false 48 true), (0x151030B3, .stG 5 2 16 48 true), (0x151030B7, .ldS 5 2 16 false 48 true),
    (0x151030BB, .stS 5 2 16 48 true), (0x001030BF, .ldSc 16 false 48 true), (0x501000BF, .stSc 32 16 true),
    (0x901030BF, .aaddSc 32 16 false 48 true), (0xD01030BF, .aexchSc 32 16 false 48 true), (0x849030C3, .acasSc 2 9 16 false 48 true),
    (0x951030C7, .ldfe true 5 2 16 false 48), (0x151030CB, .stfe 5 2 16 48)] : List (Nat × Instr)).all (fun x => decide (decode (leBytes 4 x.1) = some (x.2, []))) = true := by
  decide +kernel

theorem test_decode_atomic_words : ([
    (0x101030CF, .aadd 32 16 false 48 true), (0x501030CF, .amin 32 16 false 48 true), (0x901030CF, .amax 32 16 false 48 true),
    (0xD01030CF, .aexch 32 16 false 48 true), (0x849030D3, .acas 2 9 16 false 48 true), (0x149030D3, .aand 9 16 false 48 true),
    (0x249030D3, .aor 9 16 false 48 true), (0x349030D3, .axor 9 16 false 48 true), (0x101030D7, .gath 32 16 false 48 true),
    (0x501030D7, .scat 32 16 48 true), (0x901030D7, .gathS 32 16 false 48 true), (0xD01030D7, .scatS 32 16 48 true)] : List (Nat × Instr)).all (fun x => decide (decode (leBytes 4 x.1) = some (x.2, []))) = true := by
  decide +kernel

theorem test_decode_sync_and_queue_words : ([
    (0x009002DB, .acq true 16 2), (0x409002DB, .rel true 16 2), (0x901001DB, .bind 32 16 true true), (0xC00002DB, .fence 2),
    (0x001000DF, .watch 16 true), (0x401030DF, .doze 16 false 48), (0x809000DF, .pref true 16 true), (0xC11030DF, .ldraw 2 16 false 48 true),
    (0x049000E3, .qpush 9 16), (0x448030E3, .qpop 9 false 48), (0x848230E3, .qpoll 9 2 false 48 true), (0xC20030E3, .qstat 4 false 48 true)] : List (Nat × Instr)).all (fun x => decide (decode (leBytes 4 x.1) = some (x.2, []))) = true := by
  decide +kernel

theorem test_decode_matrix_words : ([
    (0x001000E7, .mxiss 16), (0x411000E7, .mxmeta 2 16), (0x800000E7, .chbeg false true), (0xC00000E7, .chend false true),
    (0x029030EB, .spcmp 1 1 16 false 48 true), (0x129030EB, .spexp 1 1 16 false 48 true), (0xA41030EB, .scac 2 8 16 false 48 true),
    (0x349030EB, .bsq 9 16 false 48 true), (0x101000EF, .boinit 32 16 true), (0x501000EF, .boexp 32 16 true), (0x801000EF, .boarr 16 true),
    (0xD01000EF, .waitph 32 16)] : List (Nat × Instr)).all (fun x => decide (decode (leBytes 4 x.1) = some (x.2, []))) = true := by
  decide +kernel

theorem test_decode_transfer_and_system_words : ([
    (0x001000F3, .cpiss 16), (0x401000F3, .rsend 16), (0x800030F3, .rrecv false 48), (0xC10030F3, .rstat 2 false 48 true), (0x001000F7, .trap 16),
    (0x401000F7, .tfence 16), (0x808000F7, .xret true), (0xC01000F7, .errclr 16 true), (0x010030FB, .rdsp 2 false 48 true),
    (0x461000FB, .wrsp 12 16 true), (0x801000FB, .cbset 16 true), (0xC01030FB, .carve 16 false 48)] : List (Nat × Instr)).all (fun x => decide (decode (leBytes 4 x.1) = some (x.2, []))) = true := by
  decide +kernel

theorem test_decode_extension_words : ([
    (0x000030FF, .ptog false 48 true), (0x009000FF, .gtop 16 true), (0x011030FF, .sctime 16 false 48 true), (0x018000FF, .genend),
    (0x020030FF, .genstat false 48 true), (0x029000FF, .tlbib 16 0), (0x031000FF, .tlbil 16 0 true), (0x038000FF, .lvend true),
    (0x040030FF, .kstat false 48 true), (0x048000FF, .bkpt), (0x051006FF, .waitphSt 16 true 2), (0x058030FF, .errrd false 48 true),
    (0x060030FF, .clkrd false 48 true)] : List (Nat × Instr)).all (fun x => decide (decode (leBytes 4 x.1) = some (x.2, []))) = true := by
  decide +kernel

theorem test_decode_short_words : ([
    (0x4D82, .mov 9 22 true), (0x4D86, .add16 9 22 true), (0x4D8A, .sub16 9 22 true), (0x4D8E, .mullo16 9 22 true), (0x4D92, .and16 9 22 true),
    (0x4D96, .or16 9 22 true), (0x4D9A, .xor16 9 22 true), (0x4D9E, .shl16 9 22 true), (0x4DA2, .shrU16 9 22 true), (0x4DA6, .shrS16 9 22 true),
    (0x4DAA, .minS16 9 22 true), (0x4DAE, .maxS16 9 22 true), (0x4DB2, .fadd16 9 22 true), (0x4DB6, .fsub16 9 22 true), (0x4DBA, .fmul16 9 22 true),
    (0x4DBE, .fmax16 9 22 true)] : List (Nat × Instr)).all (fun x => decide (decode (leBytes 2 x.1) = some (x.2, []))) = true := by
  decide +kernel

/-! ## Ill-formed terms (R18, R20, R50, R52): one refused by each check, and a term beside it that the check admits -/

theorem test_wf_refuses_latch_destination : (Instr.add 1 1 false 124 false).wf = false ∧ (Instr.add 1 1 false 123 false).wf = true := by decide

theorem test_wf_refuses_odd_pairs :
    (Instr.mulwS 1 1 false 3 false).wf = false ∧ (Instr.callr 5).wf = false ∧ (Instr.mulwS 1 1 false 4 false).wf = true ∧ (Instr.callr 125).wf = true := by decide

theorem test_wf_refuses_unaligned_groups :
    (Instr.rayld 2 false 24 false).wf = false ∧ (Instr.ldG 0 4 2 false 6 false).wf = false ∧ (Instr.ldG 0 5 2 false 120 false).wf = false ∧
      (Instr.ldG 0 5 2 false 112 false).wf = true := by decide

theorem test_wf_refuses_short_words :
    [Instr.add16 1 28 false, .mov 0 31 false, .mov 0 0 false].all (fun i => !i.wf) = true ∧
      [Instr.add16 31 27 false, .mov 0 0 true].all Instr.wf = true := by decide

theorem test_wf_refuses_conditions :
    ([.icmp 2 2 2 0 0 false, .icmp 0 2 2 12 0 false, .fcmp 3 2 2 0 0 false, .fcmp 0 2 2 8 0 false] : List Instr).all (fun i => !i.wf) = true ∧
      ([.icmp 1 2 2 11 0 false, .fcmp 2 2 2 7 0 false] : List Instr).all Instr.wf = true := by decide

theorem test_wf_refuses_conversions :
    ([.cvt 0 0x1D 2 false 2 false, .cvt 1 0x0C 2 false 2 false, .cvt 3 0x14 2 false 2 false, .cvt 0 0x1B 3 false 2 false, .cvt 0 2 2 false 3 false] : List Instr).all (fun i => !i.wf) = true ∧
      ([.cvt 3 0 3 false 3 false, .cvt 0 0x1C 3 false 3 false] : List Instr).all Instr.wf = true := by decide

theorem test_wf_refuses_control :
    ([.jtab 0 1 0, .heel 0 0 124, .heel 0 124 0, .heel 127 0 0] : List Instr).all (fun i => !i.wf) = true ∧
      ([.jtab 0 1 1, .heel 123 0 0] : List Instr).all Instr.wf = true := by decide

theorem test_wf_refuses_carried_runs :
    ([.knead 1 1 0, .knead 1 1 9, .knead 117 1 8, .knead 0 1 1] : List Instr).all (fun i => !i.wf) = true ∧
      ([.knead 116 1 8] : List Instr).all Instr.wf = true := by decide

theorem test_wf_refuses_sizes :
    ([.ldG 0 6 2 false 8 false, .stG 0 6 2 8 false, .ldS 0 7 2 false 8 false, .stS 0 6 2 8 false, .ldfe false 0 6 2 false 8, .stfe 0 7 2 8, .ldraw 5 2 false 8 false] : List Instr).all (fun i => !i.wf) = true ∧
      ([.ldraw 4 2 false 8 false] : List Instr).all Instr.wf = true := by decide

theorem test_wf_refuses_stored_latches :
    ([.stG 0 4 2 124 false, .stS 0 5 2 124 false, .stG 0 3 2 3 false] : List Instr).all (fun i => !i.wf) = true ∧
      ([.stG 0 3 2 124 false, .stS 0 2 2 127 false] : List Instr).all Instr.wf = true := by decide

theorem test_wf_refuses_scopes :
    ([.acq false 2 7, .rel true 2 7, .fence 7] : List Instr).all (fun i => !i.wf) = true ∧
      ([.acq true 3 6, .rel false 2 6, .fence 6] : List Instr).all Instr.wf = true := by decide

theorem test_wf_refuses_queues :
    ([.qpush 12 4, .qpush 3 4, .qpop 0 false 4, .qpop 4 false 4, .qpoll 7 0 false 4 false, .qstat 12 false 4 false] : List Instr).all (fun i => !i.wf) = true ∧
      ([.qpush 8 4, .qpop 5 false 4, .qpoll 11 0 false 4 false, .qstat 0 false 4 false] : List Instr).all Instr.wf = true := by decide

theorem test_wf_refuses_matrix_fields :
    ([.mxmeta 3 4, .spcmp 3 0 8 false 8 false, .spcmp 0 3 8 false 8 false, .spexp 2 0 4 false 8 false, .spexp 3 0 8 false 8 false] : List Instr).all (fun i => !i.wf) = true ∧
      ([.mxmeta 2 5, .spcmp 2 2 8 false 8 false, .spexp 0 0 4 false 4 false] : List Instr).all Instr.wf = true := by decide

theorem test_wf_refuses_system_fields :
    ([.rstat 3 false 4 false, .rdsp 18 false 4 false, .rdsp 8 false 5 false, .wrsp 0 4 false, .wrsp 13 5 false, .tlbib 4 2, .tlbib 4 1, .tlbil 4 3 false] : List Instr).all (fun i => !i.wf) = true ∧
      ([.rstat 2 false 4 false, .rdsp 17 false 5 false, .wrsp 17 5 false, .tlbib 4 0, .tlbib 0 1] : List Instr).all Instr.wf = true := by decide

/-! ## Words that are no instruction (R39–R43, R50, R52): reserved minors, bits that must be zero, N and E out of place -/

theorem test_decode_refuses : ([
    -- reserved minors and sub-operations: HFMA2 F = 2, ACAS.SC F = 1, HEEL F = 1, sub9 0x00D and 0x1FF
    0x20000071, 0x100000C1, 0x40000083, 0x068000FD, 0xFF8000FD,
    -- bits that must be zero: SHIFTI [6:5], PAND [22:18], POPC B, BR bit 11, JR [31:23], RET [31:11], BAR.SYNC [29:27]
    0x10000029, 0x00040045, 0x0080003B, 0x00000877, 0x0080027B, 0x00000C7B, 0x080000A7,
    -- N = 1 where no register is written: PAND, ST.G, HEEL; JTAB bit 15
    0x00008045, 0x000080B1, 0x00008083, 0x0000817F,
    -- E = 0 on an instruction that ends its loaf: BR, JMP, RET, JTAB, HEEL
    0x00000075, 0x00000079, 0x00000479, 0x0000017D, 0x00000081] : List Nat).all
      (fun w => decide (decode (leBytes 4 w) = none)) = true := by
  decide +kernel

theorem test_decode_refuses_zero_and_short :
    decode (leBytes 2 0) = none ∧ decode [0x01, 0x00, 0x00] = none ∧ decode [0x04] = none ∧ decode [] = none := by
  decide +kernel

/-! ## Small states: one thread of one block on core 0, whose tables map the first GiB to itself (`State.bare`) -/

def t0 : TRef := ⟨0, 0, 0⟩

def br0 : BRef := ⟨0, 0⟩

/-- The general registers named, with their values. -/
def regs (l : List (Nat × Word)) (th : Thread) : Thread := l.foldl (fun th x => th.setG x.1 x.2) th

/-- One running thread; its block has one way of scratchpad. -/
def one (f : Thread → Thread := id) (b : Block → Block := id) (w : Warp → Warp := id) (c : Core → Core := id) : State :=
  let s := State.reset.bare
  (((s.modThread t0 fun th => f { th with xvec := 0x9000 }).modBlock br0 fun x => b { x with scratch := 16384, pways := [0] }).modWarp 0 0 w).modCore 0 c

/-- The state after an instruction, and whether it answered a next state. -/
def after (i : Instr) (s : State) : State := match exec i s with | .next t => t | _ => s

def runs (i : Instr) (s : State) : Bool := match exec i s with | .next _ => true | _ => false

/-- From registers `ins` the instruction executes whole for a clean group, and leaves the registers `outs` and the flags `fl`. -/
def gives (i : Instr) (ins outs : List (Nat × Word)) (fl : BitVec 5 := 0) : Bool :=
  let s := one (regs ins)
  let th := (after i s).thread t0
  decide (Clean i s) && runs i s && outs.all (fun x => decide (th.rd x.1 = x.2)) && decide (th.aflags = fl) &&
    decide (th.pc = 0x12000 + BitVec.ofNat 64 i.len)

theorem test_integer_arithmetic : ([
    gives (.add 2 1 false 3 false) [(1, 0x80000005), (2, 0xC07)] [(3, 0x80000C0C)],
    gives (.add 2 1 false 3 false) [(1, 0xFFFFFFFF), (2, 0x5)] [(3, 0x4)],
    gives (.sub 2 1 false 3 false) [(1, 0x80000005), (2, 0xC07)] [(3, 0x7FFFF3FE)],
    gives (.and 2 1 false 3 false) [(1, 0x80000005), (2, 0xC07)] [(3, 0x5)],
    gives (.or 2 1 false 3 false) [(1, 0x80000005), (2, 0xC07)] [(3, 0x80000C07)],
    gives (.xor 2 1 false 3 false) [(1, 0x80000005), (2, 0xC07)] [(3, 0x80000C02)],
    gives (.andn 2 1 false 3 false) [(1, 0x80000005), (2, 0xC07)] [(3, 0x80000000)],
    gives (.minS 2 1 false 3 false) [(1, 0x80000005), (2, 0xC07)] [(3, 0x80000005)],
    gives (.maxS 2 1 false 3 false) [(1, 0x80000005), (2, 0xC07)] [(3, 0xC07)],
    gives (.minU 2 1 false 3 false) [(1, 0x80000005), (2, 0xC07)] [(3, 0xC07)],
    gives (.maxU 2 1 false 3 false) [(1, 0x80000005), (2, 0xC07)] [(3, 0x80000005)],
    gives (.absdS 2 1 false 3 false) [(1, 0x80000005), (2, 0xC07)] [(3, 0x80000C02)],
    gives (.addsatS 2 1 false 3 false) [(1, 0x80000005), (2, 0xFFFFFF00)] [(3, 0x80000000)],
    gives (.addsatS 2 1 false 3 false) [(1, 0x7FFFFFF0), (2, 0x20)] [(3, 0x7FFFFFFF)],
    gives (.shl 2 1 false 3 false) [(1, 0x80000005), (2, 0xC07)] [(3, 0x280)],
    gives (.shl 2 1 false 3 false) [(1, 0x80000005), (2, 0x20)] [(3, 0x0)],
    gives (.shrU 2 1 false 3 false) [(1, 0x80000005), (2, 0xC07)] [(3, 0x1000000)],
    gives (.shrU 2 1 false 3 false) [(1, 0x80000005), (2, 0x21)] [(3, 0x0)],
    gives (.shrS 2 1 false 3 false) [(1, 0x80000005), (2, 0xC07)] [(3, 0xFF000000)],
    gives (.shrS 2 1 false 3 false) [(1, 0x80000005), (2, 0xFF)] [(3, 0xFFFFFFFF)],
    gives (.rotl 2 1 false 3 false) [(1, 0x80000005), (2, 0xC07)] [(3, 0x2C0)],
    gives (.mullo 2 1 false 3 false) [(1, 0x80000005), (2, 0xC07)] [(3, 0x80003C23)],
    gives (.mulhiS 2 1 false 3 false) [(1, 0x80000005), (2, 0xC07)] [(3, 0xFFFFF9FC)],
    gives (.mulhiU 2 1 false 3 false) [(1, 0x80000005), (2, 0xC07)] [(3, 0x603)],
    gives (.mulwS 2 1 false 4 false) [(1, 0x80000005), (2, 0xC07)] [(4, 0x80003C23), (5, 0xFFFFF9FC)],
    gives (.bfeU 2 1 false 3 false) [(1, 0x89ABCDEF), (2, 0xC04)] [(3, 0xCDE)],
    gives (.bfeS 2 1 false 3 false) [(1, 0x89ABCDEF), (2, 0xC04)] [(3, 0xFFFFFCDE)],
    gives (.bfeU 2 1 false 3 false) [(1, 0x89ABCDEF), (2, 0xC1C)] [(3, 0x8)],
    gives (.permb 2 1 false 3 false) [(1, 0x80223311), (2, 0x8370)] [(3, 0x80FF11)]] : List Bool).all id = true := by decide +kernel

theorem test_multiply_add : ([
    gives (.mad 0 2 1 false 3 false) [(1, 0x80000005), (2, 0xC07), (3, 0x11)] [(3, 0x80003C34)],
    gives (.madwS 0 2 1 false 4 false) [(1, 0x80000005), (2, 0xC07), (4, 0xFFFFFFFF), (5, 0x12345678)] [(4, 0x80003C22), (5, 0x12345075)],
    gives (.dot4I8 0 2 1 false 3 false) [(1, 0x807F0102), (2, 0x2FF8003), (3, 0x11)] [(3, 0xFFFFFE18)],
    gives (.dot4N8 0 2 1 false 3 false) [(1, 0x807F0102), (2, 0x2FF8003), (3, 0x11)] [(3, 0x8018)]] : List Bool).all id = true := by decide +kernel

theorem test_immediates : ([
    gives (.addi 511 1 false 3 false) [(1, 0x80000005)] [(3, 0x80000004)],
    gives (.andi 510 1 false 3 false) [(1, 0x80000005)] [(3, 0x80000004)],
    gives (.ori 256 1 false 3 false) [(1, 0x80000005)] [(3, 0xFFFFFF05)],
    gives (.xori 255 1 false 3 false) [(1, 0x80000005)] [(3, 0x800000FA)],
    gives (.shli 4 1 false 3 false) [(1, 0x80000005)] [(3, 0x50)],
    gives (.shriU 4 1 false 3 false) [(1, 0x80000005)] [(3, 0x8000000)],
    gives (.shriS 31 1 false 3 false) [(1, 0x80000005)] [(3, 0xFFFFFFFF)],
    gives (.rotli 1 1 false 3 false) [(1, 0x80000005)] [(3, 0xB)],
    gives (.movh 0x8001 false 3 false) [] [(3, 0x80010000)],
    gives (.orl 0x8001 false 3 false) [(3, 0x7FFF0000)] [(3, 0x7FFF8001)]] : List Bool).all id = true := by decide +kernel

theorem test_bit_fields : ([
    gives (.bfi 2 1 false 3 false) [(1, 0x5A), (2, 0x804), (3, 0xFFFFFFFF)] [(3, 0xFFFFF5AF)],
    gives (.popc 1 false 3 false) [(1, 0x8000F000)] [(3, 0x5)],
    gives (.clz 1 false 3 false) [(1, 0x0)] [(3, 0x20)],
    gives (.clz 1 false 3 false) [(1, 0x10000000)] [(3, 0x3)],
    gives (.brev 1 false 3 false) [(1, 0x80000003)] [(3, 0xC0000001)],
    gives (.neg 1 false 3 false) [(1, 0x80000000)] [(3, 0x80000000)],
    gives (.neg 1 false 3 false) [(1, 0x1)] [(3, 0xFFFFFFFF)]] : List Bool).all id = true := by decide +kernel

theorem test_float_arithmetic : ([
    gives (.fadd 2 1 false 3 false) [(1, 0x3F800000), (2, 0x40000000)] [(3, 0x40400000)],
    gives (.fadd 2 1 false 3 false) [(1, 0x3F800000), (2, 0x33800000)] [(3, 0x3F800000)] 1,
    gives (.fsub 2 1 false 3 false) [(1, 0x3F800000), (2, 0x3F800000)] [(3, 0x0)],
    gives (.fsub 2 1 false 3 false) [(1, 0x7F800000), (2, 0x7F800000)] [(3, 0x7FC00000)] 16,
    gives (.fmul 2 1 false 3 false) [(1, 0x40400000), (2, 0xBF000000)] [(3, 0xBFC00000)],
    gives (.fmul 2 1 false 3 false) [(1, 0x7F7FFFFF), (2, 0x40000000)] [(3, 0x7F800000)] 5,
    gives (.fmax 2 1 false 3 false) [(1, 0x80000000), (2, 0x0)] [(3, 0x0)],
    gives (.fmin 2 1 false 3 false) [(1, 0x3F800000), (2, 0xBF800000)] [(3, 0xBF800000)],
    gives (.fcopysign 2 1 false 3 false) [(1, 0x3F800000), (2, 0x80000000)] [(3, 0xBF800000)],
    gives (.fabs 1 false 3 false) [(1, 0xBF800000)] [(3, 0x3F800000)],
    gives (.fneg 1 false 3 false) [(1, 0x7FC00000)] [(3, 0xFFC00000)],
    gives (.ffma 0 2 1 false 3 false) [(1, 0x40400000), (2, 0x40000000), (3, 0x3F800000)] [(3, 0x40E00000)],
    gives (.ffms 0 2 1 false 3 false) [(1, 0x40400000), (2, 0x40000000), (3, 0x3F800000)] [(3, 0x40A00000)],
    gives (.fnfma 0 2 1 false 3 false) [(1, 0x40400000), (2, 0x40000000), (3, 0x3F800000)] [(3, 0xC0A00000)],
    gives (.fmad2 0 2 1 false 3 false) [(1, 0x40400000), (2, 0x40000000), (3, 0x3F800000)] [(3, 0x40E00000)]] : List Bool).all id = true := by decide +kernel

theorem test_special_functions : ([
    gives (.rcp 1 false 3 false) [(1, 0x40000000)] [(3, 0x3F000000)],
    gives (.rsq 1 false 3 false) [(1, 0x40800000)] [(3, 0x3F000000)],
    gives (.ex2 1 false 3 false) [(1, 0x40400000)] [(3, 0x41000000)],
    gives (.lg2 1 false 3 false) [(1, 0x41000000)] [(3, 0x40400000)],
    gives (.sqrt 1 false 3 false) [(1, 0x41100000)] [(3, 0x40400000)],
    gives (.sin 1 false 3 false) [(1, 0x0)] [(3, 0x0)],
    gives (.cos 1 false 3 false) [(1, 0x0)] [(3, 0x3F800000)],
    gives (.tanh 1 false 3 false) [(1, 0x0)] [(3, 0x0)],
    gives (.rcp 1 false 3 false) [(1, 0x0)] [(3, 0x7F800000)] 8,
    gives (.sqrt 1 false 3 false) [(1, 0xBF800000)] [(3, 0x7FC00000)] 16] : List Bool).all id = true := by decide +kernel

theorem test_conversions : ([
    gives (.cvt 0 18 2 false 4 false) [(2, 0x40200000)] [(4, 0x2)] 1,
    gives (.cvt 2 18 2 false 4 false) [(2, 0xC0200000)] [(4, 0xFFFFFFFD)] 1,
    gives (.cvt 0 18 2 false 4 false) [(2, 0x42FF0000)] [(4, 0x7F)] 5,
    gives (.cvt 3 18 2 false 4 false) [(2, 0xBEC00000)] [(4, 0x0)] 1,
    gives (.cvt 0 19 2 false 4 false) [(2, 0xBF800000)] [(4, 0x0)] 5,
    gives (.cvt 0 18 2 false 4 false) [(2, 0x7FC00000)] [(4, 0x0)] 16,
    gives (.cvt 0 10 2 false 4 false) [(2, 0x3ED00000)] [(4, 0x2D)],
    gives (.cvt 0 10 2 false 4 false) [(2, 0x3F980000)] [(4, 0x3A)] 1,
    gives (.cvt 1 10 2 false 4 false) [(2, 0xC0700000)] [(4, 0xC7)],
    gives (.cvt 0 10 2 false 4 false) [(2, 0x43F80000)] [(4, 0x7F)] 5,
    gives (.cvt 0 10 2 false 4 false) [(2, 0x80000000)] [(4, 0x0)],
    gives (.cvt 0 10 2 false 4 false) [(2, 0x7FC00000)] [(4, 0x80)],
    gives (.cvt 0 11 2 false 4 false) [(2, 0x40A00000)] [(4, 0x15)],
    gives (.cvt 0 11 2 false 4 false) [(2, 0x41700000)] [(4, 0x1B)] 5,
    gives (.cvt 0 11 2 false 4 false) [(2, 0xFF800000)] [(4, 0x3B)] 5,
    gives (.cvt 0 9 2 false 4 false) [(2, 0x3F818000)] [(4, 0x3F82)] 1,
    gives (.cvt 1 9 2 false 4 false) [(2, 0x7F7FFFFF)] [(4, 0x7F7F)] 1,
    gives (.cvt 0 9 2 false 4 false) [(2, 0x7FA00000)] [(4, 0x7FC0)] 16,
    gives (.cvt 0 8 2 false 4 false) [(2, 0x4788B800)] [(4, 0x7BFF)] 5,
    gives (.cvt 0 8 2 false 4 false) [(2, 0x33000000)] [(4, 0x0)] 3,
    gives (.cvt 1 0 2 false 4 false) [(2, 0xBFC00000)] [(4, 0xFFFFFFFF)] 1,
    gives (.cvt 0 2 2 false 4 false) [(2, 0x53800000)] [(4, 0x0), (5, 0x100)],
    gives (.cvt 3 4 2 false 4 false) [(2, 0x1000001)] [(4, 0x4B800001)] 1,
    gives (.cvt 0 6 2 false 4 false) [(2, 0x0), (3, 0x100)] [(4, 0x53800000)],
    gives (.cvt 0 14 2 false 4 false) [(2, 0x38)] [(4, 0x3F800000)],
    gives (.cvt 0 15 2 false 4 false) [(2, 0x20)] [(4, 0x80000000)],
    gives (.cvt 0 20 2 false 4 false) [(2, 0x9C40)] [(4, 0x7FFF)] 5,
    gives (.cvt 0 21 2 false 4 false) [(2, 0xFFFFFFFF)] [(4, 0x0)] 5,
    gives (.cvt 0 26 2 false 4 false) [(2, 0x5), (3, 0x1)] [(4, 0x7FFFFFFF)] 5,
    gives (.cvt 0 28 2 false 4 false) [(2, 0x40200000)] [(4, 0x40000000)] 1,
    gives (.cvt 3 28 2 false 4 false) [(2, 0x40200000)] [(4, 0x40400000)] 1] : List Bool).all id = true := by decide +kernel

theorem test_packing : ([
    gives (.pkbf 2 1 false 3 false) [(1, 0x3F818000), (2, 0x40000000)] [(3, 0x40003F82)] 1,
    gives (.pkh8 2 1 false 3 false) [(1, 0xC0703ED0), (2, 0x3F80)] [(3, 0x38C72D)],
    gives (.upkbf 2 false 4 false) [(2, 0xC0003F80)] [(4, 0x3F800000), (5, 0xC0000000)],
    gives (.upkh8 2 false 4 false) [(2, 0x80C7382D)] [(4, 0x3F803ED0), (5, 0x7FC0C070)]] : List Bool).all id = true := by decide +kernel

theorem test_pairs_and_codebooks : ([
    gives (.hadd2 2 1 false 3 false) [(1, 0x40003F80), (2, 0x40404000)] [(3, 0x40A04040)],
    gives (.hsub2 2 1 false 3 false) [(1, 0x40003F80), (2, 0x40404000)] [(3, 0xBF80BF80)],
    gives (.hmul2 2 1 false 3 false) [(1, 0x40003F80), (2, 0x40404000)] [(3, 0x40C04000)],
    gives (.hmax2 2 1 false 3 false) [(1, 0x40003F80), (2, 0x3F804000)] [(3, 0x40004000)],
    gives (.hfma2 0 2 1 false 3 false) [(1, 0x40003F80), (2, 0x40404000), (3, 0x3F803F80)] [(3, 0x40E04040)],
    gives (.hfms2 0 2 1 false 3 false) [(1, 0x40003F80), (2, 0x40404000), (3, 0x3F803F80)] [(3, 0x40A03F80)],
    gives (.nqq 2 1 false 3 false) [(1, 0x3F19999A), (2, 0xC0000000)] [(3, 0xD)] 5,
    gives (.nqx 2 1 false 3 false) [(1, 0xD), (2, 0x0)] [(3, 0xBF803F10)]] : List Bool).all id = true := by decide +kernel

theorem test_short_forms : ([
    gives (.mov 2 3 false) [(3, 0x80000005), (2, 0xC07)] [(3, 0xC07)],
    gives (.add16 2 3 false) [(3, 0x80000005), (2, 0xC07)] [(3, 0x80000C0C)],
    gives (.sub16 2 3 false) [(3, 0x80000005), (2, 0xC07)] [(3, 0x7FFFF3FE)],
    gives (.mullo16 2 3 false) [(3, 0x80000005), (2, 0xC07)] [(3, 0x80003C23)],
    gives (.and16 2 3 false) [(3, 0x80000005), (2, 0xC07)] [(3, 0x5)],
    gives (.or16 2 3 false) [(3, 0x80000005), (2, 0xC07)] [(3, 0x80000C07)],
    gives (.xor16 2 3 false) [(3, 0x80000005), (2, 0xC07)] [(3, 0x80000C02)],
    gives (.shl16 2 3 false) [(3, 0x80000005), (2, 0xC07)] [(3, 0x280)],
    gives (.shrU16 2 3 false) [(3, 0x80000005), (2, 0xC07)] [(3, 0x1000000)],
    gives (.shrS16 2 3 false) [(3, 0x80000005), (2, 0xC07)] [(3, 0xFF000000)],
    gives (.minS16 2 3 false) [(3, 0x80000005), (2, 0xC07)] [(3, 0x80000005)],
    gives (.maxS16 2 3 false) [(3, 0x80000005), (2, 0xC07)] [(3, 0xC07)],
    gives (.fadd16 2 3 false) [(3, 0x3F800000), (2, 0x40000000)] [(3, 0x40400000)],
    gives (.fsub16 2 3 false) [(3, 0x3F800000), (2, 0x40000000)] [(3, 0xBF800000)],
    gives (.fmul16 2 3 false) [(3, 0x40400000), (2, 0xBF000000)] [(3, 0xBFC00000)],
    gives (.fmax16 2 3 false) [(3, 0x3F800000), (2, 0x40000000)] [(3, 0x40000000)],
    gives (.add16 2 0 true) [(2, 0x5)] [(0, 0x0)]] : List Bool).all id = true := by decide +kernel

theorem test_geometry_and_matrix_lanes : ([
    gives (.tcmp 32 16 false 3 false) [(26, 0x1), (30, 0x1), (42, 0x0), (46, 0x1)] [(3, 0x1)],
    gives (.tcmp 32 16 false 3 false) [(26, 0x1), (30, 0x2), (42, 0x2), (46, 0x4), (29, 0x7), (45, 0x8)] [(3, 0xFFFFFFFF)],
    gives (.tcmp 32 16 false 3 false) [(30, 0x0), (46, 0x0)] [(3, 0x0)],
    gives (.tcvt 16 false 3 false) [(26, 0x3), (30, 0x2)] [(3, 0x3FC00000)],
    gives (.refit 3 4 false 5 false) [(4, 0x2BC012C), (5, 0x1000000), (3, 0x3E803E8)] [(5, 0x1330021)],
    gives (.vtxq 3 4 false 5 false) [(4, 0x1800), (5, 0x12C000), (3, 0x800)] [(5, 0x300FF02)],
    gives (.spcmp 0 2 8 false 16 false) [(8, 0x7F904), (9, 0x800CFD03), (10, 0xFE020701), (11, 0xF9040009)] [(16, 0xFC976210), (17, 0xC07F904), (18, 0xF9090780), (19, 0x0)],
    gives (.spexp 0 2 16 false 24 false) [(16, 0xFC976210), (17, 0xC07F904), (18, 0xF9090780)] [(24, 0x7F904), (25, 0x800C0000), (26, 0x700), (27, 0xF9000009)],
    gives (.spexp 0 2 16 false 24 false) [(16, 0xFC976610), (17, 0xC07F904), (24, 0x5)] [(24, 0x0), (27, 0x0)] 16,
    gives (.scac 0 4 1 false 3 false) [(1, 0x41480000), (4, 0x33), (5, 0x40000000)] [(3, 0x40A00000)],
    gives (.scac 0 4 1 false 3 false) [(1, 0x3F800000), (4, 0x1), (5, 0x3F800000)] [(3, 0x3B808081)] 1,
    gives (.bsq 6 4 false 7 false) [(4, 0x40400000), (6, 0x40800000), (7, 0x0)] [(7, 0xC0)]] : List Bool).all id = true := by decide +kernel

/-! ## Predicates, reads of state and control (R91–R94, R107–R112) -/

def preds (th : Thread) : List Bool := [th.pred 0, th.pred 1, th.pred 2, th.pred 3]

def givesPreds (i : Instr) (f : Thread → Thread) (ps : List Bool) : Bool :=
  decide (Clean i (one f)) && runs i (one f) && decide (preds ((after i (one f)).thread t0) = ps)

theorem test_compares_and_predicates : ([
    -- 0xFFFFFFFF and 1: less as signed values, not as unsigned ones; in pairs the high words decide; a write of p0 is discarded
    givesPreds (.icmp 0 5 4 2 1 false) (regs [(4, 0xFFFFFFFF), (5, 1)]) [true, true, false, false],
    givesPreds (.icmp 0 5 4 6 1 false) (regs [(4, 0xFFFFFFFF), (5, 1)]) [true, false, false, false],
    givesPreds (.icmp 1 6 4 8 3 false) (regs [(4, 0), (5, 1), (6, 0xFFFFFFFF)]) [true, false, false, true],
    givesPreds (.icmp 0 5 4 11 0 false) (regs [(4, 1), (5, 1)]) [true, false, false, false],
    -- 1.0 in FP32, the high halves ignored in BF16; an unordered operand
    givesPreds (.fcmp 0 5 4 2 1 false) (regs [(4, 0x3F800000), (5, 0x40000000)]) [true, true, false, false],
    givesPreds (.fcmp 1 5 4 0 2 false) (regs [(4, 0x12343F80), (5, 0x3F80)]) [true, false, true, false],
    givesPreds (.fcmp 2 5 4 0 1 false) (regs [(4, 0x7E00), (5, 0x7E00)]) [true, false, false, false],
    givesPreds (.pand 3 2 1 false) (fun th => { th with p2 := true, p3 := true }) [true, true, true, true],
    givesPreds (.por 3 2 1 false) (fun th => { th with p3 := true }) [true, true, false, true],
    givesPreds (.pxor 3 2 1 false) (fun th => { th with p2 := true, p3 := true }) [true, false, true, true],
    givesPreds (.pnot 0 1 false) (fun th => { th with p1 := true }) [true, false, false, false],
    givesPreds (.gtop 4 false) (fun th => regs [(4, 0xFFFFFFF5)] { th with p1 := true }) [true, false, true, false],
    gives (.sel 0 5 4 false 7 false) [(4, 1), (5, 2)] [(7, 1)],
    gives (.sel 1 5 4 false 7 false) [(4, 1), (5, 2)] [(7, 2)],
    gives (.ptog false 7 false) [] [(7, 1)]] : List Bool).all id = true := by decide +kernel

theorem test_status_reads : ([
    gives (.rdk 63 false 7 false) [] [(7, 1)], gives (.rdk 0 false 7 false) [] [(7, 0)], gives (.kstat false 7 false) [] [(7, 0)],
    gives (.genstat false 7 false) [] [(7, 0)], gives (.qstat 3 false 7 false) [] [(7, 0x1000)], gives (.qstat 11 false 7 false) [] [(7, 0x4000)],
    gives (.clkrd false 6 false) [] [(6, 0), (7, 0)], gives (.rstat 2 false 7 false) [] [(7, 0)]] : List Bool).all id = true := by decide +kernel

theorem test_codebook_words :
    -- T[0] = 1.0 and T[1] = 2.0 in k48: byte 0 of A is code pair (1, 0)
    let s := one (regs [(1, 0x10)]) id fun w => { w with k := w.k.setIfInBounds 48 0x40003F80 }
    let q := one (regs [(1, 0x40000000), (2, 0x3F800000)]) id fun w => { w with k := w.k.setIfInBounds 48 0x40003F80 }
    Clean (.cbx 0 1 false 3 false) s ∧ ((after (.cbx 0 1 false 3 false) s).thread t0).rd 3 = 0x40003F80 ∧
      Clean (.cbq 2 1 false 3 false) q ∧ ((after (.cbq 2 1 false 3 false) q).thread t0).rd 3 = 0x01 := by decide +kernel

/-- The pc of the thread after an instruction. -/
def goes (i : Instr) (f : Thread → Thread) : Dword := ((after i (one f)).thread t0).pc

theorem test_control_transfers :
    -- off20 counts 2-byte units from the next instruction, at 0x12004
    (Clean (.br 0xFFFFE false 0) (one) ∧ goes (.br 0xFFFFE false 0) id = 0x12000) ∧
      (Clean (.br 0x7E true 0) (one) ∧ goes (.br 0x7E true 0) id = 0x12004) ∧
      (Clean (.jmp 0x7E) (one) ∧ goes (.jmp 0x7E) id = 0x12100) ∧
      (Clean (.call 0x7E) (one) ∧ goes (.call 0x7E) id = 0x12100 ∧ ((after (.call 0x7E) one).thread t0).pair 2 = 0x12004) ∧
      (Clean (.jr 8) (one (regs [(8, 0xFFFFFFFE), (9, 0xFFFF)])) ∧ goes (.jr 8) (regs [(8, 0xFFFFFFFE), (9, 0xFFFF)]) = 0xFFFF_FFFF_FFFE) ∧
      (Clean (.callr 8) (one (regs [(8, 0x400)])) ∧ goes (.callr 8) (regs [(8, 0x400)]) = 0x400 ∧
        ((after (.callr 8) (one (regs [(8, 0x400)]))).thread t0).pair 2 = 0x12004) ∧
      (Clean .ret (one (regs [(2, 0x600)])) ∧ goes .ret (regs [(2, 0x600)]) = 0x600) := by decide +kernel

/-- The thread has trapped to its handler with a cause and an address, its pc saved. -/
def trapped (i : Instr) (s : State) (code : Nat) (addr : Dword) (after_ : Bool := false) : Bool :=
  let th := (after i s).thread t0
  decide (Alone i s t0) && decide (MayTrap s t0) && runs i s && decide (th.pc = (s.thread t0).xvec) && decide (th.xaddr = addr) &&
    decide (th.xcause.toNat % 256 = code) && decide (th.xpc = (s.thread t0).pc + if after_ then 4 else 0) && th.trap.isSome

theorem test_transfer_faults : ([
    -- a target below 0, at 2^48, and an odd one (R109)
    trapped (.br 0x80000 false 0) (one fun th => { th with pc := 0 }) 1 (0xFFFFFFFFFFF00004),
    trapped (.jmp 0x80000) (one fun th => { th with pc := 0 }) 1 (0xFFFFFFFFFFF00004),
    trapped (.call 0) (one fun th => { th with pc := 0xFFFFFFFFFFFC }) 1 0x1000000000000,
    trapped (.jr 8) (one (regs [(9, 0x10000)])) 1 0x1000000000000, trapped (.jr 8) (one (regs [(8, 1)])) 4 1,
    trapped (.callr 8) (one (regs [(9, 0x10000)])) 1 0x1000000000000, trapped (.callr 8) (one (regs [(8, 0xFFFFFFFF), (9, 0xFFFF)])) 4 0xFFFFFFFFFFFF,
    trapped .ret (one (regs [(3, 0x10000)])) 1 0x1000000000000, trapped .ret (one (regs [(2, 3)])) 4 3] : List Bool).all id = true := by
  decide +kernel

/-- A jump table of two entries at T = 0x12004 (R43): the first leads to 0x12104, the second to an odd address. -/
def tabled (e0 e1 idx : Nat) : State :=
  let s := one (regs [(5, BitVec.ofNat 32 idx)])
  { s with mem := cellWrite s.mem 0x12004 (leBytes 4 e0 ++ leBytes 4 e1) }

theorem test_jump_table :
    (Alone (.jtab 0 5 2) (tabled 0x100 0x101 0) t0 ∧ ((after (.jtab 0 5 2) (tabled 0x100 0x101 0)).thread t0).pc = 0x12104) ∧
      trapped (.jtab 0 5 2) (tabled 0x100 0x101 1) 4 0x12105 ∧ trapped (.jtab 0 5 2) (tabled 0x100 0x101 2) 5 2 ∧
      trapped (.jtab 0 5 2) (tabled 0x80000000 0 0) 1 0xFFFFFFFF80012004 ∧
      trapped (.jtab 0 5 127) (one fun th => regs [(5, 126)] { th with pc := 0x3FFFFFE0 }) 1 0x400001DC := by decide +kernel

theorem test_loaf_ends :
    (∀ i ∈ [Instr.nop false, .nop true, .lvend false, .heel 0 4 5, .join, .exit], Alone i one t0 ∧ runs i one = true) ∧
      ((after .join one).thread t0).st = .waiting (.join 0x12000) ∧ ((after .join one).thread t0).pc = 0x12004 ∧
      ((after .exit one).thread t0).st = .exited ∧ (one.warp 0 0).gen = none ∧ one.defer = false ∧ (one.thread t0).sc = none ∧
      (one.warps.all fun w => !w.2.leaven.any fun l => decide (l.2 = t0)) = true ∧
      ((after .exit { one with defer := true }).thread t0).st = .waiting (.access .exit) := by decide +kernel

/-- A generator of one word an item, in its Produce phase or its Consume phase. -/
def gen (consume : Bool) : Gen :=
  { consume := consume, pend := false, w := 1, h := 8, p := 0, consumer := 0x13000, area := 0, cnt0 := 3, cnt1 := 0, fill := 1, cf := 0, ended := [], saved := [] }

theorem test_exit_in_a_generator_loop : trapped .exit (one id id fun w => { w with gen := some (gen false) }) 6 1 = true := by decide +kernel

/-! ## Traps, special registers and the error word (R22–R26, R322–R331) -/

def inTrap (th : Thread) : Thread := { th with trap := some {}, xpc := 0x400 }

theorem test_traps : ([
    trapped (.trap 4) (one (regs [(4, 77)])) 9 77 true, trapped .bkpt one 0x0A 0 true,
    trapped (.tfence 4) (one fun th => regs [(4, 0x14)] { th with aflags := 0x12 }) 8 0 true,
    trapped (.xret true) one 6 0] : List Bool).all id = true ∧
    (one.thread t0).outs = [] ∧
    ((after (.tfence 4) (one fun th => regs [(4, 0x14)] { th with aflags := 0x12 })).thread t0).xcause = 0x00100008 ∧
    gives (.tfence 4) [(4, 0x1F)] [] = true := by decide +kernel

theorem test_return_from_a_handler :
    Alone (.xret false) (one inTrap) t0 ∧ (((one inTrap).thread t0).trap = some {}) ∧ ((after (.xret false) (one inTrap)).thread t0).pc = 0x400 ∧
      ((after (.xret false) (one inTrap)).thread t0).trap = none := by decide +kernel

theorem test_trap_in_a_handler :
    -- in trap mode bit 1 of the error word, without a handler bit 3 (R26, R324)
    Alone (.trap 4) (one inTrap) t0 ∧ (((one inTrap).thread t0).leaven = false) ∧ ((after (.trap 4) (one inTrap)).thread t0).st = .halted ∧
      ((after (.trap 4) (one inTrap)).err ⟨0, 0⟩).word = 2 ∧
      Alone (.trap 4) (one fun th => { th with xvec := 0 }) t0 ∧ ((after (.trap 4) (one fun th => { th with xvec := 0 })).err ⟨0, 0⟩).word = 8 := by decide +kernel

theorem test_special_registers : ([
    gives (.rdsp 0 false 6 false) [(6, 9)] [(6, 0)], gives (.rdsp 1 false 6 false) [(6, 9)] [(6, 0)], gives (.rdsp 3 false 6 false) [(6, 9)] [(6, 0)],
    gives (.rdsp 5 false 6 false) [] [(6, 1)], gives (.rdsp 6 false 6 false) [] [(6, 1)], gives (.rdsp 15 false 6 false) [(7, 1)] [(6, 0x9000), (7, 0)],
    gives (.rdsp 17 false 6 false) [(6, 9)] [(6, 0)], gives (.rdsp 14 false 6 false) [(6, 9)] [(6, 0)]] : List Bool).all id = true ∧
    ((after (.wrsp 11 4 false) (one (regs [(4, 0x401)]))).thread t0).xpc = 0x400 ∧ ((after (.wrsp 12 4 false) (one (regs [(4, 0xFFFFFFFF)]))).thread t0).xcause = 0xFF1FF3FF ∧
    ((after (.wrsp 13 4 false) (one (regs [(4, 3), (5, 1)]))).thread t0).xaddr = 0x100000003 ∧ ((after (.wrsp 15 4 false) (one (regs [(4, 0x801)]))).thread t0).xvec = 0x800 ∧
    ((after (.wrsp 17 4 false) (one (regs [(4, 0x35)]))).thread t0).aflags = 0x15 ∧
    (∀ r ∈ [(11 : BitVec 7), 12, 13, 15, 17], Alone (.wrsp r 4 false) one t0) := by decide +kernel

theorem test_error_word :
    let u := (one (regs [(4, 8)])).modErr ⟨0, 0⟩ fun r => { r with old := { novec := true } }
    Alone (.errrd false 6 false) u t0 ∧ ((after (.errrd false 6 false) u).thread t0).rd 6 = 8 ∧ ((after (.errrd false 6 false) u).err ⟨0, 0⟩).word = 0 ∧
      Alone (.errclr 4 false) u t0 ∧ ((after (.errclr 4 false) u).err ⟨0, 0⟩).word = 0 := by decide +kernel

/-! ## Memory (R205, R212–R217, R247–R266) -/

def okOf {α : Type} : Except TrapInfo α → Option α
  | .ok x => some x
  | .error _ => none

def errOf {α : Type} : Except TrapInfo α → Option TrapInfo
  | .ok _ => none
  | .error i => some i

/-- `one`, whose tables also map the second GiB to the first as uncached memory (MT = 1) and the device registers to themselves (MT = 2). -/
def mapped (f : Thread → Thread := id) (b : Block → Block := id) : State :=
  let s := one f b
  { s with mem := cellWrite (cellWrite (cellWrite s.mem 0x11008 (leBytes 8 0x3F)) 0x10F00 (leBytes 8 0x14001)) 0x14000 (leBytes 8 0xF0000000004F) }

theorem mapped_memInv : MemInv mapped := ⟨by decide +kernel, by decide +kernel, by decide +kernel⟩

/-- A load has been issued: its group is outstanding and takes its value when it lands. -/
def pends (i : Instr) (s : State) (d : Nat) : Bool :=
  let th := (after i s).thread t0
  decide (Alone i s t0) && decide ((s.thread t0).stores = []) && (s.thread t0).sc.isNone &&
    th.outs.any fun o => decide (o.base = d) && match o.src with | .load ps _ => ps.all fun p => p.loc.loose | _ => false

/-- A load of the device registers takes its value at once. -/
def taken (i : Instr) (s : State) (d : Nat) (ws : List Word) : Bool :=
  decide (Alone i s t0) && ((after i s).thread t0).outs.any fun o => decide (o.base = d) && decide (o.src = .val ws)

/-- A load that writes nothing leaves nothing outstanding. -/
def discarded (i : Instr) (s : State) : Bool := decide (Alone i s t0) && runs i s && ((after i s).thread t0).outs.isEmpty

def atG (lo : Nat) (hi : Nat := 0) : Thread → Thread := regs [(2, BitVec.ofNat 32 lo), (3, BitVec.ofNat 32 hi)]

theorem test_loads : ([
    pends (.ldG 0x3F 2 2 false 8 false) (mapped (atG 0x20000)) 8, pends (.ldG 0 5 2 false 8 false) (mapped (atG 0x20000)) 8,
    pends (.ldS 0 2 2 false 8 false) (mapped (atG 16380)) 8, pends (.gath 4 2 false 8 false) (mapped (atG 0x20000)) 8,
    pends (.gathS 4 2 false 8 false) (mapped (atG 0)) 8, pends (.ldraw 4 2 false 8 false) (mapped (atG 0x20000)) 8,
    discarded (.ldG 0 2 2 true 0 false) (mapped (atG 0x20000)), discarded (.ldS 0 0 2 true 0 false) (mapped (atG 16383)),
    discarded (.gath 4 2 true 0 false) (mapped (atG 0x20000)), discarded (.gathS 4 2 true 0 false) (mapped (atG 0)), discarded (.ldraw 0 2 true 0 false) (mapped (atG 0x20000)),
    -- CAP0 of the hub's register block has its code in [15:0] (R366); an absent register reads as zero
    taken (.ldG 0 3 2 false 8 false) (mapped (atG 0x3008 0xF000)) 8 [0, 0],
    -- misaligned, outside the space, unmapped, outside the scratchpad; 16 bytes at a device
    trapped (.ldG 0 2 2 false 8 false) (mapped (atG 0x20002)) 4 0x20002, trapped (.ldG 0 2 2 false 8 false) (mapped (atG 0 0x10000)) 1 0x1000000000000,
    trapped (.ldG 0 4 2 false 8 false) (mapped (atG 0x3000 0xF000)) 3 0xF00000003000, trapped (.ldS 0 2 2 false 8 false) (mapped (atG 16384)) 5 16384,
    trapped (.gath 4 2 false 8 false) (mapped (atG 0x20001)) 4 0x20001, trapped (.gathS 4 2 false 8 false) (mapped (atG 16384)) 5 16384,
    trapped (.ldraw 4 2 false 8 false) (mapped (atG 0x80000000)) 1 0x80000000] : List Bool).all id = true := by decide +kernel

theorem test_geometry_reads : ([
    pends (.rayld 2 false 16 false) (mapped (atG 0x20000)) 16, pends (.boxt 2 16 false 8 false) (mapped (atG 0x20000)) 8, pends (.desc 5 2 false 16 false) (mapped (atG 0x20000)) 16,
    pends (.asc 5 2 false 16 false) (mapped (atG 0x20000)) 16, pends (.trit 2 false 16 false) (mapped (atG 0x20000)) 16,
    discarded (.rayld 2 true 0 false) (mapped (atG 0x20000)), discarded (.trit 2 true 16 false) (mapped (atG 0x20000)),
    trapped (.rayld 2 false 16 false) (mapped (atG 0x20020)) 4 0x20020, trapped (.boxt 2 16 false 8 false) (mapped (atG 0x20010)) 4 0x20010,
    trapped (.desc 5 2 false 16 false) (mapped (atG 0x20010)) 4 0x20010, trapped (.asc 5 2 false 16 false) (mapped (atG 0x20010)) 4 0x20010,
    trapped (.trit 2 false 16 false) (mapped (atG 0x20040)) 4 0x20040,
    trapped (.rastt 5 2 false 8 false) (mapped (atG 0x28)) 4 0x28, discarded (.pref false 2 false) (mapped (atG 0x20000))] : List Bool).all id = true ∧
    -- no RASTS has made a record at 0; the values of RASTT are then free (log 22)
    pends (.rastt 5 2 false 8 false) (mapped (atG 0)) 8 = true ∧ ((mapped).block br0).rast = [] ∧
    (errOf ((mapped (atG 0 0x10000)).globalOf t0 0x1000000000000 1 { acc := 0, r := true, w := false, align := 1, noDev := true, cmpOk := false })).isSome = true ∧
    gives (.pref true 2 false) [(3, 0x10000)] [(3, 0x10000)] = true := by decide +kernel

/-- The byte of a scratchpad, and the byte at the home, after an instruction. -/
def scr (i : Instr) (s : State) (a : Nat) : Byte := cellGet ((after i s).block br0).cells a

def home (i : Instr) (s : State) (a : Nat) : Byte := homeByte (after i s) a

def nG (acc : Nat) (r w : Bool) (z : Nat) (noDev : Bool := true) (cmpOk : Bool := false) : Need :=
  { acc := acc, r := r, w := w, align := z, noDev := noDev, cmpOk := cmpOk }

def locOf (x : Except TrapInfo (State × Loc)) : Option Loc := (okOf x).map Prod.snd

theorem test_room :
    L1Room mapped 0 0x20000 false ∧ L1Room mapped 0 0x23F80 false ∧ HomeRoom mapped ⟨0, 0⟩ 0x20000 false ∧ NoCopies mapped 0 0x20000 := by
  have h1 : l1find mapped 0 (0x20000 / 128) = none := by decide +kernel
  have h2 : l1find mapped 0 (0x23F80 / 128) = none := by decide +kernel
  have h3 : l2find mapped (0x20000 / 128) = none := by decide +kernel
  refine ⟨?_, ?_, ?_, h1, by decide +kernel⟩
  · unfold L1Room; rw [h1]; exact ⟨20, by decide +kernel, by decide +kernel⟩
  · unfold L1Room; rw [h2]; exact ⟨20, by decide +kernel, by decide +kernel⟩
  · unfold HomeRoom; rw [h3]; exact ⟨by decide +kernel, 0, by decide +kernel, by decide +kernel⟩

theorem test_scratchpad_stores :
    let s := mapped (regs [(2, 16380), (4, 0x11223344)])
    let q := mapped (regs [(2, 16), (4, 0), (5, 4), (6, 0), (7, 8), (8, 0xA1), (9, 0xB2), (10, 0xC3), (11, 0xD4)])
    (∀ x ∈ s.blocks, Memory.wf x.2.cells = true) ∧
      (Alone (.stS 0 2 2 4 false) s t0 ∧ Quiet s t0 ∧ locOf (s.scratchOf t0 16380 4 4 1) = some (.scr br0 16380)) ∧
      (scr (.stS 0 2 2 4 false) s 16380 = 0x44 ∧ scr (.stS 0 2 2 4 false) s 16383 = 0x11 ∧ scr (.stS 0 0 2 4 false) s 16381 = 0) ∧
      trapped (.stS 1 2 2 4 false) s 5 16384 = true ∧
      -- two elements of one address: the later one stays
      (Alone (.scatS 4 2 8 false) q t0 ∧ Quiet q t0 ∧ (okOf (q.scratchAll t0 1 [16, 32, 16, 48])).map (fun r => r.2.map Part.loc) =
        some [.scr br0 16, .scr br0 32, .scr br0 16, .scr br0 48]) ∧
      scr (.scatS 4 2 8 false) q 16 = 0xC3 ∧ scr (.scatS 4 2 8 false) q 32 = 0xB2 ∧ scr (.scatS 4 2 8 false) q 48 = 0xD4 ∧
      trapped (.scatS 4 2 8 false) (mapped (regs [(2, 18)])) 4 18 = true := by decide +kernel

theorem test_global_stores :
    let s := mapped (regs [(2, 0x20000), (8, 0x11223344), (32, 1)])
    let u := mapped (regs [(2, 0x40020000), (8, 0x11223344)])
    let v := mapped (regs [(2, 0x4000), (3, 0xF000), (8, 1), (9, 2)])
    let absent := mapped (regs [(2, 0x200000), (3, 0xF000), (8, 1)])
    (Alone (.stG 0 2 2 8 false) s t0 ∧ Quiet s t0 ∧ locOf (s.globalOf t0 0x20000 4 (nG 1 false true 4 false)) = some (.glob 0x20000 0 false)) ∧
      (let t := after (.stG 0 2 2 8 false) s; t.seen 0 0x20000 = 0x44 ∧ t.seen 0 0x20003 = 0x11 ∧ homeByte t 0x20000 = 0 ∧ t.seen 1 0x20000 = 0) ∧
      (Alone (.stG 0 2 2 8 false) u t0 ∧ Quiet u t0 ∧ locOf (u.globalOf t0 0x40020000 4 (nG 1 false true 4 false)) = some (.glob 0x20000 1 false)) ∧
      home (.stG 0 2 2 8 false) u 0x20001 = 0x33 ∧
      (locOf (v.globalOf t0 0xF00000004000 8 (nG 1 false true 8 false)) = some (.glob 0xF00000004000 2 false) ∧ (after (.stG 0 3 2 8 false) v).hubq.length = 1 ∧
        (after (.stG 0 2 2 8 false) v).hubq = [] ∧ inDevice 0xF00000004000 = true) ∧
      (Alone (.stG 0 3 2 8 false) absent t0 ∧ runs (.stG 0 3 2 8 false) absent = true ∧ (after (.stG 0 3 2 8 false) absent).hubq = []) ∧
      trapped (.stG 0 2 2 8 false) (mapped (regs [(2, 2)])) 4 2 = true ∧
      (Alone (.hitw 2 32 false) s t0 ∧ (after (.hitw 2 32 false) s).seen 0 0x20000 = 0 ∧ locOf (s.globalOf t0 0x20000 32 (nG 1 false true 32)) = some (.glob 0x20000 0 false)) ∧
      trapped (.hitw 2 32 false) (mapped (regs [(2, 0x20010)])) 4 0x20010 = true := by decide +kernel

/-- A record of a hit: numerator 3, primitive 7, denominator 2, so t = 1.5 (R131). -/
theorem test_hit_record :
    let t := after (.hitw 2 32 false) (mapped (regs [(2, 0x20000), (42, 3), (45, 7), (46, 2)]))
    t.seen 0 0x20000 = 3 ∧ t.seen 0 0x2000C = 7 ∧ t.seen 0 0x20010 = 2 ∧ t.seen 0 0x2001F = 0x3F ∧ t.seen 0 0x2001E = 0xC0 := by decide +kernel

/-- A state whose core holds the lines that a scatter then writes. -/
def scattered : State :=
  let s := mapped (regs [(2, 0x20000), (4, 0), (5, 32), (6, 0), (7, 64), (8, 0xA1), (9, 0xB2), (10, 0xC3), (11, 0xD4)])
  let s := l1Alloc (l1Alloc (l1Alloc s ⟨0, 0⟩ 0 0x400 false) ⟨0, 0⟩ 0 0x401 false) ⟨0, 0⟩ 0 0x402 false
  s

theorem test_scatter :
    Alone (.scat 4 2 8 false) scattered t0 ∧ Quiet scattered t0 ∧
      (okOf (scattered.globalAll t0 (nG 1 false true 4) [0x20000, 0x20080, 0x20000, 0x20100])).map (fun r => r.2.map Part.loc) =
        some [.glob 0x20000 0 false, .glob 0x20080 0 false, .glob 0x20000 0 false, .glob 0x20100 0 false] ∧
      (∀ p ∈ [0x20000, 0x20080, 0x20000, 0x20100], inDevice p = false ∧ p % 128 ≤ 124 ∧ (l1find scattered 0 (p / 128)).map CLine.cmp = some false) ∧
      (after (.scat 4 2 8 false) scattered).seen 0 0x20000 = 0xC3 ∧ (after (.scat 4 2 8 false) scattered).seen 0 0x20100 = 0xD4 ∧
      trapped (.scat 4 2 8 false) (mapped (regs [(2, 0x20002)])) 4 0x20002 = true := by decide +kernel

/-- The word at 0x20000 is `old`. -/
def holding (old : Nat) (f : Thread → Thread) : State :=
  let s := mapped fun th => f (regs [(2, 0x20000)] th)
  { s with mem := cellWrite s.mem 0x20000 (leBytes 4 old) }

/-- An atomic reads `old` into its group and leaves `new` at the home. -/
def swaps (i : Instr) (s : State) (d : Nat) (old new : Nat) : Bool :=
  let t := after i s
  decide (Alone i s t0) && decide (Quiet s t0) && decide (locOf (s.globalOf t0 0x20000 4 (nG 2 true true 4)) = some (.glob 0x20000 0 false)) &&
    !homePoison s 0x20000 4 && decide (leValue (homeBytes s 0x20000 4) = old) && decide (leValue (homeBytes t 0x20000 4) = new) &&
    if d = 0 then (t.thread t0).outs.isEmpty else (t.thread t0).outs.any fun o => decide (o.base = d) && decide (o.src = .val [BitVec.ofNat 32 old])

theorem test_atomics : ([
    swaps (.aadd 4 2 false 5 false) (holding 0xFFFFFFFF (regs [(4, 2)])) 5 0xFFFFFFFF 1, swaps (.aadd 4 2 true 0 false) (holding 5 (regs [(4, 2)])) 0 5 7,
    swaps (.amin 4 2 false 5 false) (holding 3 (regs [(4, 0xFFFFFFFE)])) 5 3 0xFFFFFFFE, swaps (.amax 4 2 false 5 false) (holding 3 (regs [(4, 0xFFFFFFFE)])) 5 3 3,
    swaps (.aexch 4 2 false 5 false) (holding 3 (regs [(4, 9)])) 5 3 9,
    swaps (.acas 0 4 2 false 5 false) (holding 3 (regs [(4, 9), (5, 3)])) 5 3 9, swaps (.acas 0 4 2 false 5 false) (holding 3 (regs [(4, 9), (5, 4)])) 5 3 3,
    swaps (.aand 4 2 false 5 false) (holding 6 (regs [(4, 3)])) 5 6 2, swaps (.aor 4 2 false 5 false) (holding 6 (regs [(4, 3)])) 5 6 7,
    swaps (.axor 4 2 false 5 false) (holding 6 (regs [(4, 3)])) 5 6 5,
    trapped (.aadd 4 2 false 5 false) (mapped (regs [(2, 0x20001)])) 4 0x20001, trapped (.aadd 4 2 false 5 false) (mapped (regs [(2, 0x4000), (3, 0xF000)])) 3 0xF00000004000]
    : List Bool).all id = true := by decide +kernel

theorem holding_memInv : MemInv (holding 3 id) := ⟨by decide +kernel, by decide +kernel, by decide +kernel⟩

theorem test_full_empty :
    let s := mapped (regs [(2, 32), (4, 0x77)])
    let f := mapped (regs [(2, 32), (4, 0x77)]) fun b => { b with full := [2] }
    let stores : Instr := .stfe 0 2 2 4
    let takes : Instr := .ldfe true 0 2 2 false 5
    let keeps : Instr := .ldfe false 0 2 2 false 5
    (Alone stores s t0 ∧ Quiet s t0 ∧ locOf (s.scratchOf t0 32 4 4 1) = some (.scr br0 32) ∧ (s.block br0).gwait = [] ∧ scr stores s 32 = 0x77 ∧
        ((after stores s).block br0).full = [2]) ∧
      (Alone stores f t0 ∧ (f.block br0).full.contains 2 = true ∧ ((after stores f).thread t0).st = .waiting .granule) ∧
      (Alone takes s t0 ∧ ((after takes s).thread t0).st = .waiting .granule) ∧
      (Alone takes f t0 ∧ scrPoison f br0 32 4 = false ∧ ((after takes f).block br0).full = [] ∧ ((after takes f).thread t0).outs.length = 1) ∧
      (Alone keeps f t0 ∧ ((after keeps f).block br0).full = [2]) ∧
      trapped (.stfe 0 5 2 8) s 4 32 = true ∧ trapped (.ldfe true 0 5 2 false 8) s 4 32 = true ∧ trapped (.stfe 0 3 2 8) (mapped (regs [(2, 36)])) 4 36 = true ∧
      trapped (.ldfe true 0 2 2 false 8) (mapped (regs [(2, 16384)])) 5 16384 = true := by decide +kernel

/-! ## SC operations, synchronisation and watches (R222–R240, R258–R263) -/

/-- The stamp of the line at 0x20000. -/
def stamped (st : Stamp) (f : Thread → Thread) : State := { holding 3 f with floors := [] } |> fun s => setStamp s 0 0x400 st

theorem test_sc_operations :
    let s := holding 3 (regs [(4, 9), (5, 3)])
    let old := stamped ⟨5, 1⟩ (regs [(4, 9), (5, 3)])
    let ok (i : Instr) (acc : Nat) (r w : Bool) (new : Nat) : Bool :=
      let t := after i s
      decide (Alone i s t0) && decide (Quiet s t0) && decide (locOf (s.globalOf t0 0x20000 4 (nG acc r w 4)) = some (.glob 0x20000 0 false)) &&
        decide (leValue (homeBytes t 0x20000 4) = new) && decide (stampAt t 0 0x400 = ⟨1, 0⟩) && decide ((t.core 0).scK = 1) && decide ((t.thread t0).scClock = 1)
    (s.core 0).scK = 0 ∧ (s.partn 0).epochGo = false ∧ stampAt s 0 0x400 = ⟨0, 0⟩ ∧
      ok (.ldSc 2 false 6 false) 0 true false 3 = true ∧ ok (.stSc 4 2 false) 2 true true 9 = true ∧ ok (.aaddSc 4 2 false 6 false) 2 true true 12 = true ∧
      ok (.aexchSc 4 2 false 6 false) 2 true true 9 = true ∧ ok (.acasSc 0 4 2 false 5 false) 2 true true 9 = true ∧
      -- a line whose stamp is later than the operation's: the operation stays outstanding and the core's clock rises
      Alone (.aaddSc 4 2 false 6 false) old t0 ∧ stampAt old 0 0x400 = ⟨5, 1⟩ ∧ (let t := after (.aaddSc 4 2 false 6 false) old;
        (t.thread t0).sc.isSome = true ∧ leValue (homeBytes t 0x20000 4) = 3 ∧ (t.core 0).scK = 5) ∧
      trapped (.ldSc 2 false 6 false) (mapped (regs [(2, 2)])) 4 2 = true ∧ trapped (.acasSc 0 4 2 false 5 false) (mapped (regs [(2, 0x20001)])) 4 0x20001 = true := by
  decide +kernel

theorem stamped_memInv : MemInv (holding 3 (regs [(4, 9), (5, 3)])) := ⟨by decide +kernel, by decide +kernel, by decide +kernel⟩

theorem test_sctime :
    let s := one (fun th => regs [(4, 7)] { th with scClock := 5, scCore := 3 })
    Alone (.sctime 4 false 6 false) s t0 ∧ ((after (.sctime 4 false 6 false) s).thread t0).pair 6 = 0x0003000000000007 ∧
      ((after (.sctime 4 false 6 false) s).core 0).scK = 7 := by decide +kernel

/-- An object at 0x20000 whose region is the two lines from 0x20080, with both pages in the TLB; and the same object in scratchpad. -/
def synced (lo hi : Nat) : State :=
  let s := mapped (regs [(2, 0x20000)])
  let s := { s with mem := cellWrite s.mem 0x20000 (leBytes 4 lo ++ leBytes 4 0 ++ leBytes 4 hi) }
  match s.globalOf t0 0x20080 1 (nG 0 true false 1) with | .ok (s1, _) => s1 | .error _ => s

theorem test_synchronisation :
    let none_ := mapped (regs [(2, 0x20000)])
    let rel : Instr := .rel false 2 3
    let acq : Instr := .acq false 2 6
    (Alone rel none_ t0 ∧ Quiet none_ t0 ∧ locOf (none_.globalOf t0 0x20000 16 (nG 2 true true 16)) = some (.glob 0x20000 0 false) ∧
        regionOf (homeBytes none_ 0x20000 16) = .none ∧ field (homeBytes (after rel none_) 0x20000 16) 12 4 = 1) ∧
      (Alone acq none_ t0 ∧ locOf (none_.globalOf t0 0x20000 16 (nG 0 true false 16)) = some (.glob 0x20000 0 false) ∧ runs acq none_ = true) ∧
      (Alone (.rel true 4 2) none_ t0 ∧ field (scrRead (after (.rel true 4 2) none_) br0 0 16) 12 4 = 1) ∧
      (Alone (.fence 6) none_ t0 ∧ runs (.fence 6) none_ = true ∧ ((after (.fence 6) none_).core 0).l1 = []) ∧
      (let b := mapped (regs [(2, 0x20000), (4, 1), (5, 2), (6, 3), (7, 4)])
       Alone (.bind 4 2 false false) b t0 ∧ field (homeBytes (after (.bind 4 2 false false) b) 0x20000 16) 8 4 = 3 ∧
         field (homeBytes (after (.bind 4 2 false false) b) 0x20000 16) 12 4 = 0) ∧
      (let d := { none_ with defer := true }
       ((after rel d).thread t0).st = .waiting (.access (.rel 3 { loc := .glob 0x20000 0 false, addr := 0x20000, acc := 2 })) ∧ ((after (.fence 6) d).thread t0).st = .waiting (.access (.fence 6)) ∧
         ((after acq d).thread t0).st = .waiting (.access (.acq 6 { loc := .glob 0x20000 0 false, addr := 0x20000, acc := 0 }))) ∧
      trapped rel (mapped (regs [(2, 0x20008)])) 4 0x20008 = true ∧ trapped acq (mapped (regs [(2, 0x20008)])) 4 0x20008 = true ∧
      trapped (.bind 4 2 true false) (mapped (regs [(2, 16384)])) 5 16384 = true := by decide +kernel

set_option maxRecDepth 100000 in
theorem test_translation_invalidation :
    let s := match (mapped (regs [(2, 0x20000)])).globalOf t0 0x20000 4 (nG 0 true false 4) with | .ok (s1, _) => s1 | .error _ => mapped
    (s.core 0).tlb.length = 1 ∧
      (Alone (.tlbil 2 0 false) s t0 ∧ ((after (.tlbil 2 0 false) s).core 0).tlb = []) ∧ (Alone (.tlbil 0 1 false) s t0 ∧ ((after (.tlbil 0 1 false) s).core 0).tlb = []) ∧
      (Alone (.tlbib 2 0) s t0 ∧ Quiet s t0 ∧ ((after (.tlbib 2 0) s).core 0).tlb = []) ∧
      ((after (.tlbib 0 1) { s with defer := true }).thread t0).st = .waiting (.access (.tlbib true 0)) ∧
      trapped (.tlbib 2 0) (mapped (regs [(3, 0x10000)])) 1 0x1000000000000 = true ∧ trapped (.tlbil 2 0 false) (mapped (regs [(3, 0x10000)])) 1 0x1000000000000 = true := by
  decide +kernel

def watching (armed fired lost spur : Bool) : State :=
  one fun th => regs [(4, 100)] { th with watch := { line := 0x400, armed := armed, fired := fired, lost := lost, spur := spur } }

theorem test_watches :
    let s := mapped (regs [(2, 0x20000)])
    let doze : Instr := .doze 4 false 6
    let ans (w : State) : Word := ((after doze w).thread t0).rd 6
    (Alone (.watch 2 false) s t0 ∧ locOf (s.globalOf t0 0x20000 1 (nG 0 true false 1 true true)) = some (.glob 0x20000 0 false) ∧
        ((after (.watch 2 false) s).thread t0).watch.armed = true ∧ ((after (.watch 2 false) s).thread t0).watch.line = 0x400) ∧
      trapped (.watch 2 false) (mapped (regs [(2, 0x4000), (3, 0xF000)])) 3 0xF00000004000 = true ∧
      (∀ w ∈ [watching true false true false, watching false false false false, watching true true false false, watching true false false true,
        watching true false false false], Alone doze w t0) ∧
      ans (watching true false true false) = 4 ∧ ans (watching false false false false) = 8 ∧ ans (watching true true false false) = 1 ∧
      ans (watching true false false true) = 16 ∧ ((after doze (watching true false false false)).thread t0).st = .waiting (.doze 0 100 6 false) ∧
      -- the limit of 100 cycles has passed, and has not
      (let w (since : Nat) : State := { (watching true false false false).modThread t0 (fun th => { th with st := .waiting (.doze since 100 6 false) }) with arg := { t := t0 }, clock := 100 }
       ((after .dozeTimeout (w 0)).thread t0).rd 6 = 2 ∧ (after .dozeTimeout (w 1)).threads = (w 1).threads) := by decide +kernel

/-! ## Carve-out and queues (R191, R271–R279, R304, R307) -/

theorem test_carve :
    let s := one (regs [(4, 2)])
    let t := after (.carve 4 false 5) s
    let two : State := one (regs [(4, 1)]) fun b => { b with cways := [1, 2], cells := [(16384 + 5, 7), (32768 + 5, 8)] }
    let i : Instr := .carve 4 false 5
    (Alone i s t0 ∧ Quiet s t0 ∧ s.carveOrders 0 = [] ∧ (s.core 0).copies = [] ∧ (s.core 0).runs = [] ∧ (s.block br0).q0 = [] ∧ (s.block br0).q4 = []) ∧
      ((t.block br0).cways.length = 2 ∧ (t.thread t0).rd 5 = 0x150102) ∧
      -- 19 ways beside one of the launch leave four; a 20th does not fit beside it (R196)
      ((after i (one (regs [(4, 19)]))).block br0).cways.length = 19 ∧ ((after i (one (regs [(4, 19)]))).thread t0).rd 5 = 0x040113 ∧
      trapped i (one (regs [(4, 20)])) 5 20 = true ∧
      (Alone i (one (regs [(4, 0)])) t0 ∧ ((after i (one (regs [(4, 0)]))).thread t0).rd 5 = 0x170100) ∧
      (Alone i two t0 ∧ ((after i two).block br0).cways = [1] ∧ ((after i two).block br0).cells = [(16384 + 5, 7)]) := by decide +kernel

theorem test_carve_fails :
    -- another block of the core holds twenty ways: three are free, and two are asked for
    let s := (one (regs [(4, 2)])).setBlock ⟨7, 0⟩ { (one).block br0 with pways := List.range' 1 20 }
    let i : Instr := .carve 4 false 5
    Alone i s t0 ∧ (cacheWays s 0).length = 3 ∧ ((after i s).block br0).cways = [] ∧ ((after i s).thread t0).rd 5 = 0x80030100 := by decide +kernel

theorem test_queue_instructions :
    let s := one (regs [(4, 5), (5, 6)])
    let full := one id fun b => { b with q8 := List.replicate 64 0 }
    let has := one id fun b => { b with q8 := [0x100000002, 3] }
    (Alone (.qpush 8 4) s t0 ∧ Quiet s t0 ∧ (s.block? br0).isSome = true ∧ (s.block br0).qwait = [] ∧ ((after (.qpush 8 4) s).block br0).q8 = [0x600000005]) ∧
      (Alone (.qpush 8 4) full t0 ∧ ((after (.qpush 8 4) full).thread t0).st = .waiting (.queue 8)) ∧
      (Alone (.qpop 8 false 6) s t0 ∧ ((after (.qpop 8 false 6) s).thread t0).st = .waiting (.queue 8)) ∧
      (Alone (.qpop 8 false 6) has t0 ∧ ((after (.qpop 8 false 6) has).block br0).q8 = [3] ∧
        ((after (.qpop 8 false 6) has).thread t0).outs.map Out.src = [.val [2, 1]]) ∧
      (Alone (.qpoll 8 1 false 6 false) s t0 ∧ preds ((after (.qpoll 8 1 false 6 false) s).thread t0) = [true, false, false, false]) ∧
      (Alone (.qpoll 8 1 false 6 false) has t0 ∧ preds ((after (.qpoll 8 1 false 6 false) has).thread t0) = [true, true, false, false] ∧
        ((after (.qpoll 8 1 false 6 false) has).thread t0).pair 6 = 0x100000002) := by decide +kernel

theorem test_engine_pushes :
    let s := one (regs [(4, 64)]) fun b => { b with cells := [(65, 9)] }
    let busy := one (regs [(4, 64)]) fun b => { b with q4 := List.replicate 8 [], q0 := List.replicate 8 ⟨0, [], none, none⟩ }
    (Alone (.cpiss 4) s t0 ∧ Quiet s t0 ∧ locOf (s.scratchOf t0 64 64 64 0) = some (.scr br0 64) ∧ scrPoison s br0 64 64 = false ∧
        ((after (.cpiss 4) s).block br0).q4.map (fun e => (e.length, e.getD 1 0)) = [(64, 9)]) ∧
      (Alone (.cpiss 4) busy t0 ∧ ((after (.cpiss 4) busy).thread t0).st = .waiting (.queue 4)) ∧
      (Alone (.mxiss 4) s t0 ∧ ((after (.mxiss 4) s).block br0).q0.map MxEntry.addr = [64]) ∧
      (Alone (.mxiss 4) busy t0 ∧ ((after (.mxiss 4) busy).thread t0).st = .waiting (.queue 0)) ∧
      trapped (.cpiss 4) (one (regs [(4, 32)])) 4 32 = true ∧ trapped (.mxiss 4) (one (regs [(4, 16384)])) 5 16384 = true ∧
      (∀ i ∈ [Instr.chbeg false false, .chbeg true false, .chend false false, .chend true false], Alone i one t0) ∧
      ((after (.chbeg true false) one).block br0).open1 = true ∧ ((after (.chbeg true false) one).block br0).open0 = false := by decide +kernel

/-- An object at 32 with its words (R274): expect and count, ARRX and ARRIVED, phase, ERR and code. -/
def objected (expect count arrx arrived flags : Nat) (f : Thread → Thread) : State :=
  one (fun th => regs [(2, 32)] (f th)) fun b => { b with cells := cellWrite [] 32 (leBytes 4 expect ++ leBytes 4 count ++ leBytes 2 arrx ++ leBytes 2 arrived ++ leBytes 2 flags) }

theorem test_barrier_objects :
    let o (i : Instr) (s : State) : Obj := Obj.of (scrRead (after i s) br0 32 16)
    let fresh := objected 0 0 2 0 0 (regs [(4, 2)])
    let last := objected 0 0 2 1 0 (regs [(4, 2)])
    let bad := objected 0 0 2 0 0x0702 (regs [(4, 0)])
    (Alone (.boinit 4 2 false) fresh t0 ∧ Quiet fresh t0 ∧ locOf (fresh.scratchOf t0 32 16 16 2) = some (.scr br0 32) ∧ (o (.boinit 4 2 false) fresh).arrx = 2) ∧
      trapped (.boinit 4 2 false) (objected 0 0 0 0 0 id) 5 0 = true ∧ trapped (.boinit 4 2 false) (objected 0 0 0 0 0 (regs [(4, 65536)])) 5 65536 = true ∧
      (Alone (.boexp 4 2 false) fresh t0 ∧ (o (.boexp 4 2 false) fresh).expect = 2) ∧
      (Alone (.boarr 2 false) fresh t0 ∧ (o (.boarr 2 false) fresh).arrived = 1 ∧ (o (.boarr 2 false) fresh).phase = false) ∧
      -- the last arrival completes the phase; more bytes counted than expected set ERR with code 1 (R275)
      (Alone (.boarr 2 false) last t0 ∧ (o (.boarr 2 false) last).phase = true ∧ (o (.boarr 2 false) last).arrived = 0 ∧ (o (.boarr 2 false) last).phcnt = 1) ∧
      ((o (.boarr 2 false) (objected 1 2 2 1 0 id)).err = true ∧ (o (.boarr 2 false) (objected 1 2 2 1 0 id)).ecode = 1) ∧
      (Alone (.waitph 4 2) fresh t0 ∧ ((after (.waitph 4 2) fresh).thread t0).st = .waiting (.object br0 32 32 false none)) ∧
      (Alone (.waitph 4 2) (objected 0 0 2 0 1 id) t0 ∧ ((after (.waitph 4 2) (objected 0 0 2 0 1 id)).thread t0).pc = 0x12004) ∧
      trapped (.waitph 4 2) bad 7 32 = true ∧
      (Alone (.waitphSt 2 false 1) bad t0 ∧ preds ((after (.waitphSt 2 false 1) bad).thread t0) = [true, false, false, false]) ∧
      preds ((after (.waitphSt 2 true 1) fresh).thread t0) = [true, true, false, false] ∧
      trapped (.boexp 4 2 false) (one (regs [(2, 8)])) 4 8 = true ∧ trapped (.boarr 2 false) (one (regs [(2, 8)])) 4 8 = true ∧ trapped (.waitph 4 2) (one (regs [(2, 8)])) 4 8 = true := by
  decide +kernel

/-- A block of two warps with live threads, barrier 1 expecting two arrivals of which `n` have come. -/
def barred (n : Nat) (ph : Bool) (f : Thread → Thread) : State :=
  let s := one f fun b => { b with slots := [0, 1], nwarps := 2, bars := b.bars.set 1 { x := 2, arrived := n, bits := if n = 0 then [] else [1], phase := ph } }
  (s.setWarp 0 1 { blk := br0, role := 0 }).setThread ⟨0, 1, 0⟩ { st := .waiting (.barrier 1), tokens := [(1, ph)], xvec := 0x9000, pc := 0x12000 }

theorem test_barriers :
    let w := barred 0 false id
    let l := barred 1 false id
    let bar (i : Instr) (s : State) : Option Bar := ((after i s).block br0).bars[1]?
    (Alone (.barSync 1) w t0 ∧ Quiet w t0 ∧ (∀ sl ∈ (w.block br0).slots, w.slotLive 0 sl = true) ∧ ((after (.barSync 1) w).thread t0).st = .waiting (.barrier 1) ∧
        (bar (.barSync 1) w).map Bar.arrived = some 1) ∧
      (Alone (.barSync 1) l t0 ∧ ((after (.barSync 1) l).thread t0).pc = 0x12004 ∧ bar (.barSync 1) l = some { x := 2, phase := true } ∧
        ((after (.barSync 1) l).thread ⟨0, 1, 0⟩).st = .ready) ∧
      (Alone (.barArrive 1 false) w t0 ∧ ((after (.barArrive 1 false) w).thread t0).tokens = [(1, false)]) ∧
      (Alone (.barArrive 1 false) l t0 ∧ bar (.barArrive 1 false) l = some { x := 2, phase := true }) ∧
      (let held := barred 0 false fun th => { th with tokens := [(1, false)] }
       let gone := barred 0 true fun th => { th with tokens := [(1, false)] }
       Alone (.barWait 1) held t0 ∧ ((after (.barWait 1) held).thread t0).st = .waiting (.barrier 1) ∧ Alone (.barWait 1) gone t0 ∧
         ((after (.barWait 1) gone).thread t0).pc = 0x12004) ∧
      (Alone (.barInit 1 4 false) (barred 0 false (regs [(4, 1)])) t0 ∧ bar (.barInit 1 4 false) (barred 0 false (regs [(4, 1)])) = some { x := 1 }) ∧
      trapped (.barInit 1 4 false) (barred 0 false id) 5 0 = true ∧ trapped (.barInit 1 4 false) (barred 0 false (regs [(4, 3)])) 5 3 = true := by decide +kernel

/-! ## Warps: rendezvous, generator loops and kneading (R157–R188) -/

/-- A warp of `n` threads at the same instruction, all in the group of port 0. Lane `l` has `l + 1` in g1 and a budget of 124. -/
def warpOf (n : Nat) (f : Nat → Thread → Thread := fun _ => id) (b : Block → Block := id) (w : Warp → Warp := id) : State :=
  let s := one id b fun x => w { x with k := x.k.setIfInBounds 63 (laneMask (List.range n)) }
  let base := s.thread t0
  let s := (List.range n).foldl (fun s l => s.setThread ⟨0, 0, l⟩ (f l (regs [(1, BitVec.ofNat 32 (l + 1))] { base with tid := l }))) s
  s.modCore 0 fun c => { c with p0 := (List.range n).map fun l => ⟨0, 0, l⟩ }

/-- The worked program of chapter 15 (notes on lines 039-040): a warp that arrives in one group arrives once, and all its threads pass. -/
theorem test_group_arrives_together :
    let s := warpOf 4 (fun _ => id) fun b => { b with slots := [0], nwarps := 1, bars := b.bars.set 0 { x := 1 } }
    let t := after (.barSync 0) s
    Clean (.barSync 0) s ∧ (t.block br0).bars[0]? = some { x := 1, phase := true } ∧
      (List.range 4).map (fun l => ((t.thread ⟨0, 0, l⟩).st, (t.thread ⟨0, 0, l⟩).tokens, (t.thread ⟨0, 0, l⟩).pc)) =
        List.replicate 4 (.ready, [], 0x12004) := by decide +kernel

theorem whole_of_four : WholeNeed (warpOf 4) 0 0 :=
  ⟨by decide +kernel, by decide +kernel, by decide +kernel, by decide +kernel, by decide +kernel⟩

/-- Four lanes hold 1, 2, 3, 4 in g1 (p1 in lanes 2 and 3, lane number in g2); the values of g4 after a rendezvous, and of g5. -/
def meets (i : Instr) (lo : List Word) (hi : List Word := []) : Bool :=
  let s := warpOf 4 fun l th => regs [(2, BitVec.ofNat 32 l)] { th with p1 := decide (2 ≤ l) }
  let t := after i s
  decide (Clean i s) && runs i s && decide ((List.range 4).map (fun l => (t.thread ⟨0, 0, l⟩).rd 4) = lo) &&
    (hi.isEmpty || decide ((List.range 4).map (fun l => (t.thread ⟨0, 0, l⟩).rd 5) = hi))

theorem test_cross_lane : ([
    meets (.shflIdx 2 1 false 4 false) [1, 2, 3, 4], meets (.shflIdx 0 1 false 4 false) [1, 1, 1, 1], meets (.shflUp 2 1 false 4 false) [1, 1, 1, 1],
    meets (.shflDown 2 1 false 4 false) [1, 3, 3, 4], meets (.shflXor 1 1 false 4 false) [2, 4, 2, 4],
    meets (.voteAny 1 false 4 false) [1, 1, 1, 1], meets (.voteAll 1 false 4 false) [0, 0, 0, 0], meets (.voteBallot 1 false 4 false) [12, 12, 12, 12] [0, 0, 0, 0],
    meets (.voteUni 1 false 4 false) [0, 0, 0, 0], meets (.redaddI 1 false 4 false) [10, 10, 10, 10], meets (.redminS 1 false 4 false) [1, 1, 1, 1],
    meets (.redmaxS 1 false 4 false) [4, 4, 4, 4], meets (.matchLanes 1 false 4 false) [1, 2, 4, 8] [0, 0, 0, 0],
    meets (.compact 1 false 4 false) [2, 3, 0, 1], meets (.scanadd 1 false 4 false) [0, 1, 3, 6] [10, 10, 10, 10],
    meets (.elect false 4 false) [0x80000000, 0, 0, 0]] : List Bool).all id = true := by decide +kernel

theorem test_warp_sum :
    -- 1.0 in lanes 0 and 1, 2.0 in lanes 2 and 3: the tree of R78 gives 6.0
    let s := warpOf 4 fun l th => regs [(1, if l < 2 then 0x3F800000 else 0x40000000)] th
    Clean (.redaddF 1 false 4 false) s ∧ ((after (.redaddF 1 false 4 false) s).thread ⟨0, 0, 3⟩).rd 4 = 0x40C00000 := by decide +kernel

theorem test_cross_lane_in_trap_mode :
    let s := one fun th => regs [(1, 7)] (inTrap th)
    s.group = [t0] ∧ Clean (.redaddI 1 false 4 false) s ∧ (s.warp 0 0).arrs = [] ∧ ((after (.redaddI 1 false 4 false) s).thread t0).rd 4 = 7 := by decide +kernel

/-- One of two lanes at a rendezvous; and a generator's warp. -/
def lonely (k63 : Word) (g : Option Gen) : State :=
  let s := warpOf 2 (fun _ => id) id fun w => { w with k := w.k.setIfInBounds 63 k63, gen := g }
  s.modCore 0 fun c => { c with p0 := [t0] }

theorem test_rendezvous_waits :
    let i : Instr := .elect false 4 false
    (Alone i (lonely 3 none) t0 ∧ (lonely 3 none).laneLive 0 0 1 = true ∧ ((after i (lonely 3 none)).thread t0).st = .waiting .rendezvous ∧
        ((after i (lonely 3 none)).warp 0 0).arrs.map (fun a => (a.lane, a.addr, a.mask)) = [(0, 0x12000, 3)]) ∧
      trapped i (lonely 2 none) 6 2 = true ∧ trapped .gennext (lonely 3 none) 6 3 = true ∧ trapped (.genbeg 4 5) (lonely 3 (some (gen true))) 6 3 = true ∧
      trapped i (lonely 3 (some (gen false))) 6 3 = true ∧ ((after .gennext (lonely 3 (some (gen true)))).thread t0).st = .waiting .rendezvous ∧
      ((after (.genbeg 4 5) (lonely 3 none)).thread t0).st = .waiting .rendezvous := by decide +kernel

theorem test_warp_pushes :
    let s := warpOf 2 (fun _ => id) fun b => { b with q7 := [List.replicate 32 0x40000000] }
    (Clean (.mxmeta 1 1) s ∧ (s.warp 0 0).gen = none ∧ (s.block? br0).isSome = true ∧ (s.block br0).qwait = [] ∧
        ((after (.mxmeta 1 1) s).block br0).q1.map (fun m => (m.code, m.words.take 3)) = [(1, [1, 2, 0x76543210])]) ∧
      (Clean (.rsend 1) s ∧ ((after (.rsend 1) s).block br0).q6.map (fun v => v.take 3) = [[1, 2, 0x80000000]] ∧ ((after (.rsend 1) s).block br0).rsends = 1) ∧
      (Clean (.rrecv false 4) s ∧ ((after (.rrecv false 4) s).block br0).q7 = [] ∧
        ((after (.rrecv false 4) s).thread ⟨0, 0, 1⟩).outs.map Out.src = [.val [0x40000000]]) := by decide +kernel

theorem whole_of_two : WholeNeed (warpOf 2 (fun _ => id) fun b => { b with q7 := [List.replicate 32 0x40000000] }) 0 0 :=
  ⟨by decide +kernel, by decide +kernel, by decide +kernel, by decide +kernel, by decide +kernel⟩

/-- GENBEG: one word an item, a threshold of 8, no minimum, the consumer 0x1000 past the instruction (R178). -/
def begins : State := warpOf 32 (fun _ => regs [(4, 0x800), (5, 0x1000)]) fun b => { b with reserve := 1 }

theorem whole_of_begins : WholeNeed begins 0 0 := ⟨by decide +kernel, by decide +kernel, by decide +kernel, by decide +kernel, by decide +kernel⟩

theorem test_genbeg :
    Clean (.genbeg 5 4) begins ∧ groupLanes begins = List.range 32 ∧ (begins.warp 0 0).gen = none ∧ 0 < (begins.block br0).reserve ∧ begins.areasUsed br0 = [] ∧
      ((after (.genbeg 5 4) begins).warp 0 0).gen =
        some { consume := false, pend := false, w := 1, h := 8, p := 0, consumer := 0x13000, area := 0, cnt0 := 0, cnt1 := 0, fill := 0, cf := 0, ended := [], saved := [] } := by
  decide +kernel

/-- A warp of two in the Consume phase of a loop whose producers have all ended, and of one whose producers have not. -/
def consuming (ended : List Nat) (cnt1 : Nat) : State :=
  warpOf 2 (fun _ => id) id fun w => { w with gen := some { gen true with cnt0 := 2, cnt1 := cnt1, ended := ended, saved := [(0, 0x700), (1, 0x800)] } }

theorem whole_consuming : WholeNeed (consuming [0, 1] 0) 0 0 ∧ WholeNeed (consuming [0, 1] 3) 0 0 ∧ WholeNeed (consuming [0] 0) 0 0 :=
  ⟨⟨by decide +kernel, by decide +kernel, by decide +kernel, by decide +kernel, by decide +kernel⟩,
   ⟨by decide +kernel, by decide +kernel, by decide +kernel, by decide +kernel, by decide +kernel⟩,
   ⟨by decide +kernel, by decide +kernel, by decide +kernel, by decide +kernel, by decide +kernel⟩⟩

theorem test_gennext :
    (∀ s ∈ [consuming [0, 1] 0, consuming [0, 1] 3, consuming [0] 0], Clean .gennext s ∧ (s.threads.map Prod.fst).Nodup) ∧
      (((after .gennext (consuming [0, 1] 0)).warp 0 0).gen = none ∧ ((after .gennext (consuming [0, 1] 0)).thread t0).pc = 0x12004) ∧
      ((after .gennext (consuming [0, 1] 3)).thread t0).pc = 0x13000 ∧
      (((after .gennext (consuming [0] 0)).thread t0).st = .waiting .ended ∧ ((after .gennext (consuming [0] 0)).thread ⟨0, 0, 1⟩).pc = 0x800 ∧
        ((after .gennext (consuming [0] 0)).thread ⟨0, 0, 1⟩).st = .ready) := by decide +kernel

theorem test_generator_loop :
    let p (f : Thread → Thread) : State := one f (fun b => { b with reserve := 1 }) fun w => { w with gen := some (gen false) }
    let c : State := one id (fun b => { b with reserve := 1, cells := cellWrite [] 16384 (leBytes 4 0x77) }) fun w => { w with gen := some (gen true) }
    let two : State := one id id fun w => { w with gen := some { gen false with w := 2 } }
    -- frame 1 of area 0 lies at 16384 + 512; its item 0 is stored, and its count is 1
    (Alone (.yield 4 false) (p (regs [(4, 0x55)])) t0 ∧ scr (.yield 4 false) (p (regs [(4, 0x55)])) (16384 + 512) = 0x55 ∧
        (((after (.yield 4 false) (p (regs [(4, 0x55)]))).warp 0 0).gen.map Gen.cnt1) = some 1) ∧
      trapped (.yield 4 false) one 6 1 = true ∧ trapped (.yield 4 false) c 6 1 = true ∧ trapped (.yield 5 false) two 4 5 = true ∧
      trapped (.yield 6 false) (one (fun th => { th with budget := 7 }) id fun w => { w with gen := some { gen false with w := 2 } }) 5 7 = true ∧
      (Alone (.take 1 false 6 false) c t0 ∧ ((after (.take 1 false 6 false) c).thread t0).rd 6 = 0x77 ∧
        preds ((after (.take 1 false 6 false) c).thread t0) = [true, true, false, false]) ∧
      trapped (.take 1 false 6 false) one 6 1 = true ∧ trapped (.take 1 false 6 false) (p id) 6 1 = true ∧
      (Alone .genend (p id) t0 ∧ ((after .genend (p id)).thread t0).st = .waiting .ended ∧ (((after .genend (p id)).warp 0 0).gen.map Gen.ended) = some [0]) ∧
      trapped .genend one 6 1 = true ∧ trapped .genend c 6 1 = true := by decide +kernel

theorem test_generator_switch :
    let s : State := { (one (fun th => { th with st := .ready, pc := 0x700 }) id fun w => { w with gen := some { gen false with pend := true } }) with arg := { core := 0, slot := 0 } }
    (s.threads.map Prod.fst).Nodup ∧ (∀ x ∈ (s.warpThreads 0 0), x.2.trap = none ∧ x.2.loaf.cnt = 0 ∧ x.2.st = .ready) ∧
      (((after .generatorSwitch s).warp 0 0).gen.map fun g => (g.consume, g.pend, g.saved)) = some (true, false, [(0, 0x700)]) ∧
      ((after .generatorSwitch s).thread t0).pc = 0x13000 := by decide +kernel

theorem test_kneading :
    let i : Instr := .knead 4 1 2
    let s := one (regs [(1, 9), (4, 0x44), (5, 0x55)])
    let outs : Out := { base := 6, n := 1, named := false, past := false, exempt := false, src := .val [0] }
    let bin (n : Nat) : Bin := { blk := br0, role := 0, key := 9, threads := (List.range n).map fun l => ⟨⟨0, 1, l⟩, 0, [(5, 0x66)], { tid := l }, Vector.replicate 64 0⟩, entered := 0 }
    (Alone i (one inTrap) t0 ∧ ((after i (one inTrap)).thread t0).pc = 0x12004) ∧
      trapped i (one id id fun w => { w with gen := some (gen false) }) 6 1 = true ∧
      (Alone i (one fun th => { th with outs := [outs] }) t0 ∧ ((after i (one fun th => regs [(1, 9)] { th with outs := [outs] })).thread t0).st = .waiting (.kneadOuts 9 4 2)) ∧
      (Alone i s t0 ∧ Quiet s t0 ∧ (after i s).thread? t0 = none ∧ ((after i s).core 0).bins.map (fun b => (b.key, b.threads.map BinThread.regs)) = [(9, [[(4, 0x44), (5, 0x55)]])]) ∧
      (let f := one id id id fun c => { c with bins := [bin 2] }
       Alone .kflush f t0 ∧ ((after .kflush f).core 0).bins = [] ∧ ((after .kflush f).warp? 0 1).isSome = true) ∧
      (let b (clock : Nat) : State := { (one id id id fun c => { c with bins := [bin 2] }) with arg := { core := 0, k := 0 }, clock := clock }
       ((after .binTimeout (b 2048)).core 0).bins = [] ∧ ((after .binTimeout (b 2047)).core 0).bins.length = 1) ∧
      (let r : State := { (one id (fun b => { b with slots := [0, 1] }) id fun c => { c with released := [bin 2] }) with arg := { core := 0 } }
       r.slotFor 0 (bin 2) = some 1 ∧ ((after .binWarpTakesSlot r).warp? 0 1).map (fun w => w.k[63]?) = some (some 3) ∧ ((after .binWarpTakesSlot r).thread ⟨0, 1, 1⟩).tid = 1 ∧
         ((after .binWarpTakesSlot r).thread ⟨0, 1, 1⟩).rd 5 = 0x66 ∧
         ((List.range 48).foldl (fun s k => (s.setWarp 0 k { blk := br0, role := 0 }).setThread ⟨0, k, 0⟩ {}) (one id id id fun c => { c with released := [bin 2] })).slotFor 0 (bin 2) = none) := by decide +kernel

theorem test_warp_register_writes :
    let s := warpOf 2 fun l th => regs [(8, BitVec.ofNat 32 (l + 5)), (15, 0x66)] th
    Clean (.wrk 3 1 false) s ∧ (∀ t ∈ s.group, (s.warp? t.core t.slot).isSome = true) ∧ ((after (.wrk 3 1 false) s).warp 0 0).k[3]? = some 1 ∧
      Clean (.cbset 8 false) s ∧ ((after (.cbset 8 false) s).warp 0 0).k[48]? = some 5 ∧ ((after (.cbset 8 false) s).warp 0 0).k[55]? = some 0x66 := by decide +kernel

/-! ## Pending events, grouping and fusion (R48, R49, R110–R114, R149–R155, R226, R231) -/

def outv (ws : List Word) : Out := { base := 6, n := ws.length, named := false, past := false, exempt := false, src := .val ws }

theorem test_pending_events :
    let w : State := { (one fun th => { th with outs := [outv [5, 7]], st := .waiting .outs }) with arg := { t := t0, k := 6 } }
    let l := after (.ldG 0 2 2 false 8 false) (holding 0x77 id)
    let st (x : Store) : State := { (mapped fun th => { th with stores := [x] }) with arg := { t := t0, flag := true } }
    let at_ (op : SyncOp) : State := { (mapped fun th => { th with st := .waiting (.access op) }) with arg := { t := t0 } }
    let op : ScOp := { kind := .add, d := 6, n := false, pa := 0x20000, cmp := false, b := 2, expect := 0, ts := ⟨1, 0⟩ }
    let sc (at_ : Stamp) : State := { stamped at_ (fun th => { th with sc := some op }) with arg := { t := t0 } }
    (((after .pendingWriteLands w).thread t0).rd 7 = 7 ∧ ((after .pendingWriteLands w).thread t0).outs = []) ∧
      (((after .pendingWriteLands { l with arg := { t := t0, k := 8 } }).thread t0).rd 8 = 0x77) ∧
      cellGet ((after .accessPerformed (st { loc := .scr br0 32, bytes := [9] })).block br0).cells 32 = 9 ∧
      (after .accessPerformed (st { loc := .glob 0x20000 0 false, bytes := [9] })).seen 0 0x20000 = 9 ∧
      ((after .accessPerformed (at_ (.fence 6))).thread t0).pc = 0x12004 ∧ ((after .accessPerformed (at_ .exit)).thread t0).st = .exited ∧
      -- the core's clock is the stamp of the line, and one above a later one
      (leValue (homeBytes (after .accessPerformed (sc ⟨0, 0⟩)) 0x20000 4) = 5 ∧ (after .scRetry (sc ⟨0, 0⟩)).mem = (sc ⟨0, 0⟩).mem ∧
        stampAt (after .scRetry (sc ⟨9, 1⟩)) 0 0x400 = ⟨10, 0⟩) := by decide +kernel

theorem test_join_and_rendezvous_complete :
    let j (pc : Dword) : State := { (warpOf 2 fun l th => if l = 0 then { th with st := .waiting (.join 0x12000), pc := 0x12004 } else { th with pc := pc, st := .ready }) with arg := { v := 0x12000 } }
    let a (l : Nat) : Arrival := { lane := l, addr := 0x12000, mask := 3, op := .redaddI, a := BitVec.ofNat 32 (l + 1), b := 0, p := false, d := 4, n := false, e := true }
    let r (as : List Arrival) : State := { (warpOf 2 (fun _ th => { th with st := .waiting .rendezvous }) id fun w => { w with arrs := as }) with arg := {} }
    let m : State := ((j 0x12000).modThread ⟨0, 0, 1⟩ fun th => { th with st := .running, loaf := { th.loaf with cnt := 1 } }).modCore 0 fun c => { c with p0 := [⟨0, 0, 1⟩], last0 := some 5 }
    -- a thread of the warp below the JOIN holds it; one at it does not (R110), but one that has issued and stands before it (log entry 33)
    ((after .joinRelease m).thread t0).st = .waiting (.join 0x12000) ∧ ((after .joinRelease (j 0x11FFE)).thread t0).st = .waiting (.join 0x12000) ∧ ((after .joinRelease (j 0x12000)).thread t0).st = .ready ∧
      ((after .rendezvousComplete (r [a 0])).warp 0 0).arrs = [a 0] ∧
      ((after .rendezvousComplete (r [a 0, a 1])).thread ⟨0, 0, 1⟩).rd 4 = 3 ∧ ((after .rendezvousComplete (r [a 0, a 1])).thread t0).pc = 0x12004 := by decide +kernel

/-- Two entries of the PC table, and what the ports hold. -/
def tabled2 (p0 p1 : List TRef) (aged : Bool) (l1 : Nat) : State :=
  let e (pc : Dword) (ts : List TRef) (at_ : Nat) (x : Bool) : Entry := { pc := pc, j := 0, cnt := 0, trapMode := false, leaven := false, members := ts, created := at_, aged := x }
  let s := warpOf 3 fun _ th => { th with st := .listed }
  let s := s.setThread ⟨0, 1, l1⟩ { (s.thread t0) with pc := 0x100 }
  { (s.modCore 0 fun c => { c with p0 := p0, p1 := p1, fillAt := 10, table := [e 0x200 [⟨0, 0, 0⟩] 0 aged, e 0x100 [⟨0, 1, l1⟩] 5 false] }) with arg := { core := 0 }, clock := 10 }

theorem test_grouper :
    let p (s : State) : List TRef × List TRef := (((after .grouperFill s).core 0).p0, ((after .grouperFill s).core 0).p1)
    -- the lowest pc first, and beside it an entry of disjoint lanes; an aged entry before it; nothing beside it where the lanes meet
    p (tabled2 [] [] false 1) = ([⟨0, 1, 1⟩], [t0]) ∧ p (tabled2 [] [] true 1) = ([t0], [⟨0, 1, 1⟩]) ∧ p (tabled2 [] [] false 0) = ([⟨0, 1, 0⟩], []) ∧
      p { tabled2 [] [] false 1 with powerStep := 3 } = ([⟨0, 1, 1⟩], []) ∧
      p (tabled2 [⟨0, 0, 1⟩] [] false 1) = ([⟨0, 0, 1⟩], [t0]) ∧ p (tabled2 [] [⟨0, 0, 1⟩] false 1) = ([t0], [⟨0, 0, 1⟩]) ∧
      (((after .entryAged { tabled2 [] [] false 1 with clock := 256 }).core 0).table.map Entry.aged = [true, false]) ∧
      (((after .entryAged { tabled2 [] [] false 1 with clock := 255 }).core 0).table.map Entry.aged = [false, false]) := by decide +kernel

theorem test_fused_groups :
    -- MULLO g9, g4, g5 with ADD g10, c0, g6 (R114); SHLI, ADD; MOVH, ORL; ICMP, BR; three with a PAND between; and two that do not fuse
    let f (ms : List Fusable) : State := { (one (regs [(4, 6), (5, 7), (6, 1)])) with arg := { fused := ms } }
    let s := f [.mullo 5 4 false 9 false, .add 6 124 false 10 false]
    fusedQualifies s.arg.fused = true ∧ s.group ≠ [] ∧ ((after .fusedGroup s).thread t0).rd 9 = 42 ∧ ((after .fusedGroup s).thread t0).rd 10 = 43 ∧
      ((after .fusedGroup s).thread t0).loaf.c0.toNat = 43 ∧ ((after .fusedGroup s).thread t0).loaf.c1.toNat = 42 ∧ ((after .fusedGroup s).thread t0).loaf.j = 2 ∧
      ((after .fusedGroup (f [.movh 0x1234 false 9 false, .orl 0x5678 false 9 false])).thread t0).rd 9 = 0x12345678 ∧
      ((after .fusedGroup (f [.icmp 0 5 4 2 1 false, .br 0x7E false 1])).thread t0).pc = 0x12104 ∧
      fusedQualifies [.mullo 5 4 false 9 false, .add 6 5 false 10 false] = false ∧
      ((after .fusedGroup (f [.mullo 5 4 false 9 false, .add 6 5 false 10 false])).thread t0).pc = 0x12000 := by decide +kernel

theorem test_leaven :
    let b (x : Block) : Block := { x with leavenBudget := 8, leavenEntry := 0x5000 }
    let load : Out := { outv [0] with src := .load [] .raw, ld := true, named := true, past := true, must := true }
    let s (clock : Nat) : State := { (one (fun th => regs [(1, 7), (6, 8)] { th with st := .waiting .outs, stall := some 0, outs := [load], p2 := true }) b) with arg := { t := t0 }, clock := clock }
    let t := after .leavenSpawn (s 256)
    ((t.warp? 0 1).map Warp.leaven = some (some (256, t0)) ∧ (t.thread ⟨0, 1, 0⟩).pc = 0x5000 ∧ (t.thread ⟨0, 1, 0⟩).budget = 8 ∧ (t.thread ⟨0, 1, 0⟩).rd 1 = 7 ∧
        (t.thread ⟨0, 1, 0⟩).rd 6 = 0 ∧ (t.thread ⟨0, 1, 0⟩).p2 = true) ∧
      (after .leavenSpawn (s 255)).warp? 0 1 = none ∧
      (after .leavenContextEnd { t with arg := { core := 0, slot := 1 }, clock := 256 + 4096 }).warp? 0 1 = none ∧
      ((after .leavenContextEnd { t with arg := { core := 0, slot := 1 }, clock := 256 + 4095 }).warp? 0 1).isSome = true := by decide +kernel

/-! ## Launches (R139–R148, R344) -/

/-- A queue header at 0x30000 with its ring at 0x31000, and one record in it (R139, R142). -/
def header (base size prio res qerr head tail : Nat) : List Byte :=
  leBytes 8 base ++ leBytes 1 size ++ leBytes 1 prio ++ leBytes 1 res ++ leBytes 1 qerr ++ leBytes 4 0 ++ leBytes 4 head ++ leBytes 4 tail

/-- A record of one warp of main with a budget of 8 and `w` warps of copy. -/
def launchRec (entry w nomig : Nat) : List Byte :=
  leBytes 8 entry ++ leBytes 8 0x600000005 ++ leBytes 8 0x9000 ++ [0, 0, BitVec.ofNat 8 nomig, 0] ++ leBytes 4 0 ++ [1, BitVec.ofNat 8 w, 0, 0] ++ [8, 12, 0, 0] ++
    leBytes 4 0x100 ++ leBytes 8 0 ++ leBytes 4 1024 ++ leBytes 200 0

def queued (h : List Byte) (r : List Byte) (a : Arg := { v := 0x30000 }) : State :=
  let s := State.reset.bare
  { s with mem := cellWrite (cellWrite s.mem 0x30000 h) 0x31000 r, arg := a }

def good : List Byte := header 0x31000 1 3 0 0 0 1

theorem test_notify :
    let s := queued good (launchRec 0x1000 1 0)
    let t := after .lqn s
    let slot : QSlot := { part := 0, tenant := 0, hdr := 0x30000, base := 0x31000, lsize := 1, prio := 3, nopre := false, serial := false, head := 0, tail := 1, mappedAt := 0, recs := [launchRec 0x1000 1 0] }
    (s.regsAnswer 0 = true ∧ s.isCurrent ⟨0, 0⟩ = true ∧ hubXlate s ⟨0, 0⟩ 0x30000 64 true = some 0x30000 ∧ t.slots = [(0, slot)]) ∧
      -- a second notify takes the new tail, or stops the queue at an excess; QERR ignores; a size of 17 stops
      ((after .lqn { t with mem := cellWrite t.mem 0x30014 [2] }).slots.map fun x => x.2.tail) = [2] ∧
      ((after .lqn { t with mem := cellWrite t.mem 0x30014 [3] }).slots = [] ∧ homeByte (after .lqn { t with mem := cellWrite t.mem 0x30014 [3] }) 0x3000B = 1) ∧
      (after .lqn (queued (header 0x31000 1 3 0 1 0 1) [])).slots = [] ∧
      ((after .lqn (queued (header 0x31000 17 3 0 0 0 1) [])).slots = [] ∧ homeByte (after .lqn (queued (header 0x31000 17 3 0 0 0 1) [])) 0x3000B = 1 ∧
        ((after .lqn (queued (header 0x31000 17 3 0 0 0 1) [])).partn 0).irqs = 1) ∧
      -- another tenant's queue waits on the list; a header that cannot be read; no answer before the hub is powered
      (after .lqn (queued good [] { v := 0x30001 })).pending = [⟨0, 1, 0x30000⟩] ∧ ((after .lqn (queued good [] { v := 0x80000000 })).partn 0).irqs = 1 ∧
      (after .lqn { s with sec := { s.sec with powered := false } }).slots = [] := by decide +kernel

theorem test_take_record :
    let s (r : List Byte) : State := { after .lqn (queued good r) with arg := { k := 0 } }
    let t := after .takeRecord (s (launchRec 0x1000 1 0))
    (checkRecord (s (launchRec 0x1000 1 0)) ⟨0, 0⟩ (launchRec 0x1000 1 0)).1 = 0 ∧ (launchRec 0x1000 1 0).length = 256 ∧
      (t.launches.map fun x => (x.1, x.2.placed, x.2.lrec.entry)) = [(0, false, 0x1000)] ∧ (t.slots.map fun x => x.2.cand) = [some 0] ∧
      -- an odd entry is reason 1; the head moves on
      (checkRecord (s (launchRec 0x1001 1 0)) ⟨0, 0⟩ (launchRec 0x1001 1 0)).1 = 1 ∧ (after .takeRecord (s (launchRec 0x1001 1 0))).launches = [] ∧
      ((after .takeRecord (s (launchRec 0x1001 1 0))).slots.map fun x => x.2.head) = [1] ∧ homeByte (after .takeRecord (s (launchRec 0x1001 1 0))) 0x310F8 = 3 ∧
      -- 49 warps are reason 3 and a budget of 0 for one warp is reason 4
      (checkRecord (s []) ⟨0, 0⟩ (launchRec 0x1000 48 0)).1 = 3 ∧ (checkRecord (s []) ⟨0, 0⟩ ((launchRec 0x1000 0 0).set 36 0)).1 = 4 ∧
      ((after .slotFree { s [] with arg := { k := 0 } }).slots.length = 1) ∧
      ((after .slotFree { (after .lqn (queued (header 0x31000 1 3 0 0 0 0) [])) with arg := { k := 0 } }).slots = []) := by decide +kernel

/-- The launch of a record is placed: its main warp at the entry with the arguments in k0 and k1, its copy warp at the offset (R147). -/
theorem test_place :
    let t := after .takeRecord { after .lqn (queued good (launchRec 0x1000 1 0)) with arg := { k := 0 } }
    let p := after .offerCandidate t
    t.candidates.map Prod.fst = [0] ∧ (t.launches.map fun x => t.originFor x.2) = [some (0, 0)] ∧ (p.block? ⟨0, 0⟩).map Block.core = some 0 ∧
      (p.thread ⟨0, 1, 0⟩).pc = 0x1000 ∧ (p.thread ⟨0, 2, 31⟩).pc = 0x1100 ∧ (p.thread ⟨0, 2, 31⟩).tid = 63 ∧ (p.thread ⟨0, 2, 31⟩).budget = 12 ∧
      (p.warp 0 1).k[0]? = some 5 ∧ (p.warp 0 1).k[1]? = some 6 ∧ (p.warp 0 1).k[63]? = some 0xFFFFFFFF ∧ (p.launches.map fun x => x.2.placed) = [true] := by decide +kernel

def blank : Launch := { part := 0, tenant := 0, slot := 0, hdr := 0, recVa := 0, prio := 0, serial := false, lrec := LRec.of [], tree := { parents := [], deliv := false, timeout := 0 } }

/-- A candidate of priority 7 that may use core 0 alone. -/
def late (l : Launch) : Launch :=
  { l with placed := false, prio := 7, offeredAt := some 0, slot := 9, hdr := 0x40000, lrec := { l.lrec with fixed := true, ox := 0, oy := 0, warps := [48, 0, 0, 0] } }

/-- Beside a placed launch on core 0, on which it does not fit. -/
def crowded (clock : Nat) (nomig : Nat) : State :=
  let s := after .offerCandidate (after .takeRecord { after .lqn (queued good (launchRec 0x1000 1 nomig)) with arg := { k := 0 } })
  let l := (s.launches.map Prod.snd).headD blank
  { s with clock := clock, launches := s.launches ++ [(1, late l)] }


theorem test_starvation_and_migration :
    let star (clock : Nat) : List Bool := (after .recordStarvation { crowded clock 0 with arg := { k := 1 } }).launches.map fun x => x.2.starving
    let moves (clock nomig : Nat) : List (Nat × Nat) := (after .migration { crowded clock nomig with arg := { slot := 1, n := 0, k := 4, off := 0 } }).launches.map fun x => (x.2.x0, x.2.y0)
    star 65536 = [false, true] ∧ star 65535 = [false, false] ∧
      moves 4096 0 = [(4, 0), (0, 0)] ∧ moves 4095 0 = [(0, 0), (0, 0)] ∧ moves 4096 2 = [(0, 0), (0, 0)] := by decide +kernel

/-! ## The copy engine, the sifter and the end of a block (R279–R290, R34) -/

/-- A descriptor (R280, R281). -/
def desc (base mode dest ctl dim0 : Nat) : List Byte :=
  leBytes 6 base ++ leBytes 2 mode ++ leBytes 2 0 ++ leBytes 2 dest ++ leBytes 2 8 ++ leBytes 2 ctl ++ leBytes 8 0 ++ leBytes 8 dim0 ++ leBytes 32 0

/-- The block has one command in q4 and an object of one arrival at 128; a word stands at 0x20000. -/
def copying (d : List Byte) : State :=
  let s := mapped id fun b => { b with q4 := [d], cells := cellWrite (cellWrite [] 0x40 [0x11, 0x22, 0x33, 0x44]) 0x88 [1] }
  { s with mem := cellWrite s.mem 0x20000 [0xA1, 0xB2, 0xC3, 0xD4] }

def copied (s : State) : Option (Nat × Nat) := (((after .copyTakeEntry s).core 0).copies.head?).map fun f => (f.code, f.left)

theorem test_copy_commands :
    let load := copying (desc 0x20000 2 4 5 0)
    let fill := copying (desc 0x20000 2 4 5 (2 ^ 23))
    let store := copying (desc 0x20080 0x82 4 0x1005 0)
    (copied { load with arg := { core := 1 } } = none ∧ (Copy.of (desc 0x20000 2 4 5 0)).malformed = false ∧ (Copy.of (desc 0x20000 2 4 5 0)).count = 1) ∧
      copied (copying (desc 0x20000 0x32 4 5 0)) = some (6, 0) ∧ copied (copying (desc 0x20000 2 2000 5 0)) = some (4, 0) ∧
      copied (copying (desc 0x80000000 2 4 5 0)) = some (4, 0) ∧
      (copied load = some (0, 4) ∧ cellGet ((after .copyTakeEntry load).block br0).cells 0x43 = 0xD4) ∧
      (copied fill = some (0, 4) ∧ cellGet ((after .copyTakeEntry fill).block br0).cells 0x43 = 0 ∧ ((after .copyTakeEntry fill).block br0).full.contains 4 = true) ∧
      (copied store = some (0, 0) ∧ homeByte (after .copyTakeEntry store) 0x20082 = 0x33) ∧
      -- rows of a swizzled box (R195)
      swizzle 1 0x8C0 = 0x8D0 ∧ swizzle 2 0x88 = 0x8C := by decide +kernel

theorem test_copy_completion :
    let s := { after .copyTakeEntry (copying (desc 0x20000 2 4 5 0)) with arg := { core := 0, k := 0, n := 4 } }
    let bad := { after .copyTakeEntry (copying (desc 0x80000000 2 4 5 0)) with arg := { core := 0, k := 0 } }
    let o (s : State) : Obj := Obj.of (scrRead s br0 0x80 16)
    let done := { after .engineByteCount s with arg := { core := 0, k := 0 } }
    (o (after .engineByteCount s)).count = 4 ∧ ((o (after .engineError bad)).err = true ∧ (o (after .engineError bad)).ecode = 4) ∧
      ((after .copyStatus s).block br0).q5 = [] ∧ ((after .copyStatus { after .engineError done with arg := done.arg }).block br0).q5 = [0x0000000400000005] ∧
      ((after .copyStatus { after .engineError bad with arg := bad.arg }).block br0).q5 = [0x40005] := by decide +kernel

theorem test_sifter_and_block_end :
    let l : Launch := { blank with placed := true, lrec := { blank.lrec with transforms := [32, 32, 0, 0] }, blocksLeft := 1 }
    let s (sift : List Nat) (st : TState) : State := { (one (fun th => { th with st := st }) fun b => { b with sift := sift }) with launches := [(0, l)], arg := { blk := br0 } }
    ((after .sifter (s [0] (.waiting .sifter))).block br0).q5 = [0x60000] ∧ ((after .sifter (s [0] (.waiting .sifter))).thread t0).st = .ready ∧
      ((after .sifter (s [0, 1] (.waiting .sifter))).block br0).sift = [1] ∧ ((after .sifter (s [0, 1] (.waiting .sifter))).thread t0).st = .waiting .sifter ∧
      ((after .sifter (s [] .ready)).block br0).q5 = [] ∧
      ((after .blockEnd (s [] .exited)).block? br0 = none ∧ (after .blockEnd (s [] .exited)).launches = [] ∧ (after .blockEnd (s [] .exited)).thread? t0 = none) ∧
      ((after .blockEnd (s [] .ready)).block? br0).isSome = true := by decide +kernel

/-! ## The matrix engine (R79, R296–R319) -/

/-- A parameter block for INT8 operands at 0x400 and 0x800, one row in 16 bytes (R298). -/
def parBytes (waita ctl fmt : Nat) (klen : Nat := 16) : List Byte :=
  leBytes 4 0x400 ++ leBytes 4 0x800 ++ leBytes 4 0 ++ leBytes 4 waita ++ leBytes 2 klen ++ leBytes 2 1 ++ leBytes 2 1 ++ leBytes 2 8 ++ leBytes 8 0x1000 ++ leBytes 24 0 ++
    leBytes 4 ctl ++ leBytes 4 fmt

def mxrun (p : MxPar) : MxRun :=
  { blk := br0, entry := ⟨0, [], none, none⟩, par := p, serial := 0, chain := 0, tag := none, origin := 0, oserial := 0, ablk := br0, bblk := br0, mblk := br0 }

/-- Row 0 of A is 1, 2, 3, 4 and row 1 is -1, 0, 0, 0; row 0 of B is 5, 6, 7, -1 (the columns of the product). -/
def matrixed (r : MxRun) (b : Block → Block := id) (c : Core → Core := id) (a : Arg := {}) : State :=
  { (one id (fun x => b { x with cells := cellWrite (cellWrite (cellWrite (cellWrite [] 0x400 [1, 2, 3, 4]) 0x410 [0xFF]) 0x800 [5, 6, 7, 0xFF]) 0 (parBytes 0 0 3) }) id
      fun k => c { k with runs := [r], acc0 := { held := some br0, words := [] } }) with arg := a }

theorem test_matrix_take :
    let e (addr : Word) : MxEntry := ⟨addr, [], none, none⟩
    let s (addr : Word) : State := matrixed (mxrun (MxPar.of [])) (fun b => { b with q0 := [e addr] }) fun k => { k with runs := [], acc0 := {} }
    let r (s : State) : Option (Bool × Nat × Bool) := ((after .matrixTakeEntry s).core 0).runs.head?.map fun r => (r.inert, r.code, r.needBuf)
    r (s 0) = some (false, 0, true) ∧ (MxPar.of (parBytes 0 0 3)).malformed ((s 0).block br0) = false ∧ ((after .matrixTakeEntry (s 0)).block br0).q0 = [] ∧
      r (s 16384) = some (true, 4, false) ∧ r (s 0x400) = some (true, 6, false) ∧ r { s 0 with arg := { core := 1 } } = none ∧
      (MxPar.of (parBytes 0 0x300005 3)).tag = 5 ∧ (MxPar.of (parBytes 0 0x300005 3)).drain = true := by decide +kernel

theorem test_buffer_claim :
    let r := { mxrun (MxPar.of (parBytes 0 0 3)) with needBuf := true }
    let s (h : Option BRef) : State := matrixed r id fun k => { k with acc0 := { held := h, words := [] } }
    let got (h : Option BRef) : List Bool := ((after .bufferClaim (s h)).core 0).runs.map MxRun.needBuf
    r.buffered = true ∧ r.mayAct ((s none).core 0) = true ∧ got none = [false] ∧ ((after .bufferClaim (s none)).core 0).acc0.held = some br0 ∧
      got (some br0) = [false] ∧ got (some ⟨5, 0⟩) = [true] := by decide +kernel

theorem test_k_step :
    let s := matrixed (mxrun (MxPar.of (parBytes 0 0x400000 3)))
    let bad := matrixed { mxrun (MxPar.of (parBytes 0 0 3)) with code := 2 }
    let t := after .kStep s
    (mxrun (MxPar.of (parBytes 0 0x400000 3))).mayAct (s.core 0) = true ∧ (s.core 0).stopOf 0 = none ∧ (MxPar.of (parBytes 0 0x400000 3)).opf = 3 ∧
      (scrOperand s br0 0x400 16).toOption.map (fun l => l.take 5) = some [1, 2, 3, 4, 0] ∧ (scrOperand s br0 0x800 16).toOption.isSome = true ∧
      tget (t.core 0).acc0.words 0 = some 34 ∧ tget (t.core 0).acc0.words 32 = some 0xFFFFFFFB ∧ tget (t.core 0).acc0.words 1 = none ∧
      ((t.core 0).runs.map MxRun.done) = [[0]] ∧
      ((after .kStep { s with arg := { flag := true } }).core 0).runs.map (fun r => r.fetched.length) = [1] ∧
      ((after .kStep bad).core 0).runs.map MxRun.ended = [true] := by decide +kernel

theorem test_metadata :
    let p := MxPar.of (parBytes 0 0x400000 0x43 64)
    let s (q1 : List MetaPush) : State := matrixed (mxrun p) fun b => { b with q1 := q1 }
    let got (q1 : List MetaPush) : List (Nat × Nat) := ((after .metadataTake (s q1)).core 0).runs.map fun r => (r.code, r.colsTaken)
    -- SP = 1 keeps two of each four: 0x76543210 names rising nibbles; equal nibbles are a fault
    p.sp = 1 ∧ 0 < p.columns ∧ (mxrun p).reads ((s []).core 0) = true ∧ got [] = [(0, 0)] ∧ got [⟨0, List.replicate 32 0x76543210⟩] = [(0, 1)] ∧
      got [⟨1, List.replicate 32 0x76543210⟩] = [(3, 1)] ∧ got [⟨0, 0x76543211 :: List.replicate 31 0x76543210⟩] = [(3, 1)] ∧
      metaFault 2 0x76543210 = none ∧ (metaFault 8 0xFC976610).isSome = true ∧ metaFault 8 0xFC976210 = none := by decide +kernel

set_option maxRecDepth 100000 in
/-- A pair of partials enters q2; with q2 full none does. -/
theorem test_partial_delivery :
    let sc := MxPar.of (parBytes 0 0 4 64)
    let pr := { mxrun sc with partials := [List.replicate 1024 0x3F800000], done := [0] }
    let s (q2 : List Dword) : State := matrixed pr fun b => { b with q2 := q2 }
    sc.scaled = true ∧ ((after .partialDelivery (s [])).block br0).q2 = [0x3F8000003F800000] ∧
      ((after .partialDelivery (s (List.replicate 64 0))).core 0).runs.map MxRun.delivered = [0] := by decide +kernel

theorem test_matrix_status :
    let fin := { mxrun (MxPar.of (parBytes 0 0x600005 3)) with done := [0], ended := true, counted := true, errDone := true }
    let f (q3 : List Dword) : State := matrixed fin fun b => { b with q3 := q3 }
    fin.finished = true ∧ ((after .matrixStatus (f [])).block br0).q3 = [5] ∧ ((after .matrixStatus (f [])).core 0).runs = [] ∧
      ((after .matrixStatus (f (List.replicate 16 0))).core 0).runs.length = 1 := by decide +kernel

/-! ## Reductions, the hub and contexts (R242, R335–R369, R379) -/

/-- Two blocks of a launch whose tree has block 0 at the root, with a deadline of 100 cycles for block 1. -/
def reducing (reds : List Reduction) (b : Block → Block) (a : Arg) (clock : Nat := 0) : State :=
  let l : Launch := { blank with placed := true, tree := { parents := [none, some 0], deliv := false, timeout := 100 }, reds := reds, blocksLeft := 2 }
  { (one id b) with launches := [(0, l)], arg := a, clock := clock }

def redOf (s : State) : Option Reduction := (s.launch? 0).bind fun l => l.red? 0

theorem test_reductions :
    let v (w : Word) : List Word := List.replicate 32 w
    let item (i : Nat) (w : Word) : RItem := { idx := i, vec := v w, missing := [], carried := [i] }
    let send := reducing [] (fun b => { b with q6 := [v 0x3F800000], rsends := 1 }) { flag := true, blk := br0 }
    let node (items : List RItem) : Reduction := { seq := 0, nodes := [{ idx := 0, items := items, first := some 0 }] }
    let fly := reducing [{ seq := 0, flying := [(0, item 1 0x40000000)] }] id { k := 0, n := 0, off := 0 }
    let both := reducing [node [item 0 0x3F800000, item 1 0x40000000]] (fun b => { b with rsends := 1 }) { k := 0, n := 0, off := 0 }
    let late (clock : Nat) := reducing [node [item 0 0x3F800000]] (fun b => { b with rsends := 1 }) { k := 0, n := 0, off := 0 } clock
    let child := reducing [{ seq := 0, nodes := [{ idx := 1, items := [item 1 0x40000000], first := some 0 }] }] id { k := 0, n := 0, off := 1 }
    send.redsRun 0 = true ∧ ((after .reductionItemArrival send).block br0).q6 = [] ∧ (redOf (after .reductionItemArrival send)).map (fun r => (r.node 0).items.map RItem.idx) = some [0] ∧
      (redOf (after .reductionItemArrival fly)).map (fun r => ((r.node 0).items.map RItem.idx, r.flying.length)) = some ([1], 0) ∧
      -- 1.0 + 2.0 at the root; one item alone waits, and at the deadline gives 1.0 + -0 with block 1 missing
      (((after .routerCombine both).block br0).q7 = [v 0x40400000] ∧ ((after .routerCombine both).block br0).rstat.res = true) ∧
      (((after .routerCombine (late 0)).block br0).q7 = [] ∧ ((after .reductionDeadline (late 99)).block br0).q7 = []) ∧
      (((after .reductionDeadline (late 100)).block br0).q7 = [v 0x3F800000] ∧ ((after .reductionDeadline (late 100)).block br0).rstat.missn = 1 ∧
        ((after .reductionDeadline (late 100)).block br0).rstat.tmo = true) ∧
      (redOf (after .routerCombine child)).map (fun r => r.flying.map Prod.fst) = some [0] ∧ (after .routerCombine { both with parts := [] }).launches = both.launches := by decide +kernel

def hub (a : Arg) (f : Partition → Partition := id) : State := { State.reset.bare.modPart 0 f with arg := a }

set_option maxRecDepth 100000 in
theorem test_hub_registers :
    let q (i : Instr) (a : Arg) (f : Partition → Partition := id) : Partition := (after i (hub a f)).partn 0
    (hub {}).regsAnswer 0 = true ∧ (hub { part := 5 }).regsAnswer 5 = false ∧
      (q .s2root { v := 0x12345FFF }).s2root = 0x12345001 ∧ (q .s2root { v := 0x1001 }).busy = some .all ∧ (q .s2root { v := 0x1001 } fun p => { p with busy := some .all }).ign = true ∧
      (q .hubinvVa { v := 0x5000, tenant := 2 }).busy = some (.va 0x5000 2) ∧ (q .hubinvTenant { tenant := 2 }).busy = some (.tenant 2) ∧
      (q .hubinvIpa { v := 0x5000 }).busy = some (.ipa 0x5000) ∧ (q .hubinvPartition {}).busy = some .all ∧
      (q .invalidationComplete {} fun p => { p with busy := some .all }).busy = none ∧ (q .invalidationComplete {}).busy = none ∧
      (q .nqbase { v := 0x40003 } fun p => { p with nqprod := 7 }).nqprod = 0 ∧ (q .nqbase { v := 0x40002 } fun p => { p with nqprod := 7 }).nqprod = 7 ∧
      (q .registerWrite { off := 0x4010, v := 9 }).nqcons = 9 ∧ (q .registerWrite { off := 0x3008, v := 9 }).ign = true ∧ (q .registerWrite { off := 0x4FF8, v := 9 }).nqcons = 0 ∧
      (q .scepoch { v := 1 }).epochGo = true ∧ (q .scepoch {}).epochGo = false ∧ (q .smaddr { v := 0x20040 }).smaddr = 0x20040 ∧ (q .smaddr { v := 0x20040 }).smbusy = true ∧
      (q .smaddr { v := 0x20040 } fun p => { p with smbusy := true }).smign = true ∧
      (q .epochChangeComplete {} fun p => { p with epochGo := true }).epochs = 1 ∧ (q .epochChangeComplete {}).epochs = 0 := by decide +kernel

theorem test_notices :
    -- a ring of 128 entries at 0x40000 (R369): its first entry, and a full ring
    let on (p : Partition) : Partition := { p with nqbase := 0x40001 }
    let t := (hub {} on).notice 0 4 2 0x30000 0
    (t.partn 0).nqprod = 1 ∧ homeByte t 0x40000 = 4 ∧ homeByte t 0x40003 = 2 ∧ homeByte t 0x4000A = 3 ∧ (t.partn 0).irqs = 1 ∧
      (((hub {} fun p => { on p with nqprod := 128 }).notice 0 4 2 0 0).partn 0).nqlost = 1 ∧ (((hub {}).notice 0 4 2 0 0).partn 0).nqlost = 1 ∧
      (((hub {} fun p => { p with nqlost := 65535 }).notice 0 4 2 0 0).partn 0).nqlost = 65535 := by decide +kernel

theorem test_flit_failures :
    let s (run : Nat) : State := { (hub { k := 0, n := 3, flag := true }) with sec := { (hub {}).sec with retryRun := [((0, 3), run)] } }
    let last : State := { s 15 with sec := { (s 15).sec with deadLinks := (List.range 16).filterMap fun l => if l = 3 then none else some (0, l) } }
    (after .flitCrcFailure (s 15)).sec.deadLinks = [(0, 3)] ∧ (after .flitCrcFailure (s 14)).sec.deadLinks = [] ∧ (after .flitCrcFailure (s 0)).sec.life.retries.take 2 = [1, 0] ∧
      ((after .flitCrcFailure last).partn 0).halted = true ∧ ((after .flitCrcFailure (s 15)).partn 0).halted = false ∧
      (after .flitCrcFailure { s 0 with arg := { k := 10 } }).sec.retryRun = (s 0).sec.retryRun := by decide +kernel

/-- A context descriptor at 0x50000 for tenant 3, never saved (R335), with a slice of `n`. -/
def ctxDesc (valid n : Nat) : List Byte :=
  leBytes 8 0x10000 ++ leBytes 8 0x100000 ++ leBytes 4 n ++ [3, BitVec.ofNat 8 valid] ++ leBytes 2 0 ++ leBytes 8 0 ++ leBytes 2 0xFFFF ++ leBytes 2 0xFFFF

def described (v : Dword) (f : Partition → Partition := id) (valid : Nat := 1) : State :=
  let s := hub { v := v } f
  { s with mem := cellWrite s.mem 0x50000 (ctxDesc valid 2) }

def ctx3 : Ctx := { desc := 0x50000, s1root := 0x10000, save := 0x100000, slice := 2, tenant := 3, savecnt := 0, waymask := 0xFFFF, rdcmask := 0xFFFF, quota := 0, since := 0 }

set_option maxRecDepth 100000 in
theorem test_contexts :
    let q (i : Instr) (s : State) : Partition := (after i s).partn 0
    let next (n : Option Ctx) (cur : Bool) (p : Partition) : Partition := { p with next := some (n, false), cur := if cur then p.cur else none }
    let sl (clock : Nat) (p : Partition → Partition) : State := { (hub {} fun x => p { x with cur := some { ctx3 with since := 0 } }) with clock := clock }
    ((described 0x50000).regsAnswer 0 = true ∧ (q .ctxnext (described 0x50000)).next = some (some ctx3, false)) ∧ (q .ctxnext (described 3)).next = some (none, true) ∧
      ((q .ctxnext (described 0x50000 id 0)).next = none ∧ (q .ctxnext (described 0x50000 id 0)).irqs = 1) ∧
      (q .preloadComplete (described 0 (next (some ctx3) true))).preloaded = true ∧
      ((q .preloadComplete (described 0 (next (some ctx3) false))).cur = some ctx3 ∧ (q .preloadComplete (described 0 (next (some ctx3) false))).switch = .idle) ∧
      (q .preloadComplete (described 0 (next none false))).next = none ∧ (q .preloadComplete (hub {})).preloaded = false ∧
      (q .sliceEnd (sl 2047 id)).cur.map Ctx.since = some 0 ∧ (q .sliceEnd (sl 2048 id)).cur.map Ctx.since = some 2048 ∧
      (q .sliceEnd (sl 2048 fun p => { p with next := some (none, false), preloaded := true })).switch = .stopping none ∧ (q .sliceEnd (hub {} fun p => { p with cur := none })).cur = none := by
  decide +kernel

theorem test_context_image_refused :
    -- a save count that no image has: the first core's image is refused with notice 6 (R341)
    let s := hub {} fun p => { p with next := some (some { ctx3 with savecnt := 5 }, false) }
    (s.coresOf 0).length ≠ 0 ∧ field (hubRead s 0x100000 64) 0 4 ≠ 1 := by decide +kernel

theorem test_core_stopped_and_spill :
    let st (c : Core → Core) : State := { (one id id id c) with threads := [], warps := [], blocks := [], arg := { core := 0 } } |>.modPart 0 fun p => { p with switch := .stopping none }
    ((after .coreStopped (st id)).core 0).stopped = true ∧ (((after .coreStopped { one with arg := { core := 0 } }).core 0).stopped = false) ∧
      ((after .coreStopped { (st id) with arg := { core := 0, flag := true } }).core 0).swapped = true ∧
      ((after .spill (hub { } fun p => { p with next := some (none, true), switch := .stopping none })).partn 0).next = some (none, true) ∧
      ((after .spill (hub {})).partn 0).switch = .idle := by decide +kernel

theorem test_power_steps :
    let s (n : Nat) : State := { hub {} with powerStep := n }
    ((List.range 6).map fun n => (after .powerLimit (s n)).powerStep) = [1, 2, 3, 4, 5, 5] ∧ ((after .powerLimit (s 3)).partn 0).switch = .stopping none ∧
      ((after .powerLimit (s 3)).partn 0).irqs = 1 ∧ ((after .powerLimit (s 4)).partn 0).irqs = 1 ∧ ((after .powerLimit (s 2)).partn 0).irqs = 0 ∧
      (after .shedReturn (s 5)).powerStep = 4 ∧ (after .shedReturn (s 0)).powerStep = 0 := by decide +kernel

/-! ## Security, lifetime and the host (R363–R394) -/

/-- The partition's command block at 0x20000: code, input at 0x21000 and output at 0x22000, arguments (R379). -/
def command (code inlen outcap : Nat) (args : List Byte) (input : List Byte) (x : Secure → Secure := id) : State :=
  let s := hub {} fun p => { p with smaddr := 0x20000, smbusy := true }
  let b := [BitVec.ofNat 8 code, 0, 0, 0] ++ leBytes 4 inlen ++ leBytes 8 0x21000 ++ leBytes 4 outcap ++ leBytes 4 0 ++ leBytes 8 0x22000 ++ args
  { s with mem := cellWrite (cellWrite s.mem 0x20000 b) 0x21000 input, sec := x { s.sec with queue := [0] } }

/-- The status of the answer, and whether the command has left the queue. -/
def status (i : Instr) (s : State) : Nat × Bool := ((homeByte (after i s) 0x20001).toNat, (after i s).sec.queue.isEmpty)

def id16 : List Byte := List.replicate 16 7

def bound (x : Secure) : Secure := { x with bindings := [{ part := 0, tenant := 3, id := id16, tm := 0 }] }

theorem test_bindings :
    status .tbind (command 2 16 0 [3] id16) = (0, true) ∧ (after .tbind (command 2 16 0 [3] id16)).sec.bindings.map (fun b => (b.tenant, b.id)) = [(3, id16)] ∧
      status .tbind (command 2 16 0 [64] id16) = (6, true) ∧ status .tbind (command 2 15 0 [3] id16) = (6, true) ∧ status .tbind (command 2 16 0 [3, 1] id16) = (6, true) ∧
      status .tbind (command 2 16 0 [4] id16 bound) = (5, true) ∧ status .tbind (command 2 16 0 [3] id16 fun x => { x with keysErased := true }) = (7, true) ∧
      status .tbind (command 3 16 0 [3] id16) = (0, false) ∧ status .tbind (command 0 16 0 [3] id16) = (6, true) ∧
      (after .tbind (command 2 16 0 [3] id16 fun x => { x with queue := [] })).sec.bindings = [] ∧
      ((after .tbind (command 2 16 0 [3] id16)).partn 0).smbusy = false ∧ ((after .tbind (command 2 16 0 [3] id16)).partn 0).smdone = 1 := by decide +kernel

theorem test_measurements :
    status .tmext (command 3 48 48 [3] []) = (5, true) ∧ status .tmext (command 3 48 48 [3] [] bound) = (0, true) ∧ status .tmext (command 3 48 47 [3] [] bound) = (6, true) ∧
      status .tmext (command 3 48 48 [64] [] bound) = (6, true) ∧ status .mrext (command 8 48 48 [2] []) = (0, true) ∧ status .mrext (command 8 48 48 [1] []) = (6, true) ∧
      status .mrext (command 8 48 48 [8] []) = (6, true) ∧ status .svncommit (command 7 0 1 [] []) = (0, true) ∧ status .svncommit (command 7 0 1 [1] []) = (6, true) := by
  decide +kernel

theorem test_log_and_attest :
    status .logread (command 9 0 4096 [1] []) = (6, true) ∧ status .logread (command 9 0 4096 [0, 0, 0x40] []) = (6, true) ∧ status .logread (command 9 0 4095 [] []) = (6, true) ∧
      status .attest (command 1 32 18680 [64] []) = (6, true) ∧ status .attest (command 1 32 18680 [3] []) = (5, true) ∧ status .attest (command 1 31 18680 [255] []) = (6, true) := by
  decide +kernel

theorem test_sealing_is_refused :
    -- no descriptor of tenant 3 at 0x50000; and a release whose header has another version
    status .sealTenant (command 4 0 4096 [3] []) = (6, true) ∧ status .releaseKey (command 5 19192 1616 [] []) = (6, true) ∧
      status .releaseKey (command 5 19191 1616 [] []) = (6, true) ∧ status .unsealTenant (command 6 0 0 [3] []) = (6, true) := by decide +kernel

/-- Entries that are not whole are not in force; one with the tag under CK is (R382). -/
theorem test_counters :
    let e (n : BitVec 63) (op whole : Bool) (sq : Nat) : CtrEnt := { id := id16, count := n, open_ := op, seq := sq, tag := 0, whole := whole }
    let x (l : List CtrEnt) : Secure := { State.reset.sec with counters := l }
    ((x []).counter id16 = 0 ∧ (x []).open? id16 = false ∧ (x [e 1 true false 0, e 2 true false 1]).counter id16 = 0) ∧ (e 1 true false 0).good = false := by decide +kernel

theorem test_resets :
    let s : State := { one with sec := { State.reset.sec with counters := [{ id := id16, count := 1, open_ := true, seq := 0, tag := 0, whole := false }], imageGood := true, svn := 0, fsvn := 0 } }
    (after .packageReset s).sec.counters.length = 1 ∧ (after .packageReset s).threads = [] ∧ (after .packageReset s).mem = s.mem ∧
      (after .powerLoss s).sec.powered = false ∧ (after .powerLoss s).mem = [] ∧ (after .powerLoss s).sec.recovery = true := by decide +kernel

set_option maxRecDepth 100000 in
theorem test_partition_reset :
    (one.regsAnswer 0 = true ∧ (after .partitionReset one).threads = [] ∧ (after .partitionReset one).blocks = [] ∧ ((after .partitionReset one).partn 0).cur = none ∧
      ((after .partitionReset one).partn 0).s2root = 0 ∧ ((after .partitionReset one).partn 0).dies = [0, 1, 2, 3, 4, 5, 6, 7]) ∧
      (after .partitionReset (hub { part := 5 })).blocks.length = 1 := by decide +kernel

theorem test_recovery_mailbox :
    let s (x : Secure → Secure) (a : Arg := { bytes := [1], slot := 1 }) : State := { State.reset with sec := x { State.reset.sec with recovery := true }, arg := a }
    let t (x : Secure) : Secure := { x with transfer := true, received := [9] }
    (after .transferFwContinue (s t { bytes := [1] })).hostOut = [3, 0] ∧ (after .getFwInfo (s id)).freeCtr = 1 ∧ (after .getFwInfo State.reset).hostOut = [3, 0] ∧ (after .transferFwInitiate (s id { bytes := [1] })).hostOut = [3, 0] ∧
      (after .transferFwInitiate (s id { slot := 1, bytes := [1] })).sec.received = [1] ∧ (after .transferFwContinue (s t)).sec.received = [9, 1] ∧
      (after .transferFwContinue (s id)).hostOut = [3, 0] ∧ (after .transferFwEnd (s id)).hostOut = [3, 0] ∧ (after .transferFwAbort (s t)).sec.transfer = false ∧
      ((after .transferFwEnd (s t)).hostOut = [0x16, 0] ∧ (after .transferFwEnd (s t)).sec.life.imageFailures = 1 ∧ (after .transferFwEnd (s t)).sec.log.length = 1) := by decide +kernel

theorem test_lifetime_records :
    let m (t : Int) (a : Arg := {}) : State := { State.reset with arg := { a with temp := t } }
    ((after .poweredMinute (m 25)).sec.life.minutes = 1 ∧ (after .poweredMinute (m 25)).sec.life.tempBins.getD 3 0 = 1 ∧ (after .poweredMinute (m (-1))).sec.life.tempBins.getD 0 0 = 1 ∧
        (after .poweredMinute (m 130)).sec.life.tempBins.getD 14 0 = 1) ∧
      (after .droopEvent (m 0 { k := 7 })).sec.life.droops.getD 7 0 = 1 ∧ (after .logSnapshot (m 0)).sec.log = [] ∧
      (after .logSnapshot { m 0 with sec := { State.reset.sec with life := { minutes := 10 } } }).sec.log.map Snapshot.seq = [0] ∧
      (after .mctpMessage (m 0 { req := .almstat })).hostOut = [0, 0, 0, 0] ∧ (after .mctpMessage (m 0 { req := .log (2 ^ 22 - 1) })).hostOut.length = 1 ∧
      (after .alarm (m 0 { k := 4 })).sec.log = [] ∧ (after .poweredMinute { m 25 with sec := { State.reset.sec with powered := false } }).sec.life.minutes = 0 := by decide +kernel

theorem test_host_links :
    let s (a : Arg) (f : Partition → Partition := id) : State := { hub a f with mem := cellWrite (hub a f).mem 0x20000 [7, 8] }
    let reg (p : Partition) : Partition := { p with registered := [(0x20000, 2)] }
    (after .hostBar2Read (s { off := 0x20000, n := 2 })).hostOut = [7, 8] ∧ (after .hostBar2Read (s { off := 8 * 2 ^ 36, n := 2 })).hostOut = [] ∧
      homeByte (after .hostBar2Write (s { off := 0x20001, bytes := [9] })) 0x20001 = 9 ∧ (after .hostBar2Read (s { off := 0x7FFFFFFFFF, n := 2 })).hostOut = [] ∧
      (after .roceRead (s { off := 0x20001, n := 1 })).hostOut = [8] ∧ homeByte (after .roceWrite (s { off := 0x20000, bytes := [9] })) 0x20000 = 7 ∧
      homeByte (after .roceWrite (s { off := 0x20001, bytes := [9] } reg)) 0x20001 = 9 ∧ homeByte (after .roceWrite (s { off := 0x20001, bytes := [9, 9] } reg)) 0x20001 = 8 ∧
      ((after .nvmeCommand (s { n := 0, bytes := [1] })).partn 0).nvme = [[1]] ∧ ((after .nvmeCommand (s { n := 1, bytes := [1] })).partn 0).nvme = [] := by decide +kernel

/-! ## RASTS, illegal words, the step and reset (R19, R52, R53, R132) -/

/-- A record at 0 that names triangle 0 of an empty leaf at 0x20000, and a ray block; and one whose leaf is unmapped. -/
theorem test_raster_setup :
    let s := mapped (regs [(4, 0)]) fun b => { b with cells := cellWrite [] 0 (leBytes 8 0x20000) }
    let bad := mapped (regs [(4, 0)]) fun b => { b with cells := cellWrite [] 0 (leBytes 8 0x80000000) }
    let i : Instr := .rasts 4 16 false 5 false
    (Alone i s t0 ∧ Quiet s t0 ∧ runs i s = true ∧ scrPoison s br0 0 256 = false ∧ ((after i s).thread t0).outs.length = 1) ∧
      ((okOf (s.recordOf t0 0 2)).map fun ps => decide (ps = (List.range 16).map fun k => ⟨.scr br0 (16 * k), 16⟩)) = some true ∧
      trapped i (mapped (regs [(4, 8)])) 4 8 = true ∧ trapped i bad 1 0x80000000 = true := by decide +kernel

/-- The reasons for which a word is illegal: it decodes to nothing, it is ill formed, it reads a latch that holds nothing, it is the 25th of
its loaf, or it names a register at the budget; the thread is Halted and the error word says so. -/
theorem test_illegal_words :
    let halts (i : Instr) (s : State) (w : Word) : Bool :=
      runs i s && decide (((after i s).thread t0).st = .halted) && decide (((after i s).thread t0).pc = 0x12000) && decide (((after i s).err ⟨0, 0⟩).word &&& 0xFFFF = w)
    halts .illegalWord { one with arg := { maj := 0x3F } } 0xBF01 = true ∧ halts .illegalWord { one with arg := { maj := 2, flag := true } } 0xC201 = true ∧
      halts (.add 1 1 false 124 false) one 0x8001 = true ∧ halts (.add 1 124 false 4 false) one 0x8001 = true ∧
      halts (.nop false) (one fun th => { th with loaf := { th.loaf with cnt := 24 } }) 0x9E01 = true ∧
      halts (.add 1 1 false 8 false) (one fun th => { th with budget := 8 }) 0x8001 = true ∧ (∀ t ∈ one.group, (one.thread t).leaven = false ∧ one.ownOf t = ⟨0, 0⟩) ∧
      one.group.Nodup ∧ ReadyFor (.add 1 1 false 7 false) (one fun th => { th with budget := 8 }) t0 = true := by decide +kernel

theorem test_exec_without_a_group :
    exec (.nop false) State.reset = .fault .noIssueGroup ∧ State.reset.group = [] ∧ Instr.isEvent (.nop false) = false ∧ Instr.isEvent .powerLimit = true :=
  ⟨rfl, by decide +kernel, rfl, rfl⟩

/-- The state after a step. -/
def stepped (s : State) : State := match step s with | .next t => t | _ => s

/-- One issue to come on port 0 of core 0, with bytes at 0x12000. -/
def issuing (bs : List Byte) (f : Thread → Thread := id) (fuse : Bool := false) : State :=
  let s := one f
  { s with mem := cellWrite s.mem 0x12000 bs, agenda := [⟨3, .issue 0 0 fuse false⟩] }

theorem test_steps :
    let add := issuing (leBytes 4 0x01010301) (regs [(1, 5), (2, 6)])
    let pair := issuing (leBytes 4 0x02840911 ++ leBytes 4 0x037C0A01) (regs [(4, 6), (5, 7), (6, 1)]) true
    -- ADD g3, g1, g2 (R37, R40): b = 2, a = 1, d = 3; three cycles pass
    ((stepped add).thread t0).rd 3 = 11 ∧ ((stepped add).thread t0).pc = 0x12004 ∧ (stepped add).clock = 3 ∧
      -- MULLO g9, g4, g5 with ADD g10, c0, g6 in one issue slot
      ((stepped pair).thread t0).rd 10 = 43 ∧ ((stepped pair).thread t0).pc = 0x12008 ∧ ((stepped { pair with agenda := [⟨3, .issue 0 0 false false⟩] }).thread t0).pc = 0x12004 ∧
      ((stepped (issuing [0, 0])).thread t0).st = .halted ∧ ((stepped (issuing (leBytes 4 0x068000FD))).thread t0).st = .halted ∧
      ((stepped (issuing [] fun th => { th with pc := 0x80000000 })).thread t0).xaddr = 0x80000000 ∧
      (stepped { hub {} with hubq := [(.powerLimit, {})] }).powerStep = 1 ∧ (stepped { hub {} with agenda := [⟨7, .ev .powerLimit {}⟩] }).powerStep = 1 ∧
      (stepped { hub {} with agenda := [⟨7, .ev .powerLimit {}⟩] }).clock = 7 := by decide +kernel

theorem test_fetch_word :
    ((stepped (State.reset.withFetchWord 32 0x0101037D)).thread t0).pc = 0x12000 ∧ ((stepped (State.reset.withFetchWord 32 0x00050319)).thread t0).rd 3 = 0 ∧
      ((stepped (State.reset.withFetchWord 32 0x0005032D)).thread t0).rd 3 = 0x50000 ∧ ((stepped (State.reset.withFetchWord 16 0x0846)).thread t0).pc = 0x12002 := by decide +kernel

theorem test_after_is_nothing : let s := one
    (∀ x ∈ s.threads, x.2.st = .running ∧ x.2.stall = none) ∧ (∀ w ∈ s.warps, w.2.gen = none) ∧ (∀ c ∈ s.cores, c.2.overflow = [] ∧ c.2.scK < 2 ^ 47) := by decide +kernel

/-- Premises of the rounding statement: 1/3 in FP32, and 2^128, which is beyond its range. -/
theorem test_rounding :
    (arithF FP32 .rne false 1 3).1 = 0x3EAAAAAB ∧ (arithF FP32 .rz false 1 3).1 = 0x3EAAAAAA ∧ (arithF FP32 .ru true 1 3).1 = 0xBEAAAAAA ∧
      (arithF FP32 .rd true 1 3).1 = 0xBEAAAAAB ∧ (arithF FP32 .rne false (2 ^ 128) 1).1 = 0x7F800000 ∧ (arithF FP32 .rz false (2 ^ 128) 1).1 = 0x7F7FFFFF ∧
      (arithF BF16 .rne false 1 3).1 = 0x3EAB ∧ (arithF FP16 .rne false 65520 1).1 = 0x7C00 ∧ (arithF FP16 .rne false 65519 1).1 = 0x7BFF ∧
      (arithF FP32 .rne false 1 2).2.getLsbD 0 = false ∧ (arithF FP32 .rne false 1 3).2.getLsbD 0 = true := by decide +kernel

/-- Premises of R252: lanes 0 and 1 have each accepted a store of one instruction, and the higher lane's is performed (after the lower's). -/
theorem test_deferred_lanes :
    let x (off : Nat) (v : Byte) : Store := { loc := .scr br0 off, bytes := [v, v], grp := 3 }
    let s : State := { (warpOf 2 fun l th => { th with stores := [if l = 0 then x 33 5 else x 32 7] }) with arg := { t := ⟨0, 0, 1⟩, flag := true } }
    let r := after .accessPerformed s
    (s.threads.map Prod.fst).Nodup ∧ cellRead (r.block br0).cells 32 3 = [7, 7, 5] ∧ (r.thread t0).stores = [] ∧ (r.thread ⟨0, 0, 1⟩).stores = [] := by decide +kernel

theorem test_counter_tag : ∀ e : CtrEnt, e.whole = true → ({ e with tag := e.mac } : CtrEnt).good = true := by
  intro e h; simp [CtrEnt.good, CtrEnt.mac, CtrEnt.word, h]

theorem test_genbeg_faults :
    let s (cfg off : Word) (res : Nat) : State := warpOf 32 (fun _ => regs [(4, cfg), (5, off)]) fun b => { b with reserve := res }
    let half : State := warpOf 2 (fun _ => regs [(4, 0x800), (5, 0x1000)]) fun b => { b with reserve := 1 }
    let i : Instr := .genbeg 5 4
    let c (s : State) : Nat × Dword := ((((after i s).thread t0).xcause.toNat % 64), ((after i s).thread t0).xaddr)
    (Clean i half ∧ c half = (6, 3)) ∧ c (s 0x700 0 1) = (5, 0x700) ∧ c (s 0x840 0 1) = (5, 0x840) ∧ c (s 0x800 0x1000 0) = (5, 0) ∧
      c (s 0x800 0xFFFE0000 1) = (1, 0xFFFFFFFFFFFF2000) ∧ c (s 0x800 1 1) = (4, 0x12001) := by decide +kernel

theorem whole_of_half : WholeNeed (warpOf 2 (fun _ => regs [(4, 0x800), (5, 0x1000)]) fun b => { b with reserve := 1 }) 0 0 :=
  ⟨by decide +kernel, by decide +kernel, by decide +kernel, by decide +kernel, by decide +kernel⟩

/-- R252, R257: three lanes store to one word, and three add to one word. -/
theorem test_lane_order :
    let s : State := warpOf 3 fun l => regs [(2, 64), (4, BitVec.ofNat 32 (l + 5))]
    let m : State := match (warpOf 3 fun l => regs [(2, 0x20000), (4, BitVec.ofNat 32 (l + 5))]).globalOf t0 0x20000 4 (nG 0 true false 4) with | .ok (x, _) => x | .error _ => s
    let st : Instr := .stS 0 2 2 4 false
    let g : Instr := .stG 0 2 2 4 false
    let a : Instr := .aadd 4 2 false 6 false
    let m : State := m.modCore 0 fun c => { c with l1 := [CLine.fresh ⟨0, 0⟩ 0x400 0 0 false {}] }
    (Clean st s ∧ InLanes s ∧ (locOf (s.scratchOf t0 64 4 4 1)) = some (.scr br0 64) ∧ leValue (cellRead ((after st s).block br0).cells 64 4) = 7) ∧
      (Clean g m ∧ InLanes m ∧ (l1find m 0 0x400).map CLine.cmp = some false ∧ leValue ((List.range 4).map fun k => (after g m).seen 0 (0x20000 + k)) = 7) ∧
      (Clean a m ∧ NoCopies (m.modCore 0 fun c => { c with l1 := [] }) 0 0x20000 ∧ leValue (homeBytes (after a m) 0x20000 4) = 18 ∧
        ((List.range 3).map fun l => ((after a m).thread ⟨0, 0, l⟩).outs.map Out.src) = [[.val [0]], [.val [5]], [.val [11]]]) := by decide +kernel

/-- The worked examples of R126 (two children that share a face), R127 (a descent and its return) and R128 (one triangle, and the ray moved onto
its edge). -/
theorem test_geometry_examples :
    let frac (i f : Int) : List Word := toWords 2 (residue 64 (i * 2 ^ 20 + f * 2 ^ 18))
    let ray (ox oy oz : List Word) (dx dz e : Word) : List Word := ox ++ oy ++ oz ++ [dx, 0, dz, e, 0, 0, 0, 0xFFFFFFFF, 0, 0]
    let node (c : List Byte) : List Byte := leBytes 4 0x201 ++ leBytes 4 0 ++ c ++ leBytes (24 - c.length) 0
    let box := (Finish.boxt (ray (frac (-256) 0) (frac 512 0) (frac 100 0) 1 0 0) 0x1000).run 4 (leBytes 4 0x31201 ++ leBytes 4 1 ++ leBytes 3 0x001030 ++ leBytes 3 0x003230 ++ leBytes 18 0)
    let y := ray (frac 600 1) (frac 2100 0) (frac 10 0) 0 1 0
    let down := ((Finish.desc y 0).run 16 (node (leBytes 3 0x108832))).1
    let leaf := [2, 3, 1, 0] ++ leBytes 12 0 ++ [0, 0, 0, 4, 0, 0, 0, 4, 0] ++ leBytes 63 0 ++ leBytes 2 0x210 ++ leBytes 38 0
    let t1 := (Finish.trit (ray (frac 16 0) (frac 16 0) (frac (-64) 0) 0 1 3)).run 16 leaf
    let t2 := (Finish.trit (ray (frac 32 0) (frac 0 0) (frac (-64) 0) 0 1 3)).run 16 leaf
    box = ([0x803, 0x1203, 0x1020, 0], 0) ∧ (down.take 6, (down.drop 9).take 1) = ([0x2C200000, 0, 0x1A000000, 0, 0x05000000, 0], [3]) ∧
      ((Finish.asc down 0).run 16 (node (leBytes 3 0x108832))).1 = y ∧
      (t1.1.drop 9).take 7 = [0x11703, 0, 0x40, 0, 0, 0x1000, 0] ∧ ((t2.1.drop 9).head?.map fun w => w.getLsbD 16) = some true := by decide +kernel

/-- A thread passed over by 1022 loaves goes first; a thread that becomes Ready joins the entry that it fits, or opens one. -/
theorem test_grouper_starving_and_new_entries :
    let p (s : State) : List TRef × List TRef := (((after .grouperFill s).core 0).p0, ((after .grouperFill s).core 0).p1)
    let old (s : State) : State := s.modCore 0 fun c => { c with loaves := 1022 }
    let fresh (pc : Dword) : State := (tabled2 [⟨0, 0, 1⟩] [⟨0, 0, 2⟩] false 1).modThread ⟨0, 0, 1⟩ fun th => { th with st := .running, pc := pc }
    let add (pc : Dword) : State := (fresh pc).setThread ⟨0, 1, 5⟩ { ((fresh pc).thread t0) with st := .ready, pc := pc }
    p (old (tabled2 [] [] false 1)) = ([t0], [⟨0, 1, 1⟩]) ∧ p (old (tabled2 [] [⟨0, 0, 0⟩] false 1)) = ([], [⟨0, 0, 0⟩]) ∧
      ((after .grouperFill (add 0x200)).core 0).table.map Entry.members = [[t0, ⟨0, 1, 5⟩], [⟨0, 1, 1⟩]] ∧
      ((after .grouperFill (add 0x300)).core 0).table.map Entry.members = [[t0], [⟨0, 1, 1⟩], [⟨0, 1, 5⟩]] ∧
      ((after .grouperFill (add 0x300)).thread ⟨0, 1, 5⟩).st = .listed := by decide +kernel

/-- R49, R50: a group named stays pending and does not hold the thread; one not named is awaited; so is the oldest of seven. -/
theorem test_heel_names :
    let out (b : Nat) : Out := { base := b, n := 1, named := false, past := false, exempt := false, src := .val [0] }
    let s (l : List Nat) : State := one fun th => { th with outs := l.map out }
    let r (i : Instr) (l : List Nat) : List (Bool × Bool) × TState := ((((after i (s l)).thread t0).outs.map fun o => (o.named, o.must)), ((after i (s l)).thread t0).st)
    (Alone (.heel 0 4 5) (s [4, 5]) t0 ∧ r (.heel 0 4 5) [4, 5] = ([(true, false), (true, false)], .ready)) ∧
      r (.heel 0 4 5) [4, 6] = ([(true, false), (false, false)], .waiting .outs) := by decide +kernel

/-- Premises of the second YIELD of a warp in one cycle (R180), and the faults of TAKE (R185). -/
theorem test_generator_order_and_take_faults :
    let y : Yields := { cyc := 0, list := [(3, [0x77])], fill := 0, cnt0 := 2, cnt1 := 0 }
    let g : Gen := { gen false with fill := 0, cnt0 := 3, now := some y }
    let s : State := one (regs [(4, 0x55)]) (fun b => { b with reserve := 1 }) fun w => { w with gen := some g }
    let c (w bud : Nat) : State := one (fun th => { th with budget := bud }) (fun b => { b with reserve := 1 }) fun w' => { w' with gen := some { gen true with w := w } }
    (Alone (.yield 4 false) s t0 ∧ cellRead ((after (.yield 4 false) s).block br0).cells (16384 + 32) 4 = leBytes 4 0x55 ∧
        cellRead ((after (.yield 4 false) s).block br0).cells (16384 + 48) 4 = leBytes 4 0x77 ∧ ((after (.yield 4 false) s).warp 0 0).gen.map Gen.cnt0 = some 4) ∧
      trapped (.take 1 false 5 false) (c 2 124) 4 5 = true ∧ trapped (.take 1 false 6 false) (c 2 7) 5 7 = true := by decide +kernel

/-- A queue for every slot, of priority 2 and mapped at its slot's number. -/
def fullSlots (nopre : Bool) : List (Nat × QSlot) :=
  (List.range 256).map fun k => (k, { part := 0, tenant := 0, hdr := 0x100000 + 64 * k, base := 0, lsize := 0, prio := 2, nopre := nopre, serial := false, head := 0, tail := 0, mappedAt := k + 1 })

theorem test_notify_without_a_slot :
    let s (nopre : Bool) (prio : Nat) : State := { queued (header 0x31000 1 prio 0 0 0 1) (launchRec 0x1000 1 0) with slots := fullSlots nopre }
    -- the queue mapped longest gives way and is pending; a lower priority waits; with NOPRE everywhere it waits and notice 4 goes out
    ((after .lqn (s false 3)).pending = [⟨0, 0, 0x100000⟩] ∧ (tget (after .lqn (s false 3)).slots 0).map QSlot.hdr = some 0x30000) ∧
      ((after .lqn (s false 1)).pending = [⟨0, 0, 0x30000⟩] ∧ ((after .lqn (s false 1)).partn 0).irqs = 0) ∧
      ((after .lqn (s true 7)).pending = [⟨0, 0, 0x30000⟩] ∧ ((after .lqn (s true 7)).partn 0).irqs = 1) := by decide +kernel

theorem test_slot_takes_a_pending_queue :
    let s : State := { queued good (launchRec 0x1000 1 0) { k := 5 } with pending := [⟨0, 3, 0x40000⟩, ⟨0, 0, 0x30000⟩] }
    (tget (after .slotFree s).slots 5).map (fun q => (q.hdr, q.prio, q.recs.length)) = some (0x30000, 3, 1) ∧ (after .slotFree s).pending = [⟨0, 3, 0x40000⟩] := by decide +kernel

/-- Placing writes status 1 into the record and the head into the header, and the round robin of the priority moves behind the slot. -/
theorem test_placement_writes :
    let t := after .takeRecord { after .lqn (queued good (launchRec 0x1000 1 0)) with arg := { k := 0 } }
    let p := after .offerCandidate t
    homeByte p 0x310F8 = 1 ∧ field (hubRead p 0x30010 4) 0 4 = 1 ∧ tget p.rr 3 = some 1 ∧ (tget p.slots 0).map (fun q => (q.head, q.cand)) = some (1, none) ∧
      (∀ i < 1, (t.core i).l1 = []) ∧ t.placing ⟨0, 0⟩ = true := by decide +kernel

/-- Equal priorities from the slot behind the last one placed; higher ones first; a starving one holds the lower ones back. -/
theorem test_candidate_order :
    let l (slot prio : Nat) (t : Option Nat) : Launch := { blank with slot := slot, prio := prio, offeredAt := t }
    let s (a : Option Nat) : State := { hub {} with launches := [(0, l 2 3 none), (1, l 7 3 none), (2, l 1 5 none), (3, l 4 1 a)], rr := [(3, 5)], clock := 65536 }
    (s none).candidates.map Prod.fst = [2, 1, 0, 3] ∧
      ({ s none with launches := [(0, l 2 3 (some 0)), (1, l 7 3 none), (2, l 1 5 none), (3, l 4 1 none)] } : State).candidates.map Prod.fst = [2, 1, 0] := by decide +kernel

theorem test_migration_keeps_threads :
    let s : State := { crowded 4096 0 with arg := { slot := 1, n := 0, k := 4, off := 0 } }
    let s : State := s.modThread ⟨0, 1, 3⟩ fun th => regs [(4, 0x44)] th
    let t := after .migration s
    (s.thread ⟨0, 1, 3⟩).st = .ready ∧ ((t.thread ⟨4, 1, 3⟩).rd 4, (t.thread ⟨4, 1, 3⟩).pc, (t.thread ⟨4, 1, 3⟩).st) = (0x44, 0x1000, .ready) ∧ t.clock = s.clock + 64 := by decide +kernel

/-- A descriptor with its AUX word. -/
def descAux (base mode mcast ctl aux dim0 : Nat) : List Byte :=
  leBytes 6 base ++ leBytes 2 mode ++ leBytes 2 mcast ++ leBytes 2 4 ++ leBytes 2 8 ++ leBytes 2 ctl ++ leBytes 8 aux ++ leBytes 8 dim0 ++ leBytes 32 0

theorem test_sifter_runs_a_slot :
    let l : Launch := { blank with placed := true, lrec := { blank.lrec with transforms := [0x20100, 0, 0, 0] }, blocksLeft := 1 }
    let s := let s := copying []
      { s with launches := [(0, l)], arg := { blk := br0 }, mem := cellWrite s.mem 0x20100 (desc 0x20000 2 4 5 0) }
    let t := after .sifter (s.setBlock br0 { s.block br0 with q4 := [], sift := [0] })
    (t.block br0).q5 = [0x0000000400000005] ∧ cellGet (t.block br0).cells 0x43 = 0xD4 ∧ (t.block br0).sift = [] := by decide +kernel

set_option maxRecDepth 100000 in
theorem test_matrix_formats :
    let at_ (cells : List Host.Cell) (fmt : Nat) (klen : Nat) (f : MxRun → MxRun) : State :=
      let s := matrixed (f (mxrun (MxPar.of (parBytes 0 0x400000 fmt klen))))
      s.setBlock br0 { s.block br0 with cells := cells }
    let ab (a b : List Byte) : List Host.Cell := cellWrite (cellWrite [] 0x400 a) 0x800 b
    let w (s : State) : Option Word := tget ((after .kStep s).core 0).acc0.words 0
    -- BF16 1.5 * 2 + 1 * 1; NQ4 is scaled: 62 products of -1 with itself and 2 of 0.5625
    w (at_ (ab [0xC0, 0x3F, 0x80, 0x3F] [0x00, 0x40, 0x80, 0x3F]) 0 16 id) = some 0x40800000 ∧
      (((after .kStep (at_ (ab [0xDD] [0xDD]) 4 64 fun r => { r with par := MxPar.of (parBytes 0 0 4 64) })).core 0).runs.head?.map fun r => (r.partials.head?.bind List.head?)) = some (some 0x427A8800) ∧
      -- sparse INT8: the elements 2 and 3 of four, as the metadata say
      w (at_ (ab [1, 2] [5, 6, 7, 8]) 0x43 64 fun r => { r with cols := [List.replicate 32 0x76543210], colsTaken := 1 }) = some 17 := by decide +kernel

/-- A command about to drain a buffer with 1.5 in word 0 and 2.0 in word 33. -/
def drains (fmt : Nat) : State :=
  matrixed { mxrun { MxPar.of (parBytes 0 0x600000 fmt) with super := 0x3F800000, out := if fmt = 0x200 then 0x80000000 else 0x1000 } with done := [0] } id
    fun k => { k with acc0 := { held := some br0, words := [(0, 0x3FC00000), (33, 0x40000000)] } }

def drained (fmt : Nat) : Option MxRun := ((after .drain (drains fmt)).core 0).runs.head?

set_option maxRecDepth 100000 in
/-- To q2, to a global address that no table maps, to nowhere. -/
theorem test_drain_elsewhere :
    ((drained 0x300).map fun r => (r.partials.map fun l => (l.getD 0 0, l.getD 33 0))) = some [(0x3FC00000, 0x40000000)] ∧
      ((drained 0x200).map fun r => (r.code, r.bytes)) = some (4, 0) ∧ ((drained 0).map fun r => (r.code, r.bytes)) = some (0, 0) ∧
      ((after .drain (drains 0)).core 0).acc0.held = none := by decide +kernel

theorem test_stopped_commands :
    let bad := matrixed { mxrun { MxPar.of (parBytes 0 0x400000 3) with asrc := 0x3FFFC } with serial := 7 } id id {}
    let t := after .kStep bad
    (t.core 0).runs.map MxRun.code = [4] ∧ (t.core 0).stopOf 0 = some 4 ∧ ((after .kStep { t with arg := {} }).core 0).runs.map MxRun.ended = [true] := by decide +kernel

theorem test_reductions_of_all_members :
    let v (w : Word) : List Word := List.replicate 32 w
    let item (i : Nat) (w : Word) : RItem := { idx := i, vec := v w, missing := [], carried := [i] }
    let node (items : List RItem) (c : Bool) : Reduction := { seq := 0, nodes := [{ idx := 0, items := items, first := some 0, combined := c }] }
    let deliv (s : State) : State := s.setLaunch 0 { (s.launch? 0).getD blank with tree := { parents := [none, some 0], deliv := true, timeout := 100 } }
    let both (a b : Word) : State := deliv { (reducing [node [item 0 a, item 1 b] false] (fun b => { b with rsends := 1 }) { k := 0, n := 0, off := 0 }) with
      blocks := [(br0, { (one.block br0) with rsends := 1 }), (⟨0, 1⟩, { (one.block br0) with core := 1, rsends := 1 })] }
    let over_ := reducing [{ node [] false with flying := [(0, item 1 0x40000000)] }] (fun b => { b with rsends := 1 }) { k := 0, n := 0, off := 0 } 1000
    -- with DELIV the result reaches both; infinities of unlike sign make a NaN; an item after the deadline is dropped
    ((after .routerCombine (both 0x3F800000 0x40000000)).block ⟨0, 1⟩).q7 = [v 0x40400000] ∧ ((after .routerCombine (both 0x3F800000 0x40000000)).block br0).q7 = [v 0x40400000] ∧
      ((after .routerCombine (both 0x7F800000 0xFF800000)).block br0).rstat.nanf = true ∧ ((after .routerCombine (both 0x7F7FFFFF 0x7F7FFFFF)).block br0).rstat.ovff = true ∧
      (redOf (after .reductionItemArrival over_)).map (fun r => (r.node 0).combined) = some true := by decide +kernel

theorem test_epoch_change_zeroes_clocks :
    let s := { (one fun th => { th with scClock := 7 }).modPart 0 fun p => { p with epochGo := true } with arg := {} }
    let t := after .epochChangeComplete s
    (t.partn 0).epochs = 1 ∧ (t.thread t0).scClock = 0 ∧ (t.partn 0).epochGo = false := by decide +kernel

theorem test_last_link_tells_the_management :
    let s : State := { hub { k := 0, n := 3, flag := true } with sec := { (hub {}).sec with
      retryRun := [((0, 3), 15)], deadLinks := (List.range 16).filterMap fun l => if l = 3 then none else some (0, l) } }
    (after .flitCrcFailure s).mgmt = [(0, 0)] ∧ ((after .flitCrcFailure s).partn 0).fatal = true := by decide +kernel

/-- A block's banks leave for the benched half, and the core reports when it is quiet. -/
theorem test_core_exchange :
    let s := (one.modPart 0 fun p => { p with switch := .stopping none })
    let t := after .coreStopped { s with arg := { core := 0, flag := true } }
    (t.block br0).benched = true ∧ (t.thread? ⟨0, 64, 0⟩).isSome = true ∧ (t.core 0).stopped = false ∧
      ((after .coreStopped { s with arg := { core := 0 } }).core 0).stopped = true := by decide +kernel

/-- What the clauses about alarms ask of a state; the policy itself is a free value of the part (R389). -/
theorem test_alarm_conditions : State.reset.sec.powered = true ∧ State.reset.sec.alarmAt ≠ some State.reset.clock ∧ (State.reset.parts.map Prod.fst).Nodup ∧
    State.reset.sec.queue = [] ∧ State.reset.parts ≠ [] := by decide +kernel

theorem test_torn_snapshot :
    let s : State := { State.reset with arg := {}, sec := { State.reset.sec with life := { minutes := 10 } } }
    (after .powerLoss { s with arg := { k := 3, n := 100 } }).sec.log.map (fun y => (y.seq, y.cut)) = [(0, some 100)] ∧
      (after .powerLoss { s with arg := { k := 3, n := 100 } }).sec.log.map Snapshot.good = [false] ∧ (after .powerLoss s).sec.log = [] := by decide +kernel

theorem test_rounding_flags :
    let fl (m : RMode) (neg : Bool) (n d : Nat) : List Bool := (List.range 5).map (arithF FP32 m neg n d).2.getLsbD
    fl .rne false 1 (2 ^ 150) = [true, true, false, false, false] ∧ fl .rne false 1 (2 ^ 149) = [false, false, false, false, false] ∧
      fl .rne false (2 ^ 25 - 1) (2 ^ 151) = [true, false, false, false, false] ∧ fl .rne false (2 ^ 128) 1 = [true, false, true, false, false] ∧
      fl .rz true (2 ^ 128) 1 = [true, false, true, false, false] ∧ fl .ru false (2 ^ 128 - 2 ^ 104 + 1) 1 = [true, false, true, false, false] ∧
      fl .rz false (2 ^ 128 - 2 ^ 104 + 1) 1 = [true, false, false, false, false] := by decide +kernel

/-- Two lanes with unlike budgets: the lane whose budget the word passes halts, the other executes it; a second YIELD of a loaf is illegal. -/
theorem test_budgets_in_a_group :
    let s := warpOf 2 fun k th => { th with budget := if k = 0 then 4 else 16 }
    let t := after (.add 1 1 false 8 false) s
    s.group.length = 2 ∧ (t.thread ⟨0, 0, 0⟩).st = .halted ∧ (t.thread ⟨0, 0, 1⟩).st ≠ .halted ∧ (t.thread ⟨0, 0, 0⟩).pc = 0x12000 ∧
      ((after (.yield 4 false) (one fun th => { th with loaf := { th.loaf with yielded := true } })).thread t0).st = .halted := by decide +kernel

/-- Table entries of the tenant leave the cluster cache with TLBIL; those of another stay (R222). -/
theorem test_table_entries_invalidated :
    let w (tenant : Nat) : WalkEnt := { part := 0, tenant := tenant, stage := 0, level := 1, high := 0, value := 0 }
    let s : State := { mapped with cwalk := [(0, w (mapped.ownOf t0).tenant), (0, w 9)] }
    (after (.tlbil 0 1 false) s).cwalk.map (fun x => x.2.tenant) = [9] := by decide +kernel

/-- A rectangle of one core is reserved (R303). -/
theorem test_rectangle :
    let p : MxPar := { MxPar.of (parBytes 0 0x600000 3) with rect := 0x8000 }
    let s : State := { matrixed { mxrun p with needRect := true, serial := 5 } with rectReqs := [(0, 5)] }
    (p.rm, p.members) = (true, [(0, 0)]) ∧ (after .rectReserve s).rectHeld = [(0, 5, [0])] ∧ ((after .rectReserve s).core 0).runs.map MxRun.needRect = [false] ∧
      (after .rectReserve (one.modPart 0 id)).rectHeld = [] := by decide +kernel

/-- Bytes of a block from offset 0x40 on. -/
def moved (s : State) (br : BRef) (n : Nat) : List Byte := (List.range n).map fun j => cellGet (s.block br).cells (0x40 + j)

/-- Bytes placed in memory. -/
def placed (s : State) (a : Nat) (l : List Byte) : State := { s with mem := cellWrite s.mem a l }

/-- A box of two words. -/
def twoWords : State := placed (copying (descAux 0x20000 2 0 5 0 (2 ^ 56 + 2 ^ 40 + 4))) 0x20004 [1, 2, 3, 4]

/-- Two elements; a command that is begun only. -/
theorem test_copy_walks :
    (copied twoWords = some (0, 8) ∧ moved (after .copyTakeEntry twoWords) br0 8 = [0xA1, 0xB2, 0xC3, 0xD4, 1, 2, 3, 4]) ∧
      ((after .copyTakeEntry { twoWords with arg := { flag := true } }).core 0).copies.map (fun r => (r.next, r.total)) = [(0, 2)] ∧
      twoWords.nextCopy 0 = some br0 := by decide +kernel

/-- The example of R287: NQ4 code 13 with s = 51 and S = 2.0, the first element of a box of 64. -/
theorem test_dequantise :
    let d := Copy.of (descAux 0x20300 10 0 5 0x20100 (63 * 2 ^ 56 + 63 * 2 ^ 40))
    let s := placed (placed (placed mapped 0x20300 [0x0D]) 0x20100 [51]) 0x20200 (leBytes 4 0x40000000)
    d.malformed = false ∧ d.count = 64 ∧ moved (Walk.load1 d (s.ownBlk br0) 0 [br0] { s := s } 0).s br0 4 = leBytes 4 0x3E666666 := by decide +kernel

/-- A reduction at the home: 2.0 + 1.0. -/
theorem test_copy_reduces :
    let s := placed (copying (desc 0x20080 0x182 4 0x1005 0)) 0x20080 (leBytes 4 0x40000000)
    let red := s.setBlock br0 { s.block br0 with cells := cellWrite [] 0x40 (leBytes 4 0x3F800000) }
    copied red = some (0, 0) ∧ (List.range 4).map (fun j => homeByte (after .copyTakeEntry red) (0x20080 + j)) = leBytes 4 0x40400000 := by decide +kernel

/-- The sum of R293 in AUX, and another one. -/
theorem test_copy_sums :
    let sum (aux : Nat) := placed (copying (descAux 0x20300 0x2003 0 5 aux 0)) 0x20300 (leBytes 8 2)
    copied (sum 0x3F6438CA3D31BE4A) = some (0, 8) ∧ (copied (sum 1)).map Prod.fst = some 5 := by decide +kernel

/-- A multicast to the blocks of cores 0 and 1. -/
theorem test_multicast :
    let s := copying (descAux 0x20000 2 3 5 0 0)
    let both := { s with blocks := s.blocks ++ [(⟨0, 1⟩, { s.block br0 with core := 1, q4 := [], cells := [] })] }
    (moved (after .copyTakeEntry both) ⟨0, 1⟩ 4, moved (after .copyTakeEntry both) br0 4) = ([0xA1, 0xB2, 0xC3, 0xD4], [0xA1, 0xB2, 0xC3, 0xD4]) := by decide +kernel

set_option maxRecDepth 100000 in
/-- A raw tile: word 33 is the second of row 1. A block of ones under a super-scale of 1 has scale code 255 and the greatest NQ4 code (R311, R312). -/
theorem test_tiles :
    let row : List Byte := (((MxPar.of (parBytes 0 0x600000 0x103)).tileOf [] ((List.range 1024).map fun k => if k = 33 then 0x01020304 else 0)).rows.map (packRow 32)).getD 1 []
    let b := drainBlock 4 [] (.fin false 1 1) (List.replicate 64 (.fin false 1 1))
    row.take 8 = [0, 0, 0, 0, 4, 3, 2, 1] ∧ (b.1, b.2.1) = (255, List.replicate 64 15) := by decide +kernel

/-- INT32 words 300 and -5 drained as INT8 to the scratchpad: 127 and 0xFB, the second in row 1. -/
def int8Drain : State :=
  matrixed { mxrun (MxPar.of (parBytes 0 0x600000 0x1903)) with done := [0] } id
    fun k => { k with acc0 := { held := some br0, words := [(0, 300), (33, 0xFFFFFFFB)] } }

set_option maxRecDepth 100000 in
theorem test_drain_of_int8 : cellGet ((after .drain int8Drain).block br0).cells 0x1081 = 0xFB := by decide +kernel

/-- R248: a page without the permission, and one outside the partition's memory; R192: the scratchpad of a peer, of one that is absent, and beyond its end. -/
theorem test_access_checks :
    let page (e : Nat) : State := { mapped with mem := cellWrite (mapped).mem 0x11008 (leBytes 8 e) }
    let short : State := { mapped with mem := cellWrite (mapped).mem 0x11020 (leBytes 8 0x10000001F), hw := { (mapped).hw with channels := 1 } }
    let peers : State := (one).setBlock ⟨0, 1⟩ { (one).block br0 with core := 65 }
    let bad (code : Nat) (a : Dword) : Option TrapInfo := some { code := code, addr := a, acc := 2 }
    errOf ((page 0x37).globalOf t0 0x40000000 4 (nG 2 true true 4)) = bad 2 0x40000000 ∧ locOf ((page 0x37).globalOf t0 0x40000000 4 (nG 0 true false 4)) = some (.glob 0 1 false) ∧
      errOf (short.globalOf t0 0x100000000 4 (nG 2 true true 4)) = bad 1 0x100000000 ∧
      locOf (peers.scratchOf t0 0x1500010 4 4 2) = some (.scr ⟨0, 1⟩ 16) ∧ errOf (peers.scratchOf t0 0x1500012 4 4 2) = bad 4 0x1500012 ∧
      errOf (peers.scratchOf t0 0x1200010 4 4 2) = bad 5 0x1200010 ∧ errOf (peers.scratchOf t0 0x1504000 4 4 2) = bad 5 0x1504000 ∧
      peers.loading = false ∧ (peers.blocks.map Prod.fst).Nodup := by decide +kernel

/-- R214-R217: a walk of both stages gives the page, its permissions and its type; a root without a valid bit fails in stage 1, level 0. -/
theorem test_translation :
    let ok (x : Except (Nat × Nat) TlbEnt) : Option (Nat × Nat × Bool × Nat × Bool) := match x with | .ok e => some (e.pbase, e.size, e.w1, e.mt, e.cmp) | .error _ => none
    let err (x : Except (Nat × Nat) TlbEnt) : Option (Nat × Nat) := match x with | .ok _ => none | .error e => some e
    ((mapped).core 0).tlb = [] ∧ (mapped).ctlb = [] ∧ (mapped).cwalk = [] ∧ (((mapped).partn 0).ctx 0).isSome = true ∧
      ok (translate mapped 0 ⟨0, 0⟩ 0x40012345) = some (0, 0x40000000, true, 1, false) ∧ err (translate mapped 0 ⟨0, 0⟩ 0x80000000) = some (0, 1) ∧
      err (translate ((mapped).modPart 0 fun q => { q with s2root := 0x10000 }) 0 ⟨0, 0⟩ 0x1000) = some (1, 0) := by decide +kernel

/-- R334: a thread that meets a poisoned object is halted with PAR, and the object stands. -/
theorem test_poisoned_objects :
    let g : State := { mapped (regs [(2, 0x20000)]) with poison := [0x4001] }
    let o : State := { objected 0 0 2 0 1 (regs [(4, 2)]) with arg := {} } |>.modBlock br0 fun b => { b with poison := [5] }
    let hit (i : Instr) (s : State) : Bool := decide (Alone i s t0) && decide (((after i s).thread t0).st = .halted) && ((after i s).err ⟨0, 0⟩).word.getLsbD 2
    homePoison g 0x20000 16 = true ∧ scrPoison o br0 32 16 = true ∧
      ([hit (.rel false 2 3) g, hit (.acq false 2 3) g, hit (.boexp 4 2 false) o, hit (.boarr 2 false) o, hit (.waitph 4 2) o] : List Bool).all id = true ∧
      ((after (.boarr 2 false) o).block br0).cells = (o.block br0).cells := by decide +kernel

/-- R173: two KNEADs of one cycle enter the bin by slot, whichever waited first; one waits while the other port runs a group. -/
theorem test_kneads_of_one_cycle :
    let wait (th : Thread) : Thread := { th with st := .waiting (.kneadOuts 9 4 1) }
    let s : State := (one (fun th => wait (regs [(4, 7)] th)) (fun b => { b with slots := [0, 1, 2], nwarps := 3 }) id fun c => { c with p0 := [] })
    let s := ((s.setWarp 0 1 { blk := br0, role := 0 }).setThread ⟨0, 1, 0⟩ (regs [(4, 8)] (wait {}))).setWarp 0 2 { blk := br0, role := 0 }
    let s := { s.setThread ⟨0, 2, 0⟩ { st := .ready } with threads := (s.setThread ⟨0, 2, 0⟩ { st := .ready }).threads.reverse }
    ((s.kneadCycle.core 0).bins.map fun b => b.threads.map BinThread.from_) = [[t0, ⟨0, 1, 0⟩]] ∧ s.kneadCycle.thread? t0 = none ∧
      (s.threads.map Prod.fst).Nodup ∧ (tget s.cores 0).isSome = true ∧
      (let p := (one (regs [(1, 9)])).modCore 0 fun c => { c with p1 := [⟨0, 1, 0⟩] }
       Alone (.knead 4 1 2) p t0 ∧ ((after (.knead 4 1 2) p).thread t0).st = .waiting (.kneadOuts 9 4 2)) := by decide +kernel

/-- R225: one of the two 16-byte accesses of a load takes its bytes before a store, the other after it. -/
theorem test_parts_of_a_load :
    let l := after (.ldS 0 5 2 false 8 false) (one (regs [(2, 0)]) fun b => { b with cells := [(0, 1), (16, 2)] })
    let go (s : State) (a : Act) : State := match s.perform1 a with | .next t => t | _ => s
    let s := (go l (.takePart t0 8 1)).modBlock br0 fun b => { b with cells := [(0, 3), (16, 4)] }
    let t := after .pendingWriteLands { s with arg := { t := t0, k := 8 } }
    ((l.thread t0).outs.map fun o => o.got.length) = [0] ∧ ((s.thread t0).outs.map fun o => o.got.length) = [1] ∧ (t.thread t0).rd 8 = 3 ∧ (t.thread t0).rd 12 = 2 := by
  decide +kernel

/-- R242, R350: an epoch change zeroes the floors of its own partition; a line stamp of 2^47 sends the clock notice, once. -/
theorem test_epoch_of_a_partition :
    let f : State := { hub {} with floors := [((0, sliceOf 0x400, 0), ⟨5, 1⟩), ((0, sliceOf 0x400, 1), ⟨6, 1⟩)] }
    let l (k : Nat) : State := { hub {} with l2 := [{ line := 0x400, part := 0, tenant := 0, way := 0, age := 0, cmp := false, stamp := ⟨k, 3⟩, bytes := [], poison := [] }] }
    stampAt f 0 0x400 = ⟨5, 1⟩ ∧ stampAt (f.zeroEpoch 0) 0 0x400 = {} ∧ stampAt (f.zeroEpoch 0) 1 0x400 = ⟨6, 1⟩ ∧ stampAt ((l 9).zeroEpoch 1) 0 0x400 = ⟨9, 3⟩ ∧
      (((l (2 ^ 47 - 1)).clockNotice 0).partn 0).irqs = 0 ∧ (((l (2 ^ 47)).clockNotice 0).partn 0).irqs = 1 ∧ (((l (2 ^ 47)).clockNotice 0).partn 0).scNotice = true ∧
      ((((l (2 ^ 47)).clockNotice 0).clockNotice 0).partn 0).irqs = 1 := by decide +kernel

/-- R269: q6 in turn, going on behind a block that has ended; a block whose fifth incomplete reduction it would be is passed over. -/
theorem test_packets_in_turn :
    let r (l : Nat) (turn : Option BRef) : State :=
      let s := reducing ((List.range l).map fun i => { seq := i + 9 }) (fun b => { b with q6 := [List.replicate 32 0], rsends := 1 }) {}
      (s.setBlock ⟨0, 1⟩ (s.block br0)).modCore 0 fun c => { c with turnR := turn }
    (r 0 none).nextPacket 0 = some br0 ∧ (r 0 (some br0)).nextPacket 0 = some ⟨0, 1⟩ ∧ (r 0 (some ⟨0, 1⟩)).nextPacket 0 = some br0 ∧ (r 0 (some ⟨7, 7⟩)).nextPacket 0 = some br0 ∧
      (r 4 none).nextPacket 0 = none ∧
      -- the turn stands behind the block that ends
      (let l : Launch := { blank with placed := true, blocksLeft := 2 }
       let e : State := { (one (fun th => { th with st := .exited })).setBlock ⟨0, 1⟩ { (one).block br0 with slots := [] } with launches := [(0, l)], arg := { blk := br0 } }
       ((after .blockEnd (e.modCore 0 fun c => { c with turnC := some br0, turnM := some ⟨0, 1⟩ })).core 0).turnC = some ⟨0, 1⟩ ∧
         ((after .blockEnd (e.modCore 0 fun c => { c with turnC := some br0, turnM := some ⟨0, 1⟩ })).core 0).turnM = some ⟨0, 1⟩) := by decide +kernel

/-- R340: the ways of an incoming block are there one by one, and an access to one that is not waits; R262: a changed way gives up its trackers. -/
theorem test_ways_load :
    let go (s : State) (a : Act) : State := match s.perform1 a with | .next t => t | _ => s
    let u := one (regs [(2, 0)]) fun b => { b with unloaded := [0] }
    let st : State := { u with cores := (List.range 1).map fun _ => (0, { (u.core 0) with stopped := true }) }
    let w := (mapped fun th => { th with watch := { line := 0x400, armed := true, tracked := true } })
    let w : State := { w with l2 := [{ line := 0x400, part := 0, tenant := 0, way := 2, age := 0, cmp := false, stamp := {}, bytes := [], poison := [] }] }
    runs (.ldS 0 2 2 false 8 false) u = true ∧ ((after (.ldS 0 2 2 false 8 false) u).thread t0).pc = 0x12000 ∧ (after (.ldS 0 2 2 false 8 false) u).group = [t0] ∧ ((go st (.spillWay 0)).core 0).waysDone = 0 ∧
      (((w.setMasks 0 { ctx3 with waymask := 4 }).thread t0).watch.spur = true ∧ ((w.setMasks 0 { ctx3 with waymask := 4 }).thread t0).watch.tracked = false) ∧
      ((w.setMasks 0 { ctx3 with waymask := 0xFFFB }).thread t0).watch.spur = false := by decide +kernel

/-- R363, R366: BAR 0 in words of 8 bytes, with zero where no register is; BAR 4: the MSI-X table. -/
theorem test_bars :
    let go (s : State) (a : Act) : State := match s.perform1 a with | .next t => t | _ => s
    let h := hub {} fun p => { p with nqbase := 0x40001 }
    (go h (.bar0Read 0 0x4000 8)).hostOut = leBytes 8 0x40001 ∧ (go h (.bar0Read 0 0x4000 4)).hostOut = [0, 0, 0, 0] ∧ (go h (.bar0Read 0 0x9000 8)).hostOut = leBytes 8 0 ∧
      (go h (.bar0Read 0 0x8008 8)).freeCtr = h.freeCtr + 1 ∧ (go h (.bar0Read 0 0x8008 8)).hostOut.length = 8 ∧ (h.partn 0).msix.length = 16 ∧
      (go (go h (.bar4Write 0 4 [1, 2])) (.bar4Read 0 3 4)).hostOut = [0, 1, 2, 0] ∧ (go h (.bar4Write 0 15 [1, 2])).parts = h.parts ∧
      (go { h with sec := { h.sec with powered := false } } (.bar0Read 0 0x4000 8)).hostOut = h.hostOut := by decide +kernel

/-- R334: code read from a poisoned word halts the group; an engine whose object is poisoned stops with code 7. -/
theorem test_poison_stops :
    let s (bad : List Nat) : State := { mapped with poison := bad, agenda := [⟨0, .issue 0 0 false false⟩] }
    let th (bad : List Nat) : Option TState := match step (s bad) with | .next t => (t.thread? t0).map Thread.st | _ => none
    let c := { after .copyTakeEntry (copying (desc 0x20000 2 4 5 0)) with arg := { core := 0, k := 0, n := 4 } } |>.modBlock br0 fun b => { b with poison := [16] }
    let o : Obj := Obj.of (scrRead (after .engineByteCount c) br0 0x80 16)
    th [0x2400] = some .halted ∧ homePoison (s [0x2402]) 0x12000 4 = false ∧
      scrPoison c br0 0x80 16 = true ∧ o.err = true ∧ o.ecode = 7 ∧ o.count = 0 ∧ ((after .engineByteCount c).core 0).copies.map (fun r => (r.stopped, r.code)) = [(true, 7)] := by decide +kernel

/-- R351: with no guest ways, a store to memory whose home is another partition's die is one to uncached memory. -/
theorem test_foreign_store :
    let s := mapped (regs [(2, 0x1080), (3, 0x400), (8, 0x5A)])
    let s : State := { s with
      mem := cellWrite (cellWrite (cellWrite s.mem 0x10040 (leBytes 8 0x15001)) 0x15000 (leBytes 8 0x4000000001F)) 0x11000 (leBytes 8 0x1F)
      hw := { s.hw with expGiB := 1 } } |>.modPart 0 fun q => { q with dies := [0], expBase := 0x40000000000, expGiB := 1 }
    let i : Instr := .stG 0 2 2 8 false
    let pa := 0x40000001080
    homeOf pa = 1 ∧ s.guestWays = [] ∧ Alone i s t0 ∧ Quiet s t0 ∧ locOf (s.globalOf t0 (BitVec.ofNat 64 pa) 4 (nG 1 false true 4)) = some (.glob pa 0 false) ∧
      l2find s (pa / 128) = none ∧ l2Ways s ⟨0, 0⟩ (pa / 128) = [] ∧ homeByte (after i s) pa = 0x5A ∧ ((after i s).core 0).l1 = [] ∧ (after i s).l2 = s.l2 := by decide +kernel

/-- R340: with every core of the partition stopped, the spill of a core deals with its first way. -/
theorem test_spill_way :
    let go (s : State) (a : Act) : State := match s.perform1 a with | .next t => t | _ => s
    let s := one id fun b => { b with unloaded := [0, 1] }
    let s : State := { s with hw := { s.hw with rows := 1 } } |>.modPart 0 fun q => { q with dies := [0], switch := .stopping none }
    let s : State := { s with cores := (s.coresOf 0).map fun c => (c, { stopped := true }) }
    let t := go s (.spillWay 0)
    (s.coresOf 0).length = 16 ∧ ((t.core 0).waysDone, (t.core 0).spilled, (t.block br0).unloaded) = (1, false, [1]) := by decide +kernel

/-- What an access finds (R207, R212): the byte of the home, through the L1 or not; a register of the hub. -/
theorem test_what_a_part_finds :
    let s := holding 0x44332211 id
    let r (l : Loc) (n : Nat) : List Byte := (s.readParts ⟨0, 0⟩ 0 [⟨l, n⟩]).2.1
    s.l2 = [] ∧ NoCopies s 0 0x20000 ∧ r (.glob 0x20000 0 false) 4 = leBytes 4 0x44332211 ∧ r (.glob 0x20001 1 false) 2 = [0x22, 0x33] ∧
      r (.glob 0xF00000004000 2 false) 8 = leBytes 8 (regRead s 0 0x4000) ∧ r (.scr br0 0) 4 = [0, 0, 0, 0] := by decide +kernel

end Sys2Proof.Tests
end

section
/-! PROOFS. What an instruction does that delivers one result to a thread alone, and the error word of a context (R26, R27, R331). -/

namespace Sys2Proof.Machine

/-! ## Results of a thread alone -/

/-- Registers, latches, predicates and flags are all that a result changes. -/
theorem deliver_rest (th : Thread) (r : Res) :
    th.deliver r = { th with g := (th.deliver r).g, bad := (th.deliver r).bad, loaf := (th.deliver r).loaf, p1 := (th.deliver r).p1,
                             p2 := (th.deliver r).p2, p3 := (th.deliver r).p3, aflags := (th.deliver r).aflags } := by
  rw [deliver_eq, setPreds_rest]
  cases r.push <;> simp only [Thread.setGroup, Thread.flag, Thread.push] <;> rw [setFrom_rest]

theorem deliver_st (th : Thread) (r : Res) : (th.deliver r).st = th.st := by rw [deliver_rest]
theorem deliver_pc (th : Thread) (r : Res) : (th.deliver r).pc = th.pc := by rw [deliver_rest]

/-- An instruction that changes its thread to `x` and the state, but no other thread, to `s1`, delivers a result and retires. -/
theorem makes_deliver {i : Instr} {s : State} {t : TRef} (h : Alone i s t) {f : State → TRef → State × Fate} (he : exec i s = issueEach i s f)
    {s1 : State} {x : Thread} {r : Res} (hf : f s t = (s1.modThread t fun th => th.deliver r, .go)) (hx : s1.thread? t = some x)
    (hr : x.st = .running) (hp : ∀ y ∈ r.preds, y.1 < 4) (ho : ∀ u, u ≠ t → s1.thread? u = s.thread? u) :
    Makes i s t (fun th' => Delivered i x th' r) (Calm s1) := by
  have hm := modThread_of_some _ _ (fun th => th.deliver r) hx
  rw [hm] at hf
  have key := makes_go h he hf (thread?_setThread_self _ _ _) (by rw [deliver_st, hr])
  refine key.mono ?_ (fun y hy => (calm_setThread _ _ _).trans hy) fun u hu => ?_
  · rintro y rfl
    rw [deliver_pc]
    exact delivered i x r hp
  · rw [thread?_setThread, if_neg (Ne.symm hu), ho u hu]

/-- The same for an instruction without a result. -/
theorem makes_retire {i : Instr} {s : State} {t : TRef} (h : Alone i s t) {f : State → TRef → State × Fate} (he : exec i s = issueEach i s f)
    {s1 : State} {x : Thread} (hf : f s t = (s1, .go)) (hx : s1.thread? t = some x) (hr : x.st = .running)
    (ho : ∀ u, u ≠ t → s1.thread? u = s.thread? u) : Makes i s t (fun th' => Delivered i x th' {}) (Calm s1) := by
  refine (makes_go h he hf hx hr).mono ?_ (fun _ => id) ho
  rintro y rfl
  exact delivered_none i x

theorem res1_preds (n d v fl) : ∀ y ∈ (res1 n d v fl).preds, y.1 < 4 := by simp [res1]
theorem res2_preds (n d v fl) : ∀ y ∈ (res2 n d v fl).preds, y.1 < 4 := by simp [res2]

/-! ## The bits of an error word (R26) -/

theorem toNat_append_add {n m : Nat} (x : BitVec n) (y : BitVec m) : (x ++ y).toNat = x.toNat * 2 ^ m + y.toNat := by
  rw [BitVec.toNat_append, ← Nat.shiftLeft_add_eq_or_of_lt y.isLt, Nat.shiftLeft_eq]

/-- The word as R26 lays it out, field by field. -/
theorem ErrWord.word_eq (e : ErrWord) :
    e.word = 0#16 ++ (if e.firstv then 1#1 ++ BitVec.ofBool e.first16 ++ e.firstmaj else 0#8) ++ 0#4 ++
      (BitVec.ofBool e.novec ++ BitVec.ofBool e.par ++ BitVec.ofBool e.dblf ++ BitVec.ofBool e.ill) := by
  apply BitVec.eq_of_toNat_eq
  have hm := e.firstmaj.isLt
  have hb : ∀ b : Bool, (BitVec.ofBool b).toNat = if b then 1 else 0 := by decide
  rw [word, BitVec.toNat_ofNat]
  simp only [toNat_append_add, hb, BitVec.toNat_ofNat]
  cases e.firstv
  · simp only [Bool.false_eq_true, if_false, BitVec.toNat_ofNat]; split_ifs <;> rfl
  · simp only [if_true, toNat_append_add, hb, BitVec.toNat_ofNat]; split_ifs <;> omega

/-- Bit `i` of the word. -/
theorem ErrWord.word_bit (e : ErrWord) (i : Nat) : e.word.getLsbD i =
    if i = 0 then e.ill else if i = 1 then e.dblf else if i = 2 then e.par else if i = 3 then e.novec
    else if i < 8 then false else if i < 14 then e.firstv && e.firstmaj.getLsbD (i - 8) else if i = 14 then e.firstv && e.first16
    else e.firstv && decide (i = 15) := by
  have hb : ∀ b j, (BitVec.ofBool b).getLsbD j = (decide (j = 0) && b) := fun b j => by
    rw [BitVec.getLsbD_ofBool]
  have hf : ∀ j, (if e.firstv then 1#1 ++ BitVec.ofBool e.first16 ++ e.firstmaj else 0#8).getLsbD j =
      (e.firstv && (1#1 ++ BitVec.ofBool e.first16 ++ e.firstmaj).getLsbD j) := by
    intro j
    cases e.firstv
    · exact BitVec.getLsbD_zero
    · rfl
  rw [word_eq, BitVec.getLsbD_append]
  simp only [BitVec.getLsbD_append, hf, hb, BitVec.getLsbD_zero, BitVec.getLsbD_one]
  by_cases hi : i < 16
  · interval_cases i <;> rfl
  · have h : ∀ n < 16, i ≠ n := fun n hn e => hi (e ▸ hn)
    simp [h, show ¬i < 4 by omega, show ¬i - 4 < 4 by omega, show ¬i - 4 - 4 < 8 by omega, show ¬i < 8 by omega, show ¬i < 14 by omega]

/-- The masks of the cause bits and of all bits but those of the first illegal word. -/
theorem causeMask_bit (i : Nat) : (0xF : Word).getLsbD i = decide (i < 4) := by
  rw [show (0xF : Word) = BitVec.setWidth 32 (BitVec.allOnes 4) by decide, BitVec.getLsbD_setWidth, BitVec.getLsbD_allOnes]; grind

theorem firstMask_bit (b : Bool) (i : Nat) :
    (if b then 0xFFFF_00FF else 0xFFFF_FFFF : Word).getLsbD i = decide (i < 32 ∧ (b = true → i < 8 ∨ 16 ≤ i)) := by
  cases b
  · rw [show (0xFFFF_FFFF : Word) = BitVec.allOnes 32 by decide, if_neg Bool.false_ne_true, BitVec.getLsbD_allOnes]; simp
  · rw [show (0xFFFF_00FF : Word) = BitVec.allOnes 16 ++ 0#8 ++ BitVec.allOnes 8 by decide, if_pos rfl, BitVec.getLsbD_append]
    simp only [BitVec.getLsbD_append, BitVec.getLsbD_allOnes, BitVec.getLsbD_zero]
    grind

/-- Two error words together, bit by bit: the first illegal word of `a` stays. -/
theorem ErrWord.join_word (a b : ErrWord) :
    (a.join b).word = if a.word.getLsbD 15 then a.word ||| (b.word &&& 0xF) else a.word ||| b.word := by
  have h15 : a.word.getLsbD 15 = a.firstv := by rw [word_bit]; exact Bool.and_true _
  rw [h15]
  apply BitVec.eq_of_getLsbD_eq
  intro i _
  cases hv : a.firstv <;>
    simp only [Bool.false_eq_true, if_false, if_true, BitVec.getLsbD_or, BitVec.getLsbD_and, causeMask_bit, word_bit, join, hv] <;> grind

/-- What a clear mask leaves of a word. -/
theorem ErrWord.clear_word (e : ErrWord) (m : Word) :
    (e.clear m).word = e.word &&& ~~~(m &&& 0xF) &&& (if m.getLsbD 0 then 0xFFFF_00FF else 0xFFFF_FFFF) := by
  apply BitVec.eq_of_getLsbD_eq
  intro i hi
  rw [BitVec.getLsbD_and, firstMask_bit]
  cases hv : m.getLsbD 0 <;>
    simp only [Bool.false_eq_true, if_false, if_true, BitVec.getLsbD_not, BitVec.getLsbD_and, causeMask_bit, word_bit, clear, hv] <;> grind

/-! ## The record of a context (R27) -/

theorem errRec_modErr (s : State) (o x : Own) (f : ErrRec → ErrRec) : (s.modErr o f).errRec x = if o = x then f (s.errRec o) else s.errRec x := by
  obtain ⟨p, n⟩ := o
  obtain ⟨q, m⟩ := x
  simp only [State.errRec, State.modErr, State.modPart, State.partn, State.setPart, tget_tput, Own.mk.injEq]
  by_cases hp : p = q
  · subst hp
    by_cases hn : n = m <;> simp [tget_tput, hn]
  · simp [hp]

theorem err_modErr_ne (s : State) {o x : Own} (f : ErrRec → ErrRec) (h : x ≠ o) : (s.modErr o f).err x = s.err x := by
  rw [State.err, errRec_modErr, if_neg (Ne.symm h)]; rfl

theorem err_modErr_self (s : State) (o : Own) (f : ErrRec → ErrRec) : (s.modErr o f).err o = (f (s.errRec o)).old.join (f (s.errRec o)).recent := by
  rw [State.err, errRec_modErr, if_pos rfl]

theorem partn_modErr (s : State) (o : Own) (f : ErrRec → ErrRec) (p : Nat) :
    (s.modErr o f).partn p = { s.partn p with errs := ((s.modErr o f).partn p).errs } := by
  simp only [State.modErr, State.modPart, State.partn, State.setPart, tget_tput]
  by_cases h : o.part = p
  · subst h; simp
  · simp [h]

theorem err_congr {s s' : State} (h : s'.parts = s.parts) (o : Own) : s'.err o = s.err o := by
  simp only [State.err, State.errRec, State.partn, h]

/-- The word before the events of the present cycle, and the word of those events (R27, R331). -/
theorem ErrRec.at_old (r : ErrRec) (now : Nat) : (r.at_ now).old = if r.cyc = now then r.old else r.old.join r.recent := by
  unfold at_; split <;> rfl
theorem ErrRec.at_recent (r : ErrRec) (now : Nat) : (r.at_ now).recent = if r.cyc = now then r.recent else {} := by
  unfold at_; split <;> rfl

/-- A change of what came before leaves the events of the cycle. -/
theorem err_before (s : State) (o : Own) (f : ErrWord → ErrWord) :
    (s.modErr o fun r => r.before s.clock f).err o = (f ((s.errRec o).at_ s.clock).old).join ((s.errRec o).at_ s.clock).recent :=
  err_modErr_self _ _ _

end Sys2Proof.Machine

open Sys2Proof Sys2Proof.Machine

/-- Settles O19: ERRRD and ERRCLR change what the context's record held before this cycle, and its word is the join of that with the events of the cycle. -/
theorem errorWord : Obligations.ErrorWord := by
  unfold Obligations.ErrorWord
  intro only before events joined
  have hold : ∀ (s : State) o, before s o = ((s.errRec o).at_ s.clock).old.word := by
    intro s o; rw [ErrRec.at_old]; unfold before; split <;> rfl
  have hrec : ∀ (s : State) o, events s o = ((s.errRec o).at_ s.clock).recent.word := by
    intro s o; rw [ErrRec.at_recent]; unfold events; split <;> rfl
  have honly : ∀ (s : State) o f s', Calm (s.modErr o f) s' → s'.err o = (s.modErr o f).err o ∧ only s s' o := by
    intro s o f s' hc
    have hp : s'.parts = (s.modErr o f).parts := by rw [hc.rest]
    refine ⟨err_congr hp _, fun x hx => (err_congr hp x).trans (err_modErr_ne _ _ hx), fun p => ?_, ?_⟩
    · rw [State.partn, hp]; exact partn_modErr _ _ _ _
    · rw [hp]; exact hc
  refine ⟨fun s o => ?_, fun n d e s t h => ?_, fun a e s t h => ?_⟩
  · by_cases hc : (s.errRec o).cyc = s.clock
    · simp only [before, events, if_pos hc]; exact ErrWord.join_word _ _
    · simp [joined, before, events, if_neg hc]
  · obtain ⟨th, h1, h2, h3⟩ := alone_thread h
    have key := makes_deliver h (i := .errrd n d e) rfl (s1 := s.modErr (s.ownOf t) fun r => r.before s.clock fun _ => {}) rfl h1 h3
      (res1_preds _ _ _ _) fun _ _ => rfl
    refine key.mono (fun x hx => by rw [h2, hold]; exact hx) (fun s' hc => ?_) fun _ _ => rfl
    obtain ⟨he, ho⟩ := honly _ _ _ _ hc
    exact ⟨by rw [he, err_before, hrec]; rfl, ho⟩
  · obtain ⟨th, h1, h2, h3⟩ := alone_thread h
    have key := makes_retire h (i := .errclr a e) rfl
      (s1 := s.modErr (s.ownOf t) fun r => r.before s.clock fun x => x.clear ((s.thread t).word a.toNat)) rfl h1 h3 fun _ _ => rfl
    refine key.mono (fun x hx => by rw [h2]; exact hx) (fun s' hc => ?_) fun _ _ => rfl
    obtain ⟨he, ho⟩ := honly _ _ _ _ hc
    exact ⟨by rw [he, err_before, ErrWord.join_word, ErrWord.clear_word, hrec, hold], ho⟩
/-! ## The special registers (R22 to R25) -/

namespace Sys2Proof.Machine

/-- A thread none of whose outstanding loads has flags still to deliver (R329). -/
def FlagsDelivered (th : Thread) : Prop := ∀ o ∈ th.outs, ∀ ps x y l r, o.src ≠ .load ps (.rastt x y l r)

theorem takeFlags_delivered {s : State} {t : TRef} (h : FlagsDelivered (s.thread t)) : s.takeFlags t = s := by
  have key : ∀ l : List Out, (∀ o ∈ l, ∀ ps x y m r, o.src ≠ .load ps (.rastt x y m r)) →
      l.foldl (fun s o => match o.src with | .load _ (.rastt ..) => s.takeOut t o.base | _ => s) s = s := by
    intro l
    induction l with
    | nil => intro _; rfl
    | cons o l ih =>
      intro hl
      have hs : (match o.src with | .load _ (.rastt ..) => s.takeOut t o.base | _ => s) = s := by
        split
        · rename_i e; exact absurd e (hl o (by simp) _ _ _ _ _)
        · rfl
      rw [List.foldl_cons, hs]
      exact ih fun o ho => hl o (List.mem_cons_of_mem _ ho)
  exact key _ h

theorem and_not_one (v : Dword) : v &&& ~~~(1 : Dword) = BitVec.ofNat 64 (v.toNat / 2 * 2) := by
  apply BitVec.eq_of_getLsbD_eq
  intro i hi
  rw [show (1 : Dword) = 1#64 from rfl, BitVec.getLsbD_and, BitVec.getLsbD_not, BitVec.getLsbD_one, BitVec.getLsbD_ofNat, BitVec.getLsbD]
  cases i with
  | zero => simp
  | succ i => simp [Nat.testBit_succ, Bool.and_comm]

theorem loWord_setWidth (v : Word) : loWord (v.setWidth 64) = v := by
  unfold loWord; rw [BitVec.setWidth_setWidth_of_le _ (by omega), BitVec.setWidth_eq]

theorem loWord_aflags (f : BitVec 5) : loWord (f.setWidth 64) = f.setWidth 32 := by
  unfold loWord; rw [BitVec.setWidth_setWidth_of_le _ (by omega)]

theorem loWord_ofNat (n : Nat) : loWord (BitVec.ofNat 64 n) = BitVec.ofNat 32 n := BitVec.setWidth_ofNat_of_le (by omega) _

/-- What WRSP leaves of the value that it writes (R24, R323, R325). -/
theorem setSpecial_xpc (th : Thread) (v : Dword) : th.setSpecial 11 v = { th with xpc := BitVec.ofNat 64 (v.toNat / 2 * 2) } := by
  rw [← and_not_one]; rfl

theorem setSpecial_xvec (th : Thread) (v : Dword) : th.setSpecial 15 v = { th with xvec := BitVec.ofNat 64 (v.toNat / 2 * 2) } := by
  rw [← and_not_one]; rfl

theorem setSpecial_xcause (th : Thread) (v : Word) : th.setSpecial 12 (v.setWidth 64) = { th with xcause := v &&& 0xFF1F_F3FF } := by
  show { th with xcause := loWord (v.setWidth 64) &&& xcauseMask } = _
  rw [loWord_setWidth]; rfl

theorem setSpecial_aflags (th : Thread) (v : Word) : th.setSpecial 17 (v.setWidth 64) = { th with aflags := v.extractLsb' 0 5 } := by
  show { th with aflags := (v.setWidth 64).setWidth 5 } = _
  rw [BitVec.setWidth_setWidth_of_le _ (by omega), BitVec.setWidth_eq_extractLsb' (by omega)]

/-- %xmode as a number (R325). -/
def Thread.xmodeNat (th : Thread) : Nat :=
  match th.trap with
  | none => 0
  | some l => 1 + (if l.j = 0 ∧ l.cnt = 0 then 0 else 4) + l.j * 16 + l.cnt * 256

theorem xmode_eq (th : Thread) : th.xmode = BitVec.ofNat 32 th.xmodeNat := by
  unfold Thread.xmode Thread.xmodeNat
  cases th.trap with
  | none => rfl
  | some l => by_cases h : l.j = 0 ∧ l.cnt = 0 <;> simp [h, ← not_and_or]

end Sys2Proof.Machine

open Sys2Proof Sys2Proof.Machine
/-- Settles O18: what RDSP and WRSP do is the result of a thread alone, and the flags of a thread whose loads have delivered theirs are the
thread's own. -/
theorem specialRegisters : Obligations.SpecialRegisters := by
  unfold Obligations.SpecialRegisters
  intro settled wide reads
  have hset : ∀ s t sr, settled s t sr → (if sr = 17 then s.takeFlags t else s) = s := by
    intro s t sr h
    by_cases e : sr = 17
    · rw [if_pos e]; exact takeFlags_delivered (h e)
    · rw [if_neg e]
  have hwide : ∀ sr : BitVec 7, wide sr ↔ spRegs sr.toNat = 2 := by
    simp only [wide, spRegs]; decide
  have hval : ∀ s t (sr : BitVec 7), ∃ v, reads s t sr v ∧ (spRegs sr.toNat = 2 → s.special t (s.thread t) sr.toNat = BitVec.ofNat 64 v) ∧
      (spRegs sr.toNat ≠ 2 → loWord (s.special t (s.thread t) sr.toNat) = BitVec.ofNat 32 v) := by
    intro s t sr
    simp only [reads]
    generalize sr.toNat = k
    match k with
    | 0 | 1 | 2 | 3 | 4 | 5 | 6 | 7 | 16 => exact ⟨_, rfl, nofun, fun _ => loWord_ofNat _⟩
    | 8 => exact ⟨s.clock + (Config.clockSkew t.core).val, ⟨Nat.le_add_right _ _, Nat.add_le_add_left (Nat.le_of_lt_succ (Config.clockSkew t.core).isLt) _⟩, fun _ => rfl, nofun⟩
    | 9 => exact ⟨_, rfl, fun _ => rfl, nofun⟩
    | 10 | 12 => exact ⟨_, rfl, nofun, fun _ => (loWord_setWidth _).trans (by simp)⟩
    | 11 | 13 | 15 => exact ⟨_, rfl, fun _ => (by simp [State.special]), nofun⟩
    | 14 => exact ⟨(s.thread t).xmodeNat, rfl, nofun, fun _ => (loWord_setWidth _).trans (xmode_eq _)⟩
    | k + 17 =>
      have h : spRegs (k + 17) ≠ 2 := by simp [spRegs]
      exact ⟨_, rfl, fun e => absurd e h, fun _ => (loWord_aflags _).trans (by simp)⟩
  refine ⟨fun sr n d e s t h hs => ?_, fun sr a e s t h hs => ?_⟩
  · obtain ⟨th, h1, h2, h3⟩ := alone_thread h
    obtain ⟨v, hv, hd, hw⟩ := hval s t sr
    have hr := hset s t sr hs
    refine ⟨v, hv, fun w => ?_, fun w => ?_⟩
    · rw [h2]
      refine makes_deliver h rfl (s1 := s) ?_ h1 h3 (res2_preds _ _ _ _) fun _ _ => rfl
      simp only [hr, if_pos ((hwide sr).1 w), hd ((hwide sr).1 w)]
    · rw [h2]
      refine makes_deliver h rfl (s1 := s) ?_ h1 h3 (res1_preds _ _ _ _) fun _ _ => rfl
      simp only [hr, if_neg (mt (hwide sr).2 w), hw (mt (hwide sr).2 w)]
  · obtain ⟨th, h1, h2, h3⟩ := alone_thread h
    have hr := hset s t sr hs
    have key : ∀ x : Thread, x = th.setSpecial sr.toNat (if spRegs sr.toNat = 2 then th.pair a.toNat else (th.word a.toNat).setWidth 64) →
        x.st = .running → Makes (.wrsp sr a e) s t (fun th' => Delivered (.wrsp sr a e) x th' {}) (Calm s) := by
      rintro x rfl hx
      refine (makes_retire h rfl (s1 := s.setThread t _) ?_ (thread?_setThread_self _ _ _) hx fun u hu => ?_).mono (fun _ => id)
        (fun y hy => (calm_setThread _ _ _).trans hy) fun _ _ => rfl
      · simp only [hr, h2, modThread_of_some _ _ _ h1]
      · rw [thread?_setThread, if_neg (Ne.symm hu)]
    rw [h2]
    refine ⟨?_, ?_, ?_, ?_, ?_⟩ <;> rintro rfl
    · exact key _ (setSpecial_xpc _ _).symm h3
    · exact key _ (setSpecial_xcause _ _).symm h3
    · exact key _ rfl h3
    · exact key _ (setSpecial_xvec _ _).symm h3
    · exact key _ (setSpecial_aflags _ _).symm h3
end
section
/-! PROOFS. What halting a thread, or its end, does to everything else: barriers and switch conditions are evaluated again, and a slot without a
live thread is vacated (R32, R53, R168, R173, R182). -/

namespace Sys2Proof.Machine

/-! ## Threads changed all together -/

theorem thread?_mapThreads (s : State) (f : TRef → Thread → Thread) (t : TRef) : (s.mapThreads f).thread? t = (s.thread? t).map (f t) := tget_map _ _ _

theorem keys_mapThreads (s : State) (f : TRef → Thread → Thread) : (s.mapThreads f).threads.map Prod.fst = s.threads.map Prod.fst := by
  simp [State.mapThreads]

theorem slotLive_mapThreads (s : State) (f : TRef → Thread → Thread) (h : ∀ t th, (f t th).live = th.live) (c sl : Nat) :
    (s.mapThreads f).slotLive c sl = s.slotLive c sl := by
  simp only [State.slotLive, State.mapThreads, List.any_map, Function.comp_def, h]

theorem slotLive_congr {s s' : State} (h : s'.threads = s.threads) (c sl : Nat) : s'.slotLive c sl = s.slotLive c sl := by
  rw [State.slotLive, h]; rfl

/-! ## A thread at the flip of a barrier (R168) -/

theorem flipped_live (i : Nat) (th : Thread) : (th.flipped i).live = th.live := by
  unfold Thread.flipped
  by_cases h : th.st = .waiting (.barrier i)
  · rw [if_pos h]
    have hl : th.live = true := by rw [Thread.live, h]; rfl
    rw [hl, Thread.passHeel, Thread.live, heel_st]
    split <;> rfl
  · rw [if_neg h]; rfl

theorem flipped_g (i : Nat) (th : Thread) : (th.flipped i).g = th.g := by
  unfold Thread.flipped; simp only; split <;> rfl

theorem flipped_of_not_waiting {i : Nat} {th : Thread} (h : th.st ≠ .waiting (.barrier i)) :
    th.flipped i = { th with tokens := (th.flipped i).tokens } := by
  unfold Thread.flipped; rw [if_neg h]

/-! ## What is evaluated again -/

/-- A thread waits at no barrier. -/
def Thread.AtNoBarrier (th : Thread) : Prop := ∀ i, th.st ≠ .waiting (.barrier i)

/-- Barriers and switch conditions evaluated again: tokens go, waits for barriers end, and nothing else of a thread changes; warps keep their
blocks, blocks their owners, and cores differ in their bins at most. -/
structure Reevaluated (s s' : State) : Prop where
  rest : s' = { s with threads := s'.threads, warps := s'.warps, blocks := s'.blocks, cores := s'.cores }
  cores : ∀ c, s'.core c = { s.core c with bins := (s'.core c).bins, released := (s'.core c).released }
  blk : ∀ c sl, (s'.warp c sl).blk = (s.warp c sl).blk
  own : ∀ b, s'.ownBlk b = s.ownBlk b
  keys : s'.threads.map Prod.fst = s.threads.map Prod.fst
  live : ∀ c sl, s'.slotLive c sl = s.slotLive c sl
  thread : ∀ t th, s.thread? t = some th → ∃ th', s'.thread? t = some th' ∧ th'.g = th.g ∧ (th.AtNoBarrier → th' = { th with tokens := th'.tokens })

theorem Reevaluated.refl (s : State) : Reevaluated s s :=
  ⟨rfl, fun _ => rfl, fun _ _ => rfl, fun _ => rfl, rfl, fun _ _ => rfl, fun _ th h => ⟨th, h, rfl, fun _ => rfl⟩⟩

theorem Reevaluated.trans {a b c : State} (h : Reevaluated a b) (k : Reevaluated b c) : Reevaluated a c := by
  refine ⟨by rw [k.rest, h.rest], fun n => by rw [k.cores n, h.cores n], fun n sl => (k.blk n sl).trans (h.blk n sl), fun n => (k.own n).trans (h.own n),
    k.keys.trans h.keys, fun n sl => (k.live n sl).trans (h.live n sl), fun t th ht => ?_⟩
  obtain ⟨x, hx, gx, nx⟩ := h.thread t th ht
  obtain ⟨y, hy, gy, ny⟩ := k.thread t x hx
  refine ⟨y, hy, gy.trans gx, fun hn => ?_⟩
  have ex := nx hn
  have hn' : x.AtNoBarrier := fun i => by rw [ex]; exact hn i
  rw [ny hn', ex]

theorem reevaluated_foldl {α : Type} (f : State → α → State) (hf : ∀ s a, Reevaluated s (f s a)) (l : List α) (s : State) :
    Reevaluated s (l.foldl f s) := by
  induction l generalizing s with
  | nil => exact .refl s
  | cons a l ih => exact (hf s a).trans (ih _)

theorem block_modBlock (s : State) (b c : BRef) (f : Block → Block) :
    (s.modBlock b f).block c = if b = c ∧ (s.block? b).isSome then f (s.block c) else s.block c := by
  unfold State.modBlock
  cases h : s.block? b with
  | none => simp
  | some x =>
    have hb : s.block b = x := by rw [State.block]; rw [State.block?] at h; rw [h]; rfl
    by_cases e : b = c
    · subst e; simp [State.block, State.setBlock, ← hb]
    · simp [State.block, State.setBlock, tget_tput, e]

theorem warp_modWarp (s : State) (c sl d n : Nat) (f : Warp → Warp) :
    (s.modWarp c sl f).warp d n = if (c, sl) = (d, n) ∧ (s.warp? c sl).isSome then f (s.warp d n) else s.warp d n := by
  unfold State.modWarp
  cases h : s.warp? c sl with
  | none => simp
  | some x =>
    have hw : s.warp c sl = x := by rw [State.warp]; rw [State.warp?] at h; rw [h]; rfl
    by_cases e : (c, sl) = (d, n)
    · obtain ⟨rfl, rfl⟩ := Prod.mk.inj e
      simp [State.warp, State.setWarp, ← hw]
    · rw [if_neg fun k => e k.1]
      simp [State.warp, State.setWarp, tget_tput, e]

theorem reevaluated_modWarp (s : State) (c sl : Nat) (f : Warp → Warp) (hf : ∀ w, (f w).blk = w.blk) : Reevaluated s (s.modWarp c sl f) := by
  have ht : (s.modWarp c sl f).threads = s.threads := modWarp_threads _ _ _ _
  refine ⟨?_, fun _ => ?_, fun d n => ?_, fun b => ?_, by rw [ht], slotLive_congr ht, fun t th h => ⟨th, ?_, rfl, fun _ => rfl⟩⟩
  · unfold State.modWarp; split <;> rfl
  · unfold State.modWarp; split <;> rfl
  · rw [warp_modWarp]; split
    · exact hf _
    · rfl
  · unfold State.modWarp; split <;> rfl
  · rw [State.thread?, ht]; exact h

theorem reevaluated_modBlock (s : State) (b : BRef) (f : Block → Block) (hf : ∀ x, (f x).part = x.part ∧ (f x).tenant = x.tenant) :
    Reevaluated s (s.modBlock b f) := by
  have ht : (s.modBlock b f).threads = s.threads := modBlock_threads _ _ _
  refine ⟨?_, fun _ => ?_, fun d n => ?_, fun c => ?_, by rw [ht], slotLive_congr ht, fun t th h => ⟨th, ?_, rfl, fun _ => rfl⟩⟩
  · unfold State.modBlock; split <;> rfl
  · unfold State.modBlock; split <;> rfl
  · unfold State.modBlock; split <;> rfl
  · rw [State.ownBlk, block_modBlock, State.ownBlk]
    split
    · rw [(hf _).1, (hf _).2]
    · rfl
  · rw [State.thread?, ht]; exact h

theorem reevaluated_modCore (s : State) (c : Nat) (f : Core → Core) (hf : ∀ x, f x = { x with bins := (f x).bins, released := (f x).released }) :
    Reevaluated s (s.modCore c f) := by
  refine ⟨rfl, fun n => ?_, fun _ _ => rfl, fun _ => rfl, rfl, fun _ _ => rfl, fun t th h => ⟨th, h, rfl, fun _ => rfl⟩⟩
  rw [core_modCore]
  split
  · exact hf _
  · rfl

theorem reevaluated_mapThreads (s : State) (f : TRef → Thread → Thread) (hl : ∀ t th, (f t th).live = th.live) (hg : ∀ t th, (f t th).g = th.g)
    (hn : ∀ t th, th.AtNoBarrier → f t th = { th with tokens := (f t th).tokens }) : Reevaluated s (s.mapThreads f) := by
  refine ⟨rfl, fun _ => rfl, fun _ _ => rfl, fun _ => rfl, keys_mapThreads _ _, slotLive_mapThreads _ _ hl, fun t th h => ⟨f t th, ?_, hg _ _, hn _ _⟩⟩
  rw [thread?_mapThreads, h]; rfl

theorem reevaluated_flipBarrier (s : State) (br : BRef) (i : Nat) : Reevaluated s (s.flipBarrier br i) := by
  unfold State.flipBarrier
  refine ((reevaluated_modBlock _ br _ ?_).trans (reevaluated_mapThreads _ _ ?_ ?_ ?_)).trans (reevaluated_modCore _ _ _ ?_)
  · exact fun _ => ⟨rfl, rfl⟩
  · intro t th; split_ifs
    exacts [flipped_live _ _, rfl]
  · intro t th; split_ifs
    exacts [flipped_g _ _, rfl]
  · intro t th hn; split_ifs
    exacts [flipped_of_not_waiting (hn i), rfl]
  · exact fun _ => rfl

theorem reevaluated_checkBarrier (s : State) (br : BRef) (i : Nat) (fresh : Bool) : Reevaluated s (s.checkBarrier br i fresh) := by
  unfold State.checkBarrier
  simp only
  split
  · exact .refl s
  · split
    · exact reevaluated_flipBarrier s br i
    · exact .refl s

theorem reevaluated_checkBarriers (s : State) (br : BRef) : Reevaluated s (s.checkBarriers br) :=
  reevaluated_foldl _ (fun _ _ => reevaluated_checkBarrier _ _ _ _) _ _

theorem reevaluated_evalSwitch (s : State) (c sl : Nat) : Reevaluated s (s.evalSwitch c sl) := by
  unfold State.evalSwitch
  split
  · exact .refl s
  · split
    · exact .refl s
    · simp only
      split
      · exact reevaluated_modWarp _ _ _ _ fun _ => rfl
      · exact .refl s

/-! ## A slot vacated (R173) -/

theorem vacate_live (s : State) (c sl : Nat) (h : s.slotLive c sl = true) : s.vacate c sl = s := by rw [State.vacate, if_pos h]

/-- A thread of a slot that is vacated. -/
def Thread.emptied (c sl : Nat) (t : TRef) (th : Thread) : Thread := if t.core = c ∧ t.slot = sl then { th with g := Vector.replicate 124 0 } else th

theorem emptied_live (c sl : Nat) (t : TRef) (th : Thread) : (th.emptied c sl t).live = th.live := by
  unfold Thread.emptied; split <;> rfl

theorem vacate_dead (s : State) (c sl : Nat) (h : s.slotLive c sl = false) :
    s.vacate c sl = (s.mapThreads (Thread.emptied c sl)).modWarp c sl fun w => { w with k := Vector.replicate 64 0 } := by
  rw [State.vacate, h]; rfl

/-- A thread has departed: what follows is an evaluation, after which the slot of the thread is vacated if no thread in it lives. -/
structure Departed (s s' : State) (t : TRef) : Prop where
  rest : s' = { s with threads := s'.threads, warps := s'.warps, blocks := s'.blocks, cores := s'.cores }
  cores : ∀ c, s'.core c = { s.core c with bins := (s'.core c).bins, released := (s'.core c).released }
  blk : ∀ c sl, (s'.warp c sl).blk = (s.warp c sl).blk
  own : ∀ b, s'.ownBlk b = s.ownBlk b
  keys : s'.threads.map Prod.fst = s.threads.map Prod.fst
  live : ∀ c sl, s'.slotLive c sl = s.slotLive c sl
  thread : ∀ u th, s.thread? u = some th → ∃ th', s'.thread? u = some th' ∧ (th.AtNoBarrier → th' = { th with g := th'.g, tokens := th'.tokens }) ∧
    th'.g = if u.core = t.core ∧ u.slot = t.slot ∧ s.slotLive t.core t.slot = false then Vector.replicate 124 0 else th.g

theorem departed_vacate {s a : State} (t : TRef) (h : Reevaluated s a) : Departed s (a.vacate t.core t.slot) t := by
  cases hl : s.slotLive t.core t.slot with
  | true =>
    rw [vacate_live _ _ _ ((h.live _ _).trans hl)]
    refine ⟨h.rest, h.cores, h.blk, h.own, h.keys, h.live, fun u th hu => ?_⟩
    obtain ⟨x, hx, gx, nx⟩ := h.thread u th hu
    exact ⟨x, hx, fun hn => by rw [nx hn], by simp [gx, hl]⟩
  | false =>
    rw [vacate_dead _ _ _ ((h.live _ _).trans hl)]
    generalize hm : a.mapThreads (Thread.emptied t.core t.slot) = m
    have hk : Reevaluated m (m.modWarp t.core t.slot _) := reevaluated_modWarp m t.core t.slot (fun w => { w with k := Vector.replicate 64 0 }) fun _ => rfl
    have hma : m = { a with threads := m.threads } := by rw [← hm]; rfl
    refine ⟨by rw [hk.rest, hma, h.rest], fun c => ?_, fun c sl => (hk.blk c sl).trans ?_, fun b => (hk.own b).trans ?_, hk.keys.trans ?_,
      fun c sl => (hk.live c sl).trans ?_, fun u th hu => ?_⟩
    · have hc := hk.cores c
      rw [show m.core c = a.core c by rw [← hm]; rfl, h.cores c] at hc
      exact hc
    · rw [← hm]; exact h.blk c sl
    · rw [← hm]; exact h.own b
    · rw [← hm]; exact (keys_mapThreads _ _).trans h.keys
    · rw [← hm]; exact (slotLive_mapThreads _ _ (emptied_live _ _) _ _).trans (h.live _ _)
    · obtain ⟨x, hx, gx, nx⟩ := h.thread u th hu
      have hy : m.thread? u = some (x.emptied t.core t.slot u) := by rw [← hm, thread?_mapThreads, hx]; rfl
      obtain ⟨z, hz, gz, nz⟩ := hk.thread u _ hy
      have ez : z = x.emptied t.core t.slot u := by
        rw [State.thread?, modWarp_threads] at hz; exact (Option.some.inj (hz.symm.trans hy))
      subst ez
      refine ⟨_, hz, fun hn => ?_, ?_⟩
      · unfold Thread.emptied; split <;> rw [nx hn]
      · by_cases hc : u.core = t.core ∧ u.slot = t.slot
        · rw [Thread.emptied, if_pos hc, if_pos ⟨hc.1, hc.2, hl⟩]
        · rw [Thread.emptied, if_neg hc, if_neg fun k => hc ⟨k.1, k.2.1⟩, gx]

theorem departed_spec (s : State) (t : TRef) (b : Bool) : Departed s (s.departed t b) t := by
  unfold State.departed
  refine departed_vacate (a := if b && (s.checkBarriers (s.blkOf t)).isProducer t then _ else _) t ((reevaluated_checkBarriers s (s.blkOf t)).trans ?_)
  split
  · exact reevaluated_evalSwitch _ _ _
  · exact .refl _

/-! ## A thread Halted (R26, R32, R53) -/

theorem unplace_core (s : State) (t : TRef) (c : Nat) :
    ((s.unplace t).core c).p0 = (if c = t.core then (s.core c).p0.filter (· ≠ t) else (s.core c).p0) ∧
    ((s.unplace t).core c).p1 = (if c = t.core then (s.core c).p1.filter (· ≠ t) else (s.core c).p1) := by
  rw [State.unplace, core_modCore]
  by_cases h : t.core = c
  · subst h; simp
  · simp [h, Ne.symm h]

/-- A thread is Halted with an event in the error word of its context: it leaves its port, and what follows a departure happens. -/
structure Halted (s s' : State) (sl : Nat) (t : TRef) (e : ErrWord) : Prop where
  rest : s' = { s with parts := s'.parts, threads := s'.threads, warps := s'.warps, blocks := s'.blocks, cores := s'.cores }
  parts : s'.parts = (s.modErr (s.ownOf t) fun r => r.note s.clock (t.core * 64 + sl) e).parts
  ports : ∀ c, (s'.core c).p0 = (if c = t.core then (s.core c).p0.filter (· ≠ t) else (s.core c).p0) ∧
    (s'.core c).p1 = (if c = t.core then (s.core c).p1.filter (· ≠ t) else (s.core c).p1)
  blk : ∀ c n, (s'.warp c n).blk = (s.warp c n).blk
  own : ∀ b, s'.ownBlk b = s.ownBlk b
  keys : s'.threads.map Prod.fst = s.threads.map Prod.fst
  live : ∀ c n, s'.slotLive c n = (s.modThread t fun th => { th with st := .halted }).slotLive c n
  thread : ∀ u th, (s.modThread t fun th => { th with st := .halted }).thread? u = some th → ∃ th', s'.thread? u = some th' ∧
    (th.AtNoBarrier → th' = { th with g := th'.g, tokens := th'.tokens }) ∧
    th'.g = if u.core = t.core ∧ u.slot = t.slot ∧ s'.slotLive t.core t.slot = false then Vector.replicate 124 0 else th.g

theorem keys_tput {κ α : Type} [DecidableEq κ] (l : List (κ × α)) (k : κ) (v : α) (h : (tget l k).isSome = true) :
    (tput l k v).map Prod.fst = l.map Prod.fst := by
  induction l with
  | nil => simp at h
  | cons p r ih =>
    obtain ⟨a, w⟩ := p
    by_cases e : a = k
    · simp [tput, e]
    · simp [tget, e] at h; simp [tput, e, ih h]

theorem keys_modThread (s : State) (t : TRef) (f : Thread → Thread) : (s.modThread t f).threads.map Prod.fst = s.threads.map Prod.fst := by
  unfold State.modThread
  split
  · rfl
  · rename_i x h; exact keys_tput _ _ _ (by rw [State.thread?] at h; rw [h]; rfl)

theorem threads_modThread_congr {s s' : State} (h : s'.threads = s.threads) (t : TRef) (f : Thread → Thread) :
    (s'.modThread t f).threads = (s.modThread t f).threads := by
  unfold State.modThread State.thread?
  rw [h]
  cases tget s.threads t with
  | none => exact h
  | some x => show tput s'.threads t _ = tput s.threads t _; rw [h]

theorem haltAs_spec (s : State) (sl : Nat) (t : TRef) (e : ErrWord) (hl : (s.thread t).leaven = false) (hp : e.par = false) :
    Halted s (s.haltAs sl t e) sl t e := by
  generalize hb : s.modErr (s.ownOf t) (fun r => r.note s.clock (t.core * 64 + sl) e) = b
  generalize hm : (b.unplace t).modThread t (fun th => { th with st := .halted }) = m
  have hh : s.haltAs sl t e = m.departed t true := by
    simp only [State.haltAs, hl, hp, Bool.false_eq_true, if_false, hb, hm]
  have hbs : b = { s with parts := b.parts } := by rw [← hb]; rfl
  have hmt : m.threads = (s.modThread t fun th => { th with st := .halted }).threads := by
    rw [← hm]; exact threads_modThread_congr (by rw [unplace_threads, hbs]) _ _
  have hmu : m = { b.unplace t with threads := m.threads } := by
    rw [← hm]; unfold State.modThread; split <;> rfl
  have hu : b.unplace t = { b with cores := (b.unplace t).cores } := rfl
  have hcore : ∀ c, m.core c = (b.unplace t).core c := fun c => by rw [hmu]; rfl
  have hbc : ∀ c, b.core c = s.core c := fun c => by rw [hbs]; rfl
  have hd := departed_spec m t true
  have hl : ∀ c n, (m.departed t true).slotLive c n = (s.modThread t fun th => { th with st := .halted }).slotLive c n :=
    fun c n => (hd.live c n).trans (slotLive_congr hmt c n)
  rw [hh]
  refine ⟨?_, ?_, fun c => ?_, fun c n => (hd.blk c n).trans ?_, fun c => (hd.own c).trans ?_, hd.keys.trans ?_, hl, fun u th h => ?_⟩
  · rw [hd.rest, hmu, hu, hbs]
  · rw [hd.rest, hmu, hu, hb]
  · have hc := hd.cores c
    rw [hcore] at hc
    rw [hc, ← hbc]
    exact unplace_core b t c
  · rw [hmu, hu, hbs]; rfl
  · rw [hmu, hu, hbs]; rfl
  · rw [hmt]; exact keys_modThread _ _ _
  · obtain ⟨th', h1, h2, h3⟩ := hd.thread u th (by rw [State.thread?, hmt]; exact h)
    exact ⟨th', h1, h2, by rw [hd.live]; exact h3⟩

end Sys2Proof.Machine
end

section
namespace Sys2Proof.Machine

theorem group_keepPort (s : State) (i : Instr) (g : List TRef) :
    (s.keepPort i g).group = if i.isHeel then [] else g.filter fun t => (s.thread t).st = .running := by
  have hp : ∀ (c : Core) p g, (c.setPort p g).port p = g := by
    intro c p g; unfold Core.setPort Core.port; by_cases h : p = 0 <;> simp [h]
  simp only [State.keepPort, State.group, modCore_curCore, modCore_curPort, core_modCore, if_true, hp]

theorem thread?_keepPort (s : State) (i : Instr) (g : List TRef) (t : TRef) : (s.keepPort i g).thread? t = s.thread? t :=
  congrArg (fun l => tget l t) (keepPort_threads s i g)

/-! ## Events that are no illegal word (R26) -/

theorem ErrWord.join_assoc (a b c : ErrWord) : (a.join b).join c = a.join (b.join c) := by
  cases ha : a.firstv <;> cases hb : b.firstv <;> simp [join, ha, hb, Bool.or_assoc]

theorem ErrWord.join_word_plain (a e : ErrWord) (h : e.firstv = false) : (a.join e).word = a.word ||| e.word := by
  have hl : e.word &&& 0xF = e.word := by
    apply BitVec.eq_of_getLsbD_eq
    intro i _
    rw [BitVec.getLsbD_and, causeMask_bit, word_bit, h]
    grind
  rw [join_word, hl, ite_self]

/-- An event that is no illegal word joins the word of its context. -/
theorem ErrRec.note_plain (r : ErrRec) (now who : Nat) (e : ErrWord) (h : e.firstv = false) :
    (r.note now who e).old.join (r.note now who e).recent = (r.old.join r.recent).join e := by
  have hn : r.note now who e = { r.at_ now with recent := (r.at_ now).recent.join e } := by
    unfold note; simp [h]
  rw [hn]
  show (r.at_ now).old.join ((r.at_ now).recent.join e) = _
  rw [ErrRec.at_old, ErrRec.at_recent]
  split
  · rw [ErrWord.join_assoc]
  · rfl

/-- A thread alone that its instruction halts, for a reason other than an illegal word. -/
theorem exec_halts {i : Instr} {s : State} {t : TRef} (h : Alone i s t) {f : State → TRef → State × Fate} (he : exec i s = issueEach i s f)
    {e : ErrWord} (hf : turn i f s t = s.halt t e) (hl : (s.thread t).leaven = false) (hp : e.par = false) (hv : e.firstv = false) :
    ∃ s', exec i s = .next s' ∧ t ∉ s'.group ∧ s'.mem = s.mem ∧
      (s'.err (s.ownOf t)).word = (s.err (s.ownOf t)).word ||| e.word ∧ (∀ o, o ≠ s.ownOf t → s'.err o = s.err o) ∧
      ∃ th', s'.thread? t = some th' ∧ th' = { s.thread t with st := .halted, g := th'.g, tokens := th'.tokens } := by
  obtain ⟨th, h1, h2, h3⟩ := alone_thread h
  have hh : Halted s (turn i f s t) t.slot t e := by rw [hf]; exact haltAs_spec s t.slot t e hl hp
  generalize ha : turn i f s t = a at *
  obtain ⟨x, hx, ex, -⟩ := hh.thread t { th with st := .halted } (by rw [thread?_modThread, if_pos rfl, h1]; rfl)
  have ex := ex fun i => nofun
  have hp : (a.keepPort i [t]).parts = (s.modErr (s.ownOf t) fun r => r.note s.clock (t.core * 64 + t.slot) e).parts := by
    rw [← hh.parts]; exact modCore_parts _ _ _
  refine ⟨a.keepPort i [t], ?_, ?_, ?_, ?_, fun o ho => ?_, x, ?_, ?_⟩
  · rw [he, issueEach_alone h, ha]
  · rw [group_keepPort]
    split
    · simp
    · intro hm
      have hst : (a.thread t).st = .halted := by rw [thread_of_some _ _ hx, ex]
      rw [List.mem_filter, hst] at hm
      exact absurd hm.2 (by decide)
  · show a.mem = _; rw [hh.rest]
  · rw [err_congr hp, err_modErr_self, ErrRec.note_plain _ _ _ _ hv, ErrWord.join_word_plain _ _ hv]; rfl
  · rw [err_congr hp, err_modErr_ne _ _ ho]
  · rw [thread?_keepPort, hx]
  · rw [h2]; exact ex

end Sys2Proof.Machine

open Sys2Proof Sys2Proof.Machine

/-- Settles O17: the trap of a thread that has no handler, or is in it, halts the thread. -/
theorem trapInsideHandler : Obligations.TrapInsideHandler := by
  unfold Obligations.TrapInsideHandler
  intro a s t h hl halted
  obtain ⟨th, h1, h2, h3⟩ := alone_thread h
  have key : ∀ e : ErrWord, e.par = false → e.firstv = false →
      s.takeTrap t { code := causeTRAP, addr := ((s.thread t).word a.toNat).setWidth 64 } true = s.halt t e → halted e.word := by
    intro e hp hv hk
    obtain ⟨s', he, hg, hm, hw, ho, x, hx, ex⟩ := exec_halts h (f := _) rfl (e := e) (by
      show (if (s.thread t).st = .running then s.takeTrap t _ true else s) = _
      rw [if_pos (h2 ▸ h3), hk]) hl hp hv
    refine ⟨s', he, ?_, hg, ?_, hw, ho, hm⟩
    · rw [hx, ex]; rfl
    · rw [hx, ex]; rfl
  refine ⟨fun ht => ?_, fun ht hx => ?_⟩
  · refine key { dblf := true } rfl rfl ?_
    unfold State.takeTrap; simp [hl, Option.isSome_iff_ne_none.2 ht]
  · refine key { novec := true } rfl rfl ?_
    unfold State.takeTrap; simp [hl, ht, hx]
end

section
/-! PROOFS. The instructions that end a loaf or do nothing (R33, R49, R50, R110, R111, R156, R187). -/

namespace Sys2Proof.Machine

theorem tput_same {κ α : Type} [DecidableEq κ] (l : List (κ × α)) (k : κ) (v : α) (h : tget l k = some v) : tput l k v = l := by
  induction l with
  | nil => simp at h
  | cons p r ih =>
    obtain ⟨a, w⟩ := p
    by_cases e : a = k
    · simp [tget, e] at h; simp [tput, e, h]
    · simp [tget, e] at h; simp [tput, e, ih h]

theorem modThread_same (s : State) (t : TRef) (f : Thread → Thread) (h : ∀ th, f th = th) : s.modThread t f = s := by
  cases ht : s.thread? t with
  | none => exact modThread_of_none _ _ _ ht
  | some x =>
    rw [modThread_of_some _ _ _ ht, h, State.setThread, tput_same]
    exact ht

/-- An instruction that only retires is a lane instruction without a result. -/
theorem lane_of_retire {i : Instr} (he : ∀ s, exec i s = issueEach i s fun s _ => (s, .go)) : Lane i fun _ => {} := by
  intro s h
  refine gives_lane h (fun _ => {}) (by simp) ((he s).trans ?_)
  have hf : (fun (s : State) (_ : TRef) => (s, Fate.go)) = laneTurn fun _ => {} := by
    funext s t
    rw [laneTurn, modThread_same _ _ _ deliver_none]
  rw [hf]; rfl

/-! ## What a heel leaves outstanding (R49) -/

@[simp] theorem awaitOld_length (l : List Out) : (awaitOld l).length = l.length := by
  induction l with
  | nil => rfl
  | cons o r ih => simp [awaitOld, ih]

theorem awaitOld_drop (l : List Out) (k : Nat) : (awaitOld l).drop k = awaitOld (l.drop k) := by
  induction l generalizing k with
  | nil => simp [awaitOld]
  | cons o r ih =>
    cases k with
    | zero => rfl
    | succ k => simp [awaitOld, ih]

theorem awaitOld_counts (l : List Out) : (awaitOld l).countP Out.counts = l.countP Out.counts := by
  induction l with
  | nil => rfl
  | cons o r ih => rw [awaitOld, List.countP_cons, List.countP_cons, ih]; rfl

theorem awaitOld_getElem (l : List Out) (k : Nat) (h : k < l.length) (h' : k < (awaitOld l).length) :
    (awaitOld l)[k] = { l[k] with must := l[k].must || (l[k].counts && decide (6 ≤ ((awaitOld l).drop (k + 1)).countP Out.counts)) } := by
  rw [awaitOld_drop, awaitOld_counts]
  induction l generalizing k with
  | nil => simp at h
  | cons o r ih =>
    cases k with
    | zero => rfl
    | succ k => exact ih k (Nat.lt_of_succ_lt_succ h) (Nat.lt_of_succ_lt_succ h')

/-- A heel retires: the group holds a register that it names. -/
def Out.holdsAny (o : Out) (names : List Nat) : Bool := names.any fun r => decide (o.base ≤ r) && decide (r < o.base + o.n)

/-- A group that a heel with some names has passed. -/
def Out.passed (names : List Nat) (o : Out) : Out := if o.past then o else { o with past := true, named := o.holdsAny names }

theorem heelOuts_eq (names : List Nat) (outs : List Out) : heelOuts names outs = awaitOld (outs.map (Out.passed names)) := rfl

@[simp] theorem heelOuts_length (names : List Nat) (outs : List Out) : (heelOuts names outs).length = outs.length := by simp [heelOuts_eq]

/-- What a heel leaves of the group in place `k`: it must land when six newer ones count (R49). -/
theorem heelOuts_getElem (names : List Nat) (outs : List Out) (k : Nat) (h : k < outs.length) (h' : k < (heelOuts names outs).length) :
    (heelOuts names outs)[k] = { outs[k].passed names with
      must := (outs[k].passed names).must || ((outs[k].passed names).counts && decide (6 ≤ ((heelOuts names outs).drop (k + 1)).countP Out.counts)) } := by
  simp only [heelOuts_eq]
  rw [awaitOld_getElem _ _ (by simpa using h), List.getElem_map]
  rfl

theorem passed_past (names : List Nat) (o : Out) : (o.passed names).past = true := by
  unfold Out.passed; split
  · assumption
  · rfl

theorem passed_named (names : List Nat) (o : Out) : (o.passed names).named = if o.past then o.named else o.holdsAny names := by
  unfold Out.passed; split <;> rfl

theorem passed_rest (names : List Nat) (o : Out) : o.passed names = { o with past := (o.passed names).past, named := (o.passed names).named } := by
  unfold Out.passed; split <;> rfl

theorem isHeel_of_long {i : Instr} {x : BitVec 30} (h : encodeWord i = .long (x ++ 3#2)) : i.isHeel = true := by
  rw [Instr.isHeel, h]
  show (x ++ 3#2).getLsbD 1 = true
  rw [BitVec.getLsbD_append]; rfl

/-! ## EXIT (R33) -/

/-- An instruction that has said itself what becomes of the thread. -/
theorem turn_gone {i : Instr} {f : State → TRef → State × Fate} {s s1 : State} {t : TRef} (h : f s t = (s1, .gone)) : turn i f s t = s1 := by
  rw [turn, h]
  simp only [State.settleFate, State.applyFate]
  exact ite_self _

theorem endSpawned_none (s : State) (t : TRef) (h : (s.warps.all fun w => !w.2.leaven.any fun l => decide (l.2 = t)) = true) : s.endSpawned t = s := by
  have hf : s.warps.find? (fun x => x.2.leaven.any fun l => l.2 = t) = none := by
    rw [List.find?_eq_none]
    intro x hx
    simpa using List.all_eq_true.1 h x hx
  rw [State.endSpawned, hf]

end Sys2Proof.Machine

open Sys2Proof Sys2Proof.Machine

/-- Settles O15: NOP, HEEL and LVEND retire with the heel's groups made pending, JOIN waits behind itself, and EXIT takes its thread out of
the warp. -/
theorem plainLoafEnds : Obligations.PlainLoafEnds := by
  unfold Obligations.PlainLoafEnds
  refine ⟨fun e => lane_of_retire fun _ => rfl, fun e => lane_of_retire fun _ => rfl, fun b a d => lane_of_retire fun _ => rfl,
    fun b a d s t h => ?_, fun s t h => ?_, fun s t h hg hd hs hw => ?_, fun s t h hg hd => ?_, fun s t h hm hg => ?_⟩
  · obtain ⟨th, h1, h2, h3⟩ := alone_thread h
    have hh : (Instr.heel b a d).isHeel = true := isHeel_of_long rfl
    refine (makes_retire h (s1 := s) rfl rfl h1 h3 fun _ _ => rfl).mono ?_ (fun _ => id) fun _ _ => rfl
    intro x hx
    obtain ⟨ho, hst⟩ := hx.heel hh
    rw [hst, ho, h2]
    generalize hn : (Instr.heel b a d).heelNames = names
    have hnames : ∀ o : Out, o.holdsAny names = true ↔ ∃ r ∈ [d.toNat, a.toNat, b.toNat], r ≠ 0 ∧ o.base ≤ r ∧ r < o.base + o.n := by
      intro o
      rw [← hn]
      simp [Out.holdsAny, Instr.heelNames]
    refine ⟨heelOuts_length _ _, fun k hk hk' => ?_, ?_, ?_⟩
    · rw [heelOuts_getElem _ _ _ hk]
      simp only [passed_named, passed_past]
      have hc : Out.counts = fun o : Out => o.named && !o.exempt := rfl
      rw [passed_rest, List.countP_eq_length_filter]
      refine ⟨rfl, ?_, ?_⟩
      · split
        · rfl
        · exact hnames _
      · simp [hc, passed_named, and_assoc]
    · split
      exacts [.inl rfl, .inr rfl]
    · simp
  · obtain ⟨th, h1, h2, h3⟩ := alone_thread h
    refine (makes_rest h (s1 := s) rfl rfl h1 h3).mono ?_ (fun _ => id) fun _ _ => rfl
    rintro x rfl
    rw [h2]
    exact ⟨rfl, rfl, rfl, heel_outs _ _, rfl⟩
  · obtain ⟨th, h1, h2, h3⟩ := alone_thread h
    have he : s.exitNow t = (((s.setThread t { th with st := .exited, outs := [] }).unplace t).departed t false) := by
      unfold State.exitNow
      rw [modThread_of_some _ _ _ h1]
      simp only
      exact congrArg (State.departed · t false) (endSpawned_none _ t hw)
    have hD := departed_spec ((s.setThread t { th with st := .exited, outs := [] }).unplace t) t false
    rw [← he] at hD
    have hx : exec .exit s = .next ((s.exitNow t).keepPort .exit [t]) := by
      refine (issueEach_alone h _).trans ?_
      rw [turn_gone (s1 := s.exitNow t) (by simp [hg, hd, hs])]
    obtain ⟨x, hx1, hx2, -⟩ := hD.thread t { th with st := .exited, outs := [] } (by rw [thread?_unplace, thread?_setThread_self])
    have hx2 := hx2 fun i => nofun
    generalize s.exitNow t = y at *
    refine ⟨_, hx, ?_, ?_, ?_, ?_⟩
    · rw [thread?_keepPort, hx1, hx2]; rfl
    · rw [thread?_keepPort, hx1, hx2]; rfl
    · rw [group_keepPort, if_pos (isHeel_of_long rfl)]; simp
    · have hr := hD.rest
      show y.mem = s.mem ∧ y.l2 = s.l2 ∧ y.rdc = s.rdc ∧ y.parts = s.parts ∧ y.launches = s.launches
      rw [hr]
      exact ⟨rfl, rfl, rfl, rfl, rfl⟩
  · obtain ⟨th, h1, h2, h3⟩ := alone_thread h
    refine (makes_wait h (s1 := s) (w := .access .exit) rfl ?_ h1 h3).mono ?_ (fun _ => id) fun _ _ => rfl
    · simp [hg, hd, Option.isSome_iff_ne_none]
    · rintro x rfl; rw [h2]
  · obtain ⟨w, hw⟩ := Option.ne_none_iff_exists'.1 hg
    refine faults_of h hm (f := _) rfl ?_
    simp only [hw]; rfl
end

section
/-! PROOFS. Illegal words (R19, R26, R27, R47, R52, R53): the threads of a group Halted one after another, and what an instruction does for the
threads that remain. -/

namespace Sys2Proof.Machine

/-! ## Slots with a live thread -/

theorem tget_of_mem {κ α : Type} [DecidableEq κ] {l : List (κ × α)} {x : κ × α} (hn : (l.map Prod.fst).Nodup) (h : x ∈ l) : tget l x.1 = some x.2 := by
  induction l with
  | nil => simp at h
  | cons p r ih =>
    obtain ⟨a, w⟩ := p
    rw [List.map_cons, List.nodup_cons] at hn
    rcases List.mem_cons.1 h with rfl | h
    · simp [tget]
    · have hm : x.1 ∈ r.map Prod.fst := List.mem_map_of_mem h
      have hne : a ≠ x.1 := fun e => hn.1 (e ▸ hm)
      rw [tget, if_neg hne, ih hn.2 h]

theorem slotLive_of_thread {s : State} {t : TRef} {th : Thread} (h : s.thread? t = some th) (hl : th.live = true) : s.slotLive t.core t.slot = true := by
  rw [State.slotLive, List.any_eq_true]
  exact ⟨_, mem_of_tget h, by simp [hl]⟩

theorem slotLive_iff {s : State} (hn : (s.threads.map Prod.fst).Nodup) (c sl : Nat) :
    s.slotLive c sl = true ↔ ∃ t th, s.thread? t = some th ∧ t.core = c ∧ t.slot = sl ∧ th.live = true := by
  constructor
  · intro h
    rw [State.slotLive, List.any_eq_true] at h
    obtain ⟨x, hx, hp⟩ := h
    simp only [Bool.and_eq_true, decide_eq_true_eq] at hp
    exact ⟨x.1, x.2, tget_of_mem hn hx, hp.1.1, hp.1.2, hp.2⟩
  · rintro ⟨t, th, h, rfl, rfl, hl⟩
    exact slotLive_of_thread h hl

/-! ## The record of illegal words (R27) -/

theorem ErrRec.at_note (r : ErrRec) (now who : Nat) (e : ErrWord) : (r.note now who e).at_ now = r.note now who e := by
  have hc : (r.note now who e).cyc = now := by
    have : (r.at_ now).cyc = now := by
      unfold at_; split
      · assumption
      · rfl
    unfold note; simp only; split <;> exact this
  rw [at_, if_pos hc]

/-- An event comes before the illegal words of its cycle that are recorded, or after them. -/
theorem ErrRec.note_eq (r : ErrRec) (now who : Nat) (e : ErrWord) :
    r.note now who e = if e.firstv = true ∧ ((r.at_ now).recent.firstv = false ∨ who < (r.at_ now).who)
      then { r.at_ now with recent := e.join (r.at_ now).recent, who := who } else { r.at_ now with recent := (r.at_ now).recent.join e } := by
  unfold note
  simp

/-- The same event noted again from the same place changes nothing. -/
theorem ErrRec.note_note (r : ErrRec) (now who : Nat) (e : ErrWord) : (r.note now who e).note now who e = r.note now who e := by
  rw [note_eq (r.note now who e), at_note]
  rw [note_eq r]
  generalize r.at_ now = a
  split_ifs <;> grind [ErrWord.join]

/-- What noting an illegal word makes of the word of a context: the first one is recorded. -/
theorem ErrRec.note_ill (r : ErrRec) (now who : Nat) (is16 : Bool) (maj : BitVec 6) :
    let e := r.old.join r.recent
    let e' := (r.note now who (errILL is16 maj)).old.join (r.note now who (errILL is16 maj)).recent
    let first : Prop := e.firstv = false ∨ (r.cyc = now ∧ r.old.firstv = false ∧ who < r.who)
    (first → e' = { e with ill := true, firstv := true, first16 := is16, firstmaj := maj }) ∧ (¬first → e' = { e with ill := true }) := by
  intro e e' first
  simp only [e, e', first, note_eq, at_]
  by_cases hc : r.cyc = now
  · simp only [hc, if_true]
    split_ifs <;> grind [ErrWord.join, errILL]
  · simp only [hc, if_false]
    split_ifs <;> grind [ErrWord.join, errILL]

/-! ## The threads of a group Halted one after another (R53) -/

/-- A thread of an issue group that an illegal word may halt with a record in the error word of `o`. -/
structure Victim (s : State) (o : Own) (t : TRef) : Prop where
  here : ∃ th, s.thread? t = some th ∧ th.st = .running
  leaven : (s.thread t).leaven = false
  own : s.ownOf t = o
  core : t.core = s.curCore

/-- Some threads of a group have been Halted for one reason, recorded as from slot `sl`. -/
structure HaltedAll (s s' : State) (o : Own) (sl : Nat) (e : ErrWord) (ts : List TRef) : Prop where
  rest : s' = { s with parts := s'.parts, threads := s'.threads, warps := s'.warps, blocks := s'.blocks, cores := s'.cores }
  record : s'.errRec o = if ts = [] then s.errRec o else (s.errRec o).note s.clock (s.curCore * 64 + sl) e
  ports : (s'.core s.curCore).p0 = (s.core s.curCore).p0.filter (· ∉ ts) ∧ (s'.core s.curCore).p1 = (s.core s.curCore).p1.filter (· ∉ ts)
  blk : ∀ c n, (s'.warp c n).blk = (s.warp c n).blk
  own : ∀ b, s'.ownBlk b = s.ownBlk b
  keys : s'.threads.map Prod.fst = s.threads.map Prod.fst
  halted : ∀ t ∈ ts, ∃ th', s'.thread? t = some th' ∧ th' = { s.thread t with st := .halted, g := th'.g, tokens := th'.tokens } ∧
    th'.g = if s'.slotLive t.core t.slot = true then (s.thread t).g else Vector.replicate 124 0
  others : ∀ u ∉ ts, ∀ th, s.thread? u = some th → th.st = .running → ∃ th', s'.thread? u = some th' ∧ th' = { th with tokens := th'.tokens }

theorem haltedAll_nil (s : State) (o : Own) (sl : Nat) (e : ErrWord) : HaltedAll s s o sl e [] :=
  ⟨rfl, rfl, by simp, fun _ _ => rfl, fun _ => rfl, rfl, by simp, fun _ _ th h _ => ⟨th, h, rfl⟩⟩

/-- Only the slot of the thread that halts can lose its last live thread. -/
theorem slotLive_halt {s : State} (hn : (s.threads.map Prod.fst).Nodup) (t : TRef) (c sl : Nat) :
    let s' := s.modThread t fun th => { th with st := .halted }
    (s'.slotLive c sl = true → s.slotLive c sl = true) ∧ (¬(t.core = c ∧ t.slot = sl) → s'.slotLive c sl = s.slotLive c sl) := by
  intro s'
  have hn' : (s'.threads.map Prod.fst).Nodup := by rw [keys_modThread]; exact hn
  have hto : s'.slotLive c sl = true → s.slotLive c sl = true := by
    rw [slotLive_iff hn, slotLive_iff hn']
    rintro ⟨u, th, hu, hc, hs, hl⟩
    rw [thread?_modThread] at hu
    by_cases e : t = u
    · rw [if_pos e] at hu
      obtain ⟨x, -, rfl⟩ := Option.map_eq_some_iff.1 hu
      exact absurd hl (by simp [Thread.live])
    · rw [if_neg e] at hu; exact ⟨u, th, hu, hc, hs, hl⟩
  refine ⟨hto, fun hne => Bool.eq_iff_iff.2 ⟨hto, ?_⟩⟩
  rw [slotLive_iff hn, slotLive_iff hn']
  rintro ⟨u, th, hu, hc, hs, hl⟩
  have e : t ≠ u := fun e => hne ⟨e ▸ hc, e ▸ hs⟩
  exact ⟨u, th, by rw [thread?_modThread, if_neg e]; exact hu, hc, hs, hl⟩

theorem haltedAll_snoc {s a : State} {o : Own} {sl : Nat} {e : ErrWord} {ts : List TRef} {t : TRef} (hn : (s.threads.map Prod.fst).Nodup)
    (hp : e.par = false) (h : HaltedAll s a o sl e ts) (hv : Victim s o t) (ht : t ∉ ts) :
    HaltedAll s (a.haltAs sl t e) o sl e (ts ++ [t]) := by
  obtain ⟨x, hx, hr⟩ := hv.here
  obtain ⟨y, hy, ey⟩ := h.others t ht x hx hr
  have hys : (a.thread t).leaven = false := by
    have := hv.leaven
    rw [thread_of_some _ _ hx] at this
    rw [thread_of_some _ _ hy, ey]; exact this
  have hao : a.ownOf t = o := by rw [State.ownOf, h.own, State.blkOf, h.blk]; exact hv.own
  have hna : (a.threads.map Prod.fst).Nodup := h.keys ▸ hn
  have hh := haltAs_spec a sl t e hys hp
  have hl := slotLive_halt hna t
  generalize a.haltAs sl t e = b at *
  have hcore : t.core = s.curCore := hv.core
  refine ⟨?_, ?_, ?_, fun c n => (hh.blk c n).trans (h.blk c n), fun c => (hh.own c).trans (h.own c), hh.keys.trans h.keys, ?_, ?_⟩
  · rw [hh.rest, h.rest]
  · have hbr : b.errRec o = (a.errRec o).note a.clock (t.core * 64 + sl) e := by
      have hb : b.errRec o = (a.modErr o fun r => r.note a.clock (t.core * 64 + sl) e).errRec o := by
        rw [State.errRec, State.partn, hh.parts, hao]; rfl
      rw [hb, errRec_modErr, if_pos rfl]
    have hclock : a.clock = s.clock := by rw [h.rest]
    rw [hbr, h.record, hclock, hcore, if_neg (by simp : ts ++ [t] ≠ [])]
    split
    · rfl
    · exact ErrRec.note_note _ _ _ _
  · obtain ⟨p0, p1⟩ := hh.ports s.curCore
    rw [p0, p1, h.ports.1, h.ports.2, if_pos hcore.symm, if_pos hcore.symm, List.filter_filter, List.filter_filter]
    simp [and_comm]
  · intro u hu
    by_cases hut : u = t
    · subst hut
      obtain ⟨w, hw, ew, gw⟩ := hh.thread u { y with st := .halted } (by rw [thread?_modThread, if_pos rfl, hy]; rfl)
      have ew := ew fun i => nofun
      refine ⟨w, hw, ?_, ?_⟩
      · rw [ew, ey, thread_of_some _ _ hx]
      · rw [gw, ey, thread_of_some _ _ hx]
        cases b.slotLive u.core u.slot <;> simp
    · have hu' : u ∈ ts := by simpa [hut] using hu
      obtain ⟨z, hz, ez, gz⟩ := h.halted u hu'
      obtain ⟨w, hw, ew, gw⟩ := hh.thread u z (by rw [thread?_modThread, if_neg (Ne.symm hut)]; exact hz)
      have ew := ew fun i => by rw [ez]; nofun
      refine ⟨w, hw, by rw [ew, ez], ?_⟩
      have hlu := hl u.core u.slot
      simp only at hlu
      rw [← hh.live u.core u.slot] at hlu
      rw [gw, gz]
      by_cases hs : t.core = u.core ∧ t.slot = u.slot
      · rw [hs.1, hs.2]
        cases hb : b.slotLive u.core u.slot with
        | true => simp [hlu.1 hb]
        | false => simp
      · rw [hlu.2 hs, if_neg fun k => hs ⟨k.1.symm, k.2.1.symm⟩]
  · intro u hu th hth hru
    simp only [List.mem_append, List.mem_singleton, not_or] at hu
    obtain ⟨z, hz, ez⟩ := h.others u hu.1 th hth hru
    have hzr : z.st = .running := by rw [ez]; exact hru
    obtain ⟨w, hw, ew, gw⟩ := hh.thread u z (by rw [thread?_modThread, if_neg (Ne.symm hu.2)]; exact hz)
    have ew := ew fun i => by rw [hzr]; nofun
    have hlive : b.slotLive u.core u.slot = true := slotLive_of_thread hw (by rw [ew]; simp [Thread.live, hzr])
    have hg : w.g = z.g := by
      rw [gw, if_neg]
      rintro ⟨hc, hs, hd⟩
      rw [← hc, ← hs, hlive] at hd
      cases hd
    exact ⟨w, hw, by rw [ew, hg, ez]⟩

/-- The threads of a group that a word is illegal for are Halted. -/
theorem haltedAll_foldl {s : State} {o : Own} {sl : Nat} {e : ErrWord} (hn : (s.threads.map Prod.fst).Nodup) (hp : e.par = false) (ts : List TRef)
    (hd : ts.Nodup) (hv : ∀ t ∈ ts, Victim s o t) : HaltedAll s (ts.foldl (fun s t => s.haltAs sl t e) s) o sl e ts := by
  induction ts using List.reverseRecOn with
  | nil => exact haltedAll_nil s o sl e
  | append_singleton ts t ih =>
    rw [List.nodup_append] at hd
    rw [List.foldl_append]
    exact haltedAll_snoc hn hp (ih hd.1 fun u hu => hv u (List.mem_append_left _ hu)) (hv t (by simp)) fun ht => hd.2.2 t ht t (by simp) rfl

/-! ## The checks of an issue (R19, R44, R52, R53) -/

/-- How an instruction issues: what holds its group in place, and what it does for the threads that remain; for none of them it does nothing. -/
structure IssuesBy (i : Instr) (held : State → List TRef → Option State) (body : State → List TRef → State) : Prop where
  eq : ∀ s, exec i s = issueWith i s held body
  held_nil : ∀ s, held s [] = none
  body_nil : ∀ s, body s [] = s

/-- The instruction shares the checks of an issue. -/
def Issues (i : Instr) : Prop := ∃ held body, IssuesBy i held body

section
variable {i : Instr}

theorem issues_each {f : State → TRef → State × Fate} (h : ∀ s, exec i s = issueEach i s f) : Issues i := ⟨_, _, h, fun _ => rfl, fun _ => rfl⟩

theorem issues_lane {f : Thread → Res} (h : ∀ s, exec i s = issueLane i s f) : Issues i := issues_each h

theorem issues_laneAt {f : State → TRef → Thread → Res} (h : ∀ s, exec i s = issueLaneAt i s f) : Issues i := issues_each h

theorem issues_mem {f : State → TRef → Thread → Except TrapInfo State} (h : ∀ s, exec i s = issueMem i s f) : Issues i :=
  ⟨_, _, h, fun _ => rfl, fun _ => rfl⟩

theorem issues_atomic {k : AtomKind} {a : Code} {n : Bool} {d : Code} {b x : Thread → Word} (h : ∀ s, exec i s = issueAtomic i s k a n d b x) : Issues i :=
  issues_mem h

theorem issues_sc {k : ScKind} {a : Code} {n : Bool} {d : Nat} {b x : Thread → Word} (h : ∀ s, exec i s = issueSc i s k a n d b x) : Issues i :=
  ⟨_, _, h, fun _ => rfl, fun _ => rfl⟩

theorem issues_meet {f : Thread → Offer} (h : ∀ s, exec i s = issueMeet i s f) : Issues i := ⟨_, _, h, fun _ => rfl, fun _ => ite_self _⟩

theorem issues_with {body : State → List TRef → State} (h : ∀ s, exec i s = issueWith i s (fun _ _ => none) body) (hb : ∀ s, body s [] = s) : Issues i :=
  ⟨_, _, h, fun _ => rfl, hb⟩

theorem issues_kWrite {base : Nat} {f : Thread → List Word} (h : ∀ s, exec i s = issueKWrite i s base f) : Issues i :=
  ⟨_, _, h, fun _ => rfl, fun _ => rfl⟩

end

/-- Every encoded instruction shares the checks of an issue, and has an effect for the threads alone that pass them (R44, R52, R53). -/
theorem issues_of_encoded (i : Instr) (hi : i.isEncoded = true) : Issues i := by
  cases i with
  | add | sub | and | or | xor | andn | minS | maxS | minU | maxU | absdS | addsatS | shl | shrU | shrS | rotl | mullo | mulhiS | mulhiU | mulwS |
  mad | madwS | dot4I8 | dot4N8 | addi | andi | ori | xori | shli | shriU | shriS | rotli | movh | orl | bfeU | bfeS | bfi | permb | popc | clz |
  brev | neg | icmp | sel | pand | por | pxor | pnot | fadd | fsub | fmul | fmax | ffma | ffms | fnfma | fmad2 | fmin | fcopysign | fabs | fneg |
  fcmp | cvt | pkbf | pkh8 | upkbf | upkh8 | rcp | rsq | ex2 | lg2 | sqrt | sin | cos | tanh | hadd2 | hsub2 | hmul2 | hmax2 | nqx | nqq | hfma2 |
  hfms2 | tcmp | tcvt | refit | vtxq | spcmp | spexp | scac | ptog | gtop | mov | add16 | sub16 | mullo16 | and16 | or16 | xor16 | shl16 | shrU16
  | shrS16 | minS16 | maxS16 | fadd16 | fsub16 | fmul16 | fmax16 => exact issues_lane fun _ => rfl
  | cbx | cbq | rdk | qstat | bsq | rstat | genstat | kstat | clkrd => exact issues_laneAt fun _ => rfl
  | br | jmp | call | jr | callr | ret | exit | join | nop | jtab | heel | kflush | barWait | barInit | yield | take | ldfe | stfe | acq | rel |
  fence | doze | qpush | qpop | qpoll | mxiss | chbeg | chend | boarr | waitph | cpiss | trap | tfence | xret | errclr | rdsp | wrsp | carve |
  sctime | genend | tlbib | lvend | bkpt | waitphSt | errrd => exact issues_each fun _ => rfl
  | ldSc | stSc | aaddSc | aexchSc | acasSc => exact issues_sc fun _ => rfl
  | shflIdx | shflUp | shflDown | shflXor | voteAny | voteAll | voteBallot | voteUni | redaddI | redaddF | redminS | redmaxS | matchLanes |
  compact | scanadd | elect | genbeg | gennext | mxmeta | rsend | rrecv => exact issues_meet fun _ => rfl
  | rayld a n d e => exact issues_mem fun s => (rfl : execRayld a n d e s = _)
  | boxt b a n d e => exact issues_mem fun s => (rfl : execBoxt b a n d e s = _)
  | desc b a n d e => exact issues_mem fun s => (rfl : execDesc b a n d e s = _)
  | asc b a n d e => exact issues_mem fun s => (rfl : execAsc b a n d e s = _)
  | trit a n d e => exact issues_mem fun s => (rfl : execTrit a n d e s = _)
  | hitw a d e => exact issues_mem fun s => (rfl : execHitw a d e s = _)
  | rasts b a n d e => exact issues_mem fun s => (rfl : execRasts b a n d e s = _)
  | rastt b a n d e => exact issues_mem fun s => (rfl : execRastt b a n d e s = _)
  | ldG o x a n d e => exact issues_mem fun s => (rfl : execLdG o x a n d e s = _)
  | stG o x a d e => exact issues_mem fun s => (rfl : execStG o x a d e s = _)
  | ldS o x a n d e => exact issues_mem fun s => (rfl : execLdS o x a n d e s = _)
  | stS o x a d e => exact issues_mem fun s => (rfl : execStS o x a d e s = _)
  | gath b a n d e => exact issues_mem fun s => (rfl : execGath b a n d e s = _)
  | scat b a d e => exact issues_mem fun s => (rfl : execScat b a d e s = _)
  | gathS b a n d e => exact issues_mem fun s => (rfl : execGathS b a n d e s = _)
  | scatS b a d e => exact issues_mem fun s => (rfl : execScatS b a d e s = _)
  | bind b a k e => exact issues_mem fun s => (rfl : execBind b a k e s = _)
  | watch a e => exact issues_mem fun s => (rfl : execWatch a e s = _)
  | pref h a e => exact issues_mem fun s => (rfl : execPref h a e s = _)
  | ldraw x a n d e => exact issues_mem fun s => (rfl : execLdraw x a n d e s = _)
  | boinit b a e => exact issues_mem fun s => (rfl : execBoinit b a e s = _)
  | boexp b a e => exact issues_mem fun s => (rfl : execBoexp b a e s = _)
  | tlbil a k e => exact issues_mem fun s => (rfl : execTlbil a k e s = _)
  | aadd b a n d e => exact issues_atomic fun s => (rfl : execAadd b a n d e s = _)
  | amin b a n d e => exact issues_atomic fun s => (rfl : execAmin b a n d e s = _)
  | amax b a n d e => exact issues_atomic fun s => (rfl : execAmax b a n d e s = _)
  | aexch b a n d e => exact issues_atomic fun s => (rfl : execAexch b a n d e s = _)
  | acas c b a n d e => exact issues_atomic fun s => (rfl : execAcas c b a n d e s = _)
  | aand b a n d e => exact issues_atomic fun s => (rfl : execAand b a n d e s = _)
  | aor b a n d e => exact issues_atomic fun s => (rfl : execAor b a n d e s = _)
  | axor b a n d e => exact issues_atomic fun s => (rfl : execAxor b a n d e s = _)
  | wrk k a e => exact issues_kWrite fun s => (rfl : execWrk k a e s = _)
  | cbset a e => exact issues_kWrite fun s => (rfl : execCbset a e s = _)
  | knead b a c => exact issues_with (fun s => (rfl : execKnead b a c s = _)) fun _ => rfl
  | barSync b => exact issues_with (fun s => (rfl : execBarSync b s = _)) fun _ => rfl
  | barArrive b e => exact issues_with (fun s => (rfl : execBarArrive b e s = _)) fun _ => rfl
  | _ => exact absurd hi Bool.false_ne_true

/-- The registers that a HEEL names (R50): g0 is none. -/
theorem regs_names (l : List Nat) : (l.map Src.name).flatMap Src.regs = l.filter (· ≠ 0) := by
  induction l with
  | nil => rfl
  | cons c l ih =>
    rw [List.map_cons, List.flatMap_cons, ih, List.filter_cons, Src.regs]
    by_cases h : c = 0 <;> simp [h]

/-- What follows the checks of a word for the threads `g` that have passed them: parity, the wait in place, and the instruction's own part. -/
def issueRest (i : Instr) (held : State → List TRef → Option State) (body : State → List TRef → State) (s : State) (g : List TRef) : Answer :=
  let s := (g.filter fun t => parityHit i (s.warp t.core t.slot) (s.thread t)).foldl (fun s t => s.halt t haltPAR) s
  let g := g.filter fun t => (s.thread t).st = .running
  if (g.any fun t => waitsInPlace i (s.warp t.core t.slot) (s.thread t)) || s.loadHold (fun s => body s g) then .next s
  else match held s g with
    | some s' => .next s'
    | none => .next ((body s g).keepPort i g)

/-- With no thread left the port is free, and nothing else happens. -/
theorem issueRest_nil {i : Instr} {held : State → List TRef → Option State} {body : State → List TRef → State} (h : IssuesBy i held body) (s : State) :
    issueRest i held body s [] = .next (s.keepPort i []) := by
  simp [issueRest, State.loadHold, h.body_nil, h.held_nil]

/-- A group of Running threads, none of them a leaven thread. -/
structure PlainGroup (s : State) : Prop where
  some : s.group ≠ []
  running : ∀ t ∈ s.group, (s.thread t).st = .running
  leaven : ∀ t ∈ s.group, (s.thread t).leaven = false

theorem issueWith_plain {i : Instr} {s : State} (h : PlainGroup s) (held : State → List TRef → Option State) (body : State → List TRef → State) :
    issueWith i s held body =
      if s.group.any fun t => illegalFor i (s.thread t) then .next ((s.illegal s.group s.group (decide (i.len = 2)) i.maj).keepPort i [])
      else
        let a := s.illegal s.group (s.group.filter fun t => overBudget i (s.thread t)) (decide (i.len = 2)) i.maj
        issueRest i held body a (s.group.filter fun t => (a.thread t).st = .running) := by
  obtain ⟨hne, hrun, hlv⟩ := h
  unfold issueWith
  split
  · rename_i hg; exact absurd hg hne
  · rename_i t0 rest hg
    have h0 : t0 ∈ s.group := by simp [hg]
    have e0 : (s.group.any fun t => decide ((s.thread t).st = .waiting .scHeld)) = false := by
      rw [List.any_eq_false]; intro t ht; simp [hrun t ht]
    rw [← hg]
    simp only [e0, hlv t0 h0, Bool.false_and, if_false, Bool.false_eq_true]
    rfl

/-- What makes a well-formed word illegal for a group (R47, R52). -/
theorem illegalFor_iff {i : Instr} (hw : i.WellFormed) (th : Thread) :
    illegalFor i th = true ↔ (∃ k ∈ i.shape.latches, th.loaf.j ≤ k) ∨ 24 ≤ th.loaf.cnt ∨ (th.loaf.yielded = true ∧ ∃ a e, i = .yield a e) := by
  unfold illegalFor
  rw [show i.wf = true from hw]
  split
  · simp [or_assoc]
  · rename_i hy
    simp [show ∀ a e, i ≠ .yield a e from hy]

theorem firstSlot_eq {g : List TRef} {sl : Nat} (hle : ∀ t ∈ g, sl ≤ t.slot ∧ t.slot < 48) (hex : ∃ t ∈ g, t.slot = sl) : firstSlot g = sl := by
  have key : ∀ (l : List TRef) (m : Nat), sl ≤ m → (∀ t ∈ l, sl ≤ t.slot) → (m = sl ∨ ∃ t ∈ l, t.slot = sl) →
      l.foldl (fun m t => min m t.slot) m = sl := by
    intro l
    induction l with
    | nil => intro m _ _ h; simpa using h
    | cons t l ih =>
      intro m hm hl h
      refine ih _ (le_min hm (hl t (by simp))) (fun u hu => hl u (List.mem_cons_of_mem _ hu)) ?_
      have := hl t (by simp)
      rcases h with h | ⟨u, hu, hs⟩
      · left; show min m t.slot = sl; omega
      · rcases List.mem_cons.1 hu with rfl | hu
        · left; show min m u.slot = sl; omega
        · exact .inr ⟨u, hu, hs⟩
  obtain ⟨t, ht, hs⟩ := hex
  have := (hle t ht).2
  exact key g 47 (by omega) (fun u hu => (hle u hu).1) (.inr ⟨t, ht, hs⟩)

/-- The threads that have been Halted have left the port. -/
theorem HaltedAll.group_eq {s a : State} {o : Own} {sl : Nat} {e : ErrWord} {ts : List TRef} (h : HaltedAll s a o sl e ts) :
    a.group = s.group.filter (· ∉ ts) := by
  have hc : a.curCore = s.curCore ∧ a.curPort = s.curPort := by rw [h.rest]; exact ⟨rfl, rfl⟩
  rw [State.group, hc.1, hc.2, State.group, Core.port, Core.port, h.ports.1, h.ports.2]
  split <;> rfl

/-- Of a group that ran, those that have not been Halted still do. -/
theorem HaltedAll.running_eq {s a : State} {o : Own} {sl : Nat} {e : ErrWord} {ts : List TRef} (h : HaltedAll s a o sl e ts)
    (hv : ∀ t ∈ s.group, Victim s o t) : (s.group.filter fun t => (a.thread t).st = .running) = a.group := by
  rw [h.group_eq]
  refine List.filter_congr fun t ht => ?_
  by_cases hn : t ∈ ts
  · obtain ⟨th', h1, h2, -⟩ := h.halted t hn
    have hst : (a.thread t).st = .halted := by rw [thread_of_some _ _ h1, h2]
    simp [hn, hst]
  · obtain ⟨th, hth, hr⟩ := (hv t ht).here
    obtain ⟨th', h1, h2⟩ := h.others t hn th hth hr
    have hst : (a.thread t).st = .running := by rw [thread_of_some _ _ h1, h2]; exact hr
    simp [hn, hst]

/-- An instruction that passes every check of its word for each thread of its group. -/
theorem exec_passed {i : Instr} {held : State → List TRef → Option State} {body : State → List TRef → State} (h : IssuesBy i held body) {s : State}
    (hp : PlainGroup s) (hl : ∀ t ∈ s.group, illegalFor i (s.thread t) = false) (ho : ∀ t ∈ s.group, overBudget i (s.thread t) = false) :
    exec i s = issueRest i held body s s.group := by
  rw [h.eq, issueWith_plain hp, if_neg (by rw [List.any_eq_true]; rintro ⟨t, ht, k⟩; rw [hl t ht] at k; cases k), filter_none _ _ ho]
  simp only [State.illegal, List.foldl_nil]
  rw [filter_all _ _ fun t ht => by simp [hp.running t ht]]

end Sys2Proof.Machine

open Sys2Proof Sys2Proof.Machine

/-- Settles O59: the threads that the word halts are Halted one after another, and the instruction then does for the rest of the group what it does
for a group of them alone. -/
theorem illegalWords : Obligations.IllegalWords := by
  unfold Obligations.IllegalWords
  intro liveIn plain noted stopped halts illegal beyond
  have hlive : ∀ (s : State) t, liveIn s t ↔ s.slotLive t.core t.slot = true := by
    intro s t
    simp only [liveIn, State.slotLive, Thread.live, List.any_eq_true, Bool.and_eq_true, decide_eq_true_eq, and_assoc]
  have hvictim : ∀ s o sl, plain s o sl → ∀ t ∈ s.group, Victim s o t := by
    rintro s o sl ⟨-, -, hp, -⟩ t ht
    obtain ⟨h1, h2, h3, h4, h5, -⟩ := hp t ht
    obtain ⟨th, hth⟩ := Option.isSome_iff_exists.1 h1
    exact ⟨⟨th, hth, thread_of_some _ _ hth ▸ h2⟩, h3, h4, h5⟩
  have hplain : ∀ s o sl, plain s o sl → PlainGroup s := by
    rintro s o sl ⟨-, -, hp, t, ht, -⟩
    exact ⟨List.ne_nil_of_mem ht, fun u hu => (hp u hu).2.1, fun u hu => (hp u hu).2.2.1⟩
  have hfirst : ∀ s o sl, plain s o sl → firstSlot s.group = sl := by
    rintro s o sl ⟨-, -, hp, hex⟩
    exact firstSlot_eq (fun t ht => ⟨(hp t ht).2.2.2.2.2.1, (hp t ht).2.2.2.2.2.2.1⟩) hex
  -- what halting some threads of the group leaves
  have hall : ∀ s o sl is16 maj ts, plain s o sl → ts.Nodup → (∀ t ∈ ts, t ∈ s.group) → HaltedAll s (s.illegal s.group ts is16 maj) o sl (errILL is16 maj) ts := by
    intro s o sl is16 maj ts hp hd hts
    have := haltedAll_foldl (s := s) (o := o) (sl := sl) (e := errILL is16 maj) hp.2.1 rfl ts hd fun t ht => hvictim s o sl hp t (hts t ht)
    rw [State.illegal, hfirst s o sl hp]
    exact this
  have hnoted : ∀ s a o sl is16 maj ts, ts ≠ [] → HaltedAll s a o sl (errILL is16 maj) ts → noted s o sl is16 maj (a.err o) := by
    intro s a o sl is16 maj ts hne h
    have hr := h.record
    rw [if_neg hne] at hr
    rw [State.err, hr]
    exact ErrRec.note_ill _ _ _ _ _
  have hstopped : ∀ s a o sl e ts, HaltedAll s a o sl e ts → ∀ t ∈ ts, stopped s a t := by
    intro s a o sl e ts h t ht
    obtain ⟨th', h1, h2, h3⟩ := h.halted t ht
    refine ⟨th', h1, h2, fun hl => ?_, fun hl => ?_⟩
    · rw [h3, if_pos ((hlive a t).1 hl)]
    · rw [h3, if_neg (mt (hlive a t).2 hl)]
  have hhalts : ∀ i s o sl is16 maj, plain s o sl → exec i s = .next ((s.illegal s.group s.group is16 maj).keepPort i []) → halts i s o sl is16 maj := by
    intro i s o sl is16 maj hp he
    have h := hall s o sl is16 maj s.group hp hp.1 fun _ h => h
    generalize s.illegal s.group s.group is16 maj = a at *
    refine ⟨_, he, by rw [group_keepPort]; simp, ?_, ?_, ?_, fun t ht => hstopped s a o sl _ _ h t ht⟩
    · have hn := hnoted s a o sl is16 maj _ (hplain s o sl hp).some h
      rwa [err_congr (s := a) (s' := a.keepPort i []) rfl]
    · show a.mem = s.mem; rw [h.rest]
    · show a.l2 = s.l2; rw [h.rest]
  have hill : ∀ (i : Instr) (th : Thread), i.WellFormed → (illegal i th ↔ illegalFor i th = true) := by
    intro i th hw
    exact (illegalFor_iff hw th).symm
  have hbeyond : ∀ (i : Instr) (th : Thread), beyond i th ↔ overBudget i th = true := by
    intro i th
    simp [beyond, overBudget]
  refine ⟨fun s o sl hp => ?_, fun i s o sl hi hp hx => ?_, fun i s o sl hi hp hw hx hb => ?_, fun th b a d p n e => ?_⟩
  · refine hhalts _ _ _ _ _ _ hp ?_
    show execIllegalWord s = _
    unfold execIllegalWord
    split
    · rename_i hg; exact absurd hg (hplain s o sl hp).some
    · rfl
  · refine hhalts _ _ _ _ _ _ hp ?_
    obtain ⟨held, body, h⟩ := issues_of_encoded i hi
    rw [h.eq, issueWith_plain (hplain s o sl hp), if_pos]
    rw [List.any_eq_true]
    by_cases hw : i.WellFormed
    · obtain ⟨t, ht, hti⟩ := hx hw
      exact ⟨t, ht, (hill i _ hw).1 hti⟩
    · obtain ⟨t, ht⟩ := List.exists_mem_of_ne_nil _ (hplain s o sl hp).some
      exact ⟨t, ht, by simp [illegalFor, Bool.eq_false_iff.2 hw]⟩
  · obtain ⟨held, body, h⟩ := issues_of_encoded i hi
    have hpg := hplain s o sl hp
    generalize hts : (s.group.filter fun t => overBudget i (s.thread t)) = ts
    have hmem : ∀ t, t ∈ ts ↔ t ∈ s.group ∧ beyond i (s.thread t) := by
      intro t; rw [← hts, List.mem_filter, hbeyond]
    have hne : ts ≠ [] := by
      obtain ⟨t, ht, hbt⟩ := hb
      exact List.ne_nil_of_mem ((hmem t).2 ⟨ht, hbt⟩)
    have ha := hall s o sl (decide (i.len = 2)) i.maj ts hp (hts ▸ hp.1.filter _) fun t ht => ((hmem t).1 ht).1
    have hexec : exec i s = _ := (h.eq s).trans (issueWith_plain hpg held body)
    have hnot : ∀ t ∈ s.group, illegalFor i (s.thread t) = false := fun t ht => Bool.eq_false_iff.2 fun k => hx t ht ((hill i _ hw).2 k)
    rw [if_neg (by rw [List.any_eq_true]; rintro ⟨t, ht, k⟩; rw [hnot t ht] at k; cases k)] at hexec
    simp only [hts] at hexec
    generalize s.illegal s.group ts (decide (i.len = 2)) i.maj = a at *
    have hstay : ∀ t ∈ s.group, t ∉ ts → ∃ th', a.thread? t = some th' ∧ th' = { s.thread t with tokens := th'.tokens } := by
      intro t ht hn
      obtain ⟨⟨th, hth, hr⟩, -⟩ := hvictim s o sl hp t ht
      rw [thread_of_some _ _ hth]
      exact ha.others t hn th hth hr
    have hgroup := ha.group_eq
    rw [ha.running_eq (hvictim s o sl hp)] at hexec
    have hnoted1 := hnoted s a o sl _ _ ts hne ha
    have hmem1 : ∀ t, t ∈ a.group ↔ t ∈ s.group ∧ ¬beyond i (s.thread t) := by
      intro t
      rw [hgroup, List.mem_filter, decide_eq_true_eq, hmem]
      exact ⟨fun k => ⟨k.1, fun kb => k.2 ⟨k.1, kb⟩⟩, fun k => ⟨k.1, fun kb => k.2 kb.2⟩⟩
    have hsub : List.Sublist a.group s.group := hgroup ▸ List.filter_sublist
    have hthreads : ∀ t ∈ s.group, (beyond i (s.thread t) → stopped s a t) ∧
        (¬beyond i (s.thread t) → ∃ th', a.thread? t = some th' ∧ th' = { s.thread t with tokens := th'.tokens }) := fun t ht =>
      ⟨fun k => hstopped s a o sl _ ts ha t ((hmem t).2 ⟨ht, k⟩), fun k => hstay t ht fun hn => k ((hmem t).1 hn).2⟩
    have hm : a.mem = s.mem ∧ a.l2 = s.l2 := by rw [ha.rest]; exact ⟨rfl, rfl⟩
    by_cases hg : a.group = []
    · -- nobody is left, and the port is free
      rw [hg, issueRest_nil h] at hexec
      have hk : (a.keepPort i []).group = a.group := by rw [group_keepPort, hg]; simp
      refine ⟨a.keepPort i [], ?_, hm.1, hm.2, fun t => by rw [hk]; exact hmem1 t, by rw [hk]; exact hsub, hthreads, fun _ => hexec, fun k => ?_⟩
      · rwa [err_congr (s := a) (s' := a.keepPort i []) rfl]
      · exact absurd (hk.trans hg) k
    · refine ⟨a, hnoted1, hm.1, hm.2, hmem1, hsub, hthreads, fun k => absurd k hg, fun _ => ?_⟩
      have hcopy : ∀ t ∈ a.group, ∃ th', a.thread t = th' ∧ th' = { s.thread t with tokens := th'.tokens } := by
        intro t ht
        obtain ⟨th', h1, h2⟩ := (hthreads t ((hmem1 t).1 ht).1).2 ((hmem1 t).1 ht).2
        exact ⟨th', thread_of_some _ _ h1, h2⟩
      rw [hexec, exec_passed h ⟨hg, fun t ht => ?_, fun t ht => ?_⟩ (fun t ht => ?_) fun t ht => ?_]
      all_goals
        have hts := ((hmem1 t).1 ht).1
        obtain ⟨th', h1, h2⟩ := hcopy t ht
        rw [h1, h2]
      · exact hpg.running t hts
      · exact hpg.leaven t hts
      · exact hnot t hts
      · exact Bool.eq_false_iff.2 fun k => ((hmem1 t).1 ht).2 ((hbeyond i _).2 k)
  · intro over_ word pair
    have hr : ∀ {i : Instr} {l : List Nat}, i.shape.regs = l → (beyond i th ↔ over_ l) := by rintro i l rfl; exact Iff.rfl
    have hnone : ∀ {i : Instr}, i.shape.regs = [] → ¬beyond i th := by rintro i h ⟨r, hr, -⟩; rw [h] at hr; cases hr
    have hlist (b : Nat) : List.range' b 2 = [b, b + 1] := rfl
    refine ⟨hr ?_, hr ?_, hr ?_, fun _ => hr ?_, hnone rfl, hnone ?_⟩
    · simp [Instr.shape, Shape.regs, Src.regs, word]
    · simp [Instr.shape, Shape.regs, Src.regs, word, hlist]
    · simp [Instr.shape, Shape.regs, Src.regs, pair, List.range'_eq_map_range]
    · exact (List.append_nil _).trans (regs_names [d.toNat, a.toNat, b.toNat])
    · rfl
end

section
/-! PROOFS. The sifter reads its descriptor through the L1 of its core (R208, R243). What the read evicts is written back to its home, and the
write fires the watches on the line (R207, R262): a thread that waits for no sifter is then not left as it was. -/

namespace Sys2Proof.Machine

/-- The block whose sifter runs, of a launch of its own on core 0: 23 of the 24 ways of the core are its scratchpad, so the L1 has one way. -/
def siftBlk : BRef := ⟨1, 0⟩

/-- Its descriptor lies at 0x20100, in line 0x402, and is malformed: it names a peer (R294). -/
def siftLaunch : Launch :=
  { part := 0, tenant := 0, slot := 0, hdr := 0, recVa := 0, prio := 0, serial := false, placed := true, blocksLeft := 1,
    lrec := { LRec.of [] with transforms := [0x20100] }, tree := { parents := [], deliv := false, timeout := 0 } }

/-- A dirty line of the set of line 0x402. -/
def siftVictim : CLine :=
  { line := 0x482, part := 0, tenant := 0, way := 23, age := 0, cmp := false, stamp := {}, bytes := [⟨0, 7, true⟩], poison := [] }

/-- The running thread of another block watches the dirty line (R262). -/
def siftState : State :=
  let s := State.reset.bare
  let blk : Block := { s.block ⟨0, 0⟩ with slots := [1], scratch := 23 * 16384, pways := List.range 23, sift := [0] }
  let s := (s.modThread ⟨0, 0, 0⟩ fun th => { th with watch := { line := 0x482, armed := true, tracked := true } }).setBlock siftBlk blk
  let s := s.modCore 0 fun c => { c with l1 := [siftVictim] }
  { s with mem := cellWrite s.mem 0x20108 [1], launches := [(1, siftLaunch)], arg := { blk := siftBlk } }

/-- The bytes that the sifter reads. -/
def siftDesc : List Byte := List.replicate 8 0 ++ [1] ++ List.replicate 55 0

/-- The state once its slot is taken. -/
def siftTaken : State := siftState.setBlock siftState.arg.blk { siftState.block siftState.arg.blk with sift := [] }

/-- The watch of a thread has fired. -/
def watchFired (s : State) (t : TRef) : Option Bool := (s.thread? t).map fun th => th.watch.fired

theorem siftState_sift : (siftState.block siftState.arg.blk).sift = [0] ∧ (siftState.block? siftState.arg.blk).isSome = true ∧
    (siftState.block siftState.arg.blk).qwait = [] ∧ siftState.launch? siftState.arg.blk.launch = some siftLaunch := by
  decide +kernel

/-- The address of the descriptor, as its launch gives it. -/
def siftAddr : Nat := (siftLaunch.lrec.transforms.getD 0 0).toNat

/-- What the read of the descriptor leaves and answers. -/
def siftRead : State × Except Nat (List Byte) :=
  engineRead siftTaken (siftState.ownBlk siftState.arg.blk) (siftState.block siftState.arg.blk).core false siftAddr 64

theorem siftRead_ok : siftRead.2 = .ok siftDesc := by decide +kernel

theorem siftRead_eq : siftRead = (siftRead.1, .ok siftDesc) := Prod.ext rfl siftRead_ok

theorem siftDesc_refused : (Copy.of siftDesc).mcast = 1 ∧ (Copy.of siftDesc).sumr = false := by decide +kernel

theorem siftState_not_fired : watchFired siftState ⟨0, 0, 0⟩ = some false := by decide +kernel

/-- The slot of the sifter fires the watch of the thread. -/
theorem siftState_fires : ∀ s', exec .sifter siftState = .next s' → watchFired s' ⟨0, 0, 0⟩ = some true := by
  have h : (match exec .sifter siftState with | .next s' => watchFired s' ⟨0, 0, 0⟩ | _ => some true) = some true := by decide +kernel
  intro s' hs
  rwa [hs] at h

/-- The watch of a running thread is as it was where the sifter leaves every thread as it was but those that wait for it. -/
theorem watchFired_of_unchanged {s s' : State} {t : TRef} {p : TRef → Thread → Prop} [∀ t th, Decidable (p t th)]
    (h : ∀ t th, s.thread? t = some th → s'.thread? t = some (if p t th then { th with st := .ready } else th)) {b : Bool}
    (hb : watchFired s t = some b) : watchFired s' t = some b := by
  obtain ⟨th, ht, rfl⟩ := Option.map_eq_some_iff.mp hb
  rw [watchFired, h t th ht]
  split <;> rfl

end Sys2Proof.Machine

open Sys2Proof Sys2Proof.Machine

/-- Refutes O44: the sifter's read of a malformed descriptor (R294) evicts a dirty line from the L1 of the core, the write-back fires the watch of a
running thread on it (R207, R262), and the statement leaves every thread but those that wait for the sifter as it was. -/
theorem not_copyCommandsAndBlockEnd : ¬ Obligations.CopyCommandsAndBlockEnd := by
  unfold Obligations.CopyCommandsAndBlockEnd
  rintro ⟨-, -, -, -, -, -, -, -, -, -, sifter, -⟩
  obtain ⟨hs, hb, hq, hl⟩ := siftState_sift
  obtain ⟨hm, hr⟩ := siftDesc_refused
  obtain ⟨-, runs⟩ := (sifter siftState 0 [] siftLaunch).2 hs hb hq hl
  obtain ⟨refused, -⟩ := runs siftRead.1 siftDesc [] (fun _ => siftState) (fun _ => siftState) (fun _ => .error 0)
    (fun _ => .error 0) rfl siftRead_eq
  obtain ⟨s', hx, -, -, woken⟩ := refused (.inr (.inr (.inl (hm.trans_ne one_ne_zero)))) hr
  have kept := watchFired_of_unchanged woken siftState_not_fired
  exact absurd (kept.symm.trans (siftState_fires s' hx)) (by decide)

end

section
/-! PROOFS. The encoder and the decoder are each other's inverse (R35 to R43, R52): the word of an instruction is its fields side by side, and a
field of a word that is two pieces is the two fields. -/

namespace Sys2Proof

/-! ## Fields of a word -/

theorem append_inj_iff {n m : Nat} (x x' : BitVec n) (y y' : BitVec m) : x ++ y = x' ++ y' ↔ x = x' ∧ y = y' := by
  constructor
  · intro h
    have hx := congrArg (BitVec.extractLsb' m n) h
    have hy := congrArg (BitVec.extractLsb' 0 m) h
    rw [BitVec.extractLsb'_append_eq_left, BitVec.extractLsb'_append_eq_left] at hx
    rw [BitVec.extractLsb'_append_eq_right, BitVec.extractLsb'_append_eq_right] at hy
    exact ⟨hx, hy⟩
  · rintro ⟨rfl, rfl⟩; rfl

/-- A field made of two pieces. -/
theorem append_eq_extract {v n m : Nat} (w : BitVec v) (lo : Nat) (x : BitVec n) (y : BitVec m) :
    x ++ y = w.extractLsb' lo (n + m) ↔ x = w.extractLsb' (lo + m) n ∧ y = w.extractLsb' lo m := by
  rw [← BitVec.extractLsb'_append_extractLsb'_eq_extractLsb' rfl, append_inj_iff]

theorem eq_extract {v : Nat} (w x : BitVec v) : x = w ↔ x = w.extractLsb' 0 v := by rw [BitVec.extractLsb'_eq_self]

theorem extract_one {v : Nat} (w : BitVec v) (lo : Nat) : w.extractLsb' lo 1 = b1 (w.getLsbD lo) := by
  ext i hi
  obtain rfl : i = 0 := by omega
  simp [b1]

theorem b1_inj (x y : Bool) : b1 x = b1 y ↔ x = y := by revert x y; decide

theorem b1_eq_extract {v : Nat} (w : BitVec v) (lo : Nat) (x : Bool) : b1 x = w.extractLsb' lo 1 ↔ w.getLsbD lo = x := by
  rw [extract_one, b1_inj, eq_comm]

theorem exists_ofNat {n : Nat} (x : BitVec n) : ∃ k < 2 ^ n, BitVec.ofNat n k = x := ⟨x.toNat, x.isLt, by simp⟩

/-! ## Words of 16 bits (R36) -/

/-- A short word, field by field. -/
theorem enc16_eq_iff {b d : Code5} {op : BitVec 4} {e : Bool} {w : BitVec 16} :
    enc16 b d op e = w ↔
      (((b = w.extractLsb' 11 5 ∧ d = w.extractLsb' 6 5) ∧ op = w.extractLsb' 2 4) ∧ w.getLsbD 1 = e) ∧ w.getLsbD 0 = false := by
  rw [eq_extract, enc16, show 0#1 = b1 false from rfl, append_eq_extract]
  simp only [append_eq_extract, b1_eq_extract]

theorem decode16_encodeWord {i : Instr} {w : BitVec 16} (h : encodeWord i = .short w) : w.getLsbD 0 = false ∧ decode16 w = some i := by
  cases i
  any_goals exact EncWord.noConfusion h
  all_goals
    obtain ⟨⟨⟨⟨rfl, rfl⟩, ho⟩, rfl⟩, hL⟩ := enc16_eq_iff.1 (EncWord.short.inj h)
    refine ⟨hL, ?_⟩
    unfold decode16
    rw [← ho]
    rfl

theorem encodeWord_of_decode16 {w : BitVec 16} (hL : w.getLsbD 0 = false) {i : Instr} (h : decode16 w = some i) : encodeWord i = .short w := by
  obtain ⟨k, hk, ho⟩ := exists_ofNat (w.extractLsb' 2 4)
  have hw := enc16_eq_iff.2 ⟨⟨⟨⟨rfl, rfl⟩, ho⟩, rfl⟩, hL⟩
  unfold decode16 at h
  rw [← ho] at h
  interval_cases k <;> exact Option.some.inj h ▸ congrArg EncWord.short hw

/-! ## Words of 32 bits (R37 to R43) -/

theorem append_eq_fld {n m : Nat} (w : BitVec 32) (lo : Nat) (x : BitVec n) (y : BitVec m) :
    x ++ y = fld w lo (n + m) ↔ x = fld w (lo + m) n ∧ y = fld w lo m := append_eq_extract w lo x y

theorem b1_eq_fld (w : BitVec 32) (lo : Nat) (x : Bool) : b1 x = fld w lo 1 ↔ fbit w lo = x := b1_eq_extract w lo x

theorem eq_fld (w x : BitVec 32) : x = w ↔ x = fld w 0 32 := eq_extract w x

theorem eq_fld_comm {n : Nat} {x : BitVec n} {w : BitVec 32} {lo : Nat} : x = fld w lo n ↔ fld w lo n = x := eq_comm

theorem lsb_eq_fld (w : BitVec 32) : w.getLsbD 0 = true ↔ fld w 0 1 = 1#1 := (b1_eq_fld w 0 true).symm.trans eq_fld_comm

theorem fld_eq_split (w : BitVec 32) (lo n m : Nat) (k : BitVec (n + m)) :
    fld w lo (n + m) = k ↔ fld w (lo + m) n = k.extractLsb' m n ∧ fld w lo m = k.extractLsb' 0 m := by
  have hk : k.extractLsb' m n ++ k.extractLsb' 0 m = k := ((eq_extract k _).trans (append_eq_extract k 0 _ _)).2 ⟨by rw [Nat.zero_add], rfl⟩
  conv_lhs => rw [← hk, eq_comm, append_eq_fld]
  rw [eq_fld_comm, eq_fld_comm]

/-! Fields that some rows of a table read whole and others in parts: bits [31:30] stand on their own in most tables, the low bits of
MAJ 0x1E in its own. -/

theorem fld_23_9 (w : BitVec 32) (k : BitVec 9) :
    fld w 23 9 = k ↔ fld w 30 2 = k.extractLsb' 7 2 ∧ fld w 23 7 = k.extractLsb' 0 7 := fld_eq_split w 23 2 7 k
theorem fld_18_14 (w : BitVec 32) (k : BitVec 14) :
    fld w 18 14 = k ↔ fld w 30 2 = k.extractLsb' 12 2 ∧ fld w 18 12 = k.extractLsb' 0 12 := fld_eq_split w 18 2 12 k
theorem fld_18_12 (w : BitVec 32) (k : BitVec 12) :
    fld w 18 12 = k ↔ fld w 23 7 = k.extractLsb' 5 7 ∧ fld w 18 5 = k.extractLsb' 0 5 := fld_eq_split w 18 7 5 k
theorem fld_16_16 (w : BitVec 32) (k : BitVec 16) :
    fld w 16 16 = k ↔ fld w 23 9 = k.extractLsb' 7 9 ∧ fld w 16 7 = k.extractLsb' 0 7 := fld_eq_split w 16 9 7 k
theorem fld_8_24 (w : BitVec 32) (k : BitVec 24) :
    fld w 8 24 = k ↔ fld w 16 16 = k.extractLsb' 8 16 ∧ fld w 8 8 = k.extractLsb' 0 8 := fld_eq_split w 8 16 8 k
theorem fld_8_8 (w : BitVec 32) (k : BitVec 8) :
    fld w 8 8 = k ↔ fld w 12 4 = k.extractLsb' 4 4 ∧ fld w 8 4 = k.extractLsb' 0 4 := fld_eq_split w 8 4 4 k
theorem fld_25_7 (w : BitVec 32) (k : BitVec 7) :
    fld w 25 7 = k ↔ fld w 30 2 = k.extractLsb' 5 2 ∧ fld w 25 5 = k.extractLsb' 0 5 := fld_eq_split w 25 2 5 k
theorem fld_24_8 (w : BitVec 32) (k : BitVec 8) :
    fld w 24 8 = k ↔ fld w 30 2 = k.extractLsb' 6 2 ∧ fld w 24 6 = k.extractLsb' 0 6 := fld_eq_split w 24 2 6 k
theorem fld_29_3 (w : BitVec 32) (k : BitVec 3) :
    fld w 29 3 = k ↔ fld w 30 2 = k.extractLsb' 1 2 ∧ fld w 29 1 = k.extractLsb' 0 1 := fld_eq_split w 29 2 1 k
theorem fld_27_5 (w : BitVec 32) (k : BitVec 5) :
    fld w 27 5 = k ↔ fld w 28 4 = k.extractLsb' 1 4 ∧ fld w 27 1 = k.extractLsb' 0 1 := fld_eq_split w 27 4 1 k
theorem fld_28_4 (w : BitVec 32) (k : BitVec 4) :
    fld w 28 4 = k ↔ fld w 30 2 = k.extractLsb' 2 2 ∧ fld w 28 2 = k.extractLsb' 0 2 := fld_eq_split w 28 2 2 k
theorem fld_26_6 (w : BitVec 32) (k : BitVec 6) :
    fld w 26 6 = k ↔ fld w 30 2 = k.extractLsb' 4 2 ∧ fld w 26 4 = k.extractLsb' 0 4 := fld_eq_split w 26 2 4 k
theorem fld_11_21 (w : BitVec 32) (k : BitVec 21) :
    fld w 11 21 = k ↔ fld w 30 2 = k.extractLsb' 19 2 ∧ fld w 11 19 = k.extractLsb' 0 19 := fld_eq_split w 11 2 19 k
theorem fld_0_2 (w : BitVec 32) (k : BitVec 2) :
    fld w 0 2 = k ↔ fld w 1 1 = k.extractLsb' 1 1 ∧ fld w 0 1 = k.extractLsb' 0 1 := fld_eq_split w 0 1 1 k

/-- The decoders of the MAJ values, in order (R40, R41). -/
def majDecoders : List (BitVec 32 → Option Instr) :=
  [decMaj00, decMaj01, decMaj02, decMaj03, decMaj04, decMaj05, decMaj06, decMaj07, decMaj08, decMaj09, decMaj0A, decMaj0B, decMaj0C, decMaj0D, decMaj0E,
      decMaj0F, decMaj10, decMaj11, decMaj12, decMaj13, decMaj14, decMaj15, decMaj16, decMaj17, decMaj18, decMaj19, decMaj1A, decMaj1B, decMaj1C, decMaj1D,
      decMaj1E, decMaj1F, decMaj20, decMaj21, decMaj22, decMaj23, decMaj24, decMaj25, decMaj26, decMaj27, decMaj28, decMaj29, decMaj2A, decMaj2B, decMaj2C,
      decMaj2D, decMaj2E, decMaj2F, decMaj30, decMaj31, decMaj32, decMaj33, decMaj34, decMaj35, decMaj36, decMaj37, decMaj38, decMaj39, decMaj3A, decMaj3B,
      decMaj3C, decMaj3D, decMaj3E, decMaj3F]

theorem decode32_eq (w : BitVec 32) : decode32 w = (majDecoders[(fld w 2 6).toNat]?.getD fun _ => none) w := by
  unfold decode32
  obtain ⟨k, hk, hM⟩ := exists_ofNat (fld w 2 6)
  rw [← hM]
  interval_cases k <;> rfl

/-- The fields of the word lead the decoder to the row of its instruction: the word's fields are taken apart, and where a row before it
reads them otherwise, both are. -/
theorem decode32_encodeWord {i : Instr} {w : BitVec 32} (h : encodeWord i = .long w) : w.getLsbD 0 = true ∧ decode32 w = some i := by
  rw [lsb_eq_fld]
  cases i
  any_goals exact EncWord.noConfusion h
  all_goals
    replace h := EncWord.long.inj h
    rw [eq_fld, append_eq_fld] at h
    simp only [append_eq_fld, b1_eq_fld] at h
    have hs := h
    simp only [Nat.reduceAdd, eq_fld_comm] at h
    simp only [Nat.reduceAdd, eq_fld_comm, fld_23_9, fld_18_14, fld_18_12, fld_16_16, fld_8_24, fld_8_8, fld_25_7, fld_24_8, fld_29_3,
      fld_27_5, fld_28_4, fld_26_6, fld_11_21, fld_0_2, BitVec.reduceExtractLsb'] at hs
    refine ⟨by simp only [hs], ?_⟩
    simp only [decode32_eq, h, majDecoders, BitVec.reduceToNat, List.getElem?_cons_succ, List.getElem?_cons_zero, Option.getD_some]
    simp only [decMaj00, decMaj01, decMaj02, decMaj03, decMaj04, decMaj05, decMaj06, decMaj07, decMaj08, decMaj09, decMaj0A, decMaj0B, decMaj0C, decMaj0D, decMaj0E,
        decMaj0F, decMaj10, decMaj11, decMaj12, decMaj13, decMaj14, decMaj15, decMaj16, decMaj17, decMaj18, decMaj19, decMaj1A, decMaj1B, decMaj1C, decMaj1D,
        decMaj1E, decMaj1F, decMaj20, decMaj21, decMaj22, decMaj23, decMaj24, decMaj25, decMaj26, decMaj27, decMaj28, decMaj29, decMaj2A, decMaj2B, decMaj2C,
        decMaj2D, decMaj2E, decMaj2F, decMaj30, decMaj31, decMaj32, decMaj33, decMaj34, decMaj35, decMaj36, decMaj37, decMaj38, decMaj39, decMaj3A, decMaj3B,
        decMaj3C, decMaj3D, decMaj3E, decMaj3F,
      h, hs, fld_23_9, fld_18_14, fld_18_12, fld_16_16, fld_8_24, fld_8_8, fld_25_7, fld_24_8, fld_29_3,
      fld_27_5, fld_28_4, fld_26_6, fld_11_21, BitVec.reduceExtractLsb']
    simp

/-- Every instruction that `o` names for the word `w` has that word. -/
def Reads (w : BitVec 32) (o : Option Instr) : Prop := ∀ i, o = some i → encodeWord i = .long w

theorem reads_none (w : BitVec 32) : Reads w none := nofun

/-- A row of a decoding table: where its fixed fields match, the fields of the word make up the word of its instruction. -/
theorem reads_row {w : BitVec 32} {c : Prop} [Decidable c] {i : Instr} {r : Option Instr} (h : c → encodeWord i = .long w) (hr : Reads w r) :
    Reads w (if c then some i else r) := by
  split
  · rintro _ ⟨⟩
    exact h ‹_›
  · exact hr

theorem decode32_reads {w : BitVec 32} (hL : w.getLsbD 0 = true) : Reads w (decode32 w) := by
  rw [lsb_eq_fld] at hL
  obtain ⟨k, hk, hM⟩ := exists_ofNat (fld w 2 6)
  rw [decode32_eq, ← hM]
  interval_cases k
  all_goals
    simp only [majDecoders, BitVec.reduceToNat, List.getElem?_cons_succ, List.getElem?_cons_zero, Option.getD_some]
    repeat' refine reads_row ?_ ?_
    any_goals exact reads_none w
  all_goals
    intro h
    refine congrArg EncWord.long ?_
    rw [eq_fld, append_eq_fld]
    simp only [append_eq_fld, b1_eq_fld]
    simp only [Nat.reduceAdd, eq_fld_comm]
    simp [h, ← hM, hL, fld_0_2]

/-! ## Bytes (R35) -/

theorem exists_bytes_long (w : BitVec 32) : ∃ b0 b1 b2 b3 : Byte, b3 ++ b2 ++ b1 ++ b0 = w := by
  refine ⟨w.extractLsb' 0 8, w.extractLsb' 8 8, w.extractLsb' 16 8, w.extractLsb' 24 8, ?_⟩
  rw [eq_extract, append_eq_extract]
  simp only [append_eq_extract, and_self]

theorem exists_bytes_short (w : BitVec 16) : ∃ b0 b1 : Byte, b1 ++ b0 = w := by
  refine ⟨w.extractLsb' 0 8, w.extractLsb' 8 8, ?_⟩
  rw [eq_extract, append_eq_extract]
  exact ⟨rfl, rfl⟩

theorem leBytes_append {n : Nat} (k : Nat) (x : BitVec n) (b : Byte) : leBytes (k + 1) (x ++ b).toNat = b :: leBytes k x.toNat := by
  have h : (x ++ b).toNat = x.toNat * 256 + b.toNat := by
    rw [BitVec.toNat_append, ← Nat.shiftLeft_add_eq_or_of_lt b.isLt, Nat.shiftLeft_eq]
  rw [h, leBytes]
  congr 1
  · apply BitVec.eq_of_toNat_eq; rw [BitVec.toNat_ofNat]; omega
  · congr 1; omega

theorem bytes_long (b0 b1 b2 b3 : Byte) : (EncWord.long (b3 ++ b2 ++ b1 ++ b0)).bytes = [b0, b1, b2, b3] := by
  simp only [EncWord.bytes, leBytes_append]; simp [leBytes]

theorem bytes_short (b0 b1 : Byte) : (EncWord.short (b1 ++ b0)).bytes = [b0, b1] := by
  simp only [EncWord.bytes, leBytes_append]; simp [leBytes]

theorem wellFormedOnly_eq_some {o : Option Instr} {i : Instr} : wellFormedOnly o = some i ↔ o = some i ∧ i.WellFormed := by
  cases o with
  | none => simp [wellFormedOnly]
  | some j =>
    rw [wellFormedOnly, Option.ite_none_right_eq_some, Option.some.injEq]
    exact ⟨fun ⟨h, e⟩ => ⟨e, e ▸ h⟩, fun ⟨e, h⟩ => ⟨e ▸ h, e⟩⟩

/-- The L bit of a word is that of its first byte. -/
theorem lsb_append {n : Nat} (x : BitVec n) (b : Byte) : (x ++ b).getLsbD 0 = b.getLsbD 0 := by rw [BitVec.getLsbD_append]; rfl

theorem decode_long {b0 : Byte} (h : b0.getLsbD 0 = true) (b1 b2 b3 : Byte) (rest rest' : List Byte) (i : Instr) :
    decode (b0 :: b1 :: b2 :: b3 :: rest) = some (i, rest') ↔ (decode32 (b3 ++ b2 ++ b1 ++ b0) = some i ∧ i.WellFormed) ∧ rest = rest' := by
  rw [← wellFormedOnly_eq_some]
  simp only [decode, h, if_true]
  cases wellFormedOnly (decode32 (b3 ++ b2 ++ b1 ++ b0)) <;> simp

theorem decode_short {b0 : Byte} (h : b0.getLsbD 0 = false) (b1 : Byte) (rest rest' : List Byte) (i : Instr) :
    decode (b0 :: b1 :: rest) = some (i, rest') ↔ (decode16 (b1 ++ b0) = some i ∧ i.WellFormed) ∧ rest = rest' := by
  rw [← wellFormedOnly_eq_some]
  simp only [decode, h, if_false, Bool.false_eq_true]
  cases wellFormedOnly (decode16 (b1 ++ b0)) <;> simp

/-- Bytes that decode are a short word or a long word, as bit 0 of the first says. -/
theorem decode_cases {bs rest : List Byte} {i : Instr} (h : decode bs = some (i, rest)) :
    (∃ b0 b1, b0.getLsbD 0 = false ∧ bs = b0 :: b1 :: rest ∧ decode16 (b1 ++ b0) = some i ∧ i.WellFormed) ∨
    ∃ b0 b1 b2 b3, b0.getLsbD 0 = true ∧ bs = b0 :: b1 :: b2 :: b3 :: rest ∧ decode32 (b3 ++ b2 ++ b1 ++ b0) = some i ∧ i.WellFormed := by
  match bs with
  | [] | [_] => cases h
  | b0 :: b1 :: bs =>
    cases hL : b0.getLsbD 0 with
    | false =>
      obtain ⟨⟨hd, hw⟩, rfl⟩ := (decode_short hL ..).1 h
      exact .inl ⟨b0, b1, hL, rfl, hd, hw⟩
    | true =>
      match bs with
      | [] | [_] => simp [decode, hL] at h
      | b2 :: b3 :: bs =>
        obtain ⟨⟨hd, hw⟩, rfl⟩ := (decode_long hL ..).1 h
        exact .inr ⟨b0, b1, b2, b3, hL, rfl, hd, hw⟩

theorem decode_encode {i : Instr} (hw : i.WellFormed) (he : i.isEncoded = true) (rest : List Byte) : decode (encode i ++ rest) = some (i, rest) := by
  rw [encode]
  cases h : encodeWord i with
  | none => rw [Instr.isEncoded, h] at he; cases he
  | short w =>
    obtain ⟨b0, b1, rfl⟩ := exists_bytes_short w
    obtain ⟨hL, hd⟩ := decode16_encodeWord h
    rw [lsb_append] at hL
    rw [bytes_short]
    exact (decode_short hL ..).2 ⟨⟨hd, hw⟩, rfl⟩
  | long w =>
    obtain ⟨b0, b1, b2, b3, rfl⟩ := exists_bytes_long w
    obtain ⟨hL, hd⟩ := decode32_encodeWord h
    rw [lsb_append] at hL
    rw [bytes_long]
    exact (decode_long hL ..).2 ⟨⟨hd, hw⟩, rfl⟩

theorem encode_decode {bs rest : List Byte} {i : Instr} (h : decode bs = some (i, rest)) : i.WellFormed ∧ i.isEncoded = true ∧ encode i ++ rest = bs := by
  obtain ⟨b0, b1, hL, rfl, hd, hw⟩ | ⟨b0, b1, b2, b3, hL, rfl, hd, hw⟩ := decode_cases h
  · have he := encodeWord_of_decode16 ((lsb_append _ _).trans hL) hd
    exact ⟨hw, by rw [Instr.isEncoded, he], by rw [encode, he, bytes_short]; rfl⟩
  · have he := decode32_reads ((lsb_append _ _).trans hL) i hd
    exact ⟨hw, by rw [Instr.isEncoded, he], by rw [encode, he, bytes_long]; rfl⟩
end Sys2Proof

open Sys2Proof Sys2Proof.Machine

/-- Settles O55: the fields of a word are those that its row of the encoding tables lays out, read the one way and the other. -/
theorem decodeAndEncodeAgree : Obligations.DecodeAndEncodeAgree := by
  unfold Obligations.DecodeAndEncodeAgree
  exact ⟨fun i rest hw he => decode_encode hw he rest, fun bs i rest h => encode_decode h⟩

end

section
/-! PROOFS. The 16-bit forms (R36). -/

namespace Sys2Proof.Machine

theorem res_cases_preds {c : Prop} [Decidable c] (d : Nat) (v : Word) (fl : BitVec 5) :
    ∀ x ∈ (if c then ({} : Res) else res1 false d v fl).preds, x.1 < 4 := by
  split
  · simp
  · exact res1_preds _ _ _ _

/-- A 16-bit instruction issued as a lane instruction, with the operation and the flags of its arm. -/
theorem givesHalf_of_issueLane {i : Code5 → Code5 → Bool → Instr} {f : Word → Word → Word} {fl : Word → Word → BitVec 5}
    (he : ∀ b d e s, exec (i b d e) s = issueLane (i b d e) s fun th =>
      if d = 0 then {} else res1 false d.toNat (f (th.word d.toNat) (th.word (code5 b))) (fl (th.word d.toNat) (th.word (code5 b)))) :
    GivesHalf i f fl := by
  intro b d e s h
  have hd : d = 0 ↔ d.toNat = 0 := BitVec.toNat_inj.symm
  have key := gives_lane h _ (fun _ => res_cases_preds _ _ _) (he b d e s)
  simpa only [hd] using key

/-- An integer form whose arm computes `g`. -/
theorem givesHalf_of_half {i : Code5 → Code5 → Bool → Instr} {f : Word → Word → Word} (g : Word → Word → Word) (hg : ∀ a b, g a b = f a b)
    (he : ∀ b d e s, exec (i b d e) s = issueLane (i b d e) s (half g b d)) : GivesHalf i f := by
  obtain rfl : g = f := funext fun a => funext (hg a)
  exact givesHalf_of_issueLane he

/-! ## The operations as R36 and R83 write them -/

theorem add_eq_ofNat (a b : Word) : a + b = BitVec.ofNat 32 (a.toNat + b.toNat) := by simp [BitVec.ofNat_add]
theorem mul_eq_ofNat (a b : Word) : a * b = BitVec.ofNat 32 (a.toNat * b.toNat) := by simp [BitVec.ofNat_mul]
theorem sub_eq_ofInt (a b : Word) : a - b = BitVec.ofInt 32 ((a.toNat : Int) - b.toNat) := by
  apply BitVec.eq_of_toNat_eq
  rw [BitVec.toNat_sub, BitVec.toNat_ofInt]
  omega

theorem shl_eq_ofNat (a b : Word) : shl a b = BitVec.ofNat 32 (a.toNat * 2 ^ (b.toNat % 256)) := by
  apply BitVec.eq_of_toNat_eq
  rw [shl, BitVec.toNat_shiftLeft, BitVec.toNat_ofNat, Nat.shiftLeft_eq]

theorem shrU_eq_ofNat (a b : Word) : shrU a b = BitVec.ofNat 32 (a.toNat / 2 ^ (b.toNat % 256)) := by
  apply BitVec.eq_of_toNat_eq
  rw [shrU, BitVec.toNat_ushiftRight, BitVec.toNat_ofNat, Nat.shiftRight_eq_div_pow, Nat.mod_eq_of_lt (Nat.lt_of_le_of_lt (Nat.div_le_self _ _) a.isLt)]

theorem shrS_eq_ofInt (a b : Word) : shrS a b = BitVec.ofInt 32 (a.toInt / 2 ^ (b.toNat % 256)) := by
  rw [shrS, BitVec.sshiftRight, Int.shiftRight_eq_div_pow, Nat.cast_pow, Nat.cast_ofNat]

theorem minS_eq (a b : Word) : minS a b = if a.toInt < b.toInt then a else b := by
  unfold minS
  rcases lt_trichotomy a.toInt b.toInt with h | h | h
  · rw [if_pos h.le, if_pos h]
  · rw [BitVec.toInt_inj.1 h, ite_self, ite_self]
  · rw [if_neg h.not_ge, if_neg h.not_gt]

theorem maxS_eq (a b : Word) : maxS a b = if a.toInt < b.toInt then b else a := by
  unfold maxS
  rcases lt_trichotomy a.toInt b.toInt with h | h | h
  · rw [if_pos h.le, if_pos h]
  · rw [BitVec.toInt_inj.1 h, ite_self, ite_self]
  · rw [if_neg h.not_ge, if_neg h.not_gt]

end Sys2Proof.Machine

open Sys2Proof Sys2Proof.Machine

/-- Settles O9: each of the sixteen is a lane instruction with the operation of its row. -/
theorem sixteenBitForms : Obligations.SixteenBitForms := by
  unfold Obligations.SixteenBitForms
  exact ⟨givesHalf_of_half (fun _ b => b) (fun _ _ => rfl) fun _ _ _ _ => rfl,
    givesHalf_of_half _ add_eq_ofNat fun _ _ _ _ => rfl, givesHalf_of_half _ sub_eq_ofInt fun _ _ _ _ => rfl,
    givesHalf_of_half _ mul_eq_ofNat fun _ _ _ _ => rfl, givesHalf_of_half _ (fun _ _ => rfl) fun _ _ _ _ => rfl,
    givesHalf_of_half _ (fun _ _ => rfl) fun _ _ _ _ => rfl, givesHalf_of_half _ (fun _ _ => rfl) fun _ _ _ _ => rfl,
    givesHalf_of_half _ shl_eq_ofNat fun _ _ _ _ => rfl, givesHalf_of_half _ shrU_eq_ofNat fun _ _ _ _ => rfl,
    givesHalf_of_half _ shrS_eq_ofInt fun _ _ _ _ => rfl, givesHalf_of_half _ minS_eq fun _ _ _ _ => rfl,
    givesHalf_of_half _ maxS_eq fun _ _ _ _ => rfl, givesHalf_of_issueLane fun _ _ _ _ => rfl, givesHalf_of_issueLane fun _ _ _ _ => rfl,
    givesHalf_of_issueLane fun _ _ _ _ => rfl, givesHalf_of_issueLane fun _ _ _ _ => rfl⟩
end

section

open Sys2Proof Sys2Proof.Machine

/-- Settles O54: the decoder evaluated on each word. -/
theorem specWordsDecode : Obligations.SpecWordsDecode := by
  unfold Obligations.SpecWordsDecode
  intro le w
  exact ⟨rfl, rfl, rfl, rfl, rfl, rfl, rfl, rfl, rfl, rfl, rfl, rfl, rfl, rfl, rfl, rfl, rfl, rfl, rfl, rfl, rfl, rfl, rfl, rfl⟩

end

section
/-! PROOFS. One step from any state (R28, R35, R113, R211, R334). -/

namespace Sys2Proof.Machine

/-! ## The move of a step -/

/-- What comes about behind every move that answers a state. -/
def withAfter (a : Answer) : Answer := match a with | .next t => .next t.after | x => x

theorem step_eq (s : State) : step s = withAfter s.turn := rfl

theorem turn_of_hubq {s : State} {x : Instr × Arg} {rest} (h : s.hubq = x :: rest) : s.turn = exec x.1 { s with hubq := rest, arg := x.2 } := by
  unfold State.turn
  rw [h]
  rfl

theorem turn_of_agenda {s : State} {m : Move} {rest} (h : s.hubq = []) (ha : s.agenda = m :: rest) :
    s.turn = ({ s with agenda := rest } : State).make m := by
  unfold State.turn
  rw [h, ha]

theorem make_event (s : State) (dt : Nat) (a : Arg) {i : Instr} (hi : Instr.isEvent i = true) :
    s.make ⟨dt, .ev i a⟩ = exec i { s.advance dt with arg := a } := if_pos hi

theorem make_issue (s : State) (dt c p : Nat) (fuse defer : Bool) :
    s.make ⟨dt, .issue c p fuse defer⟩ = (s.advance dt).issueAt c p fuse defer := rfl

/-! ## What a port does with the bytes fetched -/

theorem issueAt_fault {s : State} {c p fuse defer t g inf} (hg : (s.atPort c p defer).group = t :: g) (hh : (s.atPort c p defer).coreHalted c = false)
    (hf : (s.atPort c p defer).fetch c ((s.atPort c p defer).ownOf t) ((s.atPort c p defer).thread t).pc = .error inf) :
    s.issueAt c p fuse defer = .next ((s.atPort c p defer).group.foldl (fun s t => s.takeTrap t inf false) (s.atPort c p defer)) := by
  unfold State.issueAt
  simp only [hg, hh, hf]
  rfl

/-- What follows a fetch that gives bytes: poison halts the group, a word of no instruction is illegal, and an instruction is executed
alone or as the first of a fused group. -/
def State.runBytes (s : State) (c : Nat) (o : Own) (pc : Dword) (fuse : Bool) (bs : List Byte) : Answer :=
  if s.codeBad c o pc bs.length then .next (s.group.foldl (fun s t => s.halt t haltPAR) s) else
  match decode bs with
  | none => exec .illegalWord { s with arg := { maj := majOf bs, flag := decide (bs.length = 2) } }
  | some (i, _) =>
    let ms := if fuse then s.fusedAt c o pc else []
    if ms.isEmpty then exec i s else exec .fusedGroup { s with arg := { fused := ms } }

theorem issueAt_bytes {s s1 : State} {c p fuse defer t g bs} (hg : (s.atPort c p defer).group = t :: g) (hh : (s.atPort c p defer).coreHalted c = false)
    (hf : (s.atPort c p defer).fetch c ((s.atPort c p defer).ownOf t) ((s.atPort c p defer).thread t).pc = .ok (s1, bs)) :
    s.issueAt c p fuse defer = s1.runBytes c ((s.atPort c p defer).ownOf t) ((s.atPort c p defer).thread t).pc fuse bs := by
  unfold State.issueAt
  simp only [hg, hh, hf]
  rfl

variable {s : State} {c : Nat} {o : Own} {pc : Dword} {fuse : Bool} {bs : List Byte}

theorem runBytes_bad (h : s.codeBad c o pc bs.length = true) :
    s.runBytes c o pc fuse bs = .next (s.group.foldl (fun s t => s.halt t haltPAR) s) := if_pos h

theorem runBytes_alone {i : Instr} {r} (h : s.codeBad c o pc bs.length = false) (hd : decode bs = some (i, r)) (hf : fuse = false ∨ s.fusedAt c o pc = []) :
    s.runBytes c o pc fuse bs = exec i s := by
  have : (if fuse then s.fusedAt c o pc else []) = [] := by rcases hf with h | h <;> simp [h]
  simp [State.runBytes, h, hd, this]

theorem runBytes_fused {i : Instr} {r} (h : s.codeBad c o pc bs.length = false) (hd : decode bs = some (i, r)) (hf : fuse = true) (hm : s.fusedAt c o pc ≠ []) :
    s.runBytes c o pc fuse bs = exec .fusedGroup { s with arg := { fused := s.fusedAt c o pc } } := by
  simp [State.runBytes, h, hd, hf, hm]

theorem runBytes_illegal (h : s.codeBad c o pc bs.length = false) (hd : decode bs = none) :
    s.runBytes c o pc fuse bs = exec .illegalWord { s with arg := { maj := majOf bs, flag := decide (bs.length = 2) } } := by
  simp [State.runBytes, h, hd]

/-! ## The bytes of a line -/

theorem find?_lfill (o : Nat) : ∀ (vs : List Byte) (bs : List LByte) (off : Nat), (lfill bs off vs).find? (fun b => decide (b.off = o)) =
    (bs.find? fun b => decide (b.off = o)).or (if off ≤ o ∧ o < off + vs.length then some ⟨o, vs.getD (o - off) 0, false⟩ else none)
  | [], bs, off => by
    have : ¬ (off ≤ o ∧ o < off + ([] : List Byte).length) := by simp
    rw [if_neg this, Option.or_none]
    rfl
  | v :: vs, bs, off => by
    have ih := fun bs => find?_lfill o vs bs (off + 1)
    unfold lfill
    by_cases ho : o = off
    · subst ho
      have hin : o ≤ o ∧ o < o + (v :: vs).length := by simp
      rw [if_pos hin]
      split
      · rename_i hany
        rw [ih]
        obtain ⟨b, hb, he⟩ := List.any_eq_true.mp hany
        obtain ⟨x, hx⟩ := Option.isSome_iff_exists.mp (List.find?_isSome (p := fun b => decide (b.off = o)).mpr ⟨b, hb, by simpa using he⟩)
        simp [hx]
      · rename_i hany
        rw [ih, List.find?_append]
        simp
    · have hshift : (off ≤ o ∧ o < off + (v :: vs).length) ↔ (off + 1 ≤ o ∧ o < off + 1 + vs.length) := by simp; omega
      have hget : off + 1 ≤ o → (v :: vs).getD (o - off) 0 = vs.getD (o - (off + 1)) 0 := by
        intro h
        rw [show o - off = (o - (off + 1)) + 1 by omega]
        rfl
      have hrest : (if off ≤ o ∧ o < off + (v :: vs).length then some (⟨o, (v :: vs).getD (o - off) 0, false⟩ : LByte) else none) =
          if off + 1 ≤ o ∧ o < off + 1 + vs.length then some ⟨o, vs.getD (o - (off + 1)) 0, false⟩ else none := by
        simp only [hshift]
        split
        · rename_i h; rw [hget h.1]
        · rfl
      rw [hrest]
      split
      · exact ih bs
      · rw [ih, List.find?_append]
        simp [Ne.symm ho]

theorem cellRead_eq (m : List Host.Cell) : ∀ n a, cellRead m a n = (List.range n).map fun k => cellGet m (a + k)
  | 0, _ => rfl
  | n + 1, a => by
    rw [cellRead, cellRead_eq m n, List.range_succ_eq_map, List.map_cons, List.map_map]
    simp [Function.comp_def, Nat.add_assoc, Nat.add_comm 1]

/-! ## A fetch of a line that no cache holds -/

theorem l2Alloc_of_empty (s : State) (o : Own) (ln : Nat) (cmp : Bool) (h : s.l2 = []) :
    l2Alloc s o ln cmp = s ∨ ∃ w, l2Alloc s o ln cmp = { s with l2 := [CLine.fresh o ln w s.clock cmp (floorOf s o.part ln)] } := by
  have hf : l2find s ln = none := by simp [l2find, h]
  unfold l2Alloc
  simp only [hf, h, List.filter_nil, List.length_nil]
  have hq : ¬ (quotaOf s o ≠ 0 ∧ 0 ≥ quotaOf s o) := by omega
  rw [if_neg hq]
  unfold placeIn
  cases (l2Ways s o ln).find? (fun w => ([] : List CLine).all fun l => l.way ≠ w) with
  | none => left; rfl
  | some w => right; exact ⟨w, by simp [linePut, h]⟩

/-- A line that the home holds as it has been filled, or does not hold, reads as memory. -/
theorem homeLine_filled (s : State) (ln : Nat) (l : CLine) (hl : l.line = ln) (bs : List Byte) (hb : bs = cellRead s.mem (ln * 128) 128) :
    homeLine { s with l2 := [{ l with bytes := lfill [] 0 bs }] } ln = cellRead s.mem (ln * 128) 128 := by
  have hf : l2find { s with l2 := [{ l with bytes := lfill [] 0 bs }] } ln = some { l with bytes := lfill [] 0 bs } := by simp [l2find, hl]
  unfold homeLine
  rw [hf, cellRead_eq]
  refine List.map_congr_left fun o ho => ?_
  have ho : o < 128 := List.mem_range.mp ho
  subst hb
  simp [lget, find?_lfill, cellRead_eq, ho]

/-- The home reads a line into an empty L2: only the L2 changes, and the line reads as memory. -/
theorem homeFill_of_empty (s : State) (o : Own) (ln : Nat) (cmp : Bool) (h : s.l2 = []) :
    ∃ lines, homeFill s o ln cmp = { s with l2 := lines } ∧ homeLine { s with l2 := lines } ln = cellRead s.mem (ln * 128) 128 := by
  have hnone : l2find s ln = none := by simp [l2find, h]
  have hdrop : l2CmpDrop s ln cmp = s := by simp [l2CmpDrop, hnone]
  unfold homeFill
  rw [hdrop]
  rcases l2Alloc_of_empty s o ln cmp h with he | ⟨w, he⟩
  · refine ⟨s.l2, ?_, ?_⟩
    · simp [he, hnone]
    · simp [homeLine, hnone]
  · refine ⟨_, ?_, homeLine_filled s ln (CLine.fresh o ln w s.clock cmp (floorOf s o.part ln)) rfl _ rfl⟩
    simp [he, l2find, CLine.fresh, linePut]

/-- The bytes that the instruction cache delivers of a line that it did not hold and no L2 holds are those of memory, and its copy has the poison of memory. -/
theorem codeFill_of_empty {s : State} {c pa : Nat} (o : Own) (n : Nat) (cmp : Bool) (h : s.l2 = []) (hc : ∀ l ∈ (s.core c).icache, l.line ≠ pa / 128)
    (hn : pa % 128 + n ≤ 128) :
    (s.codeFill o c pa cmp).codeBytes c pa n = (List.range n).map (fun k => cellGet s.mem (pa + k)) ∧
      ∃ l ∈ ((s.codeFill o c pa cmp).core c).icache, l.line = pa / 128 ∧ l.poison = linePoison s (pa / 128) := by
  have hnone : (s.core c).icache.find? (fun l => l.line = pa / 128) = none := by simpa using hc
  obtain ⟨lines, hfill, hline⟩ := homeFill_of_empty s o (pa / 128) cmp h
  have hcache : ((s.codeFill o c pa cmp).core c).icache =
      (⟨pa / 128, cellRead s.mem (pa / 128 * 128) 128, linePoison s (pa / 128)⟩ :: (s.core c).icache).take 512 := by
    unfold State.codeFill
    simp only [hnone, hfill, hline, core_modCore]
    rfl
  refine ⟨?_, _, by rw [hcache]; exact List.mem_cons_self, rfl, rfl⟩
  unfold State.codeBytes
  simp only [hcache, List.take_succ_cons, List.find?_cons, decide_true, cellRead_eq]
  refine List.ext_getElem (by simp; omega) fun k hk hk' => ?_
  simp
  congr 1
  omega

theorem fetchPart_of_uncached {s : State} {c pa n al : Nat} {o : Own} {va : Dword} {mt cmp} (hc : checkGlobal s c o va n (fetchNeed al) = .ok (.glob pa mt cmp))
    (hn : pa % 128 + n ≤ 128) (h : s.l2 = []) (hi : ∀ l ∈ (s.core c).icache, l.line ≠ pa / 128) :
    ∃ s1, s.fetchPart c o va n al = .ok (s1, (List.range n).map fun k => cellGet s.mem (pa + k)) ∧
      ∃ l ∈ (s1.core c).icache, l.line = pa / 128 ∧ l.poison = linePoison s (pa / 128) := by
  obtain ⟨hrest, hcores⟩ := (noteXlate_calm s c o va.toNat).1
  generalize hw : noteXlate s c o va.toNat = w at hrest hcores
  have hmem : w.mem = s.mem := by rw [hrest]
  have hl2 : w.l2 = [] := by rw [hrest]; exact h
  have hpoison : w.poison = s.poison := by rw [hrest]
  have hicache : (w.core c).icache = (s.core c).icache := by
    have hstill := hcores c
    unfold Core.still at hstill
    rw [hstill]
  obtain ⟨hbytes, hcopy⟩ := codeFill_of_empty (s := w) o n cmp hl2 (by rw [hicache]; exact hi) hn
  refine ⟨w.codeFill o c pa cmp, ?_, ?_⟩
  · unfold State.fetchPart
    simp only [hc, hw, hbytes, hmem]
  · unfold linePoison at hcopy ⊢
    rwa [hpoison] at hcopy

/-- Code of two bytes is bad exactly when the copy that the instruction cache holds has the poison of its word. -/
theorem codeBad_half {s : State} {c pa mt : Nat} {o : Own} {pc : Dword} {cmp} {l : ICLine} (hc : checkGlobal s c o pc 2 (fetchNeed 2) = .ok (.glob pa mt cmp))
    (hl : (s.core c).icache.find? (fun y => decide (y.line = pa / 128)) = some l) : s.codeBad c o pc 2 = true ↔ pa / 8 ∈ l.poison := by
  unfold State.codeBad State.partBad
  simp [hc, hl]

/-! ## Behind a move -/

theorem markStall_of_running {th : Thread} (now : Nat) (hs : th.st = .running) (hn : th.stall = none) (hh : th.heeled = false) : th.markStall now = th := by
  simp [Thread.markStall, hs, hn, hh]

theorem wakeDoze_of_running {th : Thread} (hs : th.st = .running) : th.wakeDoze = th := by simp [Thread.wakeDoze, hs]

theorem mapThreads_of_fixed {s : State} {f : TRef → Thread → Thread} (h : ∀ x ∈ s.threads, f x.1 x.2 = x.2) : s.mapThreads f = s := by
  have : s.threads.map (fun x => (x.1, f x.1 x.2)) = s.threads := by
    conv_rhs => rw [← List.map_id s.threads]
    exact List.map_congr_left fun x hx => by rw [h x hx]; rfl
  unfold State.mapThreads
  rw [this]

theorem evalHeels_of_none {s : State} (h : ∀ x ∈ s.threads, x.2.heeled = false) : s.evalHeels = s := by
  have : s.threads.filter (fun x => x.2.heeled) = [] := by simpa using h
  unfold State.evalHeels
  rw [this]
  rfl

theorem anyPending_of_no_gen {s : State} (h : ∀ w ∈ s.warps, w.2.gen = none) : s.anyPending = false := by
  unfold State.anyPending
  rw [List.any_eq_false]
  intro w hw
  simp [h w hw]

theorem settle_of_running {s : State} (ht : ∀ x ∈ s.threads, x.2.st = .running ∧ x.2.stall = none ∧ x.2.heeled = false)
    (hw : ∀ w ∈ s.warps, w.2.gen = none) : s.settle = s := by
  unfold State.settle
  rw [mapThreads_of_fixed fun x hx => wakeDoze_of_running (ht x hx).1, evalHeels_of_none fun x hx => (ht x hx).2.2]
  simp only [anyPending_of_no_gen hw]
  exact mapThreads_of_fixed fun x hx => markStall_of_running _ (ht x hx).1 (ht x hx).2.1 (ht x hx).2.2

theorem highClock_of_low {s : State} (hc : ∀ c ∈ s.cores, c.2.scK < 2 ^ 47) (hl : ∀ l ∈ s.l2, l.stamp.clk < 2 ^ 47) (p : Nat) : s.highClock p = none := by
  have hcores : s.cores.find? (fun x => decide (s.partOf x.1 = p) && decide (2 ^ 47 ≤ x.2.scK)) = none := by
    rw [List.find?_eq_none]
    intro x hx
    have hlow := hc x hx
    simp
    omega
  have hlines : s.l2.find? (fun l => decide (l.part = p) && decide (2 ^ 47 ≤ l.stamp.clk)) = none := by
    rw [List.find?_eq_none]
    intro x hx
    have hlow := hl x hx
    simp
    omega
  unfold State.highClock
  simp only [hcores, hlines]
  rfl

theorem clockNotices_of_low {s : State} (hc : ∀ c ∈ s.cores, c.2.scK < 2 ^ 47) (hl : ∀ l ∈ s.l2, l.stamp.clk < 2 ^ 47) : s.clockNotices = s := by
  have hone : ∀ p, s.clockNotice p = s := fun p => by simp [State.clockNotice, highClock_of_low hc hl]
  unfold State.clockNotices
  generalize s.parts = l
  induction l with
  | nil => rfl
  | cons x l ih => rw [List.foldl_cons, hone, ih]

/-! ## Cycles -/

theorem advance_succ (s : State) {n : Nat} (h : n < 5) : s.advance (n + 1) = (s.advance 1).advance n := by
  unfold State.advance
  rw [if_pos (by omega), if_pos (by omega), if_pos (by omega)]
  rfl

/-! ## The port at its turn -/

/-- The state in which a port issues, with the record of its core written out. -/
theorem atPort_eq (w : State) (c p : Nat) (defer : Bool) :
    let last (w : State) (p : Nat) : Option Nat := if p = 0 then (w.core c).last0 else (w.core c).last1
    let w1 := if last w p = some w.clock ∨ (p = 0 ∧ last w 1 = some w.clock) then w.advance 1 else w
    let k := if p = 0 then { w1.core c with last0 := some w1.clock } else { w1.core c with last1 := some w1.clock }
    w.atPort c p defer = { w1.setCore c k with curCore := c, curPort := p, defer := defer } := rfl

theorem majOf_cons (b : Byte) (bs : List Byte) : majOf (b :: bs) = if b.getLsbD 0 then b.extractLsb' 2 6 else (b.extractLsb' 2 4).setWidth 6 := rfl

end Sys2Proof.Machine

open Sys2Proof Sys2Proof.Machine

/-- Settles O53, clause by clause from what a turn, an issue, a fetch, the settling and the passing of cycles are. -/
theorem stepRunsDecoded : Obligations.StepRunsDecoded := by
  unfold Obligations.StepRunsDecoded
  intro behind
  refine ⟨?_, ?_, ?_, ?_, ?_, ?_, fun s => ⟨rfl, rfl, fun n hn => advance_succ s hn⟩⟩
  · intro s dt c p fuse defer rest t g hq ha w last w1 k s0 hg hh o pc
    have hs0 : w.atPort c p defer = s0 := atPort_eq w c p defer
    have hstep : step s = behind (w.issueAt c p fuse defer) := by rw [step_eq, turn_of_agenda hq ha, make_issue]; rfl
    rw [← hs0] at hg hh
    refine ⟨fun inf hf => ?_, fun s1 bs hf hbad => ?_, fun s1 bs hf hgood => ?_⟩
    · rw [hstep, issueAt_fault hg hh (by rw [hs0]; exact hf), hs0]
    · rw [hstep, issueAt_bytes hg hh (by rw [hs0]; exact hf), hs0, runBytes_bad hbad]
    · have hrun : step s = behind (s1.runBytes c o pc fuse bs) := by
        rw [hstep, issueAt_bytes hg hh (by rw [hs0]; exact hf), hs0]
      refine ⟨fun i r hd hone => ?_, fun i r hd hfuse hmany => ?_, fun b0 b1 hd hbs => ?_, fun b0 b1 b2 b3 hd hbs => ?_⟩
      · rw [hrun, runBytes_alone hgood hd hone]
      · rw [hrun, runBytes_fused hgood hd hfuse hmany]
      · rw [hrun, runBytes_illegal hgood hd, hbs, majOf_cons]
        rfl
      · rw [hrun, runBytes_illegal hgood hd, hbs, majOf_cons]
        rfl
  · intro s x rest hq
    rw [step_eq, turn_of_hubq hq]
    rfl
  · intro s dt i a rest hq ha hi
    rw [step_eq, turn_of_agenda hq ha, make_event _ _ _ hi]
    rfl
  · intro s c o va n al pa mt cmp hc hn hl2 hi
    obtain ⟨s1, hf, l, hl, hline, hpoison⟩ := fetchPart_of_uncached hc hn hl2 hi
    exact ⟨s1, hf, l, hl, hline, fun w => by simp [hpoison, linePoison]⟩
  · intro s c o pc pa mt cmp l hc hl
    exact codeBad_half hc hl
  · intro s ht hw hc hl
    unfold State.after
    rw [settle_of_running ht hw, clockNotices_of_low hc hl]

end

section
/-! PROOFS. Pending events (R48, R226, R237): what landing one of two groups at the same register does. -/

namespace Sys2Proof.Machine

/-- An outstanding group of one word that begins at a register. -/
def groupAt (base : Nat) (src : OutSrc) : Out := { base := base, n := 1, named := false, past := false, exempt := false, src := src }

/-- A load of the first word of the scratchpad that has not taken its value. -/
def unreadWord : OutSrc := .load [⟨.scr ⟨0, 0⟩ 0, 4⟩] .raw

/-- A thread with a load to g5, a value on its way to g6, and behind it a second group at g6, whose load reads the bytes of the first. -/
def twoAtOneRegister : State :=
  { State.reset with
    threads := [(⟨0, 0, 0⟩, { outs := [groupAt 5 unreadWord, groupAt 6 (.val [7]), groupAt 6 unreadWord] })],
    arg := { k := 6 } }

/-- When the value lands, the load to g5 takes its bytes too: the later group at g6 counts as landing with it, and must follow that load. -/
theorem outs_twoAtOneRegister :
    ((twoAtOneRegister.landWrite ⟨0, 0, 0⟩ 6).thread? ⟨0, 0, 0⟩).map Thread.outs = some [groupAt 5 (.val [0])] := by
  decide

end Sys2Proof.Machine

open Sys2Proof Sys2Proof.Machine

/-- Refutes O41, in its first clause: PENDING_WRITE_LANDS for a group whose value is known is to leave the thread's other groups as they are.
It does not in `twoAtOneRegister`, where a second outstanding group begins at the same register. The clause would need that the bases of
the groups differ, as they do where every instruction waits for the groups that it touches (R48). -/
theorem not_pendingEvents : ¬ Obligations.PendingEvents := by
  unfold Obligations.PendingEvents
  intro h
  obtain ⟨hlands, -⟩ := h
  obtain ⟨hval, -⟩ := hlands twoAtOneRegister (groupAt 6 (.val [7])) rfl rfl (fun _ _ _ => nofun)
  obtain ⟨s', hs, -, -, th', hth, -, houts, -⟩ := hval [7] rfl
  have heq : s' = twoAtOneRegister.landWrite ⟨0, 0, 0⟩ 6 := by
    injection hs with hs
    exact hs.symm
  have hland := outs_twoAtOneRegister
  rw [← heq, show s'.thread? ⟨0, 0, 0⟩ = some th' from hth] at hland
  have hkept : th'.outs = [groupAt 5 unreadWord] := houts
  simp [hkept, groupAt, unreadWord] at hland

end
